-- ==== Sys2Proof/Word.lean ====
section
/-! DEFINITION. The words of Caeroux, the classes their fields name (R28 to R46), and the plain data that the
machine's events carry from outside the device. -/

namespace Sys2Proof

/-- A 32-bit register or instruction word (R25). -/
abbrev Word := BitVec 32

/-- One byte of memory. -/
abbrev Byte := BitVec 8

/-- A 7-bit operand field, by the table of R37. Every code names exactly one operand. -/
inductive Operand where
  | v (n : BitVec 6)
  | s (n : BitVec 4)
  | x (n : BitVec 2)
  | q (n : BitVec 2)
  | z
  | lane
  | cx
  | cy
  | cz
  | stp
  | phs
  | die
  /-- the neighbour operand nK.xJ, code 96 + 4K + J -/
  | nbr (k : BitVec 3) (j : BitVec 2)
deriving DecidableEq, Repr

/-- The 3-bit format tag of a v register or of a buffer granule (R70). `bad` is code 7, which no writer leaves. -/
inductive Tag where
  | raw | e4m3 | e5m2 | e2m1 | i8 | i4 | cb4 | bad
deriving DecidableEq, Repr

/-- The EXT prefix word (R35), less its major opcode. -/
structure Ext where
  g : Bool
  gp : BitVec 3
  gn : Bool
  scope : BitVec 3
  ord : BitVec 2
  o : Bool
  nt : Bool
  immx : BitVec 13
deriving DecidableEq, Repr

/-- A three-register word (R28, format R3) with its prefix. -/
structure R3 where
  x : Option Ext
  d : Operand
  a : Operand
  b : Operand
  k : Bool
  ea : Bool
  eb : Bool
  n : Bool
deriving DecidableEq, Repr

/-- A function word with one source (R28, format RF with Eb 0) and its prefix. -/
structure RF where
  x : Option Ext
  d : Operand
  a : Operand
  k : Bool
  ea : Bool
  n : Bool
deriving DecidableEq, Repr

/-- A register-immediate word (R28, format RI) with its prefix. -/
structure RI where
  x : Option Ext
  d : Operand
  a : Operand
  imm : BitVec 11
deriving DecidableEq, Repr

/-- A shift-immediate word (R30). -/
structure Shi where
  x : Option Ext
  d : Operand
  a : Operand
  n : BitVec 5
deriving DecidableEq, Repr

/-- A memory word (R31) with its prefix. -/
structure MW where
  x : Option Ext
  d : Operand
  a : Operand
  sz : BitVec 3
  off : BitVec 8
deriving DecidableEq, Repr

/-- A predicate source: p0 to p7, or its negation (R39). -/
structure PSrc where
  neg : Bool
  p : BitVec 3
deriving DecidableEq, Repr

/-- A lane mask m0 to m11 (R39). -/
abbrev MaskReg := Fin 12

/-- The conditions of `setp` and `setpi` (R46). -/
inductive Cond where
  | eq | ne | lt | le | gt | ge | ltu | leu | gtu | geu
deriving DecidableEq, Repr

/-- The conditions of `fsetp` (R46). -/
inductive FCond where
  | eq | ne | lt | le | gt | ge | un | ord
deriving DecidableEq, Repr

/-- The functions of `wred` (R46). -/
inductive RedOp where
  | add | min | max | minu | maxu | and | or | xor | fadd | fmin | fmax | blend
deriving DecidableEq, Repr

/-- The functions of `wscan` (R46). -/
inductive ScanOp where
  | add | addx | fadd | faddx
deriving DecidableEq, Repr

/-- The kinds of atomics and reductions (R46, R162). -/
inductive AtomKind where
  | add | min | max | minu | maxu | and | or | xor | exch | cas | fadd | fmin | fmax | mt
deriving DecidableEq, Repr

/-- The operators of `lred` (R46). -/
inductive LredOp where
  | add | fadd | mt
deriving DecidableEq, Repr

/-! ### What an event brings from outside the device

An event of the table has no encoding. Its operands name which queue entry, thread or engine operation it is about,
and hold what the outside world supplies in it: a peer's reply, the host's bytes, the outcome of a check made by a
unit whose inside the manual leaves to no rule. -/

/-- What reaches a delivery from beyond the device (R62, R166, R168, R170). -/
inductive PeerMsg where
  /-- the peer performed the entry; a read or load brings its bytes -/
  | done (bytes : List Byte)
  /-- the destination failed translation, or its die was out of service (R166) -/
  | failed
  /-- a reset of the peer's die intervened (R168, R239) -/
  | stale
  /-- a peer's own store, or an engine's write, enters the route to a logical die of this device, in context `ctx`; a store may be of
  the scheduled class (R282) -/
  | store (rank : BitVec 8) (ctx : Word) (die : Nat) (va : Nat) (bytes : List Byte) (sched : Bool)
  /-- a peer's reduction enters the route to a logical die of this device -/
  | reduce (rank : BitVec 8) (ctx : Word) (die : Nat) (va : Nat) (kind : AtomKind) (xs : List Word)
  /-- a peer's read enters the route to a logical die of this device -/
  | load (rank : BitVec 8) (ctx : Word) (die : Nat) (va len : Nat)
deriving DecidableEq, Repr

/-- What launch initialisation places from offset 0 on in each buffer of a hosting core: the kernel's sections a, c and w
(R334). -/
structure LaunchInit where
  a : List Byte
  c : List Byte
  w : List Byte
deriving DecidableEq, Repr

/-- What comes from outside the device with the start of a launch. -/
structure LaunchPlace where
  /-- the Shepherd's assignment of a lattice's cells (R179, R182): logical die, core, cells -/
  cells : List (Nat × Nat × List Nat)
  /-- the lattice descriptor that a peer device reports (R182) -/
  peer : List Word
  init : LaunchInit
deriving DecidableEq, Repr

/-- What an access of the host to a port's registers reaches: the control space (R306), or of the port's own PCIe function the MSI-X
table and Message Control or the AER capability (R303). -/
inductive HostSpace where
  | bar0 | msixTable | msixControl | aer
deriving DecidableEq, Repr

/-- What the host answers to a read that a copy asked of it: the port that the completion comes by, and its bytes (R232, R240). -/
structure HostReply where
  port : BitVec 1
  bytes : List Byte
deriving DecidableEq, Repr

/-- An access of the host to a port's registers (R303, R306): the port it comes through, its requester, the offset and the bytes asked
for, what it reaches, and whether the write that it makes is poisoned. -/
structure ControlAccess where
  port : BitVec 1
  req : Nat
  off : Nat
  len : Nat
  space : HostSpace
  poisoned : Bool
deriving DecidableEq, Repr

/-- Why a set of cores is pre-empted (R276). -/
inductive PreemptReason where
  | priority | placement
deriving DecidableEq, Repr

/-- What the ten start steps find (R320, R321): facts of the hardware and of its stores, not choices of the machine. -/
structure StartFacts where
  /-- passengers that answer the probe of step 3, bit per socket -/
  probe : Word
  /-- step s passes, in what the rules leave to the hardware; steps 1 to 10 in order -/
  pass : List Bool
  /-- the socket, port, rate or slot that each step's entry records (R319) -/
  detail : List Word
  /-- the digest that step 6 finds of the image in its firmware slot -/
  firmware : List Word
  /-- the schedule image that step 7 loads -/
  image : List Byte
  /-- host links, as IPT 0x0064 reports them -/
  links : Word
  /-- the step, from 0, in which the start is cut off -/
  cut : Option Nat
  /-- the re-provisioning image that a device stopped after step 6 is given -/
  reprovision : List Byte
deriving DecidableEq, Repr

/-- The pager of one lattice partition: its core and the lattice's launch (R200). -/
structure Pager where
  core : Nat
  launch : Nat
deriving DecidableEq, Repr

/-- A publication or phase report of a lattice launch (R197, R198); what a peer device's report brings beside. -/
structure FaceMsg where
  launch : Nat
  /-- the phase index published, as q + 1, so that 0 stands for P(-1) -/
  idx1 : Nat
  xs : List Word
  /-- the cell has retired, and this is its last publication -/
  retired : Bool
  /-- the peer carries the message; false: it is of a cell of this device -/
  remote : Bool
  /-- a peer's word that the lattice has ended, with its DETAIL (R198, R204) -/
  ended : Option Word
deriving DecidableEq, Repr

end Sys2Proof
end

