-- ==== Sys2Proof/Syntax.lean ====
section
/-! DEFINITION. Abstract syntax: one constructor per row of spec/opcode_table.json, the encoded instructions first and
then the events, which have no encoding (95_what_each_step_holds.md). -/

namespace Sys2Proof

/-- The instructions of Caeroux (R45, R46) and the events of the part. Each constructor's comment is its rule. -/
inductive Instr where
  /-- ADD (R118) -/
  | add (w : R3)
  /-- SUB (R118) -/
  | sub (w : R3)
  /-- MUL (R118) -/
  | mul (w : R3)
  /-- MULH (R118) -/
  | mulh (w : R3)
  /-- MULHU (R118) -/
  | mulhu (w : R3)
  /-- MAD (R118) -/
  | mad (w : R3)
  /-- DIV (R119) -/
  | div (w : R3)
  /-- DIVU (R119) -/
  | divu (w : R3)
  /-- REM (R119) -/
  | rem (w : R3)
  /-- REMU (R119) -/
  | remu (w : R3)
  /-- MIN (R118) -/
  | min (w : R3)
  /-- MAX (R118) -/
  | max (w : R3)
  /-- MINU (R118) -/
  | minu (w : R3)
  /-- MAXU (R118) -/
  | maxu (w : R3)
  /-- AND (R118) -/
  | and_ (w : R3)
  /-- OR (R118) -/
  | or_ (w : R3)
  /-- XOR (R118) -/
  | xor (w : R3)
  /-- ANDN (R118) -/
  | andn (w : R3)
  /-- SHL (R118) -/
  | shl (w : R3)
  /-- SHR (R118) -/
  | shr (w : R3)
  /-- SAR (R118) -/
  | sar (w : R3)
  /-- ROT (R118) -/
  | rot (w : R3)
  /-- ADDSAT (R118) -/
  | addsat (w : R3)
  /-- ADDI (R120) -/
  | addi (w : RI)
  /-- MULI (R120) -/
  | muli (w : RI)
  /-- ANDI (R120) -/
  | andi (w : RI)
  /-- ORI (R120) -/
  | ori (w : RI)
  /-- XORI (R120) -/
  | xori (w : RI)
  /-- SHLI (R120) -/
  | shli (w : Shi)
  /-- SHRI (R120) -/
  | shri (w : Shi)
  /-- SARI (R120) -/
  | sari (w : Shi)
  /-- ROTI (R120) -/
  | roti (w : Shi)
  /-- MOVI (R121) -/
  | movi (x : Option Ext) (d : Operand) (imm : BitVec 18)
  /-- MOVH (R121) -/
  | movh (x : Option Ext) (d : Operand) (imm : BitVec 18)
  /-- MOV (R122) -/
  | mov (w : RF)
  /-- NOT (R122) -/
  | not_ (w : RF)
  /-- NEG (R122) -/
  | neg (w : RF)
  /-- ABS (R122) -/
  | abs (w : RF)
  /-- CLZ (R122) -/
  | clz (w : RF)
  /-- CTZ (R122) -/
  | ctz (w : RF)
  /-- POPC (R122) -/
  | popc (w : RF)
  /-- BREV (R122) -/
  | brev (w : RF)
  /-- BSWAP (R122) -/
  | bswap (w : RF)
  /-- SXB (R122) -/
  | sxb (w : RF)
  /-- SXH (R122) -/
  | sxh (w : RF)
  /-- ZXB (R122) -/
  | zxb (w : RF)
  /-- ZXH (R122) -/
  | zxh (w : RF)
  /-- SETP (R123) -/
  | setp (x : Option Ext) (c : Cond) (p : BitVec 3) (a b : Operand) (k ea eb n : Bool)
  /-- SEL (R124) -/
  | sel (x : Option Ext) (d a b : Operand) (p : BitVec 3)
  /-- SETPI (R123) -/
  | setpi (x : Option Ext) (c : Cond) (p : BitVec 3) (a : Operand) (imm : BitVec 11)
  /-- FADD (R125) -/
  | fadd (w : R3)
  /-- FSUB (R125) -/
  | fsub (w : R3)
  /-- FMUL (R125) -/
  | fmul (w : R3)
  /-- FFMA (R125) -/
  | ffma (w : R3)
  /-- FMIN (R126) -/
  | fmin (w : R3)
  /-- FMAX (R126) -/
  | fmax (w : R3)
  /-- FDIV (R125) -/
  | fdiv (w : R3)
  /-- FSETP (R127) -/
  | fsetp (x : Option Ext) (c : FCond) (p : BitVec 3) (a b : Operand) (k ea eb n : Bool)
  /-- FABS (R128) -/
  | fabs (w : RF)
  /-- FNEG (R128) -/
  | fneg (w : RF)
  /-- FSQRT (R128) -/
  | fsqrt (w : RF)
  /-- FRCP (R128) -/
  | frcp (w : RF)
  /-- FRSQ (R128) -/
  | frsq (w : RF)
  /-- FEXP2 (R128) -/
  | fexp2 (w : RF)
  /-- FLOG2 (R128) -/
  | flog2 (w : RF)
  /-- FFLOOR (R128) -/
  | ffloor (w : RF)
  /-- FCEIL (R128) -/
  | fceil (w : RF)
  /-- FTRUNC (R128) -/
  | ftrunc (w : RF)
  /-- FRINT (R128) -/
  | frint (w : RF)
  /-- F2I (R129) -/
  | f2i (w : RF)
  /-- F2IZ (R129) -/
  | f2iz (w : RF)
  /-- F2U (R129) -/
  | f2u (w : RF)
  /-- F2UZ (R129) -/
  | f2uz (w : RF)
  /-- I2F (R129) -/
  | i2f (w : RF)
  /-- U2F (R129) -/
  | u2f (w : RF)
  /-- F2BF (R129) -/
  | f2bf (w : RF)
  /-- BF2F (R129) -/
  | bf2f (w : RF)
  /-- F2H (R129) -/
  | f2h (w : RF)
  /-- H2F (R129) -/
  | h2f (w : RF)
  /-- BFMA2 (R130) -/
  | bfma2 (w : R3)
  /-- BADD2 (R130) -/
  | badd2 (w : R3)
  /-- DOT4 (R132) -/
  | dot4 (w : R3)
  /-- DOT8 (R132) -/
  | dot8 (w : R3)
  /-- FSCL (R133) -/
  | fscl (w : R3)
  /-- PK8 (R134) -/
  | pk8 (w : R3)
  /-- UPK8 (R135) -/
  | upk8 (w : RF) (i : BitVec 2)
  /-- PK4 (R134) -/
  | pk4 (w : R3)
  /-- UPK4 (R135) -/
  | upk4 (w : RF) (i : BitVec 3)
  /-- FTAG (R136) -/
  | ftag (w : RF) (t : Tag)
  /-- BFX (R137) -/
  | bfx (x : Option Ext) (d a : Operand) (len1 pos : BitVec 5)
  /-- BFI (R137) -/
  | bfi (x : Option Ext) (d a : Operand) (len1 pos : BitVec 5)
  /-- BLEND (R140) -/
  | blend (w : R3)
  /-- BSLD (R139) -/
  | bsld (x : Option Ext) (a : Operand) (k ea eb n : Bool)
  /-- BSGET (R139) -/
  | bsget (x : Option Ext) (d : Operand) (n : BitVec 6)
  /-- BSRF (R139) -/
  | bsrf (w : RF) (eb : Bool)
  /-- MUPDW (R140) -/
  | mupdw (w : R3)
  /-- MUPD (R141) -/
  | mupd (w : RF)
  /-- MCLR (R141) -/
  | mclr (x : Option Ext) (d : Operand) (k ea n : Bool)
  /-- MMEAN (R141) -/
  | mmean (w : RF)
  /-- MVAR (R141) -/
  | mvar (w : RF)
  /-- MVARS (R141) -/
  | mvars (w : RF)
  /-- MRSTD (R141) -/
  | mrstd (w : RF)
  /-- MSUM (R141) -/
  | msum (w : RF)
  /-- JMP (R93) -/
  | jmp (off : BitVec 21)
  /-- BRP (R93) -/
  | brp (p : BitVec 3) (nz : Bool) (off : BitVec 21)
  /-- CALL (R93) -/
  | call (off : BitVec 21)
  /-- NOP (R94) -/
  | nop (x : Option Ext)
  /-- RET (R94) -/
  | ret (x : Option Ext)
  /-- EXIT (R86) -/
  | exit (x : Option Ext)
  /-- YIELD (R94) -/
  | yield (x : Option Ext)
  /-- BRK (R94) -/
  | brk (x : Option Ext)
  /-- JMPI (R93) -/
  | jmpi (w : RF) (eb : Bool)
  /-- MEET (R92) -/
  | meet (off : BitVec 21)
  /-- JOIN (R96) -/
  | join (x : Option Ext) (d : MaskReg)
  /-- LEAVE_MASK (R96) -/
  | leaveMask (x : Option Ext) (d : MaskReg)
  /-- MWAIT (R96) -/
  | mwait (x : Option Ext) (d : MaskReg)
  /-- MZERO_MASK (R96) -/
  | mzeroMask (x : Option Ext) (d : MaskReg)
  /-- MFILL (R96) -/
  | mfill (x : Option Ext) (d : MaskReg)
  /-- MMOV (R96) -/
  | mmov (x : Option Ext) (d a : MaskReg)
  /-- MAND (R96) -/
  | mand (x : Option Ext) (d a : MaskReg)
  /-- MOR (R96) -/
  | mor (x : Option Ext) (d a : MaskReg)
  /-- MXOR (R96) -/
  | mxor (x : Option Ext) (d a : MaskReg)
  /-- MNOT (R96) -/
  | mnot (x : Option Ext) (d a : MaskReg)
  /-- MPOPC (R96) -/
  | mpopc (x : Option Ext) (d : Operand) (a : MaskReg)
  /-- MTOS (R96) -/
  | mtos (x : Option Ext) (d : Operand) (a : MaskReg)
  /-- VOTE (R98) -/
  | vote (x : Option Ext) (d : MaskReg) (a : PSrc) (m : BitVec 4)
  /-- VEQ (R98) -/
  | veq (x : Option Ext) (d a : Operand) (m : BitVec 4)
  /-- SHFL (R99) -/
  | shfl (x : Option Ext) (d a b : Operand) (m : BitVec 4)
  /-- XCHG (R99) -/
  | xchg (x : Option Ext) (d a b : Operand) (m : BitVec 4)
  /-- WRED (R100) -/
  | wred (x : Option Ext) (f : RedOp) (d a : Operand) (m : BitVec 4)
  /-- WSCAN (R101) -/
  | wscan (x : Option Ext) (f : ScanOp) (d a : Operand) (m : BitVec 4)
  /-- LOOP (R102) -/
  | loop (lc : BitVec 2) (lenm1 : BitVec 8) (cnt : BitVec 7) (i : Bool) (nstep : BitVec 3)
  /-- WBASE (R88) -/
  | wbase (x : Option Ext) (a : Operand) (imm : BitVec 11)
  /-- LDN (R156) -/
  | ldn (w : MW)
  /-- STN (R157) -/
  | stn (w : MW)
  /-- LDA (R156) -/
  | lda (w : MW)
  /-- STA (R157) -/
  | sta (w : MW)
  /-- LDC (R156) -/
  | ldc (w : MW)
  /-- STC (R157) -/
  | stc (w : MW)
  /-- LDW (R156) -/
  | ldw (w : MW)
  /-- LDSC (R155) -/
  | ldsc (x : Option Ext) (d a : Operand) (off : BitVec 8)
  /-- ATOM (R161) -/
  | atom (x : Option Ext) (f : AtomKind) (d a b : Operand)
  /-- ARED (R161) -/
  | ared (x : Option Ext) (f : AtomKind) (a b : Operand)
  /-- ARED_X (R169) -/
  | aredX (x : Option Ext) (f : AtomKind) (a b : Operand)
  /-- LDX (R168) -/
  | ldx (w : RF) (eb : Bool)
  /-- STX (R167) -/
  | stx (x : Option Ext) (a b : Operand)
  /-- FENCE (R56) -/
  | fence (x : Option Ext)
  /-- FENCE_NTDRAIN (R56) -/
  | fenceNtdrain (x : Option Ext)
  /-- PREF (R160) -/
  | pref (x : Option Ext) (a : Operand) (off : BitVec 8)
  /-- ATOMA (R161) -/
  | atoma (x : Option Ext) (f : AtomKind) (d a b : Operand)
  /-- AREDA (R161) -/
  | areda (x : Option Ext) (f : AtomKind) (a b : Operand)
  /-- PHASE (R191) -/
  | phase (x : Option Ext)
  /-- PHASE_RETIRE (R191) -/
  | phaseRetire (x : Option Ext)
  /-- NBOK (R192) -/
  | nbok (x : Option Ext) (p : BitVec 3) (slot : BitVec 3)
  /-- LRED (R194) -/
  | lred (x : Option Ext) (f : LredOp) (d a : Operand) (ea : Bool)
  /-- LCFG (R193) -/
  | lcfg (x : Option Ext) (d : Operand) (w : BitVec 4)
  /-- MRES (R208) -/
  | mres (x : Option Ext) (p : BitVec 3)
  /-- MRESW (R208) -/
  | mresw (x : Option Ext)
  /-- MREL (R208) -/
  | mrel (x : Option Ext)
  /-- MMA (R218) -/
  | mma (x : Option Ext) (d a b : Operand) (k eb : Bool)
  /-- MDR (R225) -/
  | mdr (x : Option Ext) (d a : Operand) (k ea eb : Bool)
  /-- XCP (R231) -/
  | xcp (x : Option Ext) (d a : Operand) (ea : Bool)
  /-- XSORT (R243) -/
  | xsort (x : Option Ext) (d a : Operand) (ea : Bool)
  /-- XCOL (R248) -/
  | xcol (x : Option Ext) (d a : Operand) (ea : Bool)
  /-- MZERO (R221) -/
  | mzero (x : Option Ext) (d a : Operand)
  /-- BAR_INIT (R110) -/
  | barInit (x : Option Ext) (nsp : Bool) (a b : Operand)
  /-- BAR_ARRIVE (R110) -/
  | barArrive (x : Option Ext) (nsp : Bool) (a : Operand)
  /-- BAR_WAIT (R110) -/
  | barWait (x : Option Ext) (nsp : Bool) (a : Operand) (par : Bool)
  /-- BAR_EXPECT (R110) -/
  | barExpect (x : Option Ext) (nsp : Bool) (a b : Operand)
  /-- BAR_TEST (R110) -/
  | barTest (x : Option Ext) (nsp : Bool) (p : BitVec 3) (a : Operand) (par : Bool)
  /-- FWAIT (R105) -/
  | fwait (x : Option Ext) (d a : Operand)
  /-- FTEST (R105) -/
  | ftest (x : Option Ext) (p : BitVec 3) (a : Operand)
  /-- FCANCEL (R105) -/
  | fcancel (x : Option Ext) (a : Operand)
  /-- QENTER (R294) -/
  | qenter (x : Option Ext)
  /-- QLEAVE (R294) -/
  | qleave (x : Option Ext)
  /-- QPT (R294) -/
  | qpt (x : Option Ext)
  /-- GWAIT (R294) -/
  | gwait (x : Option Ext)
  /-- GSTART (R294) -/
  | gstart (x : Option Ext) (d : Operand)
  /-- GPOLL (R294) -/
  | gpoll (x : Option Ext) (p : BitVec 3) (a : Operand)
  /-- LEES (R296) -/
  | lees (x : Option Ext) (a b : Operand) (ea eb : Bool)
  /-- PALLOC (R296) -/
  | palloc (x : Option Ext) (d a : Operand) (ea eb : Bool)
  /-- PFREE (R296) -/
  | pfree (x : Option Ext) (a b : Operand) (ea eb : Bool)
  /-- QLEN (R108) -/
  | qlen (x : Option Ext) (d a : Operand)
  /-- QBIND (R108) -/
  | qbind (x : Option Ext) (d a : Operand)
  /-- LAUNCH (R266) -/
  | launch (x : Option Ext) (d a : Operand) (ea : Bool)
  /-- TRAP (R274) -/
  | trap (x : Option Ext) (n : BitVec 10)
  /-- RTE (R275) -/
  | rte (x : Option Ext)
  /-- GETS (R279) -/
  | gets (x : Option Ext) (d : Operand) (n : BitVec 11)
  /-- SETS (R279) -/
  | sets (x : Option Ext) (a : Operand) (n : BitVec 11)
  /-- TWAIT (R281) -/
  | twait (x : Option Ext) (a : Operand) (ea : Bool)
  /-- TLBINV (R283) -/
  | tlbinv (x : Option Ext) (a : Operand)
  /-- CTXSAVE (R283) -/
  | ctxsave (x : Option Ext) (d a : Operand)
  /-- CTXLOAD (R283) -/
  | ctxload (x : Option Ext) (d a : Operand)
  /-- ICINV (R283) -/
  | icinv (x : Option Ext)
  /-- HALT (R283) -/
  | halt (x : Option Ext) (a : Operand)
  /-- LEAVE_FIFO (R51) -/
  | leaveFifo (warp : Nat)
  /-- APPLY (R51) -/
  | apply (core : Nat)
  /-- DRAIN (R51) -/
  | drain (core i : Nat)
  /-- MERGE (R164) -/
  | merge (core i j : Nat)
  /-- FILL (R51) -/
  | fill (core line : Nat)
  /-- EVICT (R51) -/
  | evict (core line : Nat)
  /-- PERFORM (R52) -/
  | perform (tid : Nat) (useCopy : Bool)
  /-- NT_DRAIN (R159) -/
  | ntDrain (core i : Nat)
  /-- DELIVER (R61) -/
  | deliver (i : Nat) (m : PeerMsg)
  /-- ENGINE_START (R58) -/
  | engineStart (op : Nat)
  /-- ENGINE_READ (R58) -/
  | engineRead (op : Nat) (m : PeerMsg)
  /-- ENGINE_WRITE (R58) -/
  | engineWrite (op i : Nat)
  /-- ENGINE_COMPLETE (R19) -/
  | engineComplete (op : Nat)
  /-- ENGINE_CANCEL (R21) -/
  | engineCancel (op : Nat)
  /-- CHANNEL_POP_SERVED (R106) -/
  | channelPopServed (core i : Nat)
  /-- MEET_RELEASE (R91) -/
  | meetRelease (warp : Nat) (at_ : Word)
  /-- CROSS_LANE_MEETING (R97) -/
  | crossLaneMeeting (warp : Nat)
  /-- MWAIT_RELEASE (R96) -/
  | mwaitRelease (warp : Nat) (m : MaskReg)
  /-- BUNDLE_REGROUP (R90) -/
  | bundleRegroup (core : Nat) (groups : List (List Nat))
  /-- ISSUE_BOUND (R270) -/
  | issueBound (core i : Nat)
  /-- DEFERRED_COMPLETE (R189) -/
  | deferredComplete (tid i : Nat)
  /-- PHASE_END (R191) -/
  | phaseEnd (cell : Nat)
  /-- FACE_DELIVERY (R197) -/
  | faceDelivery (core ell : Nat) (m : FaceMsg)
  /-- PHASE_REPORT (R198) -/
  | phaseReport (core ell : Nat) (m : FaceMsg)
  /-- LRED_RESULT (R195) -/
  | lredResult (launch q : Nat)
  /-- PAGER_FILL (R200) -/
  | pagerFill (core : Pager)
  /-- PAGER_EXCHANGE (R200) -/
  | pagerExchange (core : Pager)
  /-- LAUNCH_START (R263) -/
  | launchStart (launch : Nat) (place : LaunchPlace)
  /-- TEAM_CLAIM (R267) -/
  | teamClaim (launch die core : Nat)
  /-- PACK_START (R268) -/
  | packStart (launch die : Nat) (cores : List Nat)
  /-- GRID_COMPLETE (R265) -/
  | gridComplete (launch : Nat)
  /-- TRAP_DELIVERY (R271) -/
  | trapDelivery (tid : Nat)
  /-- PREEMPT (R276) -/
  | preempt (ctx : Nat) (cores : List Nat) (why : PreemptReason)
  /-- RESTORE (R277) -/
  | restore (ctx : Nat) (cores : List Nat)
  /-- TWAIT_EXPIRY (R281) -/
  | twaitExpiry (tid : Nat)
  /-- FAULT_RECORD_OFFER (R313) -/
  | faultRecordOffer (die : Nat)
  /-- PEER_ACK_TIMEOUT (R170) -/
  | peerAckTimeout (i : Nat)
  /-- BEGIN (R290) -/
  | beginPeriod
  /-- END (R290) -/
  | endPeriod
  /-- INBOUND_POSTED_WRITE (R304) -/
  | inboundPostedWrite (port : BitVec 1) (req : Nat) (off : Nat) (bytes : List Byte) (poisoned : Bool)
  /-- INBOUND_READ (R304) -/
  | inboundRead (port : BitVec 1) (req : Nat) (off : Nat) (len : Nat)
  /-- HOST_LAUNCH (R308) -/
  | hostLaunch (port : BitVec 1) (req : Nat) (ctxid : Word)
  /-- CREATE_CONTEXT (R309) -/
  | createContext (blk rec pools : List Word) (room : Bool)
  /-- DESTROY_CONTEXT (R309) -/
  | destroyContext (blk : List Word)
  /-- LOAD_SCHEDULE_IMAGE (R309): the bytes that the image's signature covers, and the signature (R337) -/
  | loadScheduleImage (blk : List Word) (img sig : List Byte) (room : Bool)
  /-- LOAD_FIRMWARE (R309) -/
  | loadFirmware (blk : List Word) (img sig : List Byte)
  /-- SET_DOMAIN_RANK (R309) -/
  | setDomainRank (blk : List Word)
  /-- RESET_DIE (R309) -/
  | resetDie (blk : List Word)
  /-- CLEAR_BOOT_HISTORY (R309) -/
  | clearBootHistory (blk : List Word)
  /-- ANSWER_FAULT (R308) -/
  | answerFault (blk : List Word)
  /-- FRESP_REPLAY (R315) -/
  | frespReplay (die : Nat)
  /-- FRESP_TERMINATE (R315) -/
  | frespTerminate (die : Nat)
  /-- ERRINJ (R316) -/
  | errinj (val : Word)
  /-- EQPOP (R314) -/
  | eqpop
  /-- FATALSTAT (R313) -/
  | fatalstat (val : Word)
  /-- TIMELO (R307) -/
  | timelo (req : Nat)
  /-- LINKSTAT (R308) -/
  | linkstat (port : Nat)
  /-- CONTROL_REGISTER_WRITE (R307) -/
  | controlRegisterWrite (acc : ControlAccess) (val : Word)
  /-- LINK_RETRY (R311) -/
  | linkRetry (port : Nat)
  /-- LINK_RETRIES_EXHAUSTED (R311) -/
  | linkRetriesExhausted (port : Nat) (lost : List Nat)
  /-- LINK_UP (R336) -/
  | linkUp (port : Nat) (rank : BitVec 8) (ndie : Nat)
  /-- TIME_LOCK_LOST (R311) -/
  | timeLockLost
  /-- TIME_LOCK_GAINED (R311) -/
  | timeLockGained (gmTime : BitVec 64)
  /-- DIE_FATAL (R313) -/
  | dieFatal (die : Nat) (field : BitVec 2)
  /-- TAMPER_ALARM (R318) -/
  | tamperAlarm (input : BitVec 3)
  /-- DEVICE_START (R320) -/
  | deviceStart (f : StartFacts)
  /-- DEVICE_RESTART (R320) -/
  | deviceRestart (f : StartFacts)
  /-- GET_VERSION (R317) -/
  | getVersion (port : BitVec 1)
  /-- GET_CAPABILITIES (R317) -/
  | getCapabilities (port : BitVec 1)
  /-- NEGOTIATE_ALGORITHMS (R317) -/
  | negotiateAlgorithms (port : BitVec 1)
  /-- GET_DIGESTS (R317) -/
  | getDigests (port : BitVec 1)
  /-- GET_CERTIFICATE (R317) -/
  | getCertificate (port : BitVec 1)
  /-- CHALLENGE (R317) -/
  | challenge (port : BitVec 1)
  /-- GET_MEASUREMENTS (R317) -/
  | getMeasurements (port : BitVec 1)
  /-- DIE_RESET_COMPLETED (R314) -/
  | dieResetCompleted (die : Nat)
  /-- MANAGEMENT_COMMAND_DONE (R309) -/
  | managementCommandDone
  /-- HOST_COMPLETION (R240): it comes through the port that the request went out by -/
  | hostCompletion (op : Nat) (reply : HostReply) (err : Bool)
  /-- HOST_LINK_DOWN (R314) -/
  | hostLinkDown (port : BitVec 1)
  /-- MEMBER_COMPLETES_START (R336) -/
  | memberCompletesStart (rank : BitVec 8) (ndie : Nat)
deriving DecidableEq, Repr

end Sys2Proof
end

