-- ==== Sys2Proof/WellFormed.lean ====
section
/-! DEFINITION. Which instruction words are legal (R35 to R39, R44, R47): decided from the word and its EXT word
alone. A word that is not takes the illegal-instruction trap in every thread that reaches it. -/

namespace Sys2Proof

namespace Operand

/-- a per-lane v register -/
def isV : Operand → Bool
  | .v _ => true
  | _ => false

/-- a warp-uniform s register -/
def isS : Operand → Bool
  | .s _ => true
  | _ => false

def isX : Operand → Bool
  | .x _ => true
  | _ => false

def isQ : Operand → Bool
  | .q _ => true
  | _ => false

def isZ : Operand → Bool
  | .z => true
  | _ => false

/-- v or s: the class of an address field and of a handle (R38) -/
def isVS (o : Operand) : Bool := o.isV || o.isS

/-- v, s, x, q and z: the default destination class (R38) -/
def isDst (o : Operand) : Bool := o.isV || o.isS || o.isX || o.isQ || o.isZ

/-- v, s and x: a destination that is also read (R116) -/
def isRmw (o : Operand) : Bool := o.isV || o.isS || o.isX

/-- v, s, x and z -/
def isVSXZ (o : Operand) : Bool := o.isV || o.isS || o.isX || o.isZ

/-- v, s and z -/
def isVSZ (o : Operand) : Bool := o.isV || o.isS || o.isZ

/-- v and x -/
def isVX (o : Operand) : Bool := o.isV || o.isX

/-- an even v register -/
def isVEven : Operand → Bool
  | .v n => n.toNat % 2 == 0
  | _ => false

/-- a v register whose number is a multiple of 4: a triple or a quad (R31, R39) -/
def isTriple : Operand → Bool
  | .v n => n.toNat % 4 == 0
  | _ => false

/-- an even v or s register, naming a pair (R166) -/
def isPair : Operand → Bool
  | .v n => n.toNat % 2 == 0
  | .s n => n.toNat % 2 == 0
  | _ => false

/-- q1 to q3 -/
def isQChan : Operand → Bool
  | .q n => n != 0
  | _ => false

end Operand

namespace Ext

/-- R35: with G = 0 the guard fields are 0; scopes 6 and 7 are illegal; R36: an order needs a scope. -/
def base (e : Ext) : Bool :=
  (e.g || (e.gp == 0 && !e.gn)) && e.scope.toNat ≤ 5 && (e.ord == 0 || e.scope != 0)

end Ext

/-- A guard is the only attribute allowed; `imm` says that the word accepts immx (R30, R31). -/
def extGuard (x : Option Ext) (imm : Bool := false) : Bool :=
  match x with
  | none => true
  | some e => e.base && e.scope == 0 && e.ord == 0 && !e.o && !e.nt && (imm || e.immx == 0)

/-- The ordering attributes of one row of R36's table. -/
def extOrd (x : Option Ext) (imm : Bool) (ords : List Nat) (scopes : List Nat) (o nt : Bool) : Bool :=
  match x with
  | none => ords.contains 0 && scopes.contains 0
  | some e => e.base && ords.contains e.ord.toNat && scopes.contains e.scope.toNat && (o || !e.o) && (nt || !e.nt) &&
      (imm || e.immx == 0)

/-- K, Ea, Eb and N of a word with sources a and b (R41, R43, R44). -/
def flagsOk (d a b : Operand) (k ea eb n : Bool) : Bool :=
  (!k || a.isV) && (!ea || a.isVS) && (!eb || b.isVS) && (!n || d.isQ || a.isQ || b.isQ)

namespace R3

/-- The flags and prefix of an R3 arithmetic word, its destination class aside. -/
def common (w : R3) : Bool := flagsOk w.d w.a w.b w.k w.ea w.eb w.n && extGuard w.x

/-- default classes (R38) -/
def alu (w : R3) : Bool := w.common && w.d.isDst

/-- a destination that is read (R116) -/
def rmw (w : R3) : Bool := w.common && w.d.isRmw

/-- a destination that must be a v register -/
def vOnly (w : R3) : Bool := w.common && w.d.isV

end R3

namespace RF

/-- The flags and prefix of an RF arithmetic word. -/
def common (w : RF) : Bool := flagsOk w.d w.a .z w.k w.ea false w.n && extGuard w.x

def alu (w : RF) : Bool := w.common && w.d.isDst

/-- a finaliser: a is a triple (R141) -/
def triple (w : RF) : Bool := w.common && w.d.isDst && w.a.isTriple

end RF

namespace MW

/-- Register classes of a load of size code sz (R31, R156). -/
def loadRegs (w : MW) : Bool :=
  w.a.isVS && (if w.sz == 5 then w.d.isVEven else if w.sz == 6 then w.d.isTriple else w.d.isVS)

/-- Register classes of a store (R157). -/
def storeRegs (w : MW) : Bool :=
  w.a.isVS && (if w.sz == 5 then w.d.isVEven else if w.sz == 6 then w.d.isTriple else w.d.isVSZ)

end MW

/-- A member mask: m0 to m11, or 15 for all live lanes (R29). -/
def tailOk (m : BitVec 4) : Bool := m.toNat ≤ 11 || m == 15

/-- Special registers that `gets` reads (R112). -/
def sregReadable (n : BitVec 11) : Bool :=
  let i := n.toNat
  i ≤ 0x00D || (0x010 ≤ i && i ≤ 0x016) || (0x018 ≤ i && i ≤ 0x01B) || (0x020 ≤ i && i ≤ 0x025) || (0x028 ≤ i && i ≤ 0x02B)

/-- Special registers that `sets` writes (R112). -/
def sregWritable (n : BitVec 11) : Bool :=
  [0x010, 0x011, 0x012, 0x014, 0x015, 0x016, 0x020, 0x024, 0x028].contains n.toNat

/-- The operand of an atomic or reduction (R161): any class but q, a triple for mt, an even v register for cas. -/
def atomOperand (f : AtomKind) (b : Operand) : Bool :=
  match f with
  | .cas => b.isVEven
  | .mt => b.isTriple
  | _ => !b.isQ

/-- exch and cas return a value, so reductions have neither (R46). -/
def AtomKind.isRed (f : AtomKind) : Bool := f != .exch && f != .cas


/-- Legality of an instruction (R47): what its entry says of each field. An event has no word, and is legal. -/
def Instr.legal (i : Instr) : Bool :=
  match i with
  | .add w => w.alu
  | .sub w => w.alu
  | .mul w => w.alu
  | .mulh w => w.alu
  | .mulhu w => w.alu
  | .mad w => w.rmw
  | .div w => w.alu
  | .divu w => w.alu
  | .rem w => w.alu
  | .remu w => w.alu
  | .min w => w.alu
  | .max w => w.alu
  | .minu w => w.alu
  | .maxu w => w.alu
  | .and_ w => w.alu
  | .or_ w => w.alu
  | .xor w => w.alu
  | .andn w => w.alu
  | .shl w => w.alu
  | .shr w => w.alu
  | .sar w => w.alu
  | .rot w => w.alu
  | .addsat w => w.alu
  | .addi w => w.d.isDst && extGuard w.x true
  | .muli w => w.d.isDst && extGuard w.x true
  | .andi w => w.d.isDst && extGuard w.x true
  | .ori w => w.d.isDst && extGuard w.x true
  | .xori w => w.d.isDst && extGuard w.x true
  | .shli w => w.d.isDst && extGuard w.x
  | .shri w => w.d.isDst && extGuard w.x
  | .sari w => w.d.isDst && extGuard w.x
  | .roti w => w.d.isDst && extGuard w.x
  | .movi x d _ => d.isDst && extGuard x
  | .movh x d _ => d.isRmw && extGuard x
  | .mov w => w.alu
  | .not_ w => w.alu
  | .neg w => w.alu
  | .abs w => w.alu
  | .clz w => w.alu
  | .ctz w => w.alu
  | .popc w => w.alu
  | .brev w => w.alu
  | .bswap w => w.alu
  | .sxb w => w.alu
  | .sxh w => w.alu
  | .zxb w => w.alu
  | .zxh w => w.alu
  | .setp x _ _ a b k ea eb n => flagsOk .z a b k ea eb n && extGuard x
  | .sel x d _ _ _ => d.isDst && extGuard x
  | .setpi x _ _ _ _ => extGuard x true
  | .fadd w => w.alu
  | .fsub w => w.alu
  | .fmul w => w.alu
  | .ffma w => w.rmw
  | .fmin w => w.alu
  | .fmax w => w.alu
  | .fdiv w => w.alu
  | .fsetp x _ _ a b k ea eb n => flagsOk .z a b k ea eb n && extGuard x
  | .fabs w => w.alu
  | .fneg w => w.alu
  | .fsqrt w => w.alu
  | .frcp w => w.alu
  | .frsq w => w.alu
  | .fexp2 w => w.alu
  | .flog2 w => w.alu
  | .ffloor w => w.alu
  | .fceil w => w.alu
  | .ftrunc w => w.alu
  | .frint w => w.alu
  | .f2i w => w.alu
  | .f2iz w => w.alu
  | .f2u w => w.alu
  | .f2uz w => w.alu
  | .i2f w => w.alu
  | .u2f w => w.alu
  | .f2bf w => w.alu
  | .bf2f w => w.alu
  | .f2h w => w.alu
  | .h2f w => w.alu
  | .bfma2 w => w.rmw
  | .badd2 w => w.alu
  | .dot4 w => w.rmw
  | .dot8 w => w.rmw
  | .fscl w => w.alu
  | .pk8 w => w.vOnly
  | .upk8 w _ => w.alu
  | .pk4 w => w.vOnly
  | .upk4 w _ => w.alu
  | .ftag w t => w.common && w.d.isV && t != .bad
  | .bfx x d _ _ _ => d.isDst && extGuard x
  | .bfi x d _ _ _ => d.isRmw && extGuard x
  | .blend w => w.common && w.d.isTriple && w.a.isTriple && w.b.isTriple
  | .bsld x a k ea eb n => a.isPair && flagsOk .z a .z k ea eb n && extGuard x
  | .bsget x d n => d.isDst && 1 ≤ n.toNat && n.toNat ≤ 32 && extGuard x
  | .bsrf w eb => w.alu && !eb
  | .mupdw w => w.common && w.d.isTriple
  | .mupd w => w.common && w.d.isTriple
  | .mclr x d k ea n => d.isTriple && !k && !ea && !n && extGuard x
  | .mmean w => w.triple
  | .mvar w => w.triple
  | .mvars w => w.triple
  | .mrstd w => w.common && w.d.isRmw && w.a.isTriple
  | .msum w => w.triple
  | .jmp _ => true
  | .brp _ _ _ => true
  | .call _ => true
  | .nop x => extGuard x
  | .ret x => extGuard x
  | .exit x => extGuard x
  | .yield x => extGuard x
  | .brk x => extGuard x
  | .jmpi w eb => w.d.isVSZ && w.a.isVS && (!w.k || w.a.isV) && !w.n && !eb && extGuard w.x
  | .meet _ => true
  | .join x _ => extGuard x
  | .leaveMask x _ => extGuard x
  | .mwait x _ => extGuard x
  | .mzeroMask x _ => extGuard x
  | .mfill x _ => extGuard x
  | .mmov x _ _ => extGuard x
  | .mand x _ _ => extGuard x
  | .mor x _ _ => extGuard x
  | .mxor x _ _ => extGuard x
  | .mnot x _ _ => extGuard x
  | .mpopc x d _ => d.isS && extGuard x
  | .mtos x d _ => d.isS && extGuard x
  | .vote x _ _ m => tailOk m && extGuard x
  | .veq x d a m => d.isV && !a.isQ && tailOk m && extGuard x
  | .shfl x d a b m => d.isVX && !a.isQ && b.isVSZ && tailOk m && extGuard x
  | .xchg x d a b m => d.isVX && !a.isQ && b.isVSZ && tailOk m && extGuard x
  | .wred x f d a m => (if f = .blend then d.isTriple && a.isTriple else d.isVS && !a.isQ) && tailOk m && extGuard x
  | .wscan x _ d a m => d.isVX && !a.isQ && tailOk m && extGuard x
  | .loop lc _ cnt i _ => lc != 3 && (i || cnt.toNat ≤ 79)
  | .wbase x a _ => (a.isZ || a.isS) && extGuard x true
  | .ldn w => w.loadRegs && [0, 1, 2, 3, 4, 5, 6].contains w.sz.toNat && extOrd w.x true [0, 1] [0, 1, 2, 3, 4, 5] false false
  | .stn w => w.storeRegs && [0, 2, 4, 5, 6].contains w.sz.toNat && extOrd w.x true [0, 2] [0, 1, 2, 3, 4, 5] false true
  | .lda w => w.loadRegs && [0, 1, 2, 3, 4, 5, 6].contains w.sz.toNat && extGuard w.x true
  | .sta w => w.storeRegs && [0, 2, 4, 5, 6].contains w.sz.toNat && extGuard w.x true
  | .ldc w => w.loadRegs && [4, 5, 6].contains w.sz.toNat && extGuard w.x true
  | .stc w => w.storeRegs && [4, 5, 6].contains w.sz.toNat && extGuard w.x true
  | .ldw w => w.loadRegs && [4, 5, 6].contains w.sz.toNat && extGuard w.x true
  | .ldsc x d a _ => d.isVS && a.isVS && extGuard x true
  | .atom x f d a b => f != .mt && d.isVSZ && a.isVS && atomOperand f b && extOrd x false [0, 1, 2, 3] [0, 1, 2, 3, 4, 5] true false
  | .ared x f a b => f.isRed && a.isVS && atomOperand f b && extOrd x false [0, 2] [0, 1, 2, 3, 4, 5] true false
  | .aredX x f a b => f.isRed && a.isPair && atomOperand f b && extOrd x false [0, 2] [0, 4, 5] true false
  | .ldx w eb => w.d.isVEven && w.a.isPair && (!w.k || w.a.isV) && !w.n && !eb && extOrd w.x false [0, 1] [0, 4, 5] false false
  | .stx x a _ => a.isPair && extOrd x false [0, 2] [0, 4, 5] false false
  | .fence x => extOrd x false [1, 2, 3] [1, 2, 3, 4, 5] false false
  | .fenceNtdrain x => extOrd x false [0] [1, 2, 3, 4, 5] false false
  | .pref x a _ => a.isVS && extGuard x true
  | .atoma x f d a b => f != .mt && d.isVSZ && a.isVS && atomOperand f b && extOrd x false [0, 1, 2, 3] [0, 1] true false
  | .areda x f a b => f.isRed && a.isVS && atomOperand f b && extOrd x false [0, 1, 2, 3] [0, 1] true false
  | .phase x => extGuard x
  | .phaseRetire x => extGuard x
  | .nbok x _ _ => extGuard x
  | .lred x f d a ea => (if f = .mt then d.isTriple && a.isTriple else d.isVS && !a.isQ) && (!ea || a.isVS) && extGuard x
  | .lcfg x d _ => d.isVSXZ && extGuard x
  | .mres x _ => extGuard x
  | .mresw x => extGuard x
  | .mrel x => extGuard x
  | .mma x d a b _ _ => d.isVS && a.isV && b.isVS && extOrd x false [0, 1, 2, 3] [0, 1, 2, 3, 4, 5] false false
  | .mdr x d a k _ eb => d.isVS && a.isVS && (!k || a.isV) && !eb && extOrd x false [0, 1, 2, 3] [0, 1, 2, 3, 4, 5] false false
  | .xcp x d a _ => d.isVS && a.isVS && extGuard x
  | .xsort x d a _ => d.isVS && a.isVS && extOrd x false [0, 1, 2, 3] [0, 1, 2, 3, 4, 5] false false
  | .xcol x d a _ => d.isVS && a.isVS && extGuard x
  | .mzero x d a => d.isVS && a.isPair && extGuard x
  | .barInit x _ a b => a.isVS && b.isVS && extGuard x
  | .barArrive x _ a => a.isVS && extGuard x
  | .barWait x _ a _ => a.isVS && extGuard x
  | .barExpect x _ a b => a.isVS && b.isVSZ && extGuard x
  | .barTest x _ _ a _ => a.isVS && extGuard x
  | .fwait x d a => d.isVSZ && a.isVS && extGuard x
  | .ftest x _ a => a.isVS && extGuard x
  | .fcancel x a => a.isVS && extGuard x
  | .qenter x => extGuard x
  | .qleave x => extGuard x
  | .qpt x => extGuard x
  | .gwait x => extGuard x
  | .gstart x d => d.isVSXZ && extGuard x
  | .gpoll x _ a => a.isVS && extGuard x
  | .lees x a b _ _ => a.isVS && b.isVS && extGuard x
  | .palloc x d a _ eb => d.isVSXZ && a.isVS && !eb && extGuard x
  | .pfree x a b _ _ => a.isVS && b.isVS && extGuard x
  | .qlen x d a => d.isVS && a.isQ && extGuard x
  | .qbind x d a => d.isQChan && a.isVSZ && extGuard x
  | .launch x d a _ => d.isVS && a.isVS && extGuard x
  | .trap x _ => extGuard x
  | .rte x => extGuard x
  | .gets x d n => d.isVSXZ && sregReadable n && extGuard x
  | .sets x a n => a.isVSZ && sregWritable n && extGuard x
  | .twait x a _ => a.isPair && extGuard x
  | .tlbinv x a => a.isTriple && extGuard x
  | .ctxsave x d _ => d.isVSZ && extGuard x
  | .ctxload x d _ => d.isVSZ && extGuard x
  | .icinv x => extGuard x
  | .halt x _ => extGuard x
  | .leaveFifo _ => true
  | .apply _ => true
  | .drain _ _ => true
  | .merge _ _ _ => true
  | .fill _ _ => true
  | .evict _ _ => true
  | .perform _ _ => true
  | .ntDrain _ _ => true
  | .deliver _ _ => true
  | .engineStart _ => true
  | .engineRead _ _ => true
  | .engineWrite _ _ => true
  | .engineComplete _ => true
  | .engineCancel _ => true
  | .channelPopServed _ _ => true
  | .meetRelease _ _ => true
  | .crossLaneMeeting _ => true
  | .mwaitRelease _ _ => true
  | .bundleRegroup _ _ => true
  | .issueBound _ _ => true
  | .deferredComplete _ _ => true
  | .phaseEnd _ => true
  | .faceDelivery _ _ _ => true
  | .phaseReport _ _ _ => true
  | .lredResult _ _ => true
  | .pagerFill _ => true
  | .pagerExchange _ => true
  | .launchStart _ _ => true
  | .teamClaim _ _ _ => true
  | .packStart _ _ _ => true
  | .gridComplete _ => true
  | .trapDelivery _ => true
  | .preempt _ _ _ => true
  | .restore _ _ => true
  | .twaitExpiry _ => true
  | .faultRecordOffer _ => true
  | .peerAckTimeout _ => true
  | .beginPeriod => true
  | .endPeriod => true
  | .inboundPostedWrite _ _ _ _ _ => true
  | .inboundRead _ _ _ _ => true
  | .hostLaunch _ _ _ => true
  | .createContext _ _ _ _ => true
  | .destroyContext _ => true
  | .loadScheduleImage _ _ _ _ => true
  | .loadFirmware _ _ _ => true
  | .setDomainRank _ => true
  | .resetDie _ => true
  | .clearBootHistory _ => true
  | .answerFault _ => true
  | .frespReplay _ => true
  | .frespTerminate _ => true
  | .errinj _ => true
  | .eqpop => true
  | .fatalstat _ => true
  | .timelo _ => true
  | .linkstat _ => true
  | .controlRegisterWrite _ _ => true
  | .linkRetry _ => true
  | .linkRetriesExhausted _ _ => true
  | .linkUp _ _ _ => true
  | .timeLockLost => true
  | .timeLockGained _ => true
  | .dieFatal _ _ => true
  | .tamperAlarm _ => true
  | .deviceStart _ => true
  | .deviceRestart _ => true
  | .getVersion _ => true
  | .getCapabilities _ => true
  | .negotiateAlgorithms _ => true
  | .getDigests _ => true
  | .getCertificate _ => true
  | .challenge _ => true
  | .getMeasurements _ => true
  | .dieResetCompleted _ => true
  | .managementCommandDone => true
  | .hostCompletion _ _ _ => true
  | .hostLinkDown _ => true
  | .memberCompletesStart _ _ => true

/-- A well-formed instruction. -/
abbrev Instr.WellFormed (i : Instr) : Prop := i.legal = true

end Sys2Proof
end

