-- ==== Sys2Proof/Decode.lean ====
section
/-! DEFINITION. From bits to an instruction (R25 to R46), total, refusing by name, and back. A word is read from its
major opcode, its function code and the fields that the map of R45 gives it; what a legal word must say of those fields
besides is `Instr.legal`. -/

namespace Sys2Proof

/-- Why a word is no row of the opcode map. -/
inductive Reject where
  /-- a major opcode with no instruction, or one that stands only as a prefix or a loop step (R45, R47) -/
  | opcode
  /-- a function, kind, size or condition code that R46 does not list -/
  | function
  /-- a field that must be 0 is not (R38, R45) -/
  | reserved
  /-- a mask or predicate code outside R39 -/
  | maskOrPredicate
  /-- an EXT word before an EXT, BR, L or S word (R47) -/
  | prefixBefore
  /-- fewer bytes than the instruction has -/
  | short
deriving DecidableEq, Repr

/-- The operand that a 7-bit code names (R37). -/
def Operand.ofCode (c : BitVec 7) : Operand :=
  if c.toNat < 64 then .v (c.extractLsb' 0 6)
  else if c.toNat < 80 then .s (c.extractLsb' 0 4)
  else if c.toNat < 84 then .x (c.extractLsb' 0 2)
  else if c.toNat < 88 then .q (c.extractLsb' 0 2)
  else if c = 88 then .z
  else if c = 89 then .lane
  else if c = 90 then .cx
  else if c = 91 then .cy
  else if c = 92 then .cz
  else if c = 93 then .stp
  else if c = 94 then .phs
  else if c = 95 then .die
  else .nbr (c.extractLsb' 2 3) (c.extractLsb' 0 2)

/-- The 7-bit code of an operand (R37). -/
def Operand.code : Operand → BitVec 7
  | .v n => 0#1 ++ n
  | .s n => 0b100#3 ++ n
  | .x n => 0b10100#5 ++ n
  | .q n => 0b10101#5 ++ n
  | .z => 88
  | .lane => 89
  | .cx => 90
  | .cy => 91
  | .cz => 92
  | .stp => 93
  | .phs => 94
  | .die => 95
  | .nbr k j => 0b11#2 ++ k ++ j

/-- The tag a format code names (R46, R70). -/
def Tag.ofCode (c : BitVec 3) : Tag :=
  match c.toNat with
  | 0 => .raw | 1 => .e4m3 | 2 => .e5m2 | 3 => .e2m1 | 4 => .i8 | 5 => .i4 | 6 => .cb4 | _ => .bad

def Tag.code : Tag → BitVec 3
  | .raw => 0 | .e4m3 => 1 | .e5m2 => 2 | .e2m1 => 3 | .i8 => 4 | .i4 => 5 | .cb4 => 6 | .bad => 7

/-- The EXT word's fields (R35). -/
def Ext.ofWord (w : Word) : Ext :=
  { g := w.getLsbD 24, gp := w.extractLsb' 21 3, gn := w.getLsbD 20, scope := w.extractLsb' 17 3,
    ord := w.extractLsb' 15 2, o := w.getLsbD 14, nt := w.getLsbD 13, immx := w.extractLsb' 0 13 }

def bit (b : Bool) : BitVec 1 := BitVec.ofBool b

/-- The EXT word, major opcode 0x7E (R35). -/
def Ext.word (e : Ext) : Word :=
  0x7E#7 ++ bit e.g ++ e.gp ++ bit e.gn ++ e.scope ++ e.ord ++ bit e.o ++ bit e.nt ++ e.immx

/-- The major opcode, bits [31:25] (R25). -/
def majorOf (w : Word) : Nat := (w.extractLsb' 25 7).toNat

def fD (w : Word) : BitVec 7 := w.extractLsb' 18 7
def fA (w : Word) : BitVec 7 := w.extractLsb' 11 7
def fB (w : Word) : BitVec 7 := w.extractLsb' 4 7
def fTail (w : Word) : BitVec 4 := w.extractLsb' 0 4
def fImm (w : Word) : BitVec 11 := w.extractLsb' 0 11
def oD (w : Word) : Operand := Operand.ofCode (fD w)
def oA (w : Word) : Operand := Operand.ofCode (fA w)
def oB (w : Word) : Operand := Operand.ofCode (fB w)

/-- The fields of an R3 word. -/
def getR3 (x : Option Ext) (w : Word) : R3 :=
  { x := x, d := oD w, a := oA w, b := oB w, k := w.getLsbD 3, ea := w.getLsbD 2, eb := w.getLsbD 1, n := w.getLsbD 0 }

/-- The fields of an RF word, its function field aside. -/
def getRF (x : Option Ext) (w : Word) : RF :=
  { x := x, d := oD w, a := oA w, k := w.getLsbD 3, ea := w.getLsbD 2, n := w.getLsbD 0 }

def getRI (x : Option Ext) (w : Word) : RI := { x := x, d := oD w, a := oA w, imm := fImm w }

def getMW (x : Option Ext) (w : Word) : MW :=
  { x := x, d := oD w, a := oA w, sz := w.extractLsb' 8 3, off := w.extractLsb' 0 8 }

def getShi (x : Option Ext) (w : Word) : Shi := { x := x, d := oD w, a := oA w, n := w.extractLsb' 0 5 }

/-- A mask code of R39. -/
def maskOf (c : BitVec 7) : Except Reject MaskReg :=
  if h : c.toNat < 12 then .ok ⟨c.toNat, h⟩ else .error .maskOrPredicate

/-- A predicate source code of R39. -/
def psrcOf (c : BitVec 7) : Except Reject PSrc :=
  if c.toNat < 16 then .ok { neg := c.getLsbD 3, p := c.extractLsb' 0 3 } else .error .maskOrPredicate

/-- A condition code of `setp` and `setpi`. -/
def condOf (c : BitVec 4) : Except Reject Cond :=
  match c.toNat with
  | 0 => .ok .eq | 1 => .ok .ne | 2 => .ok .lt | 3 => .ok .le | 4 => .ok .gt | 5 => .ok .ge
  | 6 => .ok .ltu | 7 => .ok .leu | 8 => .ok .gtu | 9 => .ok .geu | _ => .error .function

def Cond.code : Cond → BitVec 4
  | .eq => 0 | .ne => 1 | .lt => 2 | .le => 3 | .gt => 4 | .ge => 5 | .ltu => 6 | .leu => 7 | .gtu => 8 | .geu => 9

def fcondOf (c : BitVec 4) : Except Reject FCond :=
  match c.toNat with
  | 0 => .ok .eq | 1 => .ok .ne | 2 => .ok .lt | 3 => .ok .le | 4 => .ok .gt | 5 => .ok .ge
  | 6 => .ok .un | 7 => .ok .ord | _ => .error .function

def FCond.code : FCond → BitVec 4
  | .eq => 0 | .ne => 1 | .lt => 2 | .le => 3 | .gt => 4 | .ge => 5 | .un => 6 | .ord => 7

def redOpOf (c : BitVec 7) : Except Reject RedOp :=
  match c.toNat with
  | 0 => .ok .add | 1 => .ok .min | 2 => .ok .max | 3 => .ok .minu | 4 => .ok .maxu | 5 => .ok .and | 6 => .ok .or
  | 7 => .ok .xor | 8 => .ok .fadd | 9 => .ok .fmin | 10 => .ok .fmax | 11 => .ok .blend | _ => .error .function

def RedOp.code : RedOp → BitVec 7
  | .add => 0 | .min => 1 | .max => 2 | .minu => 3 | .maxu => 4 | .and => 5 | .or => 6 | .xor => 7 | .fadd => 8
  | .fmin => 9 | .fmax => 10 | .blend => 11

def scanOpOf (c : BitVec 7) : Except Reject ScanOp :=
  match c.toNat with
  | 0 => .ok .add | 1 => .ok .addx | 2 => .ok .fadd | 3 => .ok .faddx | _ => .error .function

def ScanOp.code : ScanOp → BitVec 7
  | .add => 0 | .addx => 1 | .fadd => 2 | .faddx => 3

def atomKindOf (c : BitVec 4) : Except Reject AtomKind :=
  match c.toNat with
  | 0 => .ok .add | 1 => .ok .min | 2 => .ok .max | 3 => .ok .minu | 4 => .ok .maxu | 5 => .ok .and | 6 => .ok .or
  | 7 => .ok .xor | 8 => .ok .exch | 9 => .ok .cas | 10 => .ok .fadd | 11 => .ok .fmin | 12 => .ok .fmax | 13 => .ok .mt
  | _ => .error .function

def AtomKind.code : AtomKind → BitVec 4
  | .add => 0 | .min => 1 | .max => 2 | .minu => 3 | .maxu => 4 | .and => 5 | .or => 6 | .xor => 7 | .exch => 8 | .cas => 9
  | .fadd => 10 | .fmin => 11 | .fmax => 12 | .mt => 13

/-- lred's operator is its function code; codes above 2 are not listed (R194). -/
def lredOpOf (c : BitVec 7) : Except Reject LredOp :=
  match c.toNat with
  | 0 => .ok .add | 1 => .ok .fadd | 2 => .ok .mt | _ => .error .function

def LredOp.code : LredOp → BitVec 7
  | .add => 0 | .fadd => 1 | .mt => 2

/-- The answer `i` where every field that must be 0 is. -/
def given (zero : Bool) (i : Instr) : Except Reject Instr := if zero then .ok i else .error .reserved

/-- As `given`, for an instruction with one coded field. -/
def givenC {α : Type} (zero : Bool) (c : Except Reject α) (f : α → Instr) : Except Reject Instr :=
  if zero then
    match c with
    | .ok v => .ok (f v)
    | .error e => .error e
  else .error .reserved

/-- As `given`, for an instruction with two coded fields. -/
def givenCC {α β : Type} (zero : Bool) (c : Except Reject α) (c' : Except Reject β) (f : α → β → Instr) : Except Reject Instr :=
  if zero then
    match c, c' with
    | .ok v, .ok u => .ok (f v u)
    | .error e, _ => .error e
    | _, .error e => .error e
  else .error .reserved

/-- BR and L words take no EXT word (R33, R34). -/
def unprefixed (x : Option Ext) (r : Except Reject Instr) : Except Reject Instr :=
  match x with
  | none => r
  | some _ => .error .prefixBefore

/-- A function code of `iun`, `fun`, `fcvt` or `mom`, Eb being 0. -/
def rfWord (w : Word) (i : RF → Instr) (x : Option Ext) : Except Reject Instr := given (!w.getLsbD 1) (i (getRF x w))

/-- `shi` (R30): the selector is imm11[6:5], and imm11[10:7] must be 0. -/
def decodeShi (x : Option Ext) (w : Word) : Except Reject Instr :=
  match (w.extractLsb' 5 2).toNat with
  | 0 => given (w.extractLsb' 7 4 == 0) (.shli (getShi x w))
  | 1 => given (w.extractLsb' 7 4 == 0) (.shri (getShi x w))
  | 2 => given (w.extractLsb' 7 4 == 0) (.sari (getShi x w))
  | 3 => given (w.extractLsb' 7 4 == 0) (.roti (getShi x w))
  | _ => .error .function

/-- `iun` (R46, R122). -/
def decodeIun (x : Option Ext) (w : Word) : Except Reject Instr :=
  match (fB w).toNat with
  | 0 => rfWord w .mov x
  | 1 => rfWord w .not_ x
  | 2 => rfWord w .neg x
  | 3 => rfWord w .abs x
  | 4 => rfWord w .clz x
  | 5 => rfWord w .ctz x
  | 6 => rfWord w .popc x
  | 7 => rfWord w .brev x
  | 8 => rfWord w .bswap x
  | 9 => rfWord w .sxb x
  | 10 => rfWord w .sxh x
  | 11 => rfWord w .zxb x
  | 12 => rfWord w .zxh x
  | _ => .error .function

/-- `fun` (R46, R128). -/
def decodeFun (x : Option Ext) (w : Word) : Except Reject Instr :=
  match (fB w).toNat with
  | 0 => rfWord w .fabs x
  | 1 => rfWord w .fneg x
  | 2 => rfWord w .fsqrt x
  | 3 => rfWord w .frcp x
  | 4 => rfWord w .frsq x
  | 5 => rfWord w .fexp2 x
  | 6 => rfWord w .flog2 x
  | 7 => rfWord w .ffloor x
  | 8 => rfWord w .fceil x
  | 9 => rfWord w .ftrunc x
  | 10 => rfWord w .frint x
  | _ => .error .function

/-- `fcvt` (R46, R129). -/
def decodeFcvt (x : Option Ext) (w : Word) : Except Reject Instr :=
  match (fB w).toNat with
  | 0 => rfWord w .f2i x
  | 1 => rfWord w .f2iz x
  | 2 => rfWord w .f2u x
  | 3 => rfWord w .f2uz x
  | 4 => rfWord w .i2f x
  | 5 => rfWord w .u2f x
  | 6 => rfWord w .f2bf x
  | 7 => rfWord w .bf2f x
  | 8 => rfWord w .f2h x
  | 9 => rfWord w .h2f x
  | _ => .error .function

/-- `mom` (R46, R141). -/
def decodeMom (x : Option Ext) (w : Word) : Except Reject Instr :=
  match (fB w).toNat with
  | 0 => rfWord w .mupd x
  | 1 => given (fA w == 0 && !w.getLsbD 1) (.mclr x (oD w) (w.getLsbD 3) (w.getLsbD 2) (w.getLsbD 0))
  | 2 => rfWord w .mmean x
  | 3 => rfWord w .mvar x
  | 4 => rfWord w .mvars x
  | 5 => rfWord w .mrstd x
  | 6 => rfWord w .msum x
  | _ => .error .function

/-- `ctl` (R46, R94): every field but fn is 0. -/
def decodeCtl (x : Option Ext) (w : Word) : Except Reject Instr :=
  match (fB w).toNat with
  | 0 => given (fD w == 0 && fA w == 0 && fTail w == 0) (.nop x)
  | 1 => given (fD w == 0 && fA w == 0 && fTail w == 0) (.ret x)
  | 2 => given (fD w == 0 && fA w == 0 && fTail w == 0) (.exit x)
  | 3 => given (fD w == 0 && fA w == 0 && fTail w == 0) (.yield x)
  | 4 => given (fD w == 0 && fA w == 0 && fTail w == 0) (.brk x)
  | _ => .error .function

/-- `msk` (R46, R96). -/
def decodeMsk (x : Option Ext) (w : Word) : Except Reject Instr :=
  match (fB w).toNat with
  | 0 => givenC (fA w == 0 && fTail w == 0) (maskOf (fD w)) (fun d => .join x d)
  | 1 => givenC (fA w == 0 && fTail w == 0) (maskOf (fD w)) (fun d => .leaveMask x d)
  | 2 => givenC (fA w == 0 && fTail w == 0) (maskOf (fD w)) (fun d => .mwait x d)
  | 3 => givenC (fA w == 0 && fTail w == 0) (maskOf (fD w)) (fun d => .mzeroMask x d)
  | 4 => givenC (fA w == 0 && fTail w == 0) (maskOf (fD w)) (fun d => .mfill x d)
  | 5 => givenCC (fTail w == 0) (maskOf (fD w)) (maskOf (fA w)) (fun d a => .mmov x d a)
  | 6 => givenCC (fTail w == 0) (maskOf (fD w)) (maskOf (fA w)) (fun d a => .mand x d a)
  | 7 => givenCC (fTail w == 0) (maskOf (fD w)) (maskOf (fA w)) (fun d a => .mor x d a)
  | 8 => givenCC (fTail w == 0) (maskOf (fD w)) (maskOf (fA w)) (fun d a => .mxor x d a)
  | 9 => givenCC (fTail w == 0) (maskOf (fD w)) (maskOf (fA w)) (fun d a => .mnot x d a)
  | 10 => givenC (fTail w == 0) (maskOf (fA w)) (fun a => .mpopc x (oD w) a)
  | 11 => givenC (fTail w == 0) (maskOf (fA w)) (fun a => .mtos x (oD w) a)
  | _ => .error .function

/-- `ared` (R45): d 0 for an N address, 1 for a P address. -/
def decodeAred (x : Option Ext) (w : Word) : Except Reject Instr :=
  match (fD w).toNat with
  | 0 => givenC true (atomKindOf (fTail w)) (fun f => .ared x f (oA w) (oB w))
  | 1 => givenC true (atomKindOf (fTail w)) (fun f => .aredX x f (oA w) (oB w))
  | _ => .error .function

/-- `fence` (R171). -/
def decodeFence (x : Option Ext) (w : Word) : Except Reject Instr :=
  match (fB w).toNat with
  | 0 => given (fD w == 0 && fA w == 0 && fTail w == 0) (.fence x)
  | 1 => given (fD w == 0 && fA w == 0 && fTail w == 0) (.fenceNtdrain x)
  | _ => .error .function

/-- `phase` (R191). -/
def decodePhase (x : Option Ext) (w : Word) : Except Reject Instr :=
  match (fB w).toNat with
  | 0 => given (fD w == 0 && fA w == 0 && fTail w == 0) (.phase x)
  | 1 => given (fD w == 0 && fA w == 0 && fTail w == 0) (.phaseRetire x)
  | _ => .error .function

/-- `mres` (R208). -/
def decodeMres (x : Option Ext) (w : Word) : Except Reject Instr :=
  match (fB w).toNat with
  | 0 => given (w.extractLsb' 21 4 == 0 && fA w == 0 && fTail w == 0) (.mres x (w.extractLsb' 18 3))
  | 1 => given (fD w == 0 && fA w == 0 && fTail w == 0) (.mresw x)
  | _ => .error .function

/-- `bar` (R110): kinds 0 to 4 on A objects, 8 to 12 on N objects. -/
def decodeBar (x : Option Ext) (w : Word) : Except Reject Instr :=
  match (fTail w).toNat with
  | 0 => given (fD w == 0) (.barInit x false (oA w) (oB w))
  | 1 => given (fD w == 0 && fB w == 0) (.barArrive x false (oA w))
  | 2 => given (fD w == 0 && w.extractLsb' 5 6 == 0) (.barWait x false (oA w) (w.getLsbD 4))
  | 3 => given (fD w == 0) (.barExpect x false (oA w) (oB w))
  | 4 => given (w.extractLsb' 21 4 == 0 && w.extractLsb' 5 6 == 0) (.barTest x false (w.extractLsb' 18 3) (oA w) (w.getLsbD 4))
  | 8 => given (fD w == 0) (.barInit x true (oA w) (oB w))
  | 9 => given (fD w == 0 && fB w == 0) (.barArrive x true (oA w))
  | 10 => given (fD w == 0 && w.extractLsb' 5 6 == 0) (.barWait x true (oA w) (w.getLsbD 4))
  | 11 => given (fD w == 0) (.barExpect x true (oA w) (oB w))
  | 12 => given (w.extractLsb' 21 4 == 0 && w.extractLsb' 5 6 == 0) (.barTest x true (w.extractLsb' 18 3) (oA w) (w.getLsbD 4))
  | _ => .error .function

/-- `fut` (R105). -/
def decodeFut (x : Option Ext) (w : Word) : Except Reject Instr :=
  match (fB w).toNat with
  | 0 => given (fTail w == 0) (.fwait x (oD w) (oA w))
  | 1 => given (w.extractLsb' 21 4 == 0 && fTail w == 0) (.ftest x (w.extractLsb' 18 3) (oA w))
  | 2 => given (fD w == 0 && fTail w == 0) (.fcancel x (oA w))
  | _ => .error .function

/-- `qsc` (R294). -/
def decodeQsc (x : Option Ext) (w : Word) : Except Reject Instr :=
  match (fB w).toNat with
  | 0 => given (fD w == 0 && fA w == 0 && fTail w == 0) (.qenter x)
  | 1 => given (fD w == 0 && fA w == 0 && fTail w == 0) (.qleave x)
  | 2 => given (fD w == 0 && fA w == 0 && fTail w == 0) (.qpt x)
  | 3 => given (fD w == 0 && fA w == 0 && fTail w == 0) (.gwait x)
  | 4 => given (fA w == 0 && fTail w == 0) (.gstart x (oD w))
  | 5 => given (w.extractLsb' 21 4 == 0 && fTail w == 0) (.gpoll x (w.extractLsb' 18 3) (oA w))
  | _ => .error .function

/-- `qop` (R108). -/
def decodeQop (x : Option Ext) (w : Word) : Except Reject Instr :=
  match (fB w).toNat with
  | 0 => given (fTail w == 0) (.qlen x (oD w) (oA w))
  | 1 => given (fTail w == 0) (.qbind x (oD w) (oA w))
  | _ => .error .function

/-- `sysop` (R283). -/
def decodeSysop (x : Option Ext) (w : Word) : Except Reject Instr :=
  match (fB w).toNat with
  | 0 => given (fD w == 0 && fTail w == 0) (.tlbinv x (oA w))
  | 1 => given (fTail w == 0) (.ctxsave x (oD w) (oA w))
  | 2 => given (fTail w == 0) (.ctxload x (oD w) (oA w))
  | 3 => given (fD w == 0 && fA w == 0 && fTail w == 0) (.icinv x)
  | 4 => given (fD w == 0 && fTail w == 0) (.halt x (oA w))
  | _ => .error .function

/-- The instruction that a word with prefix `x` is, by the major-opcode map (R45). -/
def decodeWord (x : Option Ext) (w : Word) : Except Reject Instr :=
  match majorOf w with
  | 1 => .ok (.add (getR3 x w))
  | 2 => .ok (.sub (getR3 x w))
  | 3 => .ok (.mul (getR3 x w))
  | 4 => .ok (.mulh (getR3 x w))
  | 5 => .ok (.mulhu (getR3 x w))
  | 6 => .ok (.mad (getR3 x w))
  | 7 => .ok (.div (getR3 x w))
  | 8 => .ok (.divu (getR3 x w))
  | 9 => .ok (.rem (getR3 x w))
  | 10 => .ok (.remu (getR3 x w))
  | 11 => .ok (.min (getR3 x w))
  | 12 => .ok (.max (getR3 x w))
  | 13 => .ok (.minu (getR3 x w))
  | 14 => .ok (.maxu (getR3 x w))
  | 15 => .ok (.and_ (getR3 x w))
  | 16 => .ok (.or_ (getR3 x w))
  | 17 => .ok (.xor (getR3 x w))
  | 18 => .ok (.andn (getR3 x w))
  | 19 => .ok (.shl (getR3 x w))
  | 20 => .ok (.shr (getR3 x w))
  | 21 => .ok (.sar (getR3 x w))
  | 22 => .ok (.rot (getR3 x w))
  | 23 => .ok (.addsat (getR3 x w))
  | 24 => .ok (.addi (getRI x w))
  | 25 => .ok (.muli (getRI x w))
  | 26 => .ok (.andi (getRI x w))
  | 27 => .ok (.ori (getRI x w))
  | 28 => .ok (.xori (getRI x w))
  | 29 => decodeShi x w
  | 30 => .ok (.movi x (oD w) (w.extractLsb' 0 18))
  | 31 => .ok (.movh x (oD w) (w.extractLsb' 0 18))
  | 32 => decodeIun x w
  | 33 => givenC true (condOf (w.extractLsb' 21 4)) (fun c => .setp x c (w.extractLsb' 18 3) (oA w) (oB w) (w.getLsbD 3) (w.getLsbD 2) (w.getLsbD 1) (w.getLsbD 0))
  | 34 => given (!w.getLsbD 0) (.sel x (oD w) (oA w) (oB w) (w.extractLsb' 1 3))
  | 35 => givenC true (condOf (w.extractLsb' 21 4)) (fun c => .setpi x c (w.extractLsb' 18 3) (oA w) (fImm w))
  | 36 => .ok (.fadd (getR3 x w))
  | 37 => .ok (.fsub (getR3 x w))
  | 38 => .ok (.fmul (getR3 x w))
  | 39 => .ok (.ffma (getR3 x w))
  | 40 => .ok (.fmin (getR3 x w))
  | 41 => .ok (.fmax (getR3 x w))
  | 42 => .ok (.fdiv (getR3 x w))
  | 43 => givenC true (fcondOf (w.extractLsb' 21 4)) (fun c => .fsetp x c (w.extractLsb' 18 3) (oA w) (oB w) (w.getLsbD 3) (w.getLsbD 2) (w.getLsbD 1) (w.getLsbD 0))
  | 44 => decodeFun x w
  | 45 => decodeFcvt x w
  | 46 => .ok (.bfma2 (getR3 x w))
  | 47 => .ok (.badd2 (getR3 x w))
  | 48 => .ok (.dot4 (getR3 x w))
  | 49 => .ok (.dot8 (getR3 x w))
  | 50 => .ok (.fscl (getR3 x w))
  | 51 => .ok (.pk8 (getR3 x w))
  | 52 => given ((fB w).toNat < 4 && !w.getLsbD 1) (.upk8 (getRF x w) (w.extractLsb' 4 2))
  | 53 => .ok (.pk4 (getR3 x w))
  | 54 => given ((fB w).toNat < 8 && !w.getLsbD 1) (.upk4 (getRF x w) (w.extractLsb' 4 3))
  | 55 => given ((fB w).toNat < 8 && !w.getLsbD 1) (.ftag (getRF x w) (Tag.ofCode (w.extractLsb' 4 3)))
  | 56 => given (!w.getLsbD 10) (.bfx x (oD w) (oA w) (w.extractLsb' 5 5) (w.extractLsb' 0 5))
  | 57 => given (!w.getLsbD 10) (.bfi x (oD w) (oA w) (w.extractLsb' 5 5) (w.extractLsb' 0 5))
  | 58 => .ok (.blend (getR3 x w))
  | 59 => given (fD w == 0 && fB w == 0) (.bsld x (oA w) (w.getLsbD 3) (w.getLsbD 2) (w.getLsbD 1) (w.getLsbD 0))
  | 60 => given (fA w == 0 && w.extractLsb' 6 5 == 0) (.bsget x (oD w) (w.extractLsb' 0 6))
  | 61 => given (fB w == 0) (.bsrf (getRF x w) (w.getLsbD 1))
  | 62 => .ok (.mupdw (getR3 x w))
  | 63 => decodeMom x w
  | 64 => unprefixed x (given (w.extractLsb' 21 4 == 0) (.jmp (w.extractLsb' 0 21)))
  | 65 => unprefixed x (.ok (.brp (w.extractLsb' 22 3) (w.getLsbD 21) (w.extractLsb' 0 21)))
  | 66 => unprefixed x (given (w.extractLsb' 21 4 == 0) (.call (w.extractLsb' 0 21)))
  | 67 => decodeCtl x w
  | 68 => given (fB w == 0) (.jmpi (getRF x w) (w.getLsbD 1))
  | 69 => unprefixed x (given (w.extractLsb' 21 4 == 0) (.meet (w.extractLsb' 0 21)))
  | 70 => decodeMsk x w
  | 71 => givenCC (fB w == 0) (maskOf (fD w)) (psrcOf (fA w)) (fun d a => .vote x d a (fTail w))
  | 72 => given (fB w == 0) (.veq x (oD w) (oA w) (fTail w))
  | 73 => .ok (.shfl x (oD w) (oA w) (oB w) (fTail w))
  | 74 => .ok (.xchg x (oD w) (oA w) (oB w) (fTail w))
  | 75 => givenC true (redOpOf (fB w)) (fun f => .wred x f (oD w) (oA w) (fTail w))
  | 76 => givenC true (scanOpOf (fB w)) (fun f => .wscan x f (oD w) (oA w) (fTail w))
  | 77 => unprefixed x (given (fTail w == 0) (.loop (w.extractLsb' 23 2) (w.extractLsb' 15 8) (w.extractLsb' 8 7) (w.getLsbD 7) (w.extractLsb' 4 3)))
  | 79 => given (fD w == 0) (.wbase x (oA w) (fImm w))
  | 80 => .ok (.ldn (getMW x w))
  | 81 => .ok (.stn (getMW x w))
  | 82 => .ok (.lda (getMW x w))
  | 83 => .ok (.sta (getMW x w))
  | 84 => .ok (.ldc (getMW x w))
  | 85 => .ok (.stc (getMW x w))
  | 86 => .ok (.ldw (getMW x w))
  | 87 => given (w.extractLsb' 8 3 == 0) (.ldsc x (oD w) (oA w) (w.extractLsb' 0 8))
  | 88 => givenC true (atomKindOf (fTail w)) (fun f => .atom x f (oD w) (oA w) (oB w))
  | 89 => decodeAred x w
  | 90 => given (fB w == 0) (.ldx (getRF x w) (w.getLsbD 1))
  | 91 => given (fD w == 0 && fTail w == 0) (.stx x (oA w) (oB w))
  | 92 => decodeFence x w
  | 93 => given (fD w == 0 && w.extractLsb' 8 3 == 4) (.pref x (oA w) (w.extractLsb' 0 8))
  | 94 => givenC true (atomKindOf (fTail w)) (fun f => .atoma x f (oD w) (oA w) (oB w))
  | 95 => givenC (fD w == 0) (atomKindOf (fTail w)) (fun f => .areda x f (oA w) (oB w))
  | 96 => decodePhase x w
  | 97 => given (w.extractLsb' 21 4 == 0 && fA w == 0 && w.extractLsb' 3 8 == 0) (.nbok x (w.extractLsb' 18 3) (w.extractLsb' 0 3))
  | 98 => givenC (!w.getLsbD 3 && !w.getLsbD 1 && !w.getLsbD 0) (lredOpOf (fB w)) (fun f => .lred x f (oD w) (oA w) (w.getLsbD 2))
  | 99 => given ((fB w).toNat < 16 && fA w == 0 && fTail w == 0) (.lcfg x (oD w) (w.extractLsb' 4 4))
  | 104 => decodeMres x w
  | 105 => given (w.extractLsb' 0 25 == 0) (.mrel x)
  | 106 => given (!w.getLsbD 2 && !w.getLsbD 0) (.mma x (oD w) (oA w) (oB w) (w.getLsbD 3) (w.getLsbD 1))
  | 107 => given (fB w == 0 && !w.getLsbD 0) (.mdr x (oD w) (oA w) (w.getLsbD 3) (w.getLsbD 2) (w.getLsbD 1))
  | 108 => given (fB w == 0 && !w.getLsbD 3 && !w.getLsbD 1 && !w.getLsbD 0) (.xcp x (oD w) (oA w) (w.getLsbD 2))
  | 109 => given (fB w == 0 && !w.getLsbD 3 && !w.getLsbD 1 && !w.getLsbD 0) (.xsort x (oD w) (oA w) (w.getLsbD 2))
  | 110 => given (fB w == 0 && !w.getLsbD 3 && !w.getLsbD 1 && !w.getLsbD 0) (.xcol x (oD w) (oA w) (w.getLsbD 2))
  | 111 => given (fB w == 0 && fTail w == 0) (.mzero x (oD w) (oA w))
  | 112 => decodeBar x w
  | 113 => decodeFut x w
  | 114 => decodeQsc x w
  | 115 => given (fD w == 0 && !w.getLsbD 3 && !w.getLsbD 0) (.lees x (oA w) (oB w) (w.getLsbD 2) (w.getLsbD 1))
  | 116 => given (fB w == 0 && !w.getLsbD 3 && !w.getLsbD 0) (.palloc x (oD w) (oA w) (w.getLsbD 2) (w.getLsbD 1))
  | 117 => given (fD w == 0 && !w.getLsbD 3 && !w.getLsbD 0) (.pfree x (oA w) (oB w) (w.getLsbD 2) (w.getLsbD 1))
  | 118 => decodeQop x w
  | 119 => given (fB w == 0 && !w.getLsbD 3 && !w.getLsbD 1 && !w.getLsbD 0) (.launch x (oD w) (oA w) (w.getLsbD 2))
  | 120 => given (fD w == 0 && fA w == 0 && !w.getLsbD 10) (.trap x (w.extractLsb' 0 10))
  | 121 => given (w.extractLsb' 0 25 == 0) (.rte x)
  | 122 => given (fA w == 0) (.gets x (oD w) (fImm w))
  | 123 => given (fD w == 0) (.sets x (oA w) (fImm w))
  | 124 => given (fD w == 0 && fB w == 0 && !w.getLsbD 3 && !w.getLsbD 1 && !w.getLsbD 0) (.twait x (oA w) (w.getLsbD 2))
  | 125 => decodeSysop x w
  | _ => .error .opcode

/-- The little-endian word of four bytes (R25). -/
def wordOf (b0 b1 b2 b3 : Byte) : Word := b3 ++ b2 ++ b1 ++ b0

/-- The instruction at the front of a list of bytes, and the bytes after it. An EXT word and the word after it are one
instruction (R27). -/
def decode (bs : List Byte) : Except Reject (Instr × List Byte) :=
  match bs with
  | b0 :: b1 :: b2 :: b3 :: rest =>
    let w := wordOf b0 b1 b2 b3
    if majorOf w = 0x7E then
      match rest with
      | c0 :: c1 :: c2 :: c3 :: rest' =>
        if majorOf (wordOf c0 c1 c2 c3) = 0x7E then .error .prefixBefore
        else
          match decodeWord (some (Ext.ofWord w)) (wordOf c0 c1 c2 c3) with
          | .ok i => .ok (i, rest')
          | .error e => .error e
      | _ => .error .short
    else
      match decodeWord none w with
      | .ok i => .ok (i, rest)
      | .error e => .error e
  | _ => .error .short

/-- A step of a hardware loop (R34): an S word's fields. -/
structure LStep where
  idx : BitVec 8
  fld : BitVec 2
  inc : BitVec 10
deriving DecidableEq, Repr

/-- An S word, major opcode 0x4E (R34); reached in any other place it is illegal. -/
def decodeLStep (w : Word) : Except Reject LStep :=
  if majorOf w = 0x4E then
    if w.extractLsb' 0 5 == 0 then .ok { idx := w.extractLsb' 17 8, fld := w.extractLsb' 15 2, inc := w.extractLsb' 5 10 }
    else .error .reserved
  else .error .opcode

/-- The bytes of a word, lowest address first. -/
def wordBytes (w : Word) : List Byte := [w.extractLsb' 0 8, w.extractLsb' 8 8, w.extractLsb' 16 8, w.extractLsb' 24 8]

/-- The instruction this decoder reads from `nbits` bits `w`, the words above them 0. -/
def decodeTableWord (nbits w : Nat) : Option Instr :=
  let w := w % 2 ^ nbits
  match decode (wordBytes (BitVec.ofNat 32 w) ++ wordBytes (BitVec.ofNat 32 (w / 2 ^ 32))) with
  | .ok (i, _) => some i
  | .error _ => none

/-! ### The encoder -/

/-- A word in format R3 (R28). -/
def mkR3 (op : BitVec 7) (d a b : BitVec 7) (k ea eb n : Bool) : Word :=
  op ++ d ++ a ++ b ++ bit k ++ bit ea ++ bit eb ++ bit n

/-- A word in format RX (R28). -/
def mkRX (op : BitVec 7) (d a b : BitVec 7) (t : BitVec 4) : Word := op ++ d ++ a ++ b ++ t

/-- A word in format RI (R28). -/
def mkRI (op : BitVec 7) (d a : BitVec 7) (i : BitVec 11) : Word := op ++ d ++ a ++ i

/-- A word in format I18 (R28). -/
def mkI18 (op : BitVec 7) (d : BitVec 7) (i : BitVec 18) : Word := op ++ d ++ i

/-- A word in format BR (R28). -/
def mkBR (op : BitVec 7) (p : BitVec 3) (nz : Bool) (off : BitVec 21) : Word := op ++ p ++ bit nz ++ off

def encR3 (op : BitVec 7) (w : R3) : Option Ext × Word := (w.x, mkR3 op w.d.code w.a.code w.b.code w.k w.ea w.eb w.n)
def encRF (op fn : BitVec 7) (w : RF) (eb : Bool := false) : Option Ext × Word :=
  (w.x, mkR3 op w.d.code w.a.code fn w.k w.ea eb w.n)
def encRI (op : BitVec 7) (w : RI) : Option Ext × Word := (w.x, mkRI op w.d.code w.a.code w.imm)
def encShi (sel : BitVec 2) (w : Shi) : Option Ext × Word := (w.x, mkRI 0x1D w.d.code w.a.code (0#4 ++ sel ++ w.n))
def encMW (op : BitVec 7) (w : MW) : Option Ext × Word := (w.x, mkRI op w.d.code w.a.code (w.sz ++ w.off))

/-- The code of a mask register (R39). -/
def maskCode (m : MaskReg) : BitVec 7 := BitVec.ofNat 7 m.val

/-- The code of a predicate source (R39). -/
def psrcCode (p : PSrc) : BitVec 7 := 0#3 ++ bit p.neg ++ p.p

/-- The code of a plain predicate destination. -/
def pdCode (p : BitVec 3) : BitVec 7 := 0#4 ++ p

/-- The EXT word and the instruction word of an instruction; `none` for an event, which has no encoding. -/
def encodeWord (i : Instr) : Option (Option Ext × Word) :=
  match i with
  | .add w => some (encR3 0x1 w)
  | .sub w => some (encR3 0x2 w)
  | .mul w => some (encR3 0x3 w)
  | .mulh w => some (encR3 0x4 w)
  | .mulhu w => some (encR3 0x5 w)
  | .mad w => some (encR3 0x6 w)
  | .div w => some (encR3 0x7 w)
  | .divu w => some (encR3 0x8 w)
  | .rem w => some (encR3 0x9 w)
  | .remu w => some (encR3 0xa w)
  | .min w => some (encR3 0xb w)
  | .max w => some (encR3 0xc w)
  | .minu w => some (encR3 0xd w)
  | .maxu w => some (encR3 0xe w)
  | .and_ w => some (encR3 0xf w)
  | .or_ w => some (encR3 0x10 w)
  | .xor w => some (encR3 0x11 w)
  | .andn w => some (encR3 0x12 w)
  | .shl w => some (encR3 0x13 w)
  | .shr w => some (encR3 0x14 w)
  | .sar w => some (encR3 0x15 w)
  | .rot w => some (encR3 0x16 w)
  | .addsat w => some (encR3 0x17 w)
  | .addi w => some (encRI 0x18 w)
  | .muli w => some (encRI 0x19 w)
  | .andi w => some (encRI 0x1a w)
  | .ori w => some (encRI 0x1b w)
  | .xori w => some (encRI 0x1c w)
  | .shli w => some (encShi 0 w)
  | .shri w => some (encShi 1 w)
  | .sari w => some (encShi 2 w)
  | .roti w => some (encShi 3 w)
  | .movi x d i => some ((x, mkI18 0x1E d.code i))
  | .movh x d i => some ((x, mkI18 0x1F d.code i))
  | .mov w => some (encRF 0x20 0 w)
  | .not_ w => some (encRF 0x20 1 w)
  | .neg w => some (encRF 0x20 2 w)
  | .abs w => some (encRF 0x20 3 w)
  | .clz w => some (encRF 0x20 4 w)
  | .ctz w => some (encRF 0x20 5 w)
  | .popc w => some (encRF 0x20 6 w)
  | .brev w => some (encRF 0x20 7 w)
  | .bswap w => some (encRF 0x20 8 w)
  | .sxb w => some (encRF 0x20 9 w)
  | .sxh w => some (encRF 0x20 10 w)
  | .zxb w => some (encRF 0x20 11 w)
  | .zxh w => some (encRF 0x20 12 w)
  | .setp x c p a b k ea eb n => some ((x, mkR3 0x21 (c.code ++ p) a.code b.code k ea eb n))
  | .sel x d a b p => some ((x, mkRX 0x22 d.code a.code b.code (p ++ 0#1)))
  | .setpi x c p a i => some ((x, mkRI 0x23 (c.code ++ p) a.code i))
  | .fadd w => some (encR3 0x24 w)
  | .fsub w => some (encR3 0x25 w)
  | .fmul w => some (encR3 0x26 w)
  | .ffma w => some (encR3 0x27 w)
  | .fmin w => some (encR3 0x28 w)
  | .fmax w => some (encR3 0x29 w)
  | .fdiv w => some (encR3 0x2a w)
  | .fsetp x c p a b k ea eb n => some ((x, mkR3 0x2B (c.code ++ p) a.code b.code k ea eb n))
  | .fabs w => some (encRF 0x2c 0 w)
  | .fneg w => some (encRF 0x2c 1 w)
  | .fsqrt w => some (encRF 0x2c 2 w)
  | .frcp w => some (encRF 0x2c 3 w)
  | .frsq w => some (encRF 0x2c 4 w)
  | .fexp2 w => some (encRF 0x2c 5 w)
  | .flog2 w => some (encRF 0x2c 6 w)
  | .ffloor w => some (encRF 0x2c 7 w)
  | .fceil w => some (encRF 0x2c 8 w)
  | .ftrunc w => some (encRF 0x2c 9 w)
  | .frint w => some (encRF 0x2c 10 w)
  | .f2i w => some (encRF 0x2d 0 w)
  | .f2iz w => some (encRF 0x2d 1 w)
  | .f2u w => some (encRF 0x2d 2 w)
  | .f2uz w => some (encRF 0x2d 3 w)
  | .i2f w => some (encRF 0x2d 4 w)
  | .u2f w => some (encRF 0x2d 5 w)
  | .f2bf w => some (encRF 0x2d 6 w)
  | .bf2f w => some (encRF 0x2d 7 w)
  | .f2h w => some (encRF 0x2d 8 w)
  | .h2f w => some (encRF 0x2d 9 w)
  | .bfma2 w => some (encR3 0x2e w)
  | .badd2 w => some (encR3 0x2f w)
  | .dot4 w => some (encR3 0x30 w)
  | .dot8 w => some (encR3 0x31 w)
  | .fscl w => some (encR3 0x32 w)
  | .pk8 w => some (encR3 0x33 w)
  | .upk8 w i => some (encRF 0x34 (0#5 ++ i) w)
  | .pk4 w => some (encR3 0x35 w)
  | .upk4 w i => some (encRF 0x36 (0#4 ++ i) w)
  | .ftag w t => some (encRF 0x37 (0#4 ++ t.code) w)
  | .bfx x d a l p => some ((x, mkRI 0x38 d.code a.code (0#1 ++ l ++ p)))
  | .bfi x d a l p => some ((x, mkRI 0x39 d.code a.code (0#1 ++ l ++ p)))
  | .blend w => some (encR3 0x3A w)
  | .bsld x a k ea eb n => some ((x, mkR3 0x3B 0 a.code 0 k ea eb n))
  | .bsget x d n => some ((x, mkRI 0x3C d.code 0 (0#5 ++ n)))
  | .bsrf w eb => some (encRF 0x3D 0 w eb)
  | .mupdw w => some (encR3 0x3E w)
  | .mupd w => some (encRF 0x3F 0 w)
  | .mclr x d k ea n => some ((x, mkR3 0x3F d.code 0 1 k ea false n))
  | .mmean w => some (encRF 0x3F 2 w)
  | .mvar w => some (encRF 0x3F 3 w)
  | .mvars w => some (encRF 0x3F 4 w)
  | .mrstd w => some (encRF 0x3F 5 w)
  | .msum w => some (encRF 0x3F 6 w)
  | .jmp off => some ((none, mkBR 0x40 0 false off))
  | .brp p nz off => some ((none, mkBR 0x41 p nz off))
  | .call off => some ((none, mkBR 0x42 0 false off))
  | .nop x => some ((x, mkRX 0x43 0 0 0 0))
  | .ret x => some ((x, mkRX 0x43 0 0 1 0))
  | .exit x => some ((x, mkRX 0x43 0 0 2 0))
  | .yield x => some ((x, mkRX 0x43 0 0 3 0))
  | .brk x => some ((x, mkRX 0x43 0 0 4 0))
  | .jmpi w eb => some (encRF 0x44 0 w eb)
  | .meet off => some ((none, mkBR 0x45 0 false off))
  | .join x d => some ((x, mkRX 0x46 (maskCode d) 0 0 0))
  | .leaveMask x d => some ((x, mkRX 0x46 (maskCode d) 0 1 0))
  | .mwait x d => some ((x, mkRX 0x46 (maskCode d) 0 2 0))
  | .mzeroMask x d => some ((x, mkRX 0x46 (maskCode d) 0 3 0))
  | .mfill x d => some ((x, mkRX 0x46 (maskCode d) 0 4 0))
  | .mmov x d a => some ((x, mkRX 0x46 (maskCode d) (maskCode a) 5 0))
  | .mand x d a => some ((x, mkRX 0x46 (maskCode d) (maskCode a) 6 0))
  | .mor x d a => some ((x, mkRX 0x46 (maskCode d) (maskCode a) 7 0))
  | .mxor x d a => some ((x, mkRX 0x46 (maskCode d) (maskCode a) 8 0))
  | .mnot x d a => some ((x, mkRX 0x46 (maskCode d) (maskCode a) 9 0))
  | .mpopc x d a => some ((x, mkRX 0x46 d.code (maskCode a) 10 0))
  | .mtos x d a => some ((x, mkRX 0x46 d.code (maskCode a) 11 0))
  | .vote x d a m => some ((x, mkRX 0x47 (maskCode d) (psrcCode a) 0 m))
  | .veq x d a m => some ((x, mkRX 0x48 d.code a.code 0 m))
  | .shfl x d a b m => some ((x, mkRX 0x49 d.code a.code b.code m))
  | .xchg x d a b m => some ((x, mkRX 0x4A d.code a.code b.code m))
  | .wred x f d a m => some ((x, mkRX 0x4B d.code a.code f.code m))
  | .wscan x f d a m => some ((x, mkRX 0x4C d.code a.code f.code m))
  | .loop lc len cnt i ns => some ((none, 0x4D#7 ++ lc ++ len ++ cnt ++ bit i ++ ns ++ 0#4))
  | .wbase x a i => some ((x, mkRI 0x4F 0 a.code i))
  | .ldn w => some (encMW 0x50 w)
  | .stn w => some (encMW 0x51 w)
  | .lda w => some (encMW 0x52 w)
  | .sta w => some (encMW 0x53 w)
  | .ldc w => some (encMW 0x54 w)
  | .stc w => some (encMW 0x55 w)
  | .ldw w => some (encMW 0x56 w)
  | .ldsc x d a o => some ((x, mkRI 0x57 d.code a.code (0#3 ++ o)))
  | .atom x f d a b => some ((x, mkRX 0x58 d.code a.code b.code f.code))
  | .ared x f a b => some ((x, mkRX 0x59 0 a.code b.code f.code))
  | .aredX x f a b => some ((x, mkRX 0x59 1 a.code b.code f.code))
  | .ldx w eb => some (encRF 0x5A 0 w eb)
  | .stx x a b => some ((x, mkRX 0x5B 0 a.code b.code 0))
  | .fence x => some ((x, mkRX 0x5C 0 0 0 0))
  | .fenceNtdrain x => some ((x, mkRX 0x5C 0 0 1 0))
  | .pref x a o => some ((x, mkRI 0x5D 0 a.code (4#3 ++ o)))
  | .atoma x f d a b => some ((x, mkRX 0x5E d.code a.code b.code f.code))
  | .areda x f a b => some ((x, mkRX 0x5F 0 a.code b.code f.code))
  | .phase x => some ((x, mkRX 0x60 0 0 0 0))
  | .phaseRetire x => some ((x, mkRX 0x60 0 0 1 0))
  | .nbok x p s => some ((x, mkRI 0x61 (pdCode p) 0 (0#8 ++ s)))
  | .lred x f d a ea => some ((x, mkR3 0x62 d.code a.code f.code false ea false false))
  | .lcfg x d w => some ((x, mkRX 0x63 d.code 0 (0#3 ++ w) 0))
  | .mres x p => some ((x, mkRX 0x68 (pdCode p) 0 0 0))
  | .mresw x => some ((x, mkRX 0x68 0 0 1 0))
  | .mrel x => some ((x, mkRX 0x69 0 0 0 0))
  | .mma x d a b k eb => some ((x, mkR3 0x6A d.code a.code b.code k false eb false))
  | .mdr x d a k ea eb => some ((x, mkR3 0x6B d.code a.code 0 k ea eb false))
  | .xcp x d a ea => some ((x, mkR3 0x6c d.code a.code 0 false ea false false))
  | .xsort x d a ea => some ((x, mkR3 0x6d d.code a.code 0 false ea false false))
  | .xcol x d a ea => some ((x, mkR3 0x6e d.code a.code 0 false ea false false))
  | .mzero x d a => some ((x, mkRX 0x6F d.code a.code 0 0))
  | .barInit x n a b => some ((x, mkRX 0x70 0 a.code b.code (bit n ++ 0#3)))
  | .barArrive x n a => some ((x, mkRX 0x70 0 a.code 0 (bit n ++ 1#3)))
  | .barWait x n a p => some ((x, mkRX 0x70 0 a.code (0#6 ++ bit p) (bit n ++ 2#3)))
  | .barExpect x n a b => some ((x, mkRX 0x70 0 a.code b.code (bit n ++ 3#3)))
  | .barTest x n q a p => some ((x, mkRX 0x70 (pdCode q) a.code (0#6 ++ bit p) (bit n ++ 4#3)))
  | .fwait x d a => some ((x, mkRX 0x71 d.code a.code 0 0))
  | .ftest x p a => some ((x, mkRX 0x71 (pdCode p) a.code 1 0))
  | .fcancel x a => some ((x, mkRX 0x71 0 a.code 2 0))
  | .qenter x => some ((x, mkRX 0x72 0 0 0 0))
  | .qleave x => some ((x, mkRX 0x72 0 0 1 0))
  | .qpt x => some ((x, mkRX 0x72 0 0 2 0))
  | .gwait x => some ((x, mkRX 0x72 0 0 3 0))
  | .gstart x d => some ((x, mkRX 0x72 d.code 0 4 0))
  | .gpoll x p a => some ((x, mkRX 0x72 (pdCode p) a.code 5 0))
  | .lees x a b ea eb => some ((x, mkR3 0x73 0 a.code b.code false ea eb false))
  | .palloc x d a ea eb => some ((x, mkR3 0x74 d.code a.code 0 false ea eb false))
  | .pfree x a b ea eb => some ((x, mkR3 0x75 0 a.code b.code false ea eb false))
  | .qlen x d a => some ((x, mkRX 0x76 d.code a.code 0 0))
  | .qbind x d a => some ((x, mkRX 0x76 d.code a.code 1 0))
  | .launch x d a ea => some ((x, mkR3 0x77 d.code a.code 0 false ea false false))
  | .trap x n => some ((x, mkRI 0x78 0 0 (0#1 ++ n)))
  | .rte x => some ((x, mkRX 0x79 0 0 0 0))
  | .gets x d n => some ((x, mkRI 0x7A d.code 0 n))
  | .sets x a n => some ((x, mkRI 0x7B 0 a.code n))
  | .twait x a ea => some ((x, mkR3 0x7C 0 a.code 0 false ea false false))
  | .tlbinv x a => some ((x, mkRX 0x7D 0 a.code 0 0))
  | .ctxsave x d a => some ((x, mkRX 0x7D d.code a.code 1 0))
  | .ctxload x d a => some ((x, mkRX 0x7D d.code a.code 2 0))
  | .icinv x => some ((x, mkRX 0x7D 0 0 3 0))
  | .halt x a => some ((x, mkRX 0x7D 0 a.code 4 0))
  | .leaveFifo _ => none
  | .apply _ => none
  | .drain _ _ => none
  | .merge _ _ _ => none
  | .fill _ _ => none
  | .evict _ _ => none
  | .perform _ _ => none
  | .ntDrain _ _ => none
  | .deliver _ _ => none
  | .engineStart _ => none
  | .engineRead _ _ => none
  | .engineWrite _ _ => none
  | .engineComplete _ => none
  | .engineCancel _ => none
  | .channelPopServed _ _ => none
  | .meetRelease _ _ => none
  | .crossLaneMeeting _ => none
  | .mwaitRelease _ _ => none
  | .bundleRegroup _ _ => none
  | .issueBound _ _ => none
  | .deferredComplete _ _ => none
  | .phaseEnd _ => none
  | .faceDelivery _ _ _ => none
  | .phaseReport _ _ _ => none
  | .lredResult _ _ => none
  | .pagerFill _ => none
  | .pagerExchange _ => none
  | .launchStart _ _ => none
  | .teamClaim _ _ _ => none
  | .packStart _ _ _ => none
  | .gridComplete _ => none
  | .trapDelivery _ => none
  | .preempt _ _ _ => none
  | .restore _ _ => none
  | .twaitExpiry _ => none
  | .faultRecordOffer _ => none
  | .peerAckTimeout _ => none
  | .beginPeriod => none
  | .endPeriod => none
  | .inboundPostedWrite _ _ _ _ _ => none
  | .inboundRead _ _ _ _ => none
  | .hostLaunch _ _ _ => none
  | .createContext _ _ _ _ => none
  | .destroyContext _ => none
  | .loadScheduleImage _ _ _ _ => none
  | .loadFirmware _ _ _ => none
  | .setDomainRank _ => none
  | .resetDie _ => none
  | .clearBootHistory _ => none
  | .answerFault _ => none
  | .frespReplay _ => none
  | .frespTerminate _ => none
  | .errinj _ => none
  | .eqpop => none
  | .fatalstat _ => none
  | .timelo _ => none
  | .linkstat _ => none
  | .controlRegisterWrite _ _ => none
  | .linkRetry _ => none
  | .linkRetriesExhausted _ _ => none
  | .linkUp _ _ _ => none
  | .timeLockLost => none
  | .timeLockGained _ => none
  | .dieFatal _ _ => none
  | .tamperAlarm _ => none
  | .deviceStart _ => none
  | .deviceRestart _ => none
  | .getVersion _ => none
  | .getCapabilities _ => none
  | .negotiateAlgorithms _ => none
  | .getDigests _ => none
  | .getCertificate _ => none
  | .challenge _ => none
  | .getMeasurements _ => none
  | .dieResetCompleted _ => none
  | .managementCommandDone => none
  | .hostCompletion _ _ _ => none
  | .hostLinkDown _ => none
  | .memberCompletesStart _ _ => none

/-- An event of the part: a row with no encoding. -/
def Instr.isEvent (i : Instr) : Bool := (encodeWord i).isNone

/-- The bytes of an instruction as they lie in memory: its EXT word first, each word little-endian (R25, R27). -/
def encode (i : Instr) : List Byte :=
  match encodeWord i with
  | some (some e, w) => wordBytes e.word ++ wordBytes w
  | some (none, w) => wordBytes w
  | none => []

end Sys2Proof
end

