-- ==== Sys2Proof/Config.lean ====
section
/-! DEFINITION. What the build fixes (the Implementation Parameter Table of R5, this build's column) and the free
values of the model: constants with no body, about which nothing can be proved. -/

namespace Sys2Proof

/-- Which step of the reference machine is next (R51: any step whose condition holds may be the next): the issue of
one bundle of a core, or one of the events of the opcode table with what it brings from outside. -/
inductive Turn where
  | issue (core bundle : Nat)
  | event (e : Instr)
deriving DecidableEq, Repr, Inhabited

namespace Config

/-- FREE VALUE. The order in which the machine's steps are taken, and what the outside world supplies in them: the
choice made for step number n. The manual fixes no order (R51). DESIGN CHOICE, log entry 1. -/
opaque turn : Nat → Turn

/-- FREE VALUE. The nanoseconds of device time that pass in step number n (R280). DESIGN CHOICE, log entry 2. -/
opaque elapsed : Nat → Nat

/-- FREE VALUE. Whether an access made in step number n uses the translation a TLB holds rather than the page
tables' present entry (R151: either may be used until `tlbinv`). DESIGN CHOICE, log entry 3. -/
opaque tlbUsed : Nat → Bool

/-- FREE VALUE. Which of the values that a running `mma` has still to read it reads in this step (R215). DESIGN CHOICE, log entry 103. -/
opaque mmaPick : Nat → Nat

/-- FREE VALUE. The ECC syndrome that an injected error of step number n shows (R173, R316). DESIGN CHOICE, log entry 4. -/
opaque syndrome : Nat → BitVec 8

/-- FREE VALUE. A word that the manual leaves open, for the step in which it is written and its place there: the DETAIL
of a completion record for whose STATUS no rule gives one (R19, R265). DESIGN CHOICE, log entry 6. -/
opaque freeWord : Nat → Nat → Word

/-- FREE VALUE. The port whose host holds the command block that command 1 writes back to (R338). DESIGN CHOICE, log entry 7. -/
opaque commandPort : Nat → BitVec 1

/-- FREE VALUE. A bit that the manual leaves open, for the step in which it is taken and its place there: the GM bit once
LOCK has cleared (R308). DESIGN CHOICE, log entry 53. -/
opaque freeBit : Nat → Nat → Bool

/-- FREE VALUE. Whether a read of BAR0 at an offset that R307 gives to both LINKSTAT64 to 79 and LINKRANK0 to 15 returns
the LINKRANK register. DESIGN CHOICE, log entry 26. -/
opaque linkrankRead : Nat → Bool

/-- FREE VALUE. The bytes that a pre-emption writes from SAVEBASE on, for its step and the logical die (R276). DESIGN CHOICE,
log entry 78. -/
opaque saveImage : Nat → Nat → List Byte

/-- FREE VALUE. The words of the SHA-256 digests of the images the device is made with: firmware slots 0 and 1, then
schedule image 0 (R317). DESIGN CHOICE, log entry 8. -/
opaque factoryDigest : Nat → List Word

/-- FREE VALUE. The vendor's public key, a point of P-256, whose digest is fused into the device (R317). DESIGN CHOICE,
log entry 28. -/
opaque vendorKey : Nat × Nat

/-- FREE VALUE. The certificate chain of the device's identity key (R317). DESIGN CHOICE, log entry 28. -/
opaque certificate : List (BitVec 32)

/-- FREE VALUE. The signature by the device's identity key in the answer to a challenge (R317). DESIGN CHOICE, log entry 28. -/
opaque identitySignature : Nat → List (BitVec 32)

/-- FREE VALUE. Whether the reception of a grandmaster's messages begins or ends in this step (R308). DESIGN CHOICE, log entry 53. -/
opaque gmChanges : Nat → Bool

/-- FREE VALUE. Where the Shepherd has reserved a cell's cellar record, in near memory of its partition's die: the physical address,
by launch and linear index (R199). DESIGN CHOICE, log entry 81. -/
opaque cellarAt : Nat → Nat → Nat

/-- FREE VALUE. Bytes of a cellar record (R199). DESIGN CHOICE, log entry 81. -/
opaque cellarBytes : Nat

/-- FREE VALUE. Whether a cell's face entry is one of those that spill from a full face table, by launch and linear index (R197).
DESIGN CHOICE, log entry 81. -/
opaque faceSpills : Nat → Nat → Bool

/-- FREE VALUE. The physical address of a spilled face entry in near memory of the core's die (R197). DESIGN CHOICE, log
entry 81. -/
opaque faceStoreAt : Nat → Nat → Nat

/-! Bounds and sizes of the Implementation Parameter Table: this build's column of R5. DESIGN CHOICE, log entry 5. -/

def clockMhz : Nat := 1100
def bundleInterval : Nat := 8
def issueBound : Nat := 256
def preemptNs : Nat := 200
def packWindowNs : Nat := 100
def abankPassClocks : Nat := 1
def eventHold : Nat := 16
def eventqDepth : Nat := 256
def wqDepth : Nat := 128
def mxQueueDepth : Nat := 16
def mmaMaxClocks : Nat := 256
def cpQueueDepth : Nat := 64
def sortQueueDepth : Nat := 4
def colQueueDepth : Nat := 8
def coreTlbEntries : Nat := 256
def dieTlbEntries : Nat := 16384
def walkers : Nat := 32
def faceEntries : Nat := 1365
def leesDepth : Nat := 4096
def errlogEntries : Nat := 16
def ioeqDepth : Nat := 1024
def hostTags : Nat := 768
def peerAckTimeoutMs : Nat := 20
def linkRetries : Nat := 16
def timeSkewNs : Nat := 50
def schedDeliveryNs : Nat := 1500
def twaitLatencyNs : Nat := 20
def schedBudget : Nat := 4096
def iptSize : Nat := 0x66

end Config
end Sys2Proof
end

