-- ==== Sys2Proof/Machine/State.lean ====
section
/-! DEFINITION. The state of a Juvik: every piece of architectural state the manual names, as plain data, and the
state right after reset. Tables are lists; an index into a table is a plain `Nat`. -/

namespace Sys2Proof.Machine

/-- Why a step stops for good. -/
inductive Fault where
  /-- R320: a start ran out of alternatives, so the device halts at that step. Raised by every step of a halted
  device. Safe: the manual gives the halted device no further step but a read of its record over the SMBus. -/
  | startHalted
deriving DecidableEq, Repr

/-- Why a step has no meaning. -/
inductive Refusal where
  /-- An instruction whose meaning is not written. Raised by no arm of this model. Safe. -/
  | notModelled (mnemonic : String)
deriving DecidableEq, Repr

/-! ### Registers -/

/-- One physical v register: value, format tag (R70), full/empty bit (R43). -/
structure VReg where
  val : Word
  tag : Tag
  full : Bool
deriving DecidableEq, Repr

/-- One s register: value and full/empty bit. -/
structure SReg where
  val : Word
  full : Bool
deriving DecidableEq, Repr

/-- A destination that a value reaches later: a physical v register of the thread, or an s register of its warp. -/
inductive RegRef where
  | v (n : Nat)
  | s (n : Nat)
deriving DecidableEq, Repr

/-- The pure lane functions (chapter 7), as data, so that a deferred instruction (R189) can be held in the state. -/
inductive LaneFn where
  | add | sub | mul | mulh | mulhu | mad | div | divu | rem | remu | min | max | minu | maxu
  | and | or | xor | andn | shl | shr | sar | rot | addsat
  | movh | mov | not | neg | abs | clz | ctz | popc | brev | bswap | sxb | sxh | zxb | zxh
  | sel (c : Bool)
  | fadd | fsub | fmul | ffma | fmin | fmax | fdiv
  | fabs | fneg | fsqrt | frcp | frsq | fexp2 | flog2 | ffloor | fceil | ftrunc | frint
  | f2i | f2iz | f2u | f2uz | i2f | u2f | f2bf | bf2f | f2h | h2f
  | bfma2 | badd2 | dot4 | dot8 | fscl | pk8 | pk4
  | upk8 (i : Nat) | upk4 (i : Nat) | ftag (t : Tag)
  | bfx (len pos : Nat) | bfi (len pos : Nat)
  | blend | mupdw | mupd | mclr | mmean | mvar | mvars | mrstd | msum
  | refill (full : Bool)
deriving DecidableEq, Repr

/-- A source of a deferred instruction: read at issue, or still to come from a neighbour (R189) or a queue (R41). -/
inductive Slot where
  | val (w : Word)
  | nbr (k j : Nat)
  | pop (ticket : Nat)
deriving DecidableEq, Repr

/-- A codebook table's generation held by an issued instruction (R72). -/
structure CbUse where
  table : Nat
  gen : BitVec 16
  entries : List (BitVec 16)
deriving DecidableEq, Repr

/-- A deferred instruction (R189): its sources and guard were read at issue; its destinations are empty. -/
structure Deferred where
  fn : LaneFn
  slots : List Slot
  tags : List Tag
  cb : Option CbUse
  dst : List RegRef
deriving DecidableEq, Repr

/-- One step word of a loop descriptor (R34): body word index, field, amount. -/
structure LoopStep where
  idx : Nat
  fld : BitVec 2
  inc : BitVec 10
deriving DecidableEq, Repr

/-- The descriptor of an active loop (R102). -/
structure LoopDesc where
  first : Word
  last : Word
  steps : List LoopStep
  i : Nat
deriving DecidableEq, Repr

/-- A loop counter with its descriptor; `none` is an inactive loop. `seq` orders openings: the innermost is latest. -/
structure LoopReg where
  n : Word
  desc : Option LoopDesc
  seq : Nat
deriving DecidableEq, Repr

/-! ### Memory entries -/

/-- The spaces a lane entry reaches (R145). -/
inductive Space where
  | a | c | w | n
deriving DecidableEq, Repr

/-- One lane's atomic inside an entry (R163): the lane, where the old value goes, the operand words, and the loads and
peer stores the lane had issued. -/
structure AtomOp where
  tid : Nat
  dst : List RegRef
  xs : List Word
  loads : Nat
  peers : Nat
deriving DecidableEq, Repr

/-- One reduction inside an entry (R164): its address and operand words, the issuing thread with the peer stores it had issued,
and the attributes of R36 that it brought (R54, R57). -/
structure RedPart where
  addr : Nat
  xs : List Word
  tid : Nat
  peers : Nat
  rel : Bool
  acq : Bool
  scope : BitVec 3
  o : Bool
deriving DecidableEq, Repr

/-- The operations of `bar` that change an object (R110). -/
inductive BarKind where
  | init (count : Word)
  | arrive
  | expect (count : Word)
deriving DecidableEq, Repr

/-- What a marker does when it drains (R56, R291). -/
inductive Marker where
  | fenceRel
  | fenceAcqRel
  | qleave
  | qpt
  | gstart (dst : List (Nat × Operand))
  | gwait
  | pfree (k i : Nat)
  | lees (k i : Nat)
deriving DecidableEq, Repr

/-- What a FIFO or write-queue entry carries (R51). -/
inductive Body where
  | store (bytes : List Byte)
  | atom (kind : AtomKind) (ops : List AtomOp)
  /-- a reduction, or several merged (R164), in arrival order -/
  | red (kind : AtomKind) (ops : List RedPart)
  /-- the operations of a bundle's lanes (R110): the bundle, then thread, object address and operation, in lane order -/
  | bar (bundle : Nat) (ops : List (Nat × Nat × BarKind))
  | push (w : Word)
  | pop (tid ticket : Nat)
  | mark (m : Marker)
  | peerStore (pa : BitVec 64) (w : Word)
  | peerRed (pa : BitVec 64) (kind : AtomKind) (xs : List Word)
  | cmd (op : Nat)
deriving DecidableEq, Repr

/-- An entry of a warp store FIFO, of a core write queue or of a non-temporal queue. -/
structure Entry where
  seq : Nat
  tid : Nat
  sp : Space
  /-- N: the physical die -/
  die : Nat
  /-- N: the physical address; A and C: the buffer offset -/
  addr : Nat
  body : Body
  rel : Bool
  acq : Bool
  scope : BitVec 3
  o : Bool
  nt : Bool
  /-- it is a release entry for the merge step, at whatever scope and of whatever space (R51) -/
  bars : Bool
  /-- the bundle of a pool marker: the sequence number that its first entry has (R296) -/
  bundle : Nat
  /-- the core whose write queue the entry reaches (R147) -/
  home : Nat
  /-- an arrive of a pair team is also a die-scope release in its own core's queue first (R111) -/
  dieRel : Bool
  /-- loads the thread had issued before this entry -/
  loads : Nat
  /-- peer stores the thread had issued before this entry -/
  peers : Nat
deriving DecidableEq, Repr

/-- What a pending load of a thread is. -/
inductive LoadKind where
  /-- a load of R156 or R155; `const` performs the constant of R155 -/
  | mem (const : Bool)
  /-- the reply of an `atom` or `atoma`, whose entry has this sequence number -/
  | reply (seq : Nat)
  /-- an `ldx`, by its operation -/
  | peer (op : Nat)
deriving DecidableEq, Repr

/-- A load that has issued but not yet taken a value (R50). -/
structure Load where
  ord : Nat
  kind : LoadKind
  sp : Space
  /-- A, C, W: the core whose buffer is read -/
  core : Nat
  die : Nat
  addr : Nat
  sz : BitVec 3
  dst : List RegRef
  tag : Tag
  acq : Bool
deriving DecidableEq, Repr

/-! ### Threads, warps, teams -/

/-- A translation fault record (R153), with what the machine must do on replay. -/
structure FaultRec where
  va : Nat
  ctx : Word
  kind : BitVec 4
  access : BitVec 2
  core : BitVec 7
  slot : BitVec 12
  idie : BitVec 3
  /-- the parked thread, for a lane access or a fetch -/
  tid : Option Nat
  /-- the halted engine operation, for an engine access -/
  op : Option Nat
  /-- its context has ended: an answer to it does nothing more (R315) -/
  ended : Bool
deriving DecidableEq, Repr

/-- Why a thread waits (R89). The first is no blocked state of R89: the thread is ready, and the machine cannot issue its
instruction yet. The states with a condition last while it holds; the instruction is then examined again. -/
inductive Block where
  /-- an issue stall: no place in an engine's queue, a fence's earlier loads, an operation on the word it reads that has
  yet to execute -/
  | retry
  /-- these registers, of the thread or of its warp's leader, are empty (R43) -/
  | regs (tid : Nat) (rs : List RegRef)
  /-- registers of the warp's lanes that `mma` reads are empty: thread and register (R214) -/
  | rows (rs : List (Nat × RegRef))
  /-- the blocking pops of the instruction (R41) -/
  | pops (tid : Nat)
  /-- a push to this full queue (R41) -/
  | push (tid q : Nat)
  /-- `bar.wait` on the object that the operand names, while PHASE is the parity (R110) -/
  | bar (nsp : Bool) (a : Operand) (par : Bool)
  /-- `fwait` on the handle in the operand's register (R105) -/
  | fut (a : Operand)
  /-- `mresw` (R208) -/
  | mres
  /-- FPSTAT, or the bit window, while instructions that have issued and change it have not completed (R74, R190, R41) -/
  | deferred (window : Bool)
  /-- at a cross-lane instruction (R97) -/
  | meeting (i : Instr)
  /-- at `mwait` on this mask, an instruction of `len` bytes (R96) -/
  | mwait (m : MaskReg) (len : Nat)
  /-- in `phase` (R191) -/
  | phase (retire : Bool) (len : Nat)
  /-- until its entry has applied or drained: markers, `bar` -/
  | entry (len : Nat)
  /-- in `fence.acqrel`, its marker drained: while a load that the thread issued earlier has yet to perform (R56) -/
  | acquire
  /-- on neighbour values that do not exist yet: slots and registers (R189) -/
  | neighbour (ns : List (Nat × Nat))
  /-- in `gwait`, with its ticket (R294) -/
  | ticket (t : Word)
  /-- in `twait`, an instruction of `len` bytes, until this time (R281) -/
  | time (t len : Nat)
deriving DecidableEq, Repr

/-- What a trapping thread will write in its frame (R271, R273). -/
structure TrapInfo where
  rpc : Word
  code : Word
  addr : BitVec 64
deriving DecidableEq, Repr

/-- The states of R89. A thread is held when it is ready at its MEET; it is halted by pre-emption when its core is not
resident. -/
inductive Status where
  | ready
  | yielded
  | blocked (b : Block)
  | parked (f : FaultRec)
  | trapping (t : TrapInfo)
  | exited
deriving DecidableEq, Repr

/-- A contribution to `lred` (R194) whose result has not arrived. -/
structure LredWait where
  q : Nat
  op : LredOp
  dst : List RegRef
deriving DecidableEq, Repr

/-- A thread (R85). -/
structure Thread where
  warp : Nat
  lane : Nat
  slot : Nat
  collie : Bool
  status : Status
  pc : Word
  meet : Option Word
  lnk : Word
  v : List VReg
  wbase : Nat
  x : List Word
  p : BitVec 8
  lc : List LoopReg
  /-- A offsets of the channels bound to q1, q2, q3 -/
  qb : List (Option Nat)
  bw : BitVec 64
  bc : BitVec 6
  depth : BitVec 8
  qtag : BitVec 8
  iptidx : BitVec 16
  cbsel : BitVec 6
  timeHi : Word
  faultCode : Word
  faultAddr : BitVec 64
  inHandler : Bool
  /-- the frame's N virtual address, held with the state (R271) -/
  frame : Nat
  loads : List Load
  loadCount : Nat
  /-- steps at which the thread's last load performed (R292) -/
  lastLoad : Nat
  peerCount : Nat
  deferred : List Deferred
  lred : List LredWait
  /-- registers that a parked load or atomic left empty: its own replay does not wait for them (R43, R152) -/
  owed : List RegRef
  /-- values that blocking pops of a waiting instruction have brought: ticket and value -/
  popped : List (Nat × Option Word)
  /-- the waiting instruction is one of chapter 7, whose flags are still to be set (R74), and the codebook that it captured at issue,
  if it decodes CB4 (R72, R131) -/
  popJob : Bool
  popCb : Option CbUse
  tickets : Nat
  /-- the Collie's staging of q0 pushes (R41) -/
  staging : List Word
  /-- words of the head q0 record already popped by the Collie (R107) -/
  taken : List Word
  /-- the cell, in a lattice kernel -/
  cell : Option Nat
deriving DecidableEq, Repr

/-- A warp (R85). -/
structure Warp where
  team : Nat
  core : Nat
  /-- warp index in the core (R112) -/
  idx : Nat
  width : Nat
  pipe : Nat
  col : Nat
  threads : List Nat
  s : List SReg
  m : List (BitVec 64)
  fp : BitVec 5
  fifo : List Entry
deriving DecidableEq, Repr

/-- A team (R14); a Collie and the cells of one core each form one (R11, R179). -/
structure Team where
  launch : Option Nat
  x : Word
  y : Word
  z : Word
  /-- the core, or the even core of a pair -/
  core : Nat
  odd : Option Nat
  warps : Nat
  /-- the first team index of its pack, in a launch with packs (R268) -/
  pack : Option Nat
deriving DecidableEq, Repr

/-! ### Cells -/

/-- A lattice cell (R178, R185). -/
structure Cell where
  launch : Nat
  ell : Nat
  cx : Nat
  cy : Nat
  cz : Nat
  core : Nat
  tid : Nat
  q : Nat
  /-- publications made: index + 1 and x0 to x3, newest first -/
  pubs : List (Nat × List Word)
  retired : Bool
  resident : Bool
  /-- the leaf of the current phase (R194) -/
  leaf : Option (LredOp × List Word)
  /-- leaves of phases ended: phase, and the leaf if the cell gave one -/
  leaves : List (Nat × Option (LredOp × List Word))
deriving DecidableEq, Repr

/-! ### Engines -/

/-- How far an engine operation has come (R58). -/
inductive OpStage where
  | inFifo | queued | started | faulted
  /-- it has stopped, and completes when what it has on its way allows -/
  | ending
  | done
deriving DecidableEq, Repr

/-- One write an engine operation has to make, in its order. -/
inductive OutWrite where
  /-- bytes to a buffer of a core: space, core, offset, bytes, granule tag, barrier object of the receiver -/
  | buf (sp : Space) (core off : Nat) (bytes : List Byte) (tag : Option Tag) (obj : Option (Nat × Nat))
  /-- bytes to N of a logical die at a virtual address; the N barrier object's address -/
  | near (ldie va : Nat) (bytes : List Byte) (obj : Option Nat)
  /-- bytes to a peer -/
  | peer (pa : BitVec 64) (bytes : List Byte)
  /-- bytes to the host -/
  | host (port : BitVec 1) (addr : BitVec 64) (bytes : List Byte)
  /-- a codebook table of a core -/
  | codebook (core table : Nat) (entries : List (BitVec 16))
  /-- an `mt` reduction into the core write queue (R223) -/
  | triple (va : Nat) (t : List Word)
deriving DecidableEq, Repr

/-- What an `mma` reads while it runs: an accumulator of C by row and column, an element of B by K index and column, the scale byte
of a row of A or of a column of B by K block (R215 to R217). -/
inductive MmaUnit where
  | c (i j : Nat)
  | b (k j : Nat)
  | sa (i kb : Nat)
  | sb (kb j : Nat)
deriving DecidableEq, Repr

/-- Where an entry executes: near memory of a physical die, or a buffer of a core. -/
inductive Place where
  | near (d : Nat)
  | buf (core : Nat) (sp : Space)
deriving DecidableEq, Repr

/-- An engine operation, by the future handle of R18. -/
structure Op where
  /-- 1 matrix, 2 copy, 3 sort, 4 collective, 5 launch, 6 peer load -/
  engine : BitVec 4
  slot : BitVec 8
  gen : BitVec 20
  ctx : Word
  /-- the issuing core; `none` for a host launch, which names its port -/
  core : Option Nat
  port : BitVec 1
  tid : Nat
  warp : BitVec 16
  dst : List RegRef
  stage : OpStage
  /-- position in the engine queue -/
  order : Nat
  /-- matrix: 0 mma, 1 mdr, 2 mzero -/
  fn : Nat
  arg : Nat
  /-- words of the record or parameter block once read -/
  record : List Word
  acq : Bool
  rel : Bool
  scope : BitVec 3
  /-- sequence numbers of the entries in the core write queue when the command entered the engine queue -/
  mark : List Nat
  /-- sequence numbers of the `mt` entries the operation put into the core write queue -/
  sent : List Nat
  peers : Nat
  /-- mma: the captured A rows as bytes per row, the tags, the captured codebooks -/
  rows : List (Option (List Byte))
  atag : Tag
  btag : Tag
  acb : Option CbUse
  bcb : Option CbUse
  width : Nat
  /-- mma: what it has read so far, with the bytes; it works within a K block (R220) -/
  units : List (MmaUnit × List Byte)
  midBlock : Bool
  /-- next element to read; of an mma, the K blocks done, column group by column group (R220) -/
  cursor : Nat
  /-- the request for a copy's H element has gone out by its port, and is not yet answered (R240) -/
  asked : Bool
  /-- the vintage of the core's die when that request went out (R312) -/
  askedAt : BitVec 8
  /-- bytes read so far, one list per element -/
  got : List (List Byte)
  /-- collective: the source tag of each element in `got` (R237) -/
  tags : List Tag
  /-- writes still to make; the collective's chunk number goes with each -/
  outs : List OutWrite
  written : Nat
  acked : Nat
  status : BitVec 16
  detail : Word
  flags : BitVec 5
  /-- of an operation that stops: barrier objects to count down at its completion, each with its bytes (R236) -/
  rest : List (Place × Nat × Nat)
  overrun : Bool
  lost : Bool
  /-- a cancel has been requested and has not yet reached the engine (R21) -/
  cancel : Bool
  /-- collective: which one with its tag (R251) -/
  instance_ : Nat
deriving DecidableEq, Repr

/-- A completion record (R19). -/
structure Record where
  handle : Word
  status : BitVec 16
  warp : BitVec 16
  detail : Word
  time : Word
deriving DecidableEq, Repr

/-! ### Routes -/

/-- A route source (R50). -/
inductive Src where
  | core (n : Nat)
  | engine (core : Nat) (e : BitVec 4)
  | host (port : BitVec 1)
  /-- the link from the peer device of this rank -/
  | link (rank : BitVec 8)
  /-- a core's face unit (R197) -/
  | face (core : Nat)
deriving DecidableEq, Repr

/-- A route destination (R50). -/
inductive Dst where
  | die (ldie : Nat)
  | peer (rank : BitVec 8) (ldie : Nat)
  | host (port : BitVec 1)
deriving DecidableEq, Repr

/-- What a route entry carries. -/
inductive RouteBody where
  | stx (pa : BitVec 64) (w : Word)
  | red (pa : BitVec 64) (kind : AtomKind) (xs : List Word)
  | ldx (pa : BitVec 64) (op : Nat)
  /-- an engine's write: operation, its bytes by physical address (two parts when they lie on two pages), and the physical address of
  the N barrier object -/
  | write (op : Nat) (parts : List (Nat × List Byte)) (obj : Option Nat)
  | peerWrite (op : Nat) (pa : BitVec 64) (bytes : List Byte)
  | peerRead (op : Nat) (pa : BitVec 64) (len : Nat)
  | hostWrite (op : Nat) (addr : BitVec 64) (bytes : List Byte)
  /-- an engine's request for bytes of host memory -/
  | hostRead (op : Nat) (addr : BitVec 64) (len : Nat)
  /-- an inbound posted write: requester, virtual address, bytes -/
  | posted (req va : Nat) (bytes : List Byte)
  /-- a peer device's own write, reduction or read of this device, at a virtual address -/
  | inWrite (va : Nat) (bytes : List Byte)
  | inRed (va : Nat) (kind : AtomKind) (xs : List Word)
  | inRead (va len : Nat)
  /-- a publication on its way to a peer device (R197): launch, cell, index + 1 -/
  | face (launch ell idx1 : Nat) (xs : List Word) (retired : Bool)
  /-- a phase report on its way to a peer device (R198), with the leaf of the phase it reports ended (R195) -/
  | report (launch ell q : Nat) (leaf : Option (LredOp × List Word)) (retired : Bool)
deriving DecidableEq, Repr

/-- An entry of a route queue; the queue of one (source, destination) pair is the entries of that pair in order. -/
structure Route where
  seq : Nat
  src : Src
  dst : Dst
  body : RouteBody
  ctx : Word
  tid : Nat
  /-- the thread's peer store number, for R54 -/
  peer : Nat
  /-- launch whose grid waits for it (R170) -/
  launch : Option Nat
  rel : Bool
  acq : Bool
  scope : BitVec 3
  vintage : BitVec 8
  /-- of a P request to the device's own rank: the vintage of the die it goes to (R312) -/
  target : BitVec 8
  born : Nat
  /-- a store of the scheduled class (R282) -/
  sched : Bool
deriving DecidableEq, Repr

/-! ### Translation -/

/-- A page-table entry's fields (R149). -/
structure Pte where
  scaleva : Nat
  cbidx : BitVec 6
  fmt : BitVec 4
  size : BitVec 2
  pa : Nat
  t : Bool
  ex : Bool
  wr : Bool
  rd : Bool
deriving DecidableEq, Repr

/-- A TLB entry holds the whole leaf (R151). -/
structure TlbEntry where
  ctx : Word
  die : Nat
  va : Nat
  bits : Nat
  pte : Pte
deriving DecidableEq, Repr

/-! ### Cores -/

/-- One codebook table: generation, current and previous entries (R72). -/
structure Codebook where
  table : Nat
  gen : BitVec 16
  cur : List (BitVec 16)
  prev : List (BitVec 16)
deriving DecidableEq, Repr

/-- A core's copy of an N line (R50), with the step that filled or last updated it, and whether a store of the scheduled class has
been delivered to the line since (R282). -/
structure Copy where
  die : Nat
  line : Nat
  bytes : List Byte
  tick : Nat
  passed : Bool
deriving DecidableEq, Repr

/-- A generation counter of an engine's slot (R18). -/
structure SlotGen where
  engine : BitVec 4
  slot : Nat
  gen : BitVec 20
deriving DecidableEq, Repr

/-- A face-table entry: a cell's delivered publication (R197). -/
structure Face where
  launch : Nat
  ell : Nat
  idx1 : Nat
  xs : List Word
  retired : Bool
deriving DecidableEq, Repr

/-- A phase report that reached a core: a reader's phase index (R198). -/
structure Report where
  launch : Nat
  ell : Nat
  q : Nat
  retired : Bool
deriving DecidableEq, Repr

/-- A pop waiting at an empty channel (R106), or at an empty q0 (queue 0). -/
structure Waiter where
  q : Nat
  chan : Nat
  tid : Nat
  ticket : Nat
deriving DecidableEq, Repr

/-- A core as its context sees it: one record per context and logical core, which moves with the context (R12, R22). -/
structure CoreSt where
  ctx : Word
  ldie : Nat
  core : Nat
  /-- it holds a physical core; when false, its threads are halted and saved (R276) -/
  resident : Bool
  a : List Host.Cell
  c : List Host.Cell
  w : List Host.Cell
  /-- granules whose tag is not raw (R237) -/
  atags : List (Nat × Tag)
  wtags : List (Nat × Tag)
  books : List Codebook
  wq : List Entry
  nt : List Entry
  copies : List Copy
  tlb : List TlbEntry
  /-- lines of the instruction cache: N virtual address of 64-byte line, bytes -/
  icache : List (Nat × List Byte)
  gens : List SlotGen
  q0 : List Record
  /-- records that engines hold because q0 was full, with the engine (R20) -/
  heldq : List (BitVec 4 × Record)
  collie : Option Nat
  /-- matrix engine: holding team, and the teams waiting in order (R207) -/
  holder : Option Nat
  waiters : List Nat
  popWait : List Waiter
  faces : List Face
  reports : List Report
  bundles : List (List Nat)
deriving DecidableEq, Repr

/-! ### Dies, pools, contexts, launches -/

/-- A lees-queue entry (R296). -/
structure LeesEntry where
  ctx : Word
  pool : Nat
  blk : Nat
  ticket : Word
deriving DecidableEq, Repr

/-- A block of a pool that is not free (R295). -/
structure PoolBlock where
  pool : Nat
  die : Nat
  blk : Nat
  deferred : Bool
deriving DecidableEq, Repr

/-- A record waiting in a die's fault latch (R313). -/
inductive LatchItem where
  | fault (f : FaultRec)
  /-- an event record, with the device time at which it was made -/
  | event (kind : BitVec 8) (detail : BitVec 16) (info1 info2 time : Word)
deriving DecidableEq, Repr

/-- A physical compute die, sockets 0 to 7. -/
structure Die where
  /-- in the placement of this start (R13) -/
  mapped : Bool
  inService : Bool
  memBytes : Nat
  mem : List Host.Cell
  tlb : List TlbEntry
  vintage : BitVec 8
  stalecnt : Word
  latchovf : Word
  faultq : List FaultRec
  latch : List LatchItem
  /-- fault records not yet taken by a full queue and latch, in fault order -/
  offers : List FaultRec
  lees : List LeesEntry
  /-- a reset whose completion is still to be reported, and whether the die then returns to service (R309, R313) -/
  resetting : Option Bool
deriving DecidableEq, Repr

/-- A context (R260). -/
structure Ctx where
  id : Word
  words : List Word
  pools : List (List Word)
  blocks : List PoolBlock
  image : Word
  live : Bool
  /-- saved by `ctxsave`, until `ctxload` (R283) -/
  saved : Bool
  /-- commands entered so far with each collective tag (R251) -/
  ctags : List (BitVec 16 × Nat)
deriving DecidableEq, Repr

/-- How far a launch has come (R263). -/
inductive LaunchStage where
  | queued | started | complete
deriving DecidableEq, Repr

/-- What a peer device of a lattice has reported of one of its cells (R195, R198): phases ended, retirement, and the
leaves of phases ended. -/
structure RemoteCell where
  ell : Nat
  q : Nat
  retired : Bool
  leaves : List (Nat × Option (LredOp × List Word))
deriving DecidableEq, Repr

/-- A launch in the scheduler. -/
structure Launch where
  ctx : Word
  op : Nat
  words : List Word
  stage : LaunchStage
  order : Nat
  started : Nat
  /-- next unclaimed team index of each logical die's range counter (R267) -/
  next : List Nat
  /-- packs that claims have taken and that have not started yet: logical die and first team index (R268) -/
  packs : List (Nat × Nat)
  peerLost : Bool
  /-- lattice descriptor words, as read at the start (R181) -/
  desc : List Word
  /-- what the launch places in the buffers of each core that hosts it (R334) -/
  init : LaunchInit
  /-- lred results delivered: phases -/
  lredDone : List Nat
  /-- slots granted per partition -/
  grant : Nat
  /-- cells of the lattice on peer devices -/
  remote : List RemoteCell
deriving DecidableEq, Repr

/-! ### The device's edges -/

/-- A write to LGO that waits at the ordering point (R308): requester, CTXID, and the record as it stood. -/
structure LgoWrite where
  req : Nat
  ctxid : Word
  record : List Word
deriving DecidableEq, Repr

/-- A vector of a port's MSI-X table: address, data and mask bit (R303). PRESUMED, log entry 88. -/
structure MsixEntry where
  lo : Word
  hi : Word
  data : Word
  masked : Bool
deriving DecidableEq, Repr

/-- One host port's registers (R307). -/
structure Port where
  lrec : List Word
  lhandle : Word
  hcqlo : Word
  hcqhi : Word
  hcqsize : Word
  hcqhead : Word
  hcqtail : Word
  hcqvec : Word
  hwin : Word
  hctx : Word
  up : Bool
  gens : List SlotGen
  held : List Record
  lgos : List LgoWrite
  /-- host error log of BAR2 accesses (R304): die, virtual address, context -/
  errors : List (Nat × Nat × Word)
  /-- MSI-X Enable and Function Mask, the table of 64 vectors, and the pending bits (R303, R314). PRESUMED, log entry 88 -/
  msixOn : Bool
  msixMask : Bool
  msixTable : List MsixEntry
  msixPending : BitVec 64
  /-- AER: uncorrectable error status, mask and severity (R303). PRESUMED, log entry 88 -/
  aerStatus : Word
  aerMask : Word
  aerSeverity : Word
deriving DecidableEq, Repr

/-- Refusal state and registers of the management block (R307, R308). -/
structure Mgmt where
  mcmdlo : Word
  mcmdhi : Word
  /-- the block's host address, as it stood when the running command was started (R309) -/
  addr : BitVec 64
  busy : Bool
  /-- the state and code that MCMDSTAT takes when the command is done -/
  result : BitVec 2 × BitVec 16
  stat : BitVec 2
  code : BitVec 16
deriving DecidableEq, Repr

/-- An entry of an array's error log (R173). -/
structure LogEntry where
  addr : BitVec 48
  ctx : Word
  syndrome : BitVec 8
  kind : BitVec 2
  /-- the error was corrected: an injected one's KIND does not say (R316) -/
  corrected : Bool
  count : BitVec 16
deriving DecidableEq, Repr

/-- An array's error log. -/
structure ErrLog where
  array : BitVec 16
  entries : List LogEntry
  ovf : Word
deriving DecidableEq, Repr

/-- A planted error: the armed injection has been written at this array and address (R316). -/
structure Planted where
  array : BitVec 16
  addr : BitVec 48
  nbits : BitVec 2
deriving DecidableEq, Repr

/-- A record of the device event queue (R314). -/
structure EventRec where
  kind : BitVec 8
  socket : BitVec 8
  detail : BitVec 16
  info1 : Word
  info2 : Word
  time : Word
deriving DecidableEq, Repr

/-- A scale-up or scale-out port's link (R308, R311). -/
structure Link where
  failtime : BitVec 24
  oos : Bool
  retried : Bool
  retries : Nat
  up : Bool
  rank : Option (BitVec 8)
deriving DecidableEq, Repr

/-- What the device sends out: the host sees these in order. -/
inductive Outbound where
  /-- a PCIe write to host memory -/
  | write (port : BitVec 1) (addr : BitVec 64) (bytes : List Byte)
  /-- a PCIe read of host memory for an engine operation -/
  | read (port : BitVec 1) (op : Nat) (addr : BitVec 64) (len : Nat)
  /-- MSI-X vector raised on a port -/
  | msix (port : BitVec 1) (vec : BitVec 6)
  /-- completion of an inbound read: bytes, or Completer Abort -/
  | completion (port : BitVec 1) (req : Nat) (bytes : Option (List Byte))
  /-- Unsupported Request for a TLP that hits neither BAR (R303) -/
  | unsupported (port : BitVec 1) (req : Nat)
  /-- an SPDM response on a port (R317) -/
  | spdm (port : BitVec 1) (request : String) (error : Bool) (measurements : List Word)
  /-- a face delivery that crosses to a peer device (R197) -/
  | face (rank : BitVec 8) (ell idx1 : Nat) (xs : List Word) (retired : Bool)
  /-- a phase report that crosses to a peer device (R198), with the leaf of the phase it reports ended (R195) -/
  | report (rank : BitVec 8) (ell q : Nat) (leaf : Option (LredOp × List Word)) (retired : Bool)
  /-- the lattice descriptor with which this device starts a launch (R182) -/
  | descriptor (rank : BitVec 8) (words : List Word)
  /-- the word that a lattice has ended with a kernel lattice fault or a loss (R196, R198) -/
  | abort (rank : BitVec 8) (detail : Word)
  /-- the answer to a peer device's own access: what it read, that it failed (R166), or that a reset overtook it (R312) -/
  | answer (rank : BitVec 8) (reply : PeerMsg)
deriving DecidableEq, Repr

/-- A start record (R319), as its ten steps' entries: outcome, alternative, detail. A step that was not reached (outcome 0) has no entry
in BOOTREC yet; here it keeps the alternative with which a later start takes it up. DEDUCED, log entry 29. -/
structure StartRec where
  number : Word
  steps : List (BitVec 4 × BitVec 8 × Word)
deriving DecidableEq, Repr

/-- An image held by the device (R247, R317, R337), by its version and the words of its SHA-256 digest. -/
structure Image where
  number : Nat
  version : Word
  digest : List Word
deriving DecidableEq, Repr

/-- What the alternatives of a start have taken out of service or slowed down (R320): sockets that run at a reduced rate and sockets
left out, bit per socket; scale-up and scale-out ports; host ports. -/
structure Degraded where
  slow : Word
  gone : Word
  ports : BitVec 80
  hosts : BitVec 2
deriving DecidableEq, Repr

def Degraded.none : Degraded := ⟨0, 0, 0, 0⟩

/-- Identity, images, tamper state and start-up (R317 to R321). -/
structure Sec where
  /-- derived keys are present -/
  keys : Bool
  fuse : Bool
  tamperstat : BitVec 7
  fails : Nat
  fwSlot : BitVec 1
  /-- the slot last verified, which the next start runs (R317) -/
  fwNext : BitVec 1
  fwVersion : List Word
  /-- the digests of the images in the two firmware slots -/
  fwDigest : List (List Word)
  images : List Image
  /-- the digest of the schedule image measured: the last in force -/
  inForce : List Word
  startNumber : Word
  clearBoot : Bool
  history : List StartRec
  /-- consecutive restarts -/
  restarts : Nat
  halted : Bool
  /-- waits for a re-provisioning image after step 6 (R318) -/
  stopped : Bool
  /-- what the start in force left out or runs at a reduced rate (R320, R321) -/
  degraded : Degraded
  /-- host links as the start found them (IPT 0x0064) -/
  links : Word
  /-- the digest of the re-provisioning image accepted (R318) -/
  reprovisioned : Option (List Word)
deriving DecidableEq, Repr

/-- One requester of the host: its outstanding posted writes at the ordering point, and its TIMELO latch. -/
structure Requester where
  req : Nat
  latch : Word
deriving DecidableEq, Repr

/-- The whole device, and the one step chooser of the model (`turn`, `tick`, `forced`). -/
structure State where
  dies : List Die
  /-- physical die of each logical die (R12) -/
  place : List Nat
  ctxs : List Ctx
  cores : List CoreSt
  launches : List Launch
  teams : List Team
  warps : List Warp
  threads : List Thread
  cells : List Cell
  ops : List Op
  routes : List Route
  /-- sequence numbers for entries and routes -/
  seq : Nat
  /-- racking unit (R289) -/
  g : Word
  gdone : Word
  req : Bool
  /-- device time (R280) -/
  time : BitVec 64
  /-- TIMESTAT: lock and grandmaster -/
  lock : Bool
  gm : Bool
  timevec : Word
  /-- own rank, and the domain table: ndie by rank, 0 for no device (R336) -/
  rank : BitVec 8
  domain : List (BitVec 8 × Nat)
  links : List Link
  ports : List Port
  mgmt : Mgmt
  requesters : List Requester
  errinj : Word
  errinjlo : Word
  errinjhi : Word
  planted : List Planted
  logs : List ErrLog
  elsel : Word
  elidx : Word
  fatalstat : Word
  hostlost : Word
  eventq : List EventRec
  eqvec : Word
  eqdrop : Word
  sec : Sec
  out : List Outbound
  /-- the round-robin pointer over launch queues (R263) -/
  rr : Nat
  /-- MODEL: the lanes of the bundle being issued -/
  issuing : List Nat
  /-- MODEL: a bundle that must issue next (R270) -/
  forced : Option (Nat × Nat)
  /-- MODEL: the step chosen next, and the number of steps taken -/
  turn : Turn
  tick : Nat
deriving DecidableEq, Repr

/-! ### Reset -/

/-- A die as the start leaves it: in service, its memory cleared to zero (R312), both stacks (R8). -/
def Die.reset : Die :=
  { mapped := true, inService := true, memBytes := 72 * 2 ^ 30, mem := [], tlb := [], vintage := 0, stalecnt := 0,
    latchovf := 0, faultq := [], latch := [], offers := [], lees := [], resetting := none }

/-- A host port's registers at reset (R307). -/
def Port.reset : Port :=
  { lrec := List.replicate 16 0, lhandle := 0, hcqlo := 0, hcqhi := 0, hcqsize := 16, hcqhead := 0, hcqtail := 0,
    hcqvec := 0, hwin := 0, hctx := 0, up := true, gens := [], held := [], lgos := [], errors := [], msixOn := false, msixMask := false,
    msixTable := List.replicate 64 ⟨0, 0, 0, true⟩, msixPending := 0, aerStatus := 0, aerMask := 0, aerSeverity := 0x00462030 }

/-- A link at reset: down, until LINK_UP. -/
def Link.reset : Link := { failtime := 0, oos := false, retried := false, retries := 0, up := false, rank := none }

/-- The security block at reset: a first start, all of whose steps passed. DESIGN CHOICE, log entry 8. -/
def Sec.reset : Sec :=
  { keys := true, fuse := false, tamperstat := 0, fails := 0, fwSlot := 0, fwNext := 0, fwVersion := [0, 0],
    fwDigest := [Config.factoryDigest 0, Config.factoryDigest 1], images := [⟨0, 0, Config.factoryDigest 2⟩],
    inForce := Config.factoryDigest 2, startNumber := 1, clearBoot := false,
    history := [{ number := 1, steps := List.replicate 10 (1, 0, 0) }], restarts := 0, halted := false,
    stopped := false, degraded := Degraded.none, links := 0x80108010, reprovisioned := none }

/-- The machine right after reset: the first start has completed, nothing is loaded, no context exists. -/
def State.reset : State :=
  { dies := List.replicate 8 Die.reset, place := [0, 1, 2, 3, 4, 5, 6, 7], ctxs := [], cores := [], launches := [],
    teams := [], warps := [], threads := [], cells := [], ops := [], routes := [], seq := 0, g := 0, gdone := 0,
    req := false, time := 0, lock := false, gm := false, timevec := 0, rank := 0, domain := [(0, 8)],
    links := List.replicate 80 Link.reset, ports := [Port.reset, Port.reset],
    mgmt := { mcmdlo := 0, mcmdhi := 0, addr := 0, busy := false, result := (0, 0), stat := 0, code := 0 }, requesters := [],
    errinj := 0, errinjlo := 0, errinjhi := 0, planted := [], logs := [], elsel := 0, elidx := 0, fatalstat := 0,
    hostlost := 0, eventq := [], eqvec := 0, eqdrop := 0, sec := Sec.reset, out := [], rr := 0, issuing := [],
    forced := none, turn := Config.turn 0, tick := 0 }

end Sys2Proof.Machine
end

