-- ==== Sys2Proof/Machine/Numbers.lean ====
section
/-! DEFINITION. Number formats, exact arithmetic and rounding (chapter 5): every result is an exact dyadic, or a
truncated one with a sticky bit, rounded once. -/

namespace Sys2Proof.Machine

/-- Sticky flags in the layout of FPSTAT (R113): NV, DZ, OF, UF, NX. -/
abbrev Flags := BitVec 5

def fNV : Flags := 16
def fDZ : Flags := 8
def fOF : Flags := 4
def fUF : Flags := 2
def fNX : Flags := 1

/-- Number of bits of a natural number; 0 for 0. -/
def bitLen (n : Nat) : Nat := if n = 0 then 0 else Nat.log2 n + 1

/-- A floating-point format of R66. `maxMag` is the magnitude code of the largest finite value, `ovMag` the code an
overflow produces (R76), `nan` the NaN produced. -/
structure Fmt where
  eb : Nat
  mb : Nat
  bias : Int
  maxMag : Nat
  ovMag : Nat
  nan : Nat
deriving DecidableEq, Repr

def Fmt.fp32 : Fmt := ⟨8, 23, 127, 0x7F7FFFFF, 0x7F800000, 0x7FC00000⟩
def Fmt.bf16 : Fmt := ⟨8, 7, 127, 0x7F7F, 0x7F80, 0x7FC0⟩
def Fmt.fp16 : Fmt := ⟨5, 10, 15, 0x7BFF, 0x7C00, 0x7E00⟩
def Fmt.e4m3 : Fmt := ⟨4, 3, 7, 0x7E, 0x7E, 0x7F⟩
def Fmt.e5m2 : Fmt := ⟨5, 2, 15, 0x7B, 0x7B, 0x7E⟩
def Fmt.e2m1 : Fmt := ⟨2, 1, 1, 0x7, 0x7, 0x0⟩

/-- The exponent of the least subnormal. -/
def Fmt.emin (f : Fmt) : Int := 1 - f.bias - f.mb

/-- A decoded value: NaN (signalling or quiet), infinity, or ±m·2^e. -/
inductive FVal where
  | nan (sig : Bool)
  | inf (neg : Bool)
  | fin (neg : Bool) (m : Nat) (e : Int)
deriving DecidableEq, Repr

/-- The finite decoding that every format shares. -/
def decodeFinite (f : Fmt) (c : Nat) : FVal :=
  let neg := c >>> (f.eb + f.mb) % 2 = 1
  let ex := (c >>> f.mb) % 2 ^ f.eb
  let mn := c % 2 ^ f.mb
  if ex = 0 then .fin neg mn f.emin else .fin neg (2 ^ f.mb + mn) (f.emin + (ex - 1 : Nat))

/-- Decoding of FP32, BF16, FP16 and E5M2; the quiet bit tells signalling NaNs except in E5M2 (R66). -/
def decodeIeee (f : Fmt) (c : Nat) : FVal :=
  let ex := (c >>> f.mb) % 2 ^ f.eb
  let mn := c % 2 ^ f.mb
  if ex = 2 ^ f.eb - 1 then
    if mn = 0 then .inf (c >>> (f.eb + f.mb) % 2 = 1)
    else .nan (f.mb != 2 && mn >>> (f.mb - 1) = 0)
  else decodeFinite f c

def decodeE4m3 (c : Nat) : FVal := if c % 128 = 127 then .nan false else decodeFinite .e4m3 c

def ofInt (z : Int) : FVal := .fin (z < 0) z.natAbs 0

def f32 (w : Word) : FVal := decodeIeee .fp32 w.toNat
def bf (h : BitVec 16) : FVal := decodeIeee .bf16 h.toNat
def fp16 (h : BitVec 16) : FVal := decodeIeee .fp16 h.toNat

def FVal.isNan : FVal → Bool
  | .nan _ => true
  | _ => false

def FVal.isSig : FVal → Bool
  | .nan s => s
  | _ => false

def FVal.isZero : FVal → Bool
  | .fin _ 0 _ => true
  | _ => false

def FVal.isNeg : FVal → Bool
  | .nan _ => false
  | .inf n => n
  | .fin n _ _ => n

/-- NV for a signalling NaN among the operands (R73). -/
def sigFlag (xs : List FVal) : Flags := if xs.any FVal.isSig then fNV else 0

/-! ### Rounding -/

/-- Round m·2^e (with the exact value strictly inside the last unit when `sticky`) to a multiple of 2^q, to nearest
with ties to even: the integer, and whether it is inexact. -/
def roundAt (m : Nat) (e q : Int) (sticky : Bool) : Nat × Bool :=
  if q ≤ e then (m <<< (e - q).toNat, sticky)
  else
    let sh := (q - e).toNat
    let n := m >>> sh
    let r := m % 2 ^ sh
    let half := 2 ^ (sh - 1)
    let up := r > half || (r = half && (sticky || n % 2 = 1))
    (if up then n + 1 else n, r != 0 || sticky)

/-- Magnitude code of n·2^q, where n ≤ 2^(mb+1) and q ≥ emin, with q = emin when n < 2^mb. -/
def encodeMag (f : Fmt) (n : Nat) (q : Int) : Nat :=
  (q - f.emin).toNat * 2 ^ f.mb + n

/-- RNE of ±m·2^e into format f: the code and the flags. Overflow gives `ovMag` (R73, R76); tininess is detected
after rounding (R73). -/
def roundFin (f : Fmt) (neg : Bool) (m : Nat) (e : Int) (sticky : Bool) : Nat × Flags :=
  let sgn := if neg then 2 ^ (f.eb + f.mb) else 0
  if m = 0 ∧ sticky = false then (sgn, 0)
  else
    let q0 := e + bitLen m - (f.mb + 1)
    let q := if q0 < f.emin then f.emin else q0
    let (n, ix) := roundAt m e q sticky
    let mag := encodeMag f n q
    if mag > f.maxMag then (sgn + f.ovMag, fOF ||| fNX)
    else
      let tiny := q0 < f.emin && (q0 + 1 < f.emin || (roundAt m e q0 sticky).1 < 2 ^ (f.mb + 1))
      (sgn + mag, if ix then (if tiny then fUF ||| fNX else fNX) else 0)

/-- The code of a decoded value in format f, by the conversion rules of R76. `sat` formats turn an infinity into
the largest finite value. An infinite operand that stays infinite raises no flag, in FP32 as in BF16 and FP16. DEDUCED, log entry
94. -/
def convert (f : Fmt) (x : FVal) : Nat × Flags :=
  match x with
  | .nan s => (f.nan, if s then fNV else 0)
  | .inf neg =>
    ((if neg then 2 ^ (f.eb + f.mb) else 0) + f.ovMag, if f.ovMag = f.maxMag then fOF ||| fNX else 0)
  | .fin neg m e => roundFin f neg m e false

/-- E2M1 has no NaN: a NaN operand gives +0 with invalid (R76). -/
def convertE2m1 (x : FVal) : Nat × Flags :=
  if x.isNan then (0, fNV) else convert .e2m1 x

/-- Nearest integer of a finite value, ties to even, or truncation toward zero; and whether it is inexact. -/
def toIntegral (trunc : Bool) (neg : Bool) (m : Nat) (e : Int) : Int × Bool :=
  let (n, ix) :=
    if trunc then
      (if 0 ≤ e then (m <<< e.toNat, false) else (m >>> (-e).toNat, m % 2 ^ (-e).toNat != 0))
    else roundAt m e 0 false
  (if neg then -(n : Int) else n, ix)

/-- Conversion to an integer range, saturating with invalid (R76). -/
def convertInt (lo hi : Int) (trunc : Bool) (x : FVal) : Int × Flags :=
  match x with
  | .nan _ => (0, fNV)
  | .inf neg => (if neg then lo else hi, fNV)
  | .fin neg m e =>
    let (z, ix) := toIntegral trunc neg m e
    if z < lo then (lo, fNV) else if hi < z then (hi, fNV) else (z, if ix then fNX else 0)

/-! ### Exact sums and products -/

/-- An exact dyadic z·2^e. -/
structure Dyadic where
  z : Int
  e : Int
deriving DecidableEq, Repr

def Dyadic.add (a b : Dyadic) : Dyadic :=
  if a.e ≤ b.e then ⟨a.z + b.z * 2 ^ (b.e - a.e).toNat, a.e⟩
  else ⟨a.z * 2 ^ (a.e - b.e).toNat + b.z, b.e⟩

def Dyadic.mul (a b : Dyadic) : Dyadic := ⟨a.z * b.z, a.e + b.e⟩

/-- The exact value of a finite operand; 0 otherwise. -/
def FVal.dy : FVal → Dyadic
  | .fin neg m e => ⟨if neg then -(m : Int) else m, e⟩
  | _ => ⟨0, 0⟩

/-- RNE of an exact dyadic; an exact zero takes the sign given. -/
def roundDy (f : Fmt) (d : Dyadic) (zneg : Bool) : Nat × Flags :=
  if d.z = 0 then ((if zneg then 2 ^ (f.eb + f.mb) else 0), 0)
  else roundFin f (d.z < 0) d.z.natAbs d.e false

/-- RNE(a + b, f) under R73. -/
def fAdd (f : Fmt) (a b : FVal) : Nat × Flags :=
  match a, b with
  | .nan _, _ | _, .nan _ => (f.nan, sigFlag [a, b])
  | .inf x, .inf y => if x = y then convert f a else (f.nan, fNV)
  | .inf _, _ => convert f a
  | _, .inf _ => convert f b
  | .fin x _ _, .fin y _ _ => roundDy f (a.dy.add b.dy) (x && y)

def FVal.negate : FVal → FVal
  | .nan s => .nan s
  | .inf n => .inf (!n)
  | .fin n m e => .fin (!n) m e

/-- The exact product of two operands that are not NaN and not 0 × ∞. -/
def FVal.times (a b : FVal) : FVal :=
  match a, b with
  | .fin x m e, .fin y n g => .fin (x != y) (m * n) (e + g)
  | .nan s, _ | _, .nan s => .nan s
  | _, _ => .inf (a.isNeg != b.isNeg)

/-- 0 × ∞ in either order. -/
def zeroTimesInf (a b : FVal) : Bool :=
  match a, b with
  | .inf _, y => y.isZero
  | x, .inf _ => x.isZero
  | _, _ => false

def fMul (f : Fmt) (a b : FVal) : Nat × Flags :=
  if a.isNan || b.isNan then (f.nan, sigFlag [a, b])
  else if zeroTimesInf a b then (f.nan, fNV)
  else convert f (a.times b)

/-- RNE(a × b + d, f), one rounding (R125, R130); 0 × ∞ gives NaN with invalid even when d is a NaN, as R125 says of `ffma` (of
`bfma2`: DEDUCED, log entry 98). -/
def fFma (f : Fmt) (a b d : FVal) : Nat × Flags :=
  if zeroTimesInf a b then (f.nan, fNV)
  else if a.isNan || b.isNan || d.isNan then (f.nan, sigFlag [a, b, d])
  else fAdd f (a.times b) d

/-- a ÷ b, correctly rounded, with the special cases of R75. -/
def fDiv (f : Fmt) (a b : FVal) : Nat × Flags :=
  let sgn := if a.isNeg != b.isNeg then 2 ^ (f.eb + f.mb) else 0
  match a, b with
  | .nan _, _ | _, .nan _ => (f.nan, sigFlag [a, b])
  | .inf _, .inf _ => (f.nan, fNV)
  | .inf _, _ => (sgn + f.ovMag, 0)
  | _, .inf _ => (sgn, 0)
  | .fin x m e, .fin y n g =>
    if n = 0 then (if m = 0 then (f.nan, fNV) else (sgn + f.ovMag, fDZ))
    else if m = 0 then (sgn, 0)
    else
      let k := bitLen n + 64
      roundFin f (x != y) ((m <<< k) / n) (e - k - g) ((m <<< k) % n != 0)

/-- Integer square root, bit by bit from bit k down. -/
def isqrtFrom (n : Nat) : Nat → Nat → Nat
  | 0, r => if (r + 1) * (r + 1) ≤ n then r + 1 else r
  | k + 1, r => isqrtFrom n k (if (r + 2 ^ (k + 1)) * (r + 2 ^ (k + 1)) ≤ n then r + 2 ^ (k + 1) else r)

def isqrt (n : Nat) : Nat := isqrtFrom n (bitLen n / 2 + 1) 0

/-- ±m·2^e with an even exponent and the same value. -/
def evenExp (m : Nat) (e : Int) : Nat × Int := if e % 2 = 0 then (m, e) else (2 * m, e - 1)

/-- Square root (R75). -/
def fSqrt (x : FVal) : Nat × Flags :=
  let f := Fmt.fp32
  match x with
  | .nan s => (f.nan, if s then fNV else 0)
  | .inf neg => if neg then (f.nan, fNV) else (f.ovMag, 0)
  | .fin neg m e =>
    if m = 0 then ((if neg then 2 ^ 31 else 0), 0)
    else if neg then (f.nan, fNV)
    else
      let (m, e) := evenExp m e
      let n := m <<< 128
      let r := isqrt n
      roundFin f false r (e / 2 - 64) (r * r != n)

/-- Reciprocal (R75). -/
def fRcp (x : FVal) : Nat × Flags := fDiv .fp32 (.fin false 1 0) x

/-- Reciprocal square root (R75). -/
def fRsq (x : FVal) : Nat × Flags :=
  let f := Fmt.fp32
  match x with
  | .nan s => (f.nan, if s then fNV else 0)
  | .inf neg => if neg then (f.nan, fNV) else (0, 0)
  | .fin neg m e =>
    if m = 0 then ((if neg then 2 ^ 31 else 0) + f.ovMag, fDZ)
    else if neg then (f.nan, fNV)
    else
      let (m, e) := evenExp m e
      let t := bitLen m + 64
      let r := isqrt (2 ^ (2 * t) / m)
      roundFin f false r (-(e / 2) - t) (r * r * m != 2 ^ (2 * t))

/-! ### Exponential and logarithm

2^x of a dyadic that is not an integer, and log2 of a dyadic that is not a power of two, are irrational, so the result
is never exact and never a tie. A fixed-point value of 320 fraction bits decides the rounding. DEDUCED, log entry 9. -/

def fixBits : Nat := 320

/-- ⌊ln 2 · 2^320⌋. -/
def ln2Fix : Nat :=
  1480553391661173448385607439722553250922680800745876974795605978609098082859138712941075737848984

/-- Σ_{i ≥ k} of the Taylor series of exp at t, with `term` the k-th term, in fixed point. -/
def expSeries (t : Nat) : Nat → Nat → Nat → Nat
  | 0, _, _ => 0
  | fuel + 1, k, term => term + expSeries t fuel (k + 1) (((term * t) >>> fixBits) / (k + 1))

/-- Σ z^(2k+1)/(2k+1): the inverse hyperbolic tangent of z in fixed point. -/
def atanhSeries (z2 : Nat) : Nat → Nat → Nat → Nat
  | 0, _, _ => 0
  | fuel + 1, k, pow => pow / (2 * k + 1) + atanhSeries z2 fuel (k + 1) ((pow * z2) >>> fixBits)

/-- fexp2 (R75). -/
def fExp2 (x : FVal) : Nat × Flags :=
  let f := Fmt.fp32
  match x with
  | .nan s => (f.nan, if s then fNV else 0)
  | .inf neg => if neg then (0, 0) else (f.ovMag, 0)
  | .fin neg m e =>
    if m = 0 then (0x3F800000, 0)
    else if 9 ≤ e + bitLen m then (if neg then (0, fUF ||| fNX) else (f.ovMag, fOF ||| fNX))
    else
      -- |x| < 512: integer part i and fraction t with 320 bits
      let fixed : Int := (if 0 ≤ e + fixBits then m <<< (e + fixBits).toNat else m >>> (-(e + fixBits)).toNat : Nat)
      let v := if neg then -fixed else fixed
      let i := v / (2 ^ fixBits : Nat)
      let t := (v % (2 ^ fixBits : Nat)).toNat
      if t = 0 then roundFin f false 1 i false
      else
        let y := expSeries ((t * ln2Fix) >>> fixBits) 100 0 (2 ^ fixBits)
        roundFin f false y (i - fixBits) true

/-- flog2 (R75). -/
def fLog2 (x : FVal) : Nat × Flags :=
  let f := Fmt.fp32
  match x with
  | .nan s => (f.nan, if s then fNV else 0)
  | .inf neg => if neg then (f.nan, fNV) else (f.ovMag, 0)
  | .fin neg m e =>
    if m = 0 then (2 ^ 31 + f.ovMag, fDZ)
    else if neg then (f.nan, fNV)
    else
      let k := bitLen m - 1
      let ex : Int := e + k
      if m = 2 ^ k then roundDy f ⟨ex, 0⟩ false
      else
        let one := 2 ^ k
        let z := ((m - one) <<< fixBits) / (m + one)
        let ln := 2 * atanhSeries ((z * z) >>> fixBits) 110 0 z
        let l2 : Int := ((ln <<< fixBits) / ln2Fix : Nat)
        let v := ex * (2 ^ fixBits : Nat) + l2
        roundFin f (v < 0) v.natAbs (-fixBits) true

/-! ### Integral values, minimum and maximum, comparison -/

inductive RoundKind where
  | floor | ceil | trunc | near
deriving DecidableEq, Repr

/-- Functions 7 to 10 of `fun` (R128). -/
def fIntegral (k : RoundKind) (w : Word) : Word × Flags :=
  match f32 w with
  | .nan s => (0x7FC00000, if s then fNV else 0)
  | .inf _ => (w, 0)
  | .fin neg m e =>
    if m = 0 then (w, 0)
    else
      let fl : Int := (if neg then -(m : Int) else m) * 2 ^ e.toNat / 2 ^ (-e).toNat
      let ce : Int := -((if neg then (m : Int) else -m) * 2 ^ e.toNat / 2 ^ (-e).toNat)
      let z := match k with
        | .floor => fl
        | .ceil => ce
        | .trunc => if neg then ce else fl
        | .near => (toIntegral false neg m e).1
      (BitVec.ofNat 32 (roundDy .fp32 ⟨z, 0⟩ neg).1, 0)

/-- a < b for operands that are not NaN, with −0 equal to +0. -/
def fLess (a b : FVal) : Bool :=
  match a, b with
  | .inf x, .inf y => x && !y
  | .inf x, _ => x
  | _, .inf y => !y
  | _, _ => (a.dy.add b.negate.dy).z < 0

/-- fmin and fmax (R126), −0 below +0. -/
def fMinMax (wantMax : Bool) (a b : Word) : Word × Flags :=
  let x := f32 a
  let y := f32 b
  let fl := sigFlag [x, y]
  if x.isNan && y.isNan then (0x7FC00000, fl)
  else if x.isNan then (b, fl)
  else if y.isNan then (a, fl)
  else
    let less := fLess x y || (!fLess y x && x.isNeg && !y.isNeg)
    (if less != wantMax then a else b, fl)

/-- Floating-point comparison for `fsetp` (R127): less, equal, greater, or unordered. -/
def fCompare (a b : FVal) : Option Ordering :=
  if a.isNan || b.isNan then none
  else if fLess a b then some .lt else if fLess b a then some .gt else some .eq

/-! ### Moment triples (R80 to R83) -/

/-- A triple (w, μ, m). -/
structure Triple where
  w : Word
  mu : Word
  m : Word
deriving DecidableEq, Repr

def Triple.empty : Triple := ⟨0, 0x7FE00000, 0⟩
def Triple.nan : Triple := ⟨0x7FC00000, 0x7FC00000, 0x7FC00000⟩
def Triple.words (t : Triple) : List Word := [t.w, t.mu, t.m]
def Triple.ofWords (xs : List Word) : Triple := ⟨xs.getD 0 0, xs.getD 1 0, xs.getD 2 0⟩

/-- A weight is zero when its bits are 0 or the sign bit alone (R81). -/
def isZeroWeight (w : Word) : Bool := w = 0 || w = 0x80000000

def wordOfNat (r : Nat × Flags) : Word × Flags := (BitVec.ofNat 32 r.1, r.2)

def add32 (a b : Word) : Word × Flags := wordOfNat (fAdd .fp32 (f32 a) (f32 b))
def sub32 (a b : Word) : Word × Flags := wordOfNat (fAdd .fp32 (f32 a) (f32 b).negate)
def mul32 (a b : Word) : Word × Flags := wordOfNat (fMul .fp32 (f32 a) (f32 b))
def fma32 (a b d : Word) : Word × Flags := wordOfNat (fFma .fp32 (f32 a) (f32 b) (f32 d))
def div32 (a b : Word) : Word × Flags := wordOfNat (fDiv .fp32 (f32 a) (f32 b))
def rsq32 (a : Word) : Word × Flags := wordOfNat (fRsq (f32 a))

/-- The blend of R82: a is the first operand. -/
def blendT (a c : Triple) : Triple × Flags :=
  let bad (w : Word) : Bool := (f32 w).isNan || ((f32 w).isNeg && !isZeroWeight w)
  if bad a.w || bad c.w then (Triple.nan, fNV)
  else if isZeroWeight a.w && isZeroWeight c.w then (Triple.empty, 0)
  else if isZeroWeight a.w then (c, 0)
  else if isZeroWeight c.w then (a, 0)
  else
    let (w, f1) := add32 a.w c.w
    let (d, f2) := sub32 c.mu a.mu
    let (f, f3) := div32 c.w w
    let (mu, f4) := fma32 d f a.mu
    let (g, f5) := mul32 a.w f
    let (s, f6) := add32 a.m c.m
    let (dd, f7) := mul32 d d
    let (ddg, f8) := mul32 dd g
    let (m, f9) := add32 s ddg
    (⟨w, mu, m⟩, f1 ||| f2 ||| f3 ||| f4 ||| f5 ||| f6 ||| f7 ||| f8 ||| f9)

/-- A finaliser of a zero-weight triple gives NaN with invalid (R83). -/
def finalise (t : Triple) (r : Word × Flags) : Word × Flags :=
  if isZeroWeight t.w then (0x7FC00000, fNV) else r

/-- The mean is μ, bit for bit and without flags, a NaN too (R83, R141). DEDUCED, log entry 89. -/
def triMean (t : Triple) : Word × Flags := finalise t (t.mu, 0)
def triVar (t : Triple) : Word × Flags := finalise t (div32 t.m t.w)

/-- Sample variance: m / (w − 1), NaN with invalid when w − 1 ≤ 0 or is NaN. -/
def triVars (t : Triple) : Word × Flags :=
  let (q, f1) := sub32 t.w 0x3F800000
  let x := f32 q
  finalise t (if x.isNan || x.isZero || x.isNeg then (0x7FC00000, f1 ||| fNV)
    else let (r, f2) := div32 t.m q; (r, f1 ||| f2))

/-- rstd: rsq(m / w + ε). -/
def triRstd (t : Triple) (eps : Word) : Word × Flags :=
  let (v, f1) := div32 t.m t.w
  let (u, f2) := add32 v eps
  let (r, f3) := rsq32 u
  finalise t (r, f1 ||| f2 ||| f3)

def triSum (t : Triple) : Word × Flags := finalise t (mul32 t.w t.mu)

/-! ### Elements (R66, R67, R131) and exact block sums (R77, R78) -/

/-- An element of a tagged 8-bit or 4-bit format, or a raw one as an integer; cb4 through its captured entries. -/
def decodeElem (t : Tag) (cb : List (BitVec 16)) (c : Nat) : FVal :=
  match t with
  | .e4m3 => decodeE4m3 c
  | .e5m2 => decodeIeee .e5m2 c
  | .e2m1 => decodeFinite .e2m1 c
  | .i8 => ofInt (BitVec.ofNat 8 c).toInt
  | .i4 => ofInt (BitVec.ofNat 4 c).toInt
  | .cb4 => bf (cb.getD c 0)
  | .raw => ofInt (BitVec.ofNat 8 c).toInt
  | .bad => .fin false 0 0

/-- The exact sum of products of a block: the value of s before scaling, and whether invalid is set (R78). -/
def blockSum (ps : List (FVal × FVal)) : FVal × Bool :=
  let nan := ps.any fun p => p.1.isNan || p.2.isNan
  let sig := ps.any fun p => p.1.isSig || p.2.isSig
  let zi := ps.any fun p => zeroTimesInf p.1 p.2
  let isInf (neg : Bool) (p : FVal × FVal) : Bool :=
    !zeroTimesInf p.1 p.2 && p.1.times p.2 = .inf neg
  let pinf := ps.any (isInf false)
  let ninf := ps.any (isInf true)
  if nan || zi || (pinf && ninf) then (.nan false, sig || zi || (pinf && ninf))
  else if pinf then (.inf false, false)
  else if ninf then (.inf true, false)
  else
    let d := ps.foldl (fun (acc : Dyadic) p => acc.add (p.1.times p.2).dy) ⟨0, 0⟩
    (.fin (d.z < 0) d.z.natAbs d.e, false)

end Sys2Proof.Machine
end

