-- ==== Sys2Proof/Machine/Flags.lean ====
section
/-! DEFINITION. What each lane function computes from its source words, and the sticky flags it raises (chapter 7,
R115 to R141). -/

namespace Sys2Proof.Machine

/-- A lane function's result: the words it writes, the flags it raises (R117), the tag it leaves (R70). -/
structure FnOut where
  vals : List Word
  flags : Flags
  tag : Tag
deriving DecidableEq, Repr

def outW (w : Word) : FnOut := ⟨[w], 0, .raw⟩
def outF (r : Word × Flags) : FnOut := ⟨[r.1], r.2, .raw⟩
def outN (r : Nat × Flags) : FnOut := outF (wordOfNat r)
def outT (r : Triple × Flags) : FnOut := ⟨r.1.words, r.2, .raw⟩

/-! ### Integer functions (R118, R119, R122) -/

def mulhS (a b : Word) : Word := BitVec.ofInt 32 (a.toInt * b.toInt / 2 ^ 32)
def mulhU (a b : Word) : Word := BitVec.ofNat 32 (a.toNat * b.toNat / 2 ^ 32)

/-- Signed division truncated toward zero; −1 for b = 0, and the most negative number by −1 wraps (R119). -/
def divS (a b : Word) : Word := if b = 0 then 0xFFFFFFFF else BitVec.ofInt 32 (a.toInt.tdiv b.toInt)
def divU (a b : Word) : Word := if b = 0 then 0xFFFFFFFF else BitVec.ofNat 32 (a.toNat / b.toNat)

def minS (a b : Word) : Word := if a.slt b then a else b
def maxS (a b : Word) : Word := if a.slt b then b else a
def minU (a b : Word) : Word := if a.ult b then a else b
def maxU (a b : Word) : Word := if a.ult b then b else a

def addSat (a b : Word) : Word :=
  let t := a.toInt + b.toInt
  if 2 ^ 31 - 1 < t then 0x7FFFFFFF else if t < -2 ^ 31 then 0x80000000 else a + b

def shAmt (b : Word) : Nat := b.toNat % 32

def clzNat : Nat → Word → Nat
  | 0, _ => 0
  | n + 1, w => if w.getLsbD n then 0 else 1 + clzNat n w

def ctzNat : Nat → Nat → Word → Nat
  | 0, _, _ => 0
  | n + 1, i, w => if w.getLsbD i then 0 else 1 + ctzNat n (i + 1) w

def popNat : Nat → Nat → Nat
  | 0, _ => 0
  | n + 1, w => w % 2 + popNat n (w / 2)

def revBits : Nat → Nat → Nat → Nat
  | 0, _, r => r
  | n + 1, w, r => revBits n (w / 2) (2 * r + w % 2)

def bswapOf (w : Word) : Word :=
  w.extractLsb' 0 8 ++ w.extractLsb' 8 8 ++ w.extractLsb' 16 8 ++ w.extractLsb' 24 8

/-- The comparison of `setp` (R123). -/
def condHolds (c : Cond) (a b : Word) : Bool :=
  match c with
  | .eq => a == b
  | .ne => a != b
  | .lt => a.slt b
  | .le => !b.slt a
  | .gt => b.slt a
  | .ge => !a.slt b
  | .ltu => a.ult b
  | .leu => !b.ult a
  | .gtu => b.ult a
  | .geu => !a.ult b

/-- The comparison of `fsetp` and the invalid flag (R127). -/
def fcondHolds (c : FCond) (a b : Word) : Bool × Flags :=
  let x := f32 a
  let y := f32 b
  let sig := sigFlag [x, y]
  let anyNan := if x.isNan || y.isNan then fNV else 0
  match c, fCompare x y with
  | .eq, r => (r == some .eq, sig)
  | .ne, r => (r != some .eq, sig)
  | .lt, r => (r == some .lt, anyNan)
  | .le, r => (r == some .lt || r == some .eq, anyNan)
  | .gt, r => (r == some .gt, anyNan)
  | .ge, r => (r == some .gt || r == some .eq, anyNan)
  | .un, r => (r == none, sig)
  | .ord, r => (r != none, sig)

/-! ### Bit fields (R137) -/

def bfxOf (len pos : Nat) (a : Word) : Word :=
  let n := min len (32 - pos)
  BitVec.ofNat 32 (a.toNat / 2 ^ pos % 2 ^ n)

def bfiOf (len pos : Nat) (a d : Word) : Word :=
  let n := min len (32 - pos)
  let mask : Word := BitVec.ofNat 32 ((2 ^ n - 1) * 2 ^ pos)
  (d &&& ~~~mask) ||| ((a <<< pos) &&& mask)

/-! ### Narrow elements (R130 to R135) -/

def lo16 (w : Word) : BitVec 16 := w.extractLsb' 0 16
def hi16 (w : Word) : BitVec 16 := w.extractLsb' 16 16

/-- Two BF16 halves, each computed on its own (R130). -/
def halves (f : BitVec 16 → BitVec 16 → BitVec 16 → Nat × Flags) (a b d : Word) : FnOut :=
  let l := f (lo16 a) (lo16 b) (lo16 d)
  let h := f (hi16 a) (hi16 b) (hi16 d)
  ⟨[BitVec.ofNat 16 h.1 ++ BitVec.ofNat 16 l.1], l.2 ||| h.2, .raw⟩

/-- Element i of a register under a tag: 8-bit or 4-bit code (R67). -/
def elemCode (bits i : Nat) (w : Word) : Nat := w.toNat / 2 ^ (bits * i) % 2 ^ bits

/-- Decoding for `dot4`, `dot8`, `upk8`, `upk4`: a raw source is i8 or i4 (R131). -/
def laneElem (bits : Nat) (t : Tag) (cb : List (BitVec 16)) (i : Nat) (w : Word) : FVal :=
  let t := if t = .raw then (if bits = 8 then .i8 else .i4) else t
  decodeElem t cb (elemCode bits i w)

def Tag.isInt (t : Tag) : Bool := t = .i8 || t = .i4 || t = .raw

/-- `dot4` (n = 4, 8 bits) and `dot8` (n = 8, 4 bits) (R132). -/
def dotOf (n bits : Nat) (ta tb : Tag) (cb : List (BitVec 16)) (a b d : Word) : FnOut :=
  let ps := (List.range n).map fun i => (laneElem bits ta cb i a, laneElem bits tb cb i b)
  if Tag.isInt ta && Tag.isInt tb then
    outW (d + BitVec.ofInt 32 ((ps.map fun p => (p.1.dy.mul p.2.dy).z).sum))
  else
    let (s, inv) := blockSum ps
    let (r, f) := wordOfNat (fAdd .fp32 (f32 d) s)
    ⟨[r], f ||| (if inv then fNV else 0), .raw⟩

/-- Conversion to an element of d's format for `pk8` and `pk4` (R134, R76). -/
def packElem (t : Tag) (x : Word) : Nat × Flags :=
  match t with
  | .e4m3 => convert .e4m3 (f32 x)
  | .e5m2 => convert .e5m2 (f32 x)
  | .e2m1 => convertE2m1 (f32 x)
  | .i8 => let (z, f) := convertInt (-128) 127 false (f32 x); ((BitVec.ofInt 8 z).toNat, f)
  | .i4 => let (z, f) := convertInt (-8) 7 false (f32 x); ((BitVec.ofInt 4 z).toNat, f)
  | _ => (0, 0)

/-- d ← d shifted by two elements, with cvt(b) above cvt(a) (R134); d keeps its tag. -/
def packOf (bits : Nat) (t : Tag) (a b d : Word) : FnOut :=
  let ca := packElem t a
  let cb := packElem t b
  ⟨[(d <<< (2 * bits)) ||| BitVec.ofNat 32 (cb.1 * 2 ^ bits + ca.1)], ca.2 ||| cb.2, t⟩

/-- FP32 of a decoded element (R135). -/
def elemToF32 (x : FVal) : Word × Flags := wordOfNat (convert .fp32 x)

def fsclOf (a b : Word) : Word × Flags :=
  let e := b.toNat % 256
  if e = 255 then (0x7FC00000, 0)
  else match f32 a with
    | .fin n m g => wordOfNat (convert .fp32 (.fin n m (g + (e : Int) - 127)))
    | x => wordOfNat (convert .fp32 x)

def intOut (w : Nat) (r : Int × Flags) : FnOut := ⟨[(BitVec.ofInt w r.1).zeroExtend 32], r.2, .raw⟩

/-- fabs and fneg: a NaN gives the default NaN, with invalid if signalling (R128). -/
def fSign (r : Word) (a : Word) : FnOut :=
  match f32 a with
  | .nan s => ⟨[0x7FC00000], if s then fNV else 0, .raw⟩
  | _ => outW r

/-- What a lane function makes of its source words `xs`, their tags `ts` and the captured codebook `cb`. Sources come
in the order a, b, then the destination where it is read (R116); a triple gives its three words in order. -/
def LaneFn.eval (fn : LaneFn) (xs : List Word) (ts : List Tag) (cb : List (BitVec 16)) : FnOut :=
  let a := xs.getD 0 0
  let b := xs.getD 1 0
  let c := xs.getD 2 0
  let ta := ts.getD 0 .raw
  let tb := ts.getD 1 .raw
  let tri (i : Nat) : Triple := Triple.ofWords (xs.drop i)
  match fn with
  | .add => outW (a + b)
  | .sub => outW (a - b)
  | .mul => outW (a * b)
  | .mulh => outW (mulhS a b)
  | .mulhu => outW (mulhU a b)
  | .mad => outW (a * b + c)
  | .div => outW (divS a b)
  | .divu => outW (divU a b)
  | .rem => outW (if b = 0 then a else a - b * divS a b)
  | .remu => outW (if b = 0 then a else a - b * divU a b)
  | .min => outW (minS a b)
  | .max => outW (maxS a b)
  | .minu => outW (minU a b)
  | .maxu => outW (maxU a b)
  | .and => outW (a &&& b)
  | .or => outW (a ||| b)
  | .xor => outW (a ^^^ b)
  | .andn => outW (a &&& ~~~b)
  | .shl => outW (a <<< shAmt b)
  | .shr => outW (a >>> shAmt b)
  | .sar => outW (a.sshiftRight (shAmt b))
  | .rot => outW (a.rotateLeft (shAmt b))
  | .addsat => outW (addSat a b)
  | .movh => outW ((a <<< 14) ||| (b &&& 0x3FFF))
  | .mov => ⟨[a], 0, ta⟩
  | .not => outW (~~~a)
  | .neg => outW (0 - a)
  | .abs => outW (if a.slt 0 then 0 - a else a)
  | .clz => outW (BitVec.ofNat 32 (clzNat 32 a))
  | .ctz => outW (BitVec.ofNat 32 (ctzNat 32 0 a))
  | .popc => outW (BitVec.ofNat 32 (popNat 32 a.toNat))
  | .brev => outW (BitVec.ofNat 32 (revBits 32 a.toNat 0))
  | .bswap => outW (bswapOf a)
  | .sxb => outW ((a.setWidth 8).signExtend 32)
  | .sxh => outW ((a.setWidth 16).signExtend 32)
  | .zxb => outW (a &&& 0xFF)
  | .zxh => outW (a &&& 0xFFFF)
  | .sel p => outW (if p then a else b)
  | .fadd => outF (add32 a b)
  | .fsub => outF (sub32 a b)
  | .fmul => outF (mul32 a b)
  | .ffma => outF (fma32 a b c)
  | .fmin => outF (fMinMax false a b)
  | .fmax => outF (fMinMax true a b)
  | .fdiv => outF (div32 a b)
  | .fabs => fSign (a &&& 0x7FFFFFFF) a
  | .fneg => fSign (a ^^^ 0x80000000) a
  | .fsqrt => outN (fSqrt (f32 a))
  | .frcp => outN (fRcp (f32 a))
  | .frsq => outN (fRsq (f32 a))
  | .fexp2 => outN (fExp2 (f32 a))
  | .flog2 => outN (fLog2 (f32 a))
  | .ffloor => outF (fIntegral .floor a)
  | .fceil => outF (fIntegral .ceil a)
  | .ftrunc => outF (fIntegral .trunc a)
  | .frint => outF (fIntegral .near a)
  | .f2i => intOut 32 (convertInt (-2 ^ 31) (2 ^ 31 - 1) false (f32 a))
  | .f2iz => intOut 32 (convertInt (-2 ^ 31) (2 ^ 31 - 1) true (f32 a))
  | .f2u => intOut 32 (convertInt 0 (2 ^ 32 - 1) false (f32 a))
  | .f2uz => intOut 32 (convertInt 0 (2 ^ 32 - 1) true (f32 a))
  | .i2f => outF (elemToF32 (ofInt a.toInt))
  | .u2f => outF (elemToF32 (ofInt a.toNat))
  | .f2bf => outN (convert .bf16 (f32 a))
  | .bf2f => outF (elemToF32 (bf (lo16 a)))
  | .f2h => outN (convert .fp16 (f32 a))
  | .h2f => outF (elemToF32 (fp16 (lo16 a)))
  | .bfma2 => halves (fun x y d => fFma .bf16 (bf x) (bf y) (bf d)) a b c
  | .badd2 => halves (fun x y _ => fAdd .bf16 (bf x) (bf y)) a b 0
  | .dot4 => dotOf 4 8 ta tb cb a b c
  | .dot8 => dotOf 8 4 ta tb cb a b c
  | .fscl => outF (fsclOf a b)
  | .pk8 => packOf 8 (ts.getD 2 .raw) a b c
  | .pk4 => packOf 4 (ts.getD 2 .raw) a b c
  | .upk8 i => outF (elemToF32 (laneElem 8 ta cb i a))
  | .upk4 i => outF (elemToF32 (laneElem 4 ta cb i a))
  | .ftag t => ⟨[a], 0, t⟩
  | .bfx len pos => outW (bfxOf len pos a)
  | .bfi len pos => outW (bfiOf len pos a b)
  | .blend => outT (blendT (tri 0) (tri 3))
  | .mupdw => outT (blendT (tri 2) ⟨b, a, 0⟩)
  | .mupd => outT (blendT (tri 1) ⟨0x3F800000, a, 0⟩)
  | .mclr => outT (Triple.empty, 0)
  | .mmean => outF (triMean (tri 0))
  | .mvar => outF (triVar (tri 0))
  | .mvars => outF (triVars (tri 0))
  | .mrstd => outF (triRstd (tri 0) (xs.getD 3 0))
  | .msum => outF (triSum (tri 0))
  | .refill full => outW (if full then 4 else 0)

/-- A tag that a function's source may not carry (R131, R134): the illegal-operand trap. -/
def LaneFn.tagsOk (fn : LaneFn) (ts : List Tag) : Bool :=
  let ta := ts.getD 0 .raw
  let tb := ts.getD 1 .raw
  let td := ts.getD 2 .raw
  let w8 (t : Tag) := t = .raw || t = .e4m3 || t = .e5m2 || t = .i8
  let w4 (t : Tag) := t = .raw || t = .e2m1 || t = .i4 || t = .cb4
  match fn with
  | .dot4 => w8 ta && w8 tb
  | .dot8 => w4 ta && w4 tb
  | .upk8 _ => w8 ta
  | .upk4 _ => w4 ta
  | .pk8 => td = .e4m3 || td = .e5m2 || td = .i8
  | .pk4 => td = .e2m1 || td = .i4
  | _ => true

/-- The function decodes a cb4 source, so it captures a codebook generation (R72). -/
def LaneFn.usesCb (fn : LaneFn) (ts : List Tag) : Bool :=
  match fn with
  | .dot8 => ts.getD 0 .raw = .cb4 || ts.getD 1 .raw = .cb4
  | .upk4 _ => ts.getD 0 .raw = .cb4
  | _ => false

end Sys2Proof.Machine
end

