-- ==== Sys2Proof/Machine/Ops.lean ====
section
/-! DEFINITION. The named operations over tables, memory, translation, queues and completions that the meanings
share; taking an exception (R271) and the return from one stand here. -/

namespace Sys2Proof.Machine

/-! ### Bytes and words -/

/-- Little-endian value of bytes (R6). -/
def leNat : List Byte → Nat
  | [] => 0
  | b :: bs => b.toNat + 256 * leNat bs

/-- The n low bytes of a value, lowest first. -/
def leBytes : Nat → Nat → List Byte
  | 0, _ => []
  | n + 1, v => BitVec.ofNat 8 v :: leBytes n (v / 256)

def wBytes (w : Word) : List Byte := leBytes 4 w.toNat
def wOf (bs : List Byte) : Word := BitVec.ofNat 32 (leNat bs)

/-- Words of a byte list, four bytes each. -/
def wordsOf : Nat → List Byte → List Word
  | 0, _ => []
  | n + 1, bs => wOf (bs.take 4) :: wordsOf n (bs.drop 4)

def fld (w : Word) (lo n : Nat) : Nat := w.toNat / 2 ^ lo % 2 ^ n
def bit (w : Word) (i : Nat) : Bool := w.getLsbD i

/-! ### Memory: one canonical form -/

/-- A memory: (address, byte) pairs, addresses strictly rising, no listed byte zero. An unlisted byte reads zero:
near memory is cleared (R312); for the core buffers that is DESIGN CHOICE, log entry 10. -/
abbrev Memory := List Host.Cell

/-- The canonical form, from a lower bound on. -/
def Memory.wfFrom (lo : Nat) : Memory → Bool
  | [] => true
  | (a, b) :: m => decide (lo ≤ a) && b != 0 && Memory.wfFrom (a + 1) m

def Memory.wf (m : Memory) : Bool := Memory.wfFrom 0 m

def Memory.read1 : Memory → Nat → Byte
  | [], _ => 0
  | (a, b) :: m, x => if x = a then b else Memory.read1 m x

def Memory.write1 : Memory → Nat → Byte → Memory
  | [], x, v => if v = 0 then [] else [(x, v)]
  | (a, b) :: m, x, v =>
    if x < a then (if v = 0 then (a, b) :: m else (x, v) :: (a, b) :: m)
    else if x = a then (if v = 0 then m else (x, v) :: m)
    else (a, b) :: Memory.write1 m x v

def Memory.read (m : Memory) (x : Nat) : Nat → List Byte
  | 0 => []
  | n + 1 => Memory.read1 m x :: Memory.read m (x + 1) n

def Memory.write (m : Memory) (x : Nat) : List Byte → Memory
  | [] => m
  | b :: bs => Memory.write (Memory.write1 m x b) (x + 1) bs

/-! ### Tables -/

/-- DESIGN CHOICE, log entry 14. -/
def Thread.blank : Thread :=
  { warp := 0, lane := 0, slot := 0, collie := false, status := .exited, pc := 0, meet := none, lnk := 0, v := [],
    wbase := 0, x := [0, 0, 0, 0], p := 0, lc := List.replicate 3 ⟨0, none, 0⟩, qb := [none, none, none], bw := 0,
    bc := 0, depth := 0, qtag := 0, iptidx := 0, cbsel := 0, timeHi := 0, faultCode := 0, faultAddr := 0,
    inHandler := false, frame := 0, loads := [], loadCount := 0, lastLoad := 0, peerCount := 0, deferred := [],
    lred := [], owed := [], popped := [], popJob := false, popCb := none, tickets := 0, staging := [], taken := [], cell := none }

def Warp.blank : Warp :=
  { team := 0, core := 0, idx := 0, width := 1, pipe := 0, col := 0, threads := [],
    s := List.replicate 16 ⟨0, true⟩, m := List.replicate 12 0, fp := 0, fifo := [] }

def Team.blank : Team := { launch := none, x := 0, y := 0, z := 0, core := 0, odd := none, warps := 1, pack := none }

def CoreSt.blank : CoreSt :=
  { ctx := 0, ldie := 0, core := 0, resident := false, a := [], c := [], w := [], atags := [], wtags := [],
    books := [], wq := [], nt := [], copies := [], tlb := [], icache := [], gens := [], q0 := [], heldq := [],
    collie := none, holder := none, waiters := [], popWait := [], faces := [], reports := [], bundles := [] }

def Ctx.blank : Ctx :=
  { id := 0, words := [], pools := [], blocks := [], image := 0, live := false, saved := false, ctags := [] }

def Cell.blank : Cell :=
  { launch := 0, ell := 0, cx := 0, cy := 0, cz := 0, core := 0, tid := 0, q := 0, pubs := [], retired := true,
    resident := false, leaf := none, leaves := [] }

def Op.blank : Op :=
  { engine := 0, slot := 0, gen := 0, ctx := 0, core := none, port := 0, tid := 0, warp := 0, dst := [],
    stage := .done, order := 0, fn := 0, arg := 0, record := [], acq := false, rel := false, scope := 0, mark := [], sent := [],
    peers := 0, rows := [], atag := .raw, btag := .raw, acb := none, bcb := none, width := 1, units := [], midBlock := false, cursor := 0, asked := false, askedAt := 0, got := [], tags := [],
    outs := [], written := 0, acked := 0, status := 0, detail := 0, flags := 0, rest := [], overrun := false,
    lost := false, cancel := false, instance_ := 0 }

def Launch.blank : Launch :=
  { ctx := 0, op := 0, words := [], stage := .complete, order := 0, started := 0, next := [], packs := [], peerLost := false,
    desc := [], init := ⟨[], [], []⟩, lredDone := [], grant := 0, remote := [] }

def Die.blank : Die := { Die.reset with mapped := false, inService := false, memBytes := 0 }

namespace State

def th (s : State) (t : Nat) : Thread := s.threads.getD t Thread.blank
def wp (s : State) (w : Nat) : Warp := s.warps.getD w Warp.blank
def tm (s : State) (i : Nat) : Team := s.teams.getD i Team.blank
def co (s : State) (c : Nat) : CoreSt := s.cores.getD c CoreSt.blank
def op (s : State) (i : Nat) : Op := s.ops.getD i Op.blank
def cl (s : State) (i : Nat) : Cell := s.cells.getD i Cell.blank
def la (s : State) (i : Nat) : Launch := s.launches.getD i Launch.blank
def die (s : State) (d : Nat) : Die := s.dies.getD d Die.blank

def modTh (s : State) (t : Nat) (f : Thread → Thread) : State := { s with threads := s.threads.modify t f }
def modWp (s : State) (w : Nat) (f : Warp → Warp) : State := { s with warps := s.warps.modify w f }
def modTm (s : State) (i : Nat) (f : Team → Team) : State := { s with teams := s.teams.modify i f }
def modCo (s : State) (c : Nat) (f : CoreSt → CoreSt) : State := { s with cores := s.cores.modify c f }
def modOp (s : State) (i : Nat) (f : Op → Op) : State := { s with ops := s.ops.modify i f }
def modCl (s : State) (i : Nat) (f : Cell → Cell) : State := { s with cells := s.cells.modify i f }
def modLa (s : State) (i : Nat) (f : Launch → Launch) : State := { s with launches := s.launches.modify i f }
def modDie (s : State) (d : Nat) (f : Die → Die) : State := { s with dies := s.dies.modify d f }
def modPort (s : State) (p : BitVec 1) (f : Port → Port) : State := { s with ports := s.ports.modify p.toNat f }

/-- Change the records of one live context. -/
def modCtx (s : State) (id : Word) (f : Ctx → Ctx) : State :=
  { s with ctxs := s.ctxs.map fun c => if c.id = id ∧ c.live then f c else c }

def port (s : State) (p : BitVec 1) : Port := s.ports.getD p.toNat Port.reset

/-- The live context with this CTXID (R260). -/
def ctx (s : State) (id : Word) : Ctx := (s.ctxs.find? fun c => c.id = id ∧ c.live).getD Ctx.blank

/-- Logical dies in service (R12). -/
def ndie (s : State) : Nat := s.place.length

/-- The physical die of a logical die. -/
def pdie (s : State) (ldie : Nat) : Nat := s.place.getD ldie 8

def wpOf (s : State) (t : Nat) : Warp := s.wp (s.th t).warp
def tmOf (s : State) (t : Nat) : Team := s.tm (s.wpOf t).team
/-- The core whose lane slots hold the thread. -/
def coreOf (s : State) (t : Nat) : Nat := (s.wpOf t).core
/-- The core whose A-buffer the thread reaches: the even core of a pair (R147). -/
def homeOf (s : State) (t : Nat) : Nat := (s.tmOf t).core
def ctxOf (s : State) (t : Nat) : Ctx := s.ctx (s.co (s.coreOf t)).ctx
def ldieOf (s : State) (t : Nat) : Nat := (s.co (s.coreOf t)).ldie
def ctxIdOf (s : State) (t : Nat) : Word := (s.co (s.coreOf t)).ctx
def launchOf (s : State) (t : Nat) : Option Nat := (s.tmOf t).launch

/-- NWIN of a thread: the launch record's, or the context's for the Collie (R11, R146). -/
def nwin (s : State) (t : Nat) : Nat :=
  2 ^ 32 * match s.launchOf t with
    | some l => fld ((s.la l).words.getD 3 0) 0 16
    | none => fld ((s.ctxOf t).words.getD 15 0) 0 16

def isPair (s : State) (t : Nat) : Bool := (s.tmOf t).odd.isSome

def live (s : State) (t : Nat) : Bool := (s.th t).status != .exited

end State

/-! ### Error protection (R172 to R174, R316) -/

/-- The identifiers this model gives the arrays: near memory of physical die k, and the buffers of a core record.
DESIGN CHOICE, log entry 11. -/
def arrNear (d : Nat) : BitVec 16 := BitVec.ofNat 16 d
def arrBuf (core : Nat) (sp : Space) : BitVec 16 :=
  BitVec.ofNat 16 (0x1000 + 4 * core + match sp with | .a => 0 | .c => 1 | .w => 2 | .n => 3)

/-- A write reaches an array: an armed injection at one of its addresses is made (R316). -/
def State.eccWrite (s : State) (arr : BitVec 16) (addr len : Nat) : State :=
  let a := s.errinjlo.toNat + 2 ^ 32 * (s.errinjhi.toNat % 2 ^ 16)
  if bit s.errinj 31 ∧ BitVec.ofNat 16 s.errinj.toNat = arr ∧ addr ≤ a ∧ a < addr + len then
    { s with errinj := s.errinj &&& 0x7FFFFFFF
             planted := ⟨arr, BitVec.ofNat 48 a, BitVec.ofNat 2 (fld s.errinj 29 2)⟩ :: s.planted }
  else s

/-- Records waiting in the die fault queues and the event queue together (R313). -/
def State.ioeq (s : State) : Nat := s.eventq.length + (s.dies.map fun d => d.faultq.length).sum

/-- A vector that the host masks in the port's table or function stays pending; with MSI-X off none is raised (R303, R314).
PRESUMED, log entry 88. -/
def Port.masks (p : Port) (v : Nat) : Bool := p.msixMask || (p.msixTable.getD v ⟨0, 0, 0, true⟩).masked

/-- A port raises an MSI-X vector. -/
def State.raiseVec (s : State) (p : BitVec 1) (vec : Word) : State :=
  let v : BitVec 6 := BitVec.ofNat 6 vec.toNat
  if !(s.port p).msixOn then s
  else if (s.port p).masks v.toNat then s.modPort p fun x => { x with msixPending := x.msixPending ||| (1#64 <<< v.toNat) }
  else { s with out := s.out ++ [.msix p v] }

/-- MSI-X vectors that are device-wide are raised on each port whose link is up (R314). -/
def State.raiseBoth (s : State) (vec : Word) : State :=
  ([0, 1].filter fun p => (s.port p).up).foldl (fun s p => s.raiseVec p vec) s

/-- A record enters the device event queue; EQVEC is raised when it was empty (R314). -/
def State.pushEvent (s : State) (e : EventRec) : State :=
  let s' := { s with eventq := s.eventq ++ [e] }
  if s.eventq.isEmpty then s'.raiseBoth s.eqvec else s'

def State.mkEvent (s : State) (kind socket : BitVec 8) (detail : BitVec 16) (i1 i2 : Word) : EventRec :=
  ⟨kind, socket, detail, i1, i2, BitVec.ofNat 32 s.time.toNat⟩

/-- A record that the I/O die at socket 8 makes itself: dropped and counted when there is no room (R314). -/
def State.ioEvent (s : State) (kind socket : BitVec 8) (detail : BitVec 16) : State :=
  if Config.ioeqDepth ≤ s.ioeq then
    { s with eqdrop := if s.eqdrop = 0xFFFFFFFF then s.eqdrop else s.eqdrop + 1 }
  else s.pushEvent (s.mkEvent kind socket detail 0 0)

/-- A record finds the die's latch full (R313). -/
def State.latchLost (s : State) (d : Nat) : State :=
  s.modDie d fun x => { x with latchovf := if x.latchovf = 0xFFFFFFFF then x.latchovf else x.latchovf + 1 }

/-- A die's report: into the event queue, or the die's latch, or lost and counted (R313). -/
def State.dieEvent (s : State) (d : Nat) (kind : BitVec 8) (detail : BitVec 16) (i1 i2 : Word) : State :=
  if s.ioeq < Config.ioeqDepth ∧ (s.die d).latch.isEmpty then
    s.pushEvent (s.mkEvent kind (BitVec.ofNat 8 d) detail i1 i2)
  else if (s.die d).latch.length < 8 then
    s.modDie d fun x => { x with latch := x.latch ++ [.event kind detail i1 i2 (BitVec.ofNat 32 s.time.toNat)] }
  else s.latchLost d

/-- A fault record enters the die's own fault queue; KIND 1 when the queue rises from 0 to 1 (R314). -/
def State.enterFault (s : State) (d : Nat) (f : FaultRec) : State :=
  let s' := s.modDie d fun x => { x with faultq := x.faultq ++ [f] }
  if (s.die d).faultq.isEmpty then s'.dieEvent d 1 1 0 0 else s'

/-- A fault record that no other waits before enters the queue, or else the latch; `none` when both are full. -/
def State.takeFault (s : State) (d : Nat) (f : FaultRec) : Option State :=
  if s.ioeq < Config.ioeqDepth ∧ (s.die d).latch.isEmpty then some (s.enterFault d f)
  else if (s.die d).latch.length < 8 then some (s.modDie d fun y => { y with latch := y.latch ++ [.fault f] })
  else none

/-- A translation fault is reported (R152, R313): the queue, else the latch, else it waits in fault order, counted when
it found the latch full. -/
def State.reportFault (s : State) (d : Nat) (f : FaultRec) : State :=
  let wait := s.modDie d fun y => { y with offers := y.offers ++ [f] }
  if !(s.die d).offers.isEmpty then (if (s.die d).latch.length < 8 then wait else wait.latchLost d)
  else (s.takeFault d f).getD (wait.latchLost d)

/-- The words of an error-log entry (R173). -/
def LogEntry.words (array : BitVec 16) (e : LogEntry) : List Word :=
  [e.addr.extractLsb' 0 32, array ++ e.addr.extractLsb' 32 16, e.ctx, e.syndrome ++ e.kind ++ (0#6) ++ e.count]

/-- An array's log after one more error, and the place of its entry; `none` when the overflow count took it (R173). -/
def ErrLog.add (l : ErrLog) (new : LogEntry) : ErrLog × Option Nat :=
  match l.entries.findIdx? fun e => e.addr = new.addr ∧ e.syndrome = new.syndrome with
  | some i => ({ l with entries := l.entries.modify i fun e =>
      { e with count := if e.count = 0xFFFF then e.count else e.count + 1 } }, some i)
  | none =>
    if l.entries.length < Config.errlogEntries then ({ l with entries := l.entries ++ [new] }, some l.entries.length)
    else match l.entries.findIdx? LogEntry.corrected with
      | some i => ({ l with entries := l.entries.eraseIdx i ++ [new] }, some (l.entries.length - 1))
      | none => ({ l with ovf := if l.ovf = 0xFFFFFFFF then l.ovf else l.ovf + 1 }, none)

/-- Log an injected error in its array's log (R173, R316), and notice what was logged (R314, KIND 2). -/
def State.logError (s : State) (ctx : Word) (d : Nat) (p : Planted) : State :=
  let new : LogEntry := ⟨p.addr, ctx, Config.syndrome s.tick, 2, p.nbits = 1, 1⟩
  let r := ((s.logs.find? fun l => l.array = p.array).getD ⟨p.array, [], 0⟩).add new
  let s := { s with logs := (s.logs.filter fun (x : ErrLog) => x.array ≠ p.array) ++ [r.1] }
  match r.2.bind fun i => r.1.entries[i]? with
  | some e => s.dieEvent d 2 p.array ((e.words p.array).getD 3 0) ((e.words p.array).getD 0 0)
  | none => s

/-- The planted error lies in these bytes of the array. -/
def Planted.hits (arr : BitVec 16) (addr len : Nat) (p : Planted) : Bool :=
  p.array = arr && addr ≤ p.addr.toNat && p.addr.toNat < addr + len

/-- A read meets an array: each planted error is reported once, and whether one is uncorrectable (R316). -/
def State.eccRead (s : State) (arr : BitVec 16) (addr len : Nat) (ctx : Word) (d : Nat) : State × Bool :=
  let hit := s.planted.filter (Planted.hits arr addr len)
  (hit.foldl (fun s p => s.logError ctx d p) { s with planted := s.planted.filter fun p => !p.hits arr addr len },
   hit.any fun p => p.nbits = 2)

/-! ### Near memory and core buffers -/

/-- Bytes of near memory of a physical die. -/
def State.near (s : State) (d pa n : Nat) : List Byte := Memory.read (s.die d).mem pa n

/-- Near memory is written. -/
def State.setNear (s : State) (d pa : Nat) (bs : List Byte) : State :=
  (s.modDie d fun x => { x with mem := Memory.write x.mem pa bs }).eccWrite (arrNear d) pa bs.length

def CoreSt.buf (c : CoreSt) : Space → Memory
  | .a => c.a
  | .c => c.c
  | .w => c.w
  | .n => []

def CoreSt.setBuf (c : CoreSt) (sp : Space) (m : Memory) : CoreSt :=
  match sp with
  | .a => { c with a := m }
  | .c => { c with c := m }
  | .w => { c with w := m }
  | .n => c

/-- Bytes in each buffer (R146). -/
def bufSize : Space → Nat
  | .a => 786432
  | .c => 524288
  | .w => 1572864
  | .n => 0

def State.bufRead (s : State) (c : Nat) (sp : Space) (x n : Nat) : List Byte := Memory.read ((s.co c).buf sp) x n

def State.bufWrite (s : State) (c : Nat) (sp : Space) (x : Nat) (bs : List Byte) : State :=
  (s.modCo c fun k => k.setBuf sp (Memory.write (k.buf sp) x bs)).eccWrite (arrBuf c sp) x bs.length

/-- Granule tag of a buffer offset (R237). -/
def granTag (ts : List (Nat × Tag)) (x : Nat) : Tag := ((ts.find? fun g => g.1 = x / 64).map Prod.snd).getD .raw

def setGran (ts : List (Nat × Tag)) (x : Nat) (t : Tag) : List (Nat × Tag) :=
  let r := ts.filter fun g => g.1 ≠ x / 64
  if t = .raw then r else (x / 64, t) :: r

/-- A buffer write of at most 16 bytes that also sets the tag of the granule, or the two granules, it reaches (R237). -/
def State.bufWriteTag (s : State) (c : Nat) (sp : Space) (x : Nat) (bs : List Byte) (t : Option Tag) : State :=
  let s := s.bufWrite c sp x bs
  let mark (gs : List (Nat × Tag)) (t : Tag) : List (Nat × Tag) := setGran (setGran gs x t) (x + (bs.length - 1)) t
  match t, sp with
  | some t, .a => s.modCo c fun k => { k with atags := mark k.atags t }
  | some t, .w => s.modCo c fun k => { k with wtags := mark k.wtags t }
  | _, _ => s

/-! ### Core copies (R50 to R55) -/

def State.discardCopies (s : State) (c : Nat) : State := s.modCo c fun k => { k with copies := [] }

def State.discardAllCopies (s : State) : State :=
  { s with cores := s.cores.map fun k => { k with copies := [] } }

/-- The core's copy of a line takes near memory's value. -/
def State.fillLine (s : State) (c d line : Nat) : State :=
  let cp : Copy := ⟨d, line, s.near d (64 * line) 64, s.tick, false⟩
  s.modCo c fun k => { k with copies := cp :: k.copies.filter fun x => x.die ≠ d ∨ x.line ≠ line }

def CoreSt.copyOf (k : CoreSt) (d line : Nat) : Option Copy := k.copies.find? fun x => x.die = d ∧ x.line = line

/-- A core's own drain updates its copy of each line written, if it has one (R51): the whole line takes near memory's value, not
the written bytes alone. DESIGN CHOICE, log entry 20. -/
def State.refreshCopy (s : State) (c d pa len : Nat) : State :=
  s.modCo c fun k => { k with copies := k.copies.map fun x =>
    if x.die = d ∧ x.line * 64 < pa + len ∧ pa < x.line * 64 + 64
    then { x with bytes := s.near d (64 * x.line) 64, tick := s.tick, passed := false } else x }

/-- A store of the scheduled class has been delivered at these bytes: the copies that cores hold of them are older than it, and
serve no acquire load (R52, R286). DEDUCED, log entry 90. -/
def State.passCopies (s : State) (d pa len : Nat) : State :=
  { s with cores := s.cores.map fun k => { k with copies := k.copies.map fun x =>
    if x.die = d ∧ x.line * 64 < pa + len ∧ pa < x.line * 64 + 64 then { x with passed := true } else x } }

/-! ### Translation (R149 to R153) -/

/-- What an access needs. -/
inductive Access where
  | load | store | atomic | fetch
deriving DecidableEq, Repr

def Access.code : Access → BitVec 2
  | .load => 0
  | .store => 1
  | .atomic => 2
  | .fetch => 3

/-- The fields of a 16-byte page-table entry, or `none` when V = 0; a nonzero reserved field is malformed. -/
def readPte (bs : List Byte) : Option (Pte × Bool) :=
  let lo := leNat (bs.take 8)
  let hi := leNat (bs.drop 8)
  let f (x l n : Nat) := x / 2 ^ l % 2 ^ n
  if f lo 0 1 = 0 then none
  else
    let p : Pte := { scaleva := f hi 0 48, cbidx := BitVec.ofNat 6 (f lo 58 6), fmt := BitVec.ofNat 4 (f lo 54 4),
                     size := BitVec.ofNat 2 (f lo 52 2), pa := f lo 16 36 * 2 ^ 16, t := f lo 4 1 = 1,
                     ex := f lo 3 1 = 1, wr := f lo 2 1 = 1, rd := f lo 1 1 = 1 }
    some (p, f hi 48 16 = 0 && f lo 5 11 = 0)

/-- Address bits of a leaf's page. -/
def pageBits : BitVec 2 → Nat
  | 0 => 16
  | 1 => 21
  | _ => 30

/-- A leaf that meets the table of R149 and the size its level takes. -/
def leafOk (p : Pte) (size : BitVec 2) (memBytes : Nat) : Bool :=
  p.size = size && p.fmt.toNat ≤ 6 && (p.fmt != 0 || p.scaleva = 0) && (p.fmt = 6 || p.cbidx = 0) &&
    p.pa % 2 ^ pageBits size = 0 && p.pa < memBytes

def tableOk (p : Pte) (memBytes : Nat) : Bool :=
  p.scaleva = 0 && p.cbidx = 0 && p.fmt = 0 && p.size = 0 && p.pa < memBytes

/-- One walk from a table at level `lv` (1 to 4) (R150): the leaf, or the KIND of R153. `n` levels are left. -/
def walk (s : State) (d va : Nat) : Nat → Nat → Except (BitVec 4) Pte
  | 0, _ => .error 5
  | n + 1, tbl =>
    let lv := 4 - n
    let idx := if lv = 4 then va / 2 ^ 16 % 32 else va / 2 ^ (39 - 9 * (lv - 1)) % 512
    match readPte (s.near d (tbl + 16 * idx) 16) with
    | none => .error 1
    | some (p, ok) =>
      let mb := (s.die d).memBytes
      if !ok then .error 5
      else if p.t then (if lv = 4 || !tableOk p mb then .error 5 else walk s d va n p.pa)
      else if lv = 1 then .error 5
      else if leafOk p (BitVec.ofNat 2 (4 - lv)) mb then .ok p
      else .error 5

/-- The root table's physical address, from the context record (R260). -/
def Ctx.root (c : Ctx) : Nat := (c.words.getD 12 0).toNat / 2 ^ 16 * 2 ^ 16 + fld (c.words.getD 13 0) 0 20 * 2 ^ 32

def tlbFind (ts : List TlbEntry) (ctx : Word) (d va : Nat) : Option Pte :=
  (ts.find? fun e => e.ctx = ctx ∧ e.die = d ∧ e.va = va / 2 ^ e.bits).map TlbEntry.pte

/-- The translation that the core's TLB or the die's holds. -/
def State.inTlbs (s : State) (core : Option Nat) (ctx : Word) (ldie va : Nat) : Option Pte :=
  ((core.map fun c => tlbFind (s.co c).tlb ctx ldie va).join).or (tlbFind (s.die (s.pdie ldie)).tlb ctx ldie va)

/-- The physical addresses of the entries that a walk reads. -/
def walkSites (s : State) (d va : Nat) : Nat → Nat → List Nat
  | 0, _ => []
  | n + 1, tbl =>
    let lv := 4 - n
    let idx := if lv = 4 then va / 2 ^ 16 % 32 else va / 2 ^ (39 - 9 * (lv - 1)) % 512
    (tbl + 16 * idx) :: match readPte (s.near d (tbl + 16 * idx) 16) with
      | some (p, true) => if p.t && lv != 4 && tableOk p (s.die d).memBytes then walkSites s d va n p.pa else []
      | _ => []

/-- The leaf for an access: a TLB's entry or a fresh walk (R151, DESIGN CHOICE, log entry 3), by context and logical die. Where no
context is live under the CTXID there is no table, and nothing is present (R304, R308). -/
def State.leaf (s : State) (core : Option Nat) (ctx : Word) (ldie va : Nat) : Except (BitVec 4) Pte :=
  let d := s.pdie ldie
  let inTlb := s.inTlbs core ctx ldie va
  let fresh := if 2 ^ 48 ≤ va then .error 1 else walk s d va 4 (s.ctx ctx).root
  if !(s.ctx ctx).live then .error 1
  else match inTlb, fresh with
    | some p, .ok q => if p = q || !Config.tlbUsed s.tick then .ok q else .ok p
    | some p, .error k => if Config.tlbUsed s.tick then .ok p else .error k
    | none, r => r

def permOk (p : Pte) : Access → Bool
  | .load => p.rd
  | .store | .atomic => p.wr
  | .fetch => p.ex

def permKind : Access → BitVec 4
  | .load => 2
  | .store | .atomic => 3
  | .fetch => 4

/-- Translate: the leaf and the physical address, or the KIND of the fault. -/
def State.translate (s : State) (core : Option Nat) (ctx : Word) (ldie va : Nat) (acc : Access) :
    Except (BitVec 4) (Pte × Nat) :=
  match s.leaf core ctx ldie va with
  | .error k => .error k
  | .ok p => if permOk p acc then .ok (p, p.pa + va % 2 ^ pageBits p.size) else .error (permKind acc)

/-- The translation used enters the core's TLB and the die's. -/
def State.tlbFill (s : State) (core : Option Nat) (ctx : Word) (ldie va : Nat) (p : Pte) : State :=
  let e : TlbEntry := ⟨ctx, ldie, va / 2 ^ pageBits p.size, pageBits p.size, p⟩
  let ins (n : Nat) (ts : List TlbEntry) := (e :: ts.filter fun x => x ≠ e).take n
  let s := s.modDie (s.pdie ldie) fun x => { x with tlb := ins Config.dieTlbEntries x.tlb }
  match core with
  | some c => s.modCo c fun k => { k with tlb := ins Config.coreTlbEntries k.tlb }
  | none => s

/-- The fault record of a thread's access (R153). -/
def State.faultRec (s : State) (t va : Nat) (kind : BitVec 4) (acc : Access) : FaultRec :=
  let k := s.co (s.coreOf t)
  { va := va % 2 ^ 48, ctx := k.ctx, kind := kind, access := acc.code, core := BitVec.ofNat 7 k.core,
    slot := BitVec.ofNat 12 (if (s.th t).collie then 2048 else (s.th t).slot), idie := BitVec.ofNat 3 k.ldie,
    tid := some t, op := none, ended := false }

/-- A state change of a thread: an exited thread stays exited (R89). -/
def Status.to (old new : Status) : Status := if old = .exited then .exited else new

/-! ### Registers -/

def State.setStatus (s : State) (t : Nat) (st : Status) : State := s.modTh t fun x => { x with status := x.status.to st }

/-- A value reaches a register: it becomes full, with its tag (R43, R70). -/
def State.fillReg (s : State) (t : Nat) (r : RegRef) (w : Word) (tag : Tag) : State :=
  match r with
  | .v n => s.modTh t fun x => { x with v := x.v.set n ⟨w, tag, true⟩ }
  | .s n => s.modWp (s.th t).warp fun x => { x with s := x.s.set n ⟨w, true⟩ }

def State.fillRegs (s : State) (t : Nat) : List RegRef → List Word → Tag → State
  | r :: rs, w :: ws, tag => (s.fillReg t r w tag).fillRegs t rs ws tag
  | _, _, _ => s

/-- A producer marks a register empty at issue (R43). -/
def State.markEmpty (s : State) (t : Nat) (r : RegRef) : State :=
  match r with
  | .v n => s.modTh t fun x => { x with v := x.v.modify n fun y => { y with full := false } }
  | .s n => s.modWp (s.th t).warp fun x => { x with s := x.s.modify n fun y => { y with full := false } }

def State.markAll (s : State) (t : Nat) (rs : List RegRef) : State := rs.foldl (fun s r => s.markEmpty t r) s

def State.regFull (s : State) (t : Nat) : RegRef → Bool
  | .v n => ((s.th t).v[n]?.map VReg.full).getD true
  | .s n => ((s.wpOf t).s[n]?.map SReg.full).getD true

def State.addFlags (s : State) (t : Nat) (f : Flags) : State :=
  s.modWp (s.th t).warp fun x => { x with fp := x.fp ||| f }

/-- The register that a v or s operand names, through the window (R88). -/
def regOf (th : Thread) : Operand → Option RegRef
  | .v n => some (.v (th.wbase + n.toNat))
  | .s n => some (.s n.toNat)
  | _ => none

/-- The n registers from an operand on. -/
def regsOf (th : Thread) (o : Operand) (n : Nat) : List RegRef :=
  match o with
  | .v k => (List.range n).map fun i => .v (th.wbase + k.toNat + i)
  | .s k => (List.range n).map fun i => .s (k.toNat + i)
  | _ => []

def State.regVal (s : State) (t : Nat) : RegRef → Word
  | .v n => ((s.th t).v[n]?.map VReg.val).getD 0
  | .s n => ((s.wpOf t).s[n]?.map SReg.val).getD 0

def State.regTag (s : State) (t : Nat) : RegRef → Tag
  | .v n => ((s.th t).v[n]?.map VReg.tag).getD .raw
  | .s _ => .raw

/-! ### Advancing (R93, R103) -/

def extLen (x : Option Ext) : Nat := if x.isSome then 8 else 4

/-- The end check of R103 at the word `lw`: active loops that end there, innermost first. -/
def loopEnd (lw : Word) : List (Nat × LoopReg) → List LoopReg → Word × List LoopReg
  | [], lc => (lw + 4, lc)
  | (i, r) :: rest, lc =>
    match r.desc with
    | none => loopEnd lw rest lc
    | some d =>
      if 1 < r.n.toNat then (d.first, lc.set i { r with n := r.n - 1, desc := some { d with i := d.i + 1 } })
      else loopEnd lw rest (lc.set i { r with n := 0, desc := none })

/-- Insert by descending opening order. -/
def insLoop (x : Nat × LoopReg) : List (Nat × LoopReg) → List (Nat × LoopReg)
  | [] => [x]
  | y :: ys => if y.2.seq < x.2.seq then x :: y :: ys else y :: insLoop x ys

/-- Loops whose body ends at `lw`, innermost first. -/
def loopsAt (lw : Word) (lc : List LoopReg) : List (Nat × LoopReg) :=
  ((List.range lc.length).zip lc).foldr (fun x acc =>
    if (x.2.desc.map LoopDesc.last) = some lw then insLoop x acc else acc) []

/-- The thread completes its instruction of `len` bytes without transferring control. -/
def Thread.advance (len : Nat) (x : Thread) : Thread :=
  let lw := x.pc + BitVec.ofNat 32 (len - 4)
  let (pc, lc) := loopEnd lw (loopsAt lw x.lc) x.lc
  { x with pc := pc, lc := lc, status := x.status.to .ready }

def State.retire (s : State) (t len : Nat) : State := s.modTh t (Thread.advance len)

/-- The thread's next PC is `target`: a transfer, unless it is the word that follows (R103). -/
def State.jump (s : State) (t : Nat) (target : Word) (len : Nat) : State :=
  if target = (s.th t).pc + BitVec.ofNat 32 len then s.retire t len
  else s.modTh t fun x => { x with pc := target, status := x.status.to .ready }

/-! ### Store FIFOs -/

/-- The next sequence number. -/
def State.bump (s : State) : State := { s with seq := s.seq + 1 }

/-- An entry with the fields that most entries leave at rest. -/
def State.entry (s : State) (t : Nat) (sp : Space) (addr : Nat) (body : Body) : Entry :=
  { seq := s.seq, tid := t, sp := sp, die := s.pdie (s.ldieOf t), addr := addr, body := body, rel := false,
    acq := false, scope := 0, o := false, nt := false, bars := false, bundle := 0,
    home := (if sp = .a then s.homeOf t else s.coreOf t), dieRel := false, loads := (s.th t).loadCount,
    peers := (s.th t).peerCount }

/-- The entry joins the warp's store FIFO (R51). DESIGN CHOICE, log entry 35. -/
def State.toFifo (s : State) (t : Nat) (e : Entry) : State :=
  (s.modWp (s.th t).warp fun x => { x with fifo := x.fifo ++ [e] }).bump

/-- How many entries each warp's FIFO holds. -/
def State.fifoLens (s : State) (w : Nat) : Nat := (s.wp w).fifo.length

/-- The entries that a bundle has put into a thread's FIFO, behind the n that stood there. -/
def State.newEntries (s : State) (t n : Nat) : List Entry := (s.wpOf t).fifo.drop n

/-- A change of those entries. -/
def State.growNew (s : State) (t n : Nat) (f : Entry → Entry) : State :=
  s.modWp (s.th t).warp fun x => { x with fifo := x.fifo.take n ++ (x.fifo.drop n).map f }

/-- Every entry of a thread's that has not yet left the FIFO. -/
def State.fifoEmpty (s : State) (t : Nat) : Bool := (s.wpOf t).fifo.isEmpty

/-! ### What the newest entry for a byte says (R52) -/

/-- Bytes an access of a kind touches. -/
def kindBytes (k : AtomKind) : Nat := if k = .mt then 16 else 4

/-- What the newest entry for a byte says: nothing, a byte, or that an operation has not yet executed. -/
inductive Seen where
  | none
  | byte (b : Byte)
  | wait
deriving DecidableEq, Repr

/-- The byte ranges an entry's operation touches, as (address, length). -/
def Entry.ranges (e : Entry) : List (Nat × Nat) :=
  match e.body with
  | .store bs => [(e.addr, bs.length)]
  | .atom k _ => [(e.addr, kindBytes k)]
  | .red k ops => ops.map fun o => (o.addr, kindBytes k)
  | .bar _ ops => ops.map fun o => (o.2.1, 16)
  | .push _ | .pop _ _ => [(e.addr + 8, 8)]
  | _ => []

def inRange (a : Nat) (r : Nat × Nat) : Bool := r.1 ≤ a && a < r.1 + r.2

/-- The entry is for this place: its space, and in N its die. -/
def Entry.at_ (e : Entry) (sp : Space) (die : Nat) : Bool := e.sp = sp && (sp != .n || e.die = die)

def Entry.seen (e : Entry) (sp : Space) (die a : Nat) : Seen :=
  if e.at_ sp die && e.ranges.any (inRange a) then
    match e.body with
    | .store bs => .byte (bs.getD (a - e.addr) 0)
    | _ => .wait
  else .none

/-- The newest entry of a queue that touches the byte. -/
def newest (es : List Entry) (sp : Space) (die a : Nat) : Seen :=
  es.foldl (fun acc e => match e.seen sp die a with | .none => acc | x => x) .none

/-- Steps 1 and 2 of R52 for one byte: the thread's own FIFO, then the write queue. -/
def viewByte (own wq : List Entry) (sp : Space) (die a : Nat) : Seen :=
  match newest own sp die a with
  | .none => newest wq sp die a
  | x => x

/-- The n bytes from `a` on, over what the location holds; `none` while an entry there has yet to execute. -/
def viewBytes (own wq : List Entry) (sp : Space) (die a : Nat) (base : List Byte) : Option (List Byte) :=
  let seen := (List.range base.length).map fun i => viewByte own wq sp die (a + i)
  if seen.contains .wait then none
  else some ((seen.zip base).map fun x => match x.1 with | .byte b => b | _ => x.2)

/-- Entries for a buffer of core `c` that have left their FIFOs, as core `own` sees them: those in the write queue of `c`, and those
that a pair's own core has yet to send there (R52, R111, R147). -/
def State.queuedFor (s : State) (own c : Nat) : List Entry :=
  (s.co c).wq ++ if own = c then [] else (s.co own).wq.filter fun e => e.home = c

/-- The core view of an A, C or W range of core `c` from core `own` (R52, R58): what engines and record reads see. -/
def State.coreView (s : State) (own c : Nat) (sp : Space) (off n : Nat) : Option (List Byte) :=
  viewBytes [] (s.queuedFor own c) sp 0 off (s.bufRead c sp off n)

/-- A FIFO entry that the thread issued, alone or with other lanes of its bundle (R110, R158). -/
def Entry.issuedBy (t : Nat) (e : Entry) : Bool :=
  match e.body with
  | .atom _ ops => ops.any fun o => o.tid = t
  | .bar _ ops => ops.any fun o => o.1 = t
  | _ => e.tid = t

/-- The same with the issuing thread's own FIFO first, for a read made at issue (R214). -/
def State.issueView (s : State) (t c : Nat) (sp : Space) (off n : Nat) : Option (List Byte) :=
  viewBytes ((s.wpOf t).fifo.filter (Entry.issuedBy t)) (s.queuedFor (s.coreOf t) c) sp 0 off (s.bufRead c sp off n)

/-! ### Completion of engine operations (R18 to R20) -/

/-- The DETAIL of a completion for which no rule gives one. DESIGN CHOICE, log entry 6. -/
def State.openDetail (s : State) : Word := Config.freeWord s.tick 0

def Op.handle (o : Op) : Word := o.engine ++ o.slot ++ o.gen

/-- The lowest free slot of an engine for an issuing core or a host port (R18). -/
def freeSlot (used : List (BitVec 8)) : Option (BitVec 8) :=
  ((List.range 256).map (BitVec.ofNat 8)).find? fun k => !used.contains k

def State.usedSlots (s : State) (core : Option Nat) (port : BitVec 1) (e : BitVec 4) : List (BitVec 8) :=
  (s.ops.filter fun o => o.core = core ∧ (core.isSome ∨ o.port = port) ∧ o.engine = e ∧ o.stage ≠ .done).map Op.slot

def genOf (gs : List SlotGen) (e : BitVec 4) (k : BitVec 8) : BitVec 20 :=
  ((gs.find? fun g => g.engine = e ∧ g.slot = k.toNat).map SlotGen.gen).getD 0

def bumpGen (gs : List SlotGen) (e : BitVec 4) (k : BitVec 8) : List SlotGen :=
  ⟨e, k.toNat, genOf gs e k + 1⟩ :: gs.filter fun g => ¬(g.engine = e ∧ g.slot = k.toNat)

/-- Records of an engine held because q0 was full (R20). -/
def CoreSt.heldBy (k : CoreSt) (e : BitVec 4) : Nat := (k.heldq.filter fun h => h.1 = e).length

/-- A completion record goes to the core's q0, or is held, or is discarded when the core has no Collie (R19, R20). -/
def CoreSt.addRecord (k : CoreSt) (e : BitVec 4) (r : Record) : CoreSt :=
  if k.collie.isNone then k
  else if k.heldBy e = 0 ∧ k.q0.length < Config.eventqDepth then { k with q0 := k.q0 ++ [r] }
  else { k with heldq := k.heldq ++ [(e, r)] }

/-- Held records enter q0 in order while there is room (R20). -/
def admitHeld : Nat → CoreSt → CoreSt
  | 0, k => k
  | n + 1, k =>
    match k.heldq with
    | [] => k
    | h :: hs => if k.q0.length < Config.eventqDepth then admitHeld n { k with q0 := k.q0 ++ [h.2], heldq := hs } else k

def Record.words (r : Record) : List Word := [r.handle, r.status ++ r.warp, r.detail, r.time]

def Record.bytes (r : Record) : List Byte := r.words.flatMap wBytes

/-- A record goes to the port's ring, an HCQTAIL update and the MSI-X vector follow; held when full (R306, R308). -/
def State.ringRecord (s : State) (p : BitVec 1) (r : Record) : State :=
  let x := s.port p
  if x.held.isEmpty ∧ x.hcqtail - x.hcqhead ≠ x.hcqsize then
    let addr := BitVec.ofNat 64 ((x.hcqhi ++ x.hcqlo : BitVec 64).toNat + 16 * (x.hcqtail.toNat % x.hcqsize.toNat))
    let s := s.modPort p fun y => { y with hcqtail := y.hcqtail + 1 }
    { s with out := s.out ++ [Outbound.write p addr r.bytes] }.raiseVec p x.hcqvec
  else s.modPort p fun y => { y with held := y.held ++ [r] }

def State.admitRing : Nat → State → BitVec 1 → State
  | 0, s, _ => s
  | n + 1, s, p =>
    match (s.port p).held with
    | [] => s
    | r :: rs =>
      if (s.port p).hcqtail - (s.port p).hcqhead ≠ (s.port p).hcqsize then
        let s1 := (s.modPort p fun y => { y with held := [] }).ringRecord p r
        admitRing n (s1.modPort p fun y => { y with held := rs }) p
      else s

/-- The completion step (R19): the handle becomes full, and the record is made. `vals` are the words that other
destination registers receive (R168), with tag raw whatever the peer's page (DEDUCED, log entry 105). -/
def State.completeOp (s : State) (i : Nat) (status : BitVec 16) (detail : Word) (vals : List Word := []) : State :=
  let o := s.op i
  if o.stage = .done then s
  else
    let r : Record := ⟨o.handle, status, o.warp, detail, BitVec.ofNat 32 s.time.toNat⟩
    let s := s.modOp i fun o => { o with stage := .done, status := status, detail := detail }
    match o.core with
    | none => s.ringRecord o.port r
    | some c => (s.fillRegs o.tid o.dst (o.handle :: vals) .raw).modCo c fun k => k.addRecord o.engine r

/-! ### Records of copies and collectives, and operations that stop -/

def lw (w : List Word) (i : Nat) : Word := w.getD i 0

def rDims (r : List Word) : Nat := fld (lw r 0) 28 4
def rEsz (r : List Word) : Nat := fld (lw r 0) 25 3
def rSsp (r : List Word) : Nat := fld (lw r 0) 22 3
def rDsp (r : List Word) : Nat := fld (lw r 0) 19 3
def rKind (r : List Word) : Bool := bit (lw r 0) 18
def rBkind (r : List Word) : Nat := fld (lw r 0) 16 2
def rAcq (r : List Word) : Bool := bit (lw r 0) 15
def rRel (r : List Word) : Bool := bit (lw r 0) 14
def rScope (r : List Word) : BitVec 3 := (lw r 0).extractLsb' 11 3
def rHport (r : List Word) : BitVec 1 := (lw r 0).extractLsb' 10 1
def rTag (r : List Word) : Nat := fld (lw r 0) 7 3
/-- Address pairs: low and high word. -/
def rSaddr (r : List Word) : Word × Word := (lw r 1, lw r 2)
def rDaddr (r : List Word) : Word × Word := (lw r 3, lw r 4)
def rBoff (r : List Word) : Nat := (lw r 8).toNat
/-- Receiver cores, ascending. -/
def rMask (r : List Word) : List Nat :=
  (List.range 72).filter fun c => bit (lw r (5 + c / 32)) (c % 32)

/-- Bytes of an element. -/
def rB (r : List Word) : Nat := 2 ^ rEsz r

def dimExt (r : List Word) (d : Nat) : Nat := (lw r (16 + 4 * d)).toNat
def dimSs (r : List Word) (d : Nat) : Int := (lw r (17 + 4 * d)).toInt
def dimDs (r : List Word) (d : Nat) : Int := (lw r (18 + 4 * d)).toInt

/-- Elements of the record's tile. -/
def rCount (r : List Word) : Nat := ((List.range (rDims r)).map (dimExt r)).foldl (· * ·) 1

/-- The spaces of R233. -/
def spaceBuf (sp : Nat) : Option Space := match sp with | 0 => some .a | 1 => some .c | 2 => some .w | _ => none

/-- The core of an operation. -/
def Op.coreId (o : Op) : Nat := o.core.getD 0

/-- The core record of a logical core of the issuing die, in the operation's context. -/
def coreOn (s : State) (ctx : Word) (ldie core : Nat) : Option Nat :=
  s.cores.findIdx? fun k => k.ctx = ctx && k.ldie = ldie && k.core = core

/-- Receivers of a buffer destination (R235): the named cores, or the buffer that a lane of the thread reaches. -/
def receivers (s : State) (o : Op) (sp : Space) (r : List Word) : List Nat :=
  let k := s.co o.coreId
  if (rMask r).isEmpty then [if sp = .a then s.homeOf o.tid else o.coreId]
  else (rMask r).filterMap fun c => coreOn s o.ctx k.ldie c

/-! COLX (R249, R250). -/

def cRbase (r : List Word) : Nat := fld (lw r 12) 24 8
def cRoot (r : List Word) : Nat := fld (lw r 12) 16 8
def cGmask (r : List Word) : Nat := fld (lw r 12) 12 4
def cMode (r : List Word) : Nat := fld (lw r 12) 9 3
def cOp (r : List Word) : Nat := fld (lw r 12) 5 4
def cEtype (r : List Word) : Nat := fld (lw r 12) 3 2
def cExt (r : List Word) (g : Nat) : Nat := fld (lw r 13) (8 * g) 8 + 1
def cChunk (r : List Word) : Nat := 2 ^ fld (lw r 14) 0 5
def cBmap (r : List Word) : Word := lw r 15

def gridSize (r : List Word) : Nat := cExt r 0 * cExt r 1 * cExt r 2 * cExt r 3
def inGroup (r : List Word) (g : Nat) : Bool := (cGmask r).testBit g
/-- Members of a group. -/
def groupSize (r : List Word) : Nat := ((List.range 4).map fun g => if inGroup r g then cExt r g else 1).foldl (· * ·) 1

/-- Elements and bytes of the destination tile at this member. -/
def destCount (r : List Word) : Nat := if cMode r = 1 then rCount r / groupSize r else rCount r
def chunkCount (r : List Word) : Nat := (destCount r * rB r + cChunk r - 1) / cChunk r

/-- The elements of the destination tile that chunk c holds. -/
def chunkElems (r : List Word) (c : Nat) : List Nat :=
  let per := cChunk r / rB r
  (List.range (min per (destCount r - c * per))).map fun k => c * per + k

/-- Bytes that a receiver of a buffer copy has taken. -/
def tookBytes (o : Op) (c : Nat) : Nat :=
  let pending := o.outs.filter fun w => match w with | .buf _ d _ _ _ _ => d = c | _ => false
  rB o.record * (o.cursor - pending.length)

/-- Bytes of the chunks that a collective has written. -/
def sentBytes (o : Op) : Nat := (o.sent.map fun c => (chunkElems o.record c).length * rB o.record).sum

/-- The barrier objects of an operation that stops, each with the bytes that its receiver has not received, nor will: place,
address and bytes (R236). -/
def State.restCounts (s : State) (i : Nat) : List (Place × Nat × Nat) :=
  let o := s.op i
  let r := o.record
  let total := rB r * (if o.engine = 4 then destCount r else rCount r)
  match rBkind r with
  | 1 => (receivers s o ((spaceBuf (rDsp r)).getD .a) r).map fun c =>
      (.buf c .a, rBoff r, total - (if o.engine = 4 then sentBytes o else tookBytes o c))
  | 2 =>
    let l := if rDsp r = 4 then fld (rDaddr r).2 21 3 else (s.co o.coreId).ldie
    let made := if o.engine = 4 then sentBytes o else rB r * (o.cursor - o.outs.length)
    match s.translate none o.ctx l (s.nwin o.tid + rBoff r) .store with
    | .ok (_, pa) => [(.near (s.pdie l), pa, total - made)]
    | .error _ => []
  | _ => []

/-- A started operation stops: it reads and makes nothing more, and completes with this status when what it has on its way allows
(R19, R59). A copy's and a collective's objects then take the bytes not received. -/
def State.stopOp (s : State) (i : Nat) (status : BitVec 16) (detail : Word) : State :=
  let rest := if (s.op i).engine = 2 ∨ (s.op i).engine = 4 then s.restCounts i else []
  s.modOp i fun o => { o with
    stage := .ending, rest := rest, status := if o.status = 0 then status else o.status
    detail := if o.status = 0 then detail else o.detail }

/-- The engine work of a context that ends: what waits is removed, a peer load is given up, and what has started stops; a collective
is aborted, its DETAIL naming its bitmap (R256). DEDUCED, log entry 86. -/
def State.endOps (s : State) (ctx : Word) : State :=
  (List.range s.ops.length).foldl (fun (s : State) i =>
    let o := s.op i
    if o.core.isNone ∨ (s.co o.coreId).ctx ≠ ctx ∨ o.stage = .done ∨ o.stage = .ending then s
    else if (o.stage = .started ∨ o.stage = .faulted) ∧ o.engine ≠ 5 ∧ o.engine ≠ 6 then
      s.stopOp i 3 (if o.engine = 4 then cBmap o.record else s.openDetail)
    else s.modOp i fun o => { o with stage := .done, status := 3 }) s

/-! ### Barrier objects (R109, R110) -/

/-- A barrier object's fields. -/
structure BarObj where
  phase : Bool
  arrive : Nat
  bytes : Nat
  init : Nat
deriving DecidableEq, Repr

def BarObj.of (bs : List Byte) : BarObj :=
  let w := wordsOf 4 bs
  ⟨bit (w.getD 0 0) 31, fld (w.getD 0 0) 0 31, (w.getD 1 0).toNat, fld (w.getD 2 0) 0 31⟩

/-- The object's 16 bytes; words 2 and 3 keep what the object held. -/
def BarObj.toBytes (o : BarObj) (old : List Byte) : List Byte :=
  wBytes (BitVec.ofNat 32 ((if o.phase then 2 ^ 31 else 0) + o.arrive)) ++ wBytes (BitVec.ofNat 32 o.bytes) ++
    (old.drop 8).take 8

/-- A phase completes when ARRIVE and BYTES are both 0 (R109). -/
def BarObj.settle (o : BarObj) : BarObj :=
  if o.arrive = 0 ∧ o.bytes = 0 then { o with phase := !o.phase, arrive := o.init } else o

/-- One operation; `none` is the barrier fault (R110). -/
def BarObj.apply (o : BarObj) : BarKind → Option BarObj
  | .init n => some ⟨false, n.toNat, 0, n.toNat⟩
  | .arrive => if o.arrive = 0 then none else some { o with arrive := o.arrive - 1 }.settle
  | .expect n => if 2 ^ 32 ≤ o.bytes + n.toNat then none else some { o with bytes := o.bytes + n.toNat }

/-- The bytes after an operation: `init` writes all four words. -/
def barBytes (old : List Byte) (k : BarKind) (o : BarObj) : List Byte :=
  match k with
  | .init n => wBytes n ++ wBytes 0 ++ wBytes n ++ wBytes 0
  | _ => o.toBytes old

/-- A copy counts bytes down; a count-down beyond BYTES sets it to 0 and is an overrun (R110). -/
def BarObj.count (o : BarObj) (n : Nat) : BarObj × Bool :=
  if o.bytes < n then ({ o with bytes := 0 }.settle, true) else ({ o with bytes := o.bytes - n }.settle, false)

/-! ### What a launch record names (R261) -/

def lNwin (w : List Word) : Nat := fld (lw w 3) 0 16 * 2 ^ 32

/-- A named object: enable, logical die, parity, N window offset. -/
structure LObj where
  en : Bool
  die : Nat
  par : Bool
  off : Nat
deriving DecidableEq, Repr

def lDone (w : List Word) : LObj := ⟨bit (lw w 10) 14, fld (lw w 10) 11 3, false, (lw w 11).toNat⟩

/-- One arrival on the barrier object at an address of near memory; an object whose ARRIVE is 0 stays as it is (DEDUCED, log entry 49). -/
def State.putArrive (s : State) (d pa : Nat) : State :=
  let old := s.near d pa 16
  match (BarObj.of old).apply .arrive with
  | some b => s.setNear d pa (barBytes old .arrive b)
  | none => s

/-- A translation walks the tables: no TLB holds it, or the entry that one holds differs from the tables' and is not used (R151). -/
def State.walks (s : State) (core : Option Nat) (ctx : Word) (ldie va : Nat) : Bool :=
  (s.ctx ctx).live && decide (va < 2 ^ 48) && match s.inTlbs core ctx ldie va with
    | none => true
    | some p => match walk s (s.pdie ldie) va 4 (s.ctx ctx).root with
      | .ok q => decide (p ≠ q) && !Config.tlbUsed s.tick
      | .error _ => !Config.tlbUsed s.tick

/-- The table entries that a translation reads, by place, address and length. -/
def State.walkReads (s : State) (core : Option Nat) (ctx : Word) (ldie va : Nat) : List (Place × Nat × Nat) :=
  if s.walks core ctx ldie va then (walkSites s (s.pdie ldie) va 4 (s.ctx ctx).root).map fun a => (.near (s.pdie ldie), a, 16) else []

/-! ### Contexts end (R272) -/

/-- The arrival on DONE of a grid whose context ends (R265): what it reads meets the error protection, and an uncorrectable error there
leaves it out. The flag says that it fails translation. DEDUCED, log entry 49. -/
def State.lastArrival (s : State) (l : Nat) : State × Bool :=
  let x := s.la l
  let o := lDone x.words
  let va := lNwin x.words + o.off
  let d := s.pdie o.die
  if !o.en then (s, false)
  else match s.translate none x.ctx o.die va .load, s.translate none x.ctx o.die va .store with
    | .ok _, .ok (_, pa) =>
      let reads := (s.walkReads none x.ctx o.die va).map Prod.snd ++ [(pa, 16)]
      let r := reads.foldl (fun (r : State × Bool) (a : Nat × Nat) =>
        let e := r.1.eccRead (arrNear d) a.1 a.2 x.ctx d
        (e.1, r.2 || e.2)) (s, false)
      (if r.2 then r.1 else r.1.putArrive d pa, false)
    | _, _ => (s, true)

/-- Every grid of a context completes with this status, a grid that has started after its arrival on DONE (R265). -/
def State.endLaunches (s : State) (ctx : Word) (status : BitVec 16) (detail : Word) : State :=
  (List.range s.launches.length).foldl (fun (s : State) l =>
    let x := s.la l
    let done (s : State) (status : BitVec 16) (detail : Word) : State :=
      (s.modLa l fun y => { y with stage := .complete }).completeOp x.op status detail
    match decide (x.ctx = ctx), x.stage with
    | true, .queued => done s status detail
    | true, .started =>
      let r := s.lastArrival l
      if r.2 then done r.1 4 0x4C520006 else done r.1 status detail
    | _, _ => s) s

/-- The context ends: its grids complete, its threads halt, its cores are freed (R152, R272, R283). -/
def State.endCtx (s : State) (ctx : Word) (status : BitVec 16) (detail : Word) : State :=
  let s := (s.endLaunches ctx status detail).endOps ctx
  let mine (c : Nat) : Bool := (s.co c).ctx = ctx
  let endTh (x : Thread) : Thread :=
    if mine (s.wp x.warp).core then { x with status := .exited, depth := 0, loads := [], deferred := [], popJob := false, popCb := none } else x
  let endWp (w : Warp) : Warp := if mine w.core then { w with fifo := [], m := List.replicate 12 0 } else w
  let endCl (x : Cell) : Cell := if mine x.core then { x with retired := true, resident := false } else x
  let endCo (k : CoreSt) : CoreSt := if k.ctx = ctx then
    { k with ctx := 0, resident := false, collie := none, holder := none, waiters := [], popWait := [], bundles := [] }
    else k
  let endRec (f : FaultRec) : FaultRec := if f.ctx = ctx then { f with ended := true } else f
  let endItem (i : LatchItem) : LatchItem := match i with | .fault f => .fault (endRec f) | e => e
  let endDie (d : Die) : Die := { d with
    faultq := d.faultq.map endRec, offers := d.offers.map endRec, latch := d.latch.map endItem
    lees := d.lees.map fun (e : LeesEntry) => if e.ctx = ctx then { e with ctx := 0 } else e }
  let s := { s with threads := s.threads.map endTh, warps := s.warps.map endWp, cells := s.cells.map endCl,
                    cores := s.cores.map endCo, dies := s.dies.map endDie }
  s.modCtx ctx fun c => { c with live := false, saved := false }

/-- An uncorrectable error terminates the context that owns the data (R174). -/
def State.endEcc (s : State) (ctx : Word) : State := s.endCtx ctx 4 0x55450000

/-- A read meets the array's error protection; an uncorrectable error ends the context, and the flag says that it did. The owner
of the data is taken to be the context whose access reads it. DESIGN CHOICE, log entry 11. -/
def State.eccGuard (s : State) (arr : BitVec 16) (addr len : Nat) (ctx : Word) (d : Nat) : State × Bool :=
  let r := s.eccRead arr addr len ctx d
  if r.2 then (r.1.endEcc ctx, true) else r

/-- The reads of a walk meet the array's error protection (R174). -/
def State.walkEcc (s : State) (core : Option Nat) (ctx : Word) (ldie va : Nat) : State :=
  (s.walkReads core ctx ldie va).foldl (fun s x => (s.eccGuard (arrNear (s.pdie ldie)) x.2.1 x.2.2 ctx (s.pdie ldie)).1) s

/-- A translation is used, and stays in the TLBs (R151). -/
def State.useXlate (s : State) (core : Option Nat) (ctx : Word) (ldie va : Nat) (p : Pte) : State :=
  (s.walkEcc core ctx ldie va).tlbFill core ctx ldie va p

/-- A thread parks at its instruction with its fault record (R152). The entries that the failed walk read meet the error
protection (R174); where the context ends by it, nothing parks. -/
def State.park (s : State) (t : Nat) (f : FaultRec) : State :=
  let s := s.walkEcc (some (s.coreOf t)) (s.co (s.coreOf t)).ctx (s.ldieOf t) f.va
  if !s.live t then s
  else (s.modTh t fun x => { x with status := .parked f }).reportFault (s.pdie (s.ldieOf t)) f

/-- A thread parks at an instruction with these destinations, which it leaves empty (R43, R152): its own replay does not
wait for them. -/
def State.parkOwing (s : State) (t : Nat) (f : FaultRec) (dst : List RegRef) : State :=
  ((s.markAll t dst).modTh t fun x => { x with owed := dst }).park t f

/-! ### Places -/

def State.placeRead (s : State) (p : Place) (a n : Nat) : List Byte :=
  match p with
  | .near d => s.near d a n
  | .buf c sp => s.bufRead c sp a n

def State.placeWrite (s : State) (p : Place) (a : Nat) (bs : List Byte) : State :=
  match p with
  | .near d => s.setNear d a bs
  | .buf c sp => s.bufWrite c sp a bs

/-- A read of the place's array meets its error protection: an uncorrectable error ends the owning context (R174), which
the flag says. -/
def State.placeEcc (s : State) (p : Place) (a n : Nat) (ctx : Word) : State × Bool :=
  match p with
  | .near d => s.eccGuard (arrNear d) a n ctx d
  | .buf c sp => s.eccGuard (arrBuf c sp) a n ctx (s.pdie (s.co c).ldie)

/-- A write of n bytes reads the words that it writes only in part: the array's error protection (R174). -/
def State.partEcc (s : State) (p : Place) (a n : Nat) (ctx : Word) : State × Bool :=
  let x := if a % 4 ≠ 0 || n < 4 then s.placeEcc p (a / 4 * 4) 4 ctx else (s, false)
  if x.2 || (a + n) % 4 = 0 || (a + n) / 4 = a / 4 then x else x.1.placeEcc p ((a + n) / 4 * 4) 4 ctx

/-- Reads that an instruction makes at issue, of a lane's context: place, address and length. The flag says that one of them was
uncorrectable, and the context has ended. -/
def State.readsEcc (s : State) (ctx : Word) (sites : List (Place × Nat × Nat)) : State × Bool :=
  sites.foldl (fun r x => if r.2 then r else r.1.placeEcc x.1 x.2.1 x.2.2 ctx) (s, false)

/-! ### Taking an exception, and returning (R271 to R275) -/

/-- A 48-bit address in two words of a context record. -/
def Ctx.addr48 (c : Ctx) (i : Nat) : Nat := (c.words.getD i 0).toNat + 2 ^ 32 * fld (c.words.getD (i + 1) 0) 0 16

/-- The thread goes to its handler with its frame in the write queue, unless its context has ended. -/
def State.enterHandler (s : State) (t : Nat) (e : Entry) (i : TrapInfo) (frame : Nat) (handler : Word) : State :=
  if !s.live t then s
  else (s.modCo (s.coreOf t) fun k => { k with wq := k.wq ++ [e] }).bump.modTh t fun x => { x with
    status := .ready, faultCode := i.code, faultAddr := i.addr, meet := none, inHandler := true, frame := frame,
    pc := handler &&& 0xFFFFFFFC }

/-- The trap's delivery step (R271): the frame is written, FAULTCODE and FAULTADDR are set, MEET becomes none, the
thread is in-handler and its PC is at HANDLER, a multiple of 4 (R25). The context ends in the cases of R272. -/
def State.deliverTrap (s : State) (t : Nat) (i : TrapInfo) : State :=
  let x := s.th t
  let c := s.ctxOf t
  let k := s.co (s.coreOf t)
  let slot := if x.collie then 2048 else x.slot
  let frame := c.addr48 4 + 16 * (2049 * k.core + slot)
  if c.addr48 2 = 0 ∨ x.inHandler then s.endCtx c.id 4 i.code
  else match s.translate (some (s.coreOf t)) c.id k.ldie frame .store with
    | .error _ => (s.walkEcc (some (s.coreOf t)) c.id k.ldie frame).endCtx c.id 4 i.code
    | .ok (p, pa) =>
      let words := [x.pc, i.rpc, i.code, x.meet.getD 0xFFFFFFFF]
      let e := s.entry t .n pa (.store (words.flatMap wBytes))
      (s.useXlate (some (s.coreOf t)) c.id k.ldie frame p).enterHandler t e i frame (BitVec.ofNat 32 (c.addr48 2))

/-- Loads of a thread that are yet to perform from memory (R64). -/
def Thread.memLoads (x : Thread) : List Load := x.loads.filter fun l => match l.kind with | .mem _ => true | _ => false

/-- Delivery waits for the warp's FIFO and the thread's loads (R64). -/
def State.trapReady (s : State) (t : Nat) : Bool :=
  s.fifoEmpty t && (s.th t).memLoads.isEmpty && decide ((s.co (s.coreOf t)).wq.length < Config.wqDepth)

/-- TAKING AN EXCEPTION (R271): the thread traps at its instruction; the trap is delivered at once when nothing of
its warp is in flight, and by TRAP_DELIVERY otherwise. -/
def State.takeTrap (s : State) (t : Nat) (code : Word) (addr : BitVec 64) (rpc : Word) : State :=
  if !s.live t then s
  else if s.trapReady t then s.deliverTrap t ⟨rpc, code, addr⟩
  else s.setStatus t (.trapping ⟨rpc, code, addr⟩)

/-- The address that FAULTADDR takes when no data address or target is concerned: TPC (R273). -/
def pcAddr (w : Word) : BitVec 64 := w.zeroExtend 64

/-- A fault of class `cls` with detail `det` at the thread's instruction; RPC = TPC (R271, R273). -/
def State.faultTrap (s : State) (t : Nat) (cls det : Nat) (addr : BitVec 64) : State :=
  s.takeTrap t (BitVec.ofNat 32 (cls * 2 ^ 24 + det)) addr (s.th t).pc

/-- The illegal-instruction trap (R47). -/
def State.illegal (s : State) (t : Nat) : State := s.faultTrap t 1 0 (pcAddr (s.th t).pc)

/-! ### Exit (R86) -/

/-- The thread's bit leaves every mask of its warp; a matrix reservation goes with the team's last thread (R207). -/
def State.exitThread (s : State) (t : Nat) : State :=
  let x := s.th t
  let s := s.modTh t fun y => { y with status := .exited }
  let s := s.modWp x.warp fun w => { w with m := w.m.map fun b => b &&& ~~~(1#64 <<< x.lane) }
  let team := (s.wp x.warp).team
  let gone := (List.range s.threads.length).all fun u => (s.wpOf u).team != team || !s.live u
  if gone then
    { s with cores := s.cores.map fun k => if k.holder = some team then
        { k with holder := k.waiters.head?, waiters := k.waiters.tail }
      else { k with waiters := k.waiters.filter fun w => w != team } }
  else s

/-! ### Instruction fetch (R25, R26) -/

/-- One 32-bit word of code at a PC: through the page tables and the core's instruction cache. -/
def State.fetchWord (s : State) (t : Nat) (pc : Word) : Except (BitVec 4 × Nat) (Word × Pte) :=
  let c := s.coreOf t
  let va := fld ((s.ctxOf t).words.getD 14 0) 0 16 * 2 ^ 32 + pc.toNat
  match s.translate (some c) (s.co c).ctx (s.co c).ldie va .fetch with
  | .error k => .error (k, va)
  | .ok (p, pa) =>
    let line := va / 64
    let bs := match (s.co c).icache.find? fun l => l.1 = line with
      | some l => (l.2.drop (va % 64)).take 4
      | none => s.near (s.pdie (s.co c).ldie) pa 4
    .ok (wOf bs, p)

/-- The line fetched stays in the core's instruction cache until `icinv`: a whole line of 64 bytes by its virtual address,
from its first fetch on. DESIGN CHOICE, log entry 66. -/
def State.cacheLine (s : State) (t : Nat) (pc : Word) : State :=
  let c := s.coreOf t
  let va := fld ((s.ctxOf t).words.getD 14 0) 0 16 * 2 ^ 32 + pc.toNat
  match s.translate (some c) (s.co c).ctx (s.co c).ldie va .fetch with
  | .error _ => s
  | .ok (p, pa) =>
    let d := s.pdie (s.co c).ldie
    let s1 := s.useXlate (some c) (s.co c).ctx (s.co c).ldie va p
    if (s.co c).icache.any fun l => l.1 = va / 64 then s1
    else
      let bs := s.near d (pa / 64 * 64) 64
      (s1.eccGuard (arrNear d) (pa / 64 * 64) 64 (s.co c).ctx d).1.modCo c fun k =>
        { k with icache := (va / 64, bs) :: k.icache }

/-! ### The racking unit (R290, R293) -/

/-- A ticket has ended (R293). DEDUCED, log entry 64. -/
def State.ticketEnded (s : State) (t : Word) : Bool := (s.gdone - t).toNat < 2 ^ 31

/-! ### Implementation parameters (R3 to R5, R321) -/

/-- A compute die stays in service after the placement map: it and one of its stacks are (R13); `gone` are the sockets left out. -/
def dieKept (gone : Word) (k : Nat) : Bool :=
  !gone.getLsbD k && (!gone.getLsbD (12 + 2 * k) || !gone.getLsbD (13 + 2 * k))

/-- A start has put a host port out of service, or the I/O die that holds it. -/
def hostPortOut (d : Degraded) (p : Nat) : Bool := d.hosts.getLsbD p || d.gone.getLsbD (8 + p)

/-- The bits below n that hold, as a word. -/
def bitsWord (n : Nat) (p : Nat → Bool) : Word := BitVec.ofNat 32 ((List.range n).map fun k => if p k then 2 ^ k else 0).sum

/-- The value of an IPT parameter; `image` is the bound schedule image's version (R4). -/
def State.ipt (s : State) (i : Nat) (image : Word) : Word :=
  let n (x : Nat) : Word := BitVec.ofNat 32 x
  match i with
  | 0x00 => n Config.iptSize
  | 0x01 => n Config.clockMhz
  | 0x02 => n Config.bundleInterval
  | 0x03 => n Config.issueBound
  | 0x04 => n Config.preemptNs
  | 0x05 => n Config.packWindowNs
  | 0x06 => n Config.abankPassClocks
  | 0x10 => n Config.eventHold
  | 0x11 => n Config.eventqDepth
  | 0x12 => n Config.wqDepth
  | 0x13 => n Config.mxQueueDepth
  | 0x14 => n Config.mmaMaxClocks
  | 0x15 => n Config.cpQueueDepth
  | 0x16 => n Config.sortQueueDepth
  | 0x17 => n Config.colQueueDepth
  | 0x18 => image
  | 0x20 => n Config.coreTlbEntries
  | 0x21 => n Config.dieTlbEntries
  | 0x22 => n Config.walkers
  | 0x23 => n Config.faceEntries
  | 0x24 => n Config.leesDepth
  | 0x25 => n Config.errlogEntries
  | 0x26 => n Config.ioeqDepth
  | 0x30 => n Config.peerAckTimeoutMs
  | 0x31 => n Config.linkRetries
  | 0x40 => n Config.timeSkewNs
  | 0x41 => n Config.schedDeliveryNs
  | 0x42 => n Config.twaitLatencyNs
  | 0x43 => n Config.schedBudget
  | 0x60 => bitsWord 8 (dieKept s.sec.degraded.gone)
  | 0x61 => bitsWord 16 fun k => !s.sec.degraded.gone.getLsbD (12 + k) && dieKept s.sec.degraded.gone (k / 2)
  | 0x62 => s.sec.degraded.slow
  | 0x63 => s.sec.fwSlot.zeroExtend 32
  | 0x64 =>
    (if hostPortOut s.sec.degraded 0 then 0 else s.sec.links &&& 0xFFFF) |||
      if hostPortOut s.sec.degraded 1 then 0 else s.sec.links &&& 0xFFFF0000
  | 0x65 => s.sec.startNumber
  | _ => 0

end Sys2Proof.Machine
end

