-- ==== Sys2Proof/Machine/Operands.lean ====
section
/-! DEFINITION. Operands: which are available to a thread (R40), how they are read and written (R37, R41 to R43,
R183 to R189), and the one wrapper by which the lanes of a bundle check, block, park, trap or execute (R48, R152,
R271). -/

namespace Sys2Proof.Machine

/-! ### Guards and lanes -/

/-- The guard of R35. -/
def guardOn (x : Option Ext) (th : Thread) : Bool :=
  match x with
  | some e => !e.g || (th.p.getLsbD e.gp.toNat != e.gn)
  | none => true

/-- What a lane's check says before the instruction has any effect. -/
inductive Check where
  | ok
  /-- a trap of this class and detail, with its FAULTADDR (R273) -/
  | trap (cls det : Nat) (addr : BitVec 64)
  | wait (b : Block)
  /-- a translation fault: KIND, address and access, and the destinations that stay empty (R43, R152) -/
  | park (kind : BitVec 4) (va : Nat) (acc : Access) (dst : List RegRef)
  /-- the blocking pops of a destination without a full/empty bit are issued, and the thread waits for them -/
  | start
deriving DecidableEq, Repr

/-- A check that faults at the instruction, with FAULTADDR = TPC. -/
def trapHere (s : State) (t cls det : Nat) : Check := .trap cls det (pcAddr (s.th t).pc)

/-- The first check that is not `ok`. -/
def Check.andThen (a b : Check) : Check :=
  match a with
  | .ok => b
  | c => c

/-- Ascending home lane; of equal home lanes of two warps, the lower warp first. DEDUCED, log entry 30. -/
def laneBefore (s : State) (t u : Nat) : Bool :=
  (s.th t).lane < (s.th u).lane || ((s.th t).lane = (s.th u).lane && (s.th t).warp < (s.th u).warp)

/-- The lowest guard-true lane of the thread's warp in the bundle (R42). -/
def leaderOf (s : State) (on : List Nat) (t : Nat) : Nat :=
  (on.find? fun u => (s.th u).warp = (s.th t).warp).getD t

/-- What a lane that does not trap does. -/
def laneStep (chk : Check) (act start : State → Nat → State) (s : State) (t : Nat) : State :=
  match chk with
  | .ok => act s t
  | .trap _ _ _ => s
  | .wait b => s.setStatus t (.blocked b)
  | .park k va acc dst => s.parkOwing t (s.faultRec t va k acc) dst
  | .start => (start s t).setStatus t (.blocked (.pops t))

/-- A lane of a warp whose leader acts for it (R42): it waits as the leader does, and passes the instruction with it
otherwise, also when the leader parks. -/
def followStep (x : Option Ext) (lead : Nat) (chk : Check) (s : State) (t : Nat) : State :=
  match chk with
  | .wait b => s.setStatus t (.blocked b)
  | .start => s.setStatus t (.blocked (.pops lead))
  | .ok => match (s.th lead).status with
    | .blocked .retry => s.setStatus t (.blocked .retry)
    | _ => s.retire t (extLen x)
  | _ => s.retire t (extLen x)

/-- The lanes of the bundle execute an instruction (R42, R47, R48, R152, R158, R271). Guarded-off lanes pass it. With
an s destination (`once`) the lowest guard-true lane of each warp acts for its warp, and it alone parks. When a lane
traps, the instruction has no effect in any lane: the trapping lanes trap, and the others stay as they are at the same
PC. Otherwise each lane blocks, parks or acts, in ascending home lane, unless its context ended in an earlier lane. -/
def runLanes (x : Option Ext) (once : Bool) (chk : State → Nat → Check) (act start : State → Nat → State)
    (s : State) : State :=
  let on := s.issuing.filter fun t => guardOn x (s.th t)
  let off := s.issuing.filter fun t => !guardOn x (s.th t)
  let s1 := off.foldl (fun s t => s.retire t (extLen x)) s
  let key (t : Nat) : Nat := if once then leaderOf s on t else t
  let checks := on.map fun t => (t, chk s (key t))
  let isTrap (c : Nat × Check) : Bool := match c.2 with | .trap _ _ _ => true | _ => false
  if checks.any isTrap then
    checks.foldl (fun s c => match c.2 with
      | .trap cls det addr => if key c.1 = c.1 then s.faultTrap c.1 cls det addr else s
      | _ => s) s1
  else
    checks.foldl (fun s c =>
      if !s.live c.1 then s
      else if key c.1 = c.1 then laneStep c.2 act start s c.1 else followStep x (key c.1) c.2 s c.1) s1

/-- A lane acts unless an earlier lane of the bundle has taken what it needs; then it waits after all. -/
def orWait (ok : Bool) (s : State) (t : Nat) (s' : State) : State := if ok then s' else s.setStatus t (.blocked .retry)

/-- The wrapper for instructions without queue operands. -/
def runPlain (x : Option Ext) (once : Bool) (chk : State → Nat → Check) (act : State → Nat → State)
    (s : State) : State := runLanes x once chk act (fun s _ => s) s

/-- The reads of memory that the lanes whose guard is true make at issue meet the error protection first; an uncorrectable error
ends the context, and the instruction then has no effect (R174). -/
def withReads (x : Option Ext) (once : Bool) (sites : State → Nat → List (Place × Nat × Nat)) (run : State → State)
    (s : State) : State :=
  let on := s.issuing.filter fun t => guardOn x (s.th t)
  let lanes := if once then on.filter fun t => leaderOf s on t = t else on
  let r := lanes.foldl (fun (r : State × Bool) t => if r.2 then r else r.1.readsEcc (s.ctxIdOf t) (sites s t)) (s, false)
  if r.2 then r.1 else run r.1

/-! ### Neighbour slots (R183) -/

/-- What a neighbour slot names. -/
inductive Site where
  | off
  | cell (ell : Nat)
  | const (w : Word)
deriving DecidableEq, Repr

/-- Extent along a dimension, 0 to 2 (R180). -/
def extent (desc : List Word) (dim : Nat) : Nat := fld (desc.getD (1 + dim) 0) 0 20 + 1

/-- One component of a neighbour position: inside, or as MODE treats it; `none` when no cell is named. -/
def nbrComp (mode : Nat) (ext c : Nat) (off : Nat) : Option Nat :=
  let p : Int := (c : Int) + (if off = 1 then 1 else if off = 3 then -1 else 0)
  if 0 ≤ p ∧ p < ext then some p.toNat
  else if mode = 0 then some (p % ext).toNat
  else if mode = 1 then some (if p < 0 then 0 else ext - 1)
  else none

/-- Slot K of a cell, with the constant that register J has in const mode. -/
def siteOf (desc : List Word) (c : Cell) (k j : Nat) : Site :=
  let w := desc.getD (4 + k) 0
  if !bit w 31 then .off
  else
    let mode := fld w 8 2
    match nbrComp mode (extent desc 0) c.cx (fld w 0 2), nbrComp mode (extent desc 1) c.cy (fld w 2 2),
        nbrComp mode (extent desc 2) c.cz (fld w 4 2) with
    | some px, some py, some pz => .cell (px + extent desc 0 * (py + extent desc 1 * pz))
    | _, _, _ => .const (if mode = 2 then desc.getD (12 + j) 0 else 0)

/-- The publication P(q − 1) of a cell, as the reader's core holds it (R186): index q, or the last one of a retired
cell. -/
def faceValue (k : CoreSt) (launch ell q : Nat) : Option (List Word) :=
  match k.faces.find? fun f => f.launch = launch ∧ f.ell = ell ∧ f.idx1 = q with
  | some f => some f.xs
  | none => (k.faces.find? fun f => f.launch = launch ∧ f.ell = ell ∧ f.retired ∧ f.idx1 ≤ q).map Face.xs

def State.cellOf (s : State) (t : Nat) : Option Cell := (s.th t).cell.map s.cl

/-- nK.xJ, when its value exists (R186). -/
def State.nbrVal (s : State) (t k j : Nat) : Option Word :=
  match s.cellOf t with
  | none => some 0
  | some c =>
    match siteOf (s.la c.launch).desc c k j with
    | .off => some 0
    | .const w => some w
    | .cell ell => (faceValue (s.co c.core) c.launch ell c.q).map fun xs => xs.getD j 0

/-- A cell's entry stands in the face store of the core's die: the table holds IPT.FACE_ENTRIES entries, and which spill is free
(R197). DESIGN CHOICE, log entry 81. -/
def faceSpilled (k : CoreSt) (launch ell : Nat) : Bool :=
  Config.faceEntries < (k.faces.map fun f => (f.launch, f.ell)).dedup.length && Config.faceSpills launch ell

/-- The place of a face entry in near memory, when it has spilled: two publications of 16 bytes. -/
def State.faceSite (s : State) (core launch ell : Nat) : List (Place × Nat × Nat) :=
  if faceSpilled (s.co core) launch ell then [(.near (s.pdie (s.co core).ldie), Config.faceStoreAt launch ell, 32)] else []

/-- The bytes that the sites name are written: an armed injection there is made (R316). -/
def State.touchWrites (s : State) (sites : List (Place × Nat × Nat)) : State :=
  sites.foldl (fun s x => match x.1 with
    | .near d => s.eccWrite (arrNear d) x.2.1 x.2.2
    | .buf c sp => s.eccWrite (arrBuf c sp) x.2.1 x.2.2) s

/-- The face store entries that neighbour values of a thread are read from. -/
def faceSites (s : State) (t : Nat) (ns : List (Nat × Nat)) : List (Place × Nat × Nat) :=
  match s.cellOf t with
  | none => []
  | some c => ns.flatMap fun n => match siteOf (s.la c.launch).desc c n.1 n.2 with
    | .cell ell => s.faceSite c.core c.launch ell
    | _ => []

/-- Phases per step (R180). -/
def phasesOf (desc : List Word) : Nat := fld (desc.getD 0 0) 2 2 + 1

/-! ### Channels (R106) -/

/-- A channel's record at an A offset. -/
structure Chan where
  base : Nat
  cap : Nat
  head : Word
  tail : Word
deriving DecidableEq, Repr

def isPow2Upto (n limit : Nat) : Bool := n = 2 ^ (bitLen n - 1) && 0 < n && n ≤ limit

/-- BASE and CAP keep the table of R106. A ring that would run past the end of the A-buffer is malformed too. DESIGN
CHOICE, log entry 67. -/
def chanOk (base cap : Nat) : Bool := base % 4 = 0 && isPow2Upto cap 4096 && base + 4 * cap ≤ bufSize .a

/-- The channel at an offset of a core's A-buffer, or `none` when its record breaks the table of R106. -/
def State.chanAt (s : State) (c off : Nat) : Option Chan :=
  if bufSize .a < off + 16 then none
  else
    let w := wordsOf 4 (s.bufRead c .a off 16)
    let base := (w.getD 0 0).toNat
    let cap := (w.getD 1 0).toNat
    if chanOk base cap then
      some ⟨base, cap, w.getD 2 0, w.getD 3 0⟩
    else none

/-- One push at the channel: the entry at TAIL, and TAIL + 1. -/
def State.chanPush (s : State) (c off : Nat) (ch : Chan) (w : Word) : State :=
  (s.bufWrite c .a (ch.base + 4 * (ch.tail.toNat % ch.cap)) (wBytes w)).bufWrite c .a (off + 12)
    (wBytes (ch.tail + 1))

/-- One pop at the channel: HEAD + 1, and the word. -/
def State.chanPop (s : State) (c off : Nat) (ch : Chan) : State × Word :=
  (s.bufWrite c .a (off + 8) (wBytes (ch.head + 1)),
   wOf (s.bufRead c .a (ch.base + 4 * (ch.head.toNat % ch.cap)) 4))

def chanLen (ch : Chan) : Nat := (ch.tail - ch.head).toNat

/-- Pushes and pops on a channel that have issued and not applied. -/
def State.inFlight (s : State) (c off : Nat) (pushes : Bool) : Nat :=
  let hit (e : Entry) : Bool := e.sp = .a && e.home = c && e.addr = off &&
    match e.body with
    | .push _ => pushes
    | .pop _ _ => !pushes
    | _ => false
  ((s.warps.flatMap Warp.fifo).filter hit).length + ((s.co c).wq.filter hit).length

/-- The channel bound to q1, q2 or q3 of a thread. -/
def boundChan (th : Thread) (q : Nat) : Option Nat := (th.qb.getD (q - 1) none)

/-! ### Availability (R40) -/

/-- A well-formed operand that is not available to the thread. -/
def opBad (s : State) (t : Nat) (o : Operand) : Bool :=
  let x := s.th t
  match o with
  | .nbr k j =>
    match s.cellOf t with
    | none => true
    | some c => siteOf (s.la c.launch).desc c k.toNat j.toNat = .off
  | .cx | .cy | .cz | .stp | .phs => x.cell.isNone
  | .q n => if n = 0 then !x.collie else (boundChan x n.toNat).isNone
  | _ => false

/-- A source field: operand, its E bit, how many registers it names; or an immediate. -/
structure SrcF where
  op : Operand
  e : Bool
  n : Nat
  imm : Option Word
deriving DecidableEq, Repr

def src (o : Operand) (e : Bool := false) : SrcF := ⟨o, e, 1, none⟩
def srcN (o : Operand) (n : Nat) (e : Bool := false) : SrcF := ⟨o, e, n, none⟩
/-- An immediate as a source. -/
def srcK (w : Word) : SrcF := ⟨.z, false, 1, some w⟩

/-- Registers of a thread's own `lred` whose phase it has not ended (R196). -/
def ownLred (s : State) (t : Nat) : List RegRef :=
  match s.cellOf t with
  | none => []
  | some c => ((s.th t).lred.filter fun l => l.q = c.q).flatMap LredWait.dst

/-- The registers that sources name. -/
def srcRegs (th : Thread) (srcs : List SrcF) : List RegRef := srcs.flatMap fun f => regsOf th f.op f.n

/-- A register that the thread may not use yet: empty, and not left so by its own parked instruction. -/
def regWaits (s : State) (t : Nat) (r : RegRef) : Bool := !s.regFull t r && !(s.th t).owed.contains r

/-- The first faults of R48: an illegal operand (`more` where the tags decide), the cell lattice fault of R196, the empty
read. -/
def opFault (s : State) (t : Nat) (fields : List Operand) (srcs : List SrcF) (dst : List RegRef) (more : Check) : Check :=
  let th := s.th t
  match fields.find? (opBad s t) with
  | some o => trapHere s t 2 o.code.toNat
  | none => more.andThen
    (if (srcRegs th srcs ++ dst).any (ownLred s t).contains then trapHere s t 0x0B 2
    else match srcs.find? fun f => f.e && (regsOf th f.op f.n).any fun r => !s.regFull t r with
      | some f => trapHere s t 3 f.op.code.toNat
      | none => .ok)

/-- Waiting for empty sources and for an empty destination (R43). -/
def opWait (s : State) (t : Nat) (srcs : List SrcF) (dst : List RegRef) : Check :=
  let rs := (srcRegs (s.th t) srcs ++ dst).filter (regWaits s t)
  if rs.isEmpty then .ok else .wait (.regs t rs)

/-- The checks every instruction makes first: the faults in the order of R48, then blocking on empty registers (R43). -/
def opCheck (s : State) (t : Nat) (fields : List Operand) (srcs : List SrcF) (dst : List RegRef) : Check :=
  (opFault s t fields srcs dst .ok).andThen (opWait s t srcs dst)

/-! ### Reading -/

/-- The value of a source word that is not a register, a neighbour or a queue (R37). -/
def specialVal (s : State) (t : Nat) (o : Operand) : Word :=
  let th := s.th t
  let c := (s.cellOf t).getD Cell.blank
  let k := phasesOf (s.la c.launch).desc
  let n (v : Nat) : Word := BitVec.ofNat 32 v
  match o with
  | .x i => th.x.getD i.toNat 0
  | .lane => n th.lane
  | .cx => n c.cx
  | .cy => n c.cy
  | .cz => n c.cz
  | .stp => n (c.q / k)
  | .phs => n (c.q % k)
  | .die => n (s.ldieOf t)
  | _ => 0

/-- The slots of a source: register values, an available neighbour value, or what is still to come. Pops take the
next tickets. -/
def slotsOf (s : State) (t : Nat) (ticket : Nat) (f : SrcF) : List Slot :=
  match f.op with
  | .z => [.val (f.imm.getD 0)]
  | .v _ | .s _ => (regsOf (s.th t) f.op f.n).map fun r => .val (s.regVal t r)
  | .nbr k j => match s.nbrVal t k.toNat j.toNat with
    | some w => [.val w]
    | none => [.nbr k.toNat j.toNat]
  | .q _ => [.pop ticket]
  | o => [.val (specialVal s t o)]

/-- The slots of all sources, the pops numbered from `ticket` on. -/
def allSlots (s : State) (t : Nat) : Nat → List SrcF → List Slot
  | _, [] => []
  | k, f :: fs => slotsOf s t k f ++ allSlots s t (if f.op.isQ then k + 1 else k) fs

def queuesOf (srcs : List SrcF) : List Nat :=
  srcs.filterMap fun f => match f.op with | .q n => some n.toNat | _ => none

/-- A source's tag: a v register's own, raw otherwise (R115). -/
def tagOf (s : State) (t : Nat) (f : SrcF) : Tag :=
  match f.op with
  | .v n => s.regTag t (.v ((s.th t).wbase + n.toNat))
  | _ => .raw

/-- The face store entries that sources are read from, once an instruction's check has passed. -/
def nbrReads (chk : State → Nat → Check) (srcs : List SrcF) (s : State) (t : Nat) : List (Place × Nat × Nat) :=
  if chk s t = .ok then
    faceSites s t (srcs.filterMap fun f => match f.op with | .nbr k j => some (k.toNat, j.toNat) | _ => none)
  else []

def Slot.isVal : Slot → Bool
  | .val _ => true
  | _ => false

/-- A slot's value now, if it exists. -/
def slotVal (s : State) (t : Nat) : Slot → Option Word
  | .val w => some w
  | .nbr k j => s.nbrVal t k j
  | .pop _ => none

/-- A slot's value for an instruction whose blocking pops have been served. -/
def slotNow (s : State) (t : Nat) (sl : Slot) : Word :=
  match sl with
  | .val w => w
  | .nbr k j => (s.nbrVal t k j).getD 0
  | .pop k => (((s.th t).popped.find? fun p => p.1 = k).bind Prod.snd).getD 0

/-- Neighbour values that are still to come. -/
def missing (slots : List Slot) : List (Nat × Nat) :=
  slots.filterMap fun sl => match sl with | .nbr k j => some (k, j) | _ => none

/-- An instruction that does not defer blocks until every neighbour value it names exists (R189). -/
def nbrCheck (slots : List Slot) : Check := if (missing slots).isEmpty then .ok else .wait (.neighbour (missing slots))

/-! ### q0 (R41, R107) -/

/-- The next word of q0, if a record waits there. -/
def q0Word (k : CoreSt) (th : Thread) : Option Word := k.q0.head?.map fun r => r.words.getD th.taken.length 0

/-- The Collie pops one word; the record leaves q0 with its fourth, and held records enter (R20). -/
def State.q0Pop (s : State) (t : Nat) : State :=
  let th := s.th t
  match q0Word (s.co (s.coreOf t)) th with
  | none => s
  | some w =>
    if th.taken.length = 3 then
      (s.modTh t fun x => { x with taken := [] }).modCo (s.coreOf t) fun k =>
        admitHeld k.heldq.length { k with q0 := k.q0.tail }
    else s.modTh t fun x => { x with taken := x.taken ++ [w] }

/-- A served pop brings its word to the deferred instruction or to the waiting one (R106). -/
def State.givePop (s : State) (t ticket : Nat) (w : Word) : State :=
  s.modTh t fun x => { x with
    deferred := x.deferred.map fun d =>
      { d with slots := d.slots.map fun sl => if sl = .pop ticket then .val w else sl }
    popped := x.popped.map fun p => if p.1 = ticket then (p.1, some w) else p }

/-- A deferred instruction whose values all exist computes, writes and sets its flags (R189, R190). Values that stand in the face
store meet its error protection (R204). -/
def State.completeDeferred (s : State) (t i : Nat) : State :=
  match (s.th t).deferred[i]? with
  | none => s
  | some d =>
    let vals := d.slots.map (slotVal s t)
    let e := s.readsEcc (s.ctxIdOf t) (faceSites s t (missing d.slots))
    if vals.all Option.isSome && e.2 then e.1
    else if vals.all Option.isSome then
      let s := e.1
      let out := d.fn.eval (vals.map fun v => v.getD 0) d.tags ((d.cb.map CbUse.entries).getD [])
      let a := (vals.getD 0 none).getD 0
      let s := s.modTh t fun x => { x with
        deferred := x.deferred.eraseIdx i
        bw := if d.fn = .refill true then a ++ x.bw.extractLsb' 32 32 else x.bw
        bc := if d.fn = .refill true then x.bc - 32 else x.bc }
      (s.fillRegs t d.dst out.vals out.tag).addFlags t out.flags
    else s

/-- Deferred instructions that waited only for a pop complete in the step that serves it. -/
def State.settlePops (s : State) (t : Nat) : State :=
  match (s.th t).deferred.findIdx? fun d => d.slots.all Slot.isVal with
  | some i => s.completeDeferred t i
  | none => s

/-- A pop of q1 to q3 enters the FIFO toward its channel; a pop of q0 takes a word or waits at q0 (R41, R106). -/
def State.issuePop (s : State) (t q ticket : Nat) : State :=
  if q = 0 then
    let c := s.coreOf t
    match q0Word (s.co c) (s.th t), (s.co c).popWait.any fun w => w.q = 0 with
    | some w, false => ((s.q0Pop t).givePop t ticket w)
    | _, _ => s.modCo c fun k => { k with popWait := k.popWait ++ [⟨0, 0, t, ticket⟩] }
  else
    match boundChan (s.th t) q with
    | some off => s.toFifo t (s.entry t .a off (.pop t ticket))
    | none => s

/-- All pops of an instruction, with tickets in order. -/
def State.issuePops (s : State) (t : Nat) : Nat → List Nat → State
  | _, [] => s
  | k, q :: qs => (s.issuePop t q k).issuePops t (k + 1) qs

/-- The blocking pops of an instruction whose destination has no full/empty bit. -/
def State.startPops (s : State) (t : Nat) (qs : List Nat) : State :=
  let k := (s.th t).tickets
  let s := s.modTh t fun x => { x with
    tickets := x.tickets + qs.length, popped := (List.range qs.length).map fun i => (k + i, none) }
  s.issuePops t k qs

/-- Room for one push now: q0 by its depth (R41), a channel by what it holds and what is on its way. A channel whose record has become
malformed has none, so a thread that a push stalls stays blocked. DESIGN CHOICE, log entry 99. -/
def State.pushRoom (s : State) (t q : Nat) : Bool :=
  if q = 0 then (s.th t).staging.length < 3 || decide ((s.co (s.coreOf t)).q0.length < Config.eventqDepth)
  else match boundChan (s.th t) q with
    | none => false
    | some off => match s.chanAt (s.homeOf t) off with
      | none => false
      | some ch => decide (chanLen ch + s.inFlight (s.homeOf t) off true < ch.cap)

/-- A push: the Collie's staging and whole records at q0 (R41), an entry toward the channel otherwise. -/
def State.pushQ (s : State) (t q : Nat) (w : Word) : State :=
  if q = 0 then
    let st := (s.th t).staging
    if st.length < 3 then s.modTh t fun x => { x with staging := st ++ [w] }
    else
      let r : Record := ⟨st.getD 0 0, hi16 (st.getD 1 0), lo16 (st.getD 1 0), st.getD 2 0, w⟩
      (s.modTh t fun x => { x with staging := [] }).modCo (s.coreOf t) fun k => { k with q0 := k.q0 ++ [r] }
  else
    match boundChan (s.th t) q with
    | some off => s.toFifo t (s.entry t .a off (.push w))
    | none => s

/-- Words 0 and 1 of a channel's record as the thread sees them (R52, R106): whether they keep the table; `none` while
an operation on them has yet to execute. This look meets no error protection (DESIGN CHOICE, log entry 33), and a record past the
end of the A-buffer is malformed (DESIGN CHOICE, log entry 67). -/
def chanGood (s : State) (t off : Nat) : Option Bool :=
  if bufSize .a < off + 16 then some false
  else (s.issueView t (s.homeOf t) .a off 8).map fun bs =>
    let w := wordsOf 2 bs
    chanOk (w.getD 0 0).toNat (w.getD 1 0).toNat

/-- What a queue operand's channel says: the fault of a malformed record, or a wait. -/
def queueCheck (s : State) (t q : Nat) : Check :=
  match boundChan (s.th t) q with
  | none => .ok
  | some off => if q = 0 then .ok else match chanGood s t off with
    | some true => .ok
    | some false => trapHere s t 9 q
    | none => .wait .retry

/-- The channel fault: the first queue operand whose channel's record is malformed (R106). -/
def chanCheck (s : State) (t : Nat) (qs : List Nat) : Check := qs.foldr (fun q c => (queueCheck s t q).andThen c) .ok

/-- An instruction with blocking pops and no destination that could be marked empty (R41): its faults and first waits,
then the pops, and when they have been served its other waits alone, with that for a push after them. The thread waits for the pops
at the instruction, and its other sources are read with the popped words. DESIGN CHOICE, log entry 85. -/
def withPops (s : State) (t : Nat) (srcs : List SrcF) (faults waits push : Check) : Check :=
  if (s.th t).popped.isEmpty then
    faults.andThen (waits.andThen (if (queuesOf srcs).isEmpty then push else .start))
  else if (s.th t).popped.any fun p => p.2.isNone then .wait (.pops t)
  else waits.andThen push

/-- The source words of such an instruction, its pops served. -/
def wordsNow (s : State) (t : Nat) (srcs : List SrcF) : List Word :=
  (allSlots s t (((s.th t).popped.head?.map Prod.fst).getD 0) srcs).map (slotNow s t)

/-- The served pops are used up; an instruction without pops has none to use. -/
def State.usePops (s : State) (t : Nat) : State :=
  if (s.th t).popped.isEmpty then s else s.modTh t fun x => { x with popped := [], popJob := false, popCb := none }

/-! ### All-or-nothing (N = 1, R41) -/

/-- Pops and a push made at issue, in order, on what the queues hold: `none` when one cannot proceed.
DEDUCED, log entry 37. -/
def tryPops (s : State) (t : Nat) : List Nat → Option (State × List Word)
  | [] => some (s, [])
  | q :: qs =>
    let step : Option (State × Word) :=
      if q = 0 then
        match q0Word (s.co (s.coreOf t)) (s.th t), (s.co (s.coreOf t)).popWait.any fun w => w.q = 0 with
        | some w, false => some (s.q0Pop t, w)
        | _, _ => none
      else
        match boundChan (s.th t) q with
        | none => none
        | some off =>
          let c := s.homeOf t
          match s.chanAt c off with
          | none => none
          | some ch =>
            if chanLen ch = 0 ∨ s.inFlight c off false ≠ 0 ∨ (s.co c).popWait.any (fun w => w.q ≠ 0 ∧ w.chan = off)
            then none
            else some (s.chanPop c off ch)
    match step with
    | none => none
    | some (s, w) => (tryPops s t qs).map fun r => (r.1, w :: r.2)

/-- A push made at issue. -/
def tryPush (s : State) (t q : Nat) (w : Word) : Option State :=
  if q = 0 then (if s.pushRoom t 0 then some (s.pushQ t 0 w) else none)
  else
    match boundChan (s.th t) q with
    | none => none
    | some off =>
      let c := s.homeOf t
      match s.chanAt c off with
      | none => none
      | some ch =>
        if ch.cap ≤ chanLen ch ∨ s.inFlight c off true ≠ 0 then none else some (s.chanPush c off ch w)

/-- What N = 1 pops and a push read of the channels in the A-buffer: each record, and the ring entry of each pop that finds
one. `seen` lists the channels already popped by the instruction. -/
def chanSites (s : State) (t : Nat) (push : List Nat) : List Nat → List Nat → List (Place × Nat × Nat)
  | _, [] => push.filterMap fun q => if q = 0 then none else (boundChan (s.th t) q).map fun off => (.buf (s.homeOf t) .a, off, 16)
  | seen, q :: qs =>
    match if q = 0 then none else boundChan (s.th t) q with
    | none => chanSites s t push seen qs
    | some off =>
      let k := (seen.filter fun y => y = off).length
      let entry := match s.chanAt (s.homeOf t) off with
        | some ch => if k < chanLen ch then [(Place.buf (s.homeOf t) .a, ch.base + 4 * ((ch.head.toNat + k) % ch.cap), 4)] else []
        | none => []
      (.buf (s.homeOf t) .a, off, 16) :: entry ++ chanSites s t push (off :: seen) qs

def State.setP (s : State) (t : Nat) (p : BitVec 3) (v : Bool) : State :=
  s.modTh t fun x => { x with p := if v then x.p ||| (1#8 <<< p.toNat) else x.p &&& ~~~(1#8 <<< p.toNat) }

/-! ### The lane job: an instruction of chapter 7 -/

/-- What an instruction does with its source words. -/
inductive Result where
  /-- a lane function writes the destination -/
  | fn (f : LaneFn)
  /-- a comparison writes a predicate -/
  | setp (c : Cond) (p : BitVec 3)
  | fsetp (c : FCond) (p : BitVec 3)
  /-- `sel` by a predicate of the lane -/
  | sel (p : BitVec 3)
  /-- `bsrf` (R139) -/
  | refill
deriving DecidableEq, Repr

/-- An arithmetic instruction: prefix, N bit, destination and how many registers it names, sources in order, the
destination among them where it is read, and the result. -/
structure Job where
  x : Option Ext
  n : Bool := false
  d : Operand
  dn : Nat := 1
  srcs : List SrcF
  rd : Bool := false
  res : Result
deriving DecidableEq, Repr

/-- The sources with the destination where it is read (R116). -/
def Job.reads (j : Job) : List SrcF := if j.rd then j.srcs ++ [srcN j.d j.dn] else j.srcs

def Job.dst (j : Job) (th : Thread) : List RegRef := regsOf th j.d j.dn

/-- It may be deferred: its destinations have full/empty bits, and it sets no predicate (R41, R189). -/
def Job.deferrable (j : Job) : Bool :=
  j.d.isVS && match j.res with
    | .fn _ | .sel _ | .refill => true
    | _ => false

def isRefill (f : LaneFn) : Bool := match f with | .refill _ => true | _ => false

/-- A deferred refill of the bit window: what uses the window waits for it. DEDUCED, log entry 38. -/
def windowBusy (s : State) (t : Nat) : Bool := (s.th t).deferred.any fun d => isRefill d.fn

/-- An instruction of chapter 7 that a thread of the warp has issued is still to set its flags (R74): it is deferred, or it waits for
its pops. -/
def flagsDue (s : State) (t : Nat) : Bool :=
  (s.wpOf t).threads.any fun u => !(s.th u).deferred.isEmpty || (s.th u).popJob

/-- The wait of an instruction that uses the window. -/
def windowWait (s : State) (t : Nat) : Check := if windowBusy s t then .wait (.deferred true) else .ok

/-- The lane function behind a deferred instruction; the guard and the predicate of `sel` are read at issue. -/
def Job.laneFn (j : Job) (th : Thread) : LaneFn :=
  match j.res with
  | .fn f => f
  | .sel p => .sel (th.p.getLsbD p.toNat)
  | .refill => .refill (decide (32 ≤ th.bc.toNat))
  | _ => .mov

/-- Tags of the sources, with d's tag third for `pk8` and `pk4` (R134). -/
def Job.tags (j : Job) (s : State) (t : Nat) : List Tag :=
  [(j.srcs[0]?.map (tagOf s t)).getD .raw, (j.srcs[1]?.map (tagOf s t)).getD .raw, tagOf s t (src j.d)]

/-- A codebook load that the thread issued and that has not completed (R72). A copy that has not started counts as one, since its
record is still to be read. DESIGN CHOICE, log entry 95. -/
def ownCbLoad (s : State) (t : Nat) : Bool :=
  s.ops.any fun o => o.tid = t && o.engine = 2 && o.stage != .done &&
    (o.stage = .inFifo || o.stage = .queued || rKind o.record)

/-- A table of a core's codebooks; one that was never loaded holds zeros at generation 0. -/
def CoreSt.book (k : CoreSt) (i : Nat) : Codebook :=
  (k.books.find? fun b => b.table = i).getD ⟨i, 0, List.replicate 16 0, List.replicate 16 0⟩

def captureCb (s : State) (t : Nat) : CbUse :=
  let b := (s.co (s.coreOf t)).book (s.th t).cbsel.toNat
  ⟨(s.th t).cbsel.toNat, b.gen, b.cur⟩

/-- The tags with those of empty registers left out: a tag that no check refuses stands for each. -/
def Job.knownTags (j : Job) (s : State) (t : Nat) : List Tag :=
  let full (rs : List RegRef) : Bool := rs.all (s.regFull t)
  let src_ (i : Nat) : Tag := (j.srcs[i]?.map fun f =>
    if full (regsOf (s.th t) f.op f.n) then tagOf s t f else .raw).getD .raw
  [src_ 0, src_ 1, if full (j.dst (s.th t)) then tagOf s t (src j.d) else if j.res = .fn .pk4 then .e2m1 else .e4m3]

/-- The operand fields of the word, in order. -/
def Job.fields (j : Job) : List Operand := j.d :: j.srcs.map SrcF.op

/-- The number of the first field whose tag the function refuses: d, a or b. -/
def badTag (f : LaneFn) (ts : List Tag) : Nat :=
  if f = .pk8 ∨ f = .pk4 then 0 else if f.tagsOk [ts.getD 0 .raw, .raw, .raw] then 2 else 1

/-- The illegal-operand trap when the tags refuse a field (R131, R134): its detail is the first offending field, which may be one before
it that is not available (R40, R273). -/
def Job.tagFault (j : Job) (s : State) (t : Nat) : Check :=
  match j.res with
  | .fn f =>
    let ts := j.knownTags s t
    let k := badTag f ts
    if f.tagsOk ts then .ok
    else trapHere s t 2 (((j.fields.take k).find? (opBad s t)).getD (j.fields.getD k .z)).code.toNat
  | _ => .ok

/-- A cb4 decode waits for the thread's own codebook load (R72). -/
def Job.bookWait (j : Job) (s : State) (t : Nat) : Check :=
  match j.res with
  | .fn f => if f.usesCb (j.tags s t) && ownCbLoad s t then .wait .retry else .ok
  | .refill => windowWait s t
  | _ => .ok

/-- The queues that the destination pushes. -/
def Job.pushes (j : Job) : List Nat := match j.d with | .q n => [n.toNat] | _ => []

/-- Room for the push that a destination makes. -/
def pushWait (s : State) (t : Nat) (qs : List Nat) : Check :=
  match qs.find? fun q => !s.pushRoom t q with
  | some q => .wait (.push t q)
  | none => .ok

/-- The whole check of a lane. -/
def Job.check (j : Job) (s : State) (t : Nat) : Check :=
  let th := s.th t
  let dst := j.dst th
  let slots := allSlots s t th.tickets j.reads
  let faults := (j.tagFault s t).andThen ((opFault s t (j.d :: j.srcs.map SrcF.op) j.reads dst .ok).andThen
    (chanCheck s t (queuesOf j.srcs ++ j.pushes)))
  let waits := (opWait s t j.reads dst).andThen (j.bookWait s t)
  if j.n then faults.andThen (waits.andThen (nbrCheck slots))
  else if j.deferrable then
    faults.andThen (waits.andThen (if (queuesOf j.srcs).isEmpty then .ok else nbrCheck slots))
  else withPops s t j.srcs faults (waits.andThen (nbrCheck slots)) (pushWait s t j.pushes)

/-- A destination without deferral takes a result word (R115). -/
def State.writeDst (s : State) (t : Nat) (d : Operand) (dst : List RegRef) (out : FnOut) : State :=
  match d with
  | .v _ | .s _ => s.fillRegs t dst out.vals out.tag
  | .x i => s.modTh t fun x => { x with x := x.x.set i.toNat (out.vals.getD 0 0) }
  | .q n => s.pushQ t n.toNat (out.vals.getD 0 0)
  | _ => s

/-- The codebook of an instruction that completes now: the one it captured before its pops, when it waited for them (R131). -/
def bookNow (s : State) (t : Nat) : CbUse :=
  if (s.th t).popped.isEmpty then captureCb s t else (s.th t).popCb.getD (captureCb s t)

/-- The result for given source words: what is written, the flags, or a predicate. -/
def Job.finish (j : Job) (s : State) (t : Nat) (vals : List Word) : State :=
  let th := s.th t
  let a := vals.getD 0 0
  let b := vals.getD 1 0
  let viaFn (f : LaneFn) : State :=
    let ts := j.tags s t
    let out := f.eval vals ts (if f.usesCb ts then (bookNow s t).entries else [])
    (s.writeDst t j.d (j.dst th) out).addFlags t out.flags
  match j.res with
  | .fn f => viaFn f
  | .sel p => viaFn (.sel (th.p.getLsbD p.toNat))
  | .setp c p => s.setP t p (condHolds c a b)
  | .fsetp c p => let r := fcondHolds c a b; (s.setP t p r.1).addFlags t r.2
  | .refill =>
    if 32 ≤ th.bc.toNat then
      (s.modTh t fun x => { x with bw := a ++ x.bw.extractLsb' 32 32, bc := x.bc - 32 }).writeDst t j.d (j.dst th) (outW 4)
    else s.writeDst t j.d (j.dst th) (outW 0)

/-- The word that a push takes, for N = 1. -/
def Job.pushWord (j : Job) (s : State) (t : Nat) (vals : List Word) : Word :=
  match j.res with
  | .refill => if 32 ≤ (s.th t).bc.toNat then 4 else 0
  | _ => (((j.laneFn (s.th t)).eval vals (j.tags s t) (captureCb s t).entries).vals).getD 0 0

/-- Values of the slots, with the popped words in order. -/
def fillSlots : List Slot → List Word → List Word
  | [], _ => []
  | .val w :: ss, ws => w :: fillSlots ss ws
  | .nbr _ _ :: ss, ws => 0 :: fillSlots ss ws
  | .pop _ :: ss, w :: ws => w :: fillSlots ss ws
  | .pop _ :: ss, [] => 0 :: fillSlots ss []

/-- N = 1: every pop and push proceeds at issue and p7 is true, or none does and p7 is false (R41). With an s destination
the instruction executes in one lane, and p7 is that lane's; p7 is written last, over a comparison whose destination it is.
DESIGN CHOICE, log entry 68. -/
def Job.actN (j : Job) (s : State) (t : Nat) : State :=
  let slots := allSlots s t (s.th t).tickets j.reads
  let made : Option State :=
    match tryPops s t (queuesOf j.srcs) with
    | none => none
    | some (s1, ws) =>
      let vals := fillSlots slots ws
      match j.d with
      | .q n =>
        let flags := ((j.laneFn (s.th t)).eval vals (j.tags s t) (captureCb s t).entries).flags
        (tryPush s1 t n.toNat (j.pushWord s t vals)).map fun s2 =>
          (match j.res with
            | .refill => if 32 ≤ (s.th t).bc.toNat then
                s2.modTh t fun x => { x with bw := vals.getD 0 0 ++ x.bw.extractLsb' 32 32, bc := x.bc - 32 } else s2
            | _ => s2.addFlags t flags)
      | _ => some (j.finish s1 t vals)
  match made with
  | some s' => (s'.setP t 7 true).retire t (extLen j.x)
  | none => (s.setP t 7 false).retire t (extLen j.x)

/-- The codebook that an instruction captures at issue (R72). -/
def Job.cbUse (j : Job) (s : State) (t : Nat) : Option CbUse :=
  if (j.laneFn (s.th t)).usesCb (j.tags s t) then some (captureCb s t) else none

/-- The effect in a lane whose check is `ok`: deferred while a value is still to come (R189, R41), at once
otherwise. -/
def Job.act (j : Job) (s : State) (t : Nat) : State :=
  let th := s.th t
  if j.n then j.actN s t
  else
    let qs := queuesOf j.srcs
    let slots := allSlots s t th.tickets j.reads
    if j.deferrable && !slots.all Slot.isVal then
      let dst := j.dst th
      let s1 := (s.markAll t dst).modTh t fun x => { x with
        deferred := x.deferred ++ [⟨j.laneFn th, slots, j.tags s t, j.cbUse s t, dst⟩], tickets := x.tickets + qs.length }
      ((s1.issuePops t th.tickets qs).settlePops t).retire t (extLen j.x)
    else
      orWait (j.pushes.all (s.pushRoom t)) s t
        (((j.finish s t (wordsNow s t j.reads)).usePops t).retire t (extLen j.x))

/-- What a job reads at issue beside registers: the face store behind its neighbour values, and with N = 1 the channels, whose
operations act there (R41). -/
def Job.sites (j : Job) (s : State) (t : Nat) : List (Place × Nat × Nat) :=
  nbrReads j.check j.srcs s t ++
    if j.n && j.check s t = .ok then chanSites s t j.pushes [] (queuesOf j.srcs) else []

/-- The lane issues the instruction and waits for its pops. -/
def Job.start (j : Job) (s : State) (t : Nat) : State :=
  (s.modTh t fun x => { x with popJob := true, popCb := j.cbUse s t }).startPops t (queuesOf j.srcs)

/-- An arithmetic instruction of the bundle. -/
def runJob (j : Job) (s : State) : Host.Outcome State Fault Refusal :=
  .next (withReads j.x j.d.isS j.sites (runLanes j.x j.d.isS j.check j.act j.start) s)

end Sys2Proof.Machine
end

