-- ==== Sys2Proof/Machine/Memory.lean ====
section
/-! DEFINITION. The memory port: lane loads, stores, atomics, reductions, peer accesses and fences at issue (R145 to
R171, R56, R57). -/

namespace Sys2Proof.Machine

/-! ### Addresses -/

/-- Bytes of a size code (R31). -/
def szBytes (sz : BitVec 3) : Nat :=
  match sz.toNat with
  | 0 | 1 => 1
  | 2 | 3 => 2
  | 4 => 4
  | 5 => 8
  | _ => 16

/-- Registers of a size code. -/
def szRegs (sz : BitVec 3) : Nat := if sz = 5 then 2 else if sz = 6 then 4 else 1

/-- The scaled offset of an M word (R31). -/
def mOffset (x : Option Ext) (off : BitVec 8) (n : Nat) : Int :=
  (match x with
    | some e => (e.immx ++ off : BitVec 21).toInt
    | none => off.toInt) * n

def addrReg (s : State) (t : Nat) (a : Operand) : Word := ((regOf (s.th t) a).map (s.regVal t)).getD 0

/-- The effective address of an M word, modulo 2^32 (R146). -/
def eaOf (s : State) (t : Nat) (x : Option Ext) (a : Operand) (off : BitVec 8) (n : Nat) : Word :=
  addrReg s t a + BitVec.ofInt 32 (mOffset x off n)

/-- The N virtual address of a window offset (R146). -/
def nVa (s : State) (t : Nat) (ea : Word) : Nat := s.nwin t + ea.toNat

/-- Translation for a thread's lane access. -/
def State.laneXlate (s : State) (t : Nat) (va : Nat) (acc : Access) : Except (BitVec 4) (Pte × Nat) :=
  s.translate (some (s.coreOf t)) (s.co (s.coreOf t)).ctx (s.ldieOf t) va acc

/-- Alignment, then the buffer's limit or translation (R48, R146, R152). FAULTADDR is the effective
address; `dst` are the destinations of an access that may park. -/
def accessCheck (s : State) (t : Nat) (sp : Space) (ea : Word) (n : Nat) (acc : Access) (dst : List RegRef := []) :
    Check :=
  if ea.toNat % n ≠ 0 then .trap 6 0 (pcAddr ea)
  else match sp with
    | .n => match s.laneXlate t (nVa s t ea) acc with
      | .ok _ => .ok
      | .error k => .park k (nVa s t ea) acc dst
    | _ => if bufSize sp < ea.toNat + n then .trap 7 0 (pcAddr ea) else .ok

/-- The location of a checked access: the physical address in N (with the page's leaf), the offset in a buffer. -/
def locate (s : State) (t : Nat) (sp : Space) (ea : Word) (acc : Access) : Nat × Option Pte :=
  match sp with
  | .n => match s.laneXlate t (nVa s t ea) acc with
    | .ok (p, pa) => (pa, some p)
    | .error _ => (0, none)
  | _ => (ea.toNat, none)

/-- The access uses its translation. -/
def State.keepXlate (s : State) (t : Nat) (ea : Word) (p : Option Pte) : State :=
  match p with
  | some p => s.useXlate (some (s.coreOf t)) (s.co (s.coreOf t)).ctx (s.ldieOf t) (nVa s t ea) p
  | none => s

/-! ### Ordering attributes (R36, R54, R55) -/

def ordAcq (x : Option Ext) : Bool := match x with | some e => e.ord.getLsbD 0 | none => false
def ordRel (x : Option Ext) : Bool := match x with | some e => e.ord.getLsbD 1 | none => false
def scopeOf (x : Option Ext) : BitVec 3 := match x with | some e => e.scope | none => 0
def attrO (x : Option Ext) : Bool := match x with | some e => e.o | none => false
def attrNt (x : Option Ext) : Bool := match x with | some e => e.nt | none => false

/-- Team scope on one core has no effect; on a core pair it acts as die scope (R54). -/
def scopeActs (s : State) (t : Nat) (sc : BitVec 3) : Bool := 2 ≤ sc.toNat || s.isPair t
def scopeEff (s : State) (t : Nat) (sc : BitVec 3) : BitVec 3 := if sc = 1 ∧ s.isPair t then 2 else sc

def acqOf (s : State) (t : Nat) (x : Option Ext) : Bool := ordAcq x && scopeActs s t (scopeOf x)
/-- A team-scope release on one core is none for the drain step; the merge step counts it (`Entry.bars`). DEDUCED, log entry 104. -/
def relOf (s : State) (t : Nat) (x : Option Ext) : Bool := ordRel x && scopeActs s t (scopeOf x)

/-- Peer stores of a thread, numbered below `n`, that are neither acknowledged nor lost (R54). -/
def peersPending (s : State) (t n : Nat) : Bool :=
  s.routes.any (fun r => r.tid = t && r.peer < n && match r.body with
    | .stx _ _ | .red _ _ _ => true
    | _ => false) ||
  (s.wpOf t).fifo.any fun e => e.tid = t && e.peers < n && match e.body with
    | .peerStore _ _ | .peerRed _ _ _ => true
    | _ => false

/-! ### Loads -/

/-- A load waits behind an earlier `ldx` with acquire, and a load with acquire behind any earlier `ldx` (R62). -/
def pushLoad (s : State) (t : Nat) (l : Load) : State :=
  (s.markAll t l.dst).modTh t fun x => { x with
    loads := x.loads ++ [l], loadCount := x.loadCount + 1, owed := [] }

/-- A load of one space (R156): the check. -/
def loadCheck (w : MW) (sp : Space) (s : State) (t : Nat) : Check :=
  let dst := regsOf (s.th t) w.d (szRegs w.sz)
  (opCheck s t [w.d, w.a] [src w.a] dst).andThen
    (accessCheck s t sp (eaOf s t w.x w.a w.off (szBytes w.sz)) (szBytes w.sz) .load dst)

/-- The format tag a load from a page leaves (R154). -/
def fmtTag (p : Option Pte) : Tag :=
  match p with
  | some p => if 1 ≤ p.fmt.toNat ∧ p.fmt.toNat ≤ 6 then Tag.ofCode (p.fmt.setWidth 3) else .raw
  | none => .raw

/-- The load issues: its destination becomes empty, and it is pending (R51). -/
def loadAct (w : MW) (sp : Space) (s : State) (t : Nat) : State :=
  let ea := eaOf s t w.x w.a w.off (szBytes w.sz)
  let loc := locate s t sp ea .load
  let l : Load :=
    { ord := (s.th t).loadCount, kind := .mem false, sp := sp
      core := if sp = .a then s.homeOf t else s.coreOf t
      die := s.pdie (s.ldieOf t), addr := loc.1, sz := w.sz, dst := regsOf (s.th t) w.d (szRegs w.sz)
      tag := fmtTag loc.2, acq := acqOf s t w.x }
  ((pushLoad s t l).keepXlate t ea loc.2).retire t (extLen w.x)

def runLoad (w : MW) (sp : Space) (s : State) : Host.Outcome State Fault Refusal :=
  .next (runPlain w.x w.d.isS (loadCheck w sp) (loadAct w sp) s)

/-- `ldn` (R156). -/
def execLdn (w : MW) (s : State) : Host.Outcome State Fault Refusal := runLoad w .n s
/-- `lda` (R156). -/
def execLda (w : MW) (s : State) : Host.Outcome State Fault Refusal := runLoad w .a s
/-- `ldc` (R156). -/
def execLdc (w : MW) (s : State) : Host.Outcome State Fault Refusal := runLoad w .c s
/-- `ldw` (R156). -/
def execLdw (w : MW) (s : State) : Host.Outcome State Fault Refusal := runLoad w .w s

/-- Where `ldsc` finds the scale (R154, R155): none on a page with FMT 0, else the scale byte's virtual address. -/
def scaleVa (p : Pte) (va : Nat) : Option Nat :=
  if p.fmt = 0 then none
  else
    let o := va % 2 ^ pageBits p.size
    let e := if p.fmt = 1 ∨ p.fmt = 2 ∨ p.fmt = 4 then o else 2 * o
    some (p.scaleva + e / 16)

/-- `ldsc` (R155): the access as a one-byte load, then the scale's page, which must have FMT 0. -/
def execLdsc (x : Option Ext) (d a : Operand) (off : BitVec 8) (s : State) : Host.Outcome State Fault Refusal :=
  let ea (s : State) (t : Nat) : Word := eaOf s t x a off 1
  .next (runPlain x d.isS
    (fun s t =>
      let dst := regsOf (s.th t) d 1
      (opCheck s t [d, a] [src a] dst).andThen
        ((accessCheck s t .n (ea s t) 1 .load dst).andThen
          (match s.laneXlate t (nVa s t (ea s t)) .load with
            | .error _ => .ok
            | .ok (p, _) => match scaleVa p (nVa s t (ea s t)) with
              | none => .ok
              | some sv => match s.laneXlate t sv .load with
                | .error k => .park k sv .load dst
                | .ok (q, _) => if q.fmt = 0 then .ok else .park 5 sv .load dst)))
    (fun s t =>
      let va := nVa s t (ea s t)
      let page : Option Pte := (s.laneXlate t va .load).toOption.map Prod.fst
      let scale : Option (Nat × Pte × Nat) := (page.bind fun p => scaleVa p va).bind fun sv =>
        (s.laneXlate t sv .load).toOption.map fun r => (sv, r)
      let l : Load :=
        { ord := (s.th t).loadCount, kind := .mem scale.isNone, sp := .n, core := s.coreOf t
          die := s.pdie (s.ldieOf t), addr := (scale.map fun r => r.2.2).getD 0, sz := 0, dst := regsOf (s.th t) d 1, tag := .raw
          acq := false }
      let keep (s : State) (va : Nat) (p : Option Pte) : State := match p with
        | some p => s.useXlate (some (s.coreOf t)) (s.co (s.coreOf t)).ctx (s.ldieOf t) va p
        | none => s
      (keep (keep (pushLoad s t l) va page) ((scale.map Prod.fst).getD 0) (scale.map fun r => r.2.1)).retire t (extLen x)) s)

/-! ### Stores -/

/-- The bytes a store writes, from its data registers (R157). -/
def storeBytes (s : State) (t : Nat) (d : Operand) (sz : BitVec 3) : List Byte :=
  let ws := (regsOf (s.th t) d (szRegs sz)).map (s.regVal t)
  ((if ws.isEmpty then [0] else ws).flatMap wBytes).take (szBytes sz)

def storeCheck (w : MW) (sp : Space) (s : State) (t : Nat) : Check :=
  (opCheck s t [w.d, w.a] [src w.a, srcN w.d (szRegs w.sz)] []).andThen
    (accessCheck s t sp (eaOf s t w.x w.a w.off (szBytes w.sz)) (szBytes w.sz) .store)

/-- Each executing lane appends one entry to the warp's FIFO (R157). -/
def storeAct (w : MW) (sp : Space) (s : State) (t : Nat) : State :=
  let ea := eaOf s t w.x w.a w.off (szBytes w.sz)
  let loc := locate s t sp ea .store
  let e := { s.entry t sp loc.1 (.store (storeBytes s t w.d w.sz)) with
    rel := relOf s t w.x, scope := scopeEff s t (scopeOf w.x), nt := attrNt w.x, bars := ordRel w.x }
  ((s.toFifo t e).keepXlate t ea loc.2).retire t (extLen w.x)

def runStore (w : MW) (sp : Space) (s : State) : Host.Outcome State Fault Refusal :=
  .next (runPlain w.x false (storeCheck w sp) (storeAct w sp) s)

/-- `stn` (R157, R159). -/
def execStn (w : MW) (s : State) : Host.Outcome State Fault Refusal := runStore w .n s
/-- `sta` (R157). -/
def execSta (w : MW) (s : State) : Host.Outcome State Fault Refusal := runStore w .a s
/-- `stc` (R157). -/
def execStc (w : MW) (s : State) : Host.Outcome State Fault Refusal := runStore w .c s

/-- `pref` (R160): a request for a fill step, which may come at any time; no architectural effect, and no fault. One whose
address is the result of the cell's own `lred` of this phase is dropped. -/
def execPref (x : Option Ext) (a : Operand) (_off : BitVec 8) (s : State) : Host.Outcome State Fault Refusal :=
  .next (runPlain x false
    (fun s t => if (srcRegs (s.th t) [src a]).any (ownLred s t).contains then .ok else opWait s t [src a] [])
    (fun s t => s.retire t (extLen x)) s)

/-! ### Atomics and reductions (R161 to R165) -/

/-- Operand words of a kind: two for `cas`, three for `mt`, one otherwise. -/
def kindWords (k : AtomKind) : Nat := match k with | .cas => 2 | .mt => 3 | _ => 1

/-- The value operand of an atomic: registers of the kind's count, or one word of any class but q. -/
def atomSrc (k : AtomKind) (b : Operand) : SrcF := if b.isV then srcN b (kindWords k) else src b

def atomCheck (sp : Space) (k : AtomKind) (d : Option Operand) (a b : Operand) (s : State) (t : Nat) : Check :=
  let dst := (d.map fun d => regsOf (s.th t) d 1).getD []
  let fields := d.toList ++ [a, b]
  (opCheck s t fields [src a, atomSrc k b] dst).andThen
    ((nbrCheck (allSlots s t 0 [atomSrc k b])).andThen
      (accessCheck s t sp (addrReg s t a) (kindBytes k) .atomic dst))

/-- Lanes of one warp in one bundle with the same address form one entry (R163): `old` says how many entries stood in each
FIFO before the bundle. -/
def joinAtom (s : State) (t : Nat) (old : Nat → Nat) (e : Entry) (o : AtomOp) (k : AtomKind) : State × Nat :=
  let n := old (s.th t).warp
  let same (x : Entry) : Bool := x.sp = e.sp && x.addr = e.addr && match x.body with
    | .atom _ _ => true
    | _ => false
  match (s.newEntries t n).find? same with
  | some x =>
    (s.growNew t n fun y => if y.seq = x.seq then { y with body := match y.body with
        | .atom kk ops => .atom kk (ops ++ [o])
        | b => b } else y, x.seq)
  | none => (s.toFifo t { e with body := .atom k [o] }, e.seq)

/-- The entry of an atomic or reduction. Of a pair team, one on A with release first waits as a release at die scope in its own
core's write queue, as R111 has an arrive wait. DEDUCED, log entry 100. -/
def atomEntry (x : Option Ext) (sp : Space) (addr : Nat) (body : Body) (s : State) (t : Nat) : Entry :=
  { s.entry t sp addr body with
    rel := relOf s t x && sp == .n, acq := acqOf s t x, scope := scopeEff s t (scopeOf x), o := attrO x, bars := ordRel x
    dieRel := sp == .a && s.isPair t && ordRel x }

/-- `atom` and `atoma`: d becomes empty, and the reply counts as a load (R57). With acquire the thread's later loads wait
for the reply, at whatever scope, team scope on one core among them. DESIGN CHOICE, log entry 72. -/
def atomAct (x : Option Ext) (sp : Space) (k : AtomKind) (d a b : Operand) (old : Nat → Nat) (s : State)
    (t : Nat) : State :=
  let ea := addrReg s t a
  let loc := locate s t sp ea .atomic
  let xs := (allSlots s t 0 [atomSrc k b]).map (slotNow s t)
  let dst := regsOf (s.th t) d 1
  let o : AtomOp := ⟨t, dst, xs, (s.th t).loadCount, (s.th t).peerCount⟩
  let r := joinAtom s t old (atomEntry x sp loc.1 (.atom k []) s t) o k
  let l : Load :=
    { ord := (s.th t).loadCount, kind := .reply r.2, sp := sp, core := s.coreOf t, die := 0, addr := loc.1, sz := 4
      dst := dst, tag := .raw, acq := ordAcq x }
  ((pushLoad r.1 t l).keepXlate t ea loc.2).retire t (extLen x)

/-- `ared` (N form) and `areda`: one reduction entry per lane. -/
def redAct (x : Option Ext) (sp : Space) (k : AtomKind) (a b : Operand) (s : State) (t : Nat) : State :=
  let ea := addrReg s t a
  let loc := locate s t sp ea .atomic
  let xs := (allSlots s t 0 [atomSrc k b]).map (slotNow s t)
  let e := atomEntry x sp loc.1 (.red k [⟨loc.1, xs, t, (s.th t).peerCount, relOf s t x && sp == .n, acqOf s t x,
    scopeEff s t (scopeOf x), attrO x⟩]) s t
  ((s.toFifo t e).keepXlate t ea loc.2).retire t (extLen x)

/-- An atomic or reduction of the bundle, its value operand read first. -/
def runAtom (x : Option Ext) (once : Bool) (chk : State → Nat → Check) (k : AtomKind) (b : Operand)
    (act : State → Nat → State) (s : State) : State :=
  withReads x once (nbrReads chk [atomSrc k b]) (runPlain x once chk act) s

/-- `atom` (R161). -/
def execAtom (x : Option Ext) (f : AtomKind) (d a b : Operand) (s : State) : Host.Outcome State Fault Refusal :=
  .next (runAtom x d.isS (atomCheck .n f (some d) a b) f b (atomAct x .n f d a b s.fifoLens) s)

/-- `atoma` (R161). -/
def execAtoma (x : Option Ext) (f : AtomKind) (d a b : Operand) (s : State) : Host.Outcome State Fault Refusal :=
  .next (runAtom x d.isS (atomCheck .a f (some d) a b) f b (atomAct x .a f d a b s.fifoLens) s)

/-- `ared` on N (R161). -/
def execAred (x : Option Ext) (f : AtomKind) (a b : Operand) (s : State) : Host.Outcome State Fault Refusal :=
  .next (runAtom x false (atomCheck .n f none a b) f b (redAct x .n f a b) s)

/-- `areda` (R161). -/
def execAreda (x : Option Ext) (f : AtomKind) (a b : Operand) (s : State) : Host.Outcome State Fault Refusal :=
  .next (runAtom x false (atomCheck .a f none a b) f b (redAct x .a f a b) s)

/-! ### Peer access (R166 to R170) -/

/-- The P address in a register pair: the word named last is the high one. -/
def peerAddr (s : State) (t : Nat) (a : Operand) : BitVec 64 :=
  let rs := regsOf (s.th t) a 2
  ((rs[1]?.map (s.regVal t)).getD 0) ++ ((rs[0]?.map (s.regVal t)).getD 0)

def paRank (p : BitVec 64) : BitVec 8 := p.extractLsb' 56 8
def paLdie (p : BitVec 64) : Nat := (p.extractLsb' 53 3).toNat
def paVa (p : BitVec 64) : Nat := (p.extractLsb' 0 32).toNat + 2 ^ 32 * (p.extractLsb' 32 16).toNat

/-- ndie that the domain table holds for a rank; 0 when no device holds it (R336). -/
def domNdie (s : State) (r : BitVec 8) : Nat := ((s.domain.find? fun e => e.1 = r).map Prod.snd).getD 0

/-- A P address that passes the issue check (R166). -/
def paOk (s : State) (p : BitVec 64) : Bool := p.extractLsb' 48 5 = 0 && paLdie p < domNdie s (paRank p)

/-- Alignment, then the P address (R48, R166). -/
def peerCheck (s : State) (t : Nat) (a : Operand) (n : Nat) : Check :=
  let p := peerAddr s t a
  if paVa p % n ≠ 0 then .trap 6 0 p else if paOk s p then .ok else .trap 7 0 p

/-- A peer entry with the attributes of R36, numbered among the thread's peer stores. -/
def peerEntry (x : Option Ext) (body : Body) (s : State) (t : Nat) : State :=
  let e := { s.entry t .n 0 body with rel := ordRel x, scope := scopeOf x }
  (s.toFifo t e).modTh t fun y => { y with peerCount := y.peerCount + 1 }

/-- The check of `stx`: the channel of a queue operand before the P address. DESIGN CHOICE, log entry 82. -/
def stxCheck (a b : Operand) (s : State) (t : Nat) : Check :=
  let waits := (opWait s t [srcN a 2, src b] []).andThen (nbrCheck (allSlots s t 0 [src b]))
  withPops s t [src b]
    ((opFault s t [a, b] [srcN a 2, src b] [] .ok).andThen ((chanCheck s t (queuesOf [src b])).andThen
      (waits.andThen (peerCheck s t a 4)))) waits .ok

/-- `stx` (R167). -/
def execStx (x : Option Ext) (a b : Operand) (s : State) : Host.Outcome State Fault Refusal :=
  .next (withReads x false (nbrReads (stxCheck a b) [src b]) (runLanes x false (stxCheck a b)
    (fun s t =>
      let w := (wordsNow s t [src b]).getD 0 0
      ((peerEntry x (.peerStore (peerAddr s t a) w) s t).usePops t).retire t (extLen x))
    (fun s t => s.startPops t (queuesOf [src b]))) s)

/-- `ared.x` (R169). -/
def execAredX (x : Option Ext) (f : AtomKind) (a b : Operand) (s : State) : Host.Outcome State Fault Refusal :=
  .next (runAtom x false
    (fun s t => (opCheck s t [a, b] [srcN a 2, atomSrc f b] []).andThen
      ((nbrCheck (allSlots s t 0 [atomSrc f b])).andThen
        (peerCheck s t a (kindBytes f)))) f b
    (fun s t =>
      let xs := (allSlots s t 0 [atomSrc f b]).map (slotNow s t)
      (peerEntry x (.peerRed (peerAddr s t a) f xs) s t).retire t (extLen x)) s)

/-! ### Issuing an engine operation (R18 to R20) -/

/-- An engine accepts a new command from the core: a slot is free, and it holds fewer than EVENT_HOLD records. -/
def engineFree (s : State) (c : Nat) (e : BitVec 4) : Bool :=
  (freeSlot (s.usedSlots (some c) 0 e)).isSome && (s.co c).heldBy e < Config.eventHold

/-- The operation that a thread issues, in the lowest free slot at its generation. -/
def newOp (s : State) (t : Nat) (e : BitVec 4) (dst : List RegRef) : Op :=
  let c := s.coreOf t
  let k := (freeSlot (s.usedSlots (some c) 0 e)).getD 0
  { Op.blank with
    engine := e, slot := k, gen := genOf (s.co c).gens e k, ctx := (s.co c).ctx, core := some c, tid := t
    warp := if (s.th t).collie then 0xFFFF else BitVec.ofNat 16 (s.wpOf t).idx, dst := dst, stage := .inFifo
    width := (s.wpOf t).width, peers := (s.th t).peerCount }

/-- The operation joins the table: the handle goes into its first destination register, and all become empty. -/
def State.issueOp (s : State) (t : Nat) (o : Op) : State :=
  let c := s.coreOf t
  let s := s.modCo c fun k => { k with gens := bumpGen k.gens o.engine o.slot }
  let s := s.fillRegs t (o.dst.take 1) [o.handle] .raw
  { s.markAll t o.dst with ops := s.ops ++ [o] }

/-- A route entry with the fields most entries leave at rest. It carries the vintage of its destination die, or of the
issuing die when it is a P request or leaves the device; a P request to the device's own rank carries that of its destination die
too (R312). -/
def State.mkRoute (s : State) (src : Src) (dst : Dst) (body : RouteBody) (ctx : Word) (t : Nat) : Route :=
  { seq := s.seq, src := src, dst := dst, body := body, ctx := ctx, tid := t, peer := 0, launch := none, rel := false,
    acq := false, scope := 0
    vintage := (match dst, src with
      | .die d, _ => (s.die (s.pdie d)).vintage
      | _, .core c => (s.die (s.pdie (s.co c).ldie)).vintage
      | _, .engine c _ | _, .face c => (s.die (s.pdie (s.co c).ldie)).vintage
      | _, .host _ | _, .link _ => 0)
    target := (match dst with
      | .peer k d => if k = s.rank then (s.die (s.pdie d)).vintage else 0
      | _ => 0)
    born := s.time.toNat, sched := false }

def State.pushRoute (s : State) (r : Route) : State := { s.bump with routes := s.routes ++ [r] }

/-- `ldx` (R168): the request enters the core's route queue at issue (R62). -/
def execLdx (w : RF) (_eb : Bool) (s : State) : Host.Outcome State Fault Refusal :=
  .next (runPlain w.x false
    (fun s t =>
      let busy := (s.th t).loads.any fun l => l.acq || ordAcq w.x
      (opCheck s t [w.d, w.a] [srcN w.a 2 w.ea] (regsOf (s.th t) w.d 2)).andThen
        ((peerCheck s t w.a 4).andThen
          (if busy || !engineFree s (s.coreOf t) 6 then .wait .retry else .ok)))
    (fun s t =>
      let pa := peerAddr s t w.a
      let dst := regsOf (s.th t) w.d 2
      let o := { newOp s t 6 dst with stage := .started }
      let i := s.ops.length
      let r := { s.mkRoute (.core (s.coreOf t)) (.peer (paRank pa) (paLdie pa)) (.ldx pa i) o.ctx t with
        acq := ordAcq w.x, scope := scopeOf w.x }
      let l : Load :=
        { ord := (s.th t).loadCount, kind := .peer i, sp := .n, core := s.coreOf t, die := 0, addr := 0, sz := 4
          dst := [], tag := .raw, acq := ordAcq w.x }
      orWait (engineFree s (s.coreOf t) 6) s t
        ((pushLoad ((s.issueOp t o).pushRoute r) t l).retire t (extLen w.x))) s)

/-! ### Fences (R56, R171) -/

/-- Every earlier load of the thread has performed, replies of atomics and peer loads among them (R56, R161). -/
def loadsDone (s : State) (t : Nat) : Bool := (s.th t).loads.isEmpty

/-- The thread's `fence.acqrel` has issued its marker, which has drained: what is left of it is the acquire (R56). -/
def fenceAcquires (s : State) (t : Nat) : Bool := (s.th t).status = .blocked .acquire

/-- `fence` (R56). A release marker enters the FIFO; an acquire waits for the earlier loads and discards the core's
copies; with both, the thread blocks until the marker has drained, and the instruction is then examined again as an acquire.
Team scope on one core has no effect. -/
def execFence (x : Option Ext) (s : State) : Host.Outcome State Fault Refusal :=
  let len := extLen x
  let mark (s : State) (t : Nat) (m : Marker) : State :=
    s.toFifo t { s.entry t .n 0 (.mark m) with rel := relOf s t x, scope := scopeEff s t (scopeOf x), bars := ordRel x }
  .next (runPlain x false
    (fun s t => if ordAcq x && !ordRel x && !loadsDone s t then .wait .retry else .ok)
    (fun s t =>
      if fenceAcquires s t then (if acqOf s t x then s.discardCopies (s.coreOf t) else s).retire t len
      else if ordRel x && ordAcq x then (mark s t .fenceAcqRel).setStatus t (.blocked (.entry len))
      else if ordRel x then (mark s t .fenceRel).retire t len
      else (if acqOf s t x then s.discardCopies (s.coreOf t) else s).retire t len) s)

/-- The thread's non-temporal stores that have not yet written near memory. -/
def ntPending (s : State) (t : Nat) : Bool :=
  (s.wpOf t).fifo.any (fun e => e.tid = t && e.nt) || (s.co (s.coreOf t)).nt.any fun e => e.tid = t

/-- `fence.ntdrain` (R56). -/
def execFenceNtdrain (x : Option Ext) (s : State) : Host.Outcome State Fault Refusal :=
  .next (runPlain x false
    (fun s t =>
      if ntPending s t || (4 ≤ (scopeOf x).toNat && peersPending s t (s.th t).peerCount) then .wait .retry else .ok)
    (fun s t => s.retire t (extLen x)) s)

end Sys2Proof.Machine
end

