-- ==== Sys2Proof/Machine/RefMachine.lean ====
section
/-! DEFINITION. The steps of the reference machine that move entries out of a core: what a location reads as, applying,
draining, merging, filling, evicting and performing (R50 to R57, R109 to R111, R159, R162 to R165, R290, R291). -/

namespace Sys2Proof.Machine

/-! ### Atomics (R162) -/

/-- What memory becomes. -/
def atomWord (k : AtomKind) (m : Word) (xs : List Word) : Word :=
  let x := xs.getD 0 0
  match k with
  | .add => m + x
  | .min => minS m x
  | .max => maxS m x
  | .minu => minU m x
  | .maxu => maxU m x
  | .and => m &&& x
  | .or => m ||| x
  | .xor => m ^^^ x
  | .exch => x
  | .cas => if m = x then xs.getD 1 0 else m
  | .fadd => (add32 m x).1
  | .fmin => (fMinMax false m x).1
  | .fmax => (fMinMax true m x).1
  | .mt => m

/-- The bytes a location holds after one operation. -/
def atomBytes (k : AtomKind) (old : List Byte) (xs : List Word) : List Byte :=
  match k with
  | .mt => ((blendT (Triple.ofWords (wordsOf 3 old)) (Triple.ofWords xs)).1.words ++ [0]).flatMap wBytes
  | _ => wBytes (atomWord k (wOf old) xs)

/-- One operation at a place. -/
def State.atomAt (s : State) (p : Place) (k : AtomKind) (a : Nat) (xs : List Word) : State :=
  s.placeWrite p a (atomBytes k (s.placeRead p a (kindBytes k)) xs)

/-- The lanes of one `atom` entry in order: each receives the value before its own operation (R163). -/
def State.atomLanes (s : State) (p : Place) (k : AtomKind) (a seq : Nat) (acq : Bool) : List AtomOp → State
  | [] => s
  | o :: os =>
    let old := wOf (s.placeRead p a 4)
    let s1 := (s.atomAt p k a o.xs).modTh o.tid fun x => { x with
      loads := x.loads.filter fun l => !(l.kind = .reply seq && l.ord = o.loads) }
    let s2 := s1.fillRegs o.tid o.dst [old] .raw
    (if acq then s2.discardCopies (s2.coreOf o.tid) else s2).atomLanes p k a seq acq os

/-- One reduction of an entry: with acquire it discards the copies of the core that its thread is on (R55, R57). -/
def State.redAt (s : State) (p : Place) (k : AtomKind) (o : RedPart) : State :=
  let s1 := s.atomAt p k o.addr o.xs
  if o.acq then s1.discardCopies (s1.coreOf o.tid) else s1

/-! ### Barrier operations (R110, R111) -/

/-- The number that the kind table of R46 gives an operation. -/
def barCode (nsp : Bool) (k : BarKind) : Nat :=
  (if nsp then 8 else 0) + match k with | .init _ => 0 | .arrive => 1 | .expect _ => 3

/-- The bundle's operations in order: the objects after them, and the operations that would fault. -/
def State.barFold (s : State) (p : Place) : List (Nat × Nat × BarKind) → State × List (Nat × Nat × BarKind)
  | [] => (s, [])
  | o :: os =>
    let old := s.placeRead p o.2.1 16
    match (BarObj.of old).apply o.2.2 with
    | some b => (s.placeWrite p o.2.1 (barBytes old o.2.2 b)).barFold p os
    | none => let r := s.barFold p os; (r.1, o :: r.2)

/-- The thread that waited for its entry completes its instruction. -/
def State.entryDone (s : State) (t : Nat) : State :=
  match (s.th t).status with
  | .blocked (.entry len) => s.retire t len
  | _ => s

/-- All lanes of the bundle apply, or the faulting lanes trap and the others are ready at the `bar` again. -/
def State.barAt (s : State) (p : Place) (ops : List (Nat × Nat × BarKind)) : State :=
  let r := s.barFold p ops
  if r.2.isEmpty then (ops.map Prod.fst).foldl State.entryDone r.1
  else
    let nsp := match p with | .near _ => true | _ => false
    let blockedAt (t : Nat) : Bool := match (s.th t).status with | .blocked (.entry _) => true | _ => false
    ops.foldl (fun s o =>
      if !blockedAt o.1 then s
      else if r.2.contains o then s.faultTrap o.1 8 (barCode nsp o.2.2) (pcAddr (s.th o.1).pc)
      else s.setStatus o.1 .ready) s

/-- A barrier object is counted down by n bytes in a context; whether that was an overrun (R110, R236). Reading the object
meets the array's error protection. -/
def State.countBar (s : State) (p : Place) (a n : Nat) (ctx : Word) : State × Bool :=
  let e := s.placeEcc p a 16 ctx
  if e.2 then (e.1, false)
  else
    let old := e.1.placeRead p a 16
    let r := (BarObj.of old).count n
    (e.1.placeWrite p a (r.1.toBytes old), r.2)

/-! ### Markers (R56, R290, R296) -/

/-- A request: the ticket, and REQ set. -/
def State.request (s : State) : State × Word := ({ s with req := true }, s.g + 1)

/-- State of a block: `none` free, `some false` allocated, `some true` deferred (R295). -/
def Ctx.block (c : Ctx) (pool die blk : Nat) : Option Bool :=
  (c.blocks.find? fun b => b.pool = pool ∧ b.die = die ∧ b.blk = blk).map PoolBlock.deferred

def Ctx.setBlock (c : Ctx) (pool die blk : Nat) (st : Option Bool) : Ctx :=
  let rest := c.blocks.filter fun b => ¬(b.pool = pool ∧ b.die = die ∧ b.blk = blk)
  { c with blocks := match st with | some d => ⟨pool, die, blk, d⟩ :: rest | none => rest }

/-- What a marker does at its drain step. -/
def State.drainMark (s : State) (t : Nat) (m : Marker) : State :=
  let d := s.ldieOf t
  let c := s.ctxOf t
  match m with
  | .fenceRel => s
  | .fenceAcqRel => match (s.th t).status with
    | .blocked (.entry _) => s.setStatus t (.blocked .acquire)
    | _ => s
  | .qleave => (s.modTh t fun x => { x with depth := x.depth - 1 }).entryDone t
  | .qpt => (s.modTh t fun x => { x with qtag := if x.depth = 0 then x.qtag else s.g.setWidth 8 }).entryDone t
  | .gstart dst =>
    let r := s.request
    dst.foldl (fun s o => (s.writeDst o.1 o.2 (regsOf (s.th o.1) o.2 1) (outW r.2)).entryDone o.1) r.1
  | .gwait => let r := s.request; r.1.setStatus t (.blocked (.ticket r.2))
  | .pfree k i =>
    if c.block k d i = some false then (s.modCtx c.id fun c => c.setBlock k d i none).entryDone t
    else s.faultTrap t 0x0E 3 (pcAddr (s.th t).pc)
  | .lees k i =>
    if c.block k d i ≠ some false then s.faultTrap t 0x0E 3 (pcAddr (s.th t).pc)
    else if Config.leesDepth ≤ (s.die (s.pdie d)).lees.length then (s.setP t 7 false).entryDone t
    else
      let r := s.request
      let s1 := (r.1.modCtx c.id fun c => c.setBlock k d i (some true)).modDie (s.pdie d) fun x =>
        { x with lees := x.lees ++ [⟨c.id, k, i, r.2⟩] }
      (s1.setP t 7 true).entryDone t

/-! ### Executing an entry at its place -/

/-- Bytes an entry's execution reads: the words of atomics and objects, and the read half of a sub-word store. -/
def Entry.readsArray (e : Entry) : Bool :=
  match e.body with
  | .store bs => bs.length < 4
  | .atom _ _ | .red _ _ | .bar _ _ => true
  | _ => false

/-- The reads that an entry's execution makes meet the array's error protection. -/
def State.entryEcc (s : State) (p : Place) (e : Entry) : State × Bool :=
  if e.readsArray then
    e.ranges.foldl (fun (r : State × Bool) x =>
      let y := r.1.placeEcc p (x.1 / 4 * 4) (max x.2 4) (s.ctxIdOf e.tid)
      (y.1, r.2 || y.2)) (s, false)
  else (s, false)

/-- The effect of an entry at its place (R51, R57, R163, R164); none when an uncorrectable error was read there. -/
def State.execEntry (s : State) (p : Place) (e : Entry) : State :=
  let x := s.entryEcc p e
  let s := x.1
  if x.2 then s
  else match e.body with
  | .store bs => s.placeWrite p e.addr bs
  | .atom k ops => s.atomLanes p k e.addr e.seq e.acq ops
  | .red k ops => ops.foldl (fun s o => s.redAt p k o) s
  | .bar _ ops => s.barAt p ops
  | .mark m => s.drainMark e.tid m
  | _ => s

/-- A channel's record and the ring entry that its next pop takes are read: the array's error protection. -/
def State.chanEcc (s : State) (c off : Nat) (pop : Bool) : State × Bool :=
  let ctx := (s.co c).ctx
  let r := s.placeEcc (.buf c .a) off 16 ctx
  match pop && !r.2, s.chanAt c off with
  | true, some ch => r.1.placeEcc (.buf c .a) (ch.base + 4 * (ch.head.toNat % ch.cap)) 4 ctx
  | _, _ => r

/-- A push at its channel; a waiting pop is served by its own step (R106). DEDUCED, log entry 31. -/
def State.applyPush (s : State) (c : Nat) (e : Entry) (w : Word) : State :=
  let x := s.chanEcc c e.addr false
  let s := x.1
  if x.2 then s
  else match s.chanAt c e.addr with
  | some ch => s.chanPush c e.addr ch w
  | none => s

/-- A pop at its channel: the word, or a place among the pops that wait there (R106), which it takes too when the record has turned
malformed since issue. DEDUCED, log entry 31. -/
def State.applyPop (s : State) (c : Nat) (e : Entry) (t ticket : Nat) : State :=
  let waiting := (s.co c).popWait.any fun w => w.q != 0 && w.chan = e.addr
  let wait (s : State) : State := s.modCo c fun k => { k with popWait := k.popWait ++ [⟨1, e.addr, t, ticket⟩] }
  let x := s.chanEcc c e.addr true
  let s := x.1
  if x.2 then s
  else match s.chanAt c e.addr with
  | some ch =>
    if waiting || chanLen ch = 0 then wait s
    else
      let r := s.chanPop c e.addr ch
      (r.1.givePop t ticket r.2).settlePops t
  | none => wait s

/-! ### Leave FIFO (R51, R54, R57, R58) -/

/-- Every load the thread issued before its n-th has performed, peer loads among them; for a store, its atomics have
replied too (R57). -/
def loadsPerformed (s : State) (t n : Nat) (store : Bool) : Bool :=
  (s.th t).loads.all fun l => n ≤ l.ord || match l.kind with
    | .mem _ => false
    | .reply _ => !store
    | .peer _ => false

/-- The threads of an entry, with the loads each had issued before it. -/
def Entry.lanes (s : State) (e : Entry) : List (Nat × Nat) :=
  match e.body with
  | .atom _ ops => ops.map fun o => (o.tid, o.loads)
  | .bar _ ops => ops.map fun o => (o.1, (s.th o.1).loadCount)
  | .mark (.gstart dst) => dst.map fun o => (o.1, (s.th o.1).loadCount)
  | _ => [(e.tid, e.loads)]

def Entry.isStore (e : Entry) : Bool :=
  match e.body with
  | .store _ | .peerStore _ _ => true
  | _ => false

def Entry.isPeer (e : Entry) : Bool :=
  match e.body with
  | .peerStore _ _ | .peerRed _ _ _ => true
  | _ => false

/-- The destination of a P address. -/
def peerDst (pa : BitVec 64) : Dst := .peer (paRank pa) (paLdie pa)

/-- A peer entry with release at dom or sys: the write queue is performed, and the thread's peer stores on other
routes are acknowledged (R54). -/
def peerRelReady (s : State) (e : Entry) (pa : BitVec 64) : Bool :=
  !(e.rel && 4 ≤ e.scope.toNat) ||
    ((s.co (s.coreOf e.tid)).wq.isEmpty && s.routes.all fun r =>
      r.tid != e.tid || r.dst == peerDst pa || match r.body with
        | .stx _ _ | .red _ _ _ => false
        | _ => true)

/-- The grid's peer stores travel in the scheduled class (R282). -/
def schedOf (s : State) (t : Nat) : Bool :=
  match s.launchOf t with
  | some l => bit ((s.la l).words.getD 0 0) 5
  | none => false

/-- Entries that a command's core has sent to a write queue: those of its own, and of a pair's even core those for the A-buffer (R147);
those that threads of the even core have sent there hold no command of the odd core. DEDUCED, log entry 111. -/
def State.sentEntries (s : State) (o : Op) : List Entry :=
  match o.core with
  | some c =>
    let h := s.homeOf o.tid
    (s.co c).wq ++ if h = c then [] else (s.co h).wq.filter fun e => s.coreOf e.tid = c
  | none => []

/-- A command's record or parameter block through its core's view (R52, R58). -/
def State.recordView (s : State) (o : Op) (off n : Nat) : Option (List Byte) :=
  s.coreView (o.core.getD (s.homeOf o.tid)) (s.homeOf o.tid) .a off n

/-- The entries that stood there when the command entered its queue and are there still. -/
def State.markedLeft (s : State) (o : Op) : List Entry := (s.sentEntries o).filter fun e => o.mark.contains e.seq

/-- A command enters its engine queue (R58, R251): its place in the order, and the write queue's position. A queued
launch is the scheduler's from then on. -/
def State.enterQueue (s : State) (i : Nat) : State :=
  let there := (s.sentEntries (s.op i)).map Entry.seq
  (s.modOp i fun o => { o with stage := .queued, order := s.seq, mark := there }).bump

/-! ### How a load takes its value (R52, R55, R62, R292) -/

/-- It waits behind acquiring atomics and behind peer loads where either acquires (R57, R62). -/
def loadHeld (x : Thread) (l : Load) : Bool :=
  x.loads.any fun p => p.ord < l.ord && match p.kind with
    | .mem _ => false
    | .reply _ => p.acq
    | .peer _ => p.acq || l.acq

/-- An entry was issued by the thread before its load: a pending load takes no value from a younger entry of its own
thread in the FIFO. DESIGN CHOICE, log entry 74. A `bar` of the thread is younger than all its loads, since the thread issues
nothing until it has applied (R110). -/
def beforeLoad (t : Nat) (l : Load) (e : Entry) : Bool :=
  match e.body with
  | .atom _ ops => ops.any fun o => o.tid = t && o.loads ≤ l.ord
  | .bar _ _ => false
  | _ => e.tid = t && e.loads ≤ l.ord

/-- The load's bytes, over the given base. -/
def loadView (s : State) (t : Nat) (l : Load) (base : List Byte) : Option (List Byte) :=
  let own := (s.wpOf t).fifo.filter (beforeLoad t l)
  viewBytes own (s.queuedFor (s.coreOf t) l.core) l.sp l.die l.addr base

/-- Some byte comes from the location itself. -/
def loadTouches (s : State) (t : Nat) (l : Load) : Bool :=
  loadView s t l (List.replicate (szBytes l.sz) 0) != loadView s t l (List.replicate (szBytes l.sz) 1)

/-- The core's copy may serve the load: outside a section always, inside one only when it was filled or updated after
the thread's last load performed (R292). A load with acquire may take it too, and discards it in the same step (R55), unless a store
of the scheduled class has been delivered to the line since: the value delivered is then the least that it may see (R282, R286).
DEDUCED, log entry 90. -/
def copyServes (x : Thread) (acq : Bool) (c : Copy) : Bool := (x.depth = 0 || x.lastLoad < c.tick) && !(acq && c.passed)

/-- What a load of N finds (R52). -/
inductive LoadRead where
  | wait
  | ended (s : State)
  | ok (s : State) (bs : List Byte)
deriving DecidableEq, Repr

/-- A load of N reads: the thread's own FIFO, the write queue, then a core copy if asked and allowed, or near memory, which
sets the core's copy of the line. Reading near memory meets its error protection. -/
def State.nearLoad (s : State) (t : Nat) (l : Load) (useCopy : Bool) : LoadRead :=
  let line := l.addr / 64
  let n := szBytes l.sz
  let cp := ((s.co l.core).copyOf l.die line).filter fun c => useCopy && copyServes (s.th t) l.acq c
  let base := match cp with
    | some c => (c.bytes.drop (l.addr % 64)).take n
    | none => s.near l.die l.addr n
  match loadView s t l base with
  | none => .wait
  | some bs =>
    if cp.isSome || !loadTouches s t l then .ok s bs
    else
      let r := s.eccGuard (arrNear l.die) (64 * line) 64 (s.ctxIdOf t) l.die
      if r.2 then .ended r.1 else .ok (r.1.fillLine l.core l.die line) bs

/-- The destinations take the value and become full; the load is gone; an acquire discards the core's copies. -/
def finishLoad (s : State) (t : Nat) (l : Load) (ws : List Word) : State :=
  let s1 := s.modTh t fun x => { x with loads := x.loads.filter fun p => p.ord ≠ l.ord, lastLoad := s.tick }
  let s2 := s1.fillRegs t l.dst ws l.tag
  if l.acq then s2.discardCopies (s2.coreOf t) else s2

end Sys2Proof.Machine
end

