-- ==== Sys2Proof/Machine/Barrier.lean ====
section
/-! DEFINITION. Barrier objects, futures and queue operations at issue (R105, R108 to R111). -/

namespace Sys2Proof.Machine

/-! ### Barrier objects (R110) -/

/-- The object's place: an offset of the A-buffer that the team reaches, or a translated N address. -/
def barSite (s : State) (t : Nat) (nsp : Bool) (a : Operand) (acc : Access) : Nat × Option Pte :=
  locate s t (if nsp then .n else .a) (addrReg s t a) acc

/-- Operands, alignment to 16, and the object's address; `init` counts are checked at issue. -/
def barCheck (nsp : Bool) (fields : List Operand) (a : Operand) (acc : Access) (s : State) (t : Nat) : Check :=
  (opCheck s t fields (fields.map fun o => src o) []).andThen
    (accessCheck s t (if nsp then .n else .a) (addrReg s t a) 16 acc)

/-- The lanes of one warp in one bundle form one part of the bundle's entry, which applies in one step (R110): `from_` is
the first sequence number of this bundle, and `old` says how many entries stood in each FIFO before it. DEDUCED, log
entry 30. -/
def joinBar (s : State) (t from_ : Nat) (old : Nat → Nat) (e : Entry) (k : BarKind) : State :=
  let n := old (s.th t).warp
  let mine (x : Entry) : Bool := match x.body with
    | .bar g _ => g = from_
    | _ => false
  let grow (y : Entry) : Entry := { y with body := match y.body with
    | .bar g ops => .bar g (if g = from_ then ops ++ [(t, e.addr, k)] else ops)
    | b => b }
  if (s.newEntries t n).any mine then s.growNew t n grow
  else s.toFifo t { e with body := .bar from_ [(t, e.addr, k)] }

/-- `init`, `arrive` and `expect`: one entry toward the object; the thread blocks until it has applied. An arrive is a
release: at die scope on an N object, and for a pair team on an A object too (R111). On an N object the three need and record the
access of a store, and `wait` and `test` that of a load. DEDUCED, log entry 97. -/
def runBar (x : Option Ext) (nsp : Bool) (a : Operand) (more : List Operand) (acc : Access) (chk : State → Nat → Check)
    (kind : State → Nat → BarKind) (rel : Bool) (s : State) : Host.Outcome State Fault Refusal :=
  let from_ := s.seq
  let old := s.fifoLens
  .next (runPlain x false
    (fun s t => (barCheck nsp (a :: more) a acc s t).andThen (chk s t))
    (fun s t =>
      let loc := barSite s t nsp a acc
      let e := { s.entry t (if nsp then .n else .a) loc.1 (.bar from_ []) with
        rel := rel && nsp, scope := if rel && nsp then 2 else 0, bars := rel, dieRel := rel && !nsp && s.isPair t }
      let s1 := (joinBar s t from_ old e (kind s t)).keepXlate t (addrReg s t a) (if nsp then loc.2 else none)
      s1.setStatus t (.blocked (.entry (extLen x)))) s)

/-- `bar.init` (R110): the count is 1 to 2^31 - 1, or the barrier fault is taken at issue. -/
def execBarInit (x : Option Ext) (nsp : Bool) (a b : Operand) (s : State) : Host.Outcome State Fault Refusal :=
  runBar x nsp a [b] .store
    (fun s t =>
      let n := (addrReg s t b).toNat
      if 1 ≤ n ∧ n < 2 ^ 31 then .ok else trapHere s t 8 (if nsp then 8 else 0))
    (fun s t => .init (addrReg s t b)) false s

/-- `bar.arrive` (R110, R111). -/
def execBarArrive (x : Option Ext) (nsp : Bool) (a : Operand) (s : State) : Host.Outcome State Fault Refusal :=
  runBar x nsp a [] .store (fun _ _ => .ok) (fun _ _ => .arrive) true s

/-- `bar.expect` (R110). -/
def execBarExpect (x : Option Ext) (nsp : Bool) (a b : Operand) (s : State) : Host.Outcome State Fault Refusal :=
  runBar x nsp a [b] .store (fun _ _ => .ok) (fun s t => .expect (addrReg s t b)) false s

/-- PHASE of the object as the thread sees it: its own FIFO, the write queue, then the location (R52); `none` while an
operation on it has yet to execute. An N object is read in near memory, never in a copy. DESIGN CHOICE, log entry 73. -/
def barPhase (s : State) (t : Nat) (nsp : Bool) (a : Operand) : Option Bool :=
  let loc := (barSite s t nsp a .load).1
  let own := (s.wpOf t).fifo.filter (Entry.issuedBy t)
  let c := s.homeOf t
  let d := s.pdie (s.ldieOf t)
  (if nsp then viewBytes own (s.co (s.coreOf t)).wq .n d loc (s.near d loc 4)
    else viewBytes own (s.queuedFor (s.coreOf t) c) .a 0 loc (s.bufRead c .a loc 4)).map fun bs => bit (wOf bs) 31

/-- The look at PHASE is a read of the object's first word, behind the table entries that its translation reads. -/
def barSites (nsp : Bool) (a : Operand) (s : State) (t : Nat) : List (Place × Nat × Nat) :=
  if barCheck nsp [a] a .load s t = .ok then
    (if nsp then s.walkReads (some (s.coreOf t)) (s.co (s.coreOf t)).ctx (s.ldieOf t) (nVa s t (addrReg s t a)) else []) ++
    [(if nsp then .near (s.pdie (s.ldieOf t)) else .buf (s.homeOf t) .a, (barSite s t nsp a .load).1, 4)]
  else []

/-- The translation of the look stays in the TLBs (R151). -/
def State.barKept (s : State) (t : Nat) (nsp : Bool) (a : Operand) : State :=
  s.keepXlate t (addrReg s t a) (if nsp then (barSite s t nsp a .load).2 else none)

/-- A wait or a true test acquires: at die scope for an N object or a pair team (R60, R111). -/
def barAcquire (s : State) (t : Nat) (nsp : Bool) : State :=
  if nsp || s.isPair t then s.discardCopies (s.coreOf t) else s

/-- `bar.wait` (R110): blocks until PHASE differs from the parity. -/
def execBarWait (x : Option Ext) (nsp : Bool) (a : Operand) (par : Bool) (s : State) :
    Host.Outcome State Fault Refusal :=
  .next (withReads x false (barSites nsp a) (runPlain x false
    (fun s t => (barCheck nsp [a] a .load s t).andThen
      (match barPhase s t nsp a with
        | some ph => if ph != par then .ok else .wait (.bar nsp a par)
        | none => .wait (.bar nsp a par)))
    (fun s t => (barAcquire (s.barKept t nsp a) t nsp).retire t (extLen x))) s)

/-- `bar.test` (R110). -/
def execBarTest (x : Option Ext) (nsp : Bool) (p : BitVec 3) (a : Operand) (par : Bool) (s : State) :
    Host.Outcome State Fault Refusal :=
  .next (withReads x false (barSites nsp a) (runPlain x false
    (fun s t => (barCheck nsp [a] a .load s t).andThen
      (if (barPhase s t nsp a).isSome then .ok else .wait .retry))
    (fun s t =>
      let r := (barPhase s t nsp a).getD par != par
      let s := s.barKept t nsp a
      ((if r then barAcquire s t nsp else s).setP t p r).retire t (extLen x))) s)

/-! ### Futures (R105) -/

/-- The handle's engine field is one that is issued. -/
def handleOk (h : Word) : Bool := 1 ≤ fld h 28 4 && fld h 28 4 ≤ 6

/-- The operation a handle names, when it is the latest issued in its slot by the thread's core (R18). -/
def latestOp (s : State) (t : Nat) (h : Word) : Option Nat :=
  let c := s.coreOf t
  let e : BitVec 4 := h.extractLsb' 28 4
  let k : BitVec 8 := h.extractLsb' 20 8
  let here (o : Op) : Bool := o.core = some c && o.ctx = (s.co c).ctx && o.engine = e && o.slot = k
  match ((List.range s.ops.length).filter fun i => here (s.op i)).getLast? with
  | some i => if (s.op i).gen = h.extractLsb' 0 20 then some i else none
  | none => none

/-- The register of a future operand, whose value is read whether or not it is full. -/
def futCheck (fields : List Operand) (a : Operand) (dst : List RegRef) (s : State) (t : Nat) : Check :=
  (opFault s t fields [src a] dst (if handleOk (addrReg s t a) then .ok else trapHere s t 2 a.code.toNat)).andThen
    (opWait s t [] dst)

/-- The register is full, and the operation it names has completed (R105). -/
def futDone (s : State) (t : Nat) (a : Operand) : Bool :=
  (regOf (s.th t) a).all (s.regFull t) && match latestOp s t (addrReg s t a) with
    | some i => (s.op i).stage = OpStage.done
    | none => true

/-- `fwait` (R105): until the register is full, and until the operation it names has completed; an acquire at die
scope (R60). -/
def execFwait (x : Option Ext) (d a : Operand) (s : State) : Host.Outcome State Fault Refusal :=
  .next (runPlain x d.isS
    (fun s t =>
      (futCheck [d, a] a ((regsOf (s.th t) d 1).filter fun r => some r ≠ regOf (s.th t) a) s t).andThen
        (if futDone s t a then .ok else .wait (.fut a)))
    (fun s t =>
      let st : Word := match latestOp s t (addrReg s t a) with
        | some i => (s.op i).status.zeroExtend 32
        | none => 0xFFFF
      ((s.writeDst t d (regsOf (s.th t) d 1) (outW st)).discardCopies (s.coreOf t)).retire t (extLen x)) s)

/-- `ftest` (R105): never blocks; true acquires as `fwait` does. -/
def execFtest (x : Option Ext) (p : BitVec 3) (a : Operand) (s : State) : Host.Outcome State Fault Refusal :=
  .next (runPlain x false (fun s t => futCheck [a] a [] s t)
    (fun s t =>
      let full := (regOf (s.th t) a).all (s.regFull t)
      ((if full then s.discardCopies (s.coreOf t) else s).setP t p full).retire t (extLen x)) s)

/-- `fcancel` (R105): a request to the engine; a command that has not started yet is removed (ENGINE_CANCEL is the
step in which the request reaches the engine). -/
def execFcancel (x : Option Ext) (a : Operand) (s : State) : Host.Outcome State Fault Refusal :=
  .next (runPlain x false (fun s t => futCheck [a] a [] s t)
    (fun s t =>
      (match latestOp s t (addrReg s t a) with
        | some i => s.modOp i fun o => { o with cancel := o.stage != OpStage.done }
        | none => s).retire t (extLen x)) s)

/-! ### Queues (R108) -/

/-- Entries waiting in a thread's queue: of a channel, HEAD and TAIL as the A-buffer holds them at issue, past what still waits in
FIFOs and write queues; of q0, less the words of a record that the Collie has popped in part. DESIGN CHOICE, log entry 75. -/
def queueLen (s : State) (t q : Nat) : Nat :=
  if q = 0 then 4 * (s.co (s.coreOf t)).q0.length - (s.th t).taken.length
  else match boundChan (s.th t) q with
    | none => 0
    | some off => ((s.chanAt (s.homeOf t) off).map chanLen).getD 0

def queueOf (o : Operand) : Nat := match o with | .q n => n.toNat | _ => 0

/-- `qlen` (R108). -/
def execQlen (x : Option Ext) (d a : Operand) (s : State) : Host.Outcome State Fault Refusal :=
  let chk (s : State) (t : Nat) : Check :=
    (opCheck s t [d, a] [] (regsOf (s.th t) d 1)).andThen (chanCheck s t [queueOf a])
  .next (withReads x d.isS (fun s t => if chk s t = .ok then chanSites s t [queueOf a] [] [] else [])
    (runPlain x d.isS chk
      (fun s t => (s.writeDst t d (regsOf (s.th t) d 1)
        (outW (BitVec.ofNat 32 (queueLen s t (queueOf a))))).retire t (extLen x))) s)

/-- `qbind` (R108): binds q1 to q3 to a channel's A offset, or unbinds it when a is z. -/
def execQbind (x : Option Ext) (d a : Operand) (s : State) : Host.Outcome State Fault Refusal :=
  .next (runPlain x false
    (fun s t => (opCheck s t [a] [src a] []).andThen
      (if (addrReg s t a).toNat % 16 = 0 then .ok else .trap 6 0 (pcAddr (addrReg s t a))))
    (fun s t => (s.modTh t fun y => { y with
      qb := y.qb.set (queueOf d - 1) (if a = .z then none else some (addrReg s t a).toNat) }).retire t (extLen x)) s)

end Sys2Proof.Machine
end

