-- ==== Sys2Proof/Machine/Launching.lean ====
section
/-! DEFINITION. Launch records: their fields (R261), the check when a launch reaches its queue (R262), and entering the
queue (R263, R266). -/

namespace Sys2Proof.Machine

/-! ### Fields of a launch record (R261) -/

def lLattice (w : List Word) : Bool := fld (lw w 0) 30 2 = 1
/-- Warp width W; the field of a cell's launch is WID all the same. -/
def lWidth (w : List Word) : Nat := 16 * 2 ^ fld (lw w 0) 28 2
/-- Register allocation A (R87). -/
def lAlloc (w : List Word) : Nat := 64 + 16 * fld (lw w 0) 24 4
def lPrio (w : List Word) : Nat := fld (lw w 0) 22 2
def lQueue (w : List Word) : Nat := fld (lw w 0) 16 6
def lPack (w : List Word) : Nat := fld (lw w 0) 12 4
/-- Warps per team. -/
def lWarps (w : List Word) : Nat := fld (lw w 0) 7 5 + 1
def lPair (w : List Word) : Bool := bit (lw w 0) 6
def lTeams (w : List Word) : Nat := (lw w 4).toNat * (lw w 5).toNat * (lw w 6).toNat
/-- Lane slots asked for per partition (R269). -/
def lSlots (w : List Word) : Nat := fld (lw w 7) 20 12 + 1
/-- Teams per claim. -/
def lClaim (w : List Word) : Nat := fld (lw w 7) 0 16 + 1

/-- Lane slots a core provides at an allocation (R87). -/
def coreSlots (alloc : Nat) : Nat := Nat.min 2048 (262144 / alloc)

/-- Warps of a pair team on the even core (R15), or of a team on its one core. -/
def evenWarps (w : List Word) : Nat := if lPair w then (lWarps w + 1) / 2 else lWarps w

/-- Teams that fit on one die when it is empty: each core, or each pair, holds as many as its slots allow. -/
def diePacks (w : List Word) : Nat :=
  let per := coreSlots (lAlloc w) / (evenWarps w * lWidth w)
  per * (if lPair w then 36 else 72)

def lDepA (w : List Word) : LObj := ⟨bit (lw w 10) 4, fld (lw w 10) 0 3, bit (lw w 10) 3, (lw w 8).toNat⟩
def lDepB (w : List Word) : LObj := ⟨bit (lw w 10) 10, fld (lw w 10) 6 3, bit (lw w 10) 9, (lw w 9).toNat⟩

/-- Translation of an object or image that a launch names, in its window. -/
def State.objXlate (s : State) (ctx : Word) (w : List Word) (ldie off : Nat) (acc : Access) :
    Except (BitVec 4) (Pte × Nat) := s.translate none ctx ldie (lNwin w + off) acc

def xlateOk (r : Except (BitVec 4) (Pte × Nat)) : Bool := match r with | .ok _ => true | .error _ => false

/-! ### The check of R262 -/

/-- Code 1: a reserved field or code. -/
def lReserved (w : List Word) : Bool :=
  2 ≤ fld (lw w 0) 30 2 || fld (lw w 0) 28 2 = 3 || 13 ≤ fld (lw w 0) 24 4 || lPack w = 1 || 13 ≤ lPack w ||
    fld (lw w 0) 0 5 ≠ 0 || fld (lw w 2) 16 16 ≠ 0 || fld (lw w 3) 16 16 ≠ 0 || fld (lw w 7) 16 4 ≠ 0 ||
    fld (lw w 10) 15 17 ≠ 0 || bit (lw w 10) 5 || fld (lw w 15) 16 16 ≠ 0

/-- A pack that does not divide the teams and the claim, or does not fit on one die (R262). -/
def lPackBad (w : List Word) : Bool :=
  lPack w ≠ 0 && (lTeams w % lPack w ≠ 0 || lClaim w % lPack w ≠ 0 || diePacks w < lPack w)

/-- Code 3: the grid fields for the kind, and the pack. -/
def lGridBad (w : List Word) : Bool :=
  if lLattice w then
    lw w 4 ≠ 0 || lw w 5 ≠ 0 || lw w 6 ≠ 0 || fld (lw w 7) 0 16 ≠ 0 || 2047 < fld (lw w 7) 20 12 || lPackBad w
  else
    lw w 4 = 0 || lw w 5 = 0 || lw w 6 = 0 || fld (lw w 7) 20 12 ≠ 0 || lPackBad w

/-- Code 4: lane slots, by the one formula of R262 for every KIND. -/
def lSlotsBad (w : List Word) : Bool := coreSlots (lAlloc w) < evenWarps w * lWidth w

/-- Code 5: alignment, the code window, and die fields of enabled objects. -/
def lAddrBad (s : State) (c : Ctx) (w : List Word) : Bool :=
  let obj (o : LObj) : Bool := o.en && (o.off % 16 ≠ 0 || s.ndie ≤ o.die)
  (lw w 1).toNat % 4 ≠ 0 || fld (lw w 2) 0 16 ≠ fld (c.words.getD 14 0) 0 16 ||
    obj (lDepA w) || obj (lDepB w) || obj (lDone w) ||
    (lLattice w && ((lw w 12).toNat % 16 ≠ 0 || (lw w 13).toNat % 16 ≠ 0))

/-- Code 6 when the launch reaches its queue. -/
def lObjBad (s : State) (ctx : Word) (w : List Word) : Bool :=
  let rd (o : LObj) : Bool := o.en && !xlateOk (s.objXlate ctx w o.die o.off .load)
  rd (lDepA w) || rd (lDepB w) || rd (lDone w) ||
    ((lDone w).en && !xlateOk (s.objXlate ctx w (lDone w).die (lDone w).off .store))

/-- The code of the first failing check, in the order of the table; 0 when the record passes. -/
def launchCode (s : State) (ctx : Word) (w : List Word) : Nat :=
  let c := s.ctx ctx
  let qmask := (c.words.getD 10 0).toNat + 2 ^ 32 * (c.words.getD 11 0).toNat
  if lReserved w then 1
  else if !qmask.testBit (lQueue w) then 2
  else if lGridBad w then 3
  else if lSlotsBad w then 4
  else if lAddrBad s c w then 5
  else if lObjBad s ctx w then 6
  else 0

/-- The launch reaches its queue: refused, or queued (R262, R263). -/
def State.enterLaunch (s : State) (i : Nat) (w : List Word) : State :=
  let ctx := (s.op i).ctx
  let code := launchCode s ctx w
  if code ≠ 0 then s.completeOp i 4 (BitVec.ofNat 32 (0x4C520000 + code))
  else
    let l : Launch := { Launch.blank with ctx := ctx, op := i, words := w, stage := .queued, order := s.seq }
    ({ s with launches := s.launches ++ [l] }.modOp i fun o => { o with record := w }).enterQueue i

/-- The launch whose operation this is. -/
def State.launchOfOp (s : State) (i : Nat) : Option Nat := s.launches.findIdx? fun l => l.op = i && l.stage != .complete

/-- Reading 16 bytes that a launch names meets the array's error protection, the walk's reads before it (R174). The flag says that the
context ended by it. -/
def State.nearEcc (s : State) (ctx : Word) (ldie va : Nat) : State × Bool :=
  let w := s.walkEcc none ctx ldie va
  let ended (s' : State) : Bool := (s.ctx ctx).live && !(s'.ctx ctx).live
  match s.translate none ctx ldie va .load with
  | .error _ => (w, ended w)
  | .ok (_, pa) =>
    let e := w.eccGuard (arrNear (s.pdie ldie)) pa 16 ctx (s.pdie ldie)
    (e.1, e.2 || ended e.1)

/-! ### Completion (R265) -/

/-- The arrival on DONE: `none` when it fails translation. DEDUCED, log entry 49. -/
def State.arriveDone (s : State) (l : Nat) : Option State :=
  let x := s.la l
  let o := lDone x.words
  if !o.en then some s
  else
    match s.objXlate x.ctx x.words o.die o.off .load, s.objXlate x.ctx x.words o.die o.off .store with
    | .ok _, .ok (_, pa) =>
      let d := s.pdie o.die
      let e := s.nearEcc x.ctx o.die (lNwin x.words + o.off)
      some (if e.2 then e.1 else e.1.putArrive d pa)
    | _, _ => none

/-- The completion step of a grid: the arrival on DONE first, then the launch completes with this status. -/
def State.completeGrid (s : State) (l : Nat) (status : BitVec 16) (detail : Word) : State :=
  let close (s : State) (status : BitVec 16) (detail : Word) : State :=
    (s.modLa l fun y => { y with stage := .complete }).completeOp (s.la l).op status detail
  match s.arriveDone l with
  | none => close s 4 0x4C520006
  | some s1 => close s1 status detail

end Sys2Proof.Machine
end

