-- ==== Sys2Proof/Machine/EngineIssue.lean ====
section
/-! DEFINITION. What the engines share: issuing a command, its queue, the acquire and release flags, and engine reads
and writes (R18, R58, R59, R209, R230, R241). -/

namespace Sys2Proof.Machine

/-! ### Issue -/

/-- Commands an engine's queue holds (R209, R230, R248); a launch waits in its launch queue. -/
def engineDepth (e : BitVec 4) : Nat :=
  match e.toNat with
  | 1 => Config.mxQueueDepth
  | 2 => Config.cpQueueDepth
  | 3 => Config.sortQueueDepth
  | 4 => Config.colQueueDepth
  | _ => 256

/-- A core's commands of one engine that have not started: those in a warp's FIFO take a place in the queue too. DESIGN CHOICE, log
entry 108. -/
def waitingOps (s : State) (c : Nat) (e : BitVec 4) : Nat :=
  (s.ops.filter fun o => o.core = some c && o.engine = e && (o.stage = .inFifo || o.stage = .queued)).length

/-- The engine takes a new command from the core: a slot and a place in its queue. -/
def cmdRoom (s : State) (c : Nat) (e : BitVec 4) : Bool :=
  engineFree s c e && decide (waitingOps s c e < engineDepth e)

/-- The command is issued: its handle, and its entry in the FIFO (R51, R58). -/
def State.issueCmd (s : State) (t : Nat) (o : Op) : State :=
  let i := s.ops.length
  let s1 := s.issueOp t o
  s1.toFifo t (s1.entry t .a 0 (.cmd i))

/-- The address in a v or s register. -/
def recAddr (s : State) (t : Nat) (a : Operand) : Nat := (addrReg s t a).toNat

/-- The checks of an instruction that names a record in the A-buffer: operands, alignment, its `n` bytes (R231, R246),
and room in the queue. DEDUCED, log entry 23. -/
def recCheck (e : BitVec 4) (n : Nat) (d a : Operand) (ea : Bool) (s : State) (t : Nat) : Check :=
  (opCheck s t [d, a] [src a ea] (regsOf (s.th t) d 1)).andThen
    (if recAddr s t a % 16 ≠ 0 then .trap 6 0 (pcAddr (addrReg s t a))
    else if bufSize .a < recAddr s t a + n then .trap 7 0 (pcAddr (addrReg s t a))
    else if cmdRoom s (s.coreOf t) e then .ok else .wait .retry)

/-- The action of such an instruction. -/
def recAct (e : BitVec 4) (x : Option Ext) (d a : Operand) (s : State) (t : Nat) : State :=
  let o := { newOp s t e (regsOf (s.th t) d 1) with
    arg := recAddr s t a, acq := ordAcq x, rel := ordRel x, scope := scopeOf x }
  orWait (cmdRoom s (s.coreOf t) e) s t ((s.issueCmd t o).retire t (extLen x))

/-! ### Flags (R58, R59) -/

/-- Scope acts for an engine flag as for a thread's attribute: team scope only for a pair team (R54). -/
def flagActs (s : State) (o : Op) (sc : BitVec 3) : Bool := scopeActs s o.tid sc

/-- The acquire flag's wait: the entries that were in the write queue have been performed at the scope, and at dom or
sys the issuing thread's peer stores are acknowledged (R58). -/
def acqReady (s : State) (o : Op) : Bool :=
  !(o.acq && flagActs s o o.scope) ||
    ((s.markedLeft o).isEmpty &&
      !(4 ≤ o.scope.toNat && peersPending s o.tid o.peers))

/-- A route entry that carries a write of operation `i`. -/
def routeOf (i : Nat) (r : Route) : Bool :=
  match r.body with
  | .write j _ _ | .peerWrite j _ _ | .hostWrite j _ _ => j = i
  | _ => false

/-- The release flag's wait: every write applied and acknowledged, H writes at sys scope alone, and every `mt` entry drained
(R59, R210). -/
def relReady (s : State) (i : Nat) : Bool :=
  let o := s.op i
  !(o.rel && flagActs s o o.scope) ||
    (!s.routes.any (fun r => routeOf i r && (o.scope = 5 || match r.dst with | .host _ => false | _ => true)) &&
      (s.co o.coreId).wq.all fun e => !o.sent.contains e.seq)

/-! ### Engine accesses to near memory (R58, R241) -/

/-- The record of an engine's translation fault (R153). -/
def engineFault (s : State) (i va : Nat) (kind : BitVec 4) (write : Bool) : FaultRec :=
  let o := s.op i
  let k := s.co o.coreId
  { va := va % 2 ^ 48, ctx := o.ctx, kind := kind + 8, access := if write then 1 else 0, core := BitVec.ofNat 7 k.core
    slot := o.slot.zeroExtend 12, idie := BitVec.ofNat 3 k.ldie, tid := none, op := some i, ended := false }

/-- The command halts at the faulting element, and its record enters the queue of the die whose tables failed. The entries that the
failed walk read meet the error protection (R174); where the context ends by it, nothing halts. -/
def State.haltOp (s : State) (i ldie va : Nat) (kind : BitVec 4) (write : Bool) : State :=
  let s := s.walkEcc none (s.op i).ctx ldie va
  if !(s.ctx (s.op i).ctx).live then s
  else (s.modOp i fun o => { o with stage := .faulted }).reportFault (s.pdie ldie) (engineFault s i va kind write)

/-- A write of operation `j` is on its way to some of these bytes of near memory: to a die of the device, or to one by its
own rank. -/
def writeDue (s : State) (j d pa n : Nat) : Bool :=
  s.routes.any fun r => match r.body, r.dst with
    | .write k ps _, .die l => k = j && s.pdie l = d && ps.any fun p => p.1 < pa + n && pa < p.1 + p.2.length
    | .peerWrite k p bs, .peer rank l => k = j && rank = s.rank && s.pdie l = d &&
        match s.translate none r.ctx l (paVa p) .store with
        | .ok (_, a) => a < pa + n && pa < a + bs.length
        | .error _ => false
    | _, _ => false

/-- What an engine read of near memory gives. -/
inductive EngineRead where
  | wait
  | fault (s : State)
  | ended (s : State)
  | ok (s : State) (bs : List Byte) (p : Pte)
deriving DecidableEq, Repr

/-- Engines read near memory, never a copy (R58). -/
def State.readNear (s : State) (i ldie va n : Nat) : EngineRead :=
  let ctx := (s.op i).ctx
  match s.translate none ctx ldie va .load with
  | .error k => .fault (s.haltOp i ldie va k false)
  | .ok (p, pa) =>
    let d := s.pdie ldie
    if writeDue s i d pa n then .wait
    else
      let x := (s.useXlate none ctx ldie va p).eccGuard (arrNear d) pa n ctx d
      if x.2 then .ended x.1 else .ok x.1 (s.near d pa n) p

/-- An engine read of a buffer through the core view. -/
def State.readBuf (s : State) (i c : Nat) (sp : Space) (off n : Nat) : EngineRead :=
  let ctx := (s.op i).ctx
  match s.coreView (s.op i).coreId c sp off n with
  | none => .wait
  | some bs =>
    let x := s.placeEcc (.buf c sp) off n ctx
    if x.2 then .ended x.1 else .ok x.1 bs ⟨0, 0, 0, 0, 0, false, false, false, false⟩

/-- Where a write lands, apart from the address. -/
inductive LocSpace where
  | buf (core : Nat) (sp : Space)
  | near (d : Nat)
  | peer (rank : BitVec 8) (ldie : Nat)
  | host (port : BitVec 1)
  | book (core : Nat)
deriving DecidableEq, Repr

/-- A range of locations. -/
structure Loc where
  sp : LocSpace
  addr : Nat
  len : Nat
deriving DecidableEq, Repr

def Loc.meets (a b : Loc) : Bool := a.sp = b.sp && a.addr < b.addr + b.len && b.addr < a.addr + a.len

/-- Near memory behind a virtual address of a logical die, for a context's write. -/
def nearLoc (s : State) (ctx : Word) (ldie va n : Nat) : List Loc :=
  match s.translate none ctx ldie va .store with
  | .ok (_, pa) => [⟨.near (s.pdie ldie), pa, n⟩]
  | .error _ => []

/-- The locations that a write of a context reaches. -/
def OutWrite.locs (s : State) (ctx : Word) (w : OutWrite) : List Loc :=
  match w with
  | .buf sp c off bytes _ _ => [⟨.buf c sp, off, bytes.length⟩]
  | .near l va bytes _ => nearLoc s ctx l va bytes.length
  | .peer pa bytes => if paRank pa = s.rank then nearLoc s ctx (paLdie pa) (paVa pa) bytes.length
      else [⟨.peer (paRank pa) (paLdie pa), paVa pa, bytes.length⟩]
  | .host p addr bytes => [⟨.host p, addr.toNat, bytes.length⟩]
  | .codebook c t _ => [⟨.book c, t, 1⟩]
  | .triple _ _ => []

/-- The logical core whose share of a multicast a write is; writes to one place are one share. -/
def OutWrite.share (s : State) (w : OutWrite) : Nat :=
  match w with
  | .buf _ c _ _ _ _ | .codebook c _ _ => (s.co c).core
  | _ => 0

/-- Of an operation's writes, number k may be the next: none before it goes to the same or a lower logical core (R234,
R235). -/
def outTurn (s : State) (outs : List OutWrite) (k : Nat) : Bool :=
  match outs[k]? with
  | some w => (outs.take k).all fun v => w.share s < v.share s
  | none => false

/-- A route entry of an engine instance. -/
def State.engineRoute (s : State) (i : Nat) (dst : Dst) (body : RouteBody) : State :=
  let o := s.op i
  s.pushRoute { s.mkRoute (.engine o.coreId o.engine) dst body o.ctx 0 with
    tid := s.threads.length, launch := s.launchOf o.tid }

/-- Bytes that a write to near memory has on the page that it begins on. -/
def firstPage (va : Nat) : Nat := 65536 - va % 65536

/-- The addresses that a write to near memory translates: its own, that of a second page which it reaches, and its object's. -/
def writeVas (va len : Nat) (obj : Option Nat) : List Nat :=
  va :: (if len ≤ firstPage va then [] else [va + firstPage va]) ++ obj.toList

/-- The translations that an engine's write of near memory needs are used; false when the command halts on a translation fault (R58,
R241), or the context has ended by an error in the tables (R174). -/
def State.readyNear (s : State) (i ldie : Nat) (vas : List Nat) (acc : Access) : State × Bool :=
  let ctx := (s.op i).ctx
  let bad : Option (Nat × BitVec 4) := vas.findSome? fun v => match s.translate none ctx ldie v acc with
    | .ok _ => none
    | .error k => some (v, k)
  match bad with
  | some x => (s.haltOp i ldie x.1 x.2 true, false)
  | none =>
    let s1 := vas.foldl (fun s1 v => match s.translate none ctx ldie v acc with
      | .ok (p, _) => s1.useXlate none ctx ldie v p
      | .error _ => s1) s
    (s1, (s1.ctx ctx).live)

/-- The physical address of a byte that an engine writes. -/
def State.writePa (s : State) (i ldie va : Nat) (acc : Access) : Nat :=
  match s.translate none (s.op i).ctx ldie va acc with
  | .ok (_, pa) => pa
  | .error _ => 0

/-- An instruction or command of the core has issued and still uses this generation of a table (R72). -/
def bookInUse (s : State) (c : Nat) (u : CbUse) : Bool :=
  s.threads.any (fun x => (s.wp x.warp).core = c && (x.popCb = some u || x.deferred.any fun d => d.cb = some u)) ||
    s.ops.any fun o => o.core = some c && o.stage != .done && (o.acb = some u || o.bcb = some u)

/-- What a pending write of an operation meets before it is made: the array's error protection, its translations, a codebook table
that is in use, a full write queue (R58, R72, R174, R210); false when it cannot be made. -/
def State.readyWrite (s : State) (i : Nat) (w : OutWrite) : State × Bool :=
  let o := s.op i
  match w with
  | .buf sp c off bytes _ _ =>
    let e := s.partEcc (.buf c sp) off bytes.length o.ctx
    (e.1, !e.2)
  | .near ldie va bytes obj => s.readyNear i ldie (writeVas va bytes.length obj) .store
  | .peer _ _ | .host _ _ _ => (s, true)
  | .codebook c table _ =>
    let k := (s.co c).book table
    (s, !bookInUse s c ⟨table, k.gen - 1, k.prev⟩)
  | .triple va _ =>
    let r := s.readyNear i (s.co o.coreId).ldie [va] .atomic
    (r.1, r.2 && decide ((r.1.co o.coreId).wq.length < Config.wqDepth))

/-- The write is made (R58, R210, R223, R236). -/
def State.putWrite (s : State) (i : Nat) (w : OutWrite) : State :=
  let o := s.op i
  match w with
  | .buf sp c off bytes tag obj =>
    let s1 := s.bufWriteTag c sp off bytes tag
    match obj with
    | none => s1
    | some (oc, a) =>
      let r := s1.countBar (.buf oc .a) a bytes.length o.ctx
      if r.2 then r.1.modOp i fun o => { o with overrun := true } else r.1
  | .near ldie va bytes obj =>
    let n := firstPage va
    let at_ (v : Nat) : Nat := s.writePa i ldie v .store
    let parts := (at_ va, bytes.take n) :: if bytes.length ≤ n then [] else [(at_ (va + n), bytes.drop n)]
    s.engineRoute i (.die ldie) (.write i parts (obj.map at_))
  | .peer pa bytes => s.engineRoute i (peerDst pa) (.peerWrite i pa bytes)
  | .host p addr bytes => s.engineRoute i (.host p) (.hostWrite i addr bytes)
  | .codebook c table entries =>
    let k := (s.co c).book table
    s.modCo c fun x => { x with books :=
      ⟨table, k.gen + 1, entries, k.cur⟩ :: x.books.filter fun (b : Codebook) => b.table ≠ table }
  | .triple va t =>
    let c := o.coreId
    let ldie := (s.co c).ldie
    let pa := s.writePa i ldie va .atomic
    let e := { s.entry o.tid .n pa (.red .mt [⟨pa, t, o.tid, (s.th o.tid).peerCount, false, false, 2, false⟩]) with scope := 2, home := c, die := s.pdie ldie }
    ((s.modCo c fun k => { k with wq := k.wq ++ [e] }).modOp i fun o => { o with sent := s.seq :: o.sent }).bump

/-- One pending write of an operation, when it can be made. -/
def State.makeWrite (s : State) (i : Nat) (w : OutWrite) : State × Bool :=
  let r := s.readyWrite i w
  if r.2 then (r.1.putWrite i w, true) else r

/-- Writes that are made in one step: what could keep one of them from being made is met before the first (R210, R255, R257). -/
def State.makeAll (s : State) (i : Nat) (ws : List OutWrite) : State × Bool :=
  let x := ws.foldl (fun (r : State × Bool) w => if r.2 then r.1.readyWrite i w else r) (s, true)
  if x.2 then (ws.foldl (fun s w => s.putWrite i w) x.1, true) else x

end Sys2Proof.Machine
end

