-- ==== Sys2Proof/Machine/Copy.lean ====
section
/-! DEFINITION. The copy engine and the sort unit: `xcp`, `xsort`, their records, checks, and the elements they move
(R230 to R246). -/

namespace Sys2Proof.Machine

/-- `xcp` (R231). -/
def execXcp (x : Option Ext) (d a : Operand) (ea : Bool) (s : State) : Host.Outcome State Fault Refusal :=
  .next (runPlain x d.isS (recCheck 2 64 d a ea) (recAct 2 x d a) s)

/-- `xsort` (R243). -/
def execXsort (x : Option Ext) (d a : Operand) (ea : Bool) (s : State) : Host.Outcome State Fault Refusal :=
  .next (runPlain x d.isS (recCheck 3 64 d a ea) (recAct 3 x d a) s)

/-- Source and destination offsets, in elements, of element number e: the innermost index varies fastest (R234). -/
def elemOffs (r : List Word) (e : Nat) : Int × Int :=
  let go := (List.range (rDims r)).foldl (fun (acc : Nat × Int × Int) d =>
    let i := acc.1 % dimExt r d
    (acc.1 / dimExt r d, acc.2.1 + i * dimSs r d, acc.2.2 + i * dimDs r d)) (e, 0, 0)
  (go.2.1, go.2.2)

/-- The least and greatest element offset of a stride function over the tile. -/
def offRange (r : List Word) (f : List Word → Nat → Int) : Int × Int :=
  (List.range (rDims r)).foldl (fun (acc : Int × Int) d =>
    let x := ((dimExt r d : Int) - 1) * f r d
    (acc.1 + min x 0, acc.2 + max x 0)) (0, 0)

def addr48 (p : Word × Word) : Nat := p.1.toNat + 2 ^ 32 * fld p.2 0 16

/-- An address pair keeps the layout of its space (R233, R166). -/
def pairOk (s : State) (sp : Nat) (p : Word × Word) : Bool :=
  match sp with
  | 0 | 1 | 2 => p.2 = 0
  | 3 => fld p.2 16 16 = 0
  | 4 => fld p.2 24 8 = 0 && fld p.2 16 5 = 0 && fld p.2 21 3 < s.ndie
  | 5 => paOk s (p.2 ++ p.1)
  | 6 => true
  | _ => false

/-- Every byte addressed lies in the buffer, or in 0 to 2^48 − 1 (R234). -/
def rangeOk (sp : Nat) (p : Word × Word) (lo hi : Int) (b : Nat) : Bool :=
  let base : Int := match sp with | 0 | 1 | 2 => p.1.toNat | _ => addr48 p
  let top : Int := match spaceBuf sp with | some q => bufSize q | none => 2 ^ 48
  sp = 6 || (0 ≤ base + b * lo && base + b * hi + b ≤ top)

/-- The first 64 bytes and the dimension entries of the record, in one step through the core view (R231). -/
def readRecord (s : State) (i : Nat) : Option (List Word) :=
  let o := s.op i
  match s.recordView o o.arg 64 with
  | none => none
  | some h =>
    let dims := fld (wOf (h.take 4)) 28 4
    let n := 64 + 16 * dims
    let n := if bufSize .a < o.arg + n then 64 else n
    (s.recordView o o.arg n).map (wordsOf (n / 4))

/-- HOSTOK of the operation's context (R260). -/
def hostOk (s : State) (ctx : Word) : Bool := bit ((s.ctx ctx).words.getD 1 0) 30

/-- Code 1 of the header and the dimension entries, for copies and collectives alike. -/
def headerBad (r : List Word) : Bool :=
  rDims r = 0 || 12 < rDims r || 5 ≤ rEsz r || 6 ≤ (rScope r).toNat ||
    fld (lw r 0) 0 7 ≠ 0 || fld (lw r 7) 8 24 ≠ 0 || rSsp r = 7 || rDsp r = 7 || rBkind r = 3 ||
    lw r 9 ≠ 0 || lw r 10 ≠ 0 || lw r 11 ≠ 0 ||
    (List.range (rDims r)).any fun d => dimExt r d = 0 || lw r (19 + 4 * d) ≠ 0

/-- A flag without a scope. -/
def flagBad (r : List Word) : Bool := (rAcq r || rRel r) && rScope r = 0

/-- The space combinations of R233, R235, R236 and R238. -/
def comboBad (s : State) (ctx : Word) (r : List Word) : Bool :=
  let multi := !(rMask r).isEmpty
  let bufD := rDsp r ≤ 2
  (rSsp r = 2 && (rDsp r = 5 || rDsp r = 6)) || ((rSsp r = 6 || rDsp r = 6) && !hostOk s ctx) ||
    (if rKind r then
      rDims r ≠ 1 || rEsz r ≠ 1 || dimSs r 0 ≠ 1 || rDsp r ≠ 0 || rBkind r ≠ 0 || rTag r ≠ 0 || dimExt r 0 % 16 ≠ 0 ||
        !(rSsp r = 0 || rSsp r = 3 || rSsp r = 4)
    else
      (multi && !bufD) || (rBkind r = 1 && !bufD) || (rBkind r = 2 && !(rDsp r = 3 || rDsp r = 4)))

/-- First table and number of tables of a codebook load (R238). -/
def cbFirst (r : List Word) : Nat := fld (lw r 3) 0 6
def cbTables (r : List Word) : Nat := dimExt r 0 / 16

/-- The record fault of a copy (R240); 0 for none. -/
def copyCode (s : State) (ctx : Word) (arg : Nat) (r : List Word) : Nat :=
  let sr := offRange r dimSs
  let dr := offRange r dimDs
  let b := rB r
  if headerBad r || flagBad r || lw r 12 ≠ 0 || lw r 13 ≠ 0 || lw r 14 ≠ 0 || lw r 15 ≠ 0 || 2 ^ 40 < b * rCount r then
    (if bufSize .a < arg + 64 + 16 * rDims r && 1 ≤ rDims r && rDims r ≤ 12 then 3 else 1)
  else if comboBad s ctx r then 2
  else if !rangeOk (rSsp r) (rSaddr r) sr.1 sr.2 b || (!rKind r && !rangeOk (rDsp r) (rDaddr r) dr.1 dr.2 b) ||
      (rBkind r = 1 && bufSize .a < rBoff r + 16) || (rKind r && 64 < cbFirst r + cbTables r) then 3
  else if (rSaddr r).1.toNat % b ≠ 0 || (!rKind r && (rDaddr r).1.toNat % b ≠ 0) || rBoff r % 16 ≠ 0 then 4
  else if !pairOk s (rSsp r) (rSaddr r) || (if rKind r then lw r 4 ≠ 0 || 64 ≤ (lw r 3).toNat
      else !pairOk s (rDsp r) (rDaddr r)) then 5
  else 0

/-! ### Elements (R234 to R237) -/

/-- Where an address pair points, at an element offset. -/
inductive Where_ where
  | buf (sp : Space) (off : Nat)
  | near (ldie va : Nat)
  | peer (pa : BitVec 64)
  | host (a : BitVec 64)
deriving DecidableEq, Repr

def whereAt (own : Nat) (sp : Nat) (p : Word × Word) (byteOff : Int) : Where_ :=
  match spaceBuf sp with
  | some q => .buf q ((p.1.toNat : Int) + byteOff).toNat
  | none =>
    let va := ((addr48 p : Int) + byteOff).toNat
    match sp with
    | 3 => .near own va
    | 4 => .near (fld p.2 21 3) va
    | 5 => .peer ((p.2.extractLsb' 16 16 : BitVec 16) ++ BitVec.ofNat 48 va)
    | _ => .host (BitVec.ofNat 64 (((p.2 ++ p.1 : BitVec 64).toNat : Int) + byteOff).toNat)

/-- The tag that a source location carries (R237). -/
def srcTag (s : State) (o : Op) (src : Where_) (p : Pte) : Tag :=
  match src with
    | .near _ _ => if 1 ≤ p.fmt.toNat ∧ p.fmt.toNat ≤ 6 then Tag.ofCode (p.fmt.setWidth 3) else .raw
    | .buf .a off => granTag (s.co (s.homeOf o.tid)).atags off
    | .buf .w off => granTag (s.co o.coreId).wtags off
    | _ => .raw

/-- The tag that a written granule takes: TAG, or with TAG 7 the source's (R237). -/
def tagFor (r : List Word) (source : Tag) : Tag :=
  if rTag r ≠ 7 then Tag.ofCode (BitVec.ofNat 3 (rTag r)) else source

/-- The writes of one element to its receivers (R234 to R236). `e` is its number in the tile, `dOff` its destination
offset in elements. -/
def elemWrites (s : State) (i : Nat) (r : List Word) (dOff : Int) (bs : List Byte) (t : Tag) : List OutWrite :=
  let o := s.op i
  let own := (s.co o.coreId).ldie
  match whereAt own (rDsp r) (rDaddr r) (rB r * dOff) with
  | .buf sp off => (receivers s o sp r).map fun c =>
      .buf sp c off bs (if sp = .c then none else some t) (if rBkind r = 1 then some (c, rBoff r) else none)
  | .near ldie va => [.near ldie va bs (if rBkind r = 2 then some (s.nwin o.tid + rBoff r) else none)]
  | .peer pa => [.peer pa bs]
  | .host a => [.host (rHport r) a bs]

/-! ### `xsort` (R244, R245) -/

def sPay (r : List Word) : Bool := bit (lw r 0) 24
def sKeys (r : List Word) : Nat := fld (lw r 0) 0 24
def sExp (r : List Word) : Nat := fld (lw r 1) 0 13
def sBytes (r : List Word) : Nat := fld (lw r 14) 0 17

/-- The six pairs in order: KEYS, PERM, OFFS, CNTS, PSRC, PDST. -/
def sPair (r : List Word) (k : Nat) : Word × Word := (lw r (2 + 2 * k), lw r (3 + 2 * k))
def sFar (r : List Word) (k : Nat) : Bool := bit (lw r 1) (20 + k)

/-- Logical die and virtual address of a pair's base. -/
def sSite (own : Nat) (r : List Word) (k : Nat) : Nat × Nat :=
  (if sFar r k then fld (sPair r k).2 21 3 else own, addr48 (sPair r k))

/-- Bytes of each array at its full size. -/
def sSize (r : List Word) (k : Nat) : Nat :=
  match k with
  | 0 | 1 => 4 * sKeys r
  | 2 | 3 => 4 * sExp r
  | _ => sKeys r * sBytes r

def sPairOk (s : State) (r : List Word) (k : Nat) : Bool :=
  let h := (sPair r k).2
  fld h 24 8 = 0 && fld h 16 5 = 0 && (if sFar r k then fld h 21 3 < s.ndie else fld h 21 3 = 0)

/-- Two arrays share a byte: in the same space and on the same die (R245). -/
def sMeets (own : Nat) (r : List Word) (j k : Nat) : Bool :=
  let a := sSite own r j
  let c := sSite own r k
  0 < sSize r j && 0 < sSize r k && sFar r j = sFar r k && a.1 = c.1 && overlapNat a.2 (sSize r j) c.2 (sSize r k)
where
  overlapNat (a n b m : Nat) : Bool := a < b + m && b < a + n

/-- The record fault of a sort (R245); 0 for none. -/
def sortCode (s : State) (own : Nat) (r : List Word) : Nat :=
  let ks : List Nat := if sPay r then [0, 1, 2, 3, 4, 5] else [0, 1, 2, 3]
  let outs : List Nat := if sPay r then [1, 2, 3, 5] else [1, 2, 3]
  if fld (lw r 0) 25 7 ≠ 0 || fld (lw r 1) 26 6 ≠ 0 || fld (lw r 1) 13 7 ≠ 0 || fld (lw r 14) 17 15 ≠ 0 || lw r 15 ≠ 0 ||
      sExp r = 0 || 4096 < sExp r ||
      (if sPay r then sBytes r < 16 || 65536 < sBytes r || sBytes r % 16 ≠ 0
      else sBytes r ≠ 0 || (sPair r 4) ≠ (0, 0) || (sPair r 5) ≠ (0, 0) || sFar r 4 || sFar r 5) then 1
  else if ks.any fun k => !sPairOk s r k then 2
  else if ks.any fun k => 2 ^ 48 < (sSite own r k).2 + sSize r k then 3
  else if ks.any fun k => (sSite own r k).2 % (if k < 4 then 4 else 16) ≠ 0 then 4
  else if (outs.any fun j => outs.any fun k => j < k && sMeets own r j k) ||
      (sPay r && outs.any fun j => sMeets own r j 4) then 5
  else 0

/-- The keys read so far. -/
def sKeyList (o : Op) : List Nat := (o.got.take (sKeys o.record)).map leNat

def countOf (ks : List Nat) (e : Nat) : Nat := (ks.filter fun k => k = e).length

/-- Keys below e: the offset of e's segment. -/
def offsetOf (ks : List Nat) (e : Nat) : Nat := (ks.filter fun k => k < e).length

/-- Keys of NEXP or more. -/
def droppedOf (ks : List Nat) (n : Nat) : Nat := (ks.filter fun k => n ≤ k).length

/-- The place of token t in the sorted order: stable (R245). -/
def rankOfKey (ks : List Nat) (t : Nat) : Nat :=
  let k := ks.getD t 0
  offsetOf ks k + countOf (ks.take t) k

end Sys2Proof.Machine
end

