-- ==== Sys2Proof/Machine/Collective.lean ====
section
/-! DEFINITION. The collective engine: `xcol`, its record and checks, groups, and the fold (R248 to R259). -/

namespace Sys2Proof.Machine

/-- `xcol` (R248). -/
def execXcol (x : Option Ext) (d a : Operand) (ea : Bool) (s : State) : Host.Outcome State Fault Refusal :=
  .next (runPlain x d.isS (recCheck 4 64 d a ea) (recAct 4 x d a) s)

/-- Grid coordinate g of a rank. -/
def gridAt (r : List Word) (rank g : Nat) : Nat :=
  (rank - cRbase r) / ((List.range g).map (cExt r)).foldl (· * ·) 1 % cExt r g

/-- A member's group position: its index over the GMASK dimensions, the lowest fastest. -/
def groupPos (r : List Word) (rank : Nat) : Nat :=
  ((List.range 4).foldl (fun (acc : Nat × Nat) g =>
    if inGroup r g then (acc.1 + gridAt r rank g * acc.2, acc.2 * cExt r g) else acc) (0, 1)).1

/-- The element size that OP fixes; copy takes any. -/
def opEsz (r : List Word) : Bool :=
  match cOp r with
  | 0 => true
  | 1 => rEsz r = 1
  | 3 => rEsz r = 4
  | _ => rEsz r = 2

/-- The outermost extent. -/
def outerExt (r : List Word) : Nat := dimExt r (rDims r - 1)

/-- The record with its outermost extent cut to the part a member holds. -/
def partRec (r : List Word) : List Word :=
  r.set (16 + 4 * (rDims r - 1)) (BitVec.ofNat 32 (outerExt r / groupSize r))

/-- The record faults of R259, but for disagreement (code 8), which the other members' commands show; 0 for none. A tile that
the group does not divide has no parts whose range could be tested: that is code 7. -/
def colCode (s : State) (arg : Nat) (r : List Word) : Nat :=
  let n := groupSize r
  let b := rB r
  let inRange (sp : Nat) (p : Word × Word) (f : List Word → Nat → Int) (part : Bool) : Bool :=
    let x := offRange (if part then partRec r else r) f
    (part && outerExt r % n ≠ 0) || rangeOk sp p x.1 x.2 b
  let opBad := 6 ≤ cOp r || 4 ≤ cMode r || cEtype r = 3
  if headerBad r || opBad || fld (lw r 12) 0 3 ≠ 0 || fld (lw r 14) 5 11 ≠ 0 || cGmask r = 0 || fld (lw r 14) 0 5 < 12 ||
      24 < fld (lw r 14) 0 5 then
    (if bufSize .a < arg + 64 + 16 * rDims r && 1 ≤ rDims r && rDims r ≤ 12 then 3 else 1)
  else if rKind r || !([0, 1, 3, 4].contains (rSsp r)) || !([0, 3, 4].contains (rDsp r)) || !(rMask r).isEmpty ||
      flagBad r || (rBkind r = 1 && rDsp r ≠ 0) || (rBkind r = 2 && rDsp r = 0) || rHport r ≠ 0 || (rDsp r ≠ 0 && rTag r ≠ 0) ||
      !opEsz r || (if cMode r ≤ 1 then cOp r = 0 else cOp r ≠ 0) || (cMode r ≠ 3 && cRoot r ≠ 0) ||
      (cOp r < 4 && cEtype r ≠ 0) then 2
  else if !inRange (rSsp r) (rSaddr r) dimSs (cMode r = 2) || !inRange (rDsp r) (rDaddr r) dimDs (cMode r = 1) ||
      (cBmap r ≠ 0xFFFFFFFF && bufSize .a < (cBmap r).toNat + (chunkCount r + 7) / 8) ||
      (rBkind r = 1 && bufSize .a < rBoff r + 16) then 3
  else if (rSaddr r).1.toNat % b ≠ 0 || (rDaddr r).1.toNat % b ≠ 0 || rBoff r % 16 ≠ 0 ||
      (cBmap r ≠ 0xFFFFFFFF && (cBmap r).toNat % 16 ≠ 0) then 4
  else if !pairOk s (rSsp r) (rSaddr r) || !pairOk s (rDsp r) (rDaddr r) then 5
  else if 256 < gridSize r || 255 < cRbase r + gridSize r - 1 ||
      ((List.range (gridSize r)).any fun k => domNdie s (BitVec.ofNat 8 (cRbase r + k)) = 0) ||
      s.rank.toNat < cRbase r || cRbase r + gridSize r ≤ s.rank.toNat then 6
  else if ((cMode r = 1 || cMode r = 2) && outerExt r % n ≠ 0) || (cMode r = 3 && n ≤ cRoot r) ||
      65536 < chunkCount r then 7
  else 0

/-! ### The fold (R252, R253) -/

/-- One combine of two elements, and its flags. -/
def combElem (op et : Nat) (acc x : List Byte) : List Byte × Flags :=
  let a := wOf acc
  let b := wOf x
  match op with
  | 1 =>
    let y := fAdd .fp32 (bf (lo16 a)) (bf (lo16 b))
    let z := convert .bf16 (f32 (BitVec.ofNat 32 y.1))
    (leBytes 2 z.1, y.2 ||| z.2)
  | 2 => let y := add32 a b; (wBytes y.1, y.2)
  | 3 =>
    let y := blendT (Triple.ofWords (wordsOf 3 acc)) (Triple.ofWords (wordsOf 3 x))
    ((y.1.words ++ [0]).flatMap wBytes, y.2)
  | 4 => if et = 0 then (wBytes (minS a b), 0) else if et = 1 then (wBytes (minU a b), 0)
    else let y := fMinMax false a b; (wBytes y.1, y.2)
  | _ => if et = 0 then (wBytes (maxS a b), 0) else if et = 1 then (wBytes (maxU a b), 0)
    else let y := fMinMax true a b; (wBytes y.1, y.2)

/-- The members in ascending group position: the accumulator is always the first operand. -/
def foldElems (op et : Nat) : List (List Byte) → List Byte × Flags
  | [] => ([], 0)
  | x :: xs => xs.foldl (fun (r : List Byte × Flags) y =>
      let z := combElem op et r.1 y
      (z.1, r.2 ||| z.2)) (x, 0)

/-- The part q and the tuple within it, for element e of the full tile. -/
def partOf (r : List Word) (e : Nat) : Nat × Nat :=
  let p := rCount r / groupSize r
  (e / p, e % p)

/-- The member reads its own source for element e of the full tile: the source element offset, if it does. -/
def ownSource (r : List Word) (pos e : Nat) : Option Int :=
  match cMode r with
  | 0 | 1 => some (elemOffs r e).1
  | 2 => if (partOf r e).1 = pos then some (elemOffs (partRec r) (partOf r e).2).1 else none
  | _ => if cRoot r = pos then some (elemOffs r e).1 else none

/-- What the other members bring for an element, in ascending position: every other member's, or the one's. -/
def othersBytes (r : List Word) (pos e : Nat) : Nat :=
  match cMode r with
  | 0 | 1 => (groupSize r - 1) * rB r
  | _ => if (ownSource r pos e).isSome then 0 else rB r

/-- The tag that the element takes is that of another member's source, whose code that member sends behind the element (R237).
DESIGN CHOICE, log entry 87. -/
def farTag (r : List Word) (pos e : Nat) : Bool := rTag r = 7 && 2 ≤ cMode r && (ownSource r pos e).isNone

/-- Cut bytes into elements. -/
def cut (b : Nat) : Nat → List Byte → List (List Byte)
  | 0, _ => []
  | n + 1, bs => bs.take b :: cut b n (bs.drop b)

/-- The value of an element: the fold of all members, or the one source. -/
def colValue (r : List Word) (pos : Nat) (own : Option (List Byte)) (others : List Byte) : List Byte × Flags :=
  if cMode r ≤ 1 then
    let xs := cut (rB r) (groupSize r - 1) others
    foldElems (cOp r) (cEtype r) (xs.take pos ++ own.toList ++ xs.drop pos)
  else match own with
    | some b => (b, 0)
    | none => (others.take (rB r), 0)

/-- The destination of element e at this member: its number in the destination tile. -/
def destElem (r : List Word) (pos e : Nat) : Option Nat :=
  if cMode r = 1 then (if (partOf r e).1 = pos then some (partOf r e).2 else none) else some e

/-- Elements of the destination tile that chunk c holds, whole or in part: its bytes in tile order. -/
def chunkBytes (r : List Word) (vals : List (List Byte)) (c : Nat) : List Byte :=
  ((vals.flatMap id).drop (c * cChunk r)).take (cChunk r)

/-- The bitmap of the chunks written, from bit 0 of its first byte (R257). -/
def bitmapOf (n : Nat) (written : List Nat) : List Byte :=
  (List.range ((n + 7) / 8)).map fun k =>
    BitVec.ofNat 8 ((List.range 8).map fun j => if written.contains (8 * k + j) then 2 ^ j else 0).sum

end Sys2Proof.Machine
end

