-- ==== Sys2Proof/Machine/Control.lean ====
section
/-! DEFINITION. Control transfer, exit, meeting registers, the window base and hardware loops (R86, R88, R91 to R94,
R102 to R104). -/

namespace Sys2Proof.Machine

/-- The target of a BR word (R33). -/
def brTarget (pc : Word) (off : BitVec 21) : Word := pc + (off.signExtend 32 <<< 2)

/-- `jmp` (R93). -/
def execJmp (off : BitVec 21) (s : State) : Host.Outcome State Fault Refusal :=
  .next (runPlain none false (fun _ _ => .ok) (fun s t => s.jump t (brTarget (s.th t).pc off) 4) s)

/-- `brp`: branch when p = nz (R93). -/
def execBrp (p : BitVec 3) (nz : Bool) (off : BitVec 21) (s : State) : Host.Outcome State Fault Refusal :=
  .next (runPlain none false (fun _ _ => .ok)
    (fun s t => if (s.th t).p.getLsbD p.toNat = nz then s.jump t (brTarget (s.th t).pc off) 4 else s.retire t 4) s)

/-- `call`: lnk ← PC + 4 (R93). -/
def execCall (off : BitVec 21) (s : State) : Host.Outcome State Fault Refusal :=
  .next (runPlain none false (fun _ _ => .ok)
    (fun s t => (s.modTh t fun x => { x with lnk := x.pc + 4 }).jump t (brTarget (s.th t).pc off) 4) s)

/-- `jmpi`: an indirect jump per lane; a target with low bits set is the instruction-address fault (R93). Every lane's
target is read before any link is written. The link is PC + 4 as R93 writes it, with a prefix too. DEDUCED, log entry 17. -/
def execJmpi (w : RF) (_eb : Bool) (s : State) : Host.Outcome State Fault Refusal :=
  let len := extLen w.x
  let target (t : Nat) : Word := ((regOf (s.th t) w.a).map (s.regVal t)).getD 0
  let on := s.issuing.filter fun t => guardOn w.x (s.th t)
  .next (runPlain w.x false
    (fun s t => (opCheck s t [w.d, w.a] [src w.a w.ea] (regsOf (s.th t) w.d 1)).andThen
      (if (target t).toNat % 4 = 0 then .ok else .trap 4 0 (pcAddr (target t))))
    (fun s t =>
      let link := (s.th t).pc + 4
      let s1 := if w.d.isS && leaderOf s on t != t then s
        else s.writeDst t w.d (regsOf (s.th t) w.d 1) (outW link)
      s1.jump t (target t) len) s)

/-- `nop` (R94). -/
def execNop (x : Option Ext) (s : State) : Host.Outcome State Fault Refusal :=
  .next (runPlain x false (fun _ _ => .ok) (fun s t => s.retire t (extLen x)) s)

/-- `ret`: PC ← lnk (R94). -/
def execRet (x : Option Ext) (s : State) : Host.Outcome State Fault Refusal :=
  .next (runPlain x false (fun _ _ => .ok) (fun s t => s.jump t (s.th t).lnk (extLen x)) s)

/-- `yield`: nothing more issues until the next regrouping (R94). -/
def execYield (x : Option Ext) (s : State) : Host.Outcome State Fault Refusal :=
  .next (runPlain x false (fun _ _ => .ok) (fun s t => (s.retire t (extLen x)).setStatus t .yielded) s)

/-- `brk`: the breakpoint trap; RPC is the instruction that follows (R94, R271). -/
def execBrk (x : Option Ext) (s : State) : Host.Outcome State Fault Refusal :=
  .next (runPlain x false (fun _ _ => .ok)
    (fun s t => s.takeTrap t 0x05000000 (pcAddr (s.th t).pc) ((s.th t).pc + BitVec.ofNat 32 (extLen x))) s)

/-- `meet`: MEET ← target (R92). -/
def execMeet (off : BitVec 21) (s : State) : Host.Outcome State Fault Refusal :=
  .next (runPlain none false (fun _ _ => .ok)
    (fun s t => (s.modTh t fun x => { x with meet := some (brTarget x.pc off) }).retire t 4) s)

/-- A thread held at p with MEET p (R91). -/
def isHeld (th : Thread) : Bool :=
  th.meet == some th.pc && match th.status with | .ready | .yielded => true | _ => false

/-- `wbase` (R88): the sum is formed on the register read as a two's-complement integer (DEDUCED, log entry 19),
and must be a multiple of 16 in range. -/
def execWbase (x : Option Ext) (a : Operand) (imm : BitVec 11) (s : State) : Host.Outcome State Fault Refusal :=
  let k : Int := match x with
    | some e => (e.immx ++ imm : BitVec 24).toInt
    | none => imm.toInt
  let base (s : State) (t : Nat) : Int := (((regOf (s.th t) a).map (s.regVal t)).getD 0).toInt + k
  .next (runPlain x false
    (fun s t => (opCheck s t [a] [src a] []).andThen
      (if 0 ≤ base s t ∧ base s t % 16 = 0 ∧ base s t + 64 ≤ (s.th t).v.length then .ok else trapHere s t 2 0x103))
    (fun s t => (s.modTh t fun y => { y with wbase := (base s t).toNat }).retire t (extLen x)) s)

/-! ### Hardware loops -/

/-- The named word has the field that a step names (R34): d, a, b, or the immediate or offset. -/
def hasField (w : Word) (f : BitVec 2) : Bool :=
  let op := majorOf w
  let none_ := op = 0 || op = 0x7F || (0x64 ≤ op && op ≤ 0x67) || op = 0x7E || op = 0x4D || op = 0x4E ||
    op = 0x40 || op = 0x41 || op = 0x42 || op = 0x45
  let i18 := op = 0x1E || op = 0x1F
  let imm := (0x18 ≤ op && op ≤ 0x1D) || (0x50 ≤ op && op ≤ 0x57) || op = 0x5D ||
    [0x23, 0x38, 0x39, 0x3C, 0x4F, 0x61, 0x78, 0x7A, 0x7B].contains op
  let rf := [0x20, 0x2C, 0x2D, 0x34, 0x36, 0x37, 0x3B, 0x3D, 0x3F, 0x43, 0x44, 0x46, 0x4B, 0x4C, 0x5C, 0x60, 0x62,
    0x63, 0x68, 0x69, 0x6F, 0x71, 0x72, 0x76, 0x79, 0x7D].contains op
  if none_ then false
  else match f with
    | 0 => true
    | 1 => !i18
    | 2 => !i18 && !imm && !rf
    | _ => imm

/-- What examining an L word's following words gives: its steps, an illegal word, or a fetch fault. -/
inductive LoopLook where
  | ok (steps : List LoopStep)
  | illegal
  | fault (kind : BitVec 4) (va : Nat)
deriving DecidableEq, Repr

/-- Fetch and examine the step words from `pc` on, and the body words they name (R34). Where one makes the L word illegal and the
fetch of another fails, the first of them in this order decides. DESIGN CHOICE, log entry 91. -/
def lookSteps (s : State) (t : Nat) (first : Word) (lenm1 : Nat) : Nat → Word → List LoopStep → LoopLook
  | 0, _, acc => .ok acc.reverse
  | n + 1, pc, acc =>
    match s.fetchWord t pc with
    | .error (k, va) => .fault k va
    | .ok (w, _) =>
      match decodeLStep w with
      | .error _ => .illegal
      | .ok l =>
        if lenm1 < l.idx.toNat then .illegal
        else
          match s.fetchWord t (first + BitVec.ofNat 32 (4 * l.idx.toNat)) with
          | .error (k, va) => .fault k va
          | .ok (b, _) =>
            if hasField b l.fld then lookSteps s t first lenm1 n (pc + 4) (⟨l.idx.toNat, l.fld, l.inc⟩ :: acc)
            else .illegal

/-- The new body lies within the body of every other active loop (R102). -/
def loopNests (th : Thread) (lc : Nat) (first last : Word) : Bool :=
  ((List.range th.lc.length).zip th.lc).all fun x => x.1 = lc || match x.2.desc with
    | none => true
    | some d => d.first.toNat ≤ first.toNat && last.toNat ≤ d.last.toNat

/-- The words that an L word's examination fetches: each step word, and the body word it names. An illegal word or a fetch fault
ends it. -/
def lookPcs (s : State) (t : Nat) (first : Word) (lenm1 : Nat) : Nat → Word → List Word
  | 0, _ => []
  | n + 1, pc => pc :: match s.fetchWord t pc with
    | .error _ => []
    | .ok (w, _) => match decodeLStep w with
      | .error _ => []
      | .ok l =>
        if lenm1 < l.idx.toNat then []
        else
          let body := first + BitVec.ofNat 32 (4 * l.idx.toNat)
          body :: match s.fetchWord t body with
            | .error _ => []
            | .ok (b, _) => if hasField b l.fld then lookPcs s t first lenm1 n (pc + 4) else []

/-- Whatever comes of the L word, the lines it fetched stay in the instruction cache (R25, R34). -/
def State.cacheLook (s : State) (first : State → Nat → Word) (lenm1 n : Nat) : State :=
  match s.issuing with
  | [] => s
  | t :: _ => (lookPcs s t (first s t) lenm1 n ((s.th t).pc + 4)).foldl (fun s pc => s.cacheLine t pc) s

/-- `loop` (R102): opens a hardware loop, or passes its body when the count is 0; a loop that is active on the counter then ends
(DESIGN CHOICE, log entry 84). -/
def execLoop (lc : BitVec 2) (lenm1 : BitVec 8) (cnt : BitVec 7) (i : Bool) (nstep : BitVec 3) (s : State) :
    Host.Outcome State Fault Refusal :=
  let o := Operand.ofCode cnt
  let count (s : State) (t : Nat) : Word :=
    if i then cnt.zeroExtend 32 else ((regOf (s.th t) o).map (s.regVal t)).getD 0
  let first (s : State) (t : Nat) : Word := (s.th t).pc + 4 + BitVec.ofNat 32 (4 * nstep.toNat)
  let last (s : State) (t : Nat) : Word := first s t + BitVec.ofNat 32 (4 * lenm1.toNat)
  let look (t : Nat) := lookSteps s t (first s t) lenm1.toNat nstep.toNat ((s.th t).pc + 4) []
  let s1 := s.cacheLook first lenm1.toNat nstep.toNat
  .next (if s.issuing.any fun t => !s1.live t then s1 else runPlain none false
    (fun s t =>
      (if !loopNests (s.th t) lc.toNat (first s t) (last s t) then trapHere s t 1 0
      else match look t with
        | .fault k va => .park k va .fetch []
        | .illegal => trapHere s t 1 0
        | .ok _ => .ok : Check).andThen
      (if i then .ok else opCheck s t [] [src o] []))
    (fun s t =>
      let n := count s t
      let steps := match look t with | .ok st => st | _ => []
      if n = 0 then
        s.modTh t fun x => { x with
          lc := x.lc.modify lc.toNat fun r => { r with n := 0, desc := none }, pc := last s t + 4, status := x.status.to .ready }
      else
        s.modTh t fun x => { x with
          lc := x.lc.set lc.toNat
            ⟨n, some ⟨first s t, last s t, steps, 0⟩, (x.lc.map LoopReg.seq).foldl max 0 + 1⟩
          pc := first s t, status := x.status.to .ready }) s1)

end Sys2Proof.Machine
end

