-- ==== Sys2Proof/Machine/Masks.lean ====
section
/-! DEFINITION. Lane masks (R95, R96). -/

namespace Sys2Proof.Machine

/-- Bits of the lanes a warp has. -/
def laneBits (w : Warp) : BitVec 64 := BitVec.ofNat 64 (2 ^ w.width - 1)

/-- The live lanes of a warp. -/
def liveMask (s : State) (w : Warp) : BitVec 64 :=
  w.threads.foldl (fun b t => if s.live t then b ||| (1#64 <<< (s.th t).lane) else b) 0

def maskVal (w : Warp) (m : MaskReg) : BitVec 64 := w.m.getD m.val 0

/-- A mask write; bits of lanes the warp does not have are discarded (R95). -/
def State.setMask (s : State) (t : Nat) (m : MaskReg) (b : BitVec 64) : State :=
  s.modWp (s.th t).warp fun w => { w with m := w.m.set m.val (b &&& laneBits w) }

/-- A mask instruction: `once` per bundle and warp, or per executing lane. -/
def runMask (x : Option Ext) (once : Bool) (f : State → Nat → State) (s : State) :
    Host.Outcome State Fault Refusal :=
  .next (runPlain x once (fun _ _ => .ok) (fun s t => (f s t).retire t (extLen x)) s)

/-- `join`: sets each executing lane's bit. -/
def execJoin (x : Option Ext) (d : MaskReg) (s : State) : Host.Outcome State Fault Refusal :=
  runMask x false (fun s t => s.setMask t d (maskVal (s.wpOf t) d ||| (1#64 <<< (s.th t).lane))) s

/-- `leave`: clears each executing lane's bit. -/
def execLeaveMask (x : Option Ext) (d : MaskReg) (s : State) : Host.Outcome State Fault Refusal :=
  runMask x false (fun s t => s.setMask t d (maskVal (s.wpOf t) d &&& ~~~(1#64 <<< (s.th t).lane))) s

/-- `mwait`: the thread waits on the mask until MWAIT_RELEASE (R96). -/
def execMwait (x : Option Ext) (d : MaskReg) (s : State) : Host.Outcome State Fault Refusal :=
  .next (runPlain x false (fun _ _ => .ok) (fun s t => s.setStatus t (.blocked (.mwait d (extLen x)))) s)

/-- `mzero mD`. -/
def execMzeroMask (x : Option Ext) (d : MaskReg) (s : State) : Host.Outcome State Fault Refusal :=
  runMask x true (fun s t => s.setMask t d 0) s

/-- `mfill`: the live lanes. -/
def execMfill (x : Option Ext) (d : MaskReg) (s : State) : Host.Outcome State Fault Refusal :=
  runMask x true (fun s t => s.setMask t d (liveMask s (s.wpOf t))) s

/-- `mmov`. -/
def execMmov (x : Option Ext) (d a : MaskReg) (s : State) : Host.Outcome State Fault Refusal :=
  runMask x true (fun s t => s.setMask t d (maskVal (s.wpOf t) a)) s

/-- `mand`. -/
def execMand (x : Option Ext) (d a : MaskReg) (s : State) : Host.Outcome State Fault Refusal :=
  runMask x true (fun s t => s.setMask t d (maskVal (s.wpOf t) d &&& maskVal (s.wpOf t) a)) s

/-- `mor`. -/
def execMor (x : Option Ext) (d a : MaskReg) (s : State) : Host.Outcome State Fault Refusal :=
  runMask x true (fun s t => s.setMask t d (maskVal (s.wpOf t) d ||| maskVal (s.wpOf t) a)) s

/-- `mxor`. -/
def execMxor (x : Option Ext) (d a : MaskReg) (s : State) : Host.Outcome State Fault Refusal :=
  runMask x true (fun s t => s.setMask t d (maskVal (s.wpOf t) d ^^^ maskVal (s.wpOf t) a)) s

/-- `mnot`: bits W to 63 then 0. -/
def execMnot (x : Option Ext) (d a : MaskReg) (s : State) : Host.Outcome State Fault Refusal :=
  runMask x true (fun s t => s.setMask t d (~~~ maskVal (s.wpOf t) a)) s

/-- `mpopc`: the number of bits set. -/
def execMpopc (x : Option Ext) (d : Operand) (a : MaskReg) (s : State) : Host.Outcome State Fault Refusal :=
  .next (runPlain x true (fun s t => opCheck s t [] [] (regsOf (s.th t) d 1))
    (fun s t =>
      let n : Word := BitVec.ofNat 32 (popNat 64 (maskVal (s.wpOf t) a).toNat)
      (s.fillRegs t (regsOf (s.th t) d 1) [n] .raw).retire t (extLen x)) s)

/-- `mtos`: the low word, and the high word beside it in a width-64 warp; s15 is then the illegal operand. -/
def execMtos (x : Option Ext) (d : Operand) (a : MaskReg) (s : State) : Host.Outcome State Fault Refusal :=
  let n (s : State) (t : Nat) : Nat := if (s.wpOf t).width = 64 then 2 else 1
  .next (runPlain x true
    (fun s t => if n s t = 2 ∧ d.code = 79 then trapHere s t 2 79
      else opCheck s t [] [] (regsOf (s.th t) d (n s t)))
    (fun s t =>
      let m := maskVal (s.wpOf t) a
      (s.fillRegs t (regsOf (s.th t) d (n s t)) [m.extractLsb' 0 32, m.extractLsb' 32 32] .raw).retire t (extLen x)) s)

/-- A thread waits at `mwait` on this mask: the length of its instruction. -/
def waitsOn (th : Thread) (m : MaskReg) : Option Nat :=
  match th.status with
  | .blocked (.mwait k len) => if k = m then some len else none
  | _ => none

/-- Every live lane in the mask waits on it, or it has no live member (R96). -/
def mwaitReady (s : State) (warp : Nat) (m : MaskReg) : Bool :=
  let w := s.wp warp
  w.threads.any (fun t => (waitsOn (s.th t) m).isSome) &&
    w.threads.all fun t => !s.live t || !(maskVal w m).getLsbD (s.th t).lane || (waitsOn (s.th t) m).isSome

/-- MWAIT_RELEASE: all threads waiting on the mask go on in one step (R96). -/
def execMwaitRelease (warp : Nat) (m : MaskReg) (s : State) : Host.Outcome State Fault Refusal :=
  .next (if mwaitReady s warp m then
    (s.wp warp).threads.foldl (fun s t => match waitsOn (s.th t) m with
      | some len => s.retire t len
      | none => s) s
    else s)

end Sys2Proof.Machine
end

