-- ==== Sys2Proof/Machine/CrossLane.lean ====
section
/-! DEFINITION. Cross-lane instructions: arrival at the meeting, and the meeting (R97 to R101). -/

namespace Sys2Proof.Machine

/-- The members that a tail names (R97): the live lanes of the mask, or every live lane. -/
def isMember (s : State) (m : BitVec 4) (t : Nat) : Bool :=
  s.live t && (m = 15 || (((s.wpOf t).m.getD m.toNat 0).getLsbD (s.th t).lane))

/-- The parts of a cross-lane instruction that its arrival and meeting need. -/
structure Cross where
  x : Option Ext
  m : BitVec 4
  fields : List Operand
  srcs : List SrcF
  d : Option Operand
  dn : Nat
deriving DecidableEq, Repr

def predVal (th : Thread) (p : PSrc) : Bool := th.p.getLsbD p.p.toNat != p.neg

/-- The cross-lane instructions, by their parts; `none` for every other instruction. `wide` says a warp of 64. -/
def crossOf (wide : Bool) (i : Instr) : Option Cross :=
  match i with
  | .vote x _ _ m => some ⟨x, m, [], [], none, 0⟩
  | .veq x d a m => some ⟨x, m, [d, a], [src a], some d, if wide then 2 else 1⟩
  | .shfl x d a b m => some ⟨x, m, [d, a, b], [src a, src b], some d, 1⟩
  | .xchg x d a b m => some ⟨x, m, [d, a, b], [src a, src b], some d, 1⟩
  | .wred x f d a m =>
    some ⟨x, m, [d, a], [srcN a (if f = .blend then 3 else 1)], some d, if f = .blend then 3 else 1⟩
  | .wscan x _ d a m => some ⟨x, m, [d, a], [src a], some d, 1⟩
  | _ => none

/-- A guard-true lane's check at the instruction: operands, membership, the register pair of `veq` at
W = 64, which v63 does not name (DEDUCED, log entry 18), and neighbour values to wait for (R189). -/
def crossCheck (s : State) (c : Cross) (t : Nat) : Check :=
  let dst := (c.d.map fun d => regsOf (s.th t) d c.dn).getD []
  (opFault s t c.fields c.srcs dst
    (if !isMember s c.m t then trapHere s t 2 0x101
    else if c.dn = 2 && c.d == some (.v 63) then trapHere s t 2 63 else .ok)).andThen
      ((opWait s t c.srcs dst).andThen (nbrCheck (allSlots s t 0 c.srcs)))

/-- The parts of a cross-lane instruction in a thread's warp. -/
def crossPart (s : State) (i : Instr) (t : Nat) : Cross :=
  (crossOf ((s.wpOf t).width = 64) i).getD ⟨none, 15, [], [], none, 0⟩

/-- Arrival (R97): members wait for the meeting, guarded off or not; a guard-true non-member traps; a guarded-off
non-member passes. -/
def arriveCross (i : Instr) (s : State) : State :=
  let part := crossPart s i
  let checks := s.issuing.map fun t =>
    (t, if guardOn (part t).x (s.th t) then crossCheck s (part t) t else .ok)
  let isTrap (c : Nat × Check) : Bool := match c.2 with | .trap _ _ _ => true | _ => false
  if checks.any isTrap then
    checks.foldl (fun s c => match c.2 with
      | .trap cls det addr => s.faultTrap c.1 cls det addr
      | _ => s) s
  else
    checks.foldl (fun s c =>
      if !guardOn (part c.1).x (s.th c.1) && !isMember s (part c.1).m c.1 then s.retire c.1 (extLen (part c.1).x)
      else laneStep c.2 (fun s t => s.setStatus t (.blocked (.meeting i))) (fun s _ => s) s c.1) s

/-- A cross-lane instruction: neighbour values that stand in the face store meet its error protection (R204), then the
arrival. -/
def runCross (i : Instr) (s : State) : Host.Outcome State Fault Refusal :=
  let sites (s : State) (t : Nat) : List (Place × Nat × Nat) :=
    let c := crossPart s i t
    if guardOn c.x (s.th t) then nbrReads (fun s t => crossCheck s c t) c.srcs s t else []
  .next (withReads none false sites (arriveCross i) s)

/-- `vote` (R98). -/
def execVote (x : Option Ext) (d : MaskReg) (a : PSrc) (m : BitVec 4) (s : State) : Host.Outcome State Fault Refusal :=
  runCross (.vote x d a m) s

/-- `veq` (R98). -/
def execVeq (x : Option Ext) (d a : Operand) (m : BitVec 4) (s : State) : Host.Outcome State Fault Refusal :=
  runCross (.veq x d a m) s

/-- `shfl` (R99). -/
def execShfl (x : Option Ext) (d a b : Operand) (m : BitVec 4) (s : State) : Host.Outcome State Fault Refusal :=
  runCross (.shfl x d a b m) s

/-- `xchg` (R99). -/
def execXchg (x : Option Ext) (d a b : Operand) (m : BitVec 4) (s : State) : Host.Outcome State Fault Refusal :=
  runCross (.xchg x d a b m) s

/-- `wred` (R100). -/
def execWred (x : Option Ext) (f : RedOp) (d a : Operand) (m : BitVec 4) (s : State) :
    Host.Outcome State Fault Refusal := runCross (.wred x f d a m) s

/-- `wscan` (R101). -/
def execWscan (x : Option Ext) (f : ScanOp) (d a : Operand) (m : BitVec 4) (s : State) :
    Host.Outcome State Fault Refusal := runCross (.wscan x f d a m) s

/-! ### The meeting -/

/-- The members of a meeting, in ascending home lane. -/
def membersOf (s : State) (w : Warp) (m : BitVec 4) : List Nat := w.threads.filter (isMember s m)

/-- The meeting at which a waiting thread stands is complete: every member is at it (R97), and the registers its
executing members name are full. A thread that has left the mask since it came stays where it waits. DESIGN CHOICE, log
entry 69. Members at one PC whose words an active loop has stepped apart are not at the same instruction. DEDUCED, log entry 96. -/
def meetingReady (s : State) (w : Warp) (lead : Nat) : Option Instr :=
  match (s.th lead).status with
  | .blocked (.meeting i) =>
    match crossOf (w.width = 64) i with
    | none => none
    | some c =>
      let ms := membersOf s w c.m
      let at_ (t : Nat) : Bool := (s.th t).status == .blocked (.meeting i) && (s.th t).pc == (s.th lead).pc
      let regs (t : Nat) : List RegRef :=
        c.srcs.flatMap (fun f => regsOf (s.th t) f.op f.n) ++ (c.d.map fun d => regsOf (s.th t) d c.dn).getD []
      if ms.contains lead && ms.all at_ &&
          ms.all fun t => !guardOn c.x (s.th t) || (regs t).all (s.regFull t)
      then some i else none
  | _ => none

/-- The words a member contributes: its source, or zeros when guarded off (R97). -/
def contrib (s : State) (c : Cross) (f : SrcF) (t : Nat) : List Word :=
  if guardOn c.x (s.th t) then (allSlots s t 0 [f]).map (slotNow s t) else List.replicate f.n 0

/-- One combine of `wred` (R100): acc is the first operand. -/
def redStep (f : RedOp) (acc x : List Word) : List Word × Flags :=
  let a := acc.getD 0 0
  let b := x.getD 0 0
  match f with
  | .add => ([a + b], 0)
  | .min => ([minS a b], 0)
  | .max => ([maxS a b], 0)
  | .minu => ([minU a b], 0)
  | .maxu => ([maxU a b], 0)
  | .and => ([a &&& b], 0)
  | .or => ([a ||| b], 0)
  | .xor => ([a ^^^ b], 0)
  | .fadd => let r := add32 a b; ([r.1], r.2)
  | .fmin => let r := fMinMax false a b; ([r.1], r.2)
  | .fmax => let r := fMinMax true a b; ([r.1], r.2)
  | .blend => let r := blendT (Triple.ofWords acc) (Triple.ofWords x); (r.1.words, r.2)

/-- The inclusive sequence of a fold over the members' contributions, and its flags. -/
def scanFold (f : RedOp) : List Word → List (List Word) → List (List Word) × Flags
  | _, [] => ([], 0)
  | acc, x :: xs =>
    let r := redStep f acc x
    let rest := scanFold f r.1 xs
    (r.1 :: rest.1, r.2 ||| rest.2)

/-- All the partial folds, the lowest member's own value first. -/
def partials (f : RedOp) : List (List Word) → List (List Word) × Flags
  | [] => ([], 0)
  | x :: xs => let r := scanFold f x xs; (x :: r.1, r.2)

/-- A result word for one executing member, with the tag it leaves. -/
def State.giveLane (s : State) (t : Nat) (d : Operand) (dn : Nat) (ws : List Word) (tag : Tag) : State :=
  s.writeDst t d (regsOf (s.th t) d dn) ⟨ws, 0, tag⟩

/-- The effect of a meeting on its executing members; all members then go on. A value of 0 that stands for a guarded-off
lane has tag raw (DESIGN CHOICE, log entry 70), and a scan raises the flags of every inclusive step, also of the last one
of an exclusive scan (DESIGN CHOICE, log entry 71). -/
def meetingEffect (s : State) (w : Warp) (i : Instr) (ms : List Nat) : State :=
  let wide := w.width = 64
  let c := (crossOf wide i).getD ⟨none, 15, [], [], none, 0⟩
  let ex := ms.filter fun t => guardOn c.x (s.th t)
  let lane (t : Nat) : Nat := (s.th t).lane
  let word (f : SrcF) (t : Nat) : Word := (contrib s c f t).getD 0 0
  let bits (p : Nat → Bool) : BitVec 64 := ex.foldl (fun b t => if p t then b ||| (1#64 <<< lane t) else b) 0
  -- the lane whose value a shuffle reads
  let pick (a : Operand) (t j : Nat) : Word × Tag :=
    match ms.find? fun u => lane u = j with
    | none => (word (src a) t, tagOf s t (src a))
    | some u =>
      if guardOn c.x (s.th u) then (word (src a) u, tagOf s u (src a)) else (0, .raw)
  match ex with
  | [] => s
  | lead :: _ =>
    match i with
    | .vote _ d a _ => s.setMask lead d (bits fun t => predVal (s.th t) a)
    | .veq _ d a _ =>
      ex.foldl (fun st t =>
        let b := bits fun u => word (src a) u = word (src a) t
        st.giveLane t d c.dn [b.extractLsb' 0 32, b.extractLsb' 32 32] .raw) s
    | .shfl _ d a b _ =>
      ex.foldl (fun st t =>
        let r := pick a t (word (src b) t).toNat
        st.giveLane t d 1 [r.1] r.2) s
    | .xchg _ d a b _ =>
      ex.foldl (fun st t =>
        let r := pick a t (Nat.xor (lane t) ((word (src b) t).toNat % 64))
        st.giveLane t d 1 [r.1] r.2) s
    | .wred _ f d a _ =>
      let r := partials f (ms.map (contrib s c (srcN a c.dn)))
      let out := (r.1.getLast?).getD []
      ((if d.isS then s.giveLane lead d 1 out .raw
        else ex.foldl (fun st t => st.giveLane t d c.dn out .raw) s).addFlags lead r.2)
    | .wscan _ f d a _ =>
      let op : RedOp := match f with | .add | .addx => .add | .fadd | .faddx => .fadd
      let r := partials op (ms.map (contrib s c (src a)))
      let seq := match f with
        | .addx | .faddx => [0] :: r.1
        | _ => r.1
      ((ms.zip seq).foldl (fun st p =>
        if ex.contains p.1 then st.giveLane p.1 d 1 p.2 .raw else st) s).addFlags lead r.2
    | _ => s

/-- CROSS_LANE_MEETING: the warp's first complete meeting executes once, and every member goes on (R97). -/
def execCrossLaneMeeting (warp : Nat) (s : State) : Host.Outcome State Fault Refusal :=
  let w := s.wp warp
  .next (match w.threads.findSome? fun t => meetingReady s w t with
    | none => s
    | some i =>
      let c := (crossOf (w.width = 64) i).getD ⟨none, 15, [], [], none, 0⟩
      let ms := membersOf s w c.m
      ms.foldl (fun st t => st.retire t (extLen c.x)) (meetingEffect s w i ms))

end Sys2Proof.Machine
end

