-- ==== Sys2Proof/Machine/Lattice.lean ====
section
/-! DEFINITION. The lattice engine: phases, `nbok`, `lred`, `lcfg`, faces, phase reports and the cell pager (R178 to
R204). -/

namespace Sys2Proof.Machine

/-! ### The lattice of a descriptor (R180 to R184) -/

/-- log2 of the devices along a dimension. -/
def devLog (desc : List Word) (dim : Nat) : Nat := fld (desc.getD 0 0) (8 + 3 * dim) 3

/-- Cells of the whole lattice. -/
def latticeSize (desc : List Word) : Nat := extent desc 0 * extent desc 1 * extent desc 2

def ellOf (desc : List Word) (x y z : Nat) : Nat := x + extent desc 0 * (y + extent desc 1 * z)

/-- Coordinates of a linear index. -/
def coordOf (desc : List Word) (ell : Nat) : Nat × Nat × Nat :=
  (ell % extent desc 0, ell / extent desc 0 % extent desc 1, ell / (extent desc 0 * extent desc 1))

/-- Rank of the device that hosts a cell (R182). -/
def rankOf (desc : List Word) (ell : Nat) : Nat :=
  let p := coordOf desc ell
  let g (c dim : Nat) : Nat := c * 2 ^ devLog desc dim / extent desc dim
  fld (desc.getD 0 0) 24 8 + g p.1 0 + 2 ^ devLog desc 0 * (g p.2.1 1 + 2 ^ devLog desc 1 * g p.2.2 2)

/-- The lattice spans more than this device. -/
def spans (desc : List Word) : Bool := devLog desc 0 + devLog desc 1 + devLog desc 2 ≠ 0

/-- The cell is one of this device's. -/
def hostsCell (s : State) (desc : List Word) (ell : Nat) : Bool := !spans desc || rankOf desc ell = s.rank.toNat

/-- Components from which an offset leads to component c. -/
def backComps (mode ext c off : Nat) : List Nat :=
  ([c, c - 1, c + 1, 0, ext - 1].filter fun r => r < ext && nbrComp mode ext r off = some c).dedup

/-- The readers of a cell: every cell one of whose enabled slots names it (R184). -/
def readersOf (desc : List Word) (ell : Nat) : List Nat :=
  let p := coordOf desc ell
  ((List.range 8).flatMap fun k =>
    let w := desc.getD (4 + k) 0
    if !bit w 31 then []
    else
      let m := fld w 8 2
      (backComps m (extent desc 0) p.1 (fld w 0 2)).flatMap fun x =>
        (backComps m (extent desc 1) p.2.1 (fld w 2 2)).flatMap fun y =>
          (backComps m (extent desc 2) p.2.2 (fld w 4 2)).map fun z => ellOf desc x y z).dedup

/-- The cell of a launch at a linear index, by its place in the table. -/
def State.cellAt (s : State) (launch ell : Nat) : Option Nat :=
  s.cells.findIdx? fun c => c.launch = launch && c.ell = ell

/-- What a core knows of a reader's phase: its own cells directly, others by report (R198). -/
def readerAt (s : State) (core launch ell q : Nat) : Bool :=
  match (s.cellAt launch ell).map s.cl with
  | some c =>
    if c.core = core then c.retired || q ≤ c.q
    else ((s.co core).reports.any fun r => r.launch = launch && r.ell = ell && (r.retired || q ≤ r.q)) || q = 0
  | none => ((s.co core).reports.any fun r => r.launch = launch && r.ell = ell && (r.retired || q ≤ r.q)) || q = 0

/-- The conditions of R187. -/
def phaseReady (s : State) (i : Nat) : Bool :=
  let c := s.cl i
  let d := (s.th c.tid).deferred
  (d.all fun x => (missing x.slots).isEmpty) &&
    (readersOf (s.la c.launch).desc c.ell).all fun r => readerAt s c.core c.launch r c.q

/-- The ranks of the lattice's other devices. -/
def otherRanks (s : State) (desc : List Word) : List Nat :=
  if spans desc then
    ((List.range (2 ^ (devLog desc 0 + devLog desc 1 + devLog desc 2))).map fun k => fld (desc.getD 0 0) 24 8 + k).filter
      fun r => r ≠ s.rank.toNat
  else []

/-- A message of a core's face unit to a peer device enters its route (R61, R197). DESIGN CHOICE, log entry 40. -/
def State.faceRoute (s : State) (core rank : Nat) (body : RouteBody) : State :=
  s.pushRoute { s.mkRoute (.face core) (.peer (BitVec.ofNat 8 rank) 0) body (s.co core).ctx 0 with tid := s.threads.length }

/-- A cell's last publication goes to the peer devices that host a reader (R197), and its phase index, with the leaf given,
to every other device of the lattice (R195, R198). DEDUCED, log entry 39. -/
def sendFaces (s : State) (c : Cell) (leaf : Option (LredOp × List Word)) (retired : Bool) : State :=
  let desc := (s.la c.launch).desc
  let rs := ((readersOf desc c.ell).filter fun r => !hostsCell s desc r).map (rankOf desc)
  let x := (c.pubs.head?.getD (0, [])).2
  let s1 := rs.dedup.foldl (fun s r => s.faceRoute c.core r (.face c.launch c.ell c.q x retired)) s
  (otherRanks s desc).foldl (fun s r => s.faceRoute c.core r (.report c.launch c.ell c.q leaf retired)) s1

/-- The end of a phase, in one step: the shadow is published, and the phase index rises (R185, R191, R194). -/
def State.endPhase (s : State) (i : Nat) : State :=
  let c := s.cl i
  let xs := (s.th c.tid).x
  let s1 := s.modCl i fun c => { c with
    pubs := (c.q + 1, xs) :: c.pubs, q := c.q + 1, leaves := (c.q, c.leaf) :: c.leaves, leaf := none }
  sendFaces s1 (s1.cl i) c.leaf false

/-- A cell retires: its slot frees once its FIFO is empty (`holdsSlot`), its leaf of the phase stands, and its readers on other devices hear of it (R185, R194,
R197, R200). -/
def State.retireCell (s : State) (t : Nat) : State :=
  match (s.th t).cell with
  | none => s
  | some i =>
    let s1 := s.modCl i fun x => { x with
      retired := true, resident := false, leaves := (x.q, x.leaf) :: x.leaves, leaf := none }
    sendFaces s1 (s1.cl i) (s.cl i).leaf true

/-- The thread completes its `phase`, and retires with `phase.retire`. -/
def State.finishPhase (s : State) (i : Nat) (retire : Bool) (len : Nat) : State :=
  let t := (s.cl i).tid
  let s1 := (s.endPhase i).retire t len
  if retire then (s1.retireCell t).exitThread t else s1

/-- `exit`: with a read-side depth above 0 the section fault (R86, R94, R298); a cell retires without publishing. -/
def execExit (x : Option Ext) (s : State) : Host.Outcome State Fault Refusal :=
  .next (runPlain x false
    (fun s t => if (s.th t).depth = 0 then .ok else trapHere s t 0x0D 1)
    (fun s t => (s.retireCell t).exitThread t) s)

/-! ### Instructions (R191 to R194) -/

/-- A check for the instructions that only a cell may execute: unavailable fields first, then detail 0x102. -/
def cellCheck (s : State) (t : Nat) (fields : List Operand) (rest : Check) : Check :=
  match fields.find? (opBad s t) with
  | some o => trapHere s t 2 o.code.toNat
  | none => if (s.th t).cell.isNone then trapHere s t 2 0x102 else rest

def runPhase (retire : Bool) (x : Option Ext) (s : State) : Host.Outcome State Fault Refusal :=
  .next (runPlain x false
    (fun s t => cellCheck s t [] (if retire && (s.th t).depth ≠ 0 then trapHere s t 0x0D 1 else .ok))
    (fun s t =>
      let i := (s.th t).cell.getD 0
      if phaseReady s i then s.finishPhase i retire (extLen x)
      else s.setStatus t (.blocked (.phase retire (extLen x)))) s)

/-- `phase` (R191). -/
def execPhase (x : Option Ext) (s : State) : Host.Outcome State Fault Refusal := runPhase false x s
/-- `phase.retire` (R191, R298). -/
def execPhaseRetire (x : Option Ext) (s : State) : Host.Outcome State Fault Refusal := runPhase true x s

/-- `nbok`: whether the slot names a cell (R192). -/
def execNbok (x : Option Ext) (p slot : BitVec 3) (s : State) : Host.Outcome State Fault Refusal :=
  .next (runPlain x false (fun s t => cellCheck s t [] .ok)
    (fun s t =>
      let r := match s.cellOf t with
        | some c => match siteOf (s.la c.launch).desc c slot.toNat 0 with
          | .cell _ => true
          | _ => false
        | none => false
      (s.setP t p r).retire t (extLen x)) s)

/-- `lcfg`: a word of the descriptor (R193). -/
def execLcfg (x : Option Ext) (d : Operand) (w : BitVec 4) (s : State) : Host.Outcome State Fault Refusal :=
  .next (runPlain x d.isS
    (fun s t => cellCheck s t [d] (opCheck s t [d] [] (regsOf (s.th t) d 1)))
    (fun s t =>
      let v := ((s.cellOf t).map fun c => (s.la c.launch).desc.getD w.toNat 0).getD 0
      (s.writeDst t d (regsOf (s.th t) d 1) (outW v)).retire t (extLen x)) s)

/-- The check of `lred`. A second one in a phase takes the cell lattice fault 1; of its operands only those that a first one's
destination holds take that fault before the empty-read trap, and the code is then 1 too. DESIGN CHOICE, log entry 83. -/
def lredCheck (n : Nat) (d a : Operand) (ea : Bool) (s : State) (t : Nat) : Check :=
  let srcs := [srcN a n ea]
  let dst := regsOf (s.th t) d n
  let second : Check := if ((s.cellOf t).bind Cell.leaf).isSome then trapHere s t 0x0B 1 else .ok
  let own : Check := if (srcRegs (s.th t) srcs ++ dst).any (ownLred s t).contains then second else .ok
  cellCheck s t [d, a] (((opFault s t [d, a] srcs dst own).andThen second).andThen
    ((opWait s t srcs dst).andThen (nbrCheck (allSlots s t 0 srcs))))

/-- `lred`: the cell's leaf of its current phase (R194). -/
def execLred (x : Option Ext) (f : LredOp) (d a : Operand) (ea : Bool) (s : State) :
    Host.Outcome State Fault Refusal :=
  let n : Nat := if f = .mt then 3 else 1
  .next (withReads x d.isS (nbrReads (lredCheck n d a ea) [srcN a n ea]) (runPlain x d.isS (lredCheck n d a ea)
    (fun s t =>
      let ws := (allSlots s t 0 [srcN a n ea]).map (slotNow s t)
      let i := (s.th t).cell.getD 0
      let dst := regsOf (s.th t) d n
      (((s.markAll t dst).modCl i fun c => { c with leaf := some (f, ws) }).modTh t fun y => { y with
        lred := y.lred ++ [⟨(s.cl i).q, f, dst⟩] }).retire t (extLen x))) s)

/-! ### Events of phases and faces -/

/-- PHASE_END: a `phase` in which a cell is blocked completes, resident or cellared, while its core is not saved (R187, R191,
R201, R203). -/
def execPhaseEnd (cell : Nat) (s : State) : Host.Outcome State Fault Refusal :=
  .next (match (s.th (s.cl cell).tid).status with
  | .blocked (.phase retire len) =>
    if cell < s.cells.length && (s.co (s.cl cell).core).resident && phaseReady s cell then s.finishPhase cell retire len else s
  | _ => s)

/-- The core hosts a partition of the lattice launch, whose grid has not ended. -/
def partitionOn (s : State) (core l : Nat) : Bool :=
  (s.la l).stage = .started && s.cells.any fun c => c.core = core && c.launch = l

/-- The face table keeps the two most recent publications of each cell (R197). -/
def putFace (fs : List Face) (f : Face) : List Face :=
  let mine := fs.filter fun x => x.launch = f.launch && x.ell = f.ell && x.idx1 ≠ f.idx1
  let rest := fs.filter fun x => !(x.launch = f.launch && x.ell = f.ell)
  f :: mine.take 1 ++ rest

/-- Deliveries of one cell arrive in order (R61): the next index, or a retirement at the last one. -/
def faceInOrder (fs : List Face) (launch ell idx1 : Nat) (retired : Bool) : Bool :=
  let last := ((fs.filter fun x => x.launch = launch && x.ell = ell).map Face.idx1).foldl max 0
  let any := fs.any fun x => x.launch = launch && x.ell = ell
  idx1 = last + 1 || (!any && idx1 = 0) || (retired && idx1 = last)

/-- A thread's deferred instructions whose values all exist complete, in order (R189). -/
def State.settle (s : State) (t : Nat) : Nat → State
  | 0 => s
  | n + 1 => match (s.th t).deferred.findIdx? fun d => d.slots.all fun sl => (slotVal s t sl).isSome with
    | some i => (s.completeDeferred t i).settle t n
    | none => s

/-- A publication enters the face table of a core, in near memory where the entry has spilled. -/
def State.setFace (s : State) (core : Nat) (f : Face) : State :=
  let s1 := s.modCo core fun k => { k with faces := putFace k.faces f }
  s1.touchWrites (s1.faceSite core f.launch f.ell)

/-- A publication enters the face table of a core; the deferred instructions of its cells that waited for it complete in the
same step (R189, R197). -/
def State.takeFace (s : State) (core : Nat) (f : Face) : State :=
  let s1 := s.setFace core f
  (s.cells.filter fun c => c.core = core && c.launch = f.launch).foldl
    (fun s c => s.settle c.tid (s.th c.tid).deferred.length) s1

/-- FACE_DELIVERY (R197): a publication reaches the face table of a core that hosts a reader. -/
def execFaceDelivery (core ell : Nat) (m : FaceMsg) (s : State) : Host.Outcome State Fault Refusal :=
  let l := m.launch
  .next (if partitionOn s core l then
    let own := (s.cellAt l ell).map s.cl
    let msg : Option (Nat × List Word × Bool) :=
      if m.remote then (if own.isNone then some (m.idx1, m.xs, m.retired) else none)
      else own.bind fun c => (c.pubs.find? fun p => p.1 = m.idx1).map fun p =>
        (p.1, p.2, c.retired && (c.pubs.head?.map Prod.fst) = some p.1)
    match msg with
    | some (i, xs, r) =>
      if faceInOrder (s.co core).faces l ell i r then
        s.takeFace core ⟨l, ell, i, xs, r⟩
      else s
    | none => s
  else s)

/-- A leaf as a peer's report carries it: the operator's code, then the words. -/
def leafOf (xs : List Word) : Option (LredOp × List Word) :=
  match xs with
  | [] => none
  | k :: ws => some (if k = 0 then .add else if k = 1 then .fadd else .mt, ws)

/-- A peer's report of one of its cells joins what the launch knows of it. -/
def noteRemote (rs : List RemoteCell) (ell : Nat) (m : FaceMsg) : List RemoteCell :=
  let old : RemoteCell := (rs.find? fun r => r.ell = ell).getD ⟨ell, 0, false, []⟩
  let new : RemoteCell := { old with
    q := max old.q m.idx1, retired := old.retired || m.retired
    leaves := if old.q < m.idx1 then (m.idx1 - 1, leafOf m.xs) :: old.leaves
      else if m.retired then (m.idx1, leafOf m.xs) :: old.leaves else old.leaves }
  new :: rs.filter fun (r : RemoteCell) => r.ell ≠ ell

/-- The grid ends with a kernel lattice fault: its cells halt here, the lattice's other devices hear of it (R196, R198, R204), and
the grid completes (R265). -/
def State.endGrid (s : State) (l : Nat) (status : BitVec 16) (detail : Word) : State :=
  let mine (c : Cell) : Bool := c.launch = l
  let tids := (s.cells.filter mine).map Cell.tid
  let s1 := tids.foldl (fun s t => (s.modTh t fun x => { x with depth := 0, loads := [], deferred := [], popJob := false, popCb := none }).exitThread t) s
  let s2 := { s1 with
    cells := s1.cells.map fun c => if mine c then { c with retired := true, resident := false } else c
    out := s1.out ++ (otherRanks s (s.la l).desc).map fun r => Outbound.abort (BitVec.ofNat 8 r) detail }
  s2.completeGrid l status detail

/-- A face delivery or phase report of a lattice over several devices is lost: kernel lattice fault 2 (R198). -/
def State.loseFace (s : State) (l : Nat) : State :=
  if (s.la l).stage = .started && lattice (s.la l) && spans (s.la l).desc then s.endGrid l 4 0x4B4C0002 else s
where
  lattice (x : Launch) : Bool := fld (x.words.getD 0 0) 30 2 = 1

/-- PHASE_REPORT (R198): a reader's phase index reaches a core. A peer device's report also brings its cell's leaf, or
the word that the lattice has ended (R204). DEDUCED, log entry 39. -/
def execPhaseReport (core ell : Nat) (m : FaceMsg) (s : State) : Host.Outcome State Fault Refusal :=
  let put (l q : Nat) (ret : Bool) (s : State) : State :=
    let new : Report := ⟨l, ell, q, ret⟩
    s.modCo core fun k => { k with
      reports := new :: (k.reports.filter fun r => !(r.launch = l && r.ell = ell)) }
  let l := m.launch
  .next (if partitionOn s core l then
    match m.ended, (s.cellAt l ell).map s.cl with
    | some w, _ => if m.remote && spans (s.la l).desc then s.endGrid l 4 w else s
    | none, some c => if m.remote then s else put l c.q c.retired s
    | none, none =>
      if m.remote then put l m.idx1 m.retired (s.modLa l fun x => { x with remote := noteRemote x.remote ell m })
      else s
  else s)

/-! ### `lred` results (R195) -/

def combLeaf (f : LredOp) (a c : Option (List Word)) : Option (List Word) :=
  match a, c with
  | none, c => c
  | a, none => a
  | some x, some y => some (match f with
    | .add => [x.getD 0 0 + y.getD 0 0]
    | .fadd => [(add32 (x.getD 0 0) (y.getD 0 0)).1]
    | .mt => (blendT (Triple.ofWords x) (Triple.ofWords y)).1.words)

def pairUp (f : LredOp) : List (Option (List Word)) → List (Option (List Word))
  | a :: c :: rest => combLeaf f a c :: pairUp f rest
  | l => l

/-- The fixed pairwise tree; `n` bounds its levels. -/
def treeRed (f : LredOp) : Nat → List (Option (List Word)) → Option (List Word)
  | 0, l => l.headD none
  | n + 1, l => if l.length ≤ 1 then l.headD none else treeRed f n (pairUp f l)

def lredIdentity (f : LredOp) : List Word :=
  match f with
  | .mt => Triple.empty.words
  | _ => [0]

/-- Every cell of the lattice, with whether it has ended phase q or retired, and its leaf of that phase. -/
def phaseLeaves (s : State) (l q : Nat) : List (Bool × Option (LredOp × List Word)) :=
  (List.range (latticeSize (s.la l).desc)).map fun ell =>
    let leaf (ls : List (Nat × Option (LredOp × List Word))) := ((ls.find? fun x => x.1 = q).map Prod.snd).join
    match (s.cellAt l ell).map s.cl with
    | some c => (c.retired || q < c.q, leaf c.leaves)
    | none => match (s.la l).remote.find? fun r => r.ell = ell with
      | some r => (r.retired || q < r.q, leaf r.leaves)
      | none => (false, none)

/-- LRED_RESULT (R194, R195): every cell has ended the phase, so the result reaches every contributing cell. -/
def execLredResult (launch q : Nat) (s : State) : Host.Outcome State Fault Refusal :=
  let ls := phaseLeaves s launch q
  let ops := ls.filterMap fun x => x.2.map Prod.fst
  .next (if (s.la launch).stage = .started ∧ ls.all Prod.fst ∧ ¬ (s.la launch).lredDone.contains q then
    match ops.head? with
    | none => s
    | some f =>
      if ops.any fun g => g ≠ f then s.endGrid launch 4 0x4B4C0001
      else
        let r := (treeRed f ls.length (ls.map fun x => x.2.map Prod.snd)).getD (lredIdentity f)
        let give (s : State) (c : Cell) : State :=
          match (s.th c.tid).lred.find? fun w => w.q = q with
          | some w => (s.fillRegs c.tid w.dst r .raw).modTh c.tid fun x => { x with lred := x.lred.filter fun w => w.q ≠ q }
          | none => s
        let s1 := (s.cells.filter fun c => c.launch = launch).foldl give s
        s1.modLa launch fun x => { x with lredDone := q :: x.lredDone }
  else s)

/-! ### The cell pager (R199 to R202) -/

/-- A cell waits while it is blocked in `phase`, or while a neighbour value it needs does not exist: for its instruction, or
for a deferred one behind which its instruction waits. -/
def cellWaiting (s : State) (c : Cell) : Bool :=
  let th := s.th c.tid
  let lacks (n : Nat × Nat) : Bool := (s.nbrVal c.tid n.1 n.2).isNone
  let stuck (d : Deferred) : Bool := (missing d.slots).any lacks
  match th.status with
  | .blocked (.phase _ _) => true
  | .blocked (.neighbour ns) => ns.any lacks
  | .blocked (.regs _ rs) => th.deferred.any fun d => stuck d && d.dst.any rs.contains
  | .blocked (.fut a) => th.deferred.any fun d => stuck d && (regsOf th a 1).any d.dst.contains
  | .blocked (.rows rs) => th.deferred.any fun d => stuck d && rs.any fun r => r.1 = c.tid && d.dst.contains r.2
  | .blocked (.deferred window) => th.deferred.any fun d => stuck d && (!window || isRefill d.fn)
  | _ => false

def runnable (s : State) (c : Cell) : Bool := !c.retired && !cellWaiting s c

/-- Better by lower q, then lower ℓ. -/
def pagesFirst (a c : Cell) : Bool := a.q < c.q || (a.q = c.q && a.ell < c.ell)

def bestCell (better : Cell → Cell → Bool) : List Cell → Option Cell
  | [] => none
  | c :: cs => match bestCell better cs with
    | none => some c
    | some d => if better c d then some c else some d

/-- The cells of a lattice launch on a core. -/
def partitionOf (s : State) (core l : Nat) : List Cell :=
  s.cells.filter fun c => c.core = core && c.launch = l

/-- Those of them that hold slots. -/
def residents (s : State) (core l : Nat) : List Cell := (partitionOf s core l).filter fun c => c.resident

/-- The cellared runnable cell to swap in. -/
def nextIn (s : State) (core l : Nat) : Option Cell :=
  bestCell pagesFirst ((partitionOf s core l).filter fun c => !c.resident && runnable s c)

/-- The cell to swap out for c. -/
def victim (s : State) (core l : Nat) (c : Cell) : Option Cell :=
  let res := residents s core l
  let inPhase (x : Cell) : Bool := match (s.th x.tid).status with | .blocked (.phase _ _) => true | _ => false
  let last (a b : Cell) : Bool := pagesFirst b a
  (bestCell last (res.filter inPhase)).or (bestCell last (res.filter fun x => c.q < x.q))

/-- A thread holds a lane slot of the core: that of a resident cell, or one whose warp's slots are not freed: a cell that has retired
holds its own until its stores have left its FIFO (R86, R191). -/
def holdsSlot (s : State) (core t : Nat) : Bool :=
  let x := s.th t
  s.coreOf t = core && !x.collie && match x.cell with
    | some c => (s.cl c).resident || !(s.wpOf t).fifo.isEmpty
    | none => !(s.wpOf t).fifo.isEmpty || (s.wpOf t).threads.any s.live

/-- The lowest lane slot of a core that no thread holds. -/
def freeLane (s : State) (core : Nat) : Nat :=
  let used := ((List.range s.threads.length).filter (holdsSlot s core)).map fun t => (s.th t).slot
  ((List.range (used.length + 1)).find? fun n => !used.contains n).getD 0

/-- The cell's record in the cellar: near memory of its core's die (R199). DESIGN CHOICE, log entry 81. -/
def State.cellarSite (s : State) (c : Cell) : List (Place × Nat × Nat) :=
  [(.near (s.pdie (s.co c.core).ldie), Config.cellarAt c.launch c.ell, Config.cellarBytes)]

/-- A swap-in: the cell's record is read, whose uncorrectable error ends the context (R204); the cell takes the lowest free lane
slot, whose pipe and column follow from it (DESIGN CHOICE, log entry 15), and resumes at its PC. -/
def State.swapIn (s : State) (c : Cell) : State :=
  let e := s.readsEcc (s.co c.core).ctx (s.cellarSite c)
  let n := freeLane s c.core
  let i := (s.th c.tid).cell.getD 0
  if e.2 then e.1
  else ((e.1.modCl i fun x => { x with resident := true }).modTh c.tid fun x => { x with slot := n }).modWp (s.th c.tid).warp
    fun w => { w with pipe := n / 64 % 4, col := n % 64 }

/-- A swap-out: the cell's record is written. -/
def State.swapOut (s : State) (c : Cell) : State :=
  (s.modCl ((s.th c.tid).cell.getD 0) fun x => { x with resident := false }).touchWrites (s.cellarSite c)

/-- A cell at an instruction boundary with its FIFO empty and its loads performed (R64, R201). One whose trap is still to be delivered
is at such a boundary too: the delivery then uses the lane slot that it held last. DESIGN CHOICE, log entry 101. -/
def swapReady (s : State) (c : Cell) : Bool := s.fifoEmpty c.tid && (s.th c.tid).memLoads.isEmpty

/-- The core has a lane slot, and registers for it, that no thread holds (R87). -/
def slotFree (s : State) (core alloc : Nat) : Bool :=
  let ts := (List.range s.threads.length).filter (holdsSlot s core)
  ts.length < 2048 && (ts.map fun t => (s.th t).v.length).sum + alloc ≤ 262144

/-- A cell may be brought in without a swap-out: the partition's grant and the core's slots and registers have room. -/
def pagerRoom (s : State) (core l : Nat) (c : Cell) : Bool :=
  ((partitionOf s core l).filter fun x => holdsSlot s core x.tid).length < (s.la l).grant && slotFree s core (s.th c.tid).v.length

/-- PAGER_FILL (R200). -/
def execPagerFill (core : Pager) (s : State) : Host.Outcome State Fault Refusal :=
  .next (match nextIn s core.core core.launch with
  | some c =>
    if (s.co core.core).resident && partitionOn s core.core core.launch && pagerRoom s core.core core.launch c then s.swapIn c else s
  | none => s)

/-- PAGER_EXCHANGE (R200, R201). -/
def execPagerExchange (core : Pager) (s : State) : Host.Outcome State Fault Refusal :=
  .next (match nextIn s core.core core.launch with
  | some c =>
    if (s.co core.core).resident && partitionOn s core.core core.launch && !pagerRoom s core.core core.launch c then
      match victim s core.core core.launch c with
      | some v => if swapReady s v then (s.swapOut v).swapIn c else s
      | none => s
    else s
  | none => s)

end Sys2Proof.Machine
end

