-- ==== Sys2Proof/Machine/Matrix.lean ====
section
/-! DEFINITION. The matrix engine: reservation, `mma`, `mdr`, `mzero` at issue, and what the engine computes (R77 to R79,
R207 to R227). -/

namespace Sys2Proof.Machine

/-! ### Reservation (R207, R208) -/

def teamOf (s : State) (t : Nat) : Nat := (s.wpOf t).team

/-- The Collie may not reserve. -/
def notCollie (s : State) (t : Nat) : Check := if (s.th t).collie then trapHere s t 2 0x100 else .ok

def State.setHolder (s : State) (c : Nat) (h : Option Nat) : State := s.modCo c fun k => { k with holder := h }

/-- `mres` (R208). -/
def execMres (x : Option Ext) (p : BitVec 3) (s : State) : Host.Outcome State Fault Refusal :=
  .next (runPlain x false notCollie
    (fun s t =>
      let c := s.coreOf t
      let mine := (s.co c).holder = some (teamOf s t)
      let free := (s.co c).holder.isNone && (s.co c).waiters.isEmpty
      ((if mine || free then s.setHolder c (some (teamOf s t)) else s).setP t p (mine || free)).retire t (extLen x)) s)

/-- `mresw` (R208): a place in the order of waits, until the team holds the engine. -/
def execMresw (x : Option Ext) (s : State) : Host.Outcome State Fault Refusal :=
  .next (runPlain x false notCollie
    (fun s t =>
      let c := s.coreOf t
      let k := s.co c
      let team := teamOf s t
      if k.holder = some team then s.retire t (extLen x)
      else if k.holder.isNone && (k.waiters.isEmpty || k.waiters.head? = some team) then
        (s.modCo c fun k => { k with holder := some team, waiters := k.waiters.filter fun w => w != team }).retire t
          (extLen x)
      else (s.modCo c fun k => { k with
        waiters := if k.waiters.contains team then k.waiters else k.waiters ++ [team] }).setStatus t (.blocked .mres)) s)

/-- `mrel` (R208): the engine goes to the team that has waited longest. -/
def execMrel (x : Option Ext) (s : State) : Host.Outcome State Fault Refusal :=
  .next (runPlain x false notCollie
    (fun s t =>
      let c := s.coreOf t
      (if (s.co c).holder = some (teamOf s t) then
        s.modCo c fun k => { k with holder := k.waiters.head?, waiters := k.waiters.tail }
      else s).retire t (extLen x)) s)

/-- A matrix command needs the reservation; the Collie needs none, but may not issue `mma` (R207). -/
def holdsEngine (s : State) (t : Nat) (mma : Bool) : Check :=
  if (if (s.th t).collie then mma else (s.co (s.coreOf t)).holder ≠ some (teamOf s t)) then trapHere s t 2 0x100
  else .ok

/-! ### The parameter block of `mma` (R212) -/

def bCaddr (b : List Word) : Nat := fld (lw b 0) 0 19
def bCstr (b : List Word) : Nat := fld (lw b 1) 16 16
def bAcc (b : List Word) : Bool := bit (lw b 1) 15
def bRawf (b : List Word) : Bool := bit (lw b 1) 14
/-- Rows written. -/
def bRows (b : List Word) : Nat := fld (lw b 1) 7 6 + 1
/-- Columns written. -/
def bCols (b : List Word) : Nat := fld (lw b 1) 0 7 + 1
def bBaddr (b : List Word) : Nat := fld (lw b 2) 0 21
def bKe (b : List Word) : Nat := fld (lw b 3) 16 9
/-- K blocks. -/
def bBlocks (b : List Word) : Nat := fld (lw b 3) 8 4 + 1
def bK (b : List Word) : Nat := 16 * bBlocks b
def bNe (b : List Word) : Nat := fld (lw b 3) 0 7
def bAsc (b : List Word) : Word := lw b 4
def bBsc (b : List Word) : Word := lw b 5
def bCbb (b : List Word) : Nat := fld (lw b 6) 8 6
def bMe (b : List Word) : Nat := fld (lw b 6) 0 7

/-- Code 1 of R219: a reserved field or a code out of range. -/
def blockReserved (b : List Word) : Bool :=
  fld (lw b 0) 19 13 ≠ 0 || bit (lw b 1) 13 || 96 ≤ fld (lw b 1) 0 7 || fld (lw b 2) 21 11 ≠ 0 ||
    fld (lw b 3) 25 7 ≠ 0 || fld (lw b 3) 12 4 ≠ 0 || bit (lw b 3) 7 || fld (lw b 6) 14 18 ≠ 0 || bit (lw b 6) 7 ||
    lw b 7 ≠ 0

/-- Element width in bits (R213). -/
def elemBits (t : Tag) : Nat := match t with | .raw => 16 | .e2m1 | .i4 | .cb4 => 4 | _ => 8

def intTag (t : Tag) : Bool := t = .i8 || t = .i4

/-- The block scale applies: a blocked tag, an offset given, and not both operands integer (R216). -/
def scaled (t other : Tag) (off : Word) : Bool := t != .raw && off != 0xFFFFFFFF && !(intTag t && intTag other)

/-- Blocks with an element below the K edge. -/
def usedBlocks (b : List Word) : Nat := (bKe b + 15) / 16

/-! ### A rows (R213, R214) -/

/-- Warp width for the rows: 1 for a cell. -/
def rowWidth (s : State) (t : Nat) : Nat := (s.wpOf t).width

/-- The live thread of a lane of the issuing thread's warp. -/
def laneThread (s : State) (t lane : Nat) : Option Nat :=
  (s.wpOf t).threads.find? fun u => (s.th u).lane = lane && s.live u

/-- Registers of row i that hold elements below the K edge: the thread and its physical registers; `none` when the
row's lane has exited. `ea` is the element width in bits. -/
def rowRegs (s : State) (t : Nat) (a : Nat) (b : List Word) (ea i : Nat) : Option (Nat × List RegRef) :=
  let w := rowWidth s t
  let rg := bK b * ea / 32
  (laneThread s t (i % w)).map fun u =>
    (u, (List.range ((bKe b * ea + 31) / 32)).map fun r => .v ((s.th u).wbase + a + (i / w) * rg + r))

/-- A's tag: of the first register read; raw when none is (DESIGN CHOICE, log entry 109). -/
def aTag (s : State) (t a : Nat) (b : List Word) : Tag :=
  if bKe b = 0 then .raw
  else
    let first := ((List.range (bMe b)).filterMap fun i => laneThread s t (i % rowWidth s t)).head?
    match first with
    | some u => s.regTag u (.v ((s.th u).wbase + a))
    | none => .raw

def allRows (s : State) (t a : Nat) (b : List Word) (ea : Nat) : List (Nat × RegRef) :=
  ((List.range (bMe b)).filterMap fun i => rowRegs s t a b ea i).flatMap fun r => r.2.map fun x => (r.1, x)

/-- The rows that are read: below the row edge, of lanes that have not exited. -/
def liveRows (s : State) (t : Nat) (b : List Word) : List Nat :=
  (List.range (bMe b)).filter fun i => (laneThread s t (i % rowWidth s t)).isSome

/-- The first A register that `mma` reads. -/
def firstReg (s : State) (t a : Nat) (b : List Word) : Option (Nat × RegRef) :=
  if bKe b = 0 then none
  else (((List.range (bMe b)).filterMap fun i => laneThread s t (i % rowWidth s t)).head?).map fun u =>
    (u, .v ((s.th u).wbase + a))

/-- The A registers that `mma` must wait for. While the first is empty, its tag, and so the width of a row, is still to come. -/
def emptyRows (s : State) (t a : Nat) (b : List Word) : List (Nat × RegRef) :=
  (match firstReg s t a b with
    | some r => if s.regFull r.1 r.2 then allRows s t a b (elemBits (aTag s t a b)) else [r]
    | none => []).filter fun r => !s.regFull r.1 r.2

/-- The captured bytes of a row. -/
def rowBytes (s : State) (r : Nat × List RegRef) : List Byte := r.2.flatMap fun x => wBytes (s.regVal r.1 x)

/-! ### The B region (R215) -/

/-- Bytes of columns 0 to NE − 1. -/
def bBytes (b : List Word) (eb : Nat) : Nat := (bNe b * bK b * eb + 7) / 8

/-- B's tag at its first granule; raw when no column is read (DESIGN CHOICE, log entry 109). -/
def bTag (s : State) (c : Nat) (b : List Word) : Tag :=
  if bNe b = 0 then .raw else granTag (s.co c).wtags (bBaddr b)

/-- Every granule of the B bytes carries the tag. -/
def bUniform (s : State) (c : Nat) (b : List Word) (t : Tag) : Bool :=
  let n := bBytes b (elemBits t)
  n = 0 || (List.range ((bBaddr b + n - 1) / 64 - bBaddr b / 64 + 1)).all fun g =>
    granTag (s.co c).wtags (64 * (bBaddr b / 64 + g)) = t

/-- The matrix fault of `mma`, in the order of R219; 0 when the block is good. DEDUCED, log entry 63. -/
def mmaCode (s : State) (t a : Nat) (b : List Word) : Nat :=
  let c := s.coreOf t
  let ta := aTag s t a b
  let tb := bTag s c b
  let sa := (bAsc b).toNat + (liveRows s t b).foldl max 0 * bBlocks b + usedBlocks b
  let sb := (bBsc b).toNat + (bNe b - 1) * bBlocks b + usedBlocks b
  let groups := (bMe b + rowWidth s t - 1) / rowWidth s t
  if blockReserved b then 1
  else if bK b < bKe b || bCols b < bNe b || bRows b < bMe b then 2
  else if bCstr b < 4 * bCols b || bCstr b % 4 ≠ 0 ||
      bufSize .c < bCaddr b + (bRows b - 1) * bCstr b + 4 * bCols b then 3
  else if (0 < bNe b && bufSize .w < bBaddr b + bBytes b (elemBits tb)) ||
      (scaled ta tb (bAsc b) && !(liveRows s t b).isEmpty && 0 < bKe b && bufSize .a < sa) ||
      (scaled tb ta (bBsc b) && 0 < bNe b && 0 < bKe b && bufSize .w < sb) then 4
  else if bBaddr b % 16 ≠ 0 || bCaddr b % 4 ≠ 0 then 5
  else if ta = .bad || tb = .bad || !bUniform s c b tb ||
      (allRows s t a b (elemBits ta)).any fun r => s.regTag r.1 r.2 ≠ ta then 6
  else if 64 < a + groups * (bK b * elemBits ta / 32) then 7
  else 0

/-- The block as `mma` reads it at issue. -/
def mmaBlock (s : State) (t : Nat) (b : Operand) : Option (List Word) :=
  (s.issueView t (s.homeOf t) .a (recAddr s t b) 32).map (wordsOf 8)

def aReg (a : Operand) : Nat := match a with | .v n => n.toNat | _ => 0

/-- The checks of `mma` before it reads its block. -/
def mmaFirst (d a b : Operand) (eb : Bool) (s : State) (t : Nat) : Check :=
  (holdsEngine s t true).andThen ((opCheck s t [d, a, b] [src b eb] (regsOf (s.th t) d 1)).andThen
    (if recAddr s t b % 16 ≠ 0 then .trap 6 0 (pcAddr (addrReg s t b))
    else if bufSize .a < recAddr s t b + 32 then .trap 7 0 (pcAddr (addrReg s t b))
    else if (mmaBlock s t b).isNone then .wait .retry else .ok))

/-- The check of `mma`: the block and the A rows are read, blocking until every register is full, and then validated (R214, R218,
R219); a register of a thread's own `lred` is the cell lattice fault at once (R196). -/
def mmaCheck (d a b : Operand) (eb : Bool) (s : State) (t : Nat) : Check :=
  let bl := (mmaBlock s t b).getD []
  let code := mmaCode s t (aReg a) bl
  let ta := aTag s t (aReg a) bl
  let cb := ta = .cb4 || bTag s (s.coreOf t) bl = .cb4
  (mmaFirst d a b eb s t).andThen
    (if (allRows s t (aReg a) bl (elemBits ta)).any fun r => (ownLred s r.1).contains r.2 then trapHere s t 0x0B 2
    else if !(emptyRows s t (aReg a) bl).isEmpty then .wait (.rows (emptyRows s t (aReg a) bl))
    else if code ≠ 0 then trapHere s t 0x0A code
    else if cb && ownCbLoad s t then .wait .retry
    else if cmdRoom s (s.coreOf t) 1 then .ok else .wait .retry)

/-- `mma` (R218). Its block meets the error protection of the A-buffer as it is read (R174). -/
def execMma (x : Option Ext) (d a b : Operand) (_k eb : Bool) (s : State) : Host.Outcome State Fault Refusal :=
  let sites (s : State) (t : Nat) : List (Place × Nat × Nat) :=
    if mmaFirst d a b eb s t = .ok then [(.buf (s.homeOf t) .a, recAddr s t b, 32)] else []
  .next (withReads x d.isS sites (runPlain x d.isS (mmaCheck d a b eb)
    (fun s t =>
      let bl := (mmaBlock s t b).getD []
      let ta := aTag s t (aReg a) bl
      let c := s.coreOf t
      let cbb := (s.co c).book (bCbb bl)
      let tb := bTag s c bl
      let o := { newOp s t 1 (regsOf (s.th t) d 1) with
        fn := 0, record := bl, acq := ordAcq x, rel := ordRel x, scope := scopeOf x, atag := ta, btag := tb
        rows := (List.range (bMe bl)).map fun i => (rowRegs s t (aReg a) bl (elemBits ta) i).map (rowBytes s)
        acb := if ta = .cb4 then some (captureCb s t) else none
        bcb := if tb = .cb4 then some ⟨bCbb bl, cbb.gen, cbb.cur⟩ else none }
      orWait (cmdRoom s c 1 && (emptyRows s t (aReg a) bl).isEmpty) s t ((s.issueCmd t o).retire t (extLen x)))) s)

/-- `mdr` (R225). -/
def execMdr (x : Option Ext) (d a : Operand) (_k ea _eb : Bool) (s : State) : Host.Outcome State Fault Refusal :=
  .next (runPlain x d.isS
    (fun s t => (holdsEngine s t false).andThen (recCheck 1 32 d a ea s t))
    (fun s t =>
      let o := { newOp s t 1 (regsOf (s.th t) d 1) with
        fn := 1, arg := recAddr s t a, acq := ordAcq x, rel := ordRel x, scope := scopeOf x }
      orWait (cmdRoom s (s.coreOf t) 1) s t ((s.issueCmd t o).retire t (extLen x))) s)

/-- `mzero d, a` (R221). -/
def execMzero (x : Option Ext) (d a : Operand) (s : State) : Host.Outcome State Fault Refusal :=
  let pair (s : State) (t : Nat) : Nat × Nat :=
    let rs := regsOf (s.th t) a 2
    ((rs[0]?.map (s.regVal t)).getD 0 |>.toNat, (rs[1]?.map (s.regVal t)).getD 0 |>.toNat)
  .next (runPlain x d.isS
    (fun s t => (holdsEngine s t false).andThen ((opCheck s t [d, a] [srcN a 2] (regsOf (s.th t) d 1)).andThen
      (let p := pair s t
      if p.1 % 64 ≠ 0 || p.2 % 64 ≠ 0 || p.2 = 0 || bufSize .c < p.1 + p.2 then trapHere s t 0x0A 8
      else if cmdRoom s (s.coreOf t) 1 then .ok else .wait .retry)))
    (fun s t =>
      let p := pair s t
      let o := { newOp s t 1 (regsOf (s.th t) d 1) with
        fn := 2, record := [BitVec.ofNat 32 p.1, BitVec.ofNat 32 p.2] }
      orWait (cmdRoom s (s.coreOf t) 1) s t ((s.issueCmd t o).retire t (extLen x))) s)

/-! ### What `mma` computes (R77 to R79, R216 to R218) -/

/-- An element's code in packed bytes (R67). -/
def packedCode (bits k : Nat) (bs : List Byte) : Nat :=
  match bits with
  | 16 => leNat ((bs.drop (2 * k)).take 2)
  | 8 => (bs.getD k 0).toNat
  | _ => (bs.getD (k / 2) 0).toNat / 16 ^ (k % 2) % 16

/-- Decoding of a matrix element; raw is BF16 or FP16 by RAWF. -/
def matElem (t : Tag) (rawf : Bool) (cb : Option CbUse) (code : Nat) : FVal :=
  match t with
  | .raw => if rawf then fp16 (BitVec.ofNat 16 code) else bf (BitVec.ofNat 16 code)
  | t => decodeElem t ((cb.map CbUse.entries).getD []) code

/-- The K blocks of the command, in column groups of 48 (R220). -/
def mmaBlocks (b : List Word) : Nat := (bCols b + 47) / 48 * bBlocks b

/-- The columns of a column group. -/
def groupCols (b : List Word) (g : Nat) : List Nat := (List.range (bCols b)).filter fun j => j / 48 = g

/-- What K block number n needs: C before the first block of a column group, when ACC = 1 (R217); the elements of B that are not
masked; the scale bytes of rows, columns and blocks that are not masked (R216), those of A with the first column group. That C is
read element by element in this place is a DESIGN CHOICE, log entry 103. -/
def mmaUnits (o : Op) (n : Nat) : List MmaUnit :=
  let b := o.record
  let g := n / bBlocks b
  let kb := n % bBlocks b
  let js := groupCols b g
  let ks := ((List.range 16).map fun k => 16 * kb + k).filter fun k => k < bKe b
  let live := js.filter fun j => j < bNe b
  (if bAcc b && kb = 0 then (List.range (bRows b)).flatMap fun i => js.map fun j => .c i j else []) ++
    (ks.flatMap fun k => live.map fun j => .b k j) ++
    (if scaled o.atag o.btag (bAsc b) && kb < usedBlocks b && g = 0 then
      ((List.range (bMe b)).filter fun i => (o.rows.getD i none).isSome).map fun i => .sa i kb else []) ++
    (if scaled o.btag o.atag (bBsc b) && kb < usedBlocks b then live.map fun j => .sb kb j else [])

/-- Those of the units that the command has not read yet. -/
def Op.unread (o : Op) (us : List MmaUnit) : List MmaUnit := us.filter fun u => !(o.units.any fun x => x.1 = u)

/-- What the command reads next, by a free choice among all that its remaining K blocks need (R215). -/
def mmaNext (o : Op) (pick : Nat) : Option MmaUnit :=
  let us := o.unread ((List.range (mmaBlocks o.record - o.cursor)).flatMap fun n => mmaUnits o (o.cursor + n))
  us[pick % us.length]?

/-- Where a unit lies: the core's buffer, its offset and its bytes. -/
def mmaSite (s : State) (o : Op) (u : MmaUnit) : Nat × Space × Nat × Nat :=
  let b := o.record
  match u with
  | .c i j => (o.coreId, .c, bCaddr b + i * bCstr b + 4 * j, 4)
  | .b k j => (o.coreId, .w, bBaddr b + (j * bK b + k) * elemBits o.btag / 8, (elemBits o.btag + 7) / 8)
  | .sa i kb => (s.homeOf o.tid, .a, (bAsc b).toNat + i * bBlocks b + kb, 1)
  | .sb kb j => (o.coreId, .w, (bBsc b).toNat + j * bBlocks b + kb, 1)

/-- The bytes that the command read for a unit; none for one that it does not read. -/
def Op.unit (o : Op) (u : MmaUnit) : List Byte := ((o.units.find? fun x => x.1 = u).map Prod.snd).getD []

/-- A's element (i, k); +0 when masked. `sc` is the row's scale byte for its block. -/
def aElem (o : Op) (i k : Nat) : FVal :=
  if bKe o.record ≤ k then .fin false 0 0
  else match (o.rows.getD i none) with
    | some bs => matElem o.atag (bRawf o.record) o.acb (packedCode (elemBits o.atag) k bs)
    | none => .fin false 0 0

/-- B's element (k, j) from what was read; +0 when masked. -/
def bElem (o : Op) (k j : Nat) : FVal :=
  let b := o.record
  if bKe b ≤ k || bNe b ≤ j then .fin false 0 0
  else
    let bs := o.unit (.b k j)
    let code := if elemBits o.btag = 4 then packedCode 4 ((j * bK b + k) % 2) bs else leNat bs
    matElem o.btag (bRawf b) o.bcb code

/-- The element is masked on A's side, or on B's. -/
def aMasked (o : Op) (i k : Nat) : Bool := bKe o.record ≤ k || (o.rows.getD i none).isNone
def bMasked (o : Op) (k j : Nat) : Bool := bKe o.record ≤ k || bNe o.record ≤ j

/-- Scale byte of a block: 127 when none applies. -/
def aScale (o : Op) (i kb : Nat) : Nat := ((o.unit (.sa i kb)).getD 0 127).toNat
def bScale (o : Op) (kb j : Nat) : Nat := ((o.unit (.sb kb j)).getD 0 127).toNat

/-- A value times 2^e, exact. -/
def FVal.scale (x : FVal) (e : Int) : FVal := match x with | .fin n m g => .fin n m (g + e) | y => y

/-- One block's step of an element: the new accumulator and its flags. A product with a masked element is +0, whatever the other
operand holds (R78, R212); an accumulator read from C raises no flag for being a signalling NaN (R218). -/
def mmaBlockStep (o : Op) (i j kb : Nat) (acc : Word) : Word × Flags :=
  let ks := (List.range 16).map fun k => 16 * kb + k
  if intTag o.atag && intTag o.btag then
    (acc + BitVec.ofInt 32 ((ks.map fun k => ((aElem o i k).dy.mul (bElem o k j).dy).z).sum), 0)
  else
    let sa := aScale o i kb
    let sb := bScale o kb j
    let zero : FVal := .fin false 0 0
    let factors (k : Nat) : FVal × FVal :=
      if aMasked o i k || bMasked o k j then (zero, zero)
      else (if sa = 255 then .nan false else aElem o i k, if sb = 255 then .nan false else bElem o k j)
    let r := blockSum (ks.map factors)
    let s := r.1.scale ((sa : Int) - 127 + (sb : Int) - 127)
    let c := match f32 acc with | .nan _ => .nan false | v => v
    let y := wordOfNat (fAdd .fp32 c s)
    (y.1, y.2 ||| (if r.2 then fNV else 0))

/-- The first n blocks of an element in ascending order: from `acc`, its partial accumulator and its flags (R220). -/
def mmaPart (o : Op) (i j n : Nat) (acc : Word) : Word × Flags :=
  (List.range n).foldl (fun (r : Word × Flags) kb =>
    let y := mmaBlockStep o i j kb r.1
    (y.1, r.2 ||| y.2)) (acc, 0)

/-- All blocks of an element. -/
def mmaElem (o : Op) (i j : Nat) (acc : Word) : Word × Flags := mmaPart o i j (bBlocks o.record) acc

/-- What an element starts from: C's word as it was read, or zero (R212). -/
def mmaStart (o : Op) (i j : Nat) : Word := if bAcc o.record then BitVec.ofNat 32 (leNat (o.unit (.c i j))) else 0

/-- The rows of C that a completed `mma` writes, and the command's flags (R218). -/
def mmaResult (o : Op) : List (Nat × List Byte) × Flags :=
  let b := o.record
  let rows := (List.range (bRows b)).map fun i =>
    let cs := (List.range (bCols b)).map fun j => mmaElem o i j (mmaStart o i j)
    ((bCaddr b + i * bCstr b, cs.flatMap fun x => wBytes x.1), cs.foldl (fun f x => f ||| x.2) (0 : Flags))
  (rows.map Prod.fst, rows.foldl (fun f x => f ||| x.2) (0 : Flags))

/-! ### Drains (R222 to R225) -/

def dCaddr (r : List Word) : Nat := fld (lw r 0) 0 19
def dCstr (r : List Word) : Nat := fld (lw r 1) 16 16
def dInt (r : List Word) : Bool := bit (lw r 1) 15
def dRows (r : List Word) : Nat := fld (lw r 1) 7 6 + 1
def dCols (r : List Word) : Nat := fld (lw r 1) 0 7 + 1
def dAddr (r : List Word) : Nat := (lw r 2).toNat
def dStr (r : List Word) : Nat := fld (lw r 3) 16 16
def dSpace (r : List Word) : Nat := fld (lw r 3) 14 2
def dFmt (r : List Word) : Nat := fld (lw r 3) 11 3
def dOpt (r : List Word) : Nat := fld (lw r 3) 8 3
def dTdst (r : List Word) : Nat := fld (lw r 3) 6 2
def dTaddr (r : List Word) : Word := lw r 4
def dGamma (r : List Word) : Word := lw r 5
def dBeta (r : List Word) : Word := lw r 6
def dEps (r : List Word) : Word := lw r 7

/-- Width of an output element in bits. -/
def dBits (r : List Word) : Nat := match dFmt r with | 0 => 32 | 1 => 16 | 2 => 16 | 5 => 4 | 7 => 32 | _ => 8

/-- Bytes of one output row. -/
def dRowBytes (r : List Word) : Nat := (dCols r * dBits r + 7) / 8

def given (w : Word) : Bool := w != 0xFFFFFFFF

/-- The record fault found at the start, by the codes of R225; 0 for none. DEDUCED, log entry 22. -/
def mdrCode (r : List Word) : Nat :=
  let lim : Option Nat := match dSpace r with | 0 => some (bufSize .a) | 1 => some (bufSize .w) | _ => none
  let past (l : Option Nat) (n : Nat) : Bool := match l with | some l => l < n | none => false
  let tlim : Option Nat := match dTdst r with | 0 => some (bufSize .a) | 2 => some (bufSize .c) | _ => none
  let elem := if dBits r = 4 then 1 else dBits r / 8
  if fld (lw r 0) 19 13 ≠ 0 || fld (lw r 1) 13 2 ≠ 0 || 96 ≤ fld (lw r 1) 0 7 || fld (lw r 3) 0 6 ≠ 0 || 4 ≤ dOpt r ||
      dTdst r = 3 then 1
  else if bufSize .c < dCaddr r + (dRows r - 1) * dCstr r + 4 * dCols r then 2
  else if past lim (dAddr r + (dRows r - 1) * dStr r + dRowBytes r) ||
      (given (dTaddr r) && past tlim ((dTaddr r).toNat + 16 * dRows r)) ||
      (given (dGamma r) && bufSize .a < (dGamma r).toNat + 4 * dCols r) ||
      (given (dBeta r) && bufSize .a < (dBeta r).toNat + 4 * dCols r) then 3
  else if dCaddr r % 4 ≠ 0 || dCstr r % 4 ≠ 0 || (given (dGamma r) && (dGamma r).toNat % 4 ≠ 0) ||
      (given (dBeta r) && (dBeta r).toNat % 4 ≠ 0) || (given (dTaddr r) && (dTaddr r).toNat % 16 ≠ 0) ||
      dAddr r % elem ≠ 0 then 4
  else if (dInt r && (dOpt r ≠ 0 || !(dFmt r = 0 || dFmt r = 7))) || (dFmt r = 5 && dCols r % 2 ≠ 0) ||
      (dOpt r = 1 && !given (dTaddr r)) || (dOpt r = 3 && !given (dTaddr r)) || (dOpt r = 3 && dTdst r ≠ 0) then 5
  else 0

/-- The format tag a drain leaves on A and W granules (R224). -/
def dTag (r : List Word) : Tag :=
  match dFmt r with | 3 => .e4m3 | 4 => .e5m2 | 5 => .e2m1 | 6 => .i8 | _ => .raw

/-- Conversion of an FP32 result to DFMT (R223): the code and flags. -/
def drainConvert (fmt : Nat) (y : Word) : Nat × Flags :=
  match fmt with
  | 0 => match f32 y with
    | .nan sg => (0x7FC00000, if sg then fNV else 0)
    | _ => (y.toNat, 0)
  | 1 => convert .bf16 (f32 y)
  | 2 => convert .fp16 (f32 y)
  | 3 => convert .e4m3 (f32 y)
  | 4 => convert .e5m2 (f32 y)
  | 5 => convertE2m1 (f32 y)
  | 6 => let r := convertInt (-128) 127 false (f32 y); ((BitVec.ofInt 8 r.1).toNat, r.2)
  | _ => let r := convertInt (-2147483648) 2147483647 false (f32 y); ((BitVec.ofInt 32 r.1).toNat, r.2)

/-- A word of INT32 C: `i2f`, or unchanged. -/
def drainInt (fmt : Nat) (y : Word) : Nat × Flags := if fmt = 7 then (y.toNat, 0) else convert .fp32 (ofInt y.toInt)

/-- The row's own triple: unweighted updates in column order (R81, R83). -/
def rowTriple (xs : List Word) : Triple × Flags :=
  xs.foldl (fun (r : Triple × Flags) x =>
    let y := blendT r.1 ⟨0x3F800000, x, 0⟩
    (y.1, r.2 ||| y.2)) (Triple.empty, 0)

/-- One column of a normalised row. -/
def normElem (t : Triple) (r : Word) (g b : Option Word) (x : Word) : Word × Flags :=
  let y1 := sub32 x t.mu
  let y2 := mul32 y1.1 r
  let y3 := match g with | some g => mul32 y2.1 g | none => (y2.1, 0)
  let y4 := match b with | some b => add32 y3.1 b | none => (y3.1, 0)
  (y4.1, y1.2 ||| y2.2 ||| y3.2 ||| y4.2)

/-- What a drain makes of a row: output codes, the triple to deliver, and flags. -/
def drainRow (r : List Word) (xs : List Word) (supplied : Triple) (gs bs : List Word) :
    List Nat × Option Triple × Flags :=
  let own := if dOpt r = 1 || dOpt r = 2 then rowTriple xs else (supplied, 0)
  let rstd : Word × Flags := if 2 ≤ dOpt r then triRstd own.1 (dEps r) else (0, 0)
  let out := ((List.range xs.length).zip xs).map fun p =>
    let y : Word × Flags := if 2 ≤ dOpt r then
        normElem own.1 rstd.1 (if given (dGamma r) then some (lw gs p.1) else none)
          (if given (dBeta r) then some (lw bs p.1) else none) p.2
      else (p.2, 0)
    let c := if dInt r then drainInt (dFmt r) y.1 else drainConvert (dFmt r) y.1
    (c.1, y.2 ||| c.2)
  let t := if dOpt r = 1 || (dOpt r = 2 && given (dTaddr r)) then some own.1 else none
  (out.map Prod.fst, t, out.foldl (fun f p => f ||| p.2) (own.2 ||| rstd.2))

/-- Two 4-bit codes to a byte, low first; other codes as little-endian bytes: the units a drain writes (R224). -/
def pairCodes : List Nat → List (List Byte)
  | a :: b :: rest => leBytes 1 (a + 16 * b) :: pairCodes rest
  | [a] => [leBytes 1 a]
  | [] => []

def drainUnits (bits : Nat) (cs : List Nat) : List (List Byte) :=
  if bits = 4 then pairCodes cs else cs.map fun c => leBytes (bits / 8) c

/-- The writes of row i, in order: the row's elements, and its triple. DEDUCED, log entry 42. A triple that goes to A leaves the tag of
its granule as it is. DESIGN CHOICE, log entry 110. -/
def drainWrites (s : State) (o : Op) (i : Nat) (res : List Nat × Option Triple × Flags) : List OutWrite :=
  let r := o.record
  let home := s.homeOf o.tid
  let c := o.coreId
  let us := drainUnits (dBits r) res.1
  let n := if dBits r = 4 then 1 else dBits r / 8
  let at_ := dAddr r + i * dStr r
  let unit (k : Nat) (b : List Byte) : OutWrite := match dSpace r with
    | 1 => .buf .w c (at_ + n * k) b (some (dTag r)) none
    | _ => .near (s.co c).ldie (s.nwin o.tid + (at_ + n * k) % 2 ^ 32) b none
  let row : List OutWrite := match dSpace r with
    | 0 => ((List.range us.length).zip us).map fun p => .buf .a home (at_ + n * p.1) p.2 (some (dTag r)) none
    | 3 => []
    | _ => ((List.range us.length).zip us).map fun p => unit p.1 p.2
  let tri : List OutWrite := match res.2.1 with
    | none => []
    | some t =>
      let a := (dTaddr r).toNat + 16 * i
      match dTdst r with
      | 0 => [.buf .a home a ((t.words ++ [0]).flatMap wBytes) none none]
      | 1 => [.triple (s.nwin o.tid + a % 2 ^ 32) t.words]
      | _ => [.buf .c c a ((t.words ++ [0]).flatMap wBytes) none none]
  row ++ tri

/-- A write that waits for the completion step: to A or C (R210). -/
def OutWrite.late (w : OutWrite) : Bool := match w with | .buf .a _ _ _ _ _ | .buf .c _ _ _ _ _ => true | _ => false

end Sys2Proof.Machine
end

