-- ==== Sys2Proof/Machine/RefSteps.lean ====
section
/-! DEFINITION. The steps of the reference machine as events: leaving a FIFO, applying, draining, merging, filling,
evicting, performing, non-temporal drains, deliveries, served pops and deferred completions (R51 to R64, R106, R164,
R166 to R170, R189, R304, R305, R312). A step whose condition does not hold leaves the machine as it is. -/

namespace Sys2Proof.Machine

/-! ### Leave FIFO -/

/-- An earlier entry of the warp for the even core's A-buffer still waits in the own core's queue as a release: an entry behind it
reaches the even core's queue after it (R57, R147). -/
def behindRelease (s : State) (e : Entry) : Bool :=
  let c := s.coreOf e.tid
  !e.dieRel && e.home != c && (s.co c).wq.any fun g => g.dieRel && g.home = e.home && (s.th g.tid).warp = (s.th e.tid).warp

/-- The entry is a marker of `pfree` or `lees`. -/
def Entry.isPool (e : Entry) : Bool :=
  match e.body with
  | .mark (.pfree _ _) | .mark (.lees _ _) => true
  | _ => false

/-- A pool marker may enter the write queue: those of the lower home lanes of its bundle, in whatever warps, have. Each is a release, so
they drain in that order (R296). DEDUCED, log entry 30. -/
def poolTurn (s : State) (e : Entry) : Bool :=
  !e.isPool || (s.warps.flatMap Warp.fifo).all fun f => !(f.isPool && f.bundle = e.bundle && laneBefore s f.tid e.tid)

/-- Where an entry that leaves the FIFO goes next; `none` when it must wait. -/
def leaveTo (s : State) (e : Entry) : Option State :=
  let wqc := if e.dieRel then s.coreOf e.tid else e.home
  let room (c : Nat) : Bool := (s.co c).wq.length < Config.wqDepth
  let send (pa : BitVec 64) (body : RouteBody) (sched : Bool) : Option State :=
    if peerRelReady s e pa then
      some (s.pushRoute { s.mkRoute (.core (s.coreOf e.tid)) (peerDst pa) body (s.ctxIdOf e.tid) e.tid with
        peer := e.peers, launch := s.launchOf e.tid, rel := e.rel, scope := e.scope, sched := sched })
    else none
  match e.body with
  | .peerStore pa w => send pa (.stx pa w) (schedOf s e.tid)
  | .peerRed pa k xs => send pa (.red pa k xs) false
  | .cmd i =>
    let record (off n : Nat) (f : State → List Byte → State) : Option State :=
      (s.recordView (s.op i) off n).map fun bs =>
        let x := s.placeEcc (.buf (s.homeOf e.tid) .a) off n (s.ctxIdOf e.tid)
        if x.2 then x.1 else f x.1 bs
    if (s.op i).engine = 5 then record (s.op i).arg 64 fun s bs => s.enterLaunch i (wordsOf 16 bs)
    else if (s.op i).engine = 4 then
      record ((s.op i).arg + 56) 4 fun s bs =>
        let tag := hi16 (wOf bs)
        let c := s.ctxOf e.tid
        let j := ((c.ctags.find? fun x => x.1 = tag).map Prod.snd).getD 0
        let s := s.modCtx c.id fun c => { c with ctags := (tag, j + 1) :: c.ctags.filter fun x => x.1 ≠ tag }
        (s.enterQueue i).modOp i fun o => { o with instance_ := j }
    else some (s.enterQueue i)
  | _ =>
    if e.nt then some (s.modCo (s.coreOf e.tid) fun k => { k with nt := k.nt ++ [e] })
    else if room wqc && !behindRelease s e && poolTurn s e then some (s.modCo wqc fun k => { k with wq := k.wq ++ [e] })
    else none

/-- The loads that an entry's threads issued before it have performed. -/
def mayLeave (s : State) (e : Entry) : Bool := (e.lanes s).all fun x => loadsPerformed s x.1 x.2 e.isStore

/-- The entry is a warp's part of this bundle's `bar`. -/
def Entry.isBar (g : Nat) (e : Entry) : Bool := match e.body with | .bar h _ => h = g | _ => false

/-- Insert one lane's operation by ascending home lane. -/
def insBar (s : State) (x : Nat × Nat × BarKind) : List (Nat × Nat × BarKind) → List (Nat × Nat × BarKind)
  | [] => [x]
  | y :: ys => if laneBefore s y.1 x.1 then y :: insBar s x ys else x :: y :: ys

/-- The parts of a bundle's `bar` leave their FIFOs together, as one entry with the operations in ascending home lane over
all its warps, when each is at the head of its own (R110). DEDUCED, log entry 30. -/
def State.leaveBar (s : State) (g : Nat) : State :=
  let ws := (List.range s.warps.length).filter fun w => (s.wp w).fifo.any (Entry.isBar g)
  let parts := ws.filterMap fun w => (s.wp w).fifo.head?
  let ops := (parts.flatMap fun e => match e.body with | .bar _ o => o | _ => []).foldr (insBar s) []
  if parts.all fun e => e.isBar g && mayLeave s e && !behindRelease s e then
    match parts with
    | [] => s
    | e :: _ => (leaveTo (ws.foldl (fun s w => s.modWp w fun x => { x with fifo := x.fifo.tail }) s)
        { e with body := .bar g ops }).getD s
  else s

/-- LEAVE_FIFO (R51): the head of a warp's store FIFO. -/
def execLeaveFifo (warp : Nat) (s : State) : Host.Outcome State Fault Refusal :=
  .next (match (s.wp warp).fifo with
  | [] => s
  | e :: rest =>
    match e.body with
    | .bar g _ => s.leaveBar g
    | _ =>
      if mayLeave s e then (leaveTo (s.modWp warp fun w => { w with fifo := rest }) e).getD s else s)

/-! ### Apply and drain -/

def Entry.isAC (e : Entry) : Bool := e.sp = .a || e.sp = .c

/-- An N entry older than position `i` of a write queue. -/
def olderN (wq : List Entry) (i : Nat) : Bool := (wq.take i).any fun e => e.sp = .n

/-- APPLY (R51, R111): the oldest A or C entry of a core's write queue. An arrive of a pair team first waits, as a
release at die scope, in its own core's queue. -/
def execApply (core : Nat) (s : State) : Host.Outcome State Fault Refusal :=
  let wq := (s.co core).wq
  .next (match wq.findIdx? Entry.isAC with
  | none => s
  | some i =>
    let e := wq.getD i (s.entry 0 .a 0 (.store []))
    let out := s.modCo core fun k => { k with wq := k.wq.eraseIdx i }
    if e.dieRel && olderN wq i then s
    else if e.home ≠ core then
      if (s.co e.home).wq.length < Config.wqDepth then
        out.modCo e.home fun k => { k with wq := k.wq ++ [{ e with dieRel := false }] }
      else s
    else match e.body with
      | .push w => out.applyPush core e w
      | .pop t ticket => out.applyPop core e t ticket
      | _ => out.execEntry (.buf core e.sp) e)

def overlaps (a b : Nat × Nat) : Bool := a.1 < b.1 + b.2 && b.1 < a.1 + a.2

/-- Two entries touch a byte of one place. -/
def Entry.meets (e f : Entry) : Bool :=
  e.at_ f.sp f.die && e.ranges.any fun r => f.ranges.any (overlaps r)

/-- What an entry releases: the scope, the thread, and the peer stores that it had issued before. A merged entry does so for
each release reduction that it holds (R54, R164). -/
def Entry.released (e : Entry) : List (BitVec 3 × Nat × Nat) :=
  match e.body with
  | .atom _ ops => if e.rel then ops.map fun o => (e.scope, o.tid, o.peers) else []
  | .red _ ops => (ops.filter RedPart.rel).map fun o => (o.scope, o.tid, o.peers)
  | _ => if e.rel then [(e.scope, e.tid, e.peers)] else []

/-- The threads that issued an operation of the entry with O = 1 (R57). -/
def Entry.oThreads (e : Entry) : List Nat :=
  match e.body with
  | .atom _ ops => if e.o then ops.map AtomOp.tid else []
  | .red _ ops => (ops.filter RedPart.o).map RedPart.tid
  | _ => []

/-- Two entries hold operations with O = 1 of one thread (R57). -/
def Entry.ordered (e f : Entry) : Bool := e.oThreads.any f.oThreads.contains

/-- A release entry for N: its own, or a pair team's arrive on its way to the even core (R54, R111). -/
def Entry.releases (e : Entry) : Bool := (e.sp = .n && e.rel) || e.dieRel

/-- The drain condition of R51, R54 and R57. The write queue that a release waits for is the core's own: entries that a pair's odd core
has sent to the even core's queue (R147) do not hold it. DEDUCED, log entry 92. -/
def drainReady (s : State) (core i : Nat) (e : Entry) : Bool :=
  let older := (s.co core).wq.take i
  e.sp = .n && !older.any (fun f => f.releases || (f.sp = .n && (f.meets e || f.ordered e))) &&
    (!e.rel ||
      (!olderN (s.co core).wq i && e.released.all fun x =>
        !(2 ≤ x.1.toNat && older.any Entry.isAC) && !(4 ≤ x.1.toNat && peersPending s x.2.1 x.2.2)))

/-- DRAIN (R51): an N entry writes or executes at near memory, and the core's own copies take the new value. -/
def execDrain (core i : Nat) (s : State) : Host.Outcome State Fault Refusal :=
  .next (match (s.co core).wq[i]? with
  | none => s
  | some e =>
    if drainReady s core i e then
      let s1 := (s.modCo core fun k => { k with wq := k.wq.eraseIdx i }).execEntry (.near e.die) e
      e.ranges.foldl (fun s r => s.refreshCopy core e.die r.1 r.2) s1
    else s)

/-- What the joined entry of two reductions is: it executes once, so it releases and acquires when either does; what each
operation brought stands with it. -/
def Entry.join (e f : Entry) (body : Body) : Entry :=
  { e with body := body, rel := e.rel || f.rel, acq := e.acq || f.acq, o := e.o || f.o, bars := e.bars || f.bars }

/-- No entry between keeps the two apart (R51, R54, R57): no release entry, an A-space one or one at team scope among them. The joined
entry stands where both may execute: at the place of the later one when that is a release, since all that is older than a release
drains before it, and at the place of the earlier one otherwise. DEDUCED, log entry 79. -/
def mergePasses (e f : Entry) (between : List Entry) : Bool :=
  !between.any (fun g => g.bars || g.releases) &&
    if f.rel then !between.any fun g => g.meets e || g.ordered e || (e.rel && g.sp = .n)
    else !between.any fun g => g.meets f || g.ordered f

/-- The later entry may join the earlier (R51, R164): one kind, one line, no release between. -/
def mergeOk (k k' : AtomKind) (e f : Entry) (between : List Entry) (addrs : List Nat) : Bool :=
  k == k' && e.at_ f.sp f.die && addrs.all (fun a => a / 64 == e.addr / 64) && !e.dieRel && !f.dieRel &&
    mergePasses e f between

/-- The write queue after a merge of the entries at i and j. -/
def mergedQueue (wq : List Entry) (i j : Nat) (f joined : Entry) : List Entry :=
  if f.rel then (wq.set j joined).eraseIdx i else (wq.set i joined).eraseIdx j

/-- MERGE (R164): a later reduction of one kind joins an earlier one of the same line. What waited for the later entry
waits for the joined one. -/
def execMerge (core i j : Nat) (s : State) : Host.Outcome State Fault Refusal :=
  let wq := (s.co core).wq
  .next (match wq[i]?, wq[j]? with
  | some e, some f =>
    match e.body, f.body with
    | .red k ops, .red k' ops' =>
      if i < j && mergeOk k k' e f ((wq.take j).drop (i + 1)) ((ops ++ ops').map RedPart.addr) then
        let also (l : List Nat) : List Nat := if l.contains f.seq then e.seq :: l else l
        let s1 := s.modCo core fun c => { c with wq := mergedQueue c.wq i j f (e.join f (.red k (ops ++ ops'))) }
        { s1 with ops := s1.ops.map fun o =>
            { o with mark := also o.mark, sent := if o.engine = 1 then also o.sent else o.sent } }
      else s
    | _, _ => s
  | _, _ => s)

/-- FILL (R51): the core's copy of a line takes near memory's value. -/
def execFill (core line : Nat) (s : State) : Host.Outcome State Fault Refusal :=
  let d := s.pdie (s.co core).ldie
  .next (if core < s.cores.length ∧ 64 * line < (s.die d).memBytes then
    let x := s.eccGuard (arrNear d) (64 * line) 64 (s.co core).ctx d
    if x.2 then x.1 else x.1.fillLine core d line
  else s)

/-- EVICT (R51): a core copy is discarded. -/
def execEvict (core line : Nat) (s : State) : Host.Outcome State Fault Refusal :=
  let d := s.pdie (s.co core).ldie
  .next (s.modCo core fun k => { k with copies := k.copies.filter fun x => ¬(x.die = d ∧ x.line = line) })

/-- NT_DRAIN (R51, R159): any entry of a non-temporal queue; the core's copy of its line is discarded. -/
def execNtDrain (core i : Nat) (s : State) : Host.Outcome State Fault Refusal :=
  .next (match (s.co core).nt[i]? with
  | none => s
  | some e =>
    let s1 := (s.modCo core fun k => { k with nt := k.nt.eraseIdx i }).execEntry (.near e.die) e
    s1.modCo core fun k => { k with copies := k.copies.filter fun x => ¬(x.die = e.die ∧ x.line = e.addr / 64) })

/-! ### Perform (R52, R55, R62, R292) -/

/-- The value a load's bytes give in a register, and the words of its destinations. -/
def loadWords (sz : BitVec 3) (bs : List Byte) : List Word :=
  match sz.toNat with
  | 1 => [(BitVec.ofNat 8 (leNat bs)).signExtend 32]
  | 3 => [(BitVec.ofNat 16 (leNat bs)).signExtend 32]
  | 5 => wordsOf 2 bs
  | 6 => wordsOf 4 bs
  | _ => [wOf bs]

/-- The oldest load of a thread that is still to perform from memory. -/
def firstLoad (x : Thread) : Option Load := x.memLoads.head?

/-- PERFORM (R52): the thread's oldest pending load takes its value, from a core copy if asked and allowed. -/
def execPerform (tid : Nat) (useCopy : Bool) (s : State) : Host.Outcome State Fault Refusal :=
  let x := s.th tid
  let ctx := s.ctxIdOf tid
  .next (match firstLoad x with
  | none => s
  | some l =>
    if loadHeld x l then s
    else if l.kind = .mem true then finishLoad s tid l [0x7F]
    else
      let n := szBytes l.sz
      match l.sp with
      | .n => match s.nearLoad tid l useCopy with
        | .wait => s
        | .ended s => s
        | .ok s bs => finishLoad s tid l (loadWords l.sz bs)
      | sp =>
        match loadView s tid l (s.bufRead l.core sp l.addr n) with
        | none => s
        | some bs =>
          let r := if loadTouches s tid l then s.placeEcc (.buf l.core sp) l.addr n ctx else (s, false)
          if r.2 then r.1 else finishLoad r.1 tid l (loadWords l.sz bs))

/-! ### Deliver (R61 to R63) -/

/-- A peer store or reduction is declared lost: its grid remembers it (R170). -/
def State.loseStore (s : State) (r : Route) : State :=
  match r.launch with
  | some l => s.modLa l fun x => { x with peerLost := true }
  | none => s

/-- The die at whose interface a response of this route arrives: the destination die, or the issuing core's. -/
def routeDie (s : State) (r : Route) : Option Nat :=
  match r.dst, r.src with
  | .die d, _ => some (s.pdie d)
  | _, .core c => some (s.pdie (s.co c).ldie)
  | _, .engine c _ | _, .face c => some (s.pdie (s.co c).ldie)
  | _, .host _ | _, .link _ => none

/-- The route carries an old vintage (R312). -/
def routeStale (s : State) (r : Route) : Bool :=
  match routeDie s r with
  | some d => (s.die d).vintage ≠ r.vintage
  | none => false

/-- A counter that stops at its last value. -/
def satSucc (w : Word) : Word := if w = 0xFFFFFFFF then w else w + 1

/-- A die counts a response that its reset has overtaken (R312). -/
def State.countStale (s : State) (d : Nat) : State := s.modDie d fun x => { x with stalecnt := satSucc x.stalecnt }

/-- The physical die of an operation's core. -/
def State.opDie (s : State) (o : Op) : Nat := s.pdie (s.co o.coreId).ldie

/-- Reads of host memory that are outstanding at a port. -/
def readsOut (s : State) (p : BitVec 1) : Nat := (s.ops.filter fun o => o.asked && rHport o.record = p).length

/-- A request to the host waits while its port has as many outstanding as it has tags (R303). -/
def tagFree (s : State) (r : Route) : Bool :=
  match r.body, r.dst with
  | .hostRead _ _ _, .host p => readsOut s p < Config.hostTags
  | _, _ => true

/-- What a reset has overtaken is dropped. A response is counted (R312); a posted write is counted as lost and treated as
acknowledged (R305); a peer device's request is answered, that a reset intervened (R312). DEDUCED, log entry 57. -/
def State.dropStale (s : State) (r : Route) : State :=
  match r.body with
  | .posted _ _ _ => { s with hostlost := satSucc s.hostlost }
  | .inWrite _ _ | .inRed _ _ _ | .inRead _ _ =>
    { s with out := s.out ++ [.answer (match r.src with | .link k => k | _ => 0) .stale] }
  | _ => match routeDie s r with
    | some d => s.countStale d
    | none => s

/-- The entry's destination on this device, translated: the physical die and address. DEDUCED, log entry 62. -/
def ownSite (s : State) (ctx : Word) (ldie va : Nat) (acc : Access) : Option (Nat × Nat) :=
  if ldie < s.ndie ∧ (s.die (s.pdie ldie)).inService then
    match s.translate none ctx ldie va acc with
    | .ok (_, pa) => some (s.pdie ldie, pa)
    | .error _ => none
  else none

/-- What a peer entry meets at its destination: the bytes it read and the new state, or why it failed (R166). The
device's own rank is served here, in the issuing context, unless the die was reset since the request was issued, which then has
status 1 (R312); a peer's outcome comes with the event. DEDUCED, log entry 34. -/
def peerOutcome (s : State) (r : Route) (pa : BitVec 64) (m : PeerMsg) (n : Nat) (acc : Access)
    (f : State → Nat → Nat → State) : State × Except PeerMsg (List Byte) :=
  if paRank pa = s.rank then
    if (s.die (s.pdie (paLdie pa))).vintage ≠ r.target then (s, .error .stale) else
    let s := s.walkEcc none r.ctx (paLdie pa) (paVa pa)
    match ownSite s r.ctx (paLdie pa) (paVa pa) acc with
    | some (d, a) =>
      let x := if acc = .store then s.partEcc (.near d) a n r.ctx else s.eccGuard (arrNear d) a n r.ctx d
      if x.2 then (x.1, .error .failed) else (f x.1 d a, .ok (x.1.near d a n))
    | none => (s, .error .failed)
  else match m with
    | .done bs => (s, .ok bs)
    | .stale => (s, .error .stale)
    | _ => (s, .error .failed)

/-- The operation stops: its remaining work is dropped, and it completes with this status. -/
def State.failOp (s : State) (i : Nat) (status : BitVec 16) (detail : Word) : State :=
  s.modOp i fun o => if o.status = 0 then { o with status := status, detail := detail } else o

/-- An engine's access at a peer failed: a copy completes with status 1 or code 8 (R239, R240), a collective aborts
(R256). -/
def State.failPeer (s : State) (i : Nat) (stale : Bool) : State :=
  if (s.op i).engine = 4 then s.failOp i 3 ((s.op i).record.getD 15 0)
  else if stale then s.failOp i 1 0 else s.failOp i 4 0x43500008

/-- A posted write may be delivered: earlier ones of its requester in other route queues are acknowledged (R63). -/
def postedReady (s : State) (r : Route) (req : Nat) : Bool :=
  s.routes.all fun q => r.seq ≤ q.seq || (q.src == r.src && q.dst == r.dst) || match q.body with
    | .posted q' _ _ => q' ≠ req
    | _ => true

/-- A peer device's own access is performed at its die, and answered (R62, R166). -/
def State.peerAnswer (s : State) (r : Route) (va : Nat) (acc : Access)
    (f : State → Nat → Nat → State × Option (List Byte)) : State :=
  let rank : BitVec 8 := match r.src with | .link k => k | _ => 0
  let l := match r.dst with | .die l => l | _ => 8
  let s := s.walkEcc none r.ctx l va
  let x := match ownSite s r.ctx l va acc with
    | some (d, a) => f s d a
    | none => (s, none)
  { x.1 with out := x.1.out ++ [.answer rank (match x.2 with | some bs => .done bs | none => .failed)] }

/-- The rank a route goes to. -/
def Route.rank (r : Route) : BitVec 8 := match r.dst with | .peer k _ => k | _ => 0

/-- A store that a route brings to near memory; one of the scheduled class passes the copies that cores hold (R282). -/
def State.setPeer (s : State) (r : Route) (d pa : Nat) (bs : List Byte) : State :=
  let s1 := s.setNear d pa bs
  if r.sched then s1.passCopies d pa bs.length else s1

/-- The effect of a delivery. A peer load that fails acquires nothing. DESIGN CHOICE, log entry 93. -/
def State.deliverEffect (s : State) (r : Route) (m : PeerMsg) : State :=
  match r.body with
  | .stx pa w =>
    let x := peerOutcome s r pa m 4 .store fun s d a => s.setPeer r d a (wBytes w)
    match x.2 with
    | .ok _ => x.1
    | .error _ => x.1.loseStore r
  | .red pa k xs =>
    let x := peerOutcome s r pa m (kindBytes k) .atomic fun s d a => s.atomAt (.near d) k a xs
    match x.2 with
    | .ok _ => x.1
    | .error _ => x.1.loseStore r
  | .ldx pa i =>
    let x := peerOutcome s r pa m 4 .load fun s _ _ => s
    let t := (s.op i).tid
    let s1 := x.1.modTh t fun y => { y with loads := y.loads.filter fun l => l.kind ≠ .peer i }
    match x.2 with
    | .ok bs =>
      let s2 := s1.completeOp i 0 s.openDetail [wOf bs]
      if r.acq then s2.discardCopies (s2.coreOf t) else s2
    | .error .stale => s1.completeOp i 1 s.openDetail [0]
    | .error _ => s1.completeOp i 4 s.openDetail [0]
  | .write i parts obj =>
    let d := match r.dst with | .die l => s.pdie l | _ => 8
    let e := parts.foldl (fun (e : State × Bool) p =>
      if e.2 then e else e.1.partEcc (.near d) p.1 p.2.length r.ctx) (s, false)
    let s1 := parts.foldl (fun s p => s.setNear d p.1 p.2) e.1
    if e.2 then e.1
    else match obj with
    | none => s1
    | some o =>
      let c := s1.countBar (.near d) o (parts.map fun p => p.2.length).sum r.ctx
      if c.2 then c.1.modOp i fun x => { x with overrun := true } else c.1
  | .peerWrite i pa bytes =>
    let x := peerOutcome s r pa m bytes.length .store fun s d a => s.setNear d a bytes
    match x.2 with
    | .ok _ => x.1.modOp i fun o => { o with acked := o.acked + bytes.length }
    | .error m =>
      if (x.1.op i).stage = .done then x.1.loseStore r
      else (x.1.modOp i fun o => { o with outs := [] }).failPeer i (match m with | .stale => true | _ => false)
  | .peerRead i pa len =>
    let x := peerOutcome s r pa m len .load fun s _ _ => s
    match x.2 with
    | .ok bs => x.1.modOp i fun o => { o with got := o.got ++ [bs.take len] }
    | .error .stale => x.1.failPeer i true
    | .error _ => x.1.failPeer i false
  | .hostWrite _ addr bytes =>
    { s with out := s.out ++ [.write (match r.dst with | .host p => p | _ => 0) addr bytes] }
  | .hostRead i addr n =>
    { s.modOp i fun o => { o with asked := true, askedAt := (s.die (s.opDie (s.op i))).vintage } with
      out := s.out ++ [.read (match r.dst with | .host p => p | _ => 0) i addr n] }
  | .posted _ va bytes =>
    let p : BitVec 1 := match r.src with | .host p => p | _ => 0
    let l := match r.dst with | .die l => l | _ => 8
    let s := s.walkEcc none r.ctx l va
    match ownSite s r.ctx l va .store with
    | some (d, a) =>
      let e := s.partEcc (.near d) a bytes.length r.ctx
      if e.2 then e.1 else e.1.setNear d a bytes
    | none => s.modPort p fun x => { x with errors := x.errors ++ [(l, va, r.ctx)] }
  | .inWrite va bytes => s.peerAnswer r va .store fun s d a =>
      let e := s.partEcc (.near d) a bytes.length r.ctx
      if e.2 then (e.1, none) else (e.1.setPeer r d a bytes, some [])
  | .inRed va k xs => s.peerAnswer r va .atomic fun s d a =>
      let e := s.eccGuard (arrNear d) a (kindBytes k) r.ctx d
      if e.2 then (e.1, none) else (e.1.atomAt (.near d) k a xs, some [])
  | .inRead va len => s.peerAnswer r va .load fun s d a =>
      let e := s.eccGuard (arrNear d) a len r.ctx d
      if e.2 then (e.1, none) else (e.1, some (e.1.near d a len))
  | .face l ell q xs retired => match m with
    | .done _ => { s with out := s.out ++ [.face r.rank ell q xs retired] }
    | _ => s.loseFace l
  | .report l ell q leaf retired => match m with
    | .done _ => { s with out := s.out ++ [.report r.rank ell q leaf retired] }
    | _ => s.loseFace l

/-- A peer device's own access enters the route from its link to a logical die of this device (R50, R61). -/
def State.peerArrives (s : State) (rank : BitVec 8) (ctx : Word) (l : Nat) (body : RouteBody) (sched : Bool) : State :=
  s.pushRoute { s.mkRoute (.link rank) (.die l) body ctx 0 with tid := s.threads.length, sched := sched }

/-- DELIVER (R61): the oldest undelivered entry of its route queue; or a peer's access that enters the
route queue of its link. -/
def execDeliver (i : Nat) (m : PeerMsg) (s : State) : Host.Outcome State Fault Refusal :=
  .next (match m with
  | .store rank ctx l va bs sched => s.peerArrives rank ctx l (.inWrite va bs) sched
  | .reduce rank ctx l va k xs => s.peerArrives rank ctx l (.inRed va k xs) false
  | .load rank ctx l va n => s.peerArrives rank ctx l (.inRead va n) false
  | _ =>
    match s.routes[i]? with
    | none => s
    | some r =>
      let oldest := (s.routes.take i).all fun q => !(q.src == r.src && q.dst == r.dst)
      let ready := match r.body with
        | .posted req _ _ => postedReady s r req
        | _ => true
      let s1 := { s with routes := s.routes.eraseIdx i }
      if routeStale s r then s1.dropStale r
      else if oldest && ready && tagFree s r then s1.deliverEffect r m
      else s)

/-! ### Queues and deferred instructions -/

/-- CHANNEL_POP_SERVED (R106): the first pop that waits at its channel, or at q0, takes the next entry. -/
def execChannelPopServed (core i : Nat) (s : State) : Host.Outcome State Fault Refusal :=
  let k := s.co core
  .next (match k.popWait[i]? with
  | none => s
  | some w =>
    let same (x : Waiter) : Bool := (x.q = 0) = (w.q = 0) && (w.q = 0 || x.chan = w.chan)
    let out := s.modCo core fun k => { k with popWait := k.popWait.eraseIdx i }
    if (k.popWait.take i).any same then s
    else if w.q = 0 then
      match q0Word k (s.th w.tid) with
      | some v => ((out.q0Pop w.tid).givePop w.tid w.ticket v).settlePops w.tid
      | none => s
    else match s.chanAt core w.chan with
      | some ch =>
        let x := out.chanEcc core w.chan true
        if chanLen ch = 0 then s
        else if x.2 then x.1
        else
          let r := x.1.chanPop core w.chan ch
          (r.1.givePop w.tid w.ticket r.2).settlePops w.tid
      | none => s)

/-- DEFERRED_COMPLETE (R189): every value it names exists, so the instruction writes its result. -/
def execDeferredComplete (tid i : Nat) (s : State) : Host.Outcome State Fault Refusal :=
  .next (s.completeDeferred tid i)

end Sys2Proof.Machine
end

