-- ==== Sys2Proof/Machine/EngineSteps.lean ====
section
/-! DEFINITION. The steps of the engines as events: start, read, write, completion and cancel, host completions, and the
losses of R170 (R19, R21, R58, R59, R210 to R211, R234 to R245, R251 to R259). A step whose condition does not hold
leaves the machine as it is. -/

namespace Sys2Proof.Machine

/-! ### Start (R58, R210, R231) -/

/-- Earlier commands of the queue: all completed for the matrix engine, all started for the others. -/
def queueReady (s : State) (i : Nat) : Bool :=
  let o := s.op i
  s.ops.all fun p => !(p.core = o.core && p.engine = o.engine && p.order < o.order && p.ctx = o.ctx) ||
    (if o.engine = 1 then p.stage = .done else p.stage != .queued) || p.stage = .inFifo

/-- A matrix engine works only while its core is resident: a running `mma` has then stopped at a K-block boundary (R22, R220,
`quietCore`). Where a running `mdr` stops, no rule says: between any two of its row reads and element writes. DESIGN CHOICE, log
entry 102. -/
def engineHere (s : State) (o : Op) : Bool := o.engine != 1 || (s.co o.coreId).resident

/-- The logical cores that RMASK names and the context has placed nothing on yet get their records, so that they can
receive (R235). DEDUCED, log entry 65. -/
def State.nameReceivers (s : State) (i : Nat) (r : List Word) : State :=
  let o := s.op i
  let l := (s.co o.coreId).ldie
  { s with cores := s.cores ++ ((rMask r).filter fun c => (coreOn s o.ctx l c).isNone).map fun c =>
      { CoreSt.blank with ctx := o.ctx, ldie := l, core := c } }

/-- The operation starts with its record and flags, or completes with a record fault. -/
def State.startWith (s : State) (i : Nat) (r : List Word) (code : Nat) (base : Nat) (flags : Bool) : State :=
  if code ≠ 0 then s.completeOp i 4 (BitVec.ofNat 32 (base + code))
  else (if flags then s.nameReceivers i r else s).modOp i fun o => { o with
    stage := .started, record := r, acq := if flags then rAcq r else o.acq, rel := if flags then rRel r else o.rel
    scope := if flags then rScope r else o.scope }

/-- A record of n bytes in the A-buffer has been read: an uncorrectable error there ends the context (R174). -/
def State.recordRead (s : State) (i n : Nat) (f : State → State) : State :=
  let o := s.op i
  let e := s.placeEcc (.buf (s.homeOf o.tid) .a) o.arg n o.ctx
  if e.2 then e.1 else f e.1

/-- ENGINE_START (R58): the record is read in one step through the core view, and checked. -/
def execEngineStart (op : Nat) (s : State) : Host.Outcome State Fault Refusal :=
  let o := s.op op
  let own := (s.co o.coreId).ldie
  .next (if o.stage = .queued ∧ queueReady s op ∧ engineHere s o then
    match o.engine.toNat with
    | 1 =>
      if !acqReady s o then s
      else if o.fn = 1 then
        match s.recordView o o.arg 32 with
        | some bs => s.recordRead op 32 fun s => s.startWith op (wordsOf 8 bs) (mdrCode (wordsOf 8 bs)) 0x4D440000 false
        | none => s
      else s.modOp op fun o => { o with stage := .started }
    | 2 => match readRecord s op with
      | some r => s.recordRead op (4 * r.length) fun s => s.startWith op r (copyCode s o.ctx o.arg r) 0x43500000 true
      | none => s
    | 3 => match s.recordView o o.arg 64 with
      | some bs => s.recordRead op 64 fun s =>
        s.startWith op (wordsOf 16 bs) (sortCode s own (wordsOf 16 bs)) 0x53540000 false
      | none => s
    | 4 => match readRecord s op with
      | some r => s.recordRead op (4 * r.length) fun s => s.startWith op r (colCode s o.arg r) 0x434C0000 true
      | none => s
    | _ => s
  else s)

/-! ### Read (R58, R210, R234, R245, R252) -/

/-- What an engine read does once it has its bytes. -/
def EngineRead.andThen (r : EngineRead) (s : State) (f : State → List Byte → Pte → State) : State :=
  match r with
  | .wait => s
  | .fault s' => s'
  | .ended s' => s'
  | .ok s' bs p => f s' bs p

def EngineRead.isFault (r : EngineRead) : Bool := match r with | .fault _ => true | _ => false

def noPte : Pte := ⟨0, 0, 0, 0, 0, false, false, false, false⟩

/-- An `mma` reads one of the values that it has still to read, through the core view; when it has all that the K block at its
cursor needs, it takes the block (R215, R220). -/
def mmaRead (s : State) (i : Nat) : State :=
  let o := s.op i
  let due := o.unread (mmaUnits o o.cursor)
  if mmaBlocks o.record ≤ o.cursor then s
  else if due.isEmpty then s.modOp i fun o => { o with cursor := o.cursor + 1, midBlock := false }
  else match mmaNext o (Config.mmaPick s.tick) with
    | none => s
    | some u =>
      let x := mmaSite s o u
      (s.readBuf i x.1 x.2.1 x.2.2.1 x.2.2.2).andThen s fun s bs _ => s.modOp i fun o => { o with
        units := (u, bs) :: o.units, midBlock := o.midBlock || due.contains u }

/-- An `mdr` reads one row, with its triple and its columns' factors, and makes its writes. -/
def mdrRead (s : State) (i : Nat) : State :=
  let o := s.op i
  let r := o.record
  let home := s.homeOf o.tid
  let inA (used : Bool) (s : State) (off n : Nat) : EngineRead :=
    if used then s.readBuf i home .a off n else .ok s [] noPte
  let factors (s : State) (w : Word) : EngineRead := inA (2 ≤ dOpt r && given w) s w.toNat (4 * dCols r)
  if o.cursor < dRows r then
    (inA (dOpt r = 3) s ((dTaddr r).toNat + 16 * o.cursor) 12).andThen s fun s1 tb _ =>
      (factors s1 (dGamma r)).andThen s fun s2 gs _ =>
        (factors s2 (dBeta r)).andThen s fun s3 bs _ =>
          (s3.readBuf i o.coreId .c (dCaddr r + o.cursor * dCstr r) (4 * dCols r)).andThen s fun s4 row _ =>
            let t := if dOpt r = 3 then Triple.ofWords (wordsOf 3 tb) else Triple.empty
            let res := drainRow r (wordsOf (dCols r) row) t (wordsOf (dCols r) gs) (wordsOf (dCols r) bs)
            s4.modOp i fun o => { o with
              cursor := o.cursor + 1, flags := o.flags ||| res.2.2, outs := o.outs ++ drainWrites s o o.cursor res }
  else s

/-- A source element of a copy or collective at an element offset. -/
def sourceAt (s : State) (i : Nat) (off : Int) : Where_ :=
  let o := s.op i
  whereAt (s.co o.coreId).ldie (rSsp o.record) (rSaddr o.record) (rB o.record * off)

/-- Reading a source element from this device. -/
def State.readSource (s : State) (i : Nat) (w : Where_) : EngineRead :=
  let o := s.op i
  match w with
  | .buf sp off => s.readBuf i (if sp = .a then s.homeOf o.tid else o.coreId) sp off (rB o.record)
  | .near l va => s.readNear i l va (rB o.record)
  | _ => .wait

/-- The operation and the locations of an engine's write in a route. -/
def Route.writes (s : State) (r : Route) : Option (Nat × List Loc) :=
  match r.body, r.dst with
  | .write i ps _, .die l => some (i, ps.map fun p => ⟨.near (s.pdie l), p.1, p.2.length⟩)
  | .peerWrite i pa bs, _ => some (i, (OutWrite.peer pa bs).locs s r.ctx)
  | .hostWrite i a bs, .host p => some (i, [⟨.host p, a.toNat, bs.length⟩])
  | _, _ => none

/-- The locations of a source element. -/
def sourceLocs (s : State) (i : Nat) (w : Where_) : List Loc :=
  let o := s.op i
  let n := rB o.record
  let near (l va : Nat) : List Loc := match s.translate none o.ctx l va .load with
    | .ok (_, pa) => [⟨.near (s.pdie l), pa, n⟩]
    | .error _ => []
  match w with
  | .buf sp off => [⟨.buf (if sp = .a then s.homeOf o.tid else o.coreId) sp, off, n⟩]
  | .near l va => near l va
  | .peer pa => if paRank pa = s.rank then near (paLdie pa) (paVa pa) else [⟨.peer (paRank pa) (paLdie pa), paVa pa, n⟩]
  | .host a => [⟨.host (rHport o.record), a.toNat, n⟩]

/-- The granule whose tag a source element passes on (R237). -/
def granuleLoc (s : State) (i : Nat) (w : Where_) : List Loc :=
  let o := s.op i
  match w, rTag o.record with
  | .buf .a off, 7 => [⟨.buf (s.homeOf o.tid) .a, off / 64 * 64, 64⟩]
  | .buf .w off, 7 => [⟨.buf o.coreId .w, off / 64 * 64, 64⟩]
  | _, _ => []

/-- A write that a copy has still to make goes to the source element, or to the granule whose tag it passes on: the element is read
with the value and the tag written (R234, R237). A write on its way to a place that is read by another path is waited for too. -/
def sourceBusy (s : State) (i : Nat) (w : Where_) : Bool :=
  let o := s.op i
  let due (a : Loc) : Bool := match a.sp with
    | .peer _ _ => false
    | _ => s.routes.any fun r => match r.writes s with
      | some (j, as) => j = i && as.any a.meets
      | none => false
  (sourceLocs s i w ++ granuleLoc s i w).any fun a =>
    due a || o.outs.any fun v => (v.locs s o.ctx).any a.meets

/-- A copy's element has been read: its writes follow; a codebook's table is complete with its sixteenth entry. -/
def copyTake (s : State) (i : Nat) (src : Where_) (bs : List Byte) (p : Pte) : State :=
  let o := s.op i
  let r := o.record
  if rKind r then
    let got := o.got ++ [bs]
    if got.length = 16 then
      let cores := if (rMask r).isEmpty then [o.coreId]
        else (rMask r).filterMap fun c => coreOn s o.ctx (s.co o.coreId).ldie c
      let t := cbFirst r + o.cursor / 16
      s.modOp i fun o => { o with got := [], cursor := o.cursor + 1
                                  outs := o.outs ++ cores.map fun c =>
                                    .codebook c t (got.map fun b => BitVec.ofNat 16 (leNat b)) }
    else s.modOp i fun o => { o with got := got, cursor := o.cursor + 1 }
  else
    let ws := elemWrites s i r (elemOffs r o.cursor).2 bs (tagFor r (srcTag s o src p))
    s.modOp i fun o => { o with got := [], cursor := o.cursor + 1, outs := o.outs ++ ws }

/-- The element that a copy reads next, when it may. -/
def nextSource (s : State) (i : Nat) : Option Where_ :=
  let o := s.op i
  let w := sourceAt s i (elemOffs o.record o.cursor).1
  if o.cursor < rCount o.record && o.status = 0 && !sourceBusy s i w then some w else none

/-- A copy reads its next element; one that faults is met when the writes of those before it are made (R234, R240). P and H elements
are asked for in a route, and taken when their bytes have come: an H element goes by the host port that HPORT names (R232), and
comes with HOST_COMPLETION. -/
def copyRead (s : State) (i : Nat) : State :=
  let o := s.op i
  let r := o.record
  match nextSource s i with
  | none => s
  | some w =>
    match w with
    | .peer pa =>
      let asked := s.routes.any fun q => match q.body with | .peerRead j _ _ => j = i | _ => false
      match o.got with
      | bs :: _ => copyTake s i (.peer pa) bs noPte
      | [] => if asked then s else s.engineRoute i (peerDst pa) (.peerRead i pa (rB r))
    | .host a =>
      let asked := o.asked || s.routes.any fun q => match q.body with | .hostRead j _ _ => j = i | _ => false
      if asked then s else s.engineRoute i (.host (rHport r)) (.hostRead i a (rB r))
    | w =>
      let x := s.readSource i w
      if x.isFault && !o.outs.isEmpty then s else x.andThen s fun s bs p => copyTake s i w bs p

/-- A sort reads its keys, then takes its tokens in order, then writes OFFS and CNTS (R245). DEDUCED, log entry 43. -/
def sortRead (s : State) (i : Nat) : State :=
  let o := s.op i
  let r := o.record
  let own := (s.co o.coreId).ldie
  let n := sKeys r
  let m := if sPay r then sBytes r / 16 else 1
  let ks := sKeyList o
  let put (k off : Nat) (bs : List Byte) : OutWrite :=
    let x := sSite own r k
    .near x.1 (x.2 + off) bs none
  let w32 (v : Nat) : List Byte := leBytes 4 v
  let add (s : State) (ws : List OutWrite) : State :=
    s.modOp i fun o => { o with cursor := o.cursor + 1, outs := o.outs ++ ws }
  if o.cursor < n then
    let x := sSite own r 0
    (s.readNear i x.1 (x.2 + 4 * o.cursor) 4).andThen s fun s bs _ =>
      s.modOp i fun o => { o with cursor := o.cursor + 1, got := o.got ++ [bs] }
  else if o.cursor < n + n * m then
    let t := (o.cursor - n) / m
    let j := (o.cursor - n) % m
    let k := ks.getD t 0
    if sExp r ≤ k then add s []
    else
      let at_ := rankOfKey ks t
      let perm := if j = 0 then [put 1 (4 * at_) (w32 t)] else []
      if sPay r then
        let x := sSite own r 4
        (s.readNear i x.1 (x.2 + t * sBytes r + 16 * j) 16).andThen s fun s bs _ =>
          add s (perm ++ [put 5 (at_ * sBytes r + 16 * j) bs])
      else add s perm
  else if o.cursor = n + n * m then
    add s ((List.range (sExp r)).flatMap fun e =>
      [put 2 (4 * e) (w32 (offsetOf ks e)), put 3 (4 * e) (w32 (countOf ks e))])
  else s

/-- The record whose strides address a collective's destination tile. -/
def destRec (r : List Word) : List Word := if cMode r = 1 then partRec r else r

/-- The chunk that holds element e of the destination tile. -/
def chunkOf (r : List Word) (e : Nat) : Nat := e * rB r / cChunk r

/-- Locations of element e of a destination tile. -/
def elemLocs (s : State) (i : Nat) (r : List Word) (e : Nat) : List Loc :=
  (elemWrites s i r (elemOffs r e).2 (List.replicate (rB r) 0) .raw).flatMap fun w => w.locs s (s.op i).ctx

/-- The value that a collective's own source element has in engine staging: that of the last element before it which goes to the
same place and is not yet written (R234, R252). -/
def stagedAt (s : State) (i : Nat) (w : Where_) : Option (List Byte) :=
  let o := s.op i
  let r := o.record
  let here := sourceLocs s i w
  ((List.range o.got.length).reverse.find? fun e => !o.sent.contains (chunkOf r e) &&
    (elemLocs s i (destRec r) e).any fun a => here.any a.meets).map fun e => o.got.getD e []

/-- The tag that a collective's own source element passes on (R237): that which the last element before it that goes to the granule
gives the granule, where its chunk is still to be written (R234), else the one that the source carries. -/
def stagedTag (s : State) (i : Nat) (w : Where_) (p : Pte) : Tag :=
  let o := s.op i
  let r := o.record
  let here := granuleLoc s i w
  match (List.range o.got.length).reverse.find? fun e =>
      (elemLocs s i (destRec r) e).any fun a => here.any a.meets with
  | some e => if o.sent.contains (chunkOf r e) then srcTag s o w p else tagFor r (o.tags.getD e .raw)
  | none => srcTag s o w p

/-- A collective takes the next element of the tile: its own source and what the other members bring, which also says that every
member has started (R255). Word of another member's disagreement or abort ends it, halted at a fault or not (R256, R259; DESIGN
CHOICE, log entry 24). -/
def colRead (s : State) (i : Nat) (m : PeerMsg) : State :=
  let o := s.op i
  let r := o.record
  let pos := groupPos r s.rank.toNat
  let take (s : State) (own : Option (List Byte)) (tag : Tag) (others : List Byte) : State :=
    let v := colValue r pos own others
    let mine := (destElem r pos o.cursor).isSome
    s.modOp i fun x => { x with
      cursor := x.cursor + 1, flags := x.flags ||| v.2
      got := if mine then x.got ++ [v.1] else x.got, tags := if mine then x.tags ++ [tag] else x.tags }
  let stop (status : BitVec 16) (detail : Word) : State :=
    (s.failOp i status detail).modOp i fun o => { o with stage := .started }
  match m with
  | .failed => if o.cursor = 0 then stop 4 0x434C0008 else stop 3 (cBmap r)
  | .stale => stop 3 (cBmap r)
  | .done bytes =>
    if o.stage = .started && o.cursor < rCount r && o.status = 0 && bytes.length = othersBytes r pos o.cursor + (if farTag r pos o.cursor then 1 else 0) then
      match ownSource r pos o.cursor with
      | none => take s none (if farTag r pos o.cursor then Tag.ofCode ((bytes.getLastD 0).setWidth 3) else .raw) bytes
      | some off =>
        let w := sourceAt s i off
        match stagedAt s i w with
        | some bs => take s (some bs) (stagedTag s i w noPte) bytes
        | none => (s.readSource i w).andThen s fun s bs p => take s (some bs) (stagedTag s i w p) bytes
    else s
  | _ => s

/-- ENGINE_READ (R58). -/
def execEngineRead (op : Nat) (m : PeerMsg) (s : State) : Host.Outcome State Fault Refusal :=
  let o := s.op op
  .next (if (o.stage = .started ∨ (o.stage = .faulted ∧ o.engine = 4)) ∧ engineHere s o ∧ acqReady s o then
    match o.engine.toNat with
    | 1 => if o.fn = 0 then mmaRead s op else if o.fn = 1 then mdrRead s op else s
    | 2 => copyRead s op
    | 3 => sortRead s op
    | 4 => colRead s op m
    | _ => s
  else s)

/-- HOST_COMPLETION (R232, R240): the bytes of the H element that a copy has asked for, through the port that it asked, or an error
that stops the copy with code 7. One that comes after a reset of the copy's die is stale, and counted (R312); one that a stopped copy
no longer waits for is dropped. -/
def execHostCompletion (op : Nat) (reply : HostReply) (err : Bool) (s : State) : Host.Outcome State Fault Refusal :=
  let o := s.op op
  let r := o.record
  let answered (s : State) : State := s.modOp op fun o => { o with asked := false }
  .next (if !o.asked || reply.port ≠ rHport r then s
  else if (s.die (s.opDie o)).vintage ≠ o.askedAt then (answered s).countStale (s.opDie o)
  else if o.stage ≠ .started || o.status ≠ 0 || rCount r ≤ o.cursor then answered s
  else match nextSource s op with
    | none => s
    | some w =>
      if err then answered (s.failOp op 4 0x43500007)
      else if reply.bytes.length = rB r then answered (copyTake s op w reply.bytes noPte)
      else s)

/-! ### Write (R58, R210, R224, R236, R257) -/

/-- The destination of a write that travels in a route. -/
def OutWrite.dst (w : OutWrite) : Option Dst :=
  match w with
  | .near l _ _ _ => some (.die l)
  | .peer pa _ => some (peerDst pa)
  | .host p _ _ => some (.host p)
  | _ => none

/-- The locations of the arrays that a sort writes, in pieces. -/
def sortLocs (s : State) (i : Nat) : List Loc :=
  let o := s.op i
  let r := o.record
  ([1, 2, 3] ++ if sPay r then [5] else []).flatMap fun k =>
    let g := if k = 5 then 16 else 4
    let x := sSite (s.co o.coreId).ldie r k
    (List.range (sSize r k / g)).flatMap fun q => nearLoc s o.ctx x.1 (x.2 + g * q) g

/-- A command of the instance has still to write the location. -/
def futureMeets (s : State) (i : Nat) (a : Loc) : Bool :=
  let o := s.op i
  let r := o.record
  o.outs.any (fun w => (w.locs s o.ctx).any a.meets) || o.status = 0 && match o.engine.toNat with
    | 2 =>
      if rKind r then match a.sp with
        | .book c => ((rMask r).isEmpty && c = o.coreId || (rMask r).contains (s.co c).core) &&
            cbFirst r + o.cursor / 16 ≤ a.addr && a.addr < cbFirst r + cbTables r
        | _ => false
      else (List.range (rCount r - o.cursor)).any fun k => (elemLocs s i r (o.cursor + k)).any a.meets
    | 3 =>
      let m := if sPay r then sBytes r / 16 else 1
      o.cursor ≤ sKeys r + sKeys r * m && (sortLocs s i).any a.meets
    | 4 => (List.range (destCount r)).any fun e =>
        !o.sent.contains (chunkOf r e) && (elemLocs s i (destRec r) e).any a.meets
    | _ => false

/-- Two writes to one location by commands of one engine instance take effect in command order (R58): no earlier command has the
location still to write, and no write to it travels in another route. DEDUCED, log entry 76. -/
def cmdTurn (s : State) (i : Nat) (w : OutWrite) : Bool :=
  let o := s.op i
  let ls := w.locs s o.ctx
  let mate (p : Op) : Bool := p.core = o.core && p.engine = o.engine && p.ctx = o.ctx
  let before (p : Op) : Bool := mate p && p.order < o.order && (p.stage = .started || p.stage = .faulted)
  ((List.range s.ops.length).all fun j => !before (s.op j) || !ls.any (futureMeets s j)) &&
    s.routes.all fun r => match r.writes s with
      | some (j, as) => !mate (s.op j) || some r.dst = w.dst || !as.any fun a => ls.any a.meets
      | none => true

/-- With TAG 7, the whole granule that a location lies in: the last element written there gives it its tag (R237). -/
def withGranule (r : List Word) (a : Loc) : Loc :=
  match a.sp, rTag r with
  | .buf _ .a, 7 | .buf _ .w, 7 => ⟨a.sp, a.addr / 64 * 64, 64⟩
  | _, _ => a

/-- An earlier chunk that goes to a place of this one, or gives a tag to a granule of it, is written before it (R234, R237,
R252). -/
def chunkTurn (s : State) (i c : Nat) : Bool :=
  let o := s.op i
  let r := o.record
  let locs (c : Nat) : List Loc := ((chunkElems r c).flatMap (elemLocs s i (destRec r))).map (withGranule r)
  (List.range c).all fun k => o.sent.contains k || !(locs k).any fun a => (locs c).any a.meets

/-- A chunk of a collective is written whole, once every element of it is final (R255, R257). -/
def colWrite (s : State) (i c : Nat) : State :=
  let o := s.op i
  let r := o.record
  let es := chunkElems r c
  let ws := es.flatMap fun e =>
    elemWrites s i r (elemOffs (destRec r) e).2 (o.got.getD e []) (tagFor r (o.tags.getD e .raw))
  if c < chunkCount r && o.status = 0 && !o.sent.contains c && es.all (fun e => e < o.got.length) && chunkTurn s i c &&
      ws.all (cmdTurn s i) then
    let x := s.makeAll i ws
    if x.2 then x.1.modOp i fun o => { o with sent := c :: o.sent } else x.1
  else s

/-- Number k of an operation's pending writes may be made now: a drain's in order but for those of its completion step (R224), a
copy's in the order of each receiver (R234, R235), a sort's in any order (R245). -/
def writeTurn (s : State) (o : Op) (k : Nat) : Bool :=
  match o.engine.toNat with
  | 1 => (o.outs.take k).all OutWrite.late && !(o.outs[k]?.map OutWrite.late).getD true
  | 2 => outTurn s o.outs k
  | _ => true

/-- ENGINE_WRITE (R58): one write of an operation; a collective's `i` is the chunk. -/
def execEngineWrite (op i : Nat) (s : State) : Host.Outcome State Fault Refusal :=
  let o := s.op op
  .next (if o.stage = .started ∧ engineHere s o then
    if o.engine = 4 then colWrite s op i
    else match o.outs[i]? with
      | none => s
      | some w =>
        if !writeTurn s o i || !cmdTurn s op w then s
        else
          let r := s.makeWrite op w
          if r.2 then r.1.modOp op fun o => { o with outs := o.outs.eraseIdx i, written := o.written + 1 } else r.1
  else s)

/-! ### Completion (R19, R59, R210, R236, R239, R245, R255, R257) -/

/-- Entries for A and C that were in the write queue when the command came have applied (R210). -/
def marksApplied (s : State) (o : Op) : Bool := !(s.markedLeft o).any Entry.isAC

/-- Barrier objects are counted down by the bytes that their receivers will not receive (R236). -/
def State.countDown (s : State) (xs : List (Place × Nat × Nat)) (ctx : Word) : State :=
  xs.foldl (fun s x => (s.countBar x.1 x.2.1 x.2.2 ctx).1) s

/-- A copy or collective that failed counts its receivers' objects down by the bytes they did not receive (R236). -/
def State.countRest (s : State) (i : Nat) : State := s.countDown (s.restCounts i) (s.op i).ctx

/-- No write of the operation is on its way. -/
def quiet (s : State) (i : Nat) : Bool := !s.routes.any (routeOf i)

/-- A matrix command's completion. -/
def matrixDone (s : State) (i : Nat) : State :=
  let o := s.op i
  let ready := marksApplied s o && relReady s i
  if !ready then s
  else if o.fn = 0 then
    if o.cursor = mmaBlocks o.record then
      let r := mmaResult o
      (r.1.foldl (fun s w => s.bufWrite o.coreId .c w.1 w.2) s).completeOp i 0 (r.2.zeroExtend 32)
    else s
  else if o.fn = 1 then
    if o.cursor = dRows o.record && o.outs.all OutWrite.late then
      let x := s.makeAll i o.outs
      if x.2 then x.1.completeOp i 0 (o.flags.zeroExtend 32) else x.1
    else s
  else
    (s.bufWrite o.coreId .c (lw o.record 0).toNat (List.replicate (lw o.record 1).toNat 0)).completeOp i 0 0

/-- A copy's completion (R239): whatever its status, its writes are made, and those that its flag or a barrier object waits for
are applied (R19, R59). -/
def copyDone (s : State) (i : Nat) : State :=
  let o := s.op i
  let r := o.record
  if !(o.outs.isEmpty && relReady s i && (rBkind r ≠ 2 || quiet s i)) then s
  else if o.status ≠ 0 then (s.countRest i).completeOp i o.status o.detail
  else if o.cursor = rCount r then
    if o.lost then s.completeOp i 2 o.detail
    else if o.overrun then s.completeOp i 4 0x43500006
    else s.completeOp i 0 (BitVec.ofNat 32 (rB r * rCount r))
  else s

/-- A sort's completion (R245). -/
def sortDone (s : State) (i : Nat) : State :=
  let o := s.op i
  let r := o.record
  let n := sKeys r
  let m := if sPay r then sBytes r / 16 else 1
  if o.status ≠ 0 then s.completeOp i o.status o.detail
  else if o.cursor = n + n * m + 1 && o.outs.isEmpty && relReady s i then
    s.completeOp i 0 (BitVec.ofNat 32 (droppedOf (sKeyList o) (sExp r)))
  else s

/-- A collective's completion: all chunks written and applied; on an abort the bitmap of the chunks that are final is
written in this step (R255 to R257). A record fault makes no write (R259). -/
def colDone (s : State) (i : Nat) : State :=
  let o := s.op i
  let r := o.record
  let home := s.homeOf o.tid
  if !quiet s i then s
  else if o.status = 3 then
    let s1 := if cBmap r = 0xFFFFFFFF then s else s.bufWrite home .a (cBmap r).toNat (bitmapOf (chunkCount r) o.sent)
    (s1.countRest i).completeOp i 3 o.detail
  else if o.status ≠ 0 then s.completeOp i o.status o.detail
  else if o.cursor = rCount r && o.sent.length = chunkCount r && relReady s i then
    if o.overrun then s.completeOp i 4 0x43500006 else s.completeOp i 0 (o.flags.zeroExtend 32)
  else s

/-- The completion of an operation that has stopped: the writes that its flag or an object waits for have been applied; an aborted
collective's bitmap is written (R257), the objects take what their receivers have not received, and the record follows. -/
def State.endDone (s : State) (i : Nat) : State :=
  let o := s.op i
  let wait : Bool := o.engine = 4 || (o.engine = 2 && rBkind o.record = 2)
  if relReady s i && (!wait || quiet s i) then
    let s1 := if o.engine = 4 && o.status = 3 && cBmap o.record != 0xFFFFFFFF then
        s.bufWrite (s.homeOf o.tid) .a (cBmap o.record).toNat (bitmapOf (chunkCount o.record) o.sent)
      else s
    (s1.countDown o.rest o.ctx).completeOp i o.status o.detail
  else s

/-- ENGINE_COMPLETE (R19). -/
def execEngineComplete (op : Nat) (s : State) : Host.Outcome State Fault Refusal :=
  let o := s.op op
  .next (if o.stage = .ending then s.endDone op
  else if o.stage = .started ∧ engineHere s o then
    match o.engine.toNat with
    | 1 => matrixDone s op
    | 2 => copyDone s op
    | 3 => sortDone s op
    | 4 => colDone s op
    | _ => s
  else s)

/-- Queued work that a cancel removes: it completes with status 5, having read and written nothing (R21, R211, R242,
R258). A queued launch leaves its queue (R265). -/
def State.cancelOp (s : State) (i : Nat) : State :=
  match s.launchOfOp i with
  | some l => (s.modLa l fun x => { x with stage := .complete }).completeOp i 5 s.openDetail
  | none => s.completeOp i 5 (if (s.op i).engine = 2 ∨ (s.op i).engine = 3 then 0 else s.openDetail)

/-- ENGINE_CANCEL (R21): a requested cancel reaches the engine; after the start it has no effect. -/
def execEngineCancel (op : Nat) (s : State) : Host.Outcome State Fault Refusal :=
  let o := s.op op
  .next (if o.cancel then
    match o.stage with
    | .queued => (s.modOp op fun o => { o with cancel := false }).cancelOp op
    | .inFifo => s
    | _ => s.modOp op fun o => { o with cancel := false }
  else s)

/-! ### Losses (R170, R198, R256) -/

/-- A route entry is declared lost. -/
def State.loseRoute (s : State) (i : Nat) : State :=
  match s.routes[i]? with
  | none => s
  | some r =>
    let s1 := { s with routes := s.routes.eraseIdx i }
    match r.body with
    | .stx _ _ | .red _ _ _ => s1.loseStore r
    | .ldx _ j =>
      (s1.modTh (s.op j).tid fun y => { y with loads := y.loads.filter fun l => l.kind ≠ .peer j }).completeOp j 2 s.openDetail [0]
    | .peerWrite j _ _ =>
      if (s.op j).stage = .done then s1.loseStore r
      else if (s.op j).engine = 4 then s1.failOp j 3 (cBmap (s.op j).record)
      else s1.modOp j fun o => { o with
        lost := true, detail := if o.lost || o.status ≠ 0 then o.detail else BitVec.ofNat 32 o.acked }
    | .peerRead j _ _ => s1.failOp j 2 (BitVec.ofNat 32 (s.op j).acked)
    | .face l _ _ _ _ | .report l _ _ _ _ => s1.loseFace l
    | _ => s

/-- A started collective loses a route between its members, halted at a fault or not (R256). -/
def State.loseMember (s : State) (i : Nat) : State :=
  if (s.op i).engine = 4 && ((s.op i).stage = .started || (s.op i).stage = .faulted) then
    (s.failOp i 3 (cBmap (s.op i).record)).modOp i fun o => { o with stage := .started }
  else s

/-- PEER_ACK_TIMEOUT (R170): no acknowledgement came in time, from a peer or from the device's own rank. Numbers beyond the route
queues name an operation of the collective engine, whose traffic between devices is not held as routes. DESIGN CHOICE, log
entry 40. -/
def execPeerAckTimeout (i : Nat) (s : State) : Host.Outcome State Fault Refusal :=
  let n := s.routes.length
  let late (r : Route) : Bool := r.born + 1000000 * Config.peerAckTimeoutMs ≤ s.time.toNat && match r.dst with
    | .peer _ _ => true
    | _ => false
  .next (match s.routes[i]? with
  | some r => if late r then s.loseRoute i else s
  | none => s.loseMember (i - n))

end Sys2Proof.Machine
end

