-- ==== Sys2Proof/Machine/System.lean ====
section
/-! DEFINITION. `launch`, traps and returns, waiting for device time, and the privileged operations (R266, R274, R275,
R281, R283), with saving and restoring the cores of a context (R64, R276, R277). -/

namespace Sys2Proof.Machine

/-! ### `launch`, `trap`, `rte`, `twait` -/

/-- `launch` (R266): the command, whose record is read when it leaves the FIFO. -/
def execLaunch (x : Option Ext) (d a : Operand) (ea : Bool) (s : State) : Host.Outcome State Fault Refusal :=
  .next (runPlain x d.isS (recCheck 5 64 d a ea) (recAct 5 x d a) s)

/-- `trap #n` (R274): class 0x0C with detail n; RPC is the instruction that follows (R271). -/
def execTrap (x : Option Ext) (n : BitVec 10) (s : State) : Host.Outcome State Fault Refusal :=
  .next (runPlain x false (fun _ _ => .ok)
    (fun s t => s.takeTrap t (BitVec.ofNat 32 (0x0C000000 + n.toNat)) (pcAddr (s.th t).pc)
      ((s.th t).pc + BitVec.ofNat 32 (extLen x))) s)

/-- What reading words 1 and 3 of the frame gives. -/
inductive FrameRead where
  | wait
  | ended (s : State)
  | ok (s : State) (rpc meet : Word)
deriving DecidableEq, Repr

/-- A load of one word by `rte`, at a physical address of its thread's die. -/
def State.frameLoad (s : State) (t pa : Nat) : Load :=
  { ord := (s.th t).loadCount, kind := .mem false, sp := .n, core := s.coreOf t, die := s.pdie (s.ldieOf t), addr := pa, sz := 4,
    dst := [], tag := .raw, acq := false }

/-- Words 1 and 3 of a thread's frame, read as two of its loads (R52, R275): behind the loads that it issued earlier, from its
own FIFO, the write queue, a core copy or near memory. Which of the last two serves each is free, as it is for every load.
DESIGN CHOICE, log entry 80. -/
def State.readFrame (s : State) (t : Nat) : FrameRead :=
  let x := s.th t
  let c := s.coreOf t
  match s.translate (some c) (s.ctxIdOf t) (s.ldieOf t) x.frame .load with
  | .error _ => .ended ((s.walkEcc (some c) (s.ctxIdOf t) (s.ldieOf t) x.frame).endCtx (s.ctxIdOf t) 4 x.faultCode)
  | .ok (p, pa) =>
    let rpc := s.frameLoad t (pa + 4)
    let meet := s.frameLoad t (pa + 12)
    if !x.memLoads.isEmpty || loadHeld x rpc then .wait
    else
      let s1 := s.useXlate (some c) (s.ctxIdOf t) (s.ldieOf t) x.frame p
      if !s1.live t then .ended s1
      else match s1.nearLoad t rpc (Config.freeBit s.tick (2 * t + 1)) with
        | .wait => .wait
        | .ended s2 => .ended s2
        | .ok s2 r => match (finishLoad s2 t rpc []).nearLoad t meet (Config.freeBit s.tick (2 * t + 2)) with
          | .wait => .wait
          | .ended s3 => .ended s3
          | .ok s3 m => .ok (finishLoad s3 t meet []) (wOf r) (wOf m)

/-- RETURN FROM AN EXCEPTION (R275): PC ← RPC with bits [1:0] cleared, MEET ← word 3 under R92, in-handler clear. -/
def State.returnTrap (s : State) (t : Nat) (rpc meet : Word) (len : Nat) : State :=
  (s.modTh t fun x => { x with
    meet := if meet = 0xFFFFFFFF then none else some (meet &&& 0xFFFFFFFC), inHandler := false }).jump t
      (rpc &&& 0xFFFFFFFC) len

/-- `rte` (R275): a thread outside a handler takes the illegal-instruction trap whatever its guard (R47, R271); a frame
that fails translation ends the context (R272). -/
def execRte (x : Option Ext) (s : State) : Host.Outcome State Fault Refusal :=
  .next (if s.issuing.all fun t => (s.th t).inHandler then
    runPlain x false
      (fun s t => match s.readFrame t with
        | .wait => .wait .retry
        | _ => .ok)
      (fun s t => match s.readFrame t with
        | .wait => s.setStatus t (.blocked .retry)
        | .ended s' => s'
        | .ok s' rpc meet => s'.returnTrap t rpc meet (extLen x)) s
  else
    s.issuing.foldl (fun s' t =>
      if !(s.th t).inHandler then s'.illegal t
      else if guardOn x (s.th t) then s' else s'.retire t (extLen x)) s)

/-- The 64-bit time that `twait` names. -/
def waitTime (s : State) (t : Nat) (a : Operand) : Nat :=
  let ws := (regsOf (s.th t) a 2).map (s.regVal t)
  (ws.getD 0 0).toNat + 2 ^ 32 * (ws.getD 1 0).toNat

/-- `twait` (R281): blocked until device time reaches the value read at issue. -/
def execTwait (x : Option Ext) (a : Operand) (ea : Bool) (s : State) : Host.Outcome State Fault Refusal :=
  let due (s : State) (n : Nat) : Check := if n ≤ s.time.toNat then .ok else .wait (.time n (extLen x))
  .next (runPlain x false
    (fun s t => match (s.th t).status with
      | .blocked (.time n _) => due s n
      | _ => (opCheck s t [a] [srcN a 2 ea] []).andThen (due s (waitTime s t a)))
    (fun s t => s.retire t (extLen x)) s)

/-- A `twait` whose time has come completes; a saved thread's completes after its restore (R277). -/
def State.expire (s : State) (t : Nat) : State :=
  match (s.th t).status with
  | .blocked (.time n len) => if n ≤ s.time.toNat ∧ (s.co (s.coreOf t)).resident then s.retire t len else s
  | _ => s

/-- The thread's `twait` expired while it was saved: the wait is for time 0 since its restore. -/
def expiredSaved (s : State) (t : Nat) : Bool :=
  match (s.th t).status with
  | .blocked (.time 0 _) => (s.co (s.coreOf t)).resident
  | _ => false

/-- TWAIT_EXPIRY (R281): device time has reached the value. All that expired while saved complete together (R277). -/
def execTwaitExpiry (tid : Nat) (s : State) : Host.Outcome State Fault Refusal :=
  .next (if expiredSaved s tid then
    ((List.range s.threads.length).filter (expiredSaved s)).foldl State.expire s
  else s.expire tid)

/-- TRAP_DELIVERY (R271): the FIFO has left and the loads have performed, so the trap is delivered. -/
def execTrapDelivery (tid : Nat) (s : State) : Host.Outcome State Fault Refusal :=
  .next (match (s.th tid).status with
  | .trapping i => if s.trapReady tid then s.deliverTrap tid i else s
  | _ => s)

/-! ### Saving and restoring cores (R64, R276, R277) -/

/-- Threads whose lane slots are on a core. -/
def threadsOn (s : State) (c : Nat) : List Nat := (List.range s.threads.length).filter fun t => s.coreOf t = c

/-- The core holds threads of its context. -/
def holdsThreads (s : State) (c : Nat) : Bool := (threadsOn s c).any s.live

/-- Cores of a context that it holds now. -/
def residentCores (s : State) (ctx : Word) : List Nat :=
  (List.range s.cores.length).filter fun c => (s.co c).ctx = ctx && (s.co c).resident && holdsThreads s c

/-- Cores of a context that are saved. -/
def savedCores (s : State) (ctx : Word) : List Nat :=
  (List.range s.cores.length).filter fun c => (s.co c).ctx = ctx && !(s.co c).resident && holdsThreads s c

/-- Every thread of the core can be halted: its FIFO has left, its loads have performed, and no trap is still to be
delivered (R64, R278); and its running `mma` is at a K-block boundary (R22, R220). -/
def quietCore (s : State) (c : Nat) : Bool :=
  (threadsOn s c).all (fun t => s.fifoEmpty t && (s.th t).memLoads.isEmpty && match (s.th t).status with
    | .trapping _ => false
    | _ => true) &&
  s.ops.all fun o => !(o.engine = 1 && o.core = some c && o.stage = .started && o.midBlock)

/-- What is written to the save area of a logical die (R260, R276): from SAVEBASE on, bytes that no rule gives, with the
physical die and address of each. DESIGN CHOICE, log entry 78. -/
def State.saveSites (s : State) (ctx : Word) (ldie : Nat) : List (Nat × Nat × Byte) :=
  let bs := Config.saveImage s.tick ldie
  ((List.range bs.length).zip bs).filterMap fun x =>
    let va := (s.ctx ctx).addr48 8 + x.1
    match s.leaf none ctx ldie va with
    | .ok p => some (s.pdie ldie, p.pa + va % 2 ^ pageBits p.size, x.2)
    | .error _ => none

/-- What saving these cores writes. -/
def State.saveWrites (s : State) (cs : List Nat) : List (Nat × Nat × Byte) :=
  ((cs.map fun c => ((s.co c).ctx, (s.co c).ldie)).dedup).flatMap fun x => s.saveSites x.1 x.2

/-- The threads of these cores are halted and saved; resident cells go to the cellar, each with its record written (R201, R203,
R276). -/
def State.saveCores (s : State) (cs : List Nat) : State :=
  let s1 := cs.foldl (fun s c => s.modCo c fun k => { k with resident := false, bundles := [] }) s
  let s2 := { s1 with cells := s1.cells.map fun x => if cs.contains x.core then { x with resident := false } else x }
  let s2 := (s.cells.filter fun x => x.resident && cs.contains x.core).foldl (fun s x => s.touchWrites (s.cellarSite x)) s2
  (s.saveWrites cs).foldl (fun s x => s.setNear x.1 x.2.1 [x.2.2]) s2

/-- Cores of a logical die that hold threads now. DEDUCED, log entry 46. -/
def heldOn (s : State) (ldie : Nat) : Nat :=
  ((List.range s.cores.length).filter fun c => (s.co c).resident && (s.co c).ldie = ldie && holdsThreads s c).length

/-- The saved cores can be placed: what their write queues held has drained (R64), and each die has free cores. -/
def restoreReady (s : State) (cs : List Nat) : Bool :=
  cs.all (fun c => (s.co c).wq.isEmpty) &&
    (List.range s.ndie).all fun d => heldOn s d + (cs.filter fun c => (s.co c).ldie = d).length ≤ 72

/-- The saved threads go on; the copies of their cores are discarded, and a `twait` whose time has passed is marked to
complete in the next step (R64, R277). -/
def State.restoreCores (s : State) (cs : List Nat) : State :=
  let due (x : Thread) : Thread := match x.status with
    | .blocked (.time n len) =>
      if cs.contains (s.wp x.warp).core && decide (n ≤ s.time.toNat) then { x with status := .blocked (.time 0 len) } else x
    | _ => x
  cs.foldl (fun s c => s.modCo c fun k => { k with resident := true, copies := [] })
    { s with threads := s.threads.map due }

/-- A pair team's two cores, and a pack's cores, are always saved together (R268, R276). -/
def closedSet (s : State) (cs : List Nat) : Bool :=
  let on (m : Team) : List Nat := m.core :: m.odd.toList
  let mates (m : Team) : List Nat := (s.teams.filter fun n => n.launch = m.launch && m.pack.isSome && n.pack = m.pack).flatMap on
  s.teams.all fun m => !((on m).any cs.contains) || ((on m) ++ mates m).all fun c => cs.contains c || !holdsThreads s c

/-- RESTORE (R277): saved cores of a context are placed again; a context that `ctxsave` saved waits for `ctxload`.
DEDUCED, log entry 45. -/
def execRestore (ctx : Nat) (cores : List Nat) (s : State) : Host.Outcome State Fault Refusal :=
  let id := BitVec.ofNat 32 ctx
  .next (if (s.ctx id).live ∧ ¬(s.ctx id).saved ∧ cores.all (fun c => (savedCores s id).contains c) ∧ cores.Nodup ∧
      closedSet s cores ∧ restoreReady s cores then s.restoreCores cores
  else s)

/-! ### `sysop` (R283) -/

/-- The thread's context may execute privileged operations. -/
def privileged (s : State) (t : Nat) : Bool := bit ((s.ctxOf t).words.getD 1 0) 31

/-- Without privilege every thread that reaches the word takes the illegal-instruction trap (R47, R283). -/
def runPriv (x : Option Ext) (once : Bool) (chk : State → Nat → Check) (act start : State → Nat → State) (s : State) :
    State :=
  if s.issuing.all (privileged s) then runLanes x once chk act start s
  else s.issuing.foldl (fun s t => s.illegal t) s

/-- The check of an operation whose CTXID may be any source of R37, a queue's word among them, with what it waits for. -/
def sysCheck (s : State) (t : Nat) (fields : List Operand) (a : Operand) (dst : List RegRef) (busy : Word → Bool) : Check :=
  let srcs := [src a]
  let waits := (opWait s t srcs dst).andThen (nbrCheck (allSlots s t 0 srcs))
  (withPops s t srcs ((opFault s t fields srcs dst .ok).andThen (chanCheck s t (queuesOf srcs))) waits .ok).andThen
    (if busy ((wordsNow s t srcs).getD 0 0) then .wait .retry else .ok)

/-- Its CTXID, once the check is passed. -/
def sysCtx (s : State) (t : Nat) (a : Operand) : Word := (wordsNow s t [src a]).getD 0 0

/-- The spilled face entry of a neighbour CTXID that passes its check (R204). -/
def sysReads (chk : State → Nat → Check) (a : Operand) (s : State) (t : Nat) : List (Place × Nat × Nat) :=
  if s.issuing.all (privileged s) then nbrReads chk [src a] s t else []

/-- Its blocking pops. -/
def sysStart (a : Operand) (s : State) (t : Nat) : State := s.startPops t (queuesOf [src a])

/-- The translations that a `tlbinv` names leave a TLB. -/
def dropXlate (ctx : Word) (all : Bool) (die : Option Nat) (va : Nat) (ts : List TlbEntry) : List TlbEntry :=
  ts.filter fun e => !(e.ctx = ctx && (die.isNone || die = some e.die) && (all || e.va = va / 2 ^ e.bits))

/-- `tlbinv` (R151, R283): from every core TLB and die TLB. -/
def execTlbinv (x : Option Ext) (a : Operand) (s : State) : Host.Outcome State Fault Refusal :=
  .next (runPriv x false (fun s t => opCheck s t [a] [srcN a 3] [])
    (fun s t =>
      let ws := (regsOf (s.th t) a 3).map (s.regVal t)
      let w := ws.getD 1 0
      let va := (ws.getD 0 0).toNat + 2 ^ 32 * fld w 0 16
      let die := if bit w 24 then none else some (fld w 21 3)
      let drop := dropXlate (ws.getD 2 0) (bit w 16) die va
      { s with dies := s.dies.map fun (d : Die) => { d with tlb := drop d.tlb }
               cores := s.cores.map fun (k : CoreSt) => { k with tlb := drop k.tlb } }.retire t (extLen x))
    (fun s _ => s) s)

/-- The answer of `ctxsave` and `ctxload`: 2 no such context, 1 when it has no such cores, 0 when the operation is done. -/
def sysAnswer (s : State) (id : Word) (cs : List Nat) : Word :=
  if !(s.ctx id).live then 2 else if cs.isEmpty then 1 else 0

/-- The issuer of such an operation completes with the answer in d. -/
def sysDone (x : Option Ext) (d : Operand) (s : State) (t : Nat) (r : Word) : State :=
  ((s.writeDst t d (regsOf (s.th t) d 1) (outW r)).usePops t).retire t (extLen x)

/-- `ctxsave` (R276, R283). The issuer's own threads are saved at the instruction that follows. -/
def execCtxsave (x : Option Ext) (d a : Operand) (s : State) : Host.Outcome State Fault Refusal :=
  let chk (s : State) (t : Nat) : Check := sysCheck s t [d, a] a (regsOf (s.th t) d 1)
    fun id => (s.ctx id).live && !(residentCores s id).all (quietCore s)
  .next (withReads x d.isS (sysReads chk a) (runPriv x d.isS chk
    (fun s t =>
      let c := sysCtx s t a
      let cs := residentCores s c
      let r := sysAnswer s c cs
      let s1 := sysDone x d s t r
      if r = 0 then (s1.saveCores cs).modCtx c fun y => { y with saved := true } else s1)
    (sysStart a)) s)

/-- `ctxload` (R277, R283). -/
def execCtxload (x : Option Ext) (d a : Operand) (s : State) : Host.Outcome State Fault Refusal :=
  let chk (s : State) (t : Nat) : Check := sysCheck s t [d, a] a (regsOf (s.th t) d 1)
    fun id => (s.ctx id).live && !restoreReady s (savedCores s id)
  .next (withReads x d.isS (sysReads chk a) (runPriv x d.isS chk
    (fun s t =>
      let c := sysCtx s t a
      let cs := savedCores s c
      let r := sysAnswer s c cs
      let s1 := sysDone x d s t r
      if r = 0 then (s1.restoreCores cs).modCtx c fun y => { y with saved := false } else s1)
    (sysStart a)) s)

/-- `icinv` (R25, R283). -/
def execIcinv (x : Option Ext) (s : State) : Host.Outcome State Fault Refusal :=
  .next (runPriv x false (fun _ _ => .ok)
    (fun s t => (s.modCo (s.coreOf t) fun k => { k with icache := [] }).retire t (extLen x)) (fun s _ => s) s)

/-- A context is halted without saving, and ends (R283). -/
def State.haltCtx (s : State) (id : Word) : State := if (s.ctx id).live then s.endCtx id 4 0x48540000 else s

def haltCheck (a : Operand) (s : State) (t : Nat) : Check := sysCheck s t [a] a [] fun _ => false

/-- The contexts that the lanes of the bundle halt: none when a lane traps. -/
def haltNames (x : Option Ext) (a : Operand) (s : State) : List Word :=
  let on := s.issuing.filter fun t => guardOn x (s.th t)
  let traps (t : Nat) : Bool := match haltCheck a s t with | .trap _ _ _ => true | _ => false
  if !s.issuing.all (privileged s) || on.any traps then []
  else (on.filter fun t => haltCheck a s t = .ok).map fun t => sysCtx s t a

/-- `halt` (R283): every lane's operation is done, and each issuer completes; those of a halted context end with it. -/
def execHalt (x : Option Ext) (a : Operand) (s : State) : Host.Outcome State Fault Refusal :=
  .next (withReads x false (sysReads (haltCheck a) a) (fun s => (haltNames x a s).foldl State.haltCtx
    (runPriv x false (haltCheck a) (fun s t => (s.usePops t).retire t (extLen x)) (sysStart a) s)) s)

end Sys2Proof.Machine
end

