-- ==== Sys2Proof/Machine/Scheduling.lean ====
section
/-! DEFINITION. The scheduler's steps: starting a launch, claiming teams, starting packs, completing a grid (R15, R85 to
R87, R180 to R185, R260 to R269). -/

namespace Sys2Proof.Machine

/-! ### Dependences (R263) -/

/-- What examining a dependence finds. -/
inductive DepLook where
  | met | unmet | bad
deriving DecidableEq, Repr

def depLook (s : State) (ctx : Word) (w : List Word) (o : LObj) : DepLook :=
  if !o.en then .met
  else match s.objXlate ctx w o.die o.off .load with
    | .error _ => .bad
    | .ok (_, pa) => if (BarObj.of (s.near (s.pdie o.die) pa 16)).phase != o.par then .met else .unmet

/-- Examining a launch's dependences reads them. -/
def State.eccDeps (s : State) (l : Nat) : State :=
  let x := s.la l
  let one (s : State) (o : LObj) : State := if o.en then (s.nearEcc x.ctx o.die (lNwin x.words + o.off)).1 else s
  one (one s (lDepA x.words)) (lDepB x.words)

/-- The launch waits at the head of its queue. -/
def isHead (s : State) (l : Nat) : Bool :=
  let x := s.la l
  x.stage = .queued && s.launches.all fun y =>
    !(y.stage = .queued && lQueue y.words = lQueue x.words) || x.order ≤ y.order

def depBad (s : State) (l : Nat) : Bool :=
  let x := s.la l
  depLook s x.ctx x.words (lDepA x.words) = .bad || depLook s x.ctx x.words (lDepB x.words) = .bad

def depsMet (s : State) (l : Nat) : Bool :=
  let x := s.la l
  depLook s x.ctx x.words (lDepA x.words) = .met && depLook s x.ctx x.words (lDepB x.words) = .met

/-- The launching core's write queue, as it stood when the command entered, has been performed at dev scope (R264). -/
def launchAcq (s : State) (l : Nat) : Bool := (s.markedLeft (s.op (s.la l).op)).isEmpty

def headReady (s : State) (l : Nat) : Bool := isHead s l && depsMet s l && launchAcq s l

/-- Distance of a queue from the round-robin pointer. -/
def rrDist (s : State) (q : Nat) : Nat := (q + 64 - s.rr % 64) % 64

/-- No other ready head comes first: higher PRIO, then round robin among equal PRIO (R263). -/
def firstHead (s : State) (l : Nat) : Bool :=
  let w := (s.la l).words
  (List.range s.launches.length).all fun m =>
    let v := (s.la m).words
    m = l || !headReady s m || lPrio v < lPrio w ||
      (lPrio v = lPrio w && rrDist s (lQueue w) ≤ rrDist s (lQueue v))

/-- The launch is refused after it was queued. -/
def State.refuseLaunch (s : State) (l : Nat) (detail : Word) : State :=
  (s.modLa l fun x => { x with stage := .complete }).completeOp (s.la l).op 4 detail

/-! ### Placing threads (R15, R85 to R87, R260) -/

/-- The lattice launches whose partitions hold slots of a core: those with a cell there that is not retired. -/
def partitionsHeld (s : State) (c : Nat) : List Nat :=
  ((s.cells.filter fun x => x.core = c && !x.retired && (s.la x.launch).stage = .started).map Cell.launch).dedup

/-- Pool threads that hold lane slots of a core. -/
def poolSlots (s : State) (c : Nat) : List Nat :=
  (List.range s.threads.length).filter fun t => (s.th t).cell.isNone && holdsSlot s c t

/-- Lane slots and registers in use on a core: a partition's are its grant (R87, R269). -/
def slotsHeld (s : State) (c : Nat) : Nat × Nat :=
  let ts := poolSlots s c
  let regs := (ts.map fun t => (s.th t).v.length).sum
  (partitionsHeld s c).foldl (fun h l =>
    (h.1 + (s.la l).grant, h.2 + (s.la l).grant * lAlloc (s.la l).words)) (ts.length, regs)

def slotsFit (s : State) (c n alloc : Nat) : Bool :=
  let h := slotsHeld s c
  h.1 + n ≤ 2048 && h.2 + n * alloc ≤ 262144

/-- The lowest run of W free slots in one lane pipe. DESIGN CHOICE, log entry 15. -/
def slotBase (s : State) (c width : Nat) : Option Nat :=
  let used := ((List.range s.threads.length).filter (holdsSlot s c)).map fun t => (s.th t).slot
  ((List.range (2048 / width)).map fun k => k * width).find? fun b => used.all fun u => u < b || b + width ≤ u

/-- The lowest warp index that no warp with slots on the core has, and no cell of it. DESIGN CHOICE, log entry 15. -/
def warpIdx (s : State) (c : Nat) : Nat :=
  let used := ((poolSlots s c).map fun t => (s.wpOf t).idx).dedup ++
    (s.cells.filter fun x => x.core = c && !x.retired).map fun x => (s.wpOf x.tid).idx
  ((List.range (used.length + 1)).find? fun n => !used.contains n).getD 0

/-- The launch state of a thread (R85). -/
def Thread.fresh (warp lane slot alloc : Nat) (pc : Word) : Thread :=
  { Thread.blank with
    warp := warp, lane := lane, slot := slot, status := .ready, pc := pc, v := List.replicate alloc ⟨0, .raw, true⟩ }

/-- The context's Collie starts when the context first places a thread on the core (R11, R260). -/
def State.startCollie (s : State) (c : Nat) : State :=
  let addr := (s.ctx (s.co c).ctx).addr48 6
  if (s.co c).collie.isSome ∨ addr = 0 then s
  else
    let t := s.threads.length
    let x : Thread := { Thread.fresh s.warps.length 0 2048 64 (BitVec.ofNat 32 addr &&& 0xFFFFFFFC) with collie := true }
    { s with
      teams := s.teams ++ [{ Team.blank with core := c }]
      warps := s.warps ++ [{ Warp.blank with team := s.teams.length, core := c, pipe := 4, threads := [t] }]
      threads := s.threads ++ [x] }.modCo c fun k => { k with collie := some t }

/-- The context holds threads on its logical core. -/
def holdsCore (s : State) (ctx : Word) (ldie core : Nat) : Option Nat :=
  (coreOn s ctx ldie core).filter fun c => holdsThreads s c

/-- The context may place threads of these logical cores of a die: the die is in service (R313), and it holds each core, or one of the
die is free for it (R12, R260). -/
def canHost (s : State) (ctx : Word) (ldie : Nat) (cores : List Nat) : Bool :=
  ldie < s.ndie && (s.die (s.pdie ldie)).inService && cores.all (fun n => n < 72 && ((holdsCore s ctx ldie n).all fun c => (s.co c).resident)) &&
    heldOn s ldie + (cores.filter fun n => (holdsCore s ctx ldie n).isNone).length ≤ 72

/-- Launch initialisation of a hosting core: the launch's sections are placed in its buffers, and every granule's tag is raw
(R237, R334). DESIGN CHOICE, log entry 60. -/
def State.initBuffers (s : State) (l c : Nat) : State :=
  let x := (s.la l).init
  let put (sp : Space) (bs : List Byte) (s : State) : State := if bs.isEmpty then s else s.bufWrite c sp 0 (bs.take (bufSize sp))
  (put .w x.w (put .c x.c (put .a x.a s))).modCo c fun k => { k with atags := [], wtags := [] }

/-- A core receives a team or cell of a launch: its copies are discarded (R264), the first of the launch there makes launch
initialisation, and the Collie starts. A logical core that the context does not hold yet takes a free core of the die; a
lattice's waits for RESTORE when there is none. -/
def State.readyCore (s : State) (l : Nat) (ctx : Word) (ldie core : Nat) : State × Nat :=
  let free : Bool := heldOn s ldie < 72 && !(s.ctx ctx).saved
  let r : State × Nat := match coreOn s ctx ldie core with
    | some c => (s.modCo c fun k => { k with resident := if holdsThreads s c then k.resident else free, copies := [] }, c)
    | none => ({ s with cores := s.cores ++ [{ CoreSt.blank with ctx := ctx, ldie := ldie, core := core, resident := free }] },
        s.cores.length)
  let again : Bool := s.teams.any fun m => m.launch = some l && (m.core = r.2 || m.odd = some r.2)
  let s1 := if again then r.1 else r.1.initBuffers l r.2
  (s1.startCollie r.2, r.2)

/-- Channel bindings that a launch record gives (R261). -/
def launchQueues (w : List Word) : List (Option Nat) :=
  [fld (lw w 14) 0 16, fld (lw w 14) 16 16, fld (lw w 15) 0 16].map fun n => if n = 0xFFFF then none else some (16 * n)

/-- A warp of a team takes W lane slots of a core, when it has them. -/
def State.tryWarp (s : State) (team c : Nat) (w : List Word) : Option State :=
  let width := lWidth w
  let alloc := lAlloc w
  if slotsFit s c width alloc then
    (slotBase s c width).map fun base =>
      let t0 := s.threads.length
      let i := s.warps.length
      let th (k : Nat) : Thread := { Thread.fresh i k (base + k) alloc (lw w 1) with qb := launchQueues w }
      { s with
        warps := s.warps ++ [{ Warp.blank with
          team := team, core := c, idx := warpIdx s c, width := width, pipe := base / 64 % 4, col := base % 64
          threads := (List.range width).map fun k => t0 + k }]
        threads := s.threads ++ (List.range width).map th }
  else none

/-- Team t of a pool kernel on a core, or on a core pair: the even core holds the larger half (R15, R267). -/
def State.tryTeam (s : State) (l ldie core t : Nat) (pack : Option Nat) : Option State :=
  let x := s.la l
  let w := x.words
  let pair := lPair w
  if (s.ctx x.ctx).live && !(s.ctx x.ctx).saved && (!pair || core % 2 = 0) &&
      canHost s x.ctx ldie (if pair then [core, core + 1] else [core]) then
    let e := s.readyCore l x.ctx ldie core
    let o : State × Option Nat := if pair then let r := e.1.readyCore l x.ctx ldie (core + 1); (r.1, some r.2) else (e.1, none)
    let gx := (lw w 4).toNat
    let gy := (lw w 5).toNat
    let m : Team := { launch := some l, x := BitVec.ofNat 32 (t % gx), y := BitVec.ofNat 32 (t / gx % gy)
                      z := BitVec.ofNat 32 (t / (gx * gy)), core := e.2, odd := o.2, warps := lWarps w, pack := pack }
    let team := o.1.teams.length
    (List.range (lWarps w)).foldl (fun (a : Option State) i =>
      a.bind fun s => s.tryWarp team (if i < evenWarps w then e.2 else o.2.getD e.2) w)
      (some { o.1 with teams := o.1.teams ++ [m] })
  else none

/-! ### Claims and packs (R267, R268) -/

/-- The team indices that logical die k owns: from the first number, below the second. A pack stands on one die (R268), so the
range is shared out by whole packs. DEDUCED, log entry 25. -/
def dieShare (w : List Word) (ndie k : Nat) : Nat × Nat :=
  let n := max 1 (lPack w)
  (n * (k * (lTeams w / n) / ndie), n * ((k + 1) * (lTeams w / n) / ndie))

/-- Indices that a die has still to hand out. -/
def leftOn (s : State) (l die : Nat) : Nat :=
  let x := s.la l
  if x.stage = .started && !lLattice x.words && die < s.ndie then (dieShare x.words s.ndie die).2 - x.next.getD die 0
  else 0

/-- The teams from an index on start on a die, the i-th of n on the core that `at_` gives. -/
def State.startTeams (s : State) (l die lo n : Nat) (pack : Option Nat) (at_ : Nat → Nat) : Option State :=
  (List.range n).foldl (fun (a : Option State) i => a.bind fun s => s.tryTeam l die (at_ i) (lo + i) pack) (some s)

/-- A claim: the die's range counter goes past the next n indices. -/
def State.takeTeams (s : State) (l die n : Nat) : State :=
  s.modLa l fun y => { y with next := y.next.set die (y.next.getD die 0 + n) }

/-- Indices that the next claim on a die takes. -/
def claimSize (s : State) (l die : Nat) : Nat := min (lClaim (s.la l).words) (leftOn s l die)

/-- A core's claim, when it can place every team of it; with packs, a claim of which each pack is then placed by itself. DEDUCED, log
entry 25. -/
def claimed (s : State) (l die core : Nat) : Option State :=
  let x := s.la l
  let lo := x.next.getD die 0
  let n := claimSize s l die
  let k := lPack x.words
  if n = 0 then none
  else if k = 0 then (s.startTeams l die lo n none fun _ => core).map fun s => s.takeTeams l die n
  else if 72 ≤ core then none
  else some ((s.takeTeams l die n).modLa l fun y => { y with
    packs := y.packs ++ (List.range (n / k)).map fun j => (die, lo + k * j) })

/-- Two cores of a die are mesh neighbours (R10). -/
def meshNext (a b : Nat) : Bool :=
  (a / 8 = b / 8 && (a + 1 = b || b + 1 = a)) || a + 8 = b || b + 8 = a

/-- The cores form one connected set. -/
def meshConnected (cs : List Nat) : Bool :=
  let all := cs.dedup
  let grow (seen : List Nat) : List Nat := all.filter fun c => seen.contains c || seen.any (meshNext c)
  ((List.range all.length).foldl (fun seen _ => grow seen) (all.take 1)).length = all.length

/-- The packs that claims of a die have taken, in order, by their first index. -/
def packsOn (s : State) (l die : Nat) : List Nat := ((s.la l).packs.filter fun p => p.1 = die).map Prod.snd

/-- The pack that begins with an index, on these cores, one for each of its teams. -/
def packAt (s : State) (l die lo : Nat) (cores : List Nat) : Option State :=
  let w := (s.la l).words
  let n := lPack w
  let set := if lPair w then cores.flatMap fun c => [c, c + 1] else cores
  if n = 0 ∨ (s.la l).stage ≠ .started ∨ cores.length ≠ n ∨ !meshConnected set then none
  else s.startTeams l die lo n (some lo) fun i => cores.getD i 0

/-- The next pack that a claim of the die has taken, on these cores. -/
def packed (s : State) (l die : Nat) (cores : List Nat) : Option State :=
  match packsOn s l die with
  | [] => none
  | lo :: _ => (packAt s l die lo cores).map fun s => s.modLa l fun y => { y with packs := y.packs.erase (die, lo) }

/-- Lists of n cores of a die. -/
def coreLists : Nat → List (List Nat)
  | 0 => [[]]
  | n + 1 => (List.range 72).flatMap fun c => (coreLists n).map fun cs => c :: cs

/-- The cores that a team on this core takes. -/
def teamCores (w : List Word) (core : Nat) : List Nat := if lPair w then [core, core + 1] else [core]

/-- Another grid with indices left on the die, or a pack of it to start there, comes first, and could place its claim or pack with one of
these cores: higher PRIO, then the earlier start. DEDUCED, log entry 47. -/
def outranked (s : State) (l die : Nat) (cores : List Nat) : Bool :=
  let x := s.la l
  let mine := cores.flatMap (teamCores x.words)
  (List.range s.launches.length).any fun m =>
    let y := s.la m
    let meets (c : Nat) : Bool := (teamCores y.words c).any mine.contains
    (lPrio x.words < lPrio y.words || (lPrio x.words = lPrio y.words && y.started < x.started)) &&
      if lPack y.words = 0 then (List.range 72).any fun c => meets c && (claimed s m die c).isSome
      else ((packsOn s m die).head?.or (if leftOn s m die = 0 then none else some (y.next.getD die 0))).any fun lo =>
        (coreLists (lPack y.words)).any fun cs => cs.any meets && (packAt s m die lo cs).isSome

/-- TEAM_CLAIM (R267). -/
def execTeamClaim (launch die core : Nat) (s : State) : Host.Outcome State Fault Refusal :=
  .next (if outranked s launch die [core] then s else (claimed s launch die core).getD s)

/-- PACK_START (R268): of the next pack that was claimed, every team of the pack starts in one step, or none. -/
def execPackStart (launch die : Nat) (cores : List Nat) (s : State) : Host.Outcome State Fault Refusal :=
  .next (if outranked s launch die cores then s else (packed s launch die cores).getD s)

/-! ### Lattice launches (R180 to R185, R199) -/

/-- 16-byte pieces of a launch's window on logical die 0; `none` when one cannot be read. -/
def readPieces (s : State) (ctx : Word) (va : Nat) : Nat → Option (List Byte)
  | 0 => some []
  | n + 1 => match s.translate none ctx 0 va .load with
    | .error _ => none
    | .ok (_, pa) => (readPieces s ctx (va + 16) n).map fun rest => s.near (s.pdie 0) pa 16 ++ rest

/-- The reads of these pieces meet the array's error protection. -/
def State.eccPieces (s : State) (ctx : Word) (va n : Nat) : State × Bool :=
  (List.range n).foldl (fun (r : State × Bool) i =>
    if r.2 then r else r.1.nearEcc ctx 0 (va + 16 * i)) (s, false)

/-- The rules of R181 that word i of a descriptor breaks. An extent that is no multiple of 2^DEV is charged to the extent's word.
DESIGN CHOICE, log entry 106. -/
def descWordBad (s : State) (d : List Word) (i : Nat) : Bool :=
  let w := lw d i
  let dims := fld (lw d 0) 0 2
  let dev := devLog d 0 + devLog d 1 + devLog d 2
  let base := fld (lw d 0) 24 8
  match i with
  | 0 =>
    fld w 17 7 ≠ 0 || fld w 4 4 ≠ 0 || dims = 0 || (List.range 3).any (fun k => dims ≤ k && devLog d k ≠ 0) || 8 < dev ||
      255 < base + 2 ^ dev - 1 || (dev = 0 && base ≠ 0) ||
      (dev ≠ 0 && (s.rank.toNat < base || base + 2 ^ dev ≤ s.rank.toNat ||
        (List.range (2 ^ dev)).any fun k => !s.domain.any fun e => e.1.toNat = base + k && e.2 ≠ 0))
  | 1 | 2 | 3 => fld w 20 12 ≠ 0 || (dims < i && fld w 0 20 ≠ 0) || extent d (i - 1) % 2 ^ devLog d (i - 1) ≠ 0
  | _ =>
    if 12 ≤ i then false
    else
      let off (k : Nat) : Nat := fld w (2 * k) 2
      fld w 10 21 ≠ 0 || fld w 6 2 ≠ 0 || (List.range 3).any (fun k => off k = 2) || (!bit w 31 && w ≠ 0) ||
        (bit w 31 && (List.range 3).any fun k => dims ≤ k && off k ≠ 0)

/-- The number of the first malformed word. -/
def descBad (s : State) (d : List Word) : Option Nat := (List.range 16).find? (descWordBad s d)

/-- Extent of the device's share along a dimension (R182). -/
def shareExt (d : List Word) (dim : Nat) : Nat := extent d dim / 2 ^ devLog d dim

/-- Device-local linear index (R178). -/
def localIdx (d : List Word) (ell : Nat) : Nat :=
  let p := coordOf d ell
  p.1 % shareExt d 0 + shareExt d 0 * (p.2.1 % shareExt d 1 + shareExt d 1 * (p.2.2 % shareExt d 2))

def shareSize (d : List Word) : Nat := shareExt d 0 * shareExt d 1 * shareExt d 2

/-- Slots granted to each partition (R269). -/
def slotGrant (w : List Word) : Nat := min (lSlots w) (coreSlots (lAlloc w))

/-- The Shepherd's assignment covers every cell of the device once, on distinct cores of dies in service. Whether a core has room for it now does
not matter (R263). -/
def placeOk (s : State) (d : List Word) (place : List (Nat × Nat × List Nat)) : Bool :=
  let ells := place.flatMap fun p => p.2.2
  let sites : List (Nat × Nat) := place.map fun p => (p.1, p.2.1)
  ells.length = shareSize d && decide ells.Nodup && ells.all (fun e => e < latticeSize d && hostsCell s d e) && decide sites.Nodup &&
    place.all fun p => p.1 < s.ndie && (s.die (s.pdie p.1)).inService && p.2.1 < 72 && !p.2.2.isEmpty

/-- A cell with its launch state, in the cellar (R185, R199). -/
def State.addCell (s : State) (l team c : Nat) (w d : List Word) (image : List Byte) (ell : Nat) : State :=
  let t := s.threads.length
  let i := s.cells.length
  let xs := wordsOf 4 (image.drop (16 * localIdx d ell))
  let p := coordOf d ell
  let x : Thread := { Thread.fresh s.warps.length 0 0 (lAlloc w) (lw w 1) with
    x := xs, cell := some i, qb := launchQueues w }
  let cell : Cell := { Cell.blank with
    launch := l, ell := ell, cx := p.1, cy := p.2.1, cz := p.2.2, core := c, tid := t, pubs := [(0, xs)], retired := false }
  { s with
    warps := s.warps ++ [{ Warp.blank with team := team, core := c, idx := warpIdx s c, threads := [t] }]
    threads := s.threads ++ [x]
    cells := s.cells ++ [cell] }.touchWrites (s.cellarSite cell)

/-- The cells assigned to one core form its team (R179). -/
def State.addPartition (s : State) (l : Nat) (w d : List Word) (image : List Byte) (p : Nat × Nat × List Nat) : State :=
  let r := s.readyCore l (s.la l).ctx p.1 p.2.1
  let team := r.1.teams.length
  let s1 := { r.1 with teams := r.1.teams ++ [{ Team.blank with launch := some l, core := r.2 }] }
  p.2.2.foldl (fun s e => s.addCell l team r.2 w d image e) s1

/-- P(−1) of each cell reaches the cores that host its readers, and the peers that do (R185, R197). -/
def State.firstFaces (s : State) (l : Nat) (d : List Word) : State :=
  (s.cells.filter fun c => c.launch = l).foldl (fun s c =>
    let cores := ((readersOf d c.ell).filterMap fun r => ((s.cellAt l r).map s.cl).map Cell.core).dedup
    let f : Face := ⟨l, c.ell, 0, (c.pubs.head?.getD (0, [])).2, false⟩
    sendFaces (cores.foldl (fun s k => s.setFace k f) s) c none false) s

/-- The number of the first word in which two descriptors differ. -/
def descDiffers (d e : List Word) : Nat := ((List.range 16).find? fun k => lw d k ≠ lw e k).getD 0

/-- A launch starts: it leaves its queue, and cancels come too late (R21, R263, R265). -/
def State.markStarted (s : State) (l : Nat) (init : LaunchInit) : State :=
  ((s.modLa l fun y => { y with stage := .started, started := s.seq, init := init }).modOp (s.la l).op fun o =>
    { o with stage := .started }).bump

/-- The start step of a lattice kernel (R181): descriptor and image are read and checked, and the cells placed. A peer
device's descriptor that differs refuses it (R182): DESIGN CHOICE, log entry 61. An empty assignment says that no cellar or face
store can be reserved (R197, R199); no rule gives that refusal's DETAIL. A malformed word is answered before an image that cannot be
read. DESIGN CHOICE, log entry 107. -/
def State.startLattice (s : State) (l : Nat) (place : List (Nat × Nat × List Nat)) (peer : List Word) (init : LaunchInit) :
    Option State :=
  let x := s.la l
  let w := x.words
  let dva := lNwin w + (lw w 12).toNat
  let iva := lNwin w + (lw w 13).toNat
  let unread := some (s.refuseLaunch l 0x4C520006)
  match readPieces s x.ctx dva 4 with
  | none => unread
  | some db =>
    let d := wordsOf 16 db
    match descBad s d with
    | some k => some (s.refuseLaunch l (BitVec.ofNat 32 (0x4C440000 + k)))
    | none => match readPieces s x.ctx iva (shareSize d) with
      | none => unread
      | some image =>
        let e1 := s.eccPieces x.ctx dva 4
        let e2 := if e1.2 then e1 else e1.1.eccPieces x.ctx iva (shareSize d)
        if e2.2 then some e2.1
        else if spans d && !peer.isEmpty && peer.take 16 ≠ d then
          some (e2.1.refuseLaunch l (BitVec.ofNat 32 (0x4C440000 + descDiffers d peer)))
        else if place.isEmpty then some (e2.1.refuseLaunch l s.openDetail)
        else if placeOk s d place then
          let s1 := (e2.1.markStarted l init).modLa l fun y => { y with desc := d, grant := slotGrant w }
          let s2 := (place.foldl (fun s p => s.addPartition l w d image p) s1).firstFaces l d
          some { s2 with out := s2.out ++ (otherRanks s d).map fun r => Outbound.descriptor (BitVec.ofNat 8 r) d }
        else none

/-- The start step of a pool kernel: its range counters are set (R267). -/
def State.startPool (s : State) (l : Nat) (init : LaunchInit) : State :=
  (s.markStarted l init).modLa l fun y => { y with
    next := (List.range s.ndie).map fun k => (dieShare y.words s.ndie k).1 }

/-- The head of a queue whose dependences can be read starts when it is its turn. -/
def State.startHead (s : State) (l : Nat) (place : LaunchPlace) : State :=
  let w := (s.la l).words
  let turn (s : State) : State := { s with rr := (lQueue w + 1) % 64 }
  if headReady s l && firstHead s l then
    if lLattice w then ((s.startLattice l place.cells place.peer place.init).map turn).getD s else turn (s.startPool l place.init)
  else s

/-- LAUNCH_START (R263, R264): a head's dependences are examined, and it is refused, starts, or waits. What the launch places
in buffers, a peer's descriptor and the Shepherd's assignment come with the step. -/
def execLaunchStart (launch : Nat) (place : LaunchPlace) (s : State) : Host.Outcome State Fault Refusal :=
  .next (if !isHead s launch then s
  else if depBad s launch then s.refuseLaunch launch 0x4C520006
  else (s.eccDeps launch).startHead launch place)

/-! ### Pre-emption (R276) -/

/-- PRIO of the launches whose threads are on these cores. -/
def priosOn (s : State) (cs : List Nat) : List Nat :=
  ((cs.flatMap fun c => (threadsOn s c).filter s.live).filterMap s.launchOf).map fun l => lPrio (s.la l).words

/-- Another context has a launch of higher priority to start: one ready at the head of its queue, or one that has teams or
partitions left to place on a die of these cores (R276). -/
def wantedBy (s : State) (ctx : Word) (cs : List Nat) : Bool :=
  (List.range s.launches.length).any fun l =>
    (s.la l).ctx ≠ ctx && ((priosOn s cs).all fun p => p < lPrio (s.la l).words) &&
      (headReady s l || cs.any fun c => leftOn s l (s.co c).ldie ≠ 0 || !(packsOn s l (s.co c).ldie).isEmpty ||
        s.cells.any fun x => x.launch = l && !x.retired && (s.co x.core).ldie = (s.co c).ldie && !(s.co x.core).resident)

/-- PREEMPT (R276): a set of cores of a context with PREEMPT = 1. -/
def execPreempt (ctx : Nat) (cores : List Nat) (why : PreemptReason) (s : State) : Host.Outcome State Fault Refusal :=
  let id := BitVec.ofNat 32 ctx
  let reason : Bool := match why with
    | .priority => wantedBy s id cores
    | .placement => true
  .next (if (s.ctx id).live ∧ bit ((s.ctx id).words.getD 1 0) 29 ∧ cores ≠ [] ∧
      cores.all (fun c => (residentCores s id).contains c && quietCore s c) ∧ closedSet s cores ∧ reason then
    s.saveCores cores
  else s)

/-! ### Completion (R265) -/

/-- An entry of a thread of the grid. -/
def entryOf (s : State) (l : Nat) (e : Entry) : Bool :=
  let mine (t : Nat) : Bool := s.launchOf t = some l
  match e.body with
  | .red _ ops => ops.any fun o => mine o.tid
  | _ => mine e.tid

/-- Every cell of the lattice has retired, on every device (R191), every phase in which one gave a leaf has its result or its fault
(R196), and no face delivery or phase report of this device is on its way, whose loss would end the grid (R198). DEDUCED, log
entry 48. -/
def latticeDone (s : State) (l : Nat) : Bool :=
  let x := s.la l
  let given (ls : List (Nat × Option (LredOp × List Word))) : Bool := ls.all fun p => p.2.isNone || x.lredDone.contains p.1
  (List.range (latticeSize x.desc)).all (fun ell => match (s.cellAt l ell).map s.cl with
    | some c => c.retired && given c.leaves
    | none => match x.remote.find? fun r => r.ell = ell with
      | some r => r.retired && given r.leaves
      | none => false) &&
    s.routes.all fun r => match r.body with
      | .face k _ _ _ _ | .report k _ _ _ _ => k ≠ l
      | _ => true

/-- Every thread and cell of the grid has ended, and all they issued has been done. DEDUCED, log entry 48. -/
def gridQuiet (s : State) (l : Nat) : Bool :=
  let mine (t : Nat) : Bool := s.launchOf t = some l
  let x := s.la l
  ((List.range s.threads.length).all fun t => !mine t || (!s.live t && (s.th t).loads.isEmpty)) &&
    (s.warps.all fun w => !((s.tm w.team).launch = some l) || w.fifo.isEmpty) &&
    (s.cores.all fun k => !(k.wq.any (entryOf s l)) && !(k.nt.any (entryOf s l))) &&
    (s.routes.all fun r => r.launch ≠ some l) &&
    (s.ops.all fun o => o.core.isNone || !mine o.tid || o.stage = .done) &&
    (if lLattice x.words then latticeDone s l else x.packs.isEmpty && (List.range s.ndie).all fun k => leftOn s l k = 0)

/-- GRID_COMPLETE (R265): the arrival on DONE first, then the launch completes. -/
def execGridComplete (launch : Nat) (s : State) : Host.Outcome State Fault Refusal :=
  let x := s.la launch
  .next (if x.stage = .started && gridQuiet s launch then s.completeGrid launch (if x.peerLost then 2 else 0) s.openDetail else s)

end Sys2Proof.Machine
end

