-- ==== Sys2Proof/Machine/DieReset.lean ====
section
/-! DEFINITION. Die resets, fatal conditions, the fault queues and their answers, the device event queue, links and
device time as the outside world moves them (R152, R241, R280, R311 to R315, R336). -/

namespace Sys2Proof.Machine

/-! ### Resets (R22, R312) -/

/-- The writes of an engine instance that are on their way to this device's dies are applied, in the order of each route. -/
def State.flushRoutes (s : State) (i : Nat) : State :=
  let o := s.op i
  let mine (r : Route) : Bool := r.src = .engine o.coreId o.engine && !routeStale s r && match r.body with
    | .write _ _ _ => true
    | _ => false
  (s.routes.filter mine).foldl (fun s r => s.deliverEffect r (.done []))
    { s with routes := s.routes.filter fun r => !mine r }

/-- Bytes of an operation's writes that its die's reset has overtaken: they reach no receiver (R312). -/
def staleBytes (s : State) (i : Nat) : Nat :=
  ((s.routes.filter (routeStale s)).map fun r => match r.body with
    | .write j ps (some _) => if j = i then (ps.map fun p => p.2.length).sum else 0
    | _ => 0).sum

/-- Engine work of a context completes with this status before the context ends. Of a started operation the writes on their way to
dies that were not reset are applied first; what a copy or collective did not write, or the reset overtook, is counted at its
receivers (R236); a peer load's word is 0 (R168). -/
def State.failOps (s : State) (ctx : Word) (status : BitVec 16) : State :=
  (List.range s.ops.length).foldl (fun (s : State) i =>
    let o := s.op i
    if o.ctx = ctx ∧ o.core.isSome ∧ o.engine ≠ 5 ∧ o.stage ≠ .done then
      let detail := if o.engine = 2 ∨ o.engine = 3 then 0 else s.openDetail
      if o.stage = .started ∨ o.stage = .faulted then
        let s1 := (s.flushRoutes i).stopOp i status detail
        ((s1.countDown ((s1.op i).rest.map fun x => (x.1, x.2.1, x.2.2 + staleBytes s i)) o.ctx)).completeOp i status detail [0]
      else s.completeOp i status detail [0]
    else s) s

/-- A reset of a physical die, in one step (R312): the vintage increments, every context that uses the die ends, and the
die's memory, pools, lees queue, TLB and latch are cleared. DEDUCED, log entry 44. -/
def State.resetDie (s : State) (d : Nat) (toService : Bool) : State :=
  let s1 := s.modDie d fun x => { x with vintage := x.vintage + 1 }
  let users := if s.place.contains d then ((s.ctxs.filter fun c => c.live).map Ctx.id) else []
  let s2 := users.foldl (fun (s : State) id => (s.failOps id 1).endCtx id 1 s.openDetail) s1
  s2.modDie d fun x => { x with
    mem := [], tlb := [], lees := [], latch := [], offers := [], inService := false, resetting := some toService }

/-- DIE_RESET_COMPLETED (R309, R314): KIND 7 with the new vintage; the die returns to service after command 6. -/
def execDieResetCompleted (die : Nat) (s : State) : Host.Outcome State Fault Refusal :=
  .next (match (s.die die).resetting with
  | some b =>
    (s.modDie die fun x => { x with resetting := none, inService := b }).ioEvent 7 (BitVec.ofNat 8 die)
      ((s.die die).vintage.zeroExtend 16)
  | none => s)

/-- DIE_FATAL (R313): the FATALSTAT bit is set, with a KIND 6 record when it is new, and the die stops and is reset. It
stays out of service. DEDUCED, log entry 56. -/
def execDieFatal (die : Nat) (field : BitVec 2) (s : State) : Host.Outcome State Fault Refusal :=
  .next (if die < 8 ∧ field ≠ 3 ∧ (s.die die).mapped then
    let b := 8 * field.toNat + die
    let s1 := { s with fatalstat := s.fatalstat ||| (1#32 <<< b) }
    let s2 := if s.fatalstat.getLsbD b then s1
      else s1.ioEvent 6 (BitVec.ofNat 8 die) (BitVec.ofNat 16 (field.toNat * 256 + 2 ^ die))
    s2.resetDie die false
  else s)

/-- FATALSTAT (R313): write 1 to clear. -/
def execFatalstat (val : Word) (s : State) : Host.Outcome State Fault Refusal :=
  .next { s with fatalstat := s.fatalstat &&& ~~~val }

/-! ### Fault queues (R152, R153, R313, R315) -/

/-- FAULT_RECORD_OFFER (R313): the oldest latched record enters its queue when there is room, and the oldest record that
waits is offered again. -/
def execFaultRecordOffer (die : Nat) (s : State) : Host.Outcome State Fault Refusal :=
  let s1 := match (s.die die).latch with
    | [] => s
    | item :: rest =>
      if s.ioeq < Config.ioeqDepth then
        let s := s.modDie die fun x => { x with latch := rest }
        match item with
        | .fault f => s.enterFault die f
        | .event kind detail i1 i2 time => s.pushEvent ⟨kind, BitVec.ofNat 8 die, detail, i1, i2, time⟩
      else s
  .next (match (s1.die die).offers with
  | [] => s1
  | f :: rest => ((s1.modDie die fun x => { x with offers := rest }).takeFault die f).getD s1)

/-- A halted command completes when its fault is answered with terminate (R241): its writes on their way to this device's dies are
applied first, and those that a release flag waits for hold its completion (R59). -/
def State.terminateOp (s : State) (i : Nat) : State :=
  let o := s.op i
  let s1 := (s.flushRoutes i).stopOp i (if o.engine = 4 then 3 else 4)
    (if o.engine = 1 then 0x4D440006 else if o.engine = 4 then cBmap o.record else 0x43500008)
  s1.endDone i

/-- The head record leaves the queue with its answer; of a context that has ended it is discarded (R315). -/
def State.answer (s : State) (die : Nat) (terminate : Bool) : State :=
  match (s.die die).faultq with
  | [] => s
  | f :: rest =>
    let s := s.modDie die fun x => { x with faultq := rest }
    let halted (i : Nat) : Bool := (s.op i).stage = .faulted
    if f.ended then s
    else if terminate then
      let s1 := match f.op with
        | some i => if halted i then s.terminateOp i else s
        | none => s
      s1.endCtx f.ctx 4 (BitVec.ofNat 32 (0x54460000 + f.kind.toNat))
    else match f.tid, f.op with
      | some t, _ => if (s.th t).status == .parked f then s.setStatus t .ready else s
      | none, some i => if halted i then s.modOp i fun o => { o with stage := .started } else s
      | none, none => s

/-- FRESP_REPLAY (R152, R241, R315): the access is made again. -/
def execFrespReplay (die : Nat) (s : State) : Host.Outcome State Fault Refusal := .next (s.answer die false)

/-- FRESP_TERMINATE (R152, R241, R315): the context ends. -/
def execFrespTerminate (die : Nat) (s : State) : Host.Outcome State Fault Refusal := .next (s.answer die true)

/-- EQPOP (R314): the head record of the device event queue is removed. -/
def execEqpop (s : State) : Host.Outcome State Fault Refusal := .next { s with eventq := s.eventq.tail }

/-! ### Links (R308, R311, R336) -/

def State.modLink (s : State) (n : Nat) (f : Link → Link) : State := { s with links := s.links.modify n f }

/-- The I/O die of a port (R311). -/
def portSocket (n : Nat) : BitVec 8 := BitVec.ofNat 8 (if n < 64 then 8 + n / 16 else 8 + (n - 64) / 4)

/-- An entry of the domain table (R336); the device's own entry is its own. -/
def State.setMember (s : State) (rank : BitVec 8) (ndie : Nat) : State :=
  if rank = s.rank then s
  else { s with domain := (rank, ndie) :: s.domain.filter fun (e : BitVec 8 × Nat) => e.1 ≠ rank }

/-- LINK_RETRY (R308, R311). -/
def execLinkRetry (port : Nat) (s : State) : Host.Outcome State Fault Refusal :=
  .next (s.modLink port fun l => if l.up then { l with retried := true, retries := l.retries + 1 } else l)

/-- What is lost with a link, by the numbers of PEER_ACK_TIMEOUT: routes to another rank, then collective operations. -/
def State.loseAll (s : State) (lost : List Nat) : State :=
  let n := s.routes.length
  let toPeer (i : Nat) : Bool := match s.routes[i]? with
    | some r => match r.dst with
      | .peer rank _ => rank ≠ s.rank
      | _ => false
    | none => false
  let s1 := ((List.range n).reverse.filter fun i => lost.contains i && toPeer i).foldl State.loseRoute s
  ((List.range s.ops.length).filter fun i => lost.contains (n + i)).foldl State.loseMember s1

/-- A member that no link reaches any more leaves the domain table (R336). DEDUCED, log entry 58. -/
def State.dropMember (s : State) (rank : Option (BitVec 8)) : State :=
  match rank with
  | some r =>
    if s.links.any (fun l => l.up && l.rank = some r) || r = s.rank then s
    else { s with domain := s.domain.filter fun (e : BitVec 8 × Nat) => e.1 ≠ r }
  | none => s

/-- LINK_RETRIES_EXHAUSTED (R311): the link goes down, with a KIND 3 record; `lost` names what cannot be rerouted.
DESIGN CHOICE, log entry 55. -/
def execLinkRetriesExhausted (port : Nat) (lost : List Nat) (s : State) : Host.Outcome State Fault Refusal :=
  .next (match s.links[port]? with
  | some l =>
    if l.up ∧ Config.linkRetries ≤ l.retries then
      let s1 := s.modLink port fun l => { l with up := false, retries := 0, failtime := s.time.extractLsb' 24 24 }
      ((s1.ioEvent 3 (portSocket port) (BitVec.ofNat 16 port)).loseAll lost).dropMember l.rank
    else s
  | none => s)

/-- LINK_UP (R311, R336): training has identified the device at the far end of a scale-up port. -/
def execLinkUp (port : Nat) (rank : BitVec 8) (ndie : Nat) (s : State) : Host.Outcome State Fault Refusal :=
  .next (match s.links[port]? with
  | some l =>
    if l.oos then s
    else if port < 64 then
      (s.modLink port fun l => { l with up := true, retries := 0, rank := some rank }).setMember rank ndie
    else s.modLink port fun l => { l with up := true, retries := 0 }
  | none => s)

/-- MEMBER_COMPLETES_START (R336). -/
def execMemberCompletesStart (rank : BitVec 8) (ndie : Nat) (s : State) : Host.Outcome State Fault Refusal :=
  .next (s.setMember rank ndie)

/-- LINKSTAT (R308): the read clears RETRIED. -/
def execLinkstat (port : Nat) (s : State) : Host.Outcome State Fault Refusal :=
  .next (s.modLink port fun l => { l with retried := false })

/-! ### Time lock (R280, R308, R311) -/

/-- TIME_LOCK_LOST: LOCK clears, a KIND 4 record is made and TIMEVEC is raised; whether a grandmaster's messages still come is
open. DESIGN CHOICE, log entry 53. -/
def execTimeLockLost (s : State) : Host.Outcome State Fault Refusal :=
  .next (if s.lock then (({ s with lock := false, gm := Config.freeBit s.tick 0 }.ioEvent 4 0xFF 0).raiseBoth s.timevec) else s)

/-- TIME_LOCK_GAINED: with no context loaded, time is set to the grandmaster's in this step (R280). -/
def execTimeLockGained (gmTime : BitVec 64) (s : State) : Host.Outcome State Fault Refusal :=
  .next (if s.lock then s
  else
    let t := if s.ctxs.any fun c => c.live then s.time else gmTime
    (({ s with lock := true, gm := true, time := t }.ioEvent 5 0xFF 0).raiseBoth s.timevec))

end Sys2Proof.Machine
end

