-- ==== Sys2Proof/Machine/IntArith.lean ====
section
/-! DEFINITION. Integer arithmetic, logic, shifts, constants, comparison and selection (R118 to R124). -/

namespace Sys2Proof.Machine

/-- A three-register instruction's job (R115, R118). -/
def r3Job (w : R3) (f : LaneFn) : Job :=
  { x := w.x, n := w.n, d := w.d, srcs := [src w.a w.ea, src w.b w.eb], res := .fn f }

/-- The same, reading its destination (R116). -/
def r3JobRd (w : R3) (f : LaneFn) : Job := { r3Job w f with rd := true }

/-- A one-source function word's job. -/
def rfJob (w : RF) (f : LaneFn) : Job := { x := w.x, n := w.n, d := w.d, srcs := [src w.a w.ea], res := .fn f }

/-- The immediate of an RI word: 24 bits with a prefix, 11 without (R30), sign-extended (R120). -/
def immOf (x : Option Ext) (imm : BitVec 11) : Word :=
  match x with
  | some e => (e.immx ++ imm : BitVec 24).signExtend 32
  | none => imm.signExtend 32

/-- A register-immediate instruction's job (R120). -/
def riJob (w : RI) (f : LaneFn) : Job :=
  { x := w.x, d := w.d, srcs := [src w.a, srcK (immOf w.x w.imm)], res := .fn f }

/-- A shift-immediate instruction's job (R120). -/
def shiJob (w : Shi) (f : LaneFn) : Job :=
  { x := w.x, d := w.d, srcs := [src w.a, srcK (w.n.zeroExtend 32)], res := .fn f }

/-- `add`: a + b (R118). -/
def execAdd (w : R3) (s : State) : Host.Outcome State Fault Refusal :=
  runJob (r3Job w .add) s

/-- `sub`: a − b (R118). -/
def execSub (w : R3) (s : State) : Host.Outcome State Fault Refusal :=
  runJob (r3Job w .sub) s

/-- `mul`: Low word of a × b (R118). -/
def execMul (w : R3) (s : State) : Host.Outcome State Fault Refusal :=
  runJob (r3Job w .mul) s

/-- `mulh`: High word of sa × sb (R118). -/
def execMulh (w : R3) (s : State) : Host.Outcome State Fault Refusal :=
  runJob (r3Job w .mulh) s

/-- `mulhu`: High word of ua × ub (R118). -/
def execMulhu (w : R3) (s : State) : Host.Outcome State Fault Refusal :=
  runJob (r3Job w .mulhu) s

/-- `mad`: a × b + d (R118). -/
def execMad (w : R3) (s : State) : Host.Outcome State Fault Refusal :=
  runJob (r3JobRd w .mad) s

/-- `div`: sa ÷ sb truncated (R119). -/
def execDiv (w : R3) (s : State) : Host.Outcome State Fault Refusal :=
  runJob (r3Job w .div) s

/-- `divu`: ua ÷ ub truncated (R119). -/
def execDivu (w : R3) (s : State) : Host.Outcome State Fault Refusal :=
  runJob (r3Job w .divu) s

/-- `rem`: sa − sb × div (R119). -/
def execRem (w : R3) (s : State) : Host.Outcome State Fault Refusal :=
  runJob (r3Job w .rem) s

/-- `remu`: ua − ub × divu (R119). -/
def execRemu (w : R3) (s : State) : Host.Outcome State Fault Refusal :=
  runJob (r3Job w .remu) s

/-- `min`: signed lesser (R118). -/
def execMin (w : R3) (s : State) : Host.Outcome State Fault Refusal :=
  runJob (r3Job w .min) s

/-- `max`: signed greater (R118). -/
def execMax (w : R3) (s : State) : Host.Outcome State Fault Refusal :=
  runJob (r3Job w .max) s

/-- `minu`: unsigned lesser (R118). -/
def execMinu (w : R3) (s : State) : Host.Outcome State Fault Refusal :=
  runJob (r3Job w .minu) s

/-- `maxu`: unsigned greater (R118). -/
def execMaxu (w : R3) (s : State) : Host.Outcome State Fault Refusal :=
  runJob (r3Job w .maxu) s

/-- `and`: a AND b (R118). -/
def execAnd (w : R3) (s : State) : Host.Outcome State Fault Refusal :=
  runJob (r3Job w .and) s

/-- `or`: a OR b (R118). -/
def execOr (w : R3) (s : State) : Host.Outcome State Fault Refusal :=
  runJob (r3Job w .or) s

/-- `xor`: a XOR b (R118). -/
def execXor (w : R3) (s : State) : Host.Outcome State Fault Refusal :=
  runJob (r3Job w .xor) s

/-- `andn`: a AND NOT b (R118). -/
def execAndn (w : R3) (s : State) : Host.Outcome State Fault Refusal :=
  runJob (r3Job w .andn) s

/-- `shl`: shift left by b[4:0] (R118). -/
def execShl (w : R3) (s : State) : Host.Outcome State Fault Refusal :=
  runJob (r3Job w .shl) s

/-- `shr`: shift right, zeros (R118). -/
def execShr (w : R3) (s : State) : Host.Outcome State Fault Refusal :=
  runJob (r3Job w .shr) s

/-- `sar`: shift right, sign (R118). -/
def execSar (w : R3) (s : State) : Host.Outcome State Fault Refusal :=
  runJob (r3Job w .sar) s

/-- `rot`: rotate left (R118). -/
def execRot (w : R3) (s : State) : Host.Outcome State Fault Refusal :=
  runJob (r3Job w .rot) s

/-- `addsat`: saturating signed sum (R118). -/
def execAddsat (w : R3) (s : State) : Host.Outcome State Fault Refusal :=
  runJob (r3Job w .addsat) s

/-- `addi`: as `add` with the immediate (R120). -/
def execAddi (w : RI) (s : State) : Host.Outcome State Fault Refusal :=
  runJob (riJob w .add) s

/-- `muli`: as `mul` with the immediate (R120). -/
def execMuli (w : RI) (s : State) : Host.Outcome State Fault Refusal :=
  runJob (riJob w .mul) s

/-- `andi`: as `and` with the immediate (R120). -/
def execAndi (w : RI) (s : State) : Host.Outcome State Fault Refusal :=
  runJob (riJob w .and) s

/-- `ori`: as `or` with the immediate (R120). -/
def execOri (w : RI) (s : State) : Host.Outcome State Fault Refusal :=
  runJob (riJob w .or) s

/-- `xori`: as `xor` with the immediate (R120). -/
def execXori (w : RI) (s : State) : Host.Outcome State Fault Refusal :=
  runJob (riJob w .xor) s

/-- `shli`: as `shl` by n (R120). -/
def execShli (w : Shi) (s : State) : Host.Outcome State Fault Refusal :=
  runJob (shiJob w .shl) s

/-- `shri`: as `shr` by n (R120). -/
def execShri (w : Shi) (s : State) : Host.Outcome State Fault Refusal :=
  runJob (shiJob w .shr) s

/-- `sari`: as `sar` by n (R120). -/
def execSari (w : Shi) (s : State) : Host.Outcome State Fault Refusal :=
  runJob (shiJob w .sar) s

/-- `roti`: as `rot` by n (R120). -/
def execRoti (w : Shi) (s : State) : Host.Outcome State Fault Refusal :=
  runJob (shiJob w .rot) s

/-- `movi`: the sign-extended constant (R121). -/
def execMovi (x : Option Ext) (d : Operand) (imm : BitVec 18) (s : State) : Host.Outcome State Fault Refusal :=
  runJob { x := x, d := d, srcs := [srcK (imm.signExtend 32)], res := .fn .mov } s

/-- `movh`: bits [31:14] replaced (R121). -/
def execMovh (x : Option Ext) (d : Operand) (imm : BitVec 18) (s : State) : Host.Outcome State Fault Refusal :=
  runJob { x := x, d := d, srcs := [srcK (imm.zeroExtend 32)], rd := true, res := .fn .movh } s

/-- `mov` (R122). -/
def execMov (w : RF) (s : State) : Host.Outcome State Fault Refusal :=
  runJob (rfJob w .mov) s

/-- `not` (R122). -/
def execNot (w : RF) (s : State) : Host.Outcome State Fault Refusal :=
  runJob (rfJob w .not) s

/-- `neg` (R122). -/
def execNeg (w : RF) (s : State) : Host.Outcome State Fault Refusal :=
  runJob (rfJob w .neg) s

/-- `abs` (R122). -/
def execAbs (w : RF) (s : State) : Host.Outcome State Fault Refusal :=
  runJob (rfJob w .abs) s

/-- `clz` (R122). -/
def execClz (w : RF) (s : State) : Host.Outcome State Fault Refusal :=
  runJob (rfJob w .clz) s

/-- `ctz` (R122). -/
def execCtz (w : RF) (s : State) : Host.Outcome State Fault Refusal :=
  runJob (rfJob w .ctz) s

/-- `popc` (R122). -/
def execPopc (w : RF) (s : State) : Host.Outcome State Fault Refusal :=
  runJob (rfJob w .popc) s

/-- `brev` (R122). -/
def execBrev (w : RF) (s : State) : Host.Outcome State Fault Refusal :=
  runJob (rfJob w .brev) s

/-- `bswap` (R122). -/
def execBswap (w : RF) (s : State) : Host.Outcome State Fault Refusal :=
  runJob (rfJob w .bswap) s

/-- `sxb` (R122). -/
def execSxb (w : RF) (s : State) : Host.Outcome State Fault Refusal :=
  runJob (rfJob w .sxb) s

/-- `sxh` (R122). -/
def execSxh (w : RF) (s : State) : Host.Outcome State Fault Refusal :=
  runJob (rfJob w .sxh) s

/-- `zxb` (R122). -/
def execZxb (w : RF) (s : State) : Host.Outcome State Fault Refusal :=
  runJob (rfJob w .zxb) s

/-- `zxh` (R122). -/
def execZxh (w : RF) (s : State) : Host.Outcome State Fault Refusal :=
  runJob (rfJob w .zxh) s

/-- `setp`: pD ← a cond b (R123). -/
def execSetp (x : Option Ext) (c : Cond) (p : BitVec 3) (a b : Operand) (_k ea eb n : Bool) (s : State) : Host.Outcome State Fault Refusal :=
  runJob { x := x, n := n, d := .z, srcs := [src a ea, src b eb], res := .setp c p } s

/-- `sel`: d ← pT ? a : b (R124). -/
def execSel (x : Option Ext) (d a b : Operand) (p : BitVec 3) (s : State) : Host.Outcome State Fault Refusal :=
  runJob { x := x, d := d, srcs := [src a, src b], res := .sel p } s

/-- `setpi`: pD ← a cond imm (R123). -/
def execSetpi (x : Option Ext) (c : Cond) (p : BitVec 3) (a : Operand) (imm : BitVec 11) (s : State) : Host.Outcome State Fault Refusal :=
  runJob { x := x, d := .z, srcs := [src a, srcK (immOf x imm)], res := .setp c p } s

end Sys2Proof.Machine
end

