-- ==== Sys2Proof/Machine/Float.lean ====
section
/-! DEFINITION. Floating-point arithmetic and conversions (R125 to R130). -/

namespace Sys2Proof.Machine

/-- `fadd` (R125). -/
def execFadd (w : R3) (s : State) : Host.Outcome State Fault Refusal :=
  runJob (r3Job w .fadd) s

/-- `fsub` (R125). -/
def execFsub (w : R3) (s : State) : Host.Outcome State Fault Refusal :=
  runJob (r3Job w .fsub) s

/-- `fmul` (R125). -/
def execFmul (w : R3) (s : State) : Host.Outcome State Fault Refusal :=
  runJob (r3Job w .fmul) s

/-- `ffma` (R125). -/
def execFfma (w : R3) (s : State) : Host.Outcome State Fault Refusal :=
  runJob (r3JobRd w .ffma) s

/-- `fmin` (R126). -/
def execFmin (w : R3) (s : State) : Host.Outcome State Fault Refusal :=
  runJob (r3Job w .fmin) s

/-- `fmax` (R126). -/
def execFmax (w : R3) (s : State) : Host.Outcome State Fault Refusal :=
  runJob (r3Job w .fmax) s

/-- `fdiv` (R125). -/
def execFdiv (w : R3) (s : State) : Host.Outcome State Fault Refusal :=
  runJob (r3Job w .fdiv) s

/-- `fsetp`: pD ← the FP comparison (R127). -/
def execFsetp (x : Option Ext) (c : FCond) (p : BitVec 3) (a b : Operand) (_k ea eb n : Bool) (s : State) : Host.Outcome State Fault Refusal :=
  runJob { x := x, n := n, d := .z, srcs := [src a ea, src b eb], res := .fsetp c p } s

/-- `fabs` (R128). -/
def execFabs (w : RF) (s : State) : Host.Outcome State Fault Refusal :=
  runJob (rfJob w .fabs) s

/-- `fneg` (R128). -/
def execFneg (w : RF) (s : State) : Host.Outcome State Fault Refusal :=
  runJob (rfJob w .fneg) s

/-- `fsqrt` (R128). -/
def execFsqrt (w : RF) (s : State) : Host.Outcome State Fault Refusal :=
  runJob (rfJob w .fsqrt) s

/-- `frcp` (R128). -/
def execFrcp (w : RF) (s : State) : Host.Outcome State Fault Refusal :=
  runJob (rfJob w .frcp) s

/-- `frsq` (R128). -/
def execFrsq (w : RF) (s : State) : Host.Outcome State Fault Refusal :=
  runJob (rfJob w .frsq) s

/-- `fexp2` (R128). -/
def execFexp2 (w : RF) (s : State) : Host.Outcome State Fault Refusal :=
  runJob (rfJob w .fexp2) s

/-- `flog2` (R128). -/
def execFlog2 (w : RF) (s : State) : Host.Outcome State Fault Refusal :=
  runJob (rfJob w .flog2) s

/-- `ffloor` (R128). -/
def execFfloor (w : RF) (s : State) : Host.Outcome State Fault Refusal :=
  runJob (rfJob w .ffloor) s

/-- `fceil` (R128). -/
def execFceil (w : RF) (s : State) : Host.Outcome State Fault Refusal :=
  runJob (rfJob w .fceil) s

/-- `ftrunc` (R128). -/
def execFtrunc (w : RF) (s : State) : Host.Outcome State Fault Refusal :=
  runJob (rfJob w .ftrunc) s

/-- `frint` (R128). -/
def execFrint (w : RF) (s : State) : Host.Outcome State Fault Refusal :=
  runJob (rfJob w .frint) s

/-- `f2i` (R129, R76). -/
def execF2i (w : RF) (s : State) : Host.Outcome State Fault Refusal :=
  runJob (rfJob w .f2i) s

/-- `f2iz` (R129, R76). -/
def execF2iz (w : RF) (s : State) : Host.Outcome State Fault Refusal :=
  runJob (rfJob w .f2iz) s

/-- `f2u` (R129, R76). -/
def execF2u (w : RF) (s : State) : Host.Outcome State Fault Refusal :=
  runJob (rfJob w .f2u) s

/-- `f2uz` (R129, R76). -/
def execF2uz (w : RF) (s : State) : Host.Outcome State Fault Refusal :=
  runJob (rfJob w .f2uz) s

/-- `i2f` (R129, R76). -/
def execI2f (w : RF) (s : State) : Host.Outcome State Fault Refusal :=
  runJob (rfJob w .i2f) s

/-- `u2f` (R129, R76). -/
def execU2f (w : RF) (s : State) : Host.Outcome State Fault Refusal :=
  runJob (rfJob w .u2f) s

/-- `f2bf` (R129, R76). -/
def execF2bf (w : RF) (s : State) : Host.Outcome State Fault Refusal :=
  runJob (rfJob w .f2bf) s

/-- `bf2f` (R129, R76). -/
def execBf2f (w : RF) (s : State) : Host.Outcome State Fault Refusal :=
  runJob (rfJob w .bf2f) s

/-- `f2h` (R129, R76). -/
def execF2h (w : RF) (s : State) : Host.Outcome State Fault Refusal :=
  runJob (rfJob w .f2h) s

/-- `h2f` (R129, R76). -/
def execH2f (w : RF) (s : State) : Host.Outcome State Fault Refusal :=
  runJob (rfJob w .h2f) s

/-- `bfma2`: per BF16 half, a × b + d (R130). -/
def execBfma2 (w : R3) (s : State) : Host.Outcome State Fault Refusal :=
  runJob (r3JobRd w .bfma2) s

/-- `badd2`: per BF16 half, a + b (R130). -/
def execBadd2 (w : R3) (s : State) : Host.Outcome State Fault Refusal :=
  runJob (r3Job w .badd2) s

end Sys2Proof.Machine
end

