-- ==== Sys2Proof/Machine/HostPort.lean ====
section
/-! DEFINITION. The host ports: BAR2 accesses, the launch window, and the control space (R4, R153, R173, R303 to R308,
R311, R314 to R316, R319). -/

namespace Sys2Proof.Machine

/-! ### BAR2 (R63, R303 to R305) -/

/-- Logical die and N virtual address of an access at a BAR2 offset (R304). -/
def apertureSite (p : Port) (off : Nat) : Nat × Nat :=
  (off / 2 ^ 38 % 8, fld p.hwin 0 10 * 2 ^ 38 + off % 2 ^ 38)

/-- An access joins the port's host error log. -/
def State.hostError (s : State) (p : BitVec 1) (l va : Nat) (ctx : Word) : State :=
  s.modPort p fun x => { x with errors := x.errors ++ [(l, va, ctx)] }

/-- A bit of the port's uncorrectable error status: 12 a poisoned TLP, 15 Completer Abort, 20 Unsupported Request. PRESUMED, log
entry 88. -/
def State.aer (s : State) (p : BitVec 1) (b : Nat) : State :=
  s.modPort p fun x => { x with aerStatus := x.aerStatus ||| (1#32 <<< b) }

/-- A TLP beyond the 2 TiB of BAR2 hits no BAR (R303). -/
def outside (off : Nat) : Bool := 2 ^ 41 ≤ off

/-- A write to LGO of this requester waits at the ordering point, and its later posted writes behind it (R308). -/
def lgoWaits (s : State) (req : Nat) : Bool := s.ports.any fun p => p.lgos.any fun w => w.req = req

/-- A TLP gets Unsupported Request. -/
def State.unsupported (s : State) (port : BitVec 1) (req : Nat) : State :=
  { s with out := s.out ++ [Outbound.unsupported port req] }.aer port 20

/-- INBOUND_POSTED_WRITE (R63, R304): it enters the ordering point's queue to its die; a poisoned one is discarded and
logged (R303). No TLP carries more than 512 bytes. -/
def execInboundPostedWrite (port : BitVec 1) (req off : Nat) (bytes : List Byte) (poisoned : Bool) (s : State) :
    Host.Outcome State Fault Refusal :=
  let p := s.port port
  let x := apertureSite p off
  .next (if !p.up || lgoWaits s req || 512 < bytes.length then s
  else if outside off then s.unsupported port req
  else if poisoned then (s.hostError port x.1 x.2 p.hctx).aer port 12
  else s.pushRoute { s.mkRoute (.host port) (.die x.1) (.posted req x.2 bytes) p.hctx 0 with
    tid := s.threads.length, launch := none })

/-- A posted write of the requester has not been acknowledged. -/
def postedPending (s : State) (req : Nat) : Bool :=
  s.routes.any fun r => match r.body with
    | .posted q _ _ => q = req
    | _ => false

/-- INBOUND_READ (R304): it completes after every earlier posted write of its requester. No request reads more than 4,096
bytes. -/
def execInboundRead (port : BitVec 1) (req off len : Nat) (s : State) : Host.Outcome State Fault Refusal :=
  let p := s.port port
  let x := apertureSite p off
  let done (s : State) (r : Option (List Byte)) : State :=
    let s := { s with out := s.out ++ [.completion port req r] }
    if r.isNone then s.aer port 15 else s
  .next (if !p.up || lgoWaits s req || 4096 < len then s
  else if outside off then s.unsupported port req
  else if postedPending s req then s
  else
    let s := s.walkEcc none p.hctx x.1 x.2
    match ownSite s p.hctx x.1 x.2 .load with
    | some (d, a) =>
      let e := s.eccGuard (arrNear d) a len p.hctx d
      if e.2 then done e.1 none else done e.1 (some (e.1.near d a len))
    | none => done (s.hostError port x.1 x.2 p.hctx) none)

/-! ### The launch window (R306, R308) -/

/-- A write to LGO may be performed: every earlier posted write of its requester is acknowledged and, where it makes a launch,
the port has a free slot and holds fewer records than EVENT_HOLD (R20, R306, R308). -/
def lgoReady (s : State) (port : BitVec 1) (w : LgoWrite) : Bool :=
  !postedPending s w.req && (!(s.ctx w.ctxid).live ||
    ((freeSlot (s.usedSlots none port 5)).isSome && decide ((s.port port).held.length < Config.eventHold)))

/-- The write is performed: the launch is made and LHANDLE holds its handle. The WARP field of its completion record, which no
warp issues, is open. DESIGN CHOICE, log entry 77. -/
def State.performLgo (s : State) (port : BitVec 1) (w : LgoWrite) : State :=
  let p := s.port port
  if !(s.ctx w.ctxid).live then s.modPort port fun x => { x with lhandle := 0 }
  else match freeSlot (s.usedSlots none port 5) with
    | none => s
    | some k =>
      let o : Op := { Op.blank with
        engine := 5, slot := k, gen := genOf p.gens 5 k, ctx := w.ctxid, port := port, record := w.record, stage := .inFifo
        warp := (Config.freeWord s.tick 1).setWidth 16 }
      let s1 := { s with ops := s.ops ++ [o] }.modPort port fun x => { x with
        lhandle := o.handle, gens := bumpGen x.gens 5 k }
      s1.enterLaunch s.ops.length w.record

/-- A write to a port's LGO, with the launch record as it stands, is performed or waits at the ordering point; the requester's next
one is then that which waits. -/
def State.writeLgo (s : State) (port : BitVec 1) (req : Nat) (ctxid : Word) : State :=
  let p := s.port port
  let mine (w : LgoWrite) : Bool := w.req = req
  let new : LgoWrite := ⟨req, ctxid, p.lrec⟩
  match p.lgos.find? mine with
  | some w =>
    if lgoReady s port w then (s.modPort port fun x => { x with lgos := x.lgos.eraseP mine }).performLgo port w else s
  | none =>
    if lgoWaits s req then s
    else if lgoReady s port new then s.performLgo port new
    else s.modPort port fun x => { x with lgos := x.lgos ++ [new] }

/-- HOST_LAUNCH (R308): a write to LGO that comes through the window's own port. -/
def execHostLaunch (port : BitVec 1) (req : Nat) (ctxid : Word) (s : State) : Host.Outcome State Fault Refusal :=
  .next (if (s.port port).up then s.writeLgo port req ctxid else s)

/-! ### Writes of control registers (R307) -/

def setWord (ws : List Word) (i : Nat) (v : Word) : List Word := ws.set i v

/-- Low 6 bits, as a vector register keeps them. -/
def low6 (v : Word) : Word := v &&& 0x3F

/-- A write of a port's launch window or completion ring. -/
def writePort (s : State) (p : BitVec 1) (block off : Nat) (v : Word) : State :=
  if block = 2 then (if off < 0x40 then s.modPort p fun x => { x with lrec := setWord x.lrec (off / 4) v } else s)
  else match off with
    | 0x00 => s.modPort p fun x => { x with hcqlo := v &&& 0xFFFFFFF0 }
    | 0x04 => s.modPort p fun x => { x with hcqhi := v }
    | 0x08 =>
      if isPow2Upto v.toNat 65536 ∧ 16 ≤ v.toNat then
        let s1 := s.modPort p fun x => { x with hcqsize := v }
        s1.admitRing (s1.port p).held.length p
      else s
    | 0x0C =>
      let s1 := s.modPort p fun x => { x with hcqhead := v }
      s1.admitRing (s1.port p).held.length p
    | 0x14 => s.modPort p fun x => { x with hcqvec := low6 v }
    | _ => s

/-- A write of MCMDGO (R309): 1 starts a command with the block at the address that MCMDLO and MCMDHI hold now, unless one is
busy. A misaligned block is refused unread (R338). -/
def startCommand (s : State) (v : Word) : State :=
  if v ≠ 1 ∨ s.mgmt.busy then s
  else { s with mgmt := { s.mgmt with
    busy := true, addr := s.mgmt.mcmdhi ++ s.mgmt.mcmdlo, result := if fld s.mgmt.mcmdlo 0 6 = 0 then (0, 0) else (3, 3) } }

/-- ERRINJ keeps ARM, NBITS and ARRAY (R316). DEDUCED, log entry 51. -/
def setErrinj (s : State) (v : Word) : State := { s with errinj := v &&& 0xE000FFFF }

/-- A 32-bit write at an offset of BAR0. Registers with an event of their own act as that event does. -/
def controlWrite (s : State) (off : Nat) (v : Word) : State :=
  let p (base : Nat) : BitVec 1 := BitVec.ofNat 1 ((off - base) / 0x1000)
  let k := (off - 0x60030) / 4
  if off = 0x10000 then { s with mgmt := { s.mgmt with mcmdlo := v } }
  else if off = 0x10004 then { s with mgmt := { s.mgmt with mcmdhi := v } }
  else if off = 0x10008 then startCommand s v
  else if 0x20000 ≤ off ∧ off < 0x22000 then writePort s (p 0x20000) 2 (off % 0x1000) v
  else if 0x30000 ≤ off ∧ off < 0x32000 then writePort s (p 0x30000) 3 (off % 0x1000) v
  else if 0x40000 ≤ off ∧ off < 0x40800 ∧ off % 0x100 = 0x14 then s.answer ((off - 0x40000) / 0x100) (bit v 0)
  else if off = 0x50000 then setErrinj s v
  else if off = 0x50004 then { s with errinjlo := v }
  else if off = 0x50008 then { s with errinjhi := v &&& 0xFFFF }
  else if off = 0x50100 then { s with elsel := v &&& 0xFFFF }
  else if off = 0x50104 then { s with elidx := low6 v }
  else if off = 0x60000 then { s with fatalstat := s.fatalstat &&& ~~~v }
  else if 0x60030 ≤ off ∧ off < 0x60050 then s.modDie k fun x => { x with stalecnt := 0 }
  else if off = 0x60050 then { s with hostlost := 0 }
  else if 0x60060 ≤ off ∧ off < 0x60080 then s.modDie ((off - 0x60060) / 4) fun x => { x with latchovf := 0 }
  else if off = 0x60114 then { s with eventq := s.eventq.tail }
  else if off = 0x60118 then { s with eqvec := low6 v }
  else if off = 0x6011C then { s with eqdrop := 0 }
  else if off = 0x70004 then { s with timevec := low6 v }
  else if off = 0x80010 then s.modPort 0 fun x => { x with hwin := v &&& 0x3FF }
  else if off = 0x80014 then s.modPort 0 fun x => { x with hctx := v }
  else if off = 0x80018 then s.modPort 1 fun x => { x with hwin := v &&& 0x3FF }
  else if off = 0x8001C then s.modPort 1 fun x => { x with hctx := v }
  else s

/-- An access of BAR0 is an aligned 32-bit one within its 64 MiB (R303, R306). -/
def controlOk (off len : Nat) : Bool := off % 4 = 0 && len = 4 && off < 2 ^ 26

/-- A word of a port's own function: of an MSI-X entry, Message Control (bits 31 and 30 Enable and Function Mask), or of AER at the
capability's offsets 4, 8 and 12, status, mask and severity. PRESUMED, log entry 88. -/
def functionRead (p : Port) (space : HostSpace) (off : Nat) : Word :=
  let e := p.msixTable.getD (off / 16) ⟨0, 0, 0, true⟩
  match space with
  | .bar0 => 0
  | .msixTable =>
    if off < 1024 then match off % 16 with
      | 0 => e.lo
      | 4 => e.hi
      | 8 => e.data
      | _ => if e.masked then 1 else 0
    else BitVec.ofNat 32 (p.msixPending.toNat / 2 ^ (8 * (off - 1024)))
  | .msixControl => BitVec.ofNat 32 ((if p.msixOn then 2 ^ 31 else 0) + (if p.msixMask then 2 ^ 30 else 0) + 63 * 2 ^ 16)
  | .aer => match off with | 4 => p.aerStatus | 8 => p.aerMask | 12 => p.aerSeverity | _ => 0

/-- A write of such a word. -/
def functionWrite (p : Port) (space : HostSpace) (off : Nat) (v : Word) : Port :=
  let entry (f : MsixEntry → MsixEntry) : Port := { p with msixTable := p.msixTable.modify (off / 16) f }
  match space with
  | .bar0 => p
  | .msixTable =>
    if 1024 ≤ off then p
    else match off % 16 with
      | 0 => entry fun e => { e with lo := v &&& 0xFFFFFFFC }
      | 4 => entry fun e => { e with hi := v }
      | 8 => entry fun e => { e with data := v }
      | _ => entry fun e => { e with masked := bit v 0 }
  | .msixControl => { p with msixOn := bit v 31, msixMask := bit v 30 }
  | .aer => match off with
    | 4 => { p with aerStatus := p.aerStatus &&& ~~~v }
    | 8 => { p with aerMask := v }
    | 12 => { p with aerSeverity := v }
    | _ => p

/-- Pending vectors that nothing masks any more are raised. -/
def State.raisePending (s : State) (p : BitVec 1) : State :=
  let x := s.port p
  if !x.msixOn then s
  else ((List.range 64).filter fun v => x.msixPending.getLsbD v && !x.masks v).foldl (fun s v =>
    (s.modPort p fun y => { y with msixPending := y.msixPending &&& ~~~(1#64 <<< v) }).raiseVec p (BitVec.ofNat 32 v)) s

/-- CONTROL_REGISTER_WRITE (R306, R307): a write that reaches a port's registers through the port, behind the requester's own
waiting write to LGO. A write to LGO acts as HOST_LAUNCH does. A poisoned one is discarded and logged (R303); the events of single
registers stand for writes that are not. -/
def execControlRegisterWrite (acc : ControlAccess) (val : Word) (s : State) : Host.Outcome State Fault Refusal :=
  .next (if !(s.port acc.port).up then s
  else if acc.poisoned then
    if lgoWaits s acc.req then s else s.aer acc.port 12
  else if acc.space ≠ .bar0 then
    if acc.off % 4 = 0 && acc.len = 4 && !lgoWaits s acc.req then
      (s.modPort acc.port fun p => functionWrite p acc.space acc.off val).raisePending acc.port
    else s
  else if acc.off = 0x20040 ∧ acc.len = 4 then s.writeLgo 0 acc.req val
  else if acc.off = 0x21040 ∧ acc.len = 4 then s.writeLgo 1 acc.req val
  else if lgoWaits s acc.req then s
  else if controlOk acc.off acc.len then controlWrite s acc.off val
  else s.unsupported acc.port acc.req)

/-- ERRINJ (R316). -/
def execErrinj (val : Word) (s : State) : Host.Outcome State Fault Refusal := .next (setErrinj s val)

/-- TIMELO (R307): the read latches device time [63:32] for its requester. -/
def execTimelo (req : Nat) (s : State) : Host.Outcome State Fault Refusal :=
  let hi := s.time.extractLsb' 32 32
  .next { s with requesters := ⟨req, hi⟩ :: s.requesters.filter fun (r : Requester) => r.req ≠ req }

/-- HOST_LINK_DOWN (R314): the port raises no vector and takes no access. -/
def execHostLinkDown (port : BitVec 1) (s : State) : Host.Outcome State Fault Refusal :=
  .next (s.modPort port fun x => { x with up := false })

/-! ### Reads of control registers (R307, R308) -/

/-- The words of a fault record (R153). -/
def FaultRec.words (f : FaultRec) : List Word :=
  [BitVec.ofNat 32 f.va, BitVec.ofNat 32 (f.va / 2 ^ 32 % 2 ^ 16), f.ctx,
   f.kind ++ f.access ++ f.core ++ f.slot ++ (0#4) ++ f.idie]

/-- The words of an event record (R314). -/
def EventRec.words (e : EventRec) : List Word := [e.kind ++ e.socket ++ e.detail, e.info1, e.info2, e.time]

/-- The log that ELSEL selects. -/
def selectedLog (s : State) : ErrLog :=
  let a := s.elsel.setWidth 16
  (s.logs.find? fun l => l.array = a).getD ⟨a, [], 0⟩

/-- LINKSTATn (R308). -/
def linkStatus (l : Link) : Word := l.failtime ++ (0#5) ++ BitVec.ofBool l.oos ++ BitVec.ofBool l.retried ++ BitVec.ofBool l.up

/-- LINKRANKn (R308). -/
def linkRankWord (l : Link) : Word :=
  match l.rank with
  | some r => (0#23) ++ (1#1) ++ r
  | none => 0

/-- A word of a start record (R319): the start number, then the entry of each step at byte 16s. The entry of a step that the start did
not reach has not been written, and reads 0. -/
def StartRec.word (r : StartRec) (i : Nat) : Word :=
  if i = 0 then r.number
  else match r.steps[i / 4 - 1]?, i % 4 with
    | some e, 0 => if i < 4 ∨ e.1 = 0 then 0 else BitVec.ofNat 4 (i / 4) ++ e.1 ++ e.2.1 ++ (0#16)
    | some e, 1 => if i < 4 ∨ e.1 = 0 then 0 else e.2.2
    | _, _ => 0

/-- BOOTREC: the start record in each of its 256 slots. -/
def bootWord (s : State) (i : Nat) : Word :=
  match s.sec.history.find? fun r => (r.number.toNat + 255) % 256 = i / 64 with
  | some r => r.word (i % 64)
  | none => 0

/-- What a 32-bit read at an offset of BAR0 returns to a requester on a port. At an offset that two ranges of R307 name it is one
register's word or the other's. DESIGN CHOICE, log entry 26. -/
def controlRead (s : State) (port : BitVec 1) (req off : Nat) : Word :=
  let q (base : Nat) : Port := s.port (BitVec.ofNat 1 ((off - base) / 0x1000))
  let n (v : Nat) : Word := BitVec.ofNat 32 v
  let die := (off - 0x40000) / 0x100
  let o := off % 0x1000
  if off < 0x10000 then s.ipt (off / 4) (s.ctx (s.port port).hctx).image
  else if off = 0x10000 then s.mgmt.mcmdlo
  else if off = 0x10004 then s.mgmt.mcmdhi
  else if off = 0x1000C then
    if s.mgmt.busy then 1 else n (s.mgmt.code.toNat * 2 ^ 16 + s.mgmt.stat.toNat)
  else if 0x20000 ≤ off ∧ off < 0x22000 then
    if o < 0x40 then (q 0x20000).lrec.getD (o / 4) 0 else if o = 0x44 then (q 0x20000).lhandle else 0
  else if 0x30000 ≤ off ∧ off < 0x32000 then
    match o with
    | 0x00 => (q 0x30000).hcqlo
    | 0x04 => (q 0x30000).hcqhi
    | 0x08 => (q 0x30000).hcqsize
    | 0x0C => (q 0x30000).hcqhead
    | 0x10 => (q 0x30000).hcqtail
    | 0x14 => (q 0x30000).hcqvec
    | _ => 0
  else if 0x40000 ≤ off ∧ off < 0x40800 then
    if off % 0x100 < 0x10 then (((s.die die).faultq.head?.map FaultRec.words).getD []).getD (off % 0x100 / 4) 0
    else if off % 0x100 = 0x10 then n ((s.die die).faultq.length % 2 ^ 16) else 0
  else if off = 0x50000 then s.errinj
  else if off = 0x50004 then s.errinjlo
  else if off = 0x50008 then s.errinjhi
  else if off = 0x50100 then s.elsel
  else if off = 0x50104 then s.elidx
  else if 0x50110 ≤ off ∧ off < 0x50120 then
    match (selectedLog s).entries[s.elidx.toNat]? with
    | some e => (e.words (selectedLog s).array).getD ((off - 0x50110) / 4) 0
    | none => 0
  else if off = 0x50120 then (selectedLog s).ovf
  else if off = 0x60000 then s.fatalstat
  else if 0x60010 ≤ off ∧ off < 0x60030 then (s.die ((off - 0x60010) / 4)).vintage.zeroExtend 32
  else if 0x60030 ≤ off ∧ off < 0x60050 then (s.die ((off - 0x60030) / 4)).stalecnt
  else if off = 0x60050 then s.hostlost
  else if 0x60060 ≤ off ∧ off < 0x60080 then (s.die ((off - 0x60060) / 4)).latchovf
  else if 0x60100 ≤ off ∧ off < 0x60110 then ((s.eventq.head?.map EventRec.words).getD []).getD ((off - 0x60100) / 4) 0
  else if off = 0x60110 then n (s.eventq.length % 2 ^ 16)
  else if off = 0x60118 then s.eqvec
  else if off = 0x6011C then s.eqdrop
  else if off = 0x70000 then n ((if s.gm then 2 else 0) + if s.lock then 1 else 0)
  else if off = 0x70004 then s.timevec
  else if off = 0x70008 then s.time.setWidth 32
  else if off = 0x7000C then ((s.requesters.find? fun r => r.req = req).map Requester.latch).getD 0
  else if 0x70200 ≤ off ∧ off < 0x70240 ∧ Config.linkrankRead off then
    linkRankWord (s.links.getD ((off - 0x70200) / 4) Link.reset)
  else if 0x70100 ≤ off ∧ off < 0x70240 then linkStatus (s.links.getD ((off - 0x70100) / 4) Link.reset)
  else if 0x70200 ≤ off ∧ off < 0x70300 then linkRankWord (s.links.getD ((off - 0x70200) / 4) Link.reset)
  else if off = 0x80000 then s.sec.tamperstat.zeroExtend 32
  else if off = 0x80010 then (s.port 0).hwin
  else if off = 0x80014 then (s.port 0).hctx
  else if off = 0x80018 then (s.port 1).hwin
  else if off = 0x8001C then (s.port 1).hctx
  else if 0x90000 ≤ off ∧ off < 0xA0000 then bootWord s ((off - 0x90000) / 4)
  else 0

/-- What a read of a port's registers comes to. -/
inductive ControlReply where
  | word (w : Word)
  | unsupported
  /-- it completes later: an earlier write to LGO is still at the ordering point -/
  | wait
deriving DecidableEq, Repr

/-- LHANDLE of a window at which an earlier write to LGO waits: the read returns that write's result (R308). -/
def lhandleWaits (s : State) (off : Nat) : Bool :=
  (off = 0x20044 && !(s.port 0).lgos.isEmpty) || (off = 0x21044 && !(s.port 1).lgos.isEmpty)

/-- What a read of BAR0 is answered with (R306, R308). -/
def controlAnswer (s : State) (port : BitVec 1) (req off len : Nat) : ControlReply :=
  if !controlOk off len then .unsupported
  else if lhandleWaits s off then .wait
  else .word (controlRead s port req off)

end Sys2Proof.Machine
end

