-- ==== Sys2Proof/Machine/Issue.lean ====
section
/-! DEFINITION. Issue: bundles, fetching a bundle's instruction, the steps that hardware loops add to it, and the events
that follow at once from a state (R25 to R27, R47, R89 to R91, R96, R97, R104, R270). -/

namespace Sys2Proof.Machine

/-! ### Blocked threads (R89) -/

/-- The condition of a block holds still. An issue stall is none, so it never does. -/
def blockedNow (s : State) (t : Nat) : Block → Bool
  | .retry => false
  | .regs u rs => rs.any fun r => !s.regFull u r
  | .rows rs => rs.any fun r => !s.regFull r.1 r.2
  | .pops u => (s.th u).popped.any fun p => p.2.isNone
  | .push u q => !s.pushRoom u q
  | .bar nsp a par => barPhase s t nsp a != some (!par)
  | .fut a => !futDone s t a
  | .mres =>
    let k := s.co (s.coreOf t)
    !(k.holder = some (teamOf s t) || (k.holder.isNone && (k.waiters.isEmpty || k.waiters.head? = some (teamOf s t))))
  | .deferred window => if window then windowBusy s t else flagsDue s t
  | .neighbour ns => ns.any fun n => (s.nbrVal t n.1 n.2).isNone
  | .ticket k => !s.ticketEnded k
  | .acquire => !loadsDone s t
  | .time n _ => decide (s.time.toNat < n)
  | .meeting _ | .mwait _ _ | .phase _ _ | .entry _ => true

/-- A blocked thread whose instruction is examined again once the condition has ended; the others are released by a step of
their own. -/
def Block.reissues : Block → Bool
  | .meeting _ | .mwait _ _ | .phase _ _ | .entry _ => false
  | _ => true

/-- The release condition of R91: every live warp-mate with MEET p is at p, blocked or parked. -/
def meetReady (s : State) (w : Nat) (p : Word) : Bool :=
  let ts := (s.wp w).threads
  ts.any (fun t => isHeld (s.th t) && (s.th t).pc == p) &&
    ts.all fun t =>
      let th := s.th t
      th.meet != some p || th.pc == p || match th.status with
        | .blocked b => blockedNow s t b
        | .parked _ | .exited => true
        | _ => false

/-- MEET_RELEASE: the threads held at p are released in one step, their MEETs none (R91). -/
def execMeetRelease (warp : Nat) (at_ : Word) (s : State) : Host.Outcome State Fault Refusal :=
  .next (if meetReady s warp at_ then
    (s.wp warp).threads.foldl (fun s t =>
      if isHeld (s.th t) && (s.th t).pc == at_ then s.modTh t fun x => { x with meet := none } else s) s
    else s)

/-! ### Which threads issue (R89, R90) -/

/-- The thread issues from its core now: resident, ready and not held, or with a condition that has ended. -/
def canIssue (s : State) (c t : Nat) : Bool :=
  let x := s.th t
  let here : Bool := match x.cell with
    | some i => (s.cl i).resident
    | none => true
  s.coreOf t = c && (s.co c).resident && here && !isHeld x && match x.status with
    | .ready => true
    | .blocked b => b.reissues && !blockedNow s t b
    | _ => false

/-- The lane column of a thread in its pipe. -/
def columnOf (s : State) (t : Nat) : Nat := (s.wpOf t).col + (s.th t).lane

/-- Two threads may stand in one bundle: one team, one pipe, equal PCs (R90). -/
def bundleMates (s : State) (t u : Nat) : Bool :=
  (s.wpOf t).team = (s.wpOf u).team && (s.wpOf t).pipe = (s.wpOf u).pipe && (s.th t).pc = (s.th u).pc

def insLane (s : State) (t : Nat) : List Nat → List Nat
  | [] => [t]
  | u :: us => if t = u then u :: us else if laneBefore s t u then t :: u :: us else u :: insLane s t us

/-- Threads with lane columns that no thread before them in the list has. -/
def freshColumns (s : State) : List Nat → List Nat → List Nat
  | _, [] => []
  | used, t :: ts => if used.contains (columnOf s t) then freshColumns s used ts
    else t :: freshColumns s (columnOf s t :: used) ts

/-- How many threads may issue with this one: W cells of a lattice kernel (R179); any number of a pool kernel's. -/
def bundleMost (s : State) (t n : Nat) : Nat :=
  if (s.th t).cell.isSome then ((s.launchOf t).map fun l => lWidth (s.la l).words).getD 1 else n

/-- The lanes of a listed bundle that issue together now. A thread whose parked access is replayed issues by itself (R152). -/
def bundleLanes (s : State) (c : Nat) (bundle : List Nat) : List Nat :=
  match (bundle.filter (canIssue s c)).foldr (insLane s) [] with
  | [] => []
  | t :: ts =>
    if !(s.th t).owed.isEmpty then [t]
    else
      let ls := freshColumns s [] (t :: ts.filter fun u => bundleMates s t u && (s.th u).owed.isEmpty)
      ls.take (bundleMost s t ls.length)

/-! ### Fetch and loop steps (R26, R27, R104) -/

/-- What fetching at a thread's PC gives: the EXT word if there is one, and the word it stands before. -/
inductive Fetched where
  | ok (x : Option Word) (w : Word)
  | fault (kind : BitVec 4) (va : Nat)
deriving DecidableEq, Repr

def fetchAt (s : State) (t : Nat) : Fetched :=
  match s.fetchWord t (s.th t).pc with
  | .error e => .fault e.1 e.2
  | .ok r =>
    if majorOf r.1 = 0x7E then
      match s.fetchWord t ((s.th t).pc + 4) with
      | .error e => .fault e.1 e.2
      | .ok q => .ok (some r.1) q.1
    else .ok none r.1

/-- A field of n bits at `lo` takes the sum of its value and k, modulo 2^n. -/
def addField (w : Word) (lo n : Nat) (k : Int) : Word :=
  let f := fld w lo n
  BitVec.ofNat 32 (w.toNat - f * 2 ^ lo + (((f : Int) + k) % (2 ^ n : Nat)).toNat * 2 ^ lo)

/-- Bits of the immediate or offset that a word carries itself: off8 of an M word, imm11 of an RI word. -/
def immBits (w : Word) : Nat := if (0x50 ≤ majorOf w && majorOf w ≤ 0x57) || majorOf w = 0x5D then 8 else 11

/-- One loop step on an instruction; the immediate of a prefixed word is the 24 or 21 bits over both words. -/
def addStep (i : Option Word × Word) (f : BitVec 2) (k : Int) : Option Word × Word :=
  let n := immBits i.2
  match f.toNat, i.1 with
  | 0, _ => (i.1, addField i.2 18 7 k)
  | 1, _ => (i.1, addField i.2 11 7 k)
  | 2, _ => (i.1, addField i.2 4 7 k)
  | _, none => (none, addField i.2 0 n k)
  | _, some x =>
    let v := (((fld x 0 13 * 2 ^ n + fld i.2 0 n : Nat) + k) % (2 ^ (13 + n) : Nat)).toNat
    (some (BitVec.ofNat 32 (x.toNat - fld x 0 13 + v / 2 ^ n)),
     BitVec.ofNat 32 (i.2.toNat - fld i.2 0 n + v % 2 ^ n))

/-- Every active loop of the thread adds i × inc to the field that each of its steps names in the word at `addr`. -/
def stepped (th : Thread) (addr : Word) (i : Option Word × Word) : Option Word × Word :=
  th.lc.foldl (fun i r => match r.desc with
    | none => i
    | some d => d.steps.foldl (fun i st =>
        if d.first + BitVec.ofNat 32 (4 * st.idx) = addr then addStep i st.fld (d.i * st.inc.toInt) else i) i) i

/-- The instruction of a thread, with its loops' steps; the body word that a step names is the one after an EXT word. -/
def instrWords (th : Thread) (x : Option Word) (w : Word) : Option Word × Word :=
  stepped th (if x.isSome then th.pc + 4 else th.pc) (x, w)

/-- The instruction that a pair of words encodes, when it is legal (R47). -/
def legalInstr (i : Option Word × Word) : Option Instr :=
  match decodeWord (i.1.map Ext.ofWord) i.2 with
  | .ok j => if j.legal then some j else none
  | .error _ => none

/-- What the issue of a bundle comes to. -/
inductive Issued where
  /-- the step is the state given: no lane, a parked fetch, an illegal word -/
  | settled (s : State)
  /-- the instruction executes in the lanes that `issuing` lists -/
  | run (i : Instr) (s : State)
deriving DecidableEq, Repr

/-- The bundle's instruction is fetched and decoded. A fetch that fails parks each lane (R26), and an uncorrectable error that
it reads ends the context (R174); an illegal word traps in each lane, its guard true or false (R47). -/
def issueOf (s : State) (c : Nat) (bundle : List Nat) : Issued :=
  match bundleLanes s c bundle with
  | [] => .settled s
  | t :: ts =>
    match fetchAt s t with
    | .fault k va =>
      let s1 := s.cacheLine t (s.th t).pc
      .settled (if s1.live t then (t :: ts).foldl (fun s u => s.park u (s.faultRec u va k .fetch)) s1 else s1)
    | .ok x w =>
      let i := instrWords (s.th t) x w
      let lanes := (t :: ts).filter fun u => instrWords (s.th u) x w = i
      let s1 := (s.cacheLine t (s.th t).pc).cacheLine t ((s.th t).pc + if x.isSome then 4 else 0)
      if !s1.live t then .settled s1
      else match legalInstr i with
      | none => .settled (lanes.foldl (fun s u => s.illegal u) s1)
      | some j => .run j { s1 with issuing := lanes }

/-! ### Events of the bundle former (R90, R94, R270) -/

/-- Threads that wait for one leader's blocking pops stay in its bundle (R42). -/
def popMates (s : State) (t u : Nat) : Bool :=
  match (s.th u).status with
  | .blocked (.pops k) => k = t
  | _ => false

/-- The threads of a list may stand in one bundle of the core. Ready threads of one warp with equal PCs may also stand in two of
them. DEDUCED, log entry 112. -/
def bundleOk (s : State) (c : Nat) (g : List Nat) : Bool :=
  g.all fun t => s.coreOf t = c && s.live t && t < s.threads.length && g.length ≤ bundleMost s t g.length &&
    (g.all fun u => bundleMates s t u && (t = u || columnOf s t ≠ columnOf s u)) &&
    (s.wpOf t).threads.all fun u => !(popMates s t u || popMates s u t) || g.contains u

/-- BUNDLE_REGROUP (R90): the core's ready threads are grouped anew; a thread that yielded is ready again.
DESIGN CHOICE, log entry 59. -/
def execBundleRegroup (core : Nat) (groups : List (List Nat)) (s : State) : Host.Outcome State Fault Refusal :=
  let wake (s : State) (t : Nat) : State := if (s.th t).status = .yielded then s.setStatus t .ready else s
  .next (if groups.flatten.Nodup ∧ groups.all (bundleOk s core) then
    ((threadsOn s core).foldl wake s).modCo core fun k => { k with bundles := groups }
  else s)

/-- ISSUE_BOUND (R270): a bundle that has been ready for the bound issues next. -/
def execIssueBound (core i : Nat) (s : State) : Host.Outcome State Fault Refusal :=
  .next (if (bundleLanes s core ((s.co core).bundles.getD i [])).isEmpty then s else { s with forced := some (core, i) })

/-! ### Events that follow at once (R91, R96, R97) -/

/-- The first release or meeting that a warp's state already holds. -/
def warpEvent (s : State) (w : Nat) : Option Instr :=
  let ts := (s.wp w).threads
  let held := (ts.filter fun t => isHeld (s.th t)).map fun t => (s.th t).pc
  match held.find? (meetReady s w) with
  | some p => some (.meetRelease w p)
  | none =>
    if ts.any fun t => (meetingReady s (s.wp w) t).isSome then some (.crossLaneMeeting w)
    else ts.findSome? fun t => match (s.th t).status with
      | .blocked (.mwait m _) => if mwaitReady s w m then some (.mwaitRelease w m) else none
      | _ => none

/-- The event that must be the next step, if any: a `twait` that expired while its thread was saved (R277), then releases and
meetings, which come in the first step in which they can. -/
def dueEvent (s : State) : Option Instr :=
  match (List.range s.threads.length).find? (expiredSaved s) with
  | some t => some (.twaitExpiry t)
  | none => (List.range s.warps.length).findSome? fun w =>
    if (s.co (s.wp w).core).resident then warpEvent s w else none

/-- The lanes and bundle that the coming step issues: the forced bundle first. -/
def issueTurn (s : State) : Option (Nat × Nat) :=
  match s.forced, s.turn with
  | some b, _ => some b
  | none, .issue c b => some (c, b)
  | none, .event _ => none

/-- A step has been taken: device time passes, never backward (R280), a grandmaster may come or go, and the next step is chosen (DESIGN
CHOICE, log entries 1, 2 and 53). -/
def State.finishStep (s : State) : State :=
  { s with issuing := [], tick := s.tick + 1, turn := Config.turn (s.tick + 1)
           time := BitVec.ofNat 64 (min (s.time.toNat + Config.elapsed s.tick) (2 ^ 64 - 1))
           gm := s.gm != Config.gmChanges s.tick }

end Sys2Proof.Machine
end

