-- ==== Sys2Proof/Machine/Moments.lean ====
section
/-! DEFINITION. Moment triples in lanes (R140, R141). -/

namespace Sys2Proof.Machine

/-- `blend`: d ← blend(a, b) (R140). -/
def execBlend (w : R3) (s : State) : Host.Outcome State Fault Refusal :=
  runJob { x := w.x, n := w.n, d := w.d, dn := 3, srcs := [srcN w.a 3 w.ea, srcN w.b 3 w.eb], res := .fn .blend } s

/-- `mupdw`: d ← blend(d, (b, a, +0)) (R140). -/
def execMupdw (w : R3) (s : State) : Host.Outcome State Fault Refusal :=
  runJob { r3JobRd w .mupdw with dn := 3 } s

/-- `mupd`: d ← blend(d, (1.0, a, +0)) (R141). -/
def execMupd (w : RF) (s : State) : Host.Outcome State Fault Refusal :=
  runJob { rfJob w .mupd with dn := 3, rd := true } s

/-- `mclr`: the empty triple (R141). -/
def execMclr (x : Option Ext) (d : Operand) (_k _ea n : Bool) (s : State) : Host.Outcome State Fault Refusal :=
  runJob { x := x, n := n, d := d, dn := 3, srcs := [], res := .fn .mclr } s

/-- `mmean` (R141, R83). -/
def execMmean (w : RF) (s : State) : Host.Outcome State Fault Refusal :=
  runJob { rfJob w .mmean with srcs := [srcN w.a 3 w.ea] } s

/-- `mvar` (R141, R83). -/
def execMvar (w : RF) (s : State) : Host.Outcome State Fault Refusal :=
  runJob { rfJob w .mvar with srcs := [srcN w.a 3 w.ea] } s

/-- `mvars` (R141, R83). -/
def execMvars (w : RF) (s : State) : Host.Outcome State Fault Refusal :=
  runJob { rfJob w .mvars with srcs := [srcN w.a 3 w.ea] } s

/-- `mrstd` (R141, R83). -/
def execMrstd (w : RF) (s : State) : Host.Outcome State Fault Refusal :=
  runJob { rfJob w .mrstd with srcs := [srcN w.a 3 w.ea], rd := true } s

/-- `msum` (R141, R83). -/
def execMsum (w : RF) (s : State) : Host.Outcome State Fault Refusal :=
  runJob { rfJob w .msum with srcs := [srcN w.a 3 w.ea] } s

end Sys2Proof.Machine
end

