-- ==== Sys2Proof/Machine/Narrow.lean ====
section
/-! DEFINITION. Narrow elements, bit fields and bit streams (R131 to R139). -/

namespace Sys2Proof.Machine

/-- `dot4`: d + Σ a_i × b_i by the tags (R132). -/
def execDot4 (w : R3) (s : State) : Host.Outcome State Fault Refusal :=
  runJob (r3JobRd w .dot4) s

/-- `dot8`: d + Σ a_i × b_i by the tags (R132). -/
def execDot8 (w : R3) (s : State) : Host.Outcome State Fault Refusal :=
  runJob (r3JobRd w .dot8) s

/-- `fscl`: a × 2^(b[7:0] − 127) (R133). -/
def execFscl (w : R3) (s : State) : Host.Outcome State Fault Refusal :=
  runJob (r3Job w .fscl) s

/-- `pk8`: two converted elements shifted into d (R134). -/
def execPk8 (w : R3) (s : State) : Host.Outcome State Fault Refusal :=
  runJob (r3JobRd w .pk8) s

/-- `pk4`: two converted elements shifted into d (R134). -/
def execPk4 (w : R3) (s : State) : Host.Outcome State Fault Refusal :=
  runJob (r3JobRd w .pk4) s

/-- `upk8`: FP32 of element i (R135). -/
def execUpk8 (w : RF) (i : BitVec 2) (s : State) : Host.Outcome State Fault Refusal :=
  runJob (rfJob w (.upk8 i.toNat)) s

/-- `upk4`: FP32 of element i (R135). -/
def execUpk4 (w : RF) (i : BitVec 3) (s : State) : Host.Outcome State Fault Refusal :=
  runJob (rfJob w (.upk4 i.toNat)) s

/-- `ftag`: d ← a with another tag (R136). -/
def execFtag (w : RF) (t : Tag) (s : State) : Host.Outcome State Fault Refusal :=
  runJob (rfJob w (.ftag t)) s

/-- `bfx`: the field, zero-extended (R137). -/
def execBfx (x : Option Ext) (d a : Operand) (len1 pos : BitVec 5) (s : State) : Host.Outcome State Fault Refusal :=
  runJob { x := x, d := d, srcs := [src a], res := .fn (.bfx (len1.toNat + 1) pos.toNat) } s

/-- `bfi`: the field replaced (R137). -/
def execBfi (x : Option Ext) (d a : Operand) (len1 pos : BitVec 5) (s : State) : Host.Outcome State Fault Refusal :=
  runJob { x := x, d := d, srcs := [src a], rd := true, res := .fn (.bfi (len1.toNat + 1) pos.toNat) } s

/-- `bsld`: BW ← value(a+1) : value(a), c ← 0 (R139). -/
def execBsld (x : Option Ext) (a : Operand) (_k ea _eb _n : Bool) (s : State) : Host.Outcome State Fault Refusal :=
  .next (runPlain x false
    (fun s t => (opCheck s t [a] [srcN a 2 ea] []).andThen (windowWait s t))
    (fun s t =>
      let rs := regsOf (s.th t) a 2
      let w (i : Nat) : Word := (rs[i]?.map (s.regVal t)).getD 0
      (s.modTh t fun y => { y with bw := w 1 ++ w 0, bc := 0 }).retire t (extLen x)) s)

/-- `bsget`: d ← BW[c+n−1:c], c ← (c + n) mod 64; the illegal-operand trap when c + n > 64 (R139). With an s destination only the
cursor of the lane that acts moves. DESIGN CHOICE, log entry 68. -/
def execBsget (x : Option Ext) (d : Operand) (n : BitVec 6) (s : State) : Host.Outcome State Fault Refusal :=
  let pushes : List Nat := match d with | .q k => [k.toNat] | _ => []
  .next (runPlain x d.isS
    (fun s t =>
      let past : Bool := !windowBusy s t && 64 < (s.th t).bc.toNat + n.toNat
      (opFault s t [d] [] (regsOf (s.th t) d 1) (if past then trapHere s t 2 0x104 else .ok)).andThen
        ((chanCheck s t pushes).andThen ((opWait s t [] (regsOf (s.th t) d 1)).andThen
          ((windowWait s t).andThen (pushWait s t pushes)))))
    (fun s t =>
      let th := s.th t
      let w : Word := BitVec.ofNat 32 (th.bw.toNat / 2 ^ th.bc.toNat % 2 ^ n.toNat)
      let s1 := s.modTh t fun y => { y with bc := y.bc + n }
      orWait (pushes.all (s.pushRoom t)) s t ((s1.writeDst t d (regsOf th d 1) (outW w)).retire t (extLen x))) s)

/-- `bsrf`: refill when c ≥ 32 (R139). With an s destination only the window and cursor of the lane that acts move. DESIGN CHOICE,
log entry 68. -/
def execBsrf (w : RF) (_eb : Bool) (s : State) : Host.Outcome State Fault Refusal :=
  runJob { x := w.x, n := w.n, d := w.d, srcs := [src w.a w.ea], res := .refill } s

end Sys2Proof.Machine
end

