-- ==== Sys2Proof/Machine/Racking.lean ====
section
/-! DEFINITION. The racking unit: read-side sections, grace periods, the lees queue and pools (R288 to R298). -/

namespace Sys2Proof.Machine

/-! ### `qsc` (R294) -/

/-- `qenter`: the Enter step at issue (R290). -/
def execQenter (x : Option Ext) (s : State) : Host.Outcome State Fault Refusal :=
  .next (runPlain x false
    (fun s t => if (s.th t).depth = 255 then trapHere s t 0x0D 3 else .ok)
    (fun s t => (s.modTh t fun y => { y with
      depth := y.depth + 1, qtag := if y.depth = 0 then s.g.setWidth 8 else y.qtag }).retire t (extLen x)) s)

/-- A marker of a bundle enters the FIFO, a release at this scope, and the thread blocks until it has drained (R291). -/
def bundleMark (x : Option Ext) (scope : BitVec 3) (bundle : Nat) (m : Marker) (s : State) (t : Nat) : State :=
  (s.toFifo t { s.entry t .n 0 (.mark m) with
    rel := true, scope := scope, bars := true, bundle := bundle }).setStatus t (.blocked (.entry (extLen x)))

/-- A marker that drains in its own turn. -/
def issueMark (x : Option Ext) (scope : BitVec 3) (m : Marker) (s : State) (t : Nat) : State := bundleMark x scope 0 m s t

/-- `qleave`: the Leave step comes when its marker drains. -/
def execQleave (x : Option Ext) (s : State) : Host.Outcome State Fault Refusal :=
  .next (runPlain x false
    (fun s t => if (s.th t).depth = 0 then trapHere s t 0x0D 2 else .ok)
    (issueMark x 3 .qleave) s)

/-- `qpt`: the Point step comes when its marker drains. -/
def execQpt (x : Option Ext) (s : State) : Host.Outcome State Fault Refusal :=
  .next (runPlain x false (fun _ _ => .ok) (issueMark x 3 .qpt) s)

/-- `gwait`: a Request, a wait for its ticket's end, and an acquire. -/
def execGwait (x : Option Ext) (s : State) : Host.Outcome State Fault Refusal :=
  .next (runPlain x false
    (fun s t => match (s.th t).status with
      | .blocked (.ticket k) => if s.ticketEnded k then .ok else .wait (.ticket k)
      | _ => if (s.th t).depth ≠ 0 then trapHere s t 0x0F 1 else .ok)
    (fun s t => match (s.th t).status with
      | .blocked (.ticket _) => (s.discardCopies (s.coreOf t)).retire t (extLen x)
      | _ => issueMark x 3 .gwait s t) s)

/-- The lanes of one warp in one bundle enter a single marker: `old` says how many entries stood in each FIFO before it. -/
def joinGstart (x : Option Ext) (d : Operand) (old : Nat → Nat) (s : State) (t : Nat) : State :=
  let n := old (s.th t).warp
  let mine (e : Entry) : Bool := match e.body with
    | .mark (.gstart _) => true
    | _ => false
  match (s.newEntries t n).find? mine with
  | some e => (s.growNew t n fun y => if y.seq = e.seq then { y with body := match y.body with
        | .mark (.gstart dst) => .mark (.gstart (dst ++ [(t, d)]))
        | b => b } else y).setStatus t (.blocked (.entry (extLen x)))
  | none => issueMark x 3 (.gstart [(t, d)]) s t

/-- `gstart`: the ticket of a Request, to every executing lane of a warp. With an s destination the warp's other lanes
pass it with their leader. -/
def execGstart (x : Option Ext) (d : Operand) (s : State) : Host.Outcome State Fault Refusal :=
  .next (runPlain x false (fun s t => opCheck s t [d] [] (regsOf (s.th t) d 1)) (joinGstart x d s.fifoLens) s)

/-- `gpoll`: whether a ticket has ended; true discards the core's copies. -/
def execGpoll (x : Option Ext) (p : BitVec 3) (a : Operand) (s : State) : Host.Outcome State Fault Refusal :=
  .next (runPlain x false (fun s t => opCheck s t [a] [src a] [])
    (fun s t =>
      let r := s.ticketEnded (addrReg s t a)
      ((if r then s.discardCopies (s.coreOf t) else s).setP t p r).retire t (extLen x)) s)

/-! ### Pools (R295, R296) -/

/-- A pool's descriptor. -/
structure Pool where
  baseLo : Nat
  baseHi : Nat
  nblk : Nat
  bs : Nat
deriving DecidableEq, Repr

/-- Descriptor k of a context; `none` when the pool does not exist or breaks the table of R295. -/
def Ctx.pool (c : Ctx) (k : Nat) : Option Pool :=
  match c.pools[k]? with
  | none => none
  | some w =>
    let l := fld (w.getD 3 0) 0 5
    let p : Pool := ⟨(w.getD 0 0).toNat, fld (w.getD 1 0) 0 16, (w.getD 2 0).toNat, 2 ^ l⟩
    if bit (w.getD 3 0) 31 ∧ fld (w.getD 3 0) 5 26 = 0 ∧ fld (w.getD 1 0) 16 16 = 0 ∧ 4 ≤ l ∧ l ≤ 20 ∧ 1 ≤ p.nblk ∧
        p.baseLo % p.bs = 0 ∧ p.baseLo + p.nblk * p.bs ≤ 2 ^ 32 then some p
    else none

/-- The pool named by a register's value, in the thread's window. -/
def poolOf (s : State) (t : Nat) (k : Word) : Option Pool :=
  if 63 < k.toNat then none
  else ((s.ctxOf t).pool k.toNat).filter fun p => s.nwin t = p.baseHi * 2 ^ 32

/-- Block index of a pointer. -/
def Pool.index (p : Pool) (x : Word) : Option Nat :=
  if x.toNat < p.baseLo ∨ (x.toNat - p.baseLo) % p.bs ≠ 0 ∨ p.nblk ≤ (x.toNat - p.baseLo) / p.bs then none
  else some ((x.toNat - p.baseLo) / p.bs)

/-- The least index of 0 to `n` that is not listed. -/
def leastFree (used : List Nat) : Nat → Nat → Nat
  | 0, i => i
  | n + 1, i => if used.contains i then leastFree used n (i + 1) else i

/-- The lowest free block of a pool on a die. -/
def Ctx.freeBlock (c : Ctx) (p : Pool) (k die : Nat) : Option Nat :=
  let used := (c.blocks.filter fun b => b.pool = k ∧ b.die = die).map PoolBlock.blk
  let i := leastFree used used.length 0
  if i < p.nblk then some i else none

/-- `palloc`: one step at the pool, an acquire at die scope. -/
def execPalloc (x : Option Ext) (d a : Operand) (ea _eb : Bool) (s : State) : Host.Outcome State Fault Refusal :=
  .next (runPlain x d.isS
    (fun s t => (opCheck s t [d, a] [src a ea] (regsOf (s.th t) d 1)).andThen
      (if (poolOf s t (addrReg s t a)).isSome then .ok else trapHere s t 0x0E 1))
    (fun s t =>
      let k := addrReg s t a
      let c := s.ctxOf t
      let r : State × Word × Bool := match poolOf s t k with
        | none => (s, 0, false)
        | some p => match c.freeBlock p k.toNat (s.ldieOf t) with
          | some i => (s.modCtx c.id fun c => c.setBlock k.toNat (s.ldieOf t) i (some false),
              BitVec.ofNat 32 (p.baseLo + i * p.bs), true)
          | none => (s, 0, false)
      (((r.1.discardCopies (s.coreOf t)).writeDst t d (regsOf (s.th t) d 1) (outW r.2.1)).setP t 7 r.2.2).retire t
        (extLen x)) s)

/-- The checks of `pfree` and `lees` at issue. -/
def blockCheck (a b : Operand) (ea eb : Bool) (s : State) (t : Nat) : Check :=
  (opCheck s t [a, b] [src a ea, src b eb] []).andThen
    (match poolOf s t (addrReg s t b) with
      | none => trapHere s t 0x0E 1
      | some p => if (p.index (addrReg s t a)).isSome then .ok else trapHere s t 0x0E 2)

/-- Block index and pool that a checked `pfree` or `lees` names. -/
def blockOf (s : State) (t : Nat) (a b : Operand) : Nat × Nat :=
  ((addrReg s t b).toNat, ((poolOf s t (addrReg s t b)).bind fun p => p.index (addrReg s t a)).getD 0)

/-- `pfree`: the block is free when its marker drains; the markers of a bundle drain in ascending home lane. -/
def execPfree (x : Option Ext) (a b : Operand) (ea eb : Bool) (s : State) : Host.Outcome State Fault Refusal :=
  let from_ := s.seq
  .next (runPlain x false (blockCheck a b ea eb)
    (fun s t => let k := blockOf s t a b; bundleMark x 2 from_ (.pfree k.1 k.2) s t) s)

/-- `lees`: the block is deferred when its marker drains, with a Request; the markers of a bundle drain as those of `pfree` do. -/
def execLees (x : Option Ext) (a b : Operand) (ea eb : Bool) (s : State) : Host.Outcome State Fault Refusal :=
  let from_ := s.seq
  .next (runPlain x false (blockCheck a b ea eb)
    (fun s t => let k := blockOf s t a b; bundleMark x 2 from_ (.lees k.1 k.2) s t) s)

/-! ### Periods (R290) -/

/-- BEGIN: a period begins, and every copy held by every core is discarded. -/
def execBeginPeriod (s : State) : Host.Outcome State Fault Refusal :=
  .next (if s.gdone = s.g ∧ s.req then ({ s with g := s.g + 1, req := false }).discardAllCopies else s)

/-- A thread holds the period back: in a section, live, with the tag of the period before (R288, R290). -/
def holdsPeriod (s : State) (th : Thread) : Bool :=
  th.status != .exited && th.depth != 0 && th.qtag == (s.g - 1).setWidth 8

/-- The lees entries of a die whose ticket is this period return their blocks to their pools, in order. -/
def State.returnLees (s : State) (d : Nat) : State :=
  let mine := (s.die d).lees.filter fun (e : LeesEntry) => e.ticket = s.g
  let ldie := (s.place.findIdx? fun p => p = d).getD 8
  let s1 := mine.foldl (fun (s : State) (e : LeesEntry) => s.modCtx e.ctx fun c => c.setBlock e.pool ldie e.blk none) s
  s1.modDie d fun x => { x with lees := x.lees.filter fun (e : LeesEntry) => e.ticket ≠ s.g }

/-- END: the period ends when no section of the period before is open. -/
def execEndPeriod (s : State) : Host.Outcome State Fault Refusal :=
  .next (if s.gdone = s.g - 1 ∧ ¬ s.threads.any (holdsPeriod s) then
    { (List.range s.dies.length).foldl State.returnLees s with gdone := s.g }
  else s)

end Sys2Proof.Machine
end

