-- ==== Sys2Proof/Machine/Special.lean ====
section
/-! DEFINITION. Special registers: `gets` and `sets` (R112, R113, R279). -/

namespace Sys2Proof.Machine

/-- Cells of the thread's partition: the cells of its launch on its core. -/
def partitionSize (s : State) (c : Cell) : Nat := (s.cells.filter fun x => x.launch = c.launch ∧ x.core = c.core).length

/-- The launch record of a thread; zeros for the Collie. -/
def launchWords (s : State) (t : Nat) : List Word := ((s.launchOf t).map fun l => (s.la l).words).getD []

/-- TEAMWARPS: warps of the team; in a lattice kernel the cells of the partition, saturating; 1 for the Collie. -/
def teamWarps (s : State) (t : Nat) : Nat :=
  match s.cellOf t with
  | some c => min (partitionSize s c) 0xFFFFFFFF
  | none => if (s.th t).collie then 1 else (s.tmOf t).warps

/-- WIDTH: the launch's W, which a cell reads too (DEDUCED, log entry 21); 1 for the Collie. -/
def widthOf (s : State) (t : Nat) : Nat :=
  if (s.th t).collie then 1 else 16 * 2 ^ fld ((launchWords s t).getD 0 0) 28 2

/-- The value of special register n (R112). -/
def sregVal (s : State) (t n : Nat) : Word :=
  let x := s.th t
  let k := s.co (s.coreOf t)
  let g (i : Nat) : Word := (launchWords s t).getD i 0
  let c := s.cellOf t
  let q := (c.map Cell.q).getD 0
  let ph := (c.map fun c => phasesOf (s.la c.launch).desc).getD 1
  let nat (v : Nat) : Word := BitVec.ofNat 32 v
  match n with
  | 0x000 => nat x.lane
  | 0x001 => if x.collie then 0xFFFF else nat (s.wpOf t).idx
  | 0x002 => (s.tmOf t).x
  | 0x003 => (s.tmOf t).y
  | 0x004 => (s.tmOf t).z
  | 0x005 => g 4
  | 0x006 => g 5
  | 0x007 => g 6
  | 0x008 => nat (teamWarps s t)
  | 0x009 => nat k.ldie
  | 0x00A => nat s.ndie
  | 0x00B => nat k.core
  | 0x00C => nat (widthOf s t)
  | 0x00D => nat x.v.length
  | 0x010 => x.lnk
  | 0x011 => x.meet.getD 0xFFFFFFFF
  | 0x012 => x.bc.zeroExtend 32
  | 0x013 => nat x.wbase
  | 0x014 => (x.lc.getD 0 ⟨0, none, 0⟩).n
  | 0x015 => (x.lc.getD 1 ⟨0, none, 0⟩).n
  | 0x016 => (x.lc.getD 2 ⟨0, none, 0⟩).n
  | 0x018 => s.time.setWidth 32
  | 0x019 => x.timeHi
  | 0x01A => nat (q / ph)
  | 0x01B => nat (q % ph)
  | 0x020 => (s.wpOf t).fp.zeroExtend 32
  | 0x021 => x.faultCode
  | 0x022 => x.faultAddr.extractLsb' 0 32
  | 0x023 => x.faultAddr.extractLsb' 32 32
  | 0x024 => x.cbsel.zeroExtend 32
  | 0x025 => (k.book x.cbsel.toNat).gen.zeroExtend 32
  | 0x028 => x.iptidx.zeroExtend 32
  | 0x029 => s.ipt x.iptidx.toNat (s.ctxOf t).image
  | 0x02A => nat (x.depth.toNat + 256 * x.qtag.toNat)
  | 0x02B => k.ctx
  | _ => 0

/-- FPSTAT is read and written in issue order: after every instruction of the warp whose flags are still to be set (R74, R190);
BSCUR after a deferred refill. DEDUCED, log entries 38 and 41. -/
def sregWait (s : State) (t n : Nat) : Check :=
  if n = 0x020 && flagsDue s t then .wait (.deferred false)
  else if n = 0x012 then windowWait s t else .ok

/-- Reading TIME_LO latches the high half for the thread. -/
def latchTime (s : State) (t n : Nat) : State :=
  if n = 0x018 then s.modTh t fun x => { x with timeHi := s.time.extractLsb' 32 32 } else s

/-- `gets` (R279). DEDUCED, log entry 41. -/
def execGets (x : Option Ext) (d : Operand) (n : BitVec 11) (s : State) : Host.Outcome State Fault Refusal :=
  .next (runPlain x d.isS
    (fun s t => (opCheck s t [d] [] (regsOf (s.th t) d 1)).andThen (sregWait s t n.toNat))
    (fun s t => ((latchTime s t n.toNat).writeDst t d (regsOf (s.th t) d 1)
      (outW (sregVal s t n.toNat))).retire t (extLen x)) s)

/-- A write of special register n. -/
def setSreg (s : State) (t n : Nat) (w : Word) : State :=
  let lc (i : Nat) : State := s.modTh t fun x => { x with lc := x.lc.modify i fun r => { r with n := w } }
  match n with
  | 0x010 => s.modTh t fun x => { x with lnk := w &&& 0xFFFFFFFC }
  | 0x011 => s.modTh t fun x => { x with meet := if w = 0xFFFFFFFF then none else some (w &&& 0xFFFFFFFC) }
  | 0x012 => s.modTh t fun x => { x with bc := w.setWidth 6 }
  | 0x014 => lc 0
  | 0x015 => lc 1
  | 0x016 => lc 2
  | 0x020 => s.modWp (s.th t).warp fun x => { x with fp := w.setWidth 5 }
  | 0x024 => s.modTh t fun x => { x with cbsel := w.setWidth 6 }
  | 0x028 => s.modTh t fun x => { x with iptidx := w.setWidth 16 }
  | _ => s

/-- `sets` (R279). -/
def execSets (x : Option Ext) (a : Operand) (n : BitVec 11) (s : State) : Host.Outcome State Fault Refusal :=
  .next (runPlain x false
    (fun s t => (opCheck s t [a] [src a] []).andThen (sregWait s t n.toNat))
    (fun s t => (setSreg s t n.toNat (((regOf (s.th t) a).map (s.regVal t)).getD 0)).retire t (extLen x)) s)

end Sys2Proof.Machine
end

