-- ==== Sys2Proof/Machine/Secure.lean ====
section
/-! DEFINITION. SHA-256 and the ECDSA P-256 verification that images pass (R247, R317, R337). The rules name the two
algorithms; their text is FIPS 180-4 and FIPS 186. PRESUMED, log entry 28. -/

namespace Sys2Proof.Machine

/-! ### SHA-256 -/

/-- The eight words of a SHA-256 state. -/
structure Sha where
  a : Word
  b : Word
  c : Word
  d : Word
  e : Word
  f : Word
  g : Word
  h : Word
deriving DecidableEq, Repr

def Sha.words (s : Sha) : List Word := [s.a, s.b, s.c, s.d, s.e, s.f, s.g, s.h]

def Sha.start : Sha :=
  ⟨0x6A09E667, 0xBB67AE85, 0x3C6EF372, 0xA54FF53A, 0x510E527F, 0x9B05688C, 0x1F83D9AB, 0x5BE0CD19⟩

/-- The round constants. -/
def shaK : List Word :=
  [0x428A2F98, 0x71374491, 0xB5C0FBCF, 0xE9B5DBA5, 0x3956C25B, 0x59F111F1, 0x923F82A4, 0xAB1C5ED5, 0xD807AA98,
   0x12835B01, 0x243185BE, 0x550C7DC3, 0x72BE5D74, 0x80DEB1FE, 0x9BDC06A7, 0xC19BF174] ++
  [0xE49B69C1, 0xEFBE4786, 0x0FC19DC6, 0x240CA1CC, 0x2DE92C6F, 0x4A7484AA, 0x5CB0A9DC, 0x76F988DA, 0x983E5152,
   0xA831C66D, 0xB00327C8, 0xBF597FC7, 0xC6E00BF3, 0xD5A79147, 0x06CA6351, 0x14292967] ++
  [0x27B70A85, 0x2E1B2138, 0x4D2C6DFC, 0x53380D13, 0x650A7354, 0x766A0ABB, 0x81C2C92E, 0x92722C85, 0xA2BFE8A1,
   0xA81A664B, 0xC24B8B70, 0xC76C51A3, 0xD192E819, 0xD6990624, 0xF40E3585, 0x106AA070] ++
  [0x19A4C116, 0x1E376C08, 0x2748774C, 0x34B0BCB5, 0x391C0CB3, 0x4ED8AA4A, 0x5B9CCA4F, 0x682E6FF3, 0x748F82EE,
   0x78A5636F, 0x84C87814, 0x8CC70208, 0x90BEFFFA, 0xA4506CEB, 0xBEF9A3F7, 0xC67178F2]

/-- The message schedule, newest word first: `n` words are still to come. -/
def shaSchedule : Nat → List Word → List Word
  | 0, ws => ws.reverse
  | n + 1, ws =>
    let s0 (x : Word) : Word := x.rotateRight 7 ^^^ x.rotateRight 18 ^^^ (x >>> 3)
    let s1 (x : Word) : Word := x.rotateRight 17 ^^^ x.rotateRight 19 ^^^ (x >>> 10)
    shaSchedule n ((s1 (ws.getD 1 0) + ws.getD 6 0 + s0 (ws.getD 14 0) + ws.getD 15 0) :: ws)

/-- One round, with a constant and a word of the schedule. -/
def Sha.round (s : Sha) (kw : Word × Word) : Sha :=
  let s1 := s.e.rotateRight 6 ^^^ s.e.rotateRight 11 ^^^ s.e.rotateRight 25
  let t1 := s.h + s1 + ((s.e &&& s.f) ^^^ (~~~s.e &&& s.g)) + kw.1 + kw.2
  let s0 := s.a.rotateRight 2 ^^^ s.a.rotateRight 13 ^^^ s.a.rotateRight 22
  let t2 := s0 + ((s.a &&& s.b) ^^^ (s.a &&& s.c) ^^^ (s.b &&& s.c))
  ⟨t1 + t2, s.a, s.b, s.c, s.d + t1, s.e, s.f, s.g⟩

/-- A big-endian number. -/
def beNat (bs : List Byte) : Nat := bs.foldl (fun a b => 256 * a + b.toNat) 0

/-- The words of a block of 64 bytes. -/
def beWords : Nat → List Byte → List Word
  | 0, _ => []
  | n + 1, bs => BitVec.ofNat 32 (beNat (bs.take 4)) :: beWords n (bs.drop 4)

/-- One block joins the state. -/
def Sha.block (s : Sha) (bs : List Byte) : Sha :=
  let r := (shaK.zip (shaSchedule 48 (beWords 16 bs).reverse)).foldl Sha.round s
  ⟨s.a + r.a, s.b + r.b, s.c + r.c, s.d + r.d, s.e + r.e, s.f + r.f, s.g + r.g, s.h + r.h⟩

def shaBlocks : Nat → List Byte → Sha → Sha
  | 0, _, s => s
  | n + 1, bs, s => shaBlocks n (bs.drop 64) (s.block (bs.take 64))

/-- The message with its padding: a one bit, zeros, and its length in bits. -/
def shaPadded (bs : List Byte) : List Byte :=
  bs ++ [0x80] ++ List.replicate ((119 - bs.length % 64) % 64) 0 ++ (leBytes 8 (8 * bs.length)).reverse

/-- The SHA-256 digest of a message, as eight words. -/
def sha256 (bs : List Byte) : List Word :=
  let m := shaPadded bs
  (shaBlocks (m.length / 64) m Sha.start).words

/-- The number that the digest's words spell, the first highest. -/
def digestNat (ws : List Word) : Nat := ws.foldl (fun a w => 2 ^ 32 * a + w.toNat) 0

/-! ### P-256 -/

/-- The field's prime, and the order of the base point. -/
def p256 : Nat := 0xFFFFFFFF00000001000000000000000000000000FFFFFFFFFFFFFFFFFFFFFFFF
def n256 : Nat := 0xFFFFFFFF00000000FFFFFFFFFFFFFFFFBCE6FAADA7179E84F3B9CAC2FC632551

/-- A point of the curve; `none` is the point at infinity. -/
abbrev Point := Option (Nat × Nat)

def basePoint : Point :=
  some (0x6B17D1F2E12C4247F8BCE6E563A440F277037D812DEB33A0F4A13945D898C296,
    0x4FE342E2FE1A7F9B8EE7EB4A7C0F9E162BCE33576B315ECECBB6406837BF51F5)

/-- x^e modulo m, for an exponent of at most `n` bits. -/
def powMod (m : Nat) : Nat → Nat → Nat → Nat
  | 0, _, _ => 1
  | n + 1, x, e =>
    let h := powMod m n (x * x % m) (e / 2)
    if e % 2 = 1 then x * h % m else h

/-- The inverse modulo a prime. -/
def invMod (m x : Nat) : Nat := powMod m 256 (x % m) (m - 2)

/-- The third point of a line of slope `k` through two points, reflected. -/
def chord (k x1 y1 x2 : Nat) : Point :=
  let x := (k * k + 2 * p256 - x1 - x2) % p256
  some (x, (k * (x1 + p256 - x) + p256 - y1) % p256)

def Point.add (a b : Point) : Point :=
  match a, b with
  | none, b => b
  | a, none => a
  | some (x1, y1), some (x2, y2) =>
    if x1 ≠ x2 then chord ((y2 + p256 - y1) * invMod p256 (x2 + p256 - x1) % p256) x1 y1 x2
    else if y1 = y2 ∧ y1 ≠ 0 then
      chord ((3 * x1 * x1 + p256 - 3) * invMod p256 (2 * y1) % p256) x1 y1 x1
    else none

/-- k times a point, for a k of at most `n` bits. -/
def Point.mul : Nat → Nat → Point → Point
  | 0, _, _ => none
  | n + 1, k, a =>
    let h := Point.mul n (k / 2) (a.add a)
    if k % 2 = 1 then a.add h else h

/-- The ECDSA verification of a digest's number with a key. -/
def ecdsaOk (key : Point) (z r s : Nat) : Bool :=
  0 < r && r < n256 && 0 < s && s < n256 &&
    let w := invMod n256 s
    match (Point.mul 256 (z * w % n256) basePoint).add (Point.mul 256 (r * w % n256) key) with
    | some (x, _) => x % n256 = r
    | none => false

/-! ### Images (R337) -/

/-- The digest of an image: over every byte before the signature. -/
def imageDigest (img : List Byte) : List Word := sha256 (img.take (img.length - 64))

/-- VERSION of an image. -/
def imageVersion (img : List Byte) : Word := wOf ((img.drop 4).take 4)

/-- The header meets the table, for the kind and the length of the command. -/
def headerOk (img : List Byte) (kind len : Word) : Bool :=
  let h := wordsOf 4 img
  80 ≤ img.length && h.getD 0 0 = kind && h.getD 2 0 = len && h.getD 3 0 = 0

/-- The signature, in the last 64 bytes, verifies against the vendor key. -/
def signatureOk (img : List Byte) : Bool :=
  let sig := img.drop (img.length - 64)
  ecdsaOk (some Config.vendorKey) (digestNat (imageDigest img)) (beNat (sig.take 32)) (beNat (sig.drop 32))

/-- An image passes verification for a command (R247, R317, R337). -/
def imageOk (img : List Byte) (kind len : Word) : Bool := headerOk img kind len && signatureOk img

end Sys2Proof.Machine
end

