-- ==== Sys2Proof/Machine/Startup.lean ====
section
/-! DEFINITION. Management commands, identity and attestation, the tamper alarm, and start-up (R13, R247, R260, R280,
R308, R309, R312, R317 to R321, R336 to R338). -/

namespace Sys2Proof.Machine

/-! ### Tamper (R318) -/

/-- One input of the tamper alarm acts, in one step. -/
def State.tamper (s : State) (input : BitVec 3) : State :=
  if input = 7 then s
  else
    let s1 := ((s.ctxs.filter fun c => c.live).map Ctx.id).foldl (fun (s : State) id => s.endCtx id 4 0x54410000) s
    { s1 with sec := { s1.sec with
      keys := false, fuse := true, tamperstat := s1.sec.tamperstat ||| (1#7 <<< input.toNat) } }

/-- TAMPER_ALARM (R318); input 5 is the eighth consecutive failed verification. -/
def execTamperAlarm (input : BitVec 3) (s : State) : Host.Outcome State Fault Refusal :=
  .next (if input = 5 ∧ s.sec.fails < 8 then s else s.tamper input)

/-- A signature or header that does not verify is counted, and the eighth in a row raises the alarm (R317, R318). -/
def State.verified (s : State) (ok : Bool) : State :=
  if ok then { s with sec := { s.sec with fails := 0 } }
  else
    let s1 := { s with sec := { s.sec with fails := s.sec.fails + 1 } }
    if 8 ≤ s1.sec.fails then s1.tamper 5 else s1

/-! ### Management commands (R308, R309, R338) -/

/-- A command's outcome waits for MANAGEMENT_COMMAND_DONE. -/
def State.cmdResult (s : State) (code : Nat) : State :=
  { s with mgmt := { s.mgmt with result := if code = 0 then (2, 0) else (3, BitVec.ofNat 16 code) } }

/-- The first code of a list whose cause holds; 0 when none does. Where several hold, the lowest. DEDUCED, log entry 27. -/
def firstCode (causes : List (Nat × Bool)) : Nat := ((causes.find? Prod.snd).map Prod.fst).getD 0

/-- Words of the block from number n on are 0, and so are the reserved bits of word 0. -/
def restZero (blk : List Word) (n : Nat) : Bool := fld (lw blk 0) 8 24 = 0 && (blk.drop n).all fun w => w = 0

/-- A command runs on its block: a block that could not be read is refused with code 2. The causes are tried after
code 1, in the order of the table; then the command acts. -/
def runCommand (s : State) (op : Nat) (blk : List Word) (causes : List (Nat × Bool)) (act : State → State) : State :=
  if !s.mgmt.busy || s.mgmt.result.1 ≠ 0 then s
  else if blk.length ≠ 16 then s.cmdResult 2
  else if fld (lw blk 0) 0 8 ≠ op then s
  else
    let code := firstCode causes
    if code = 0 then (act s).cmdResult 0 else s.cmdResult code

/-- The record breaks R260 or R26. -/
def contextBad (s : State) (r : List Word) : Bool :=
  let hi (i : Nat) : Bool := fld (lw r i) 16 16 ≠ 0
  let c : Ctx := { Ctx.blank with words := r }
  let code := fld (lw r 14) 0 16
  let entry (i : Nat) : Bool := c.addr48 i ≠ 0 && fld (lw r (i + 1)) 0 16 ≠ code
  lw r 0 = 0 || (s.ctx (lw r 0)).live || fld (lw r 1) 8 21 ≠ 0 || hi 3 || hi 5 || hi 7 || hi 9 || fld (lw r 12) 0 16 ≠ 0 ||
    fld (lw r 13) 20 12 ≠ 0 || hi 14 || hi 15 || c.addr48 4 % 16 ≠ 0 || 2 ^ 48 < c.addr48 4 + 16 * 2049 * 72 ||
    entry 2 || entry 6

/-- The schedule image in force under a number. -/
def imageOf (s : State) (number : Nat) : Option Image := s.sec.images.find? fun i => i.number = number

/-- The pool table as 64 descriptors of four words. -/
def poolWords (ws : List Word) : List (List Word) := (List.range 64).map fun k => (ws.drop (4 * k)).take 4

/-- CREATE_CONTEXT (R260, R295, R309): every block of every pool is free, and the context is bound to its image (R247).
CTXID is written back to word 1 of the block (R338), at the address with which the command was started. -/
def execCreateContext (blk rec pools : List Word) (room : Bool) (s : State) : Host.Outcome State Fault Refusal :=
  let image := imageOf s (fld (lw rec 1) 0 8)
  let c : Ctx := { Ctx.blank with
    id := lw rec 0, words := rec, pools := poolWords pools, image := (image.map Image.version).getD 0, live := true }
  let addr := s.mgmt.addr + 4
  .next (runCommand s 1 blk
    [(2, rec.length ≠ 16 || pools.length ≠ 256), (3, !restZero blk 3), (5, !room), (9, contextBad s rec),
     (10, s.sec.fuse), (11, image.isNone)]
    fun s => { s with ctxs := s.ctxs ++ [c], out := s.out ++ [.write (Config.commandPort s.tick) addr (wBytes c.id)] })

/-- DESTROY_CONTEXT (R309): acts as `halt`. -/
def execDestroyContext (blk : List Word) (s : State) : Host.Outcome State Fault Refusal :=
  .next (runCommand s 2 blk [(3, !restZero blk 2), (6, !(s.ctx (lw blk 1)).live), (10, s.sec.fuse)]
    fun s => s.haltCtx (lw blk 1))

/-- A command that verifies an image: the verification counts when it is reached. -/
def runImage (s : State) (op : Nat) (blk : List Word) (before : List (Nat × Bool)) (ok : Bool)
    (after : List (Nat × Bool)) (act : State → State) : State :=
  let reached : Bool := s.mgmt.busy && s.mgmt.result.1 = 0 && blk.length = 16 && fld (lw blk 0) 0 8 = op &&
    firstCode before = 0
  let s1 := runCommand s op blk (before ++ [(4, !ok)] ++ after) act
  if reached then s1.verified ok else s1

/-- LOAD_SCHEDULE_IMAGE (R247, R309): in force under its number for contexts created later. Bytes of another length than the
command's say that the image could not be read. -/
def execLoadScheduleImage (blk : List Word) (img sig : List Byte) (room : Bool) (s : State) :
    Host.Outcome State Fault Refusal :=
  let img := img ++ sig
  let n := fld (lw blk 4) 0 8
  let new : Image := ⟨n, imageVersion img, imageDigest img⟩
  .next (runImage s 3 blk
    [(2, img.length ≠ (lw blk 3).toNat), (3, !restZero blk 5 || fld (lw blk 4) 8 24 ≠ 0)] (imageOk img 2 (lw blk 3))
    [(5, !room), (10, s.sec.fuse)]
    fun s => { s with sec := { s.sec with
      images := new :: s.sec.images.filter fun (i : Image) => i.number ≠ n, inForce := new.digest } })

/-- LOAD_FIRMWARE (R309, R317): into the slot that is not running; it is the last verified, so the next start runs it. -/
def execLoadFirmware (blk : List Word) (img sig : List Byte) (s : State) : Host.Outcome State Fault Refusal :=
  let img := img ++ sig
  let slot := ~~~s.sec.fwSlot
  .next (runImage s 4 blk [(2, img.length ≠ (lw blk 3).toNat), (3, !restZero blk 4)] (imageOk img 1 (lw blk 3))
    [(10, s.sec.fuse)]
    fun s => { s with sec := { s.sec with
      fwVersion := s.sec.fwVersion.set slot.toNat (imageVersion img)
      fwDigest := s.sec.fwDigest.set slot.toNat (imageDigest img), fwNext := slot } })

/-- SET_DOMAIN_RANK (R309, R336): refused while any context is loaded. -/
def execSetDomainRank (blk : List Word) (s : State) : Host.Outcome State Fault Refusal :=
  let r := (lw blk 1).setWidth 8
  .next (runCommand s 5 blk
    [(3, !restZero blk 2 || fld (lw blk 1) 8 24 ≠ 0), (7, s.ctxs.any fun c => c.live), (10, s.sec.fuse)]
    fun s => { s with
      rank := r
      domain := (r, s.ndie) :: s.domain.filter fun (e : BitVec 8 × Nat) => e.1 ≠ s.rank && e.1 ≠ r })

/-- RESET_DIE (R309, R312): a die stopped or out of service is accepted, and returns to service. -/
def execResetDie (blk : List Word) (s : State) : Host.Outcome State Fault Refusal :=
  let d := (lw blk 1).toNat
  .next (runCommand s 6 blk [(3, !restZero blk 2), (8, 7 < d || !(s.die d).mapped), (10, s.sec.fuse)]
    fun s => s.resetDie d true)

/-- CLEAR_BOOT_HISTORY (R309, R320). -/
def execClearBootHistory (blk : List Word) (s : State) : Host.Outcome State Fault Refusal :=
  .next (runCommand s 7 blk [(3, !restZero blk 1), (10, s.sec.fuse)]
    fun s => { s with sec := { s.sec with clearBoot := true } })

/-- ANSWER_FAULT (R308, R309): opcode 8, and every opcode that R309 does not list, is refused with code 1. -/
def execAnswerFault (blk : List Word) (s : State) : Host.Outcome State Fault Refusal :=
  let op := fld (lw blk 0) 0 8
  .next (if op = 0 ∨ 8 ≤ op then runCommand s op blk [(1, true)] id else s)

/-- MANAGEMENT_COMMAND_DONE (R308, R309): MCMDSTAT takes the outcome. -/
def execManagementCommandDone (s : State) : Host.Outcome State Fault Refusal :=
  .next (if s.mgmt.busy ∧ s.mgmt.result.1 ≠ 0 then
    { s with mgmt := { s.mgmt with
      busy := false, stat := s.mgmt.result.1, code := s.mgmt.result.2, result := (0, 0) } }
  else s)

/-! ### Attestation (R317, R318) -/

/-- The measurements (R317): the digests of the running firmware slot, of the schedule image last put in force, of the current
start record and of the IPT, eight words each. COL_IMAGE_VERSION, whose value differs by context, enters the IPT's digest as 0.
DESIGN CHOICE, log entry 28. -/
def measured (s : State) : List Word :=
  let start := (s.sec.history.getLast?.map fun r => (List.range 64).map r.word).getD []
  let table := (List.range Config.iptSize).map fun i => s.ipt i 0
  s.sec.fwDigest.getD s.sec.fwSlot.toNat [] ++ s.sec.inForce ++ sha256 (start.flatMap wBytes) ++ sha256 (table.flatMap wBytes)

/-- The contents of an answer: the version, the capabilities (certificates, challenges and signed measurements; no sessions), the
algorithms (ECDSA on P-256, SHA-256), the digest of the certificate chain, the chain, a signature by the identity key, or the
measurements. PRESUMED, log entry 28. -/
def spdmContents (s : State) (name : String) : List Word :=
  let chain : List Byte := Config.certificate.flatMap wBytes
  if name = "GET_VERSION" then [0x1300]
  else if name = "GET_CAPABILITIES" then [0x16]
  else if name = "NEGOTIATE_ALGORITHMS" then [0x10, 1]
  else if name = "GET_DIGESTS" then sha256 chain
  else if name = "GET_CERTIFICATE" then Config.certificate
  else if name = "CHALLENGE" then sha256 chain ++ sha256 ((measured s).flatMap wBytes) ++ Config.identitySignature s.tick
  else measured s

/-- An SPDM request on a port: while the fuse is blown every request but GET_VERSION is answered with an error (R317, R318). -/
def spdmAnswer (s : State) (port : BitVec 1) (name : String) : State :=
  if !(s.port port).up then s
  else
    let err := s.sec.fuse && name != "GET_VERSION"
    { s with out := s.out ++ [.spdm port name err (if err then [] else spdmContents s name)] }

/-- GET_VERSION (R317). -/
def execGetVersion (port : BitVec 1) (s : State) : Host.Outcome State Fault Refusal := .next (spdmAnswer s port "GET_VERSION")
/-- GET_CAPABILITIES (R317). -/
def execGetCapabilities (port : BitVec 1) (s : State) : Host.Outcome State Fault Refusal :=
  .next (spdmAnswer s port "GET_CAPABILITIES")
/-- NEGOTIATE_ALGORITHMS (R317). -/
def execNegotiateAlgorithms (port : BitVec 1) (s : State) : Host.Outcome State Fault Refusal :=
  .next (spdmAnswer s port "NEGOTIATE_ALGORITHMS")
/-- GET_DIGESTS (R317). -/
def execGetDigests (port : BitVec 1) (s : State) : Host.Outcome State Fault Refusal := .next (spdmAnswer s port "GET_DIGESTS")
/-- GET_CERTIFICATE (R317). -/
def execGetCertificate (port : BitVec 1) (s : State) : Host.Outcome State Fault Refusal :=
  .next (spdmAnswer s port "GET_CERTIFICATE")
/-- CHALLENGE (R317). -/
def execChallenge (port : BitVec 1) (s : State) : Host.Outcome State Fault Refusal := .next (spdmAnswer s port "CHALLENGE")
/-- GET_MEASUREMENTS (R317). -/
def execGetMeasurements (port : BitVec 1) (s : State) : Host.Outcome State Fault Refusal :=
  .next (spdmAnswer s port "GET_MEASUREMENTS")

/-! ### Start-up (R319 to R321) -/

/-- Alternatives of steps 1 to 10 (R320). -/
def altCount : List Nat := [0, 1, 1, 2, 2, 1, 2, 1, 1, 2]

/-- The alternative with which this start runs each step (R320). A step that the start before did not reach keeps the
alternative its entry names. DEDUCED, log entry 29. -/
def altOf (s : State) (i : Nat) : Nat :=
  if s.sec.clearBoot then 0
  else match (s.sec.history.getLast?.map StartRec.steps).bind fun es => es[i]? with
    | some e => if e.1 = 3 ∨ e.1 = 5 then e.2.1.toNat + 1 else e.2.1.toNat
    | none => 0

/-- What alternative a of step i (from 0) does to the socket or port that the failed entry names (R320). -/
def Degraded.take (d : Degraded) (i a : Nat) (w : Word) : Degraded :=
  let socket : Word := 1#32 <<< (w.toNat % 32)
  match i, a with
  | 3, 1 => { d with slow := d.slow ||| socket }
  | 3, 2 => { d with slow := d.slow &&& ~~~socket, gone := d.gone ||| socket }
  | 4, 2 | 7, 1 => { d with gone := d.gone ||| socket }
  | 6, 2 => { d with ports := d.ports ||| (1#80 <<< w.toNat) }
  | 9, 2 => { d with hosts := d.hosts ||| (1#2 <<< (w.toNat - 8)) }
  | _, _ => d

/-- What this start leaves out and slows down: what the start before did, with the alternatives that the steps it failed take now,
and with alternative 1 of step 3 the passengers that do not answer the probe. -/
def degradedNow (s : State) (f : StartFacts) : Degraded :=
  let old := if s.sec.clearBoot then Degraded.none else s.sec.degraded
  let failed (e : Nat × BitVec 4 × BitVec 8 × Word) : Bool := e.2.1 = 3 || e.2.1 = 5
  let es := if s.sec.clearBoot then [] else (s.sec.history.getLast?.map StartRec.steps).getD []
  let d := (((List.range es.length).zip es).filter failed).foldl (fun d e => d.take e.1 (e.2.2.1.toNat + 1) e.2.2.2) old
  if altOf s 2 = 1 then { d with gone := d.gone ||| (~~~f.probe &&& 0x0FFFFFFF) } else d

/-- The firmware slot that this start authenticates and runs: the one last verified, or as the alternative the other (R317,
R320). -/
def startSlot (s : State) : BitVec 1 := if altOf s 5 = 0 then s.sec.fwNext else ~~~s.sec.fwNext

/-- Step i (from 0) passes with its alternative a (R320). Step 6 authenticates the slot: its digest is that of the image whose
signature was verified as it was loaded. DEDUCED, log entry 29. -/
def stepOk (s : State) (f : StartFacts) (i a : Nat) : Bool :=
  let d := degradedNow s f
  let hw := f.pass.getD i false
  match i with
  | 2 => hw && if a = 0 then (f.probe ||| d.gone) &&& 0x0FFFFFFF = 0x0FFFFFFF else f.probe.getLsbD 8
  | 5 => f.firmware = s.sec.fwDigest.getD (startSlot s).toNat []
  | 6 => hw && (a = 2 || imageOk f.image 2 (BitVec.ofNat 32 f.image.length))
  | 8 => hw && (List.range 8).any (dieKept d.gone) && !d.gone.getLsbD 8
  | _ => hw

/-- The entries of the steps from number i on, and whether the device halts; `n` steps are left. A step in which the start is cut
off keeps the entry with which it began. With the fuse blown the start stops after step 6 (R318). -/
def runSteps (s : State) (f : StartFacts) : Nat → Nat → List (BitVec 4 × BitVec 8 × Word) × Bool
  | 0, _ => ([], false)
  | n + 1, i =>
    let a := altOf s i
    let rest : List (BitVec 4 × BitVec 8 × Word) :=
      (List.range n).map fun k => (0, BitVec.ofNat 8 (altOf s (i + 1 + k)), 0)
    let det := f.detail.getD i 0
    if altCount.getD i 0 < a then ((3, BitVec.ofNat 8 (altCount.getD i 0), det) :: rest, true)
    else if f.cut = some i then ((5, BitVec.ofNat 8 a, det) :: rest, false)
    else if !stepOk s f i a then ((3, BitVec.ofNat 8 a, det) :: rest, false)
    else
      let e : BitVec 4 × BitVec 8 × Word := (if a = 0 then 1 else 2, BitVec.ofNat 8 a, det)
      if i = 5 ∧ s.sec.fuse then (e :: rest, false)
      else let r := runSteps s f n (i + 1); (e :: r.1, r.2)

/-- The start of this record completed all ten steps. -/
def StartRec.complete (r : StartRec) : Bool := r.steps.length = 10 && r.steps.all fun e => e.1 = 1 || e.1 = 2

/-- The outcome of a step, from 0. -/
def StartRec.outcome (r : StartRec) (i : Nat) : BitVec 4 := (r.steps.getD i (0, 0, 0)).1

/-- A compute die as the placement map leaves it (R13): in service when the die and one of its stacks are; the start's reset
counts in its vintage (R312). DEDUCED, log entry 52. -/
def placedDie (gone : Word) (vintage : BitVec 8) (k : Nat) : Die :=
  let n := (if gone.getLsbD (12 + 2 * k) then 0 else 1) + if gone.getLsbD (13 + 2 * k) then 0 else 1
  let ok := dieKept gone k
  { Die.reset with
    mapped := ok, inService := ok, vintage := vintage + 1, memBytes := if ok then n * 36 * 2 ^ 30 else 0 }

/-- What a start leaves before its verifications are counted: the record is written, every die is reset, and the state is that of
reset over the facts found (R312, R319, R320). -/
def State.bootState (s : State) (f : StartFacts) (restarts : Nat) : State :=
  let r := runSteps s f 10 0
  let d := degradedNow s f
  let rec_ : StartRec := ⟨s.sec.startNumber + 1, r.1⟩
  let ok := rec_.complete
  let dies := (List.range 8).map fun k =>
    let x := placedDie d.gone (s.die k).vintage k
    if ok then x else { x with mapped := false, inService := false, memBytes := 0 }
  let place := (List.range 8).filter fun k => (dies.getD k Die.reset).mapped
  let hist := s.sec.history ++ [rec_]
  let image : List Image := if ok ∧ altOf s 6 ≠ 2 then [⟨0, imageVersion f.image, imageDigest f.image⟩] else []
  { State.reset with
    dies := dies, place := place, domain := [(0, place.length)]
    links := (List.range 80).map fun n => { Link.reset with
      oos := d.ports.getLsbD n || d.gone.getLsbD (portSocket n).toNat }
    ports := [0, 1].map fun p => { Port.reset with up := ok && !hostPortOut d p && fld f.links (16 * p) 16 ≠ 0 }
    sec := { s.sec with
      keys := true, tamperstat := 0, fwSlot := startSlot s, images := image
      inForce := (image.head?.map Image.digest).getD [], startNumber := rec_.number, clearBoot := false
      history := hist.drop (hist.length - 256), restarts := restarts, halted := r.2
      stopped := s.sec.fuse && (rec_.outcome 5 = 1 || rec_.outcome 5 = 2), degraded := d, links := f.links }
    out := s.out, seq := s.seq, turn := s.turn, tick := s.tick }

/-- A verification of a start step counts as any other does (R318): it was made when the step ran to a pass or a failure. -/
def State.countStep (s : State) (r : StartRec) (halted : Bool) (i : Nat) : State :=
  if r.outcome i = 1 ∨ r.outcome i = 2 then s.verified true
  else if r.outcome i = 3 ∧ !halted then s.verified false
  else s

/-- One start of the device (R312, R317 to R320). The verifications of steps 6 and 7 are counted, and a device that stops after step 6
accepts a re-provisioning image that verifies, of which the rules give no further effect (R318). DESIGN CHOICE, log entry 29. -/
def State.boot (s : State) (f : StartFacts) (restarts : Nat) : State :=
  let r := runSteps s f 10 0
  let rec_ : StartRec := ⟨s.sec.startNumber + 1, r.1⟩
  let s1 := (s.bootState f restarts).countStep rec_ r.2 5
  let s2 := if altOf s 6 = 2 then s1 else s1.countStep rec_ r.2 6
  if s2.sec.stopped ∧ !f.reprovision.isEmpty then
    let ok := imageOk f.reprovision 3 (BitVec.ofNat 32 f.reprovision.length)
    let s3 := s2.verified ok
    if ok then { s3 with sec := { s3.sec with reprovisioned := some (imageDigest f.reprovision) } } else s3
  else s2

/-- DEVICE_START (R320). -/
def execDeviceStart (f : StartFacts) (s : State) : Host.Outcome State Fault Refusal := .next (s.boot f 0)

/-- DEVICE_RESTART (R320): after a failed step the device restarts itself, up to eight times in a row. -/
def execDeviceRestart (f : StartFacts) (s : State) : Host.Outcome State Fault Refusal :=
  .next (if (s.sec.history.getLast?.map StartRec.complete).getD true ∨ s.sec.halted ∨ s.sec.stopped ∨ 8 ≤ s.sec.restarts then s
  else s.boot f (s.sec.restarts + 1))

end Sys2Proof.Machine
end

