-- ==== Sys2Proof/Machine/Dispatch.lean ====
section
/-! DEFINITION. The dispatch: one meaning for each constructor of Instr. -/

namespace Sys2Proof.Machine

/-- What an instruction or event does in a state. -/
def exec (i : Instr) (s : State) : Host.Outcome State Fault Refusal :=
  match i with
  | .add w => Sys2Proof.Machine.execAdd w s
  | .sub w => Sys2Proof.Machine.execSub w s
  | .mul w => Sys2Proof.Machine.execMul w s
  | .mulh w => Sys2Proof.Machine.execMulh w s
  | .mulhu w => Sys2Proof.Machine.execMulhu w s
  | .mad w => Sys2Proof.Machine.execMad w s
  | .div w => Sys2Proof.Machine.execDiv w s
  | .divu w => Sys2Proof.Machine.execDivu w s
  | .rem w => Sys2Proof.Machine.execRem w s
  | .remu w => Sys2Proof.Machine.execRemu w s
  | .min w => Sys2Proof.Machine.execMin w s
  | .max w => Sys2Proof.Machine.execMax w s
  | .minu w => Sys2Proof.Machine.execMinu w s
  | .maxu w => Sys2Proof.Machine.execMaxu w s
  | .and_ w => Sys2Proof.Machine.execAnd w s
  | .or_ w => Sys2Proof.Machine.execOr w s
  | .xor w => Sys2Proof.Machine.execXor w s
  | .andn w => Sys2Proof.Machine.execAndn w s
  | .shl w => Sys2Proof.Machine.execShl w s
  | .shr w => Sys2Proof.Machine.execShr w s
  | .sar w => Sys2Proof.Machine.execSar w s
  | .rot w => Sys2Proof.Machine.execRot w s
  | .addsat w => Sys2Proof.Machine.execAddsat w s
  | .addi w => Sys2Proof.Machine.execAddi w s
  | .muli w => Sys2Proof.Machine.execMuli w s
  | .andi w => Sys2Proof.Machine.execAndi w s
  | .ori w => Sys2Proof.Machine.execOri w s
  | .xori w => Sys2Proof.Machine.execXori w s
  | .shli w => Sys2Proof.Machine.execShli w s
  | .shri w => Sys2Proof.Machine.execShri w s
  | .sari w => Sys2Proof.Machine.execSari w s
  | .roti w => Sys2Proof.Machine.execRoti w s
  | .movi x d imm => Sys2Proof.Machine.execMovi x d imm s
  | .movh x d imm => Sys2Proof.Machine.execMovh x d imm s
  | .mov w => Sys2Proof.Machine.execMov w s
  | .not_ w => Sys2Proof.Machine.execNot w s
  | .neg w => Sys2Proof.Machine.execNeg w s
  | .abs w => Sys2Proof.Machine.execAbs w s
  | .clz w => Sys2Proof.Machine.execClz w s
  | .ctz w => Sys2Proof.Machine.execCtz w s
  | .popc w => Sys2Proof.Machine.execPopc w s
  | .brev w => Sys2Proof.Machine.execBrev w s
  | .bswap w => Sys2Proof.Machine.execBswap w s
  | .sxb w => Sys2Proof.Machine.execSxb w s
  | .sxh w => Sys2Proof.Machine.execSxh w s
  | .zxb w => Sys2Proof.Machine.execZxb w s
  | .zxh w => Sys2Proof.Machine.execZxh w s
  | .setp x c p a b k ea eb n => Sys2Proof.Machine.execSetp x c p a b k ea eb n s
  | .sel x d a b p => Sys2Proof.Machine.execSel x d a b p s
  | .setpi x c p a imm => Sys2Proof.Machine.execSetpi x c p a imm s
  | .fadd w => Sys2Proof.Machine.execFadd w s
  | .fsub w => Sys2Proof.Machine.execFsub w s
  | .fmul w => Sys2Proof.Machine.execFmul w s
  | .ffma w => Sys2Proof.Machine.execFfma w s
  | .fmin w => Sys2Proof.Machine.execFmin w s
  | .fmax w => Sys2Proof.Machine.execFmax w s
  | .fdiv w => Sys2Proof.Machine.execFdiv w s
  | .fsetp x c p a b k ea eb n => Sys2Proof.Machine.execFsetp x c p a b k ea eb n s
  | .fabs w => Sys2Proof.Machine.execFabs w s
  | .fneg w => Sys2Proof.Machine.execFneg w s
  | .fsqrt w => Sys2Proof.Machine.execFsqrt w s
  | .frcp w => Sys2Proof.Machine.execFrcp w s
  | .frsq w => Sys2Proof.Machine.execFrsq w s
  | .fexp2 w => Sys2Proof.Machine.execFexp2 w s
  | .flog2 w => Sys2Proof.Machine.execFlog2 w s
  | .ffloor w => Sys2Proof.Machine.execFfloor w s
  | .fceil w => Sys2Proof.Machine.execFceil w s
  | .ftrunc w => Sys2Proof.Machine.execFtrunc w s
  | .frint w => Sys2Proof.Machine.execFrint w s
  | .f2i w => Sys2Proof.Machine.execF2i w s
  | .f2iz w => Sys2Proof.Machine.execF2iz w s
  | .f2u w => Sys2Proof.Machine.execF2u w s
  | .f2uz w => Sys2Proof.Machine.execF2uz w s
  | .i2f w => Sys2Proof.Machine.execI2f w s
  | .u2f w => Sys2Proof.Machine.execU2f w s
  | .f2bf w => Sys2Proof.Machine.execF2bf w s
  | .bf2f w => Sys2Proof.Machine.execBf2f w s
  | .f2h w => Sys2Proof.Machine.execF2h w s
  | .h2f w => Sys2Proof.Machine.execH2f w s
  | .bfma2 w => Sys2Proof.Machine.execBfma2 w s
  | .badd2 w => Sys2Proof.Machine.execBadd2 w s
  | .dot4 w => Sys2Proof.Machine.execDot4 w s
  | .dot8 w => Sys2Proof.Machine.execDot8 w s
  | .fscl w => Sys2Proof.Machine.execFscl w s
  | .pk8 w => Sys2Proof.Machine.execPk8 w s
  | .upk8 w idx => Sys2Proof.Machine.execUpk8 w idx s
  | .pk4 w => Sys2Proof.Machine.execPk4 w s
  | .upk4 w idx => Sys2Proof.Machine.execUpk4 w idx s
  | .ftag w t => Sys2Proof.Machine.execFtag w t s
  | .bfx x d a len1 pos => Sys2Proof.Machine.execBfx x d a len1 pos s
  | .bfi x d a len1 pos => Sys2Proof.Machine.execBfi x d a len1 pos s
  | .blend w => Sys2Proof.Machine.execBlend w s
  | .bsld x a k ea eb n => Sys2Proof.Machine.execBsld x a k ea eb n s
  | .bsget x d n => Sys2Proof.Machine.execBsget x d n s
  | .bsrf w eb => Sys2Proof.Machine.execBsrf w eb s
  | .mupdw w => Sys2Proof.Machine.execMupdw w s
  | .mupd w => Sys2Proof.Machine.execMupd w s
  | .mclr x d k ea n => Sys2Proof.Machine.execMclr x d k ea n s
  | .mmean w => Sys2Proof.Machine.execMmean w s
  | .mvar w => Sys2Proof.Machine.execMvar w s
  | .mvars w => Sys2Proof.Machine.execMvars w s
  | .mrstd w => Sys2Proof.Machine.execMrstd w s
  | .msum w => Sys2Proof.Machine.execMsum w s
  | .jmp off => Sys2Proof.Machine.execJmp off s
  | .brp p nz off => Sys2Proof.Machine.execBrp p nz off s
  | .call off => Sys2Proof.Machine.execCall off s
  | .nop x => Sys2Proof.Machine.execNop x s
  | .ret x => Sys2Proof.Machine.execRet x s
  | .exit x => Sys2Proof.Machine.execExit x s
  | .yield x => Sys2Proof.Machine.execYield x s
  | .brk x => Sys2Proof.Machine.execBrk x s
  | .jmpi w eb => Sys2Proof.Machine.execJmpi w eb s
  | .meet off => Sys2Proof.Machine.execMeet off s
  | .join x d => Sys2Proof.Machine.execJoin x d s
  | .leaveMask x d => Sys2Proof.Machine.execLeaveMask x d s
  | .mwait x d => Sys2Proof.Machine.execMwait x d s
  | .mzeroMask x d => Sys2Proof.Machine.execMzeroMask x d s
  | .mfill x d => Sys2Proof.Machine.execMfill x d s
  | .mmov x d a => Sys2Proof.Machine.execMmov x d a s
  | .mand x d a => Sys2Proof.Machine.execMand x d a s
  | .mor x d a => Sys2Proof.Machine.execMor x d a s
  | .mxor x d a => Sys2Proof.Machine.execMxor x d a s
  | .mnot x d a => Sys2Proof.Machine.execMnot x d a s
  | .mpopc x d a => Sys2Proof.Machine.execMpopc x d a s
  | .mtos x d a => Sys2Proof.Machine.execMtos x d a s
  | .vote x d a m => Sys2Proof.Machine.execVote x d a m s
  | .veq x d a m => Sys2Proof.Machine.execVeq x d a m s
  | .shfl x d a b m => Sys2Proof.Machine.execShfl x d a b m s
  | .xchg x d a b m => Sys2Proof.Machine.execXchg x d a b m s
  | .wred x f d a m => Sys2Proof.Machine.execWred x f d a m s
  | .wscan x f d a m => Sys2Proof.Machine.execWscan x f d a m s
  | .loop lc lenm1 cnt idx nstep => Sys2Proof.Machine.execLoop lc lenm1 cnt idx nstep s
  | .wbase x a imm => Sys2Proof.Machine.execWbase x a imm s
  | .ldn w => Sys2Proof.Machine.execLdn w s
  | .stn w => Sys2Proof.Machine.execStn w s
  | .lda w => Sys2Proof.Machine.execLda w s
  | .sta w => Sys2Proof.Machine.execSta w s
  | .ldc w => Sys2Proof.Machine.execLdc w s
  | .stc w => Sys2Proof.Machine.execStc w s
  | .ldw w => Sys2Proof.Machine.execLdw w s
  | .ldsc x d a off => Sys2Proof.Machine.execLdsc x d a off s
  | .atom x f d a b => Sys2Proof.Machine.execAtom x f d a b s
  | .ared x f a b => Sys2Proof.Machine.execAred x f a b s
  | .aredX x f a b => Sys2Proof.Machine.execAredX x f a b s
  | .ldx w eb => Sys2Proof.Machine.execLdx w eb s
  | .stx x a b => Sys2Proof.Machine.execStx x a b s
  | .fence x => Sys2Proof.Machine.execFence x s
  | .fenceNtdrain x => Sys2Proof.Machine.execFenceNtdrain x s
  | .pref x a off => Sys2Proof.Machine.execPref x a off s
  | .atoma x f d a b => Sys2Proof.Machine.execAtoma x f d a b s
  | .areda x f a b => Sys2Proof.Machine.execAreda x f a b s
  | .phase x => Sys2Proof.Machine.execPhase x s
  | .phaseRetire x => Sys2Proof.Machine.execPhaseRetire x s
  | .nbok x p slot => Sys2Proof.Machine.execNbok x p slot s
  | .lred x f d a ea => Sys2Proof.Machine.execLred x f d a ea s
  | .lcfg x d w => Sys2Proof.Machine.execLcfg x d w s
  | .mres x p => Sys2Proof.Machine.execMres x p s
  | .mresw x => Sys2Proof.Machine.execMresw x s
  | .mrel x => Sys2Proof.Machine.execMrel x s
  | .mma x d a b k eb => Sys2Proof.Machine.execMma x d a b k eb s
  | .mdr x d a k ea eb => Sys2Proof.Machine.execMdr x d a k ea eb s
  | .xcp x d a ea => Sys2Proof.Machine.execXcp x d a ea s
  | .xsort x d a ea => Sys2Proof.Machine.execXsort x d a ea s
  | .xcol x d a ea => Sys2Proof.Machine.execXcol x d a ea s
  | .mzero x d a => Sys2Proof.Machine.execMzero x d a s
  | .barInit x nsp a b => Sys2Proof.Machine.execBarInit x nsp a b s
  | .barArrive x nsp a => Sys2Proof.Machine.execBarArrive x nsp a s
  | .barWait x nsp a par => Sys2Proof.Machine.execBarWait x nsp a par s
  | .barExpect x nsp a b => Sys2Proof.Machine.execBarExpect x nsp a b s
  | .barTest x nsp p a par => Sys2Proof.Machine.execBarTest x nsp p a par s
  | .fwait x d a => Sys2Proof.Machine.execFwait x d a s
  | .ftest x p a => Sys2Proof.Machine.execFtest x p a s
  | .fcancel x a => Sys2Proof.Machine.execFcancel x a s
  | .qenter x => Sys2Proof.Machine.execQenter x s
  | .qleave x => Sys2Proof.Machine.execQleave x s
  | .qpt x => Sys2Proof.Machine.execQpt x s
  | .gwait x => Sys2Proof.Machine.execGwait x s
  | .gstart x d => Sys2Proof.Machine.execGstart x d s
  | .gpoll x p a => Sys2Proof.Machine.execGpoll x p a s
  | .lees x a b ea eb => Sys2Proof.Machine.execLees x a b ea eb s
  | .palloc x d a ea eb => Sys2Proof.Machine.execPalloc x d a ea eb s
  | .pfree x a b ea eb => Sys2Proof.Machine.execPfree x a b ea eb s
  | .qlen x d a => Sys2Proof.Machine.execQlen x d a s
  | .qbind x d a => Sys2Proof.Machine.execQbind x d a s
  | .launch x d a ea => Sys2Proof.Machine.execLaunch x d a ea s
  | .trap x n => Sys2Proof.Machine.execTrap x n s
  | .rte x => Sys2Proof.Machine.execRte x s
  | .gets x d n => Sys2Proof.Machine.execGets x d n s
  | .sets x a n => Sys2Proof.Machine.execSets x a n s
  | .twait x a ea => Sys2Proof.Machine.execTwait x a ea s
  | .tlbinv x a => Sys2Proof.Machine.execTlbinv x a s
  | .ctxsave x d a => Sys2Proof.Machine.execCtxsave x d a s
  | .ctxload x d a => Sys2Proof.Machine.execCtxload x d a s
  | .icinv x => Sys2Proof.Machine.execIcinv x s
  | .halt x a => Sys2Proof.Machine.execHalt x a s
  | .leaveFifo warp => Sys2Proof.Machine.execLeaveFifo warp s
  | .apply core => Sys2Proof.Machine.execApply core s
  | .drain core idx => Sys2Proof.Machine.execDrain core idx s
  | .merge core idx j => Sys2Proof.Machine.execMerge core idx j s
  | .fill core line => Sys2Proof.Machine.execFill core line s
  | .evict core line => Sys2Proof.Machine.execEvict core line s
  | .perform tid useCopy => Sys2Proof.Machine.execPerform tid useCopy s
  | .ntDrain core idx => Sys2Proof.Machine.execNtDrain core idx s
  | .deliver idx m => Sys2Proof.Machine.execDeliver idx m s
  | .engineStart op => Sys2Proof.Machine.execEngineStart op s
  | .engineRead op m => Sys2Proof.Machine.execEngineRead op m s
  | .engineWrite op idx => Sys2Proof.Machine.execEngineWrite op idx s
  | .engineComplete op => Sys2Proof.Machine.execEngineComplete op s
  | .engineCancel op => Sys2Proof.Machine.execEngineCancel op s
  | .channelPopServed core idx => Sys2Proof.Machine.execChannelPopServed core idx s
  | .meetRelease warp at_ => Sys2Proof.Machine.execMeetRelease warp at_ s
  | .crossLaneMeeting warp => Sys2Proof.Machine.execCrossLaneMeeting warp s
  | .mwaitRelease warp m => Sys2Proof.Machine.execMwaitRelease warp m s
  | .bundleRegroup core groups => Sys2Proof.Machine.execBundleRegroup core groups s
  | .issueBound core idx => Sys2Proof.Machine.execIssueBound core idx s
  | .deferredComplete tid idx => Sys2Proof.Machine.execDeferredComplete tid idx s
  | .phaseEnd cell => Sys2Proof.Machine.execPhaseEnd cell s
  | .faceDelivery core ell m => Sys2Proof.Machine.execFaceDelivery core ell m s
  | .phaseReport core ell m => Sys2Proof.Machine.execPhaseReport core ell m s
  | .lredResult launch q => Sys2Proof.Machine.execLredResult launch q s
  | .pagerFill core => Sys2Proof.Machine.execPagerFill core s
  | .pagerExchange core => Sys2Proof.Machine.execPagerExchange core s
  | .launchStart launch place => Sys2Proof.Machine.execLaunchStart launch place s
  | .teamClaim launch die core => Sys2Proof.Machine.execTeamClaim launch die core s
  | .packStart launch die cores => Sys2Proof.Machine.execPackStart launch die cores s
  | .gridComplete launch => Sys2Proof.Machine.execGridComplete launch s
  | .trapDelivery tid => Sys2Proof.Machine.execTrapDelivery tid s
  | .preempt ctx cores why => Sys2Proof.Machine.execPreempt ctx cores why s
  | .restore ctx cores => Sys2Proof.Machine.execRestore ctx cores s
  | .twaitExpiry tid => Sys2Proof.Machine.execTwaitExpiry tid s
  | .faultRecordOffer die => Sys2Proof.Machine.execFaultRecordOffer die s
  | .peerAckTimeout idx => Sys2Proof.Machine.execPeerAckTimeout idx s
  | .beginPeriod => Sys2Proof.Machine.execBeginPeriod s
  | .endPeriod => Sys2Proof.Machine.execEndPeriod s
  | .inboundPostedWrite port req off bytes poisoned => Sys2Proof.Machine.execInboundPostedWrite port req off bytes poisoned s
  | .inboundRead port req off len => Sys2Proof.Machine.execInboundRead port req off len s
  | .hostLaunch port req ctxid => Sys2Proof.Machine.execHostLaunch port req ctxid s
  | .createContext blk rec pools room => Sys2Proof.Machine.execCreateContext blk rec pools room s
  | .destroyContext blk => Sys2Proof.Machine.execDestroyContext blk s
  | .loadScheduleImage blk img sig room => Sys2Proof.Machine.execLoadScheduleImage blk img sig room s
  | .loadFirmware blk img sig => Sys2Proof.Machine.execLoadFirmware blk img sig s
  | .setDomainRank blk => Sys2Proof.Machine.execSetDomainRank blk s
  | .resetDie blk => Sys2Proof.Machine.execResetDie blk s
  | .clearBootHistory blk => Sys2Proof.Machine.execClearBootHistory blk s
  | .answerFault blk => Sys2Proof.Machine.execAnswerFault blk s
  | .frespReplay die => Sys2Proof.Machine.execFrespReplay die s
  | .frespTerminate die => Sys2Proof.Machine.execFrespTerminate die s
  | .errinj val => Sys2Proof.Machine.execErrinj val s
  | .eqpop => Sys2Proof.Machine.execEqpop s
  | .fatalstat val => Sys2Proof.Machine.execFatalstat val s
  | .timelo req => Sys2Proof.Machine.execTimelo req s
  | .linkstat port => Sys2Proof.Machine.execLinkstat port s
  | .controlRegisterWrite acc val => Sys2Proof.Machine.execControlRegisterWrite acc val s
  | .linkRetry port => Sys2Proof.Machine.execLinkRetry port s
  | .linkRetriesExhausted port lost => Sys2Proof.Machine.execLinkRetriesExhausted port lost s
  | .linkUp port rank ndie => Sys2Proof.Machine.execLinkUp port rank ndie s
  | .timeLockLost => Sys2Proof.Machine.execTimeLockLost s
  | .timeLockGained gmTime => Sys2Proof.Machine.execTimeLockGained gmTime s
  | .dieFatal die field => Sys2Proof.Machine.execDieFatal die field s
  | .tamperAlarm input => Sys2Proof.Machine.execTamperAlarm input s
  | .deviceStart f => Sys2Proof.Machine.execDeviceStart f s
  | .deviceRestart f => Sys2Proof.Machine.execDeviceRestart f s
  | .getVersion port => Sys2Proof.Machine.execGetVersion port s
  | .getCapabilities port => Sys2Proof.Machine.execGetCapabilities port s
  | .negotiateAlgorithms port => Sys2Proof.Machine.execNegotiateAlgorithms port s
  | .getDigests port => Sys2Proof.Machine.execGetDigests port s
  | .getCertificate port => Sys2Proof.Machine.execGetCertificate port s
  | .challenge port => Sys2Proof.Machine.execChallenge port s
  | .getMeasurements port => Sys2Proof.Machine.execGetMeasurements port s
  | .dieResetCompleted die => Sys2Proof.Machine.execDieResetCompleted die s
  | .managementCommandDone => Sys2Proof.Machine.execManagementCommandDone s
  | .hostCompletion op reply err => Sys2Proof.Machine.execHostCompletion op reply err s
  | .hostLinkDown port => Sys2Proof.Machine.execHostLinkDown port s
  | .memberCompletesStart rank ndie => Sys2Proof.Machine.execMemberCompletesStart rank ndie s

end Sys2Proof.Machine
end

