-- ==== Sys2Proof/Machine/Step.lean ====
section
/-! DEFINITION. One step of the machine (R51), and the state in which the next step runs a given instruction word. -/

namespace Sys2Proof.Machine

/-- What is done in a state in which the device is not halted: the event that is due, else the bundle whose turn it is,
else the event whose turn it is. An instruction's turn to issue is never an event's. -/
def taken (s : State) : Host.Outcome State Fault Refusal :=
  match dueEvent s with
  | some e => exec e s
  | none =>
    match issueTurn s with
    | some (c, b) =>
      match issueOf { s with forced := none } c ((s.co c).bundles.getD b []) with
      | .settled s' => .next s'
      | .run i s' => exec i s'
    | none =>
      match s.turn with
      | .event e => if e.isEvent then exec e s else .next s
      | .issue _ _ => .next s

/-- The device waits halted at a start step (R320), unless the coming step is a device start. -/
def stopped (s : State) : Bool :=
  s.sec.halted && match s.turn with
    | .event (.deviceStart _) => false
    | _ => true

/-- One step: device time passes with it, and the next step is chosen (DESIGN CHOICE, log entries 1 and 2). -/
def step (s : State) : Host.Outcome State Fault Refusal :=
  if stopped s then .fault .startHalted
  else match taken s with
    | .next s' => .next s'.finishStep
    | .fault r => .fault r
    | .refused r => .refused r

/-! ### A placed instruction -/

/-- A page-table entry at a physical address of die 0. -/
def putPte (m : Memory) (at_ lo : Nat) : Memory := Memory.write m at_ (leBytes 8 lo ++ leBytes 8 0)

/-- Near memory of die 0 with the instruction and its page tables: virtual addresses below 2^30 are the physical ones. -/
def fetchMemory (m : Memory) (w : Nat) : Memory :=
  putPte (putPte (Memory.write m 0x00100000 (leBytes 8 w)) 0x40000000 (0x40010000 + 0x11)) 0x40010000
    (2 * 2 ^ 52 + 0x0F)

/-- A privileged context with mapped code, a handler and frames, its core 0 of die 0, and one thread of a team of one
warp there, ready at the instruction, the only thread of the machine, whose turn to issue it is. DESIGN CHOICE, log entry 12. -/
def State.withFetchWord (s : State) (nbits w : Nat) : State :=
  { s with
    sec := { s.sec with halted := false }
    place := 0 :: s.place.tail
    dies := s.dies.modify 0 fun d =>
      { d with mapped := true, inService := true, memBytes := 72 * 2 ^ 30, tlb := [], mem := fetchMemory d.mem (w % 2 ^ nbits) }
    ctxs := [{ Ctx.blank with
      id := 1, words := [1, 0x80000000, 0x00180000, 0, 0x00200000, 0, 0, 0, 0, 0, 0, 0, 0x40000000, 0, 0, 0], live := true }]
    cores := [{ CoreSt.blank with ctx := 1, resident := true, bundles := [[0]] }]
    teams := [Team.blank]
    warps := [{ Warp.blank with width := 16, threads := [0] }]
    threads := [Thread.fresh 0 0 0 64 0x00100000]
    issuing := []
    forced := none
    turn := .issue 0 0 }

end Sys2Proof.Machine
end

