-- ==== Sys2Proof/Safety.lean ====
section
/-! DEFINITION. The terms in which claims about the machine are stated: the invariants of its states, when one lane issues
alone with operands that can be read, and the result rows of chapter 7. -/

namespace Sys2Proof.Machine

/-! ### Invariants -/

/-- R289: GDONE is always G or G − 1. -/
def State.Grace (s : State) : Prop := s.gdone = s.g ∨ s.gdone = s.g - 1

/-- The three buffers of a core are in canonical form. -/
def CoreSt.Canonical (k : CoreSt) : Prop := Memory.wf k.a = true ∧ Memory.wf k.c = true ∧ Memory.wf k.w = true

/-- Near memory of every die and the buffers of every core are in canonical form. -/
def State.MemCanonical (s : State) : Prop := (∀ d ∈ s.dies, Memory.wf d.mem = true) ∧ ∀ k ∈ s.cores, k.Canonical

/-! ### A lane that issues alone -/

/-- One live thread issues alone, and its guard is true (R35, R90). -/
structure Lone (s : State) (t : Nat) (x : Option Ext) : Prop where
  issuing : s.issuing = [t]
  inRange : t < s.threads.length
  live : s.live t = true
  guard : guardOn x (s.th t) = true

/-- Every operand field names an operand that is available (R40), and every register that the sources and the destination
name is full and awaits no result of the thread's own `lred` (R43, R196). A source that is a neighbour value, which may be read
from the face store (R197), meets no planted error. -/
structure Given (s : State) (t : Nat) (fields : List Operand) (srcs : List SrcF) (dst : List RegRef) : Prop where
  available : ∀ o ∈ fields, opBad s t o = false
  full : ∀ r ∈ srcs.flatMap (fun f => regsOf (s.th t) f.op f.n) ++ dst, s.regFull t r = true
  settled : ∀ r ∈ srcs.flatMap (fun f => regsOf (s.th t) f.op f.n) ++ dst, (ownLred s t).contains r = false
  quiet : s.planted = [] ∨ ∀ f ∈ srcs, ∀ k j, f.op ≠ .nbr k j

/-- A destination that is a queue is bound to a sound channel with room for a push (R41, R106). -/
def DestRoom (s : State) (t : Nat) (d : Operand) : Prop :=
  ∀ n : BitVec 2, d = .q n → s.pushRoom t n.toNat = true ∧
    (n ≠ 0 → ∃ off, boundChan (s.th t) n.toNat = some off ∧ chanGood s t off = some true)

/-- A row of chapter 7: prefix, N bit, destination, operand fields, source fields in order, and the result for the
source words, their tags and the codebook. -/
structure Row where
  x : Option Ext
  n : Bool
  d : Operand
  dn : Nat := 1
  fields : List Operand
  reads : List SrcF
  f : List Word → List Tag → List (BitVec 16) → FnOut
  tagsOk : List Tag → Bool := fun _ => true
  codebook : List Tag → Bool := fun _ => false

/-- Tags of the first two sources, and d's own. -/
def Row.tags (r : Row) (s : State) (t : Nat) : List Tag :=
  [(r.reads[0]?.map (tagOf s t)).getD .raw, (r.reads[1]?.map (tagOf s t)).getD .raw, tagOf s t (src r.d)]

/-- The row's sources have these words now, and the row can write its destination. -/
structure RowGiven (r : Row) (s : State) (t : Nat) (vals : List Word) : Prop where
  noN : r.n = false
  ops : Given s t r.fields r.reads (regsOf (s.th t) r.d r.dn)
  words : allSlots s t (s.th t).tickets r.reads = vals.map Slot.val
  room : DestRoom s t r.d
  fresh : (s.th t).popped = []
  tags : r.tagsOk (r.tags s t) = true
  book : r.codebook (r.tags s t) = true → ownCbLoad s t = false

/-- What the row makes of these words. -/
def Row.out (r : Row) (s : State) (t : Nat) (vals : List Word) : FnOut :=
  r.f vals (r.tags s t) (if r.codebook (r.tags s t) then (captureCb s t).entries else [])

/-- The state after the row: the result in the destination, its flags in FPSTAT, and the next PC. -/
def Row.after (r : Row) (s : State) (t : Nat) (vals : List Word) : State :=
  let o := r.out s t vals
  ((s.writeDst t r.d (regsOf (s.th t) r.d r.dn) o).addFlags t o.flags).retire t (extLen r.x)

/-- The instruction does what the row says, whenever a lane issues it alone and its sources have words. -/
def Row.Holds (r : Row) (i : Instr) : Prop :=
  ∀ (s : State) (t : Nat) (vals : List Word), Lone s t r.x → RowGiven r s t vals →
    exec i s = .next (r.after s t vals)

/-- R41, R115: with N = 1, whenever a lane issues the row alone and no source is still to come, either a pop or the push cannot proceed,
and nothing changes but p7, which is false; or all take place, the words popped, a before b, give the result, which is written or pushed,
and p7 is true. A row that reads its destination takes no queue there (R116). -/
def Row.HoldsN (r : Row) (i : Instr) : Prop :=
  ∀ (s : State) (t : Nat), Lone s t r.x → r.n = true →
    let slots := allSlots s t (s.th t).tickets r.reads
    let dst := regsOf (s.th t) r.d r.dn
    let pushes : List Nat := match r.d with | .q n => [n.toNat] | _ => []
    let none_ : Prop := exec i s = .next ((s.setP t 7 false).retire t (extLen r.x))
    let all (u : State) (o : FnOut) : Prop := exec i s = .next (((u.addFlags t o.flags).setP t 7 true).retire t (extLen r.x))
    Given s t r.fields r.reads dst → chanCheck s t (queuesOf r.reads ++ pushes) = .ok → s.planted = [] → missing slots = [] →
    (∀ n, r.d = .q n → r.reads.length < r.fields.length) → r.tagsOk (r.tags s t) = true →
    (r.codebook (r.tags s t) = true → ownCbLoad s t = false ∧ (s.th t).popped = []) →
    (tryPops s t (queuesOf r.reads) = none → none_) ∧
    ∀ u ws, tryPops s t (queuesOf r.reads) = some (u, ws) →
      let o := r.out s t (fillSlots slots ws)
      ((∀ n, r.d ≠ .q n) → all (u.writeDst t r.d dst o) o) ∧
      ∀ n : BitVec 2, r.d = .q n →
        (tryPush u t n.toNat (o.vals.getD 0 0) = none → none_) ∧
        ∀ u', tryPush u t n.toNat (o.vals.getD 0 0) = some u' → all u' o

def rowR3 (w : R3) (f : Word → Word → FnOut) : Row :=
  { x := w.x, n := w.n, d := w.d, fields := [w.d, w.a, w.b], reads := [src w.a w.ea, src w.b w.eb],
    f := fun v _ _ => f (v.getD 0 0) (v.getD 1 0) }

/-- A row that reads its destination as a third source (R116). -/
def rowR3d (w : R3) (f : Word → Word → Word → FnOut) : Row :=
  { rowR3 w (fun _ _ => outW 0) with
    reads := [src w.a w.ea, src w.b w.eb, srcN w.d 1], f := fun v _ _ => f (v.getD 0 0) (v.getD 1 0) (v.getD 2 0) }

def rowRF (w : RF) (f : Word → FnOut) : Row :=
  { x := w.x, n := w.n, d := w.d, fields := [w.d, w.a], reads := [src w.a w.ea], f := fun v _ _ => f (v.getD 0 0) }

def rowRI (w : RI) (f : Word → Word → FnOut) : Row :=
  { x := w.x, n := false, d := w.d, fields := [w.d, w.a, .z], reads := [src w.a, srcK (immOf w.x w.imm)],
    f := fun v _ _ => f (v.getD 0 0) (v.getD 1 0) }

def rowShi (w : Shi) (f : Word → Nat → FnOut) : Row :=
  { x := w.x, n := false, d := w.d, fields := [w.d, w.a, .z], reads := [src w.a, srcK (w.n.zeroExtend 32)],
    f := fun v _ _ => f (v.getD 0 0) w.n.toNat }

/-- R118: the function of each three-register integer instruction. -/
def intOp3 : Instr → Option (R3 × (Word → Word → Word))
  | .add w => some (w, fun a b => a + b)
  | .sub w => some (w, fun a b => a - b)
  | .mul w => some (w, fun a b => a * b)
  | .mulh w => some (w, fun a b => BitVec.ofInt 32 (a.toInt * b.toInt / 2 ^ 32))
  | .mulhu w => some (w, fun a b => BitVec.ofNat 32 (a.toNat * b.toNat / 2 ^ 32))
  | .div w => some (w, fun a b => if b = 0 then 0xFFFFFFFF else BitVec.ofInt 32 (a.toInt.tdiv b.toInt))
  | .divu w => some (w, fun a b => if b = 0 then 0xFFFFFFFF else BitVec.ofNat 32 (a.toNat / b.toNat))
  | .rem w => some (w, fun a b => if b = 0 then a else BitVec.ofInt 32 (a.toInt.tmod b.toInt))
  | .remu w => some (w, fun a b => if b = 0 then a else BitVec.ofNat 32 (a.toNat % b.toNat))
  | .min w => some (w, fun a b => if a.toInt < b.toInt then a else b)
  | .max w => some (w, fun a b => if a.toInt < b.toInt then b else a)
  | .minu w => some (w, fun a b => if a.toNat < b.toNat then a else b)
  | .maxu w => some (w, fun a b => if a.toNat < b.toNat then b else a)
  | .and_ w => some (w, fun a b => a &&& b)
  | .or_ w => some (w, fun a b => a ||| b)
  | .xor w => some (w, fun a b => a ^^^ b)
  | .andn w => some (w, fun a b => a &&& ~~~b)
  | .shl w => some (w, fun a b => a <<< (b.toNat % 32))
  | .shr w => some (w, fun a b => a >>> (b.toNat % 32))
  | .sar w => some (w, fun a b => a.sshiftRight (b.toNat % 32))
  | .rot w => some (w, fun a b => a.rotateLeft (b.toNat % 32))
  | .addsat w => some (w, fun a b => BitVec.ofInt 32 (max (-2 ^ 31) (min (2 ^ 31 - 1) (a.toInt + b.toInt))))
  | _ => none

/-- R122: the function of each one-source integer instruction. -/
def intOp1 : Instr → Option (RF × (Word → Word))
  | .not_ w => some (w, fun a => ~~~a)
  | .neg w => some (w, fun a => -a)
  | .abs w => some (w, fun a => if a.toInt < 0 then -a else a)
  | .clz w => some (w, fun a => BitVec.ofNat 32 (clzNat 32 a))
  | .ctz w => some (w, fun a => BitVec.ofNat 32 (ctzNat 32 0 a))
  | .popc w => some (w, fun a => BitVec.ofNat 32 (popNat 32 a.toNat))
  | .brev w => some (w, fun a => BitVec.ofNat 32 (revBits 32 a.toNat 0))
  | .bswap w => some (w, fun a => bswapOf a)
  | .sxb w => some (w, fun a => (a.setWidth 8).signExtend 32)
  | .sxh w => some (w, fun a => (a.setWidth 16).signExtend 32)
  | .zxb w => some (w, fun a => (a.setWidth 8).zeroExtend 32)
  | .zxh w => some (w, fun a => (a.setWidth 16).zeroExtend 32)
  | _ => none

/-- R120: the three-register function of each immediate form. -/
def intOpImm : Instr → Option (RI × (Word → Word → Word))
  | .addi w => some (w, fun a b => a + b)
  | .muli w => some (w, fun a b => a * b)
  | .andi w => some (w, fun a b => a &&& b)
  | .ori w => some (w, fun a b => a ||| b)
  | .xori w => some (w, fun a b => a ^^^ b)
  | _ => none

/-- R120: the shifts by a constant. -/
def intOpShift : Instr → Option (Shi × (Word → Nat → Word))
  | .shli w => some (w, fun a n => a <<< n)
  | .shri w => some (w, fun a n => a >>> n)
  | .sari w => some (w, fun a n => a.sshiftRight n)
  | .roti w => some (w, fun a n => a.rotateLeft n)
  | _ => none

/-- R125 to R130: the results and flags of the floating-point instructions of two sources. -/
def floatOp2 : Instr → Option (R3 × (Word → Word → FnOut))
  | .fadd w => some (w, fun a b => outF (add32 a b))
  | .fsub w => some (w, fun a b => outF (sub32 a b))
  | .fmul w => some (w, fun a b => outF (mul32 a b))
  | .fmin w => some (w, fun a b => outF (fMinMax false a b))
  | .fmax w => some (w, fun a b => outF (fMinMax true a b))
  | .fdiv w => some (w, fun a b => outF (div32 a b))
  | .badd2 w => some (w, fun a b => halves (fun x y _ => fAdd .bf16 (bf x) (bf y)) a b 0)
  | .fscl w => some (w, fun a b => outF (fsclOf a b))
  | _ => none

/-- Those that read their destination too. -/
def floatOp3 : Instr → Option (R3 × (Word → Word → Word → FnOut))
  | .ffma w => some (w, fun a b d => outF (fma32 a b d))
  | .bfma2 w => some (w, fun a b d => halves (fun x y z => fFma .bf16 (bf x) (bf y) (bf z)) a b d)
  | _ => none

/-- R76, R128, R129: those of one source. -/
def floatOp1 : Instr → Option (RF × (Word → FnOut))
  | .fabs w => some (w, fun a => fSign (a &&& 0x7FFFFFFF) a)
  | .fneg w => some (w, fun a => fSign (a ^^^ 0x80000000) a)
  | .fsqrt w => some (w, fun a => outN (fSqrt (f32 a)))
  | .frcp w => some (w, fun a => outN (fRcp (f32 a)))
  | .frsq w => some (w, fun a => outN (fRsq (f32 a)))
  | .fexp2 w => some (w, fun a => outN (fExp2 (f32 a)))
  | .flog2 w => some (w, fun a => outN (fLog2 (f32 a)))
  | .ffloor w => some (w, fun a => outF (fIntegral .floor a))
  | .fceil w => some (w, fun a => outF (fIntegral .ceil a))
  | .ftrunc w => some (w, fun a => outF (fIntegral .trunc a))
  | .frint w => some (w, fun a => outF (fIntegral .near a))
  | .f2i w => some (w, fun a => intOut 32 (convertInt (-2 ^ 31) (2 ^ 31 - 1) false (f32 a)))
  | .f2iz w => some (w, fun a => intOut 32 (convertInt (-2 ^ 31) (2 ^ 31 - 1) true (f32 a)))
  | .f2u w => some (w, fun a => intOut 32 (convertInt 0 (2 ^ 32 - 1) false (f32 a)))
  | .f2uz w => some (w, fun a => intOut 32 (convertInt 0 (2 ^ 32 - 1) true (f32 a)))
  | .i2f w => some (w, fun a => outF (elemToF32 (ofInt a.toInt)))
  | .u2f w => some (w, fun a => outF (elemToF32 (ofInt a.toNat)))
  | .f2bf w => some (w, fun a => outN (convert .bf16 (f32 a)))
  | .bf2f w => some (w, fun a => outF (elemToF32 (bf (lo16 a))))
  | .f2h w => some (w, fun a => outN (convert .fp16 (f32 a)))
  | .h2f w => some (w, fun a => outF (elemToF32 (fp16 (lo16 a))))
  | _ => none

/-- Tags that the 8-bit and the 4-bit element instructions take (R131). -/
def tags8 : List Tag := [.raw, .e4m3, .e5m2, .i8]
def tags4 : List Tag := [.raw, .e2m1, .i4, .cb4]

/-- R131 to R137: rows whose result depends on the tags, or leaves one. -/
def tagRow : Instr → Option Row
  | .mov w => some { rowRF w outW with f := fun v t _ => ⟨[v.getD 0 0], 0, t.getD 0 .raw⟩ }
  | .ftag w g => some { rowRF w outW with f := fun v _ _ => ⟨[v.getD 0 0], 0, g⟩ }
  | .dot4 w => some { rowR3d w (fun _ _ _ => outW 0) with
      f := fun v t cb => dotOf 4 8 (t.getD 0 .raw) (t.getD 1 .raw) cb (v.getD 0 0) (v.getD 1 0) (v.getD 2 0)
      tagsOk := fun t => tags8.contains (t.getD 0 .raw) && tags8.contains (t.getD 1 .raw) }
  | .dot8 w => some { rowR3d w (fun _ _ _ => outW 0) with
      f := fun v t cb => dotOf 8 4 (t.getD 0 .raw) (t.getD 1 .raw) cb (v.getD 0 0) (v.getD 1 0) (v.getD 2 0)
      tagsOk := fun t => tags4.contains (t.getD 0 .raw) && tags4.contains (t.getD 1 .raw)
      codebook := fun t => t.getD 0 .raw = .cb4 || t.getD 1 .raw = .cb4 }
  | .pk8 w => some { rowR3d w (fun _ _ _ => outW 0) with
      f := fun v t _ => packOf 8 (t.getD 2 .raw) (v.getD 0 0) (v.getD 1 0) (v.getD 2 0)
      tagsOk := fun t => [Tag.e4m3, .e5m2, .i8].contains (t.getD 2 .raw) }
  | .pk4 w => some { rowR3d w (fun _ _ _ => outW 0) with
      f := fun v t _ => packOf 4 (t.getD 2 .raw) (v.getD 0 0) (v.getD 1 0) (v.getD 2 0)
      tagsOk := fun t => [Tag.e2m1, .i4].contains (t.getD 2 .raw) }
  | .upk8 w i => some { rowRF w outW with
      f := fun v t cb => outF (elemToF32 (laneElem 8 (t.getD 0 .raw) cb i.toNat (v.getD 0 0)))
      tagsOk := fun t => tags8.contains (t.getD 0 .raw) }
  | .upk4 w i => some { rowRF w outW with
      f := fun v t cb => outF (elemToF32 (laneElem 4 (t.getD 0 .raw) cb i.toNat (v.getD 0 0)))
      tagsOk := fun t => tags4.contains (t.getD 0 .raw)
      codebook := fun t => t.getD 0 .raw = .cb4 }
  | _ => none

/-- R121, R124, R137, and `mad` of R118: rows of a form of their own. -/
def otherRow (s : State) (t : Nat) : Instr → Option Row
  | .mad w => some (rowR3d w fun a b d => outW (a * b + d))
  | .movi x d imm => some
      { x := x, n := false, d := d, fields := [d, .z], reads := [srcK (imm.signExtend 32)],
        f := fun _ _ _ => outW (imm.signExtend 32) }
  | .movh x d imm => some
      { x := x, n := false, d := d, fields := [d, .z], reads := [srcK (imm.zeroExtend 32), srcN d 1],
        f := fun v _ _ => outW (imm ++ (v.getD 1 0).setWidth 14) }
  | .sel x d a b p => some
      { x := x, n := false, d := d, fields := [d, a, b], reads := [src a, src b],
        f := fun v _ _ => outW (if (s.th t).p.getLsbD p.toNat then v.getD 0 0 else v.getD 1 0) }
  | .bfx x d a len1 pos => some
      { x := x, n := false, d := d, fields := [d, a], reads := [src a],
        f := fun v _ _ => outW (bfxOf (len1.toNat + 1) pos.toNat (v.getD 0 0)) }
  | .bfi x d a len1 pos => some
      { x := x, n := false, d := d, fields := [d, a], reads := [src a, srcN d 1],
        f := fun v _ _ => outW (bfiOf (len1.toNat + 1) pos.toNat (v.getD 0 0) (v.getD 1 0)) }
  | _ => none

/-- A triple from the i-th source word on. -/
def tripleAt (v : List Word) (i : Nat) : Triple := ⟨v.getD i 0, v.getD (i + 1) 0, v.getD (i + 2) 0⟩

/-- R140, R141: the moment instructions; a triple is three registers. -/
def momentRow : Instr → Option Row
  | .blend w => some { rowR3 w (fun _ _ => outW 0) with
      dn := 3, reads := [srcN w.a 3 w.ea, srcN w.b 3 w.eb], f := fun v _ _ => outT (blendT (tripleAt v 0) (tripleAt v 3)) }
  | .mupdw w => some { rowR3 w (fun _ _ => outW 0) with
      dn := 3, reads := [src w.a w.ea, src w.b w.eb, srcN w.d 3]
      f := fun v _ _ => outT (blendT (tripleAt v 2) ⟨v.getD 1 0, v.getD 0 0, 0⟩) }
  | .mupd w => some { rowRF w outW with
      dn := 3, reads := [src w.a w.ea, srcN w.d 3]
      f := fun v _ _ => outT (blendT (tripleAt v 1) ⟨0x3F800000, v.getD 0 0, 0⟩) }
  | .mclr x d _ _ n => some
      { x := x, n := n, d := d, dn := 3, fields := [d], reads := [], f := fun _ _ _ => ⟨[0, 0x7FE00000, 0], 0, .raw⟩ }
  | .mmean w => some { rowRF w outW with reads := [srcN w.a 3 w.ea], f := fun v _ _ => outF (triMean (tripleAt v 0)) }
  | .mvar w => some { rowRF w outW with reads := [srcN w.a 3 w.ea], f := fun v _ _ => outF (triVar (tripleAt v 0)) }
  | .mvars w => some { rowRF w outW with reads := [srcN w.a 3 w.ea], f := fun v _ _ => outF (triVars (tripleAt v 0)) }
  | .msum w => some { rowRF w outW with reads := [srcN w.a 3 w.ea], f := fun v _ _ => outF (triSum (tripleAt v 0)) }
  | .mrstd w => some { rowRF w outW with
      reads := [srcN w.a 3 w.ea, srcN w.d 1], f := fun v _ _ => outF (triRstd (tripleAt v 0) (v.getD 3 0)) }
  | _ => none

/-! ### Cross-lane reductions (chapter 6) -/

/-- R100: one step of a reduction over words, acc first, with the flags of the floating-point ones. -/
def redOne (f : RedOp) (acc y : Word) : Word × Flags :=
  match f with
  | .add => (acc + y, 0)
  | .min => (if acc.toInt < y.toInt then acc else y, 0)
  | .max => (if acc.toInt < y.toInt then y else acc, 0)
  | .minu => (if acc.toNat < y.toNat then acc else y, 0)
  | .maxu => (if acc.toNat < y.toNat then y else acc, 0)
  | .and => (acc &&& y, 0)
  | .or => (acc ||| y, 0)
  | .xor => (acc ^^^ y, 0)
  | .fadd => add32 acc y
  | .fmin => fMinMax false acc y
  | .fmax => fMinMax true acc y
  | .blend => (acc, 0)

/-- The fold of R100 from the lowest member on: its value, and the flags of all its steps. -/
def redAll {α : Type} (one : α → α → α × Flags) (zero : α) : List α → α × Flags
  | [] => (zero, 0)
  | y :: ys => ys.foldl (fun p z => ((one p.1 z).1, p.2 ||| (one p.1 z).2)) (y, 0)

/-- The register exists. -/
def HasReg (s : State) (t : Nat) : RegRef → Prop
  | .v n => n < (s.th t).v.length
  | .s n => (s.th t).warp < s.warps.length ∧ n < (s.wpOf t).s.length

/-! ### Frames -/

/-- Memory reads as before: near memory of every die, and the buffers of every core. -/
def SameMemory (s u : State) : Prop :=
  (∀ d a, Memory.read1 (u.die d).mem a = Memory.read1 (s.die d).mem a) ∧
    ∀ c sp a, Memory.read1 ((u.co c).buf sp) a = Memory.read1 ((s.co c).buf sp) a

/-- Every thread but one is as before. -/
def OthersSame (s u : State) (t : Nat) : Prop := ∀ n, n ≠ t → u.th n = s.th n

/-- The registers of a thread that only their own instructions write are as before: x, predicates, link, MEET, window,
bindings, bit stream, read-side state, IPT index, codebook select, and what traps save. -/
def SpecialsSame (x y : Thread) : Prop :=
  x.x = y.x ∧ x.p = y.p ∧ x.lnk = y.lnk ∧ x.meet = y.meet ∧ x.wbase = y.wbase ∧ x.qb = y.qb ∧ x.bw = y.bw ∧ x.bc = y.bc ∧
    x.depth = y.depth ∧ x.qtag = y.qtag ∧ x.iptidx = y.iptidx ∧ x.cbsel = y.cbsel ∧ x.timeHi = y.timeHi ∧
    x.faultCode = y.faultCode ∧ x.faultAddr = y.faultAddr ∧ x.inHandler = y.inHandler ∧ x.frame = y.frame ∧
    x.warp = y.warp ∧ x.lane = y.lane ∧ x.slot = y.slot ∧ x.cell = y.cell ∧ x.collie = y.collie

/-! ### Memory instructions -/

/-- The loads and stores of one space each (R156, R157). -/
def loadOf : Instr → Option (MW × Space)
  | .ldn w => some (w, .n)
  | .lda w => some (w, .a)
  | .ldc w => some (w, .c)
  | .ldw w => some (w, .w)
  | _ => none

def storeOf : Instr → Option (MW × Space)
  | .stn w => some (w, .n)
  | .sta w => some (w, .a)
  | .stc w => some (w, .c)
  | _ => none

/-- An access of n bytes at an effective address is aligned and inside its buffer, or its page lets it (R146, R148, R152);
`at_` is where it lands: the offset in a buffer, the physical address in N. -/
def Reaches (s : State) (t : Nat) (sp : Space) (ea : Word) (n : Nat) (acc : Access) (at_ : Nat) : Prop :=
  ea.toNat % n = 0 ∧ if sp = .n then ∃ p, s.laneXlate t (nVa s t ea) acc = .ok (p, at_)
    else ea.toNat + n ≤ bufSize sp ∧ at_ = ea.toNat

end Sys2Proof.Machine
end

