-- ==== Sys2Proof/Certificates/Slice0/Obligations.lean ====
section
/-! DEFINITION. The statements about the model, one definition each. `Lone s t x` says that thread t issues alone with its
guard true; `Given` and `RowGiven` say that its operands can be read and its destination written. -/

open Sys2Proof Sys2Proof.Machine

/-! ### Arithmetic (chapter 7) -/

/-- R118, R119: every three-register integer instruction writes its function of a and b, raw, and no flag. -/
def Claims.IntegerThreeRegister : Prop :=
  ∀ i w f, intOp3 i = some (w, f) → (rowR3 w fun a b => outW (f a b)).Holds i

/-- R120, R122: the one-source, immediate and constant-shift integer instructions. -/
def Claims.IntegerOneSourceAndImmediate : Prop :=
  (∀ i w f, intOp1 i = some (w, f) → (rowRF w fun a => outW (f a)).Holds i) ∧
  (∀ i w f, intOpImm i = some (w, f) → (rowRI w fun a b => outW (f a b)).Holds i) ∧
  (∀ i w f, intOpShift i = some (w, f) → (rowShi w fun a n => outW (f a n)).Holds i)

/-- R118 (`mad`), R121, R124, R137: `mad`, `movi`, `movh`, `sel`, `bfx`, `bfi`. -/
def Claims.ConstantsSelectAndBitFields : Prop :=
  ∀ i s t r vals, otherRow s t i = some r → Lone s t r.x → RowGiven r s t vals →
    exec i s = .next (r.after s t vals)

/-- R125 to R130, R133: the floating-point instructions write their rounded result and OR their flags into FPSTAT. -/
def Claims.FloatResults : Prop :=
  (∀ i w f, floatOp1 i = some (w, f) → (rowRF w f).Holds i) ∧
  (∀ i w f, floatOp2 i = some (w, f) → (rowR3 w f).Holds i) ∧
  (∀ i w f, floatOp3 i = some (w, f) → (rowR3d w f).Holds i)

/-- R122, R131, R132, R134 to R136: the instructions whose result depends on tags, or that leave one. -/
def Claims.TaggedResults : Prop := ∀ i r, tagRow i = some r → r.Holds i

/-- R140, R141: the moment instructions, over three registers. -/
def Claims.MomentResults : Prop := ∀ i r, momentRow i = some r → r.Holds i

/-- R123, R127: the comparisons write their predicate, and `fsetp` its flags, and nothing else but the next PC. -/
def Claims.ComparisonsWritePredicates : Prop :=
  ∀ (s : State) (t : Nat) (x : Option Ext) (p : BitVec 3) (a b : Operand) (k ea eb : Bool) (imm : BitVec 11)
    (va vb : Word), Lone s t x → (s.th t).popped = [] →
    (Given s t [.z, a, b] [src a ea, src b eb] [] →
      allSlots s t (s.th t).tickets [src a ea, src b eb] = [.val va, .val vb] →
      (∀ c : Cond, exec (.setp x c p a b k ea eb false) s =
        .next ((s.setP t p (condHolds c va vb)).retire t (extLen x))) ∧
      (∀ c : FCond, exec (.fsetp x c p a b k ea eb false) s =
        .next (((s.setP t p (fcondHolds c va vb).1).addFlags t (fcondHolds c va vb).2).retire t (extLen x)))) ∧
    (Given s t [.z, a, .z] [src a, srcK (immOf x imm)] [] →
      allSlots s t (s.th t).tickets [src a] = [.val va] →
      ∀ c : Cond, exec (.setpi x c p a imm) s =
        .next ((s.setP t p (condHolds c va (immOf x imm))).retire t (extLen x)))

/-- R139: `bsld` fills the bit window, `bsget` takes n bits and moves the cursor or traps past the window's end, and
`bsrf` with a cursor of 32 or more shifts the window down by a word and takes the next word above it. -/
def Claims.BitStream : Prop :=
  (∀ (s : State) (t : Nat) (x : Option Ext) (n : BitVec 6) (k ea eb nb : Bool), Lone s t x → windowBusy s t = false →
    Given s t [.v n] [srcN (.v n) 2 ea] [] →
    exec (.bsld x (.v n) k ea eb nb) s =
      .next ((s.modTh t fun y => { y with
        bw := s.regVal t (.v ((s.th t).wbase + n.toNat + 1)) ++ s.regVal t (.v ((s.th t).wbase + n.toNat)), bc := 0 }).retire t
          (extLen x))) ∧
  (∀ (s : State) (t : Nat) (x : Option Ext) (d n : BitVec 6), Lone s t x → windowBusy s t = false →
    Given s t [.v d] [] [.v ((s.th t).wbase + d.toNat)] →
    ((s.th t).bc.toNat + n.toNat ≤ 64 → exec (.bsget x (.v d) n) s =
      .next (((s.modTh t fun y => { y with bc := y.bc + n }).fillReg t (.v ((s.th t).wbase + d.toNat))
        (BitVec.ofNat 32 ((s.th t).bw.toNat / 2 ^ (s.th t).bc.toNat % 2 ^ n.toNat)) .raw).retire t (extLen x))) ∧
    (64 < (s.th t).bc.toNat + n.toNat → exec (.bsget x (.v d) n) s =
      .next (s.faultTrap t 2 0x104 (pcAddr (s.th t).pc)))) ∧
  (∀ (s : State) (t : Nat) (w : RF) (eb : Bool) (d : BitVec 6) (a : Word), Lone s t w.x → w.n = false → w.d = .v d →
    (s.th t).popped = [] → windowBusy s t = false → Given s t [w.d, w.a] [src w.a w.ea] [.v ((s.th t).wbase + d.toNat)] →
    allSlots s t (s.th t).tickets [src w.a w.ea] = [.val a] →
    exec (.bsrf w eb) s = .next ((if 32 ≤ (s.th t).bc.toNat then
        (s.modTh t fun x => { x with bw := a ++ x.bw.extractLsb' 32 32, bc := x.bc - 32 }).fillReg t
          (.v ((s.th t).wbase + d.toNat)) 4 .raw
      else s.fillReg t (.v ((s.th t).wbase + d.toNat)) 0 .raw).retire t (extLen w.x)))

/-- R119: division never traps: each of the four instructions completes with its value, whatever the operands; division by zero and
the one quotient that overflows give the values of the table. -/
def Claims.DivisionNeverTraps : Prop :=
  let row (i : R3 → Instr) (byZero : Word → Word) (overflow : Word) : Prop :=
    ∀ w : R3, ∃ f, intOp3 (i w) = some (w, f) ∧ (rowR3 w fun a b => outW (f a b)).Holds (i w) ∧
      (∀ a, f a 0 = byZero a) ∧ f 0x80000000 0xFFFFFFFF = overflow
  row .div (fun _ => 0xFFFFFFFF) 0x80000000 ∧ row .rem (fun a => a) 0 ∧
  row .divu (fun _ => 0xFFFFFFFF) 0 ∧ row .remu (fun a => a) 0x80000000 ∧
  ∀ w : R3, ∃ f g, intOp3 (.div w) = some (w, f) ∧ intOp3 (.rem w) = some (w, g) ∧ f (-7) 2 = -3 ∧ g (-7) 2 = -1 ∧
    f 7 (-2) = -3 ∧ g 7 (-2) = 1

/-- R118: for every dividend and nonzero divisor the signed remainder has the dividend's sign and is smaller in magnitude
than the divisor, and quotient and remainder give the dividend back. -/
def Claims.DivisionLaws : Prop :=
  ∀ a b : Word, b ≠ 0 →
    ((LaneFn.rem.eval [a, b] [] []).vals = [BitVec.ofInt 32 (a.toInt.tmod b.toInt)]) ∧
    ((LaneFn.remu.eval [a, b] [] []).vals = [BitVec.ofNat 32 (a.toNat % b.toNat)]) ∧
    (0 ≤ a.toInt → 0 ≤ a.toInt.tmod b.toInt) ∧ (a.toInt ≤ 0 → a.toInt.tmod b.toInt ≤ 0) ∧
    (a.toInt.tmod b.toInt).natAbs < b.toInt.natAbs ∧
    divU a b * b + BitVec.ofNat 32 (a.toNat % b.toNat) = a ∧
    divS a b * b + BitVec.ofInt 32 (a.toInt.tmod b.toInt) = a

/-- R122: what the bit counts mean. -/
def Claims.BitCounts : Prop :=
  ∀ a : Word,
    (clzNat 32 a ≤ 32 ∧ (∀ i, 32 - clzNat 32 a ≤ i → a.getLsbD i = false) ∧
      (clzNat 32 a < 32 → a.getLsbD (31 - clzNat 32 a) = true)) ∧
    (ctzNat 32 0 a ≤ 32 ∧ (∀ i, i < ctzNat 32 0 a → a.getLsbD i = false) ∧
      (ctzNat 32 0 a < 32 → a.getLsbD (ctzNat 32 0 a) = true)) ∧
    popNat 32 a.toNat = ((List.range 32).filter fun i => a.getLsbD i).length ∧
    ∀ i, i < 32 → (BitVec.ofNat 32 (revBits 32 a.toNat 0)).getLsbD i = a.getLsbD (31 - i)

/-- R41, R189: an arithmetic instruction whose sources include a value that does not exist yet is deferred: it completes for
its thread, its destination registers are empty, and it waits in the thread's list with its sources. -/
def Claims.DeferredInstructions : Prop :=
  ∀ (s : State) (t : Nat) (w : R3) (d : BitVec 6), Lone s t w.x → w.n = false → w.d = .v d →
    Given s t [w.d, w.a, w.b] [src w.a w.ea, src w.b w.eb] [.v ((s.th t).wbase + d.toNat)] →
    (s.th t).wbase + d.toNat < (s.th t).v.length →
    queuesOf [src w.a w.ea, src w.b w.eb] = [] → (∀ e ∈ (s.th t).deferred, e.slots.all Slot.isVal = false) →
    (allSlots s t (s.th t).tickets [src w.a w.ea, src w.b w.eb]).all Slot.isVal = false →
    ∃ u, exec (.add w) s = .next u ∧
      u.regFull t (.v ((s.th t).wbase + d.toNat)) = false ∧
      (u.th t).deferred = (s.th t).deferred ++
        [⟨.add, allSlots s t (s.th t).tickets [src w.a w.ea, src w.b w.eb], [tagOf s t (src w.a w.ea),
          tagOf s t (src w.b w.eb), tagOf s t (src w.d)], none, [.v ((s.th t).wbase + d.toNat)]⟩] ∧
      (u.th t).pc = ((s.retire t (extLen w.x)).th t).pc

/-- R41: with N = 1, when a pop or the push of an instruction cannot proceed at issue, nothing changes but p7, which becomes false;
when all can, all take place: the words popped, a before b, give the result, which is written or pushed, and p7 is true. `mov`, and every
arithmetic and moment instruction that has an N bit, with any destination; a comparison writes its predicate, p7 last (where the
predicate is p7, the model's choice, log entry 68). A pop of a channel can proceed when the channel holds an entry, a push when it has
room, and when no entry of the same kind is on its way to it (the model's reading, log entry 37). -/
def Claims.AllOrNothing : Prop :=
  (∀ (s : State) (t : Nat) (w : RF) (d : BitVec 6) (q : BitVec 2), Lone s t w.x → w.n = true → w.d = .v d → w.a = .q q →
    Given s t [w.d, w.a] [src w.a w.ea] [.v ((s.th t).wbase + d.toNat)] → chanCheck s t [q.toNat] = .ok → s.planted = [] →
    (tryPops s t [q.toNat] = none → exec (.mov w) s = .next ((s.setP t 7 false).retire t (extLen w.x))) ∧
    ∀ u v, tryPops s t [q.toNat] = some (u, [v]) → exec (.mov w) s =
      .next ((((u.fillReg t (.v ((s.th t).wbase + d.toNat)) v .raw).addFlags t 0).setP t 7 true).retire t (extLen w.x))) ∧
  (∀ i w f, intOp3 i = some (w, f) → (rowR3 w fun a b => outW (f a b)).HoldsN i) ∧
  (∀ i w f, intOp1 i = some (w, f) → (rowRF w fun a => outW (f a)).HoldsN i) ∧
  (∀ i w f, floatOp1 i = some (w, f) → (rowRF w f).HoldsN i) ∧
  (∀ i w f, floatOp2 i = some (w, f) → (rowR3 w f).HoldsN i) ∧
  (∀ i w f, floatOp3 i = some (w, f) → (rowR3d w f).HoldsN i) ∧
  (∀ w, (rowR3d w fun a b d => outW (a * b + d)).HoldsN (.mad w)) ∧
  (∀ i r, tagRow i = some r → r.HoldsN i) ∧ (∀ i r, momentRow i = some r → r.HoldsN i) ∧
  (∀ (s : State) (t : Nat) (x : Option Ext) (p : BitVec 3) (a b : Operand) (k ea eb : Bool), Lone s t x →
    let reads := [src a ea, src b eb]
    let slots := allSlots s t (s.th t).tickets reads
    let none_ : Host.Outcome State Fault Refusal := .next ((s.setP t 7 false).retire t (extLen x))
    Given s t [.z, a, b] reads [] → chanCheck s t (queuesOf reads) = .ok → s.planted = [] → missing slots = [] →
    (tryPops s t (queuesOf reads) = none → (∀ c, exec (.setp x c p a b k ea eb true) s = none_) ∧
      ∀ c, exec (.fsetp x c p a b k ea eb true) s = none_) ∧
    ∀ u ws, tryPops s t (queuesOf reads) = some (u, ws) →
      let vals := fillSlots slots ws
      let va := vals.getD 0 0
      let vb := vals.getD 1 0
      (∀ c, exec (.setp x c p a b k ea eb true) s =
        .next (((u.setP t p (condHolds c va vb)).setP t 7 true).retire t (extLen x))) ∧
      ∀ c, exec (.fsetp x c p a b k ea eb true) s = .next ((((u.setP t p (fcondHolds c va vb).1).addFlags t
        (fcondHolds c va vb).2).setP t 7 true).retire t (extLen x))) ∧
  ∀ (s : State) (t q off : Nat) (ch : Chan) (v : Word), q ≠ 0 → boundChan (s.th t) q = some off →
    let c := s.homeOf t
    s.chanAt c off = some ch →
    let late (pushes : Bool) : Prop := s.inFlight c off pushes ≠ 0
    let waited : Prop := ∃ w ∈ (s.co c).popWait, w.q ≠ 0 ∧ w.chan = off
    (chanLen ch = 0 ∨ late false ∨ waited → tryPops s t [q] = none) ∧
    (¬(chanLen ch = 0 ∨ late false ∨ waited) →
      tryPops s t [q] = some ((s.chanPop c off ch).1, [wOf (s.bufRead c .a (ch.base + 4 * (ch.head.toNat % ch.cap)) 4)])) ∧
    (ch.cap ≤ chanLen ch ∨ late true → tryPush s t q v = none) ∧
    (¬(ch.cap ≤ chanLen ch ∨ late true) → tryPush s t q v = some (s.chanPush c off ch v))

/-! ### Control (chapter 6) -/

/-- R93, R94, R92: jumps, branches, calls, returns, `nop` and `meet`. A taken transfer sets the PC to its target, relative to
the instruction's own PC in words; `call` and `jmpi` leave the link PC + 4. -/
def Claims.ControlTransfers : Prop :=
  ∀ (s : State) (t : Nat) (x : Option Ext) (off : BitVec 21) (p : BitVec 3) (nz : Bool),
    (Lone s t none →
      exec (.jmp off) s = .next (s.jump t ((s.th t).pc + (off.signExtend 32 <<< 2)) 4) ∧
      exec (.brp p nz off) s = .next (if (s.th t).p.getLsbD p.toNat = nz then
        s.jump t ((s.th t).pc + (off.signExtend 32 <<< 2)) 4 else s.retire t 4) ∧
      exec (.call off) s = .next ((s.modTh t fun y => { y with lnk := y.pc + 4 }).jump t
        ((s.th t).pc + (off.signExtend 32 <<< 2)) 4) ∧
      exec (.meet off) s = .next ((s.modTh t fun y => { y with
        meet := some (y.pc + (off.signExtend 32 <<< 2)) }).retire t 4)) ∧
    (Lone s t x →
      exec (.nop x) s = .next (s.retire t (extLen x)) ∧
      exec (.ret x) s = .next (s.jump t (s.th t).lnk (extLen x)) ∧
      exec (.yield x) s = .next ((s.retire t (extLen x)).setStatus t .yielded)) ∧
    ∀ (w : RF) (eb : Bool) (d a : BitVec 6), w.x = x → Lone s t x → w.d = .v d → w.a = .v a →
      Given s t [w.d, w.a] [src w.a w.ea] [.v ((s.th t).wbase + d.toNat)] →
      let tg := s.regVal t (.v ((s.th t).wbase + a.toNat))
      (tg.toNat % 4 = 0 → exec (.jmpi w eb) s =
        .next ((s.fillReg t (.v ((s.th t).wbase + d.toNat)) ((s.th t).pc + 4) .raw).jump t tg (extLen x))) ∧
      (tg.toNat % 4 ≠ 0 → exec (.jmpi w eb) s = .next (s.faultTrap t 4 0 (pcAddr tg)))

/-- R103: an instruction that ends no active loop's body moves the PC past itself and nothing else of the thread. -/
def Claims.AdvanceOutsideLoops : Prop :=
  ∀ (s : State) (t len : Nat), t < s.threads.length → s.live t = true →
    loopsAt ((s.th t).pc + BitVec.ofNat 32 (len - 4)) (s.th t).lc = [] → 4 ≤ len →
    (s.retire t len).th t = { s.th t with pc := (s.th t).pc + BitVec.ofNat 32 len, status := .ready }

/-- R103: at the last word of the innermost active loop, a counter above 1 counts down, the loop's index counts up, and the
PC goes to the first word of the body; at a counter of 1 the loop becomes inactive and the next one out is examined. -/
def Claims.LoopBackEdge : Prop :=
  ∀ (lw : Word) (i : Nat) (r : LoopReg) (d : LoopDesc) (rest : List (Nat × LoopReg)) (lc : List LoopReg),
    r.desc = some d →
    (1 < r.n.toNat → loopEnd lw ((i, r) :: rest) lc =
      (d.first, lc.set i { r with n := r.n - 1, desc := some { d with i := d.i + 1 } })) ∧
    (r.n.toNat ≤ 1 → loopEnd lw ((i, r) :: rest) lc = loopEnd lw rest (lc.set i { r with n := 0, desc := none })) ∧
    loopEnd lw [] lc = (lw + 4, lc)

/-- R102: `loop` with a count of 0 passes its body; otherwise its counter and descriptor are set and the PC goes to the first
word of the body, after the step words. Its count is the immediate or the register's value; without step words. That a count of 0 leaves
no loop active on the counter is the model's choice where one was active before (log entry 84). -/
def Claims.LoopOpens : Prop :=
  ∀ (s : State) (t : Nat) (lc : BitVec 2) (lenm1 : BitVec 8) (cnt : BitVec 7) (imm : Bool), Lone s t none →
    lc.toNat < (s.th t).lc.length →
    let o := Operand.ofCode cnt
    (imm = false → Given s t [] [src o] []) →
    let n : Word := if imm then cnt.zeroExtend 32 else addrReg s t o
    let first := (s.th t).pc + 4
    let last := first + BitVec.ofNat 32 (4 * lenm1.toNat)
    loopNests (s.th t) lc.toNat first last = true →
    ∃ u, exec (.loop lc lenm1 cnt imm 0) s = .next u ∧
      (n = 0 → (u.th t).pc = last + 4 ∧ ∃ r, (u.th t).lc[lc.toNat]? = some r ∧ r.n = 0 ∧ r.desc = none) ∧
      (n ≠ 0 → (u.th t).pc = first ∧ ∃ r, (u.th t).lc[lc.toNat]? = some r ∧
        r.n = n ∧ r.desc = some ⟨first, last, [], 0⟩) ∧
      (∀ n, t ≠ n → u.th n = s.th n) ∧ (u.th t).v = (s.th t).v ∧ u.dies = s.dies ∧ u.cores = s.cores ∧ u.warps = s.warps

/-- R34: the words after a `loop` word that stand in memory as its steps: each is a step word, and names a body word within the body
that has the field. `ks` are what they say. -/
def StepWords (s : State) (t : Nat) (first : Word) (lenm1 : Nat) (ks : List LoopStep) : Prop :=
  ∀ (j : Nat) (k : LoopStep), ks[j]? = some k → ∃ w p b q l,
    s.fetchWord t ((s.th t).pc + 4 + BitVec.ofNat 32 (4 * j)) = .ok (w, p) ∧ decodeLStep w = .ok l ∧
    k = ⟨l.idx.toNat, l.fld, l.inc⟩ ∧ l.idx.toNat ≤ lenm1 ∧
    s.fetchWord t (first + BitVec.ofNat 32 (4 * l.idx.toNat)) = .ok (b, q) ∧ hasField b l.fld = true

/-- R34, R102: a loop opens with the steps that its step words say, its body after them. A body that does not lie within the body of
another counter's active loop makes the word illegal; so does the first of the step words that is none, names a word past the body or
names a field that its body word has not; and where the fetch of a step word fails instead, the thread parks (which of them decides where
several do is the model's choice, log entry 91). -/
def Claims.LoopSteps : Prop :=
  ∀ (s : State) (t : Nat) (lc : BitVec 2) (lenm1 : BitVec 8) (cnt : BitVec 7) (imm : Bool) (nstep : BitVec 3), Lone s t none →
    lc.toNat < (s.th t).lc.length → s.planted = [] →
    let o := Operand.ofCode cnt
    let n : Word := if imm then cnt.zeroExtend 32 else addrReg s t o
    let first := (s.th t).pc + 4 + BitVec.ofNat 32 (4 * nstep.toNat)
    let last := first + BitVec.ofNat 32 (4 * lenm1.toNat)
    let stepAt (j : Nat) := s.fetchWord t ((s.th t).pc + 4 + BitVec.ofNat 32 (4 * j))
    let bodyAt (l : LStep) := s.fetchWord t (first + BitVec.ofNat 32 (4 * l.idx.toNat))
    let run := exec (.loop lc lenm1 cnt imm nstep) s
    let illegal : Prop := ∃ u, run = .next (u.faultTrap t 1 0 (pcAddr (s.th t).pc)) ∧ u.threads = s.threads ∧ SameMemory s u
    ((∃ c r d, c ≠ lc.toNat ∧ (s.th t).lc[c]? = some r ∧ r.desc = some d ∧
      ¬(d.first.toNat ≤ first.toNat ∧ last.toNat ≤ d.last.toNat)) → illegal) ∧
    (loopNests (s.th t) lc.toNat first last = true → ∀ ks, StepWords s t first lenm1.toNat ks →
      (ks.length = nstep.toNat → (imm = false → Given s t [] [src o] []) →
        ∃ u, run = .next u ∧ (∀ n, t ≠ n → u.th n = s.th n) ∧ (u.th t).v = (s.th t).v ∧ SameMemory s u ∧
          (n = 0 → (u.th t).pc = last + 4 ∧ ∃ r, (u.th t).lc[lc.toNat]? = some r ∧ r.n = 0) ∧
          (n ≠ 0 → (u.th t).pc = first ∧ ∃ r, (u.th t).lc[lc.toNat]? = some r ∧ r.n = n ∧ r.desc = some ⟨first, last, ks, 0⟩)) ∧
      (ks.length < nstep.toNat →
        (∀ k va, stepAt ks.length = .error (k, va) → ∃ u, run = .next (u.parkOwing t (u.faultRec t va k .fetch) []) ∧
          u.threads = s.threads ∧ SameMemory s u) ∧
        (∀ w p, stepAt ks.length = .ok (w, p) → (∀ l, decodeLStep w ≠ .ok l) → illegal) ∧
        ∀ w p l, stepAt ks.length = .ok (w, p) → decodeLStep w = .ok l →
          (lenm1.toNat < l.idx.toNat → illegal) ∧
          (l.idx.toNat ≤ lenm1.toNat → ∀ b q, bodyAt l = .ok (b, q) → hasField b l.fld = false → illegal)))

/-- R104: in iteration i the body word that a step names executes with i × inc added to the field, modulo the field's size; no other bit
changes, and no other word. With an EXT prefix an immediate is the 24 or 21 bits over both words. -/
def Claims.SteppedWords : Prop :=
  ∀ (th : Thread) (c : Nat) (r : LoopReg) (d : LoopDesc) (k : LoopStep) (w : Word), th.lc[c]? = some r → r.desc = some d →
    (∀ c' r', c' ≠ c → th.lc[c']? = some r' → r'.desc = none) → d.steps = [k] →
    let at_ := d.first + BitVec.ofNat 32 (4 * k.idx)
    let low : Nat := if (0x50 ≤ majorOf w ∧ majorOf w ≤ 0x57) ∨ majorOf w = 0x5D then 8 else 11
    let place : Nat × Nat := match k.fld.toNat with | 0 => (18, 7) | 1 => (11, 7) | 2 => (4, 7) | _ => (0, low)
    let sum (f n : Nat) : Nat := ((f + d.i * k.inc.toInt) % (2 ^ n : Nat)).toNat
    let moved (v : Word) : Prop := fld v place.1 place.2 = sum (fld w place.1 place.2) place.2 ∧
      ∀ b, b < 32 → b < place.1 ∨ place.1 + place.2 ≤ b → v.getLsbD b = w.getLsbD b
    (at_ ≠ th.pc → instrWords th none w = (none, w)) ∧
    (at_ = th.pc → ∃ v, instrWords th none w = (none, v) ∧ moved v) ∧
    ∀ x : Word, (at_ ≠ th.pc + 4 → instrWords th (some x) w = (some x, w)) ∧
      (at_ = th.pc + 4 → k.fld ≠ 3 → ∃ v, instrWords th (some x) w = (some x, v) ∧ moved v) ∧
      (at_ = th.pc + 4 → k.fld = 3 → ∃ y v, instrWords th (some x) w = (some y, v) ∧
        fld y 0 13 * 2 ^ low + fld v 0 low = sum (fld x 0 13 * 2 ^ low + fld w 0 low) (13 + low) ∧
        (∀ b, 13 ≤ b → b < 32 → y.getLsbD b = x.getLsbD b) ∧ ∀ b, low ≤ b → b < 32 → v.getLsbD b = w.getLsbD b)

/-- R86: the thread is exited and its bit is clear in all twelve masks of its warp; with a read-side depth above 0 the
section fault is taken instead (R298). -/
def Claims.ExitLeavesTheMasks : Prop :=
  ∀ (s : State) (t : Nat) (x : Option Ext), Lone s t x →
    ((s.th t).depth = 0 → ∃ u, exec (.exit x) s = .next u ∧ (u.th t).status = .exited ∧
      (∀ b ∈ (u.wp (s.th t).warp).m, b.getLsbD (s.th t).lane = false) ∧
      (∀ n, t ≠ n → u.th n = s.th n) ∧ u.dies = s.dies) ∧
    ((s.th t).depth ≠ 0 → exec (.exit x) s = .next (s.faultTrap t 0x0D 1 (pcAddr (s.th t).pc)))

/-- R94, R274: `brk` takes the breakpoint trap and `trap` the software trap of its number, and the return address is the
instruction that follows. -/
def Claims.SoftwareTraps : Prop :=
  ∀ (s : State) (t : Nat) (x : Option Ext) (n : BitVec 10), Lone s t x →
    exec (.brk x) s = .next (s.takeTrap t 0x05000000 (pcAddr (s.th t).pc) ((s.th t).pc + BitVec.ofNat 32 (extLen x))) ∧
    exec (.trap x n) s = .next (s.takeTrap t (BitVec.ofNat 32 (0x0C000000 + n.toNat)) (pcAddr (s.th t).pc)
      ((s.th t).pc + BitVec.ofNat 32 (extLen x)))

/-- R88: `wbase` with z takes its immediate when that is a multiple of 16 within the allocation, and traps otherwise. -/
def Claims.WindowBase : Prop :=
  ∀ (s : State) (t : Nat) (imm : BitVec 11), Lone s t none →
    (0 ≤ imm.toInt ∧ imm.toInt % 16 = 0 ∧ imm.toInt + 64 ≤ (s.th t).v.length →
      exec (.wbase none .z imm) s = .next ((s.modTh t fun y => { y with wbase := imm.toNat }).retire t 4)) ∧
    (¬(0 ≤ imm.toInt ∧ imm.toInt % 16 = 0 ∧ imm.toInt + 64 ≤ (s.th t).v.length) →
      exec (.wbase none .z imm) s = .next (s.faultTrap t 2 0x103 (pcAddr (s.th t).pc)))

/-! ### Masks -/

/-- R95, R96: the instructions that set a lane mask, when the warp's lane issues alone. A mask written holds the bits of the warp's own
lanes, and those of lanes that the warp does not have are discarded; no other mask of the warp, no other warp, and nothing else
changes. -/
def Claims.MaskResults : Prop :=
  ∀ (s : State) (t : Nat) (x : Option Ext) (d a : MaskReg), Lone s t x →
    let w := s.wpOf t
    let put (b : BitVec 64) : Host.Outcome State Fault Refusal := .next ((s.setMask t d b).retire t (extLen x))
    let here : BitVec 64 := 1#64 <<< (s.th t).lane
    exec (.join x d) s = put (maskVal w d ||| here) ∧ exec (.leaveMask x d) s = put (maskVal w d &&& ~~~here) ∧
    exec (.mzeroMask x d) s = put 0 ∧ exec (.mfill x d) s = put (liveMask s w) ∧
    exec (.mmov x d a) s = put (maskVal w a) ∧ exec (.mand x d a) s = put (maskVal w d &&& maskVal w a) ∧
    exec (.mor x d a) s = put (maskVal w d ||| maskVal w a) ∧ exec (.mxor x d a) s = put (maskVal w d ^^^ maskVal w a) ∧
    exec (.mnot x d a) s = put (~~~ maskVal w a) ∧
    ∀ b : BitVec 64, (s.th t).warp < s.warps.length → d.val < w.m.length →
      let u := s.setMask t d b
      (∀ i, (maskVal (u.wpOf t) d).getLsbD i = (b.getLsbD i && decide (i < w.width))) ∧
      (∀ k : MaskReg, k ≠ d → maskVal (u.wpOf t) k = maskVal w k) ∧
      (u.wpOf t).width = w.width ∧ (u.wpOf t).threads = w.threads ∧ (u.wpOf t).s = w.s ∧ (u.wpOf t).fifo = w.fifo ∧
      (∀ k, k ≠ (s.th t).warp → u.wp k = s.wp k) ∧ u.threads = s.threads ∧ u.cores = s.cores ∧ u.dies = s.dies

/-- R96: `mpopc` and `mtos` write s registers of the warp; a width-64 warp's `mtos` writes a pair and traps at s15. -/
def Claims.MaskReads : Prop :=
  ∀ (s : State) (t : Nat) (x : Option Ext) (n : BitVec 4) (a : MaskReg), Lone s t x →
    (Given s t [] [] [.s n.toNat] →
      exec (.mpopc x (.s n) a) s = .next ((s.fillReg t (.s n.toNat)
        (BitVec.ofNat 32 (popNat 64 (maskVal (s.wpOf t) a).toNat)) .raw).retire t (extLen x)) ∧
      ((s.wpOf t).width ≠ 64 → exec (.mtos x (.s n) a) s = .next ((s.fillReg t (.s n.toNat)
        ((maskVal (s.wpOf t) a).extractLsb' 0 32) .raw).retire t (extLen x)))) ∧
    (Given s t [] [] [.s n.toNat, .s (n.toNat + 1)] → (s.wpOf t).width = 64 → n ≠ 15 →
      exec (.mtos x (.s n) a) s = .next (((s.fillReg t (.s n.toNat) ((maskVal (s.wpOf t) a).extractLsb' 0 32) .raw).fillReg t
        (.s (n.toNat + 1)) ((maskVal (s.wpOf t) a).extractLsb' 32 32) .raw).retire t (extLen x))) ∧
    ((s.wpOf t).width = 64 → exec (.mtos x (.s 15) a) s = .next (s.faultTrap t 2 79 (pcAddr (s.th t).pc)))

/-- R96: `mwait` waits, and MWAIT_RELEASE lets every thread that waits on the mask go on in one step when all live lanes of
the mask wait on it. -/
def Claims.MaskWait : Prop :=
  (∀ (s : State) (t : Nat) (x : Option Ext) (d : MaskReg), Lone s t x →
    exec (.mwait x d) s = .next (s.setStatus t (.blocked (.mwait d (extLen x))))) ∧
  (∀ (s : State) (w : Nat) (m : MaskReg), mwaitReady s w m = true → (s.wp w).threads.Nodup →
    ∃ u, exec (.mwaitRelease w m) s = .next u ∧
      (∀ t ∈ (s.wp w).threads, ∀ len, waitsOn (s.th t) m = some len → u.th t = Thread.advance len (s.th t)) ∧
      (∀ t, (t ∉ (s.wp w).threads ∨ waitsOn (s.th t) m = none) → u.th t = s.th t) ∧
      u.dies = s.dies ∧ u.cores = s.cores ∧ u.warps = s.warps)

/-- R91: MEET_RELEASE ends the hold at p for every thread held there, in one step, and changes nothing else of it. -/
def Claims.MeetRelease : Prop :=
  ∀ (s : State) (w : Nat) (p : Word), meetReady s w p = true → (s.wp w).threads.Nodup →
    ∃ u, exec (.meetRelease w p) s = .next u ∧
      (∀ t ∈ (s.wp w).threads, isHeld (s.th t) = true → (s.th t).pc = p → u.th t = { s.th t with meet := none }) ∧
      (∀ t, (t ∉ (s.wp w).threads ∨ isHeld (s.th t) = false ∨ (s.th t).pc ≠ p) → u.th t = s.th t) ∧
      u.dies = s.dies ∧ u.cores = s.cores ∧ u.warps = s.warps

/-! ### Cross-lane instructions -/

/-- R97: a member whose operands are ready waits at the instruction for its meeting, and nothing else changes. The result is
that of the meeting (`CrossLaneMeetings`, `ShuffleValues`, `ReductionValues`). -/
def Claims.CrossLaneArrival : Prop :=
  ∀ (s : State) (t : Nat) (i : Instr) (c : Cross), crossOf ((s.wpOf t).width = 64) i = some c → Lone s t c.x →
    Given s t c.fields c.srcs ((c.d.map fun d => regsOf (s.th t) d c.dn).getD []) → isMember s c.m t = true →
    ¬(c.dn = 2 ∧ c.d = some (.v 63)) → missing (allSlots s t 0 c.srcs) = [] →
    exec i s = .next (s.setStatus t (.blocked (.meeting i)))

/-- R97: a complete meeting executes once, and every member goes on from it. -/
def Claims.CrossLaneMeetings : Prop :=
  ∀ (s : State) (w : Nat) (i : Instr) (c : Cross),
    ((s.wp w).threads.findSome? fun t => meetingReady s (s.wp w) t) = some i →
    crossOf ((s.wp w).width = 64) i = some c →
    exec (.crossLaneMeeting w) s = .next ((membersOf s (s.wp w) c.m).foldl (fun st t => st.retire t (extLen c.x))
      (meetingEffect s (s.wp w) i (membersOf s (s.wp w) c.m)))

/-- R97, R99: after a meeting at `shfl` or `xchg` each executing member's destination has the value of a in the lane that it names, with
its tag, 0 where that lane is guarded off, or its own where that lane is no member. That the 0 has the tag raw is the model's choice (log
entry 70). -/
def Claims.ShuffleValues : Prop :=
  ∀ (s : State) (w : Warp) (x : Option Ext) (d a b : BitVec 6) (m : BitVec 4) (t : Nat) (shfl : Bool),
    let ms := membersOf s w m
    let a' (u : Nat) : Word × Tag := (s.regVal u (.v ((s.th u).wbase + a.toNat)), s.regTag u (.v ((s.th u).wbase + a.toNat)))
    let b' : Word := s.regVal t (.v ((s.th t).wbase + b.toNat))
    let i : Instr := if shfl then .shfl x (.v d) (.v a) (.v b) m else .xchg x (.v d) (.v a) (.v b) m
    let want : Nat := if shfl then b'.toNat else Nat.xor (s.th t).lane (b'.toNat % 64)
    let u := meetingEffect s w i ms
    let rd := RegRef.v ((s.th t).wbase + d.toNat)
    w.threads.Nodup → (∀ u ∈ ms, u < s.threads.length) → t ∈ ms → guardOn x (s.th t) = true →
    (s.th t).wbase + d.toNat < (s.th t).v.length →
    (u.regVal t rd, u.regTag t rd) = (match ms.find? fun u => (s.th u).lane = want with
      | some v => if guardOn x (s.th v) then a' v else (0, .raw)
      | none => a' t) ∧ u.regFull t rd = true

/-- R97, R98, R100, R101: after a meeting at `wred` every executing member, or the s register, has the fold of the members' values in
ascending lane order, for each operation, and triples for `blend`; at `wscan` each has the fold up to its own lane, or in the exclusive
forms up to the next lower member, 0 for the lowest. A guarded-off member contributes 0 and receives nothing. At `vote` the mask has the
bits of the executing members whose predicate holds; at `veq` each has the mask of the executing members with its value. The flags of
all inclusive steps of a scan count, also in the exclusive form (the model's choice, log entry 71). Without an executing member nothing
happens. -/
def Claims.ReductionValues : Prop :=
  ∀ (s : State) (w : Warp) (x : Option Ext) (a : Operand) (m : BitVec 4) (t : Nat),
    let ms := membersOf s w m
    let on (u : Nat) : Bool := guardOn x (s.th u)
    w.threads.Nodup → (∀ u ∈ ms, u < s.threads.length ∧ (s.th u).warp = (s.th t).warp) →
    let lane (l : List Nat) (p : Nat → Bool) : BitVec 64 :=
      (l.filter on).foldl (fun (b : BitVec 64) u => if p u then b ||| (1#64 <<< (s.th u).lane) else b) 0
    (∀ i c, crossOf (w.width = 64) i = some c → c.x = x → (∀ u ∈ ms, on u = false) → meetingEffect s w i ms = s) ∧
    (∀ (k : MaskReg) (p : PSrc), (ms.filter on).head? = some t →
      meetingEffect s w (.vote x k p m) ms = s.setMask t k (lane ms fun u => predVal (s.th u) p)) ∧
    (t ∈ ms → on t = true →
      let gives (u : State) (r : RegRef) (v : Word) : Prop :=
        u.regVal t r = v ∧ u.regTag t r = .raw ∧ u.regFull t r = true
      let off (u : State) : Prop := ∀ k, ¬(k ∈ ms ∧ on k = true) → u.th k = s.th k
      let flags (u : State) (f : Flags) : Prop :=
        (s.th t).warp < s.warps.length → (u.wpOf t).fp = (s.wpOf t).fp ||| f
      (∀ vals : Nat → Word, (∀ u ∈ ms, on u = true → allSlots s u 0 [src a] = [.val (vals u)]) →
        let y (u : Nat) : Word := if on u then vals u else 0
        (∀ (f : RedOp) (n : BitVec 6), f ≠ .blend → HasReg s t (.v ((s.th t).wbase + n.toNat)) →
          let r := redAll (redOne f) 0 (ms.map y)
          let u := meetingEffect s w (.wred x f (.v n) a m) ms
          gives u (.v ((s.th t).wbase + n.toNat)) r.1 ∧ flags u r.2 ∧ off u) ∧
        (∀ (f : RedOp) (n : BitVec 4), f ≠ .blend → HasReg s t (.s n.toNat) →
          let r := redAll (redOne f) 0 (ms.map y)
          let u := meetingEffect s w (.wred x f (.s n) a m) ms
          gives u (.s n.toNat) r.1 ∧ flags u r.2 ∧ u.threads = s.threads) ∧
        (∀ (f : ScanOp) (n : BitVec 6), HasReg s t (.v ((s.th t).wbase + n.toNat)) →
          let op : RedOp := if f = .add ∨ f = .addx then .add else .fadd
          let below := (ms.takeWhile (· ≠ t)).map y
          let u := meetingEffect s w (.wscan x f (.v n) a m) ms
          gives u (.v ((s.th t).wbase + n.toNat))
            (redAll (redOne op) 0 (if f = .addx ∨ f = .faddx then below else below ++ [y t])).1 ∧
          flags u (redAll (redOne op) 0 (ms.map y)).2 ∧ off u) ∧
        (∀ n : BitVec 6, (∀ i, i < (if w.width = 64 then 2 else 1) → HasReg s t (.v ((s.th t).wbase + n.toNat + i))) →
          let set := lane ms fun u => vals u = vals t
          let u := meetingEffect s w (.veq x (.v n) a m) ms
          gives u (.v ((s.th t).wbase + n.toNat)) (set.extractLsb' 0 32) ∧ off u ∧
          (w.width = 64 → gives u (.v ((s.th t).wbase + n.toNat + 1)) (set.extractLsb' 32 32)))) ∧
      ∀ vals : Nat → Triple,
        (∀ u ∈ ms, on u = true → allSlots s u 0 [srcN a 3] = (vals u).words.map Slot.val) →
        ∀ n : BitVec 6, (∀ i, i < 3 → HasReg s t (.v ((s.th t).wbase + n.toNat + i))) →
          let r := redAll blendT ⟨0, 0, 0⟩ (ms.map fun u => if on u then vals u else ⟨0, 0, 0⟩)
          let u := meetingEffect s w (.wred x .blend (.v n) a m) ms
          (∀ i, i < 3 → gives u (.v ((s.th t).wbase + n.toNat + i)) (r.1.words.getD i 0)) ∧ flags u r.2 ∧ off u)

/-! ### Memory port (chapter 9) -/

/-- R156, R154, R43: a load whose access is good issues, from any address register into any destination: one pending load of its
place, with the tag of its page's format, its destinations empty until it performs, the next PC; memory, the other threads and the
thread's special registers are unchanged. -/
def Claims.LoadsIssue : Prop :=
  ∀ (s : State) (t : Nat) (i : Instr) (w : MW) (sp : Space) (at_ : Nat), loadOf i = some (w, sp) → Lone s t w.x →
    Given s t [w.d, w.a] [src w.a] (regsOf (s.th t) w.d (szRegs w.sz)) →
    Reaches s t sp (eaOf s t w.x w.a w.off (szBytes w.sz)) (szBytes w.sz) .load at_ → (sp = .n → s.planted = []) →
    ∃ u l, exec i s = .next u ∧ (u.th t).loads = (s.th t).loads ++ [l] ∧
      l.kind = .mem false ∧ l.sp = sp ∧ l.addr = at_ ∧ l.sz = w.sz ∧ l.dst = regsOf (s.th t) w.d (szRegs w.sz) ∧
      l.acq = acqOf s t w.x ∧ (sp ≠ .n → l.tag = .raw) ∧
      (sp = .n → ∀ p pa, s.laneXlate t (nVa s t (eaOf s t w.x w.a w.off (szBytes w.sz))) .load = .ok (p, pa) →
        l.tag = fmtTag (some p)) ∧
      l.die = s.pdie (s.ldieOf t) ∧ l.core = (if sp = .a then s.homeOf t else s.coreOf t) ∧
      (∀ n, RegRef.v n ∈ l.dst → n < (s.th t).v.length → u.regFull t (.v n) = false) ∧
      (∀ n, RegRef.v n ∉ l.dst → u.regFull t (.v n) = s.regFull t (.v n)) ∧
      (∀ r, u.regVal t r = s.regVal t r) ∧
      (u.th t).pc = ((s.retire t (extLen w.x)).th t).pc ∧
      SameMemory s u ∧ OthersSame s u t ∧ SpecialsSame (u.th t) (s.th t)

/-- R146, R148, R152, for loads and stores alike: a misaligned address is the alignment fault, a buffer access past the end the
address fault, both with the effective address as FAULTADDR, and an N address without translation parks the thread, a load's
destinations empty (R43). -/
def Claims.AccessFaults : Prop :=
  ∀ (s : State) (t : Nat) (i : Instr) (w : MW) (sp : Space) (acc : Access),
    (loadOf i = some (w, sp) ∧ acc = .load ∧ Given s t [w.d, w.a] [src w.a] (regsOf (s.th t) w.d (szRegs w.sz)) ∨
      storeOf i = some (w, sp) ∧ acc = .store ∧ Given s t [w.d, w.a] [src w.a, srcN w.d (szRegs w.sz)] []) →
    Lone s t w.x →
    let n := szBytes w.sz
    let ea := eaOf s t w.x w.a w.off n
    (ea.toNat % n ≠ 0 → exec i s = .next (s.faultTrap t 6 0 (pcAddr ea))) ∧
    (ea.toNat % n = 0 → sp ≠ .n → bufSize sp < ea.toNat + n → exec i s = .next (s.faultTrap t 7 0 (pcAddr ea))) ∧
    (ea.toNat % n = 0 → sp = .n → ∀ k, s.laneXlate t (nVa s t ea) acc = .error k →
      exec i s = .next (s.parkOwing t (s.faultRec t (nVa s t ea) k acc)
        (if acc = .load then regsOf (s.th t) w.d (szRegs w.sz) else [])))

/-- R157: a store whose access is good appends one entry with its bytes to its warp's FIFO; memory, every register and the other
threads are unchanged at issue. -/
def Claims.StoresIssue : Prop :=
  ∀ (s : State) (t : Nat) (i : Instr) (w : MW) (sp : Space) (at_ : Nat), storeOf i = some (w, sp) → Lone s t w.x →
    Given s t [w.d, w.a] [src w.a, srcN w.d (szRegs w.sz)] [] → (s.th t).warp < s.warps.length →
    Reaches s t sp (eaOf s t w.x w.a w.off (szBytes w.sz)) (szBytes w.sz) .store at_ → (sp = .n → s.planted = []) →
    ∃ u e, exec i s = .next u ∧ (u.wp (s.th t).warp).fifo = (s.wp (s.th t).warp).fifo ++ [e] ∧
      e.body = .store (storeBytes s t w.d w.sz) ∧ e.sp = sp ∧ e.addr = at_ ∧ e.tid = t ∧
      e.home = (if sp = .a then s.homeOf t else s.coreOf t) ∧ e.nt = attrNt w.x ∧
      (∀ r, u.regVal t r = s.regVal t r) ∧ (∀ r, u.regFull t r = s.regFull t r) ∧
      (u.th t).pc = ((s.retire t (extLen w.x)).th t).pc ∧
      SameMemory s u ∧ OthersSame s u t ∧ SpecialsSame (u.th t) (s.th t)

/-- R154, R155, R160: `ldsc` on a page without scales loads the constant 0x7F, which PERFORM delivers; on a page with scales it
loads the element's scale byte; a page that cannot be read, of the element or of the scale, parks the thread, and a scale in a page
with a format of its own is a malformed entry (KIND 5). `pref` has no effect and takes no fault, whatever its address. -/
def Claims.ScaleLoadsAndPrefetch : Prop :=
  (∀ (s : State) (t : Nat) (x : Option Ext) (d a : Operand) (off : BitVec 8), Lone s t x →
    Given s t [d, a] [src a] (regsOf (s.th t) d 1) →
    let va := nVa s t (eaOf s t x a off 1)
    let dst := regsOf (s.th t) d 1
    let loads (const : Bool) (addr : Nat) : Prop := s.planted = [] →
      ∃ u l, exec (.ldsc x d a off) s = .next u ∧ (u.th t).loads = (s.th t).loads ++ [l] ∧ l.kind = .mem const ∧ l.sp = .n ∧
        l.addr = addr ∧ l.sz = 0 ∧ l.dst = dst ∧ l.tag = .raw ∧ l.die = s.pdie (s.ldieOf t) ∧ l.core = s.coreOf t ∧
        (∀ n, RegRef.v n ∈ dst → n < (s.th t).v.length → u.regFull t (.v n) = false) ∧ (∀ r, u.regVal t r = s.regVal t r) ∧
        (u.th t).pc = ((s.retire t (extLen x)).th t).pc ∧ SameMemory s u ∧ OthersSame s u t ∧ SpecialsSame (u.th t) (s.th t)
    let parks (va : Nat) (k : BitVec 4) : Prop :=
      exec (.ldsc x d a off) s = .next (s.parkOwing t (s.faultRec t va k .load) dst)
    (∀ k, s.laneXlate t va .load = .error k → parks va k) ∧
    ∀ p pa, s.laneXlate t va .load = .ok (p, pa) →
      (p.fmt = 0 → loads true 0) ∧
      (∀ sv, scaleVa p va = some sv →
        (∀ k, s.laneXlate t sv .load = .error k → parks sv k) ∧
        ∀ q at_, s.laneXlate t sv .load = .ok (q, at_) → (q.fmt = 0 → loads false at_) ∧ (q.fmt ≠ 0 → parks sv 5))) ∧
  (∀ (s : State) (t : Nat) (x : Option Ext) (a : Operand) (off : BitVec 8), Lone s t x →
    (∀ r ∈ regsOf (s.th t) a 1, s.regFull t r = true ∨ (ownLred s t).contains r = true) →
    exec (.pref x a off) s = .next (s.retire t (extLen x)))

/-- R161, R163: `atom` and `atoma` append one entry with the lane's operation and its attributes, and their destination is empty
until it has executed; `ared` and `areda` append a reduction; all for every address register and value operand. A misaligned address
is the alignment fault, one past the end of the A-buffer the address fault, and an N address without translation parks the thread. That
an atomic with acquire keeps later loads waiting at every scope, team scope on one core among them, is the model's choice (R57 against
R54, log entry 72). -/
def Claims.AtomicsIssue : Prop :=
  ∀ (s : State) (t : Nat) (x : Option Ext) (f : AtomKind) (d a b : Operand) (sp : Space) (xs : List Word) (i : Instr),
    Lone s t x → (s.th t).warp < s.warps.length → allSlots s t 0 [atomSrc f b] = xs.map Slot.val →
    let ea := addrReg s t a
    let away (dst : List RegRef) : Prop :=
      (ea.toNat % kindBytes f ≠ 0 → exec i s = .next (s.faultTrap t 6 0 (pcAddr ea))) ∧
      (ea.toNat % kindBytes f = 0 → sp = .a → bufSize .a < ea.toNat + kindBytes f →
        exec i s = .next (s.faultTrap t 7 0 (pcAddr ea))) ∧
      (ea.toNat % kindBytes f = 0 → sp = .n → ∀ k, s.laneXlate t (nVa s t ea) .atomic = .error k →
        exec i s = .next (s.parkOwing t (s.faultRec t (nVa s t ea) k .atomic) dst))
    let enters (u : State) (e : Entry) (at_ : Nat) : Prop := exec i s = .next u ∧
      (u.wp (s.th t).warp).fifo = (s.wp (s.th t).warp).fifo ++ [e] ∧ e.sp = sp ∧ e.addr = at_ ∧ e.tid = t ∧
      e.acq = acqOf s t x ∧ e.rel = (relOf s t x && sp == .n) ∧ e.o = attrO x ∧ (∀ r, u.regVal t r = s.regVal t r) ∧
      (u.th t).pc = ((s.retire t (extLen x)).th t).pc ∧ SameMemory s u ∧ OthersSame s u t ∧ SpecialsSame (u.th t) (s.th t)
    let dst := regsOf (s.th t) d 1
    (i = .atom x f d a b ∧ sp = .n ∨ i = .atoma x f d a b ∧ sp = .a → Given s t [d, a, b] [src a, atomSrc f b] dst →
      (∀ at_, Reaches s t sp ea (kindBytes f) .atomic at_ → (sp = .n → s.planted = []) →
        ∃ u e l, enters u e at_ ∧ e.body = .atom f [⟨t, dst, xs, (s.th t).loadCount, (s.th t).peerCount⟩] ∧
          (u.th t).loads = (s.th t).loads ++ [l] ∧ l.kind = .reply e.seq ∧ l.dst = dst ∧ l.acq = ordAcq x ∧
          ∀ n, RegRef.v n ∈ dst → n < (s.th t).v.length → u.regFull t (.v n) = false) ∧ away dst) ∧
    (i = .ared x f a b ∧ sp = .n ∨ i = .areda x f a b ∧ sp = .a → Given s t [a, b] [src a, atomSrc f b] [] →
      (∀ at_, Reaches s t sp ea (kindBytes f) .atomic at_ → (sp = .n → s.planted = []) →
        ∃ u e, enters u e at_ ∧ e.body = .red f [⟨at_, xs, t, (s.th t).peerCount, relOf s t x && sp == .n,
          acqOf s t x, scopeEff s t (scopeOf x), attrO x⟩] ∧ ∀ r, u.regFull t r = s.regFull t r) ∧ away [])

/-- R162: what an atomic leaves in memory, for each kind: a word for the kinds of one operand and `cas`, and for `mt` the blend of the
triple in memory with the operand triple, in three words, the fourth 0. -/
def Claims.AtomicFunctions : Prop :=
  (∀ (m x y : Word),
    atomWord .add m [x] = m + x ∧ atomWord .and m [x] = m &&& x ∧ atomWord .or m [x] = m ||| x ∧
    atomWord .xor m [x] = m ^^^ x ∧ atomWord .exch m [x] = x ∧ (atomWord .min m [x]).toInt = min m.toInt x.toInt ∧
    (atomWord .max m [x]).toInt = max m.toInt x.toInt ∧ (atomWord .minu m [x]).toNat = min m.toNat x.toNat ∧
    (atomWord .maxu m [x]).toNat = max m.toNat x.toNat ∧ atomWord .cas m [x, y] = (if m = x then y else m) ∧
    atomWord .fadd m [x] = (add32 m x).1 ∧ atomWord .fmin m [x] = (fMinMax false m x).1 ∧
    atomWord .fmax m [x] = (fMinMax true m x).1) ∧
  (∀ (f : AtomKind) (old : List Byte) (xs : List Word), f ≠ .mt →
    (atomBytes f old xs).length = 4 ∧ wOf (atomBytes f old xs) = atomWord f (wOf old) xs) ∧
  ∀ (old : List Byte) (a b c : Word), wordsOf 4 (atomBytes .mt old [a, b, c]) =
    (blendT (tripleAt (wordsOf 3 old) 0) ⟨a, b, c⟩).1.words ++ [0]

/-- R166 to R169: `stx`, `ared.x` and `ldx` at a good P address: a store or reduction joins the FIFO toward its peer, a load
enters the core's route queue as an operation of engine 6 whose destination pair is empty. A word from a queue is popped first; that the
thread waits at the `stx` for the pop and reads its word then is the model's choice (log entry 85). A misaligned address is the
alignment fault, a bad one the address fault; a load waits behind loads with acquire and for a free slot. -/
def Claims.PeerAccess : Prop :=
  ∀ (s : State) (t : Nat) (x : Option Ext), Lone s t x → (s.th t).warp < s.warps.length →
    let away (i : Instr) (pa : BitVec 64) (n : Nat) : Prop :=
      (paVa pa % n ≠ 0 → exec i s = .next (s.faultTrap t 6 0 pa)) ∧
      (paVa pa % n = 0 → paOk s pa = false → exec i s = .next (s.faultTrap t 7 0 pa))
    let enters (i : Instr) (b : Body) : Prop := ∃ u e, exec i s = .next u ∧
      (u.wp (s.th t).warp).fifo = (s.wp (s.th t).warp).fifo ++ [e] ∧ e.body = b ∧ e.rel = ordRel x ∧ e.tid = t ∧
      (u.th t).peerCount = (s.th t).peerCount + 1 ∧ (∀ r, u.regVal t r = s.regVal t r ∧ u.regFull t r = s.regFull t r) ∧
      (u.th t).pc = ((s.retire t (extLen x)).th t).pc ∧ SameMemory s u ∧ OthersSame s u t ∧ SpecialsSame (u.th t) (s.th t)
    (∀ (a b : Operand), Given s t [a, b] [srcN a 2, src b] [] → let pa := peerAddr s t a
      ((s.th t).popped = [] → ∀ w, allSlots s t 0 [src b] = [.val w] →
        (paVa pa % 4 = 0 → paOk s pa = true → enters (.stx x a b) (.peerStore pa w)) ∧ away (.stx x a b) pa 4) ∧
      ∀ q : BitVec 2, b = .q q → chanCheck s t [q.toNat] = .ok →
        ((s.th t).popped = [] → (paVa pa % 4 = 0 → paOk s pa = true →
          exec (.stx x a b) s = .next ((s.startPops t [q.toNat]).setStatus t (.blocked (.pops t)))) ∧ away (.stx x a b) pa 4) ∧
        (∀ k w, (s.th t).popped = [(k, some w)] → enters (.stx x a b) (.peerStore pa w))) ∧
    (∀ (f : AtomKind) (a b : Operand) (xs : List Word), Given s t [a, b] [srcN a 2, atomSrc f b] [] →
      allSlots s t 0 [atomSrc f b] = xs.map Slot.val → let pa := peerAddr s t a
      (paVa pa % kindBytes f = 0 → paOk s pa = true → enters (.aredX x f a b) (.peerRed pa f xs)) ∧
      away (.aredX x f a b) pa (kindBytes f)) ∧
    ∀ (w : RF) (eb : Bool), w.x = x → Given s t [w.d, w.a] [srcN w.a 2 w.ea] (regsOf (s.th t) w.d 2) →
      let pa := peerAddr s t w.a
      let dst := regsOf (s.th t) w.d 2
      let free : Bool := engineFree s (s.coreOf t) 6 && !(s.th t).loads.any fun l => l.acq || ordAcq x
      (paVa pa % 4 = 0 → paOk s pa = true → free = true →
        ∃ u o r l, exec (.ldx w eb) s = .next u ∧ u.ops = s.ops ++ [o] ∧ u.routes = s.routes ++ [r] ∧ o.engine = 6 ∧
          o.tid = t ∧ o.dst = dst ∧ r.body = .ldx pa s.ops.length ∧ r.dst = .peer (paRank pa) (paLdie pa) ∧
          (u.th t).loads = (s.th t).loads ++ [l] ∧ l.kind = .peer s.ops.length ∧ l.acq = ordAcq x ∧
          (∀ n, RegRef.v n ∈ dst → n < (s.th t).v.length → u.regFull t (.v n) = false) ∧
          (∀ n, dst.head? = some (.v n) → n < (s.th t).v.length → u.regVal t (.v n) = o.handle) ∧
          (u.th t).pc = ((s.retire t (extLen x)).th t).pc ∧ SameMemory s u ∧ OthersSame s u t ∧
          SpecialsSame (u.th t) (s.th t)) ∧
      (paVa pa % 4 = 0 → paOk s pa = true → free = false → exec (.ldx w eb) s = .next (s.setStatus t (.blocked .retry))) ∧
      away (.ldx w eb) pa 4

/-- R56: `fence` with acquire waits for the thread's loads and discards the core's copies, with release it puts a marker into the
FIFO, with both it waits for that marker and acquires when the marker has drained; `fence.ntdrain` waits for the thread's non-temporal
stores, and at dom or sys for its peer stores. -/
def Claims.Fences : Prop :=
  ∀ (s : State) (t : Nat) (x : Option Ext), Lone s t x →
    (ordAcq x = true → ordRel x = false →
      ((s.th t).loads ≠ [] → exec (.fence x) s = .next (s.setStatus t (.blocked .retry))) ∧
      ((s.th t).loads = [] → exec (.fence x) s =
        .next ((if scopeActs s t (scopeOf x) then s.discardCopies (s.coreOf t) else s).retire t (extLen x)))) ∧
    (ordRel x = true → ordAcq x = true → fenceAcquires s t = true → exec (.fence x) s =
      .next ((if scopeActs s t (scopeOf x) then s.discardCopies (s.coreOf t) else s).retire t (extLen x))) ∧
    (ordRel x = true → fenceAcquires s t = false → (s.th t).warp < s.warps.length →
      ∃ u e, exec (.fence x) s = .next u ∧ (u.wp (s.th t).warp).fifo = (s.wp (s.th t).warp).fifo ++ [e] ∧
        e.body = .mark (if ordAcq x then .fenceAcqRel else .fenceRel) ∧ e.rel = scopeActs s t (scopeOf x) ∧
        ((u.th t).status = if ordAcq x then .blocked (.entry (extLen x)) else .ready) ∧ SameMemory s u ∧ OthersSame s u t) ∧
    let waits : Bool := ntPending s t || (4 ≤ (scopeOf x).toNat && peersPending s t (s.th t).peerCount)
    (waits = false → exec (.fenceNtdrain x) s = .next (s.retire t (extLen x))) ∧
    (waits = true → exec (.fenceNtdrain x) s = .next (s.setStatus t (.blocked .retry)))

/-! ### Steps of the reference machine (chapter 4) -/

/-- R51, R58: LEAVE_FIFO moves the head of a warp's FIFO, once the loads before it have performed: a store to the write queue of
its home core while there is room, a non-temporal store to the non-temporal queue, an engine command to its engine's queue; with
a full write queue nothing happens. A store of a pair's odd core to the A-buffer stays while an earlier release of its warp for that
buffer is still in its own core's queue: the model's reading of R57 and R147 (log entry 100). -/
def Claims.LeaveFifo : Prop :=
  ∀ (s : State) (w : Nat) (e : Entry) (rest : List Entry), (s.wp w).fifo = e :: rest →
    (e.lanes s).all (fun x => loadsPerformed s x.1 x.2 e.isStore) = true → e.dieRel = false →
    let out := s.modWp w fun x => { x with fifo := rest }
    let behind : Prop := e.home ≠ s.coreOf e.tid ∧
      ∃ g ∈ (s.co (s.coreOf e.tid)).wq, g.dieRel = true ∧ g.home = e.home ∧ (s.th g.tid).warp = (s.th e.tid).warp
    (∀ bs, e.body = .store bs →
      (e.nt = true → exec (.leaveFifo w) s = .next (out.modCo (s.coreOf e.tid) fun k => { k with nt := k.nt ++ [e] })) ∧
      (e.nt = false → ¬behind → (s.co e.home).wq.length < Config.wqDepth →
        exec (.leaveFifo w) s = .next (out.modCo e.home fun k => { k with wq := k.wq ++ [e] })) ∧
      (e.nt = false → behind ∨ ¬(s.co e.home).wq.length < Config.wqDepth → exec (.leaveFifo w) s = .next s)) ∧
    (∀ i, e.body = .cmd i → (s.op i).engine ≠ 5 → (s.op i).engine ≠ 4 → i < s.ops.length →
      ∃ u, exec (.leaveFifo w) s = .next u ∧ (u.op i).stage = .queued ∧ (w < s.warps.length → (u.wp w).fifo = rest) ∧
        SameMemory s u)

/-- R51, R54: a release entry for near memory drains only when no older entry for N is left, at die scope and beyond no older A or C
entry, and at dom and sys no earlier peer store of its thread is unacknowledged; an entry waits for an older release, and for an older
one that touches its bytes or that is ordered with it by O = 1 (R57). A peer store or reduction leaves the FIFO into its route; one
that is a release at dom or sys first waits until its core's write queue is empty and its thread's peer stores on other routes are
acknowledged. -/
def Claims.ReleasesWait : Prop :=
  (∀ (s : State) (core i : Nat) (e : Entry), (s.co core).wq[i]? = some e → e.sp = .n →
    let older := (s.co core).wq.take i
    let behind := (∃ f ∈ older, f.releases = true ∨ f.sp = .n ∧ (f.meets e = true ∨ f.ordered e = true))
    let held := e.rel = true ∧ ((∃ f ∈ older, f.sp = .n) ∨ ∃ x ∈ e.released,
      (2 ≤ x.1.toNat ∧ ∃ f ∈ older, f.sp = .a ∨ f.sp = .c) ∨ (4 ≤ x.1.toNat ∧ peersPending s x.2.1 x.2.2 = true))
    (behind ∨ held → exec (.drain core i) s = .next s) ∧
    (¬behind → ¬held → s.planted = [] → core < s.cores.length → (∃ bs, e.body = .store bs) ∨ e.body = .mark .fenceRel →
      ∃ u, exec (.drain core i) s = .next u ∧ (u.co core).wq = (s.co core).wq.eraseIdx i ∧ u.threads = s.threads)) ∧
  ∀ (s : State) (w : Nat) (e : Entry) (rest : List Entry) (pa : BitVec 64) (b : RouteBody), (s.wp w).fifo = e :: rest →
    w < s.warps.length → (e.lanes s).all (fun x => loadsPerformed s x.1 x.2 e.isStore) = true →
    (∃ v, e.body = .peerStore pa v ∧ b = .stx pa v) ∨ (∃ k xs, e.body = .peerRed pa k xs ∧ b = .red pa k xs) →
    let dst : Dst := .peer (paRank pa) (paLdie pa)
    let waits := e.rel = true ∧ 4 ≤ e.scope.toNat ∧ ((s.co (s.coreOf e.tid)).wq ≠ [] ∨
      ∃ r ∈ s.routes, r.tid = e.tid ∧ r.dst ≠ dst ∧ ((∃ p v, r.body = .stx p v) ∨ ∃ p k xs, r.body = .red p k xs))
    (waits → exec (.leaveFifo w) s = .next s) ∧
    (¬waits → ∃ u r, exec (.leaveFifo w) s = .next u ∧ (u.wp w).fifo = rest ∧ u.routes = s.routes ++ [r] ∧ r.body = b ∧
      r.dst = dst ∧ r.tid = e.tid ∧ r.peer = e.peers ∧ u.threads = s.threads ∧ SameMemory s u)

/-- R57, R161, R163, R164: what an atomic or reduction entry does when it applies to a core's A-buffer or drains to near memory: the
operations act on memory one after another; each lane of an atomic takes in its destination, which becomes full, the word that memory
held just before its own operation, and its reply is no longer awaited. A reduction, merged or not, changes no thread, and each operation of
it that acquires discards the copies of the core that issued it. -/
def Claims.AtomicsExecute : Prop :=
  ∀ (s : State) (core i : Nat) (e : Entry) (k : AtomKind), (s.co core).wq[i]? = some e → s.planted = [] →
    core < s.cores.length →
    let act (m : Memory) (a : Nat) (xs : List Word) : Memory :=
      Memory.write m a (atomBytes k (Memory.read m a (kindBytes k)) xs)
    let lanes (ops : List AtomOp) (m : Memory) (u : State) : Prop :=
      (∀ j o, ops[j]? = some o →
        let old := wOf (Memory.read ((ops.take j).foldl (fun m o => act m e.addr o.xs) m) e.addr 4)
        (∀ n, o.dst = [.v n] → n < (s.th o.tid).v.length → u.regVal o.tid (.v n) = old ∧ u.regFull o.tid (.v n) = true) ∧
        (∀ n, ops = [o] → o.dst = [.s n] → n < (s.wpOf o.tid).s.length → (s.th o.tid).warp < s.warps.length →
          u.regVal o.tid (.s n) = old ∧ u.regFull o.tid (.s n) = true) ∧
        (u.th o.tid).loads = (s.th o.tid).loads.filter fun l => !(l.kind = .reply e.seq && l.ord = o.loads)) ∧
      ∀ t, (∀ o ∈ ops, o.tid ≠ t) → u.th t = s.th t
    let rmw (ops : List AtomOp) : Prop := (ops.map AtomOp.tid).Nodup ∧ ∀ o ∈ ops, o.tid < s.threads.length
    ((s.co core).wq.findIdx? Entry.isAC = some i → e.sp = .a → e.home = core → e.dieRel = false →
      let done (m : Memory) (u : State) : Prop := exec (.apply core) s = .next u ∧ (u.co core).a = m ∧
        (u.co core).wq = (s.co core).wq.eraseIdx i ∧ u.dies = s.dies
      (∀ ops, e.body = .atom k ops → rmw ops →
        ∃ u, done (ops.foldl (fun m o => act m e.addr o.xs) (s.co core).a) u ∧ lanes ops (s.co core).a u) ∧
      ∀ ops, e.body = .red k ops →
        ∃ u, done (ops.foldl (fun m o => act m o.addr o.xs) (s.co core).a) u ∧ u.threads = s.threads ∧ u.warps = s.warps ∧
          ∀ o ∈ ops, o.acq = true → (u.co (s.coreOf o.tid)).copies = []) ∧
    (drainReady s core i e = true → e.die < s.dies.length →
      let mem := (s.die e.die).mem
      let done (m : Memory) (u : State) : Prop := exec (.drain core i) s = .next u ∧ (u.die e.die).mem = m ∧
        (u.co core).wq = (s.co core).wq.eraseIdx i ∧ (∀ d, d ≠ e.die → u.die d = s.die d) ∧
        ∀ c sp, (u.co c).buf sp = (s.co c).buf sp
      (∀ ops, e.body = .atom k ops → rmw ops → ∃ u, done (ops.foldl (fun m o => act m e.addr o.xs) mem) u ∧ lanes ops mem u) ∧
      ∀ ops, e.body = .red k ops →
        ∃ u, done (ops.foldl (fun m o => act m o.addr o.xs) mem) u ∧ u.threads = s.threads ∧ u.warps = s.warps ∧
          ∀ o ∈ ops, o.acq = true → (u.co (s.coreOf o.tid)).copies = [])

/-- R51: the oldest A or C store of a core's write queue applies, and a drained N store is written; the entry leaves the queue,
its bytes are in the memory of its place, every other byte and every thread is as before. -/
def Claims.StoresReachMemory : Prop :=
  ∀ (s : State) (core i : Nat) (e : Entry) (bs : List Byte), (s.co core).wq[i]? = some e → e.body = .store bs →
    s.planted = [] → core < s.cores.length →
    ((s.co core).wq.findIdx? Entry.isAC = some i → e.home = core → e.dieRel = false →
      Memory.wf ((s.co core).buf e.sp) = true →
      ∃ u, exec (.apply core) s = .next u ∧ (u.co core).wq = (s.co core).wq.eraseIdx i ∧
        (∀ a, Memory.read1 ((u.co core).buf e.sp) a =
          if e.addr ≤ a ∧ a < e.addr + bs.length then bs.getD (a - e.addr) 0 else Memory.read1 ((s.co core).buf e.sp) a) ∧
        u.dies = s.dies ∧ u.threads = s.threads ∧ u.warps = s.warps ∧ ∀ c, c ≠ core → u.co c = s.co c) ∧
    (drainReady s core i e = true → e.die < s.dies.length → Memory.wf (s.die e.die).mem = true →
      ∃ u, exec (.drain core i) s = .next u ∧ (u.co core).wq = (s.co core).wq.eraseIdx i ∧
        (∀ a, Memory.read1 (u.die e.die).mem a =
          if e.addr ≤ a ∧ a < e.addr + bs.length then bs.getD (a - e.addr) 0 else Memory.read1 (s.die e.die).mem a) ∧
        u.threads = s.threads ∧ u.warps = s.warps ∧ (∀ d, d ≠ e.die → u.die d = s.die d) ∧
        ∀ c sp, (u.co c).buf sp = (s.co c).buf sp)

/-- R159: a non-temporal store drains to near memory in any order, and the core's copy of its line is discarded. -/
def Claims.NonTemporalDrain : Prop :=
  ∀ (s : State) (core i : Nat) (e : Entry) (bs : List Byte), (s.co core).nt[i]? = some e → e.body = .store bs →
    s.planted = [] → core < s.cores.length → e.die < s.dies.length → Memory.wf (s.die e.die).mem = true →
    ∃ u, exec (.ntDrain core i) s = .next u ∧ (u.co core).nt = (s.co core).nt.eraseIdx i ∧
      (∀ a, Memory.read1 (u.die e.die).mem a =
        if e.addr ≤ a ∧ a < e.addr + bs.length then bs.getD (a - e.addr) 0 else Memory.read1 (s.die e.die).mem a) ∧
      (u.co core).copyOf e.die (e.addr / 64) = none ∧ u.threads = s.threads

/-- R51, R164: a fill gives the core near memory's bytes of a line, an eviction takes the copy away, and a merge joins a
reduction to an earlier one of its kind and line with no release between, which then has the attributes of both, and what waited for
the later one waits for the joined one; none of them changes memory or a thread. Where the joined entry stands (at the later one's
place when that is a release) and that nothing between may be kept from it is the model's choice, log entry 79. -/
def Claims.CopiesAndMerges : Prop :=
  (∀ (s : State) (core line : Nat), core < s.cores.length →
    let d := s.pdie (s.co core).ldie
    (64 * line < (s.die d).memBytes → s.planted = [] → ∃ u, exec (.fill core line) s = .next u ∧
      ((u.co core).copyOf d line).map Copy.bytes = some (s.near d (64 * line) 64) ∧
      u.threads = s.threads ∧ u.dies = s.dies ∧ SameMemory s u) ∧
    ∃ u, exec (.evict core line) s = .next u ∧ (u.co core).copyOf d line = none ∧
      (∀ l, l ≠ line → (u.co core).copyOf d l = (s.co core).copyOf d l) ∧
      u.threads = s.threads ∧ u.dies = s.dies ∧ SameMemory s u) ∧
  (∀ (s : State) (core i j : Nat) (e f : Entry) (k : AtomKind) (ops ops' : List RedPart),
    core < s.cores.length → i < j → (s.co core).wq[i]? = some e → (s.co core).wq[j]? = some f →
    e.body = .red k ops → f.body = .red k ops' → e.at_ f.sp f.die = true →
    (∀ o ∈ ops ++ ops', o.addr / 64 = e.addr / 64) → e.dieRel = false → f.dieRel = false →
    let between := ((s.co core).wq.take j).drop (i + 1)
    let joined := { e with
      body := .red k (ops ++ ops'), rel := e.rel || f.rel, acq := e.acq || f.acq, o := e.o || f.o, bars := e.bars || f.bars }
    (∀ g ∈ between, g.bars = false ∧ g.releases = false) →
    (f.rel = false → ∀ g ∈ between, g.meets f = false ∧ g.ordered f = false) →
    (f.rel = true → ∀ g ∈ between, g.meets e = false ∧ g.ordered e = false ∧ (e.rel = true → g.sp ≠ .n)) →
    ∃ u, exec (.merge core i j) s = .next u ∧
      (u.co core).wq = (if f.rel then ((s.co core).wq.set j joined).eraseIdx i else ((s.co core).wq.set i joined).eraseIdx j) ∧
      (∀ n, f.seq ∈ (s.op n).mark → e.seq ∈ (u.op n).mark) ∧
      (∀ n, (s.op n).engine = 1 → f.seq ∈ (s.op n).sent → e.seq ∈ (u.op n).sent) ∧
      (∀ n, (u.op n).stage = (s.op n).stage ∧ (u.op n).record = (s.op n).record) ∧ (∀ c, c ≠ core → u.co c = s.co c) ∧
      u.threads = s.threads ∧ u.warps = s.warps ∧ u.dies = s.dies ∧ SameMemory s u)

/-- R50, R52: a load of a buffer, with no store of its bytes on the way and no planted error, performs with the bytes of the
buffer; its destinations become full with the words they make, and the load is gone. -/
def Claims.LoadsPerform : Prop :=
  ∀ (s : State) (t : Nat) (b : Bool) (l : Load) (bs : List Byte), t < s.threads.length → firstLoad (s.th t) = some l →
    loadHeld (s.th t) l = false → l.kind = .mem false → l.sp ≠ .n → s.planted = [] →
    loadView s t l (s.bufRead l.core l.sp l.addr (szBytes l.sz)) = some bs →
    exec (.perform t b) s = .next (finishLoad s t l (loadWords l.sz bs))

/-- R52, R282, R292: a load of near memory takes near memory's bytes, or those of a core copy that may serve it: outside a section any
copy, inside one a copy filled or updated after the thread's last load performed; a load with acquire takes no copy that a store of the
scheduled class has passed (the model's reading, log entry 90). -/
def Claims.NearLoadsPerform : Prop :=
  ∀ (s : State) (t : Nat) (l : Load) (bs : List Byte), t < s.threads.length → firstLoad (s.th t) = some l →
    loadHeld (s.th t) l = false → l.kind = .mem false → l.sp = .n → s.planted = [] →
    (loadView s t l (s.near l.die l.addr (szBytes l.sz)) = some bs →
      ∃ u, exec (.perform t false) s = .next u ∧
        (∀ n, u.regVal t n = (finishLoad s t l (loadWords l.sz bs)).regVal t n) ∧
        (u.th t).loads = (s.th t).loads.filter (fun p => p.ord ≠ l.ord) ∧ SameMemory s u ∧ OthersSame s u t) ∧
    (∀ c, (s.co l.core).copyOf l.die (l.addr / 64) = some c →
      ((s.th t).depth = 0 ∨ (s.th t).lastLoad < c.tick) → ¬(l.acq = true ∧ c.passed = true) →
      loadView s t l ((c.bytes.drop (l.addr % 64)).take (szBytes l.sz)) = some bs →
      exec (.perform t true) s = .next (finishLoad s t l (loadWords l.sz bs)))

/-- R52, R156: each byte that a load finds is that of the newest store among the entries of its own thread's FIFO that it issued before
the load (that a younger one gives no value is the model's choice, log entry 74); where none of them covers the byte, that of the newest
store in the write queue; where none there does either, that of the place. An entry that covers the byte and is no store has to execute
first. -/
def Claims.LoadSources : Prop :=
  ∀ (s : State) (t : Nat) (l : Load) (base : List Byte),
    let mine := (s.wpOf t).fifo.filter (beforeLoad t l)
    let queue := s.queuedFor (s.coreOf t) l.core
    let covers (e : Entry) (a : Nat) : Prop := e.at_ l.sp l.die = true ∧ ∃ r ∈ e.ranges, r.1 ≤ a ∧ a < r.1 + r.2
    let newestOf (es : List Entry) (a : Nat) (e : Entry) : Prop :=
      ∃ old new, es = old ++ e :: new ∧ covers e a ∧ ∀ g ∈ new, ¬covers g a
    let source (a : Nat) (e : Entry) : Prop := newestOf mine a e ∨ (∀ g ∈ mine, ¬covers g a) ∧ newestOf queue a e
    (∀ e bs, e.body = .store bs → (e ∈ mine ↔ e ∈ (s.wpOf t).fifo ∧ e.tid = t ∧ e.loads ≤ l.ord)) ∧
    (∀ v, loadView s t l base = some v → v.length = base.length ∧ ∀ i, i < base.length →
      let a := l.addr + i
      (∀ e bs, source a e → e.body = .store bs → v.getD i 0 = bs.getD (a - e.addr) 0) ∧
      ((∀ g ∈ mine ++ queue, ¬covers g a) → v.getD i 0 = base.getD i 0)) ∧
    (loadView s t l base = none ↔ ∃ i e, i < base.length ∧ source (l.addr + i) e ∧ ∀ bs, e.body ≠ .store bs)

/-- R156: what the bytes of a load give its destinations, the byte at the lowest address lowest: one byte zero- or sign-extended, two
bytes zero- or sign-extended, one word, two or four. -/
def Claims.LoadExtension : Prop :=
  ∀ (b0 b1 b2 b3 : Byte) (lo hi : List Byte), lo.length = 4 → hi.length = 4 →
    loadWords 0 [b0] = [b0.zeroExtend 32] ∧ loadWords 1 [b0] = [b0.signExtend 32] ∧
    loadWords 2 [b0, b1] = [(b1 ++ b0).zeroExtend 32] ∧ loadWords 3 [b0, b1] = [(b1 ++ b0).signExtend 32] ∧
    loadWords 4 [b0, b1, b2, b3] = [b3 ++ b2 ++ b1 ++ b0] ∧ loadWords 5 (lo ++ hi) = [wOf lo, wOf hi] ∧
    loadWords 6 (lo ++ hi ++ lo ++ hi) = [wOf lo, wOf hi, wOf lo, wOf hi]

/-- What `finishLoad` leaves: the destination register full with the value and its format tag, memory and the other threads as
before. -/
def Claims.LoadedValue : Prop :=
  ∀ (s : State) (t n : Nat) (l : Load) (w : Word), t < s.threads.length → n < (s.th t).v.length → l.dst = [.v n] →
    let u := finishLoad s t l [w]
    u.regVal t (.v n) = w ∧ u.regTag t (.v n) = l.tag ∧ u.regFull t (.v n) = true ∧
      (∀ k, k ≠ n → u.regVal t (.v k) = s.regVal t (.v k)) ∧ (u.th t).pc = (s.th t).pc ∧
      SameMemory s u ∧ OthersSame s u t

/-- R61, R62, R166 to R168: the oldest entry of a route to a peer of another device is delivered: a store leaves the route, its
loss is remembered by its grid, and a peer load completes; a store to the device's own rank is written to the near memory of its
logical die, in the context of its issuer (the model's choice, log entry 34), unless that die was reset since (R312): then it is
lost. -/
def Claims.Deliveries : Prop :=
  ∀ (s : State) (i : Nat) (r : Route), s.routes[i]? = some r →
    (s.routes.take i).all (fun q => !(q.src == r.src && q.dst == r.dst)) = true → routeStale s r = false →
    let out := { s with routes := s.routes.eraseIdx i }
    (∀ pa w, r.body = .stx pa w → paRank pa ≠ s.rank →
      (∀ bs, exec (.deliver i (.done bs)) s = .next out) ∧
      (∀ l, r.launch = some l → exec (.deliver i .failed) s = .next (out.modLa l fun x => { x with peerLost := true }))) ∧
    (∀ pa j, r.body = .ldx pa j → paRank pa ≠ s.rank → (s.op j).stage ≠ .done → ∀ bs,
      ∃ u, exec (.deliver i (.done bs)) s = .next u ∧ u.routes = s.routes.eraseIdx i ∧
        (j < s.ops.length → (u.op j).stage = .done) ∧ SameMemory s u) ∧
    (∀ pa w l, r.body = .stx pa w → paRank pa = s.rank → r.launch = some l → (s.die (s.pdie (paLdie pa))).vintage ≠ r.target →
      ∀ bs, exec (.deliver i (.done bs)) s = .next (out.modLa l fun x => { x with peerLost := true })) ∧
    (∀ pa w, r.body = .stx pa w → paRank pa = s.rank → (s.die (s.pdie (paLdie pa))).vintage = r.target → s.planted = [] → ∀ d a bs,
      ownSite out r.ctx (paLdie pa) (paVa pa) .store = some (d, a) → d < s.dies.length → Memory.wf (s.die d).mem = true →
      ∃ u, exec (.deliver i (.done bs)) s = .next u ∧ u.routes = s.routes.eraseIdx i ∧ u.threads = s.threads ∧
        (∀ x, Memory.read1 (u.die d).mem x =
          if a ≤ x ∧ x < a + 4 then (wBytes w).getD (x - a) 0 else Memory.read1 (s.die d).mem x) ∧
        ∀ k, k ≠ d → u.die k = s.die k)

/-- R106, R189: a served pop takes the channel's head word, and a deferred instruction completes once its values exist. -/
def Claims.PopsAndDeferredComplete : Prop :=
  (∀ (s : State) (core i : Nat) (w : Waiter) (ch : Chan), (s.co core).popWait[i]? = some w → w.q ≠ 0 →
    ((s.co core).popWait.take i).all (fun x => !(x.q ≠ 0 && x.chan = w.chan)) = true →
    s.chanAt core w.chan = some ch → chanLen ch ≠ 0 → s.planted = [] →
    exec (.channelPopServed core i) s = .next
      (let r := (s.modCo core fun k => { k with popWait := k.popWait.eraseIdx i }).chanPop core w.chan ch
       (r.1.givePop w.tid w.ticket r.2).settlePops w.tid)) ∧
  (∀ (s : State) (t i n : Nat) (d : Deferred) (vals : List Word), t < s.threads.length → (s.th t).deferred[i]? = some d →
    d.slots.map (slotVal s t) = vals.map some → d.dst = [.v n] → n < (s.th t).v.length → d.fn = .add →
    ∃ u, exec (.deferredComplete t i) s = .next u ∧ u.regVal t (.v n) = vals.getD 0 0 + vals.getD 1 0 ∧
      u.regFull t (.v n) = true ∧ (u.th t).deferred = (s.th t).deferred.eraseIdx i ∧ SameMemory s u ∧ OthersSame s u t)

/-! ### Barrier objects, futures and queues (chapter 6) -/

/-- R109, R110: the operations of a barrier object. A phase completes when ARRIVE and BYTES are both 0: PHASE inverts and ARRIVE
takes INIT. An arrive at ARRIVE 0 and an expect beyond 2^32 − 1 are the barrier fault. -/
def Claims.BarrierObjects : Prop :=
  ∀ (o : BarObj) (n : Word),
    o.apply (.init n) = some ⟨false, n.toNat, 0, n.toNat⟩ ∧
    (o.arrive = 0 → o.apply .arrive = none) ∧
    (1 < o.arrive → o.apply .arrive = some { o with arrive := o.arrive - 1 }) ∧
    (o.arrive = 1 → o.bytes ≠ 0 → o.apply .arrive = some { o with arrive := 0 }) ∧
    (o.arrive = 1 → o.bytes = 0 → o.apply .arrive = some { o with phase := !o.phase, arrive := o.init }) ∧
    (o.bytes + n.toNat < 2 ^ 32 → o.apply (.expect n) = some { o with bytes := o.bytes + n.toNat }) ∧
    (2 ^ 32 ≤ o.bytes + n.toNat → o.apply (.expect n) = none) ∧
    (∀ k, o.bytes < k → (o.count k).2 = true ∧ (o.count k).1.bytes = 0) ∧
    (∀ k, k < o.bytes → o.count k = ({ o with bytes := o.bytes - k }, false)) ∧
    (0 < o.bytes → o.arrive = 0 → o.count o.bytes = ({ o with bytes := 0, phase := !o.phase, arrive := o.init }, false))

/-- R109 to R111: `bar.init`, `bar.arrive` and `bar.expect`, on an A object and on an N object, put one entry with their operation into
the warp's FIFO and the thread waits until it has applied; an arrive is a release, at die scope for an N object and for a pair team. A
bad count of `init` is the barrier fault at issue; a misaligned address is the alignment fault, an A object past the end of the
A-buffer the address fault, and an N object without translation parks the thread, with the access of a store. That these three access an
object as a store does, and `bar.wait` and `bar.test` as a load does, is the model's reading (log entry 97). -/
def Claims.BarrierIssue : Prop :=
  ∀ (s : State) (t : Nat) (x : Option Ext) (nsp : Bool) (a b : Operand), Lone s t x → (s.th t).warp < s.warps.length →
    let sp : Space := if nsp then .n else .a
    let ea := addrReg s t a
    let n := addrReg s t b
    let waits (i : Instr) (k : BarKind) (rel : Bool) : Prop :=
      ∀ at_, Reaches s t sp ea 16 .store at_ → (nsp = true → s.planted = []) → ∃ u e, exec i s = .next u ∧
        (u.wp (s.th t).warp).fifo = (s.wp (s.th t).warp).fifo ++ [e] ∧ e.body = .bar s.seq [(t, at_, k)] ∧ e.sp = sp ∧
        e.addr = at_ ∧ e.rel = (rel && nsp) ∧ (rel = true → nsp = true → e.scope = 2) ∧
        e.dieRel = (rel && !nsp && s.isPair t) ∧ (u.th t).status = .blocked (.entry (extLen x)) ∧ (u.th t).pc = (s.th t).pc ∧
        (∀ r, u.regVal t r = s.regVal t r ∧ u.regFull t r = s.regFull t r) ∧ SameMemory s u ∧ OthersSame s u t ∧
        SpecialsSame (u.th t) (s.th t)
    let away (i : Instr) : Prop :=
      (ea.toNat % 16 ≠ 0 → exec i s = .next (s.faultTrap t 6 0 (pcAddr ea))) ∧
      (ea.toNat % 16 = 0 → nsp = false → bufSize .a < ea.toNat + 16 → exec i s = .next (s.faultTrap t 7 0 (pcAddr ea))) ∧
      (ea.toNat % 16 = 0 → nsp = true → ∀ k, s.laneXlate t (nVa s t ea) .store = .error k →
        exec i s = .next (s.parkOwing t (s.faultRec t (nVa s t ea) k .store) []))
    (Given s t [a, b] [src a, src b] [] →
      (1 ≤ n.toNat ∧ n.toNat < 2 ^ 31 → waits (.barInit x nsp a b) (.init n) false) ∧
      (¬(1 ≤ n.toNat ∧ n.toNat < 2 ^ 31) → (∃ at_, Reaches s t sp ea 16 .store at_) → exec (.barInit x nsp a b) s =
        .next (s.faultTrap t 8 (if nsp then 8 else 0) (pcAddr (s.th t).pc))) ∧
      waits (.barExpect x nsp a b) (.expect n) false ∧ away (.barInit x nsp a b) ∧ away (.barExpect x nsp a b)) ∧
    (Given s t [a] [src a] [] → waits (.barArrive x nsp a) .arrive true ∧ away (.barArrive x nsp a))

/-- R110: when the entry applies to the A-buffer, or drains to near memory, the object has its new value, every other byte is as before,
and the thread goes on; a fault traps the thread at its `bar`. -/
def Claims.BarrierApplies : Prop :=
  ∀ (s : State) (core i t len g : Nat) (e : Entry) (k : BarKind), (s.co core).wq[i]? = some e →
    e.body = .bar g [(t, e.addr, k)] → s.planted = [] → core < s.cores.length → (s.th t).status = .blocked (.entry len) →
    let out := s.modCo core fun c => { c with wq := c.wq.eraseIdx i }
    let site (run : Instr) (m : Memory) (after : State → Memory) (trapped : State → State) (nsp : Bool) : Prop :=
      let old := Memory.read m e.addr 16
      Memory.wf m = true →
      (∀ o, (BarObj.of old).apply k = some o → ∃ u, exec run s = .next u ∧ u.th t = Thread.advance len (s.th t) ∧
        Memory.read (after u) e.addr 16 = barBytes old k o ∧
        (∀ x, x < e.addr ∨ e.addr + 16 ≤ x → Memory.read1 (after u) x = Memory.read1 m x) ∧ OthersSame s u t) ∧
      ((BarObj.of old).apply k = none →
        exec run s = .next (trapped (out.faultTrap t 8 (barCode nsp k) (pcAddr (s.th t).pc))))
    ((s.co core).wq.findIdx? Entry.isAC = some i → e.sp = .a → e.home = core → e.dieRel = false →
      site (.apply core) (s.co core).a (fun u => (u.co core).a) (fun u => u) false) ∧
    (drainReady s core i e = true → e.die < s.dies.length →
      site (.drain core i) (s.die e.die).mem (fun u => (u.die e.die).mem) (fun u => u.refreshCopy core e.die e.addr 16) true)

/-- R110, R111: `bar.wait`, on an A object and on an N object, goes on when PHASE differs from the parity and waits otherwise;
`bar.test` writes its predicate either way. PHASE is the object's, where no entry for it is on its way (an N object is read in near
memory: the model's choice, log entry 73); while its value is still to come both wait. The look's translation stays in the TLBs, and the
faults are those of a load. -/
def Claims.BarrierWaitAndTest : Prop :=
  ∀ (s : State) (t : Nat) (x : Option Ext) (nsp : Bool) (a : Operand) (p : BitVec 3) (par : Bool), Lone s t x →
    Given s t [a] [src a] [] → s.planted = [] →
    let sp : Space := if nsp then .n else .a
    let ea := addrReg s t a
    let wait := exec (.barWait x nsp a par) s
    let test := exec (.barTest x nsp p a par) s
    let kept := s.barKept t nsp a
    (nsp = false → kept = s) ∧ (∃ ds cs, kept = { s with dies := ds, cores := cs }) ∧ SameMemory s kept ∧
    (∀ at_, Reaches s t sp ea 16 .load at_ →
      (∀ ph, barPhase s t nsp a = some ph →
        (ph ≠ par → wait = .next ((barAcquire kept t nsp).retire t (extLen x))) ∧
        (ph = par → wait = .next (s.setStatus t (.blocked (.bar nsp a par)))) ∧
        test = .next (((if ph ≠ par then barAcquire kept t nsp else kept).setP t p (decide (ph ≠ par))).retire t (extLen x))) ∧
      (barPhase s t nsp a = none → wait = .next (s.setStatus t (.blocked (.bar nsp a par))) ∧
        test = .next (s.setStatus t (.blocked .retry))) ∧
      ((s.wpOf t).fifo = [] → (s.co (s.coreOf t)).wq = [] → (s.co (s.homeOf t)).wq = [] → barPhase s t nsp a =
        some (BarObj.of (if nsp then s.near (s.pdie (s.ldieOf t)) at_ 16 else s.bufRead (s.homeOf t) .a at_ 16)).phase)) ∧
    ∀ i, i = .barWait x nsp a par ∨ i = .barTest x nsp p a par →
      (ea.toNat % 16 ≠ 0 → exec i s = .next (s.faultTrap t 6 0 (pcAddr ea))) ∧
      (ea.toNat % 16 = 0 → nsp = false → bufSize .a < ea.toNat + 16 → exec i s = .next (s.faultTrap t 7 0 (pcAddr ea))) ∧
      (ea.toNat % 16 = 0 → nsp = true → ∀ k, s.laneXlate t (nVa s t ea) .load = .error k →
        exec i s = .next (s.parkOwing t (s.faultRec t (nVa s t ea) k .load) []))

/-- R105: `fwait` waits until its handle's register is full and its operation has completed, then gives the status, or 0xFFFF of a
handle that names no operation, and acquires; `ftest` tests the register and acquires when it is full; `fcancel` asks the engine to
cancel. A register that holds no handle is the illegal-operand trap. -/
def Claims.Futures : Prop :=
  ∀ (s : State) (t : Nat) (x : Option Ext) (d a : Operand) (p : BitVec 3), Lone s t x → opBad s t a = false →
    let h := addrReg s t a
    let full := (regsOf (s.th t) a 1).all (s.regFull t)
    let bad (i : Instr) : Prop := exec i s = .next (s.faultTrap t 2 a.code.toNat (pcAddr (s.th t).pc))
    (handleOk h = false → (opBad s t d = false → bad (.fwait x d a)) ∧ bad (.ftest x p a) ∧ bad (.fcancel x a)) ∧
    (handleOk h = true → (∀ r ∈ regsOf (s.th t) a 1, (ownLred s t).contains r = false) → a.isV = true ∨ a.isS = true →
      (Given s t [d, a] [] ((regsOf (s.th t) d 1).filter fun r => some r ≠ regOf (s.th t) a) →
        let done (st : Word) : Prop := exec (.fwait x d a) s = .next
          (((s.writeDst t d (regsOf (s.th t) d 1) (outW st)).discardCopies (s.coreOf t)).retire t (extLen x))
        let waits : Prop := exec (.fwait x d a) s = .next (s.setStatus t (.blocked (.fut a)))
        (full = false → waits) ∧
        (full = true →
          (∀ i, latestOp s t h = some i → ((s.op i).stage = .done → done ((s.op i).status.zeroExtend 32)) ∧
            ((s.op i).stage ≠ .done → waits)) ∧
          (latestOp s t h = none → done 0xFFFF))) ∧
      exec (.ftest x p a) s = .next
        (((if full then s.discardCopies (s.coreOf t) else s).setP t p full).retire t (extLen x)) ∧
      (∀ i, latestOp s t h = some i → exec (.fcancel x a) s =
        .next ((s.modOp i fun o => { o with cancel := o.stage != OpStage.done }).retire t (extLen x))) ∧
      (latestOp s t h = none → exec (.fcancel x a) s = .next (s.retire t (extLen x))))

/-- R106, R108: `qbind` binds a queue to a channel's offset, or unbinds it with z; `qlen` reads how many entries wait in a queue: of
a channel TAIL − HEAD, and of q0 the words of its records that the Collie has not popped (of a record popped in part: the model's
choice, log entry 75). A channel whose record is malformed is the channel fault. -/
def Claims.QueueOperations : Prop :=
  ∀ (s : State) (t : Nat) (x : Option Ext) (a d : Operand) (q : BitVec 2), Lone s t x →
    (Given s t [a] [src a] [] → let ea := addrReg s t a
      (ea.toNat % 16 = 0 → exec (.qbind x (.q q) a) s = .next ((s.modTh t fun y => { y with
        qb := y.qb.set (q.toNat - 1) (if a = .z then none else some ea.toNat) }).retire t (extLen x))) ∧
      (ea.toNat % 16 ≠ 0 → exec (.qbind x (.q q) a) s = .next (s.faultTrap t 6 0 (pcAddr ea)))) ∧
    (Given s t [d, .q q] [] (regsOf (s.th t) d 1) →
      let gives (n : Nat) : Prop := exec (.qlen x d (.q q)) s = .next
        ((s.writeDst t d (regsOf (s.th t) d 1) (outW (BitVec.ofNat 32 n))).retire t (extLen x))
      (q = 0 → gives (4 * (s.co (s.coreOf t)).q0.length - (s.th t).taken.length)) ∧
      (q ≠ 0 → s.planted = [] → ∀ off, boundChan (s.th t) q.toNat = some off →
        (chanGood s t off = some true → ∀ ch, s.chanAt (s.homeOf t) off = some ch → gives (ch.tail - ch.head).toNat) ∧
        (chanGood s t off = some false → exec (.qlen x d (.q q)) s =
          .next (s.faultTrap t 9 q.toNat (pcAddr (s.th t).pc))) ∧
        (chanGood s t off = none → exec (.qlen x d (.q q)) s = .next (s.setStatus t (.blocked .retry)))))

/-! ### Quiescence (chapter 19) -/

/-- R289: GDONE is always G or G − 1, after every step from a state in which it is. -/
def Claims.GraceKept : Prop :=
  ∀ (s u : State), s.Grace → step s = .next u → u.Grace

/-- R289: after reset G = GDONE = 0 and REQ is clear. -/
def Claims.GraceAtReset : Prop :=
  State.reset.g = 0 ∧ State.reset.gdone = 0 ∧ State.reset.req = false ∧ State.reset.Grace

/-- R289: a period is in progress exactly when GDONE = G − 1: no period begins while it is, and none ends while it is not; the
counters wrap. -/
def Claims.PeriodInProgress : Prop :=
  ∀ (s : State),
    (s.gdone = s.g - 1 → exec .beginPeriod s = .next s) ∧ (s.gdone ≠ s.g - 1 → exec .endPeriod s = .next s) ∧
    (s.g = 0xFFFFFFFF → s.gdone = s.g → s.req = true → ∃ u, exec .beginPeriod s = .next u ∧ u.g = 0)

/-- R290: BEGIN starts a requested period and discards every core's copies; END ends it when no thread that is live and in a
section has the tag of the period before, and every block whose `lees` entry has this period's ticket is free again; and neither does
anything otherwise. -/
def Claims.GracePeriods : Prop :=
  ∀ (s : State),
    (s.gdone = s.g → s.req = true → ∃ u, exec .beginPeriod s = .next u ∧ u.g = s.g + 1 ∧ u.gdone = s.gdone ∧ u.req = false ∧
      (∀ k ∈ u.cores, k.copies = []) ∧ u.threads = s.threads ∧ u.dies = s.dies) ∧
    (¬(s.gdone = s.g ∧ s.req = true) → exec .beginPeriod s = .next s) ∧
    (s.gdone = s.g - 1 → (∀ x ∈ s.threads, holdsPeriod s x = false) →
      ∃ u, exec .endPeriod s = .next u ∧ u.gdone = s.g ∧ u.g = s.g ∧ u.threads = s.threads ∧ u.req = s.req ∧ SameMemory s u ∧
        (∀ d, d < s.dies.length → (u.die d).lees = (s.die d).lees.filter fun (e : LeesEntry) => e.ticket ≠ s.g) ∧
        ∀ id k l i, (s.ctx id).live = true →
          let back := ∃ d, d < s.dies.length ∧ (s.place.findIdx? fun p => p = d).getD 8 = l ∧
            ∃ e ∈ (s.die d).lees, e.ticket = s.g ∧ e.ctx = id ∧ e.pool = k ∧ e.blk = i
          (back → (u.ctx id).block k l i = none) ∧ (¬back → (u.ctx id).block k l i = (s.ctx id).block k l i)) ∧
    ((∃ x ∈ s.threads, holdsPeriod s x = true) → exec .endPeriod s = .next s)

/-- R290, R294, R298: `qenter` counts the depth up and takes the tag of the period from outside, and the section fault at depth
255; `qleave`, `qpt` and `gwait` put their marker, a release, into the FIFO and wait for it; `qleave` at depth 0 and `gwait` in a
section trap. -/
def Claims.ReadSideSections : Prop :=
  ∀ (s : State) (t : Nat) (x : Option Ext), Lone s t x → (s.th t).warp < s.warps.length →
    let marks (i : Instr) (m : Marker) : Prop := ∃ u e, exec i s = .next u ∧
      (u.wp (s.th t).warp).fifo = (s.wp (s.th t).warp).fifo ++ [e] ∧ e.body = .mark m ∧ e.rel = true ∧
      (u.th t).status = .blocked (.entry (extLen x)) ∧ (u.th t).depth = (s.th t).depth ∧ SameMemory s u ∧ OthersSame s u t
    ((s.th t).depth ≠ 255 → exec (.qenter x) s = .next ((s.modTh t fun y => { y with
      depth := y.depth + 1, qtag := if y.depth = 0 then s.g.setWidth 8 else y.qtag }).retire t (extLen x))) ∧
    ((s.th t).depth = 255 → exec (.qenter x) s = .next (s.faultTrap t 0x0D 3 (pcAddr (s.th t).pc))) ∧
    ((s.th t).depth ≠ 0 → marks (.qleave x) .qleave) ∧
    ((s.th t).depth = 0 → exec (.qleave x) s = .next (s.faultTrap t 0x0D 2 (pcAddr (s.th t).pc))) ∧
    marks (.qpt x) .qpt ∧
    ((s.th t).depth = 0 → (s.th t).status = .ready → marks (.gwait x) .gwait) ∧
    ((s.th t).depth ≠ 0 → (s.th t).status = .ready →
      exec (.gwait x) s = .next (s.faultTrap t 0x0F 1 (pcAddr (s.th t).pc))) ∧
    (∀ k, (s.th t).status = .blocked (.ticket k) → s.ticketEnded k = true →
      exec (.gwait x) s = .next ((s.discardCopies (s.coreOf t)).retire t (extLen x)))

/-- R56, R290, R291, R296: what the markers do when they drain: `qleave` counts the depth down, `qpt` takes the tag, `gstart` makes a
request and writes its ticket, `pfree` makes its block free, `lees` makes it deferred with a request and an entry in the die's queue,
or says in p7 that the queue is full, and all of them let their thread go on; `gwait` makes a request and waits for its ticket; of a
`fence` with both the acquire is left. A block that is not allocated is the pool fault of detail 3. -/
def Claims.MarkersDrain : Prop :=
  (∀ (s : State) (core i : Nat) (e : Entry) (m : Marker), (s.co core).wq[i]? = some e → e.body = .mark m →
    drainReady s core i e = true → exec (.drain core i) s =
      .next ((s.modCo core fun k => { k with wq := k.wq.eraseIdx i }).drainMark e.tid m)) ∧
  ∀ (s : State) (t len : Nat), t < s.threads.length → (s.th t).status = .blocked (.entry len) →
    s.drainMark t .fenceRel = s ∧ s.drainMark t .fenceAcqRel = s.setStatus t (.blocked .acquire) ∧
    s.drainMark t .qleave = (s.modTh t fun x => { x with depth := x.depth - 1 }).retire t len ∧
    s.drainMark t .qpt = (s.modTh t fun x => { x with
      qtag := if x.depth = 0 then x.qtag else s.g.setWidth 8 }).retire t len ∧
    s.drainMark t .gwait = ({ s with req := true }).setStatus t (.blocked (.ticket (s.g + 1))) ∧
    (∀ d : Operand, s.drainMark t (.gstart [(t, d)]) =
      (({ s with req := true }).writeDst t d (regsOf (s.th t) d 1) (outW (s.g + 1))).retire t len) ∧
    ∀ k b, let l := s.ldieOf t
      let c := s.ctxOf t
      let st := c.block k l b
      (st = some false → s.drainMark t (.pfree k b) = (s.modCtx c.id fun c => c.setBlock k l b none).retire t len) ∧
      (st ≠ some false → ∀ m, m = .pfree k b ∨ m = .lees k b →
        s.drainMark t m = s.faultTrap t 0x0E 3 (pcAddr (s.th t).pc)) ∧
      (st = some false → Config.leesDepth ≤ (s.die (s.pdie l)).lees.length →
        s.drainMark t (.lees k b) = (s.setP t 7 false).retire t len) ∧
      (st = some false → (s.die (s.pdie l)).lees.length < Config.leesDepth → s.drainMark t (.lees k b) =
        (((({ s with req := true }).modCtx c.id fun c => c.setBlock k l b (some true)).modDie (s.pdie l) fun x =>
          { x with lees := x.lees ++ [(⟨c.id, k, b, s.g + 1⟩ : LeesEntry)] }).setP t 7 true).retire t len)

/-- R293, R294: `gpoll` says whether its ticket has ended: the device's GDONE has reached it, modulo 2^32 (that the formula holds for a
ticket held for 2^31 periods or more too is the model's reading, log entry 64); `gstart` asks for a period. -/
def Claims.Tickets : Prop :=
  (∀ (s : State) (t : Nat) (x : Option Ext) (p : BitVec 3) (a : Operand), Lone s t x → Given s t [a] [src a] [] →
    let r := decide ((s.gdone - addrReg s t a).toNat < 2 ^ 31)
    exec (.gpoll x p a) s =
      .next (((if r then s.discardCopies (s.coreOf t) else s).setP t p r).retire t (extLen x))) ∧
  (∀ (s : State) (t : Nat) (x : Option Ext) (d : Operand), Lone s t x → (s.th t).warp < s.warps.length →
    Given s t [d] [] (regsOf (s.th t) d 1) →
    ∃ u e, exec (.gstart x d) s = .next u ∧ (u.wp (s.th t).warp).fifo = (s.wp (s.th t).warp).fifo ++ [e] ∧
      e.body = .mark (.gstart [(t, d)]) ∧ (u.th t).status = .blocked (.entry (extLen x)) ∧ SameMemory s u ∧
      OthersSame s u t)

/-- R295: the states of the blocks of a context are kept apart: a block has the state it was given last, and no other block changes;
the lowest free block of a pool is free, and no block below it is. -/
def Claims.BlockStates : Prop :=
  ∀ (c : Ctx) (k l b : Nat) (st : Option Bool),
    (c.setBlock k l b st).block k l b = st ∧
    (∀ k' l' b', (k', l', b') ≠ (k, l, b) → (c.setBlock k l b st).block k' l' b' = c.block k' l' b') ∧
    (c.setBlock k l b st).id = c.id ∧ (c.setBlock k l b st).live = c.live ∧
    ∀ (p : Pool) (i : Nat), c.freeBlock p k l = some i →
      i < p.nblk ∧ c.block k l i = none ∧ ∀ j, j < i → c.block k l j ≠ none

/-- R295, R296: `palloc` takes the lowest free block of its pool and says so in p7, or gives 0 when there is none; `pfree` and
`lees` of a pointer into a pool put their marker into the FIFO and wait; a pool that does not exist and a pointer to no block
trap. -/
def Claims.Pools : Prop :=
  ∀ (s : State) (t : Nat) (x : Option Ext) (a b : BitVec 6) (p : Pool), Lone s t x → (s.th t).warp < s.warps.length →
    Given s t [.v a, .v b] [src (.v a), src (.v b)] [] →
    let va := s.regVal t (.v ((s.th t).wbase + a.toNat))
    let vb := s.regVal t (.v ((s.th t).wbase + b.toNat))
    let rd := RegRef.v ((s.th t).wbase + a.toNat)
    (poolOf s t vb = some p →
      (∀ i, (s.ctxOf t).freeBlock p vb.toNat (s.ldieOf t) = some i → exec (.palloc x (.v a) (.v b) false false) s =
        .next (((((s.modCtx (s.ctxOf t).id fun c => c.setBlock vb.toNat (s.ldieOf t) i (some false)).discardCopies
          (s.coreOf t)).fillReg t rd (BitVec.ofNat 32 (p.baseLo + i * p.bs)) .raw).setP t 7 true).retire t (extLen x))) ∧
      ((s.ctxOf t).freeBlock p vb.toNat (s.ldieOf t) = none → exec (.palloc x (.v a) (.v b) false false) s =
        .next ((((s.discardCopies (s.coreOf t)).fillReg t rd 0 .raw).setP t 7 false).retire t (extLen x))) ∧
      (∀ i k m, p.index va = some i →
        k = .pfree x (.v a) (.v b) false false ∧ m = .pfree vb.toNat i ∨ k = .lees x (.v a) (.v b) false false ∧ m = .lees vb.toNat i →
        ∃ u e, exec k s = .next u ∧ (u.wp (s.th t).warp).fifo = (s.wp (s.th t).warp).fifo ++ [e] ∧ e.body = .mark m ∧
          (u.th t).status = .blocked (.entry (extLen x)) ∧ SameMemory s u ∧ OthersSame s u t) ∧
      (p.index va = none → ∀ k, k = .pfree x (.v a) (.v b) false false ∨ k = .lees x (.v a) (.v b) false false →
        exec k s = .next (s.faultTrap t 0x0E 2 (pcAddr (s.th t).pc)))) ∧
    (poolOf s t vb = none → ∀ k, k = .palloc x (.v a) (.v b) false false ∨ k = .pfree x (.v a) (.v b) false false ∨
        k = .lees x (.v a) (.v b) false false →
      exec k s = .next (s.faultTrap t 0x0E 1 (pcAddr (s.th t).pc)))

/-! ### Traps, special registers, device time and privilege (chapters 6 and 17) -/

/-- R271, R273: delivering a trap. With a handler, outside a handler and with a frame that translates, the thread goes to the
handler (HANDLER with its low two bits cleared: the model's choice, log entry 50) with FAULTCODE and FAULTADDR set, MEET none and in-handler set, and its frame of TPC, RPC, code and MEET enters the core's
write queue; its v registers, link, predicates and loops are as before, and so is memory. -/
def Claims.TrapDelivery : Prop :=
  ∀ (s : State) (t : Nat) (i : TrapInfo) (p : Pte) (pa : Nat), t < s.threads.length → s.live t = true →
    s.coreOf t < s.cores.length →
    let x := s.th t
    let c := s.ctxOf t
    let frame := c.addr48 4 + 16 * (2049 * (s.co (s.coreOf t)).core + (if x.collie then 2048 else x.slot))
    c.addr48 2 ≠ 0 → x.inHandler = false → s.planted = [] →
    s.translate (some (s.coreOf t)) c.id (s.co (s.coreOf t)).ldie frame .store = .ok (p, pa) →
    let u := s.deliverTrap t i
    (u.th t).pc = BitVec.ofNat 32 (c.addr48 2) &&& 0xFFFFFFFC ∧ (u.th t).status = .ready ∧
      (u.th t).faultCode = i.code ∧ (u.th t).faultAddr = i.addr ∧ (u.th t).meet = none ∧ (u.th t).inHandler = true ∧
      (u.th t).frame = frame ∧ (u.th t).v = x.v ∧ (u.th t).lnk = x.lnk ∧ (u.th t).p = x.p ∧ (u.th t).lc = x.lc ∧
      (∃ e, (u.co (s.coreOf t)).wq = (s.co (s.coreOf t)).wq ++ [e] ∧ e.addr = pa ∧ e.sp = .n ∧
        e.body = .store ([x.pc, i.rpc, i.code, x.meet.getD 0xFFFFFFFF].flatMap wBytes)) ∧
      SameMemory s u ∧ OthersSame s u t

/-- R64, R271: a trap is delivered at once when the warp's FIFO is empty, the thread's loads have performed and the write queue
has room; otherwise the thread waits, and TRAP_DELIVERY delivers it when they are. -/
def Claims.TrapsWaitForStores : Prop :=
  ∀ (s : State) (t : Nat) (code rpc : Word) (addr : BitVec 64), s.live t = true →
    (s.trapReady t = true → s.takeTrap t code addr rpc = s.deliverTrap t ⟨rpc, code, addr⟩) ∧
    (s.trapReady t = false → s.takeTrap t code addr rpc = s.setStatus t (.trapping ⟨rpc, code, addr⟩)) ∧
    (∀ i, (s.th t).status = .trapping i → s.trapReady t = true → exec (.trapDelivery t) s = .next (s.deliverTrap t i)) ∧
    (∀ i, (s.th t).status = .trapping i → s.trapReady t = false → exec (.trapDelivery t) s = .next s)

/-- The context of this CTXID has ended: none is live, its threads have exited, and its grids are complete with this status and
detail, or with those of an arrival on DONE that failed translation (R265; that the grids of an ended context arrive is the model's
reading, log entry 49). -/
def ContextEnded (s u : State) (id : Word) (status : BitVec 16) (detail : Word) : Prop :=
  (∀ k ∈ u.ctxs, k.id = id → k.live = false) ∧
  (∀ n, n < s.threads.length → (s.co (s.coreOf n)).ctx = id → (u.th n).status = .exited) ∧
  ∀ l, l < s.launches.length → (s.la l).ctx = id → (s.la l).stage ≠ .complete →
    (u.la l).stage = .complete ∧ ((s.la l).op < s.ops.length → (s.op (s.la l).op).stage ≠ .done →
      (u.op (s.la l).op).stage = .done ∧ ((u.op (s.la l).op).status = status ∧ (u.op (s.la l).op).detail = detail ∨
        (∃ m, (s.la m).op = (s.la l).op ∧ (s.la m).stage = .started ∧ (lDone (s.la m).words).en = true) ∧
          (u.op (s.la l).op).status = 4 ∧ (u.op (s.la l).op).detail = 0x4C520006))

/-- R272: a trap without a handler, one taken inside a handler, a frame write that fails translation and an `rte` whose frame read
does each end the context, with status 4 and the FAULTCODE; a started grid whose arrival on DONE fails translation has the detail of
R265 instead, which is the model's choice (log entry 49). -/
def Claims.UnhandledTrapEndsContext : Prop :=
  (∀ (s : State) (t : Nat) (i : TrapInfo),
    let c := s.ctxOf t
    let frame := c.addr48 4 + 16 * (2049 * (s.co (s.coreOf t)).core + (if (s.th t).collie then 2048 else (s.th t).slot))
    (c.addr48 2 = 0 ∨ (s.th t).inHandler = true ∨ s.planted = [] ∧
      ∃ e, s.translate (some (s.coreOf t)) c.id (s.co (s.coreOf t)).ldie frame .store = .error e) →
    ContextEnded s (s.deliverTrap t i) c.id 4 i.code) ∧
  ∀ (s : State) (t : Nat) (x : Option Ext), Lone s t x → (s.th t).inHandler = true → s.planted = [] →
    (∃ e, s.translate (some (s.coreOf t)) (s.co (s.coreOf t)).ctx (s.co (s.coreOf t)).ldie (s.th t).frame .load = .error e) →
    ∃ u, exec (.rte x) s = .next u ∧ ContextEnded s u (s.co (s.coreOf t)).ctx 4 (s.th t).faultCode

/-- R275: `rte` outside a handler is the illegal-instruction trap, whatever its guard; inside one the thread goes on at its RPC, its MEET
restored from the frame, and out of the handler. With nothing of the thread on its way and no core copy, the frame's words are those of
near memory. -/
def Claims.ReturnFromTrap : Prop :=
  ∀ (s : State) (t : Nat) (x : Option Ext), s.issuing = [t] →
    ((s.th t).inHandler = false → exec (.rte x) s = .next (s.faultTrap t 1 0 (pcAddr (s.th t).pc))) ∧
    (∀ u rpc meet, Lone s t x → (s.th t).inHandler = true → s.readFrame t = .ok u rpc meet →
      exec (.rte x) s = .next ((u.modTh t fun y => { y with
        meet := if meet = 0xFFFFFFFF then none else some (meet &&& 0xFFFFFFFC), inHandler := false }).jump t
          (rpc &&& 0xFFFFFFFC) (extLen x))) ∧
    ∀ p pa, Lone s t x → (s.th t).inHandler = true → s.planted = [] → (s.wpOf t).fifo = [] → (s.th t).loads = [] →
      (s.co (s.coreOf t)).wq = [] → (s.co (s.coreOf t)).copies = [] →
      s.translate (some (s.coreOf t)) (s.ctxIdOf t) (s.ldieOf t) (s.th t).frame .load = .ok (p, pa) → pa % 16 = 0 →
      let rpc := wOf (s.near (s.pdie (s.ldieOf t)) (pa + 4) 4)
      let meet := wOf (s.near (s.pdie (s.ldieOf t)) (pa + 12) 4)
      ∃ u, exec (.rte x) s = .next u ∧ (u.th t).inHandler = false ∧ (u.th t).status = .ready ∧
        (u.th t).meet = (if meet = 0xFFFFFFFF then none else some (meet &&& 0xFFFFFFFC)) ∧
        (rpc &&& 0xFFFFFFFC ≠ (s.th t).pc + BitVec.ofNat 32 (extLen x) → (u.th t).pc = rpc &&& 0xFFFFFFFC) ∧
        (u.th t).v = (s.th t).v ∧ (u.th t).p = (s.th t).p ∧ (u.th t).lnk = (s.th t).lnk ∧ SameMemory s u ∧ OthersSame s u t

/-- R112, R279: `gets` of a number that the table has writes the register's value, raw, and reading TIME_LO latches the high half; `sets`
of a register marked RW writes it. FPSTAT waits for the instructions of the warp that are deferred or wait for their pops (the model's
reading, log entry 41), BSCUR for a deferred refill of the window (the model's reading, log entry 38). Of any other number both are
illegal. -/
def Claims.SpecialRegisterAccess : Prop :=
  (∀ (s : State) (t : Nat) (x : Option Ext) (d a : Operand) (n : BitVec 11), Lone s t x →
    let deferred := n.toNat = 0x020 ∧ ∃ u ∈ (s.wpOf t).threads, (s.th u).deferred ≠ [] ∨ (s.th u).popJob = true
    let window := n.toNat = 0x012 ∧ windowBusy s t = true
    let waits (i : Instr) : Prop := (deferred → exec i s = .next (s.setStatus t (.blocked (.deferred false)))) ∧
      (window → exec i s = .next (s.setStatus t (.blocked (.deferred true))))
    (sregReadable n = true → Given s t [d] [] (regsOf (s.th t) d 1) →
      (¬deferred → ¬window → exec (.gets x d n) s = .next (((latchTime s t n.toNat).writeDst t d (regsOf (s.th t) d 1)
        (outW (sregVal s t n.toNat))).retire t (extLen x))) ∧ waits (.gets x d n)) ∧
    (sregWritable n = true → Given s t [a] [src a] [] →
      (¬deferred → ¬window → exec (.sets x a n) s =
        .next ((setSreg s t n.toNat (addrReg s t a)).retire t (extLen x))) ∧ waits (.sets x a n))) ∧
  ∀ (n : BitVec 11) (x : Option Ext) (d a : Operand),
    (sregReadable n = true ↔ n.toNat ∈ [0, 1, 2, 3, 4, 5, 6, 7, 8, 9, 0xA, 0xB, 0xC, 0xD, 0x10, 0x11, 0x12, 0x13, 0x14, 0x15,
      0x16, 0x18, 0x19, 0x1A, 0x1B, 0x20, 0x21, 0x22, 0x23, 0x24, 0x25, 0x28, 0x29, 0x2A, 0x2B]) ∧
    (sregWritable n = true ↔ n.toNat ∈ [0x10, 0x11, 0x12, 0x14, 0x15, 0x16, 0x20, 0x24, 0x28]) ∧
    (sregReadable n = false → (Instr.gets x d n).legal = false) ∧ (sregWritable n = false → (Instr.sets x a n).legal = false)

/-- R112: what each special register of the table reads as. WARP and WIDTH of the Collie and TEAMWARPS of a cell are the table's; that a
cell's WIDTH is its launch's W is the model's reading, log entry 21. -/
def Claims.SpecialRegisterValues : Prop :=
  ∀ (s : State) (t : Nat),
    let x := s.th t
    let k := s.co (s.coreOf t)
    let n (v : Nat) : Word := BitVec.ofNat 32 v
    (sregVal s t 0x000 = n x.lane ∧ (x.collie = true → sregVal s t 0x001 = 0xFFFF) ∧
      (x.collie = false → sregVal s t 0x001 = n (s.wpOf t).idx) ∧ sregVal s t 0x002 = (s.tmOf t).x ∧
      sregVal s t 0x003 = (s.tmOf t).y ∧ sregVal s t 0x004 = (s.tmOf t).z ∧ sregVal s t 0x009 = n k.ldie ∧
      sregVal s t 0x00A = n s.place.length ∧ sregVal s t 0x00B = n k.core ∧ sregVal s t 0x00D = n x.v.length) ∧
    ((∀ l i, s.launchOf t = some l → i < 3 → sregVal s t (0x005 + i) = lw (s.la l).words (4 + i)) ∧
      (∀ l, s.launchOf t = some l → x.collie = false → sregVal s t 0x00C = n (16 * 2 ^ fld (lw (s.la l).words 0) 28 2)) ∧
      (x.collie = true → sregVal s t 0x00C = 1) ∧
      (x.cell = none → sregVal s t 0x008 = n (if x.collie then 1 else (s.tmOf t).warps) ∧ sregVal s t 0x01A = 0 ∧
        sregVal s t 0x01B = 0) ∧
      ∀ c, x.cell = some c → let y := s.cl c
        let f := phasesOf (s.la y.launch).desc
        sregVal s t 0x008 = n (min (s.cells.filter fun z => z.launch = y.launch ∧ z.core = y.core).length 0xFFFFFFFF) ∧
        sregVal s t 0x01A = n (y.q / f) ∧ sregVal s t 0x01B = n (y.q % f)) ∧
    (sregVal s t 0x010 = x.lnk ∧ sregVal s t 0x011 = x.meet.getD 0xFFFFFFFF ∧ sregVal s t 0x012 = x.bc.zeroExtend 32 ∧
      sregVal s t 0x013 = n x.wbase ∧ (∀ i, i < 3 → ∀ r, x.lc[i]? = some r → sregVal s t (0x014 + i) = r.n) ∧
      sregVal s t 0x018 = s.time.setWidth 32 ∧ sregVal s t 0x019 = x.timeHi ∧
      sregVal s t 0x020 = (s.wpOf t).fp.zeroExtend 32 ∧ sregVal s t 0x021 = x.faultCode ∧
      sregVal s t 0x023 ++ sregVal s t 0x022 = x.faultAddr) ∧
    sregVal s t 0x024 = x.cbsel.zeroExtend 32 ∧
    sregVal s t 0x025 = (((k.books.find? fun b => b.table = x.cbsel.toNat).map Codebook.gen).getD 0).zeroExtend 32 ∧
    sregVal s t 0x028 = x.iptidx.zeroExtend 32 ∧ sregVal s t 0x029 = s.ipt x.iptidx.toNat (s.ctxOf t).image ∧
    sregVal s t 0x02A = n (x.depth.toNat + 256 * x.qtag.toNat) ∧ sregVal s t 0x02B = k.ctx

/-- R112, R92, R113: what a write leaves in each register that `sets` writes: LNK and MEET keep their low bits clear, BSCUR and CBSEL
their low six bits, IPTIDX its low sixteen, FPSTAT its five flags, LCn the whole word. Every other register reads as before, but for
CBGEN and IPTVAL, which follow CBSEL and IPTIDX; memory and the other threads are as before. -/
def Claims.SpecialRegisterWrites : Prop :=
  ∀ (s : State) (t n : Nat) (w : Word), t < s.threads.length →
    let back (n : Nat) : Word := sregVal (setSreg s t n w) t n
    back 0x010 = w &&& 0xFFFFFFFC ∧ back 0x011 = (if w = 0xFFFFFFFF then w else w &&& 0xFFFFFFFC) ∧ back 0x012 = w &&& 0x3F ∧
    (∀ i, i < 3 → i < (s.th t).lc.length → back (0x014 + i) = w) ∧ back 0x024 = w &&& 0x3F ∧ back 0x028 = w &&& 0xFFFF ∧
    ((s.th t).warp < s.warps.length → back 0x020 = w &&& 0x1F) ∧
    (∀ m, m ≠ n → ¬(n = 0x024 ∧ m = 0x025) → ¬(n = 0x028 ∧ m = 0x029) →
      sregVal (setSreg s t n w) t m = sregVal s t m) ∧
    (setSreg s t n w).dies = s.dies ∧ (setSreg s t n w).cores = s.cores ∧ OthersSame s (setSreg s t n w) t

/-- R281, R277: `twait` goes on at once when device time has reached its value, and waits otherwise; TWAIT_EXPIRY lets the thread go
on when it has, and all that expired while they were saved (the model marks them by time 0) together. -/
def Claims.TimedWait : Prop :=
  (∀ (s : State) (t : Nat) (x : Option Ext) (a : Operand) (ea : Bool), Lone s t x →
    let due (w : Nat) : Prop := (w ≤ s.time.toNat → exec (.twait x a ea) s = .next (s.retire t (extLen x))) ∧
      (s.time.toNat < w → exec (.twait x a ea) s = .next (s.setStatus t (.blocked (.time w (extLen x)))))
    let ws := (regsOf (s.th t) a 2).map (s.regVal t)
    ((∀ n l, (s.th t).status ≠ .blocked (.time n l)) → Given s t [a] [srcN a 2 ea] [] →
      due ((ws.getD 0 0).toNat + 2 ^ 32 * (ws.getD 1 0).toNat)) ∧
    ∀ n l, (s.th t).status = .blocked (.time n l) → due n) ∧
  ∀ (s : State) (t n len : Nat), (s.th t).status = .blocked (.time n len) →
    let here := (s.co (s.coreOf t)).resident
    (0 < n → n ≤ s.time.toNat → here = true → exec (.twaitExpiry t) s = .next (s.retire t len)) ∧
    (n = 0 → here = true → ∃ u, exec (.twaitExpiry t) s = .next u ∧
      (∀ v l, (s.th v).status = .blocked (.time 0 l) → (s.co (s.coreOf v)).resident = true →
        u.th v = Thread.advance l (s.th v)) ∧
      (∀ v, expiredSaved s v = false → u.th v = s.th v) ∧ SameMemory s u) ∧
    (s.time.toNat < n ∨ here = false → exec (.twaitExpiry t) s = .next s)

/-- R47, R283: the privileged operations in a context without privilege are the illegal-instruction trap, and nothing else. -/
def Claims.PrivilegeRequired : Prop :=
  ∀ (s : State) (t : Nat) (x : Option Ext) (d a : Operand) (i : Instr), Lone s t x → privileged s t = false →
    i = .tlbinv x a ∨ i = .ctxsave x d a ∨ i = .ctxload x d a ∨ i = .icinv x ∨ i = .halt x a →
    exec i s = .next (s.faultTrap t 1 0 (pcAddr (s.th t).pc))

/-- R151, R283: with privilege, `tlbinv` drops the translations it names from the TLB of every core and of every die, `icinv` empties the
core's instruction cache, and `halt` ends the context it names, which a word from a queue may be. -/
def Claims.PrivilegedOperations : Prop :=
  ∀ (s : State) (t : Nat) (x : Option Ext) (a : Operand), Lone s t x → privileged s t = true →
    let va (i : Nat) : Word := ((regsOf (s.th t) a 3).map (s.regVal t)).getD i 0
    let named (e : TlbEntry) : Prop := e.ctx = va 2 ∧ (bit (va 1) 24 = true ∨ e.die = fld (va 1) 21 3) ∧
      (bit (va 1) 16 = true ∨ e.va = ((va 0).toNat + 2 ^ 32 * fld (va 1) 0 16) / 2 ^ e.bits)
    (Given s t [a] [srcN a 3] [] →
      ∃ u, exec (.tlbinv x a) s = .next u ∧
        (∀ d e, d < s.dies.length → (e ∈ (u.die d).tlb ↔ e ∈ (s.die d).tlb ∧ ¬named e)) ∧
        (∀ c e, c < s.cores.length → (e ∈ (u.co c).tlb ↔ e ∈ (s.co c).tlb ∧ ¬named e)) ∧
        (u.th t).pc = ((s.retire t (extLen x)).th t).pc ∧ (u.th t).v = (s.th t).v ∧ SameMemory s u ∧ OthersSame s u t) ∧
    exec (.icinv x) s = .next ((s.modCo (s.coreOf t) fun k => { k with icache := [] }).retire t (extLen x)) ∧
    ∀ id, Given s t [a] [src a] [] →
      ((s.th t).popped = [] ∧ allSlots s t 0 [src a] = [.val id]) ∨ (∃ q k, a = .q q ∧ (s.th t).popped = [(k, some id)]) →
      let r := (s.usePops t).retire t (extLen x)
      exec (.halt x a) s = .next (if (s.ctx id).live then r.endCtx id 4 0x48540000 else r)

/-- R276, R277, R283: `ctxsave` and `ctxload` give 2 for no such context and 1 when there is nothing to do; else they save or
restore the context's cores and give 0. PREEMPT and RESTORE save and restore a set of cores. -/
def Claims.SavingAndRestoring : Prop :=
  (∀ (s : State) (t : Nat) (x : Option Ext) (d a : BitVec 6), Lone s t x → privileged s t = true → (s.th t).popped = [] →
    Given s t [.v d, .v a] [src (.v a)] [.v ((s.th t).wbase + d.toNat)] →
    let c := s.regVal t (.v ((s.th t).wbase + a.toNat))
    let give (r : Word) : State := (s.fillReg t (.v ((s.th t).wbase + d.toNat)) r .raw).retire t (extLen x)
    ((s.ctx c).live = false → exec (.ctxsave x (.v d) (.v a)) s = .next (give 2) ∧
      exec (.ctxload x (.v d) (.v a)) s = .next (give 2)) ∧
    ((s.ctx c).live = true →
      (residentCores s c = [] → exec (.ctxsave x (.v d) (.v a)) s = .next (give 1)) ∧
      (savedCores s c = [] → restoreReady s [] = true → exec (.ctxload x (.v d) (.v a)) s = .next (give 1)) ∧
      (residentCores s c ≠ [] → (∀ k ∈ residentCores s c, quietCore s k = true) → exec (.ctxsave x (.v d) (.v a)) s =
        .next (((give 0).saveCores (residentCores s c)).modCtx c fun y => { y with saved := true })) ∧
      (savedCores s c ≠ [] → restoreReady s (savedCores s c) = true → exec (.ctxload x (.v d) (.v a)) s =
        .next (((give 0).restoreCores (savedCores s c)).modCtx c fun y => { y with saved := false })))) ∧
  (∀ (s : State) (ctx : Nat) (cs : List Nat), let id := BitVec.ofNat 32 ctx
    ((s.ctx id).live = true → bit ((s.ctx id).words.getD 1 0) 29 = true → cs ≠ [] → closedSet s cs = true →
      (∀ c ∈ cs, c ∈ residentCores s id ∧ quietCore s c = true) →
      exec (.preempt ctx cs .placement) s = .next (s.saveCores cs)) ∧
    ((s.ctx id).live = true → (s.ctx id).saved = false → cs.Nodup → closedSet s cs = true → restoreReady s cs = true →
      (∀ c ∈ cs, c ∈ savedCores s id) → exec (.restore ctx cs) s = .next (s.restoreCores cs)))

/-- R276, R277: saving cores leaves every thread, warp and buffer as it was, and near memory too but for what it writes to the save
areas (where that is, is the model's choice, log entry 78); restoring them makes them resident without copies, and marks the waits
for device time that have ended. -/
def Claims.SavedStateIsKept : Prop :=
  ∀ (s : State) (cs : List Nat), (∀ c ∈ cs, c < s.cores.length) →
    let u := s.saveCores cs
    let v := s.restoreCores cs
    u.threads = s.threads ∧ u.warps = s.warps ∧ (∀ c sp, (u.co c).buf sp = (s.co c).buf sp) ∧
    (∀ d a, Memory.wf (s.die d).mem = true → (∀ x ∈ s.saveWrites cs, x.1 ≠ d ∨ x.2.1 ≠ a) →
      Memory.read1 (u.die d).mem a = Memory.read1 (s.die d).mem a) ∧
    (∀ c ∈ cs, (u.co c).resident = false) ∧
    (∀ c ∈ cs, (v.co c).resident = true ∧ (v.co c).copies = []) ∧ v.warps = s.warps ∧ SameMemory s v ∧
    ∀ t, (∀ n len, (s.th t).status = .blocked (.time n len) → n ≤ s.time.toNat → s.coreOf t ∈ cs →
        v.th t = { s.th t with status := .blocked (.time 0 len) }) ∧
      ((∀ n len, (s.th t).status = .blocked (.time n len) → n ≤ s.time.toNat → s.coreOf t ∉ cs) → v.th t = s.th t)

/-! ### Lattice engine (chapter 11) -/

/-- R187, R191: `phase` of a cell whose conditions hold ends the phase at once, otherwise the thread waits and PHASE_END ends it
when they hold; a thread that is no cell takes the illegal-operand trap with detail 0x102. -/
def Claims.Phases : Prop :=
  ∀ (s : State) (t c : Nat) (x : Option Ext), Lone s t x → (s.th t).depth = 0 →
    ((s.th t).cell = some c →
      (phaseReady s c = true → exec (.phase x) s = .next (s.finishPhase c false (extLen x)) ∧
        exec (.phaseRetire x) s = .next (s.finishPhase c true (extLen x))) ∧
      (phaseReady s c = false → exec (.phase x) s = .next (s.setStatus t (.blocked (.phase false (extLen x)))) ∧
        exec (.phaseRetire x) s = .next (s.setStatus t (.blocked (.phase true (extLen x)))))) ∧
    ((s.th t).cell = none → ∀ i, i = .phase x ∨ i = .phaseRetire x →
      exec i s = .next (s.faultTrap t 2 0x102 (pcAddr (s.th t).pc)))

/-- R187, R191, R203: PHASE_END ends the phase of a cell whose conditions hold, unless its core is saved. -/
def Claims.PhaseEnds : Prop :=
  ∀ (s : State) (c len : Nat) (r : Bool), (s.th (s.cl c).tid).status = .blocked (.phase r len) → c < s.cells.length →
    (phaseReady s c = true → (s.co (s.cl c).core).resident = true → exec (.phaseEnd c) s = .next (s.finishPhase c r len)) ∧
    (phaseReady s c = false ∨ (s.co (s.cl c).core).resident = false → exec (.phaseEnd c) s = .next s)

/-- R185, R191: the end of a phase publishes x0 to x3 under the next index, and raises the cell's phase index. -/
def Claims.PhasePublishes : Prop :=
  ∀ (s : State) (c : Nat), c < s.cells.length →
    let u := s.endPhase c
    (u.cl c).q = (s.cl c).q + 1 ∧ (u.cl c).pubs.head? = some ((s.cl c).q + 1, (s.th (s.cl c).tid).x) ∧
      (u.cl c).leaf = none ∧ u.threads = s.threads ∧ u.cores = s.cores ∧ u.dies = s.dies ∧
      ∀ k, k ≠ c → u.cl k = s.cl k

/-- R192 to R194: `nbok` writes whether the slot names a cell, `lcfg` a word of the descriptor, and `lred` gives the phase's leaf
and leaves its destination empty; a second leaf in a phase is the cell lattice fault. -/
def Claims.CellInstructions : Prop :=
  ∀ (s : State) (t c : Nat) (x : Option Ext) (p k : BitVec 3) (d a : Operand) (w : BitVec 4) (f : LredOp) (ea : Bool),
    Lone s t x → (s.th t).cell = some c → c < s.cells.length →
    let desc := (s.la (s.cl c).launch).desc
    let n : Nat := if f = .mt then 3 else 1
    exec (.nbok x p k) s = .next ((s.setP t p (match siteOf desc (s.cl c) k.toNat 0 with
      | .cell _ => true
      | _ => false)).retire t (extLen x)) ∧
    (Given s t [d] [] (regsOf (s.th t) d 1) → exec (.lcfg x d w) s =
      .next ((s.writeDst t d (regsOf (s.th t) d 1) (outW (desc.getD w.toNat 0))).retire t (extLen x))) ∧
    (Given s t [d, a] [srcN a n ea] (regsOf (s.th t) d n) →
      (∀ xs, (s.cl c).leaf = none → allSlots s t 0 [srcN a n ea] = xs.map Slot.val →
        ∃ u, exec (.lred x f d a ea) s = .next u ∧ (u.cl c).leaf = some (f, xs) ∧
          (u.th t).lred = (s.th t).lred ++ [⟨(s.cl c).q, f, regsOf (s.th t) d n⟩] ∧
          (∀ r ∈ regsOf (s.th t) d n, HasReg s t r → u.regFull t r = false) ∧ SameMemory s u ∧ OthersSame s u t) ∧
      ((s.cl c).leaf ≠ none → exec (.lred x f d a ea) s = .next (s.faultTrap t 0x0B 1 (pcAddr (s.th t).pc))))

/-- R189, R197, R198, R204: a face delivery puts a publication that is next in order into the core's face table, which only deferred
instructions notice; a phase report puts the reader's phase index into the core's reports, and a peer's word that the lattice has ended
ends the grid (that a report carries this word is the model's reading, log entry 39). That a delivery leaves memory as it was, though an
entry of a full table is spilled to near memory, is the model's choice (log entry 81: the contents stay in its records). -/
def Claims.FacesAndReports : Prop :=
  ∀ (s : State) (core ell l : Nat) (m : FaceMsg), m.launch = l → partitionOn s core l = true → s.cellAt l ell = none →
    m.remote = true → core < s.cores.length →
    (faceInOrder (s.co core).faces l ell m.idx1 m.retired = true →
      ∃ u, exec (.faceDelivery core ell m) s = .next u ∧ faceValue (u.co core) l ell m.idx1 = some m.xs ∧
        (s.planted = [] → bit s.errinj 31 = false → ∀ n, (s.th n).deferred = [] → u.th n = s.th n) ∧
        ((s.planted = [] ∧ bit s.errinj 31 = false) ∨ (∀ k, k < s.launches.length → (lDone (s.la k).words).en = false) →
          SameMemory s u)) ∧
    (m.ended = none → ∃ u, exec (.phaseReport core ell m) s = .next u ∧
      (u.co core).reports.head? = some ⟨l, ell, m.idx1, m.retired⟩ ∧ u.threads = s.threads ∧ SameMemory s u) ∧
    ∀ w, m.ended = some w → spans (s.la l).desc = true → exec (.phaseReport core ell m) s = .next (s.endGrid l 4 w)

/-- R195: when every cell has ended phase q, or retired, the fixed pairwise tree of the leaves is the result, which fills the destination
of each contributing cell, raw, and no other thread changes; leaves of different operators end the grid with the kernel lattice
fault. -/
def Claims.LatticeReductions : Prop :=
  ∀ (s : State) (l q : Nat) (f : LredOp), (s.la l).stage = .started → q ∉ (s.la l).lredDone → l < s.launches.length →
    (∀ x ∈ phaseLeaves s l q, x.1 = true) →
    let fs := (phaseLeaves s l q).filterMap fun x => x.2.map Prod.fst
    let leaves := (phaseLeaves s l q).map fun x => x.2.map Prod.snd
    let mine := s.cells.filter fun c => c.launch = l
    let wait (c : Cell) : Option LredWait := (s.th c.tid).lred.find? fun w => w.q = q
    fs.head? = some f →
    ((∀ g ∈ fs, g = f) → (∀ ws, some ws ∈ leaves → ws.length = if f = .mt then 3 else 1) → (mine.map Cell.tid).Nodup →
      (∀ c ∈ mine, c.tid < s.threads.length) →
      ∃ u r, exec (.lredResult l q) s = .next u ∧ treeRed f leaves.length leaves = some r ∧
        r.length = (if f = .mt then 3 else 1) ∧
        (∀ c ∈ mine, ∀ w, wait c = some w →
          (u.th c.tid).lred = (s.th c.tid).lred.filter (fun w => w.q ≠ q) ∧
          (w.dst.Nodup → w.dst.length = r.length → ∀ j g, w.dst[j]? = some g → HasReg s c.tid g →
            (∀ n, g = .s n → ∀ b ∈ mine, b.tid ≠ c.tid → (s.th b.tid).warp ≠ (s.th c.tid).warp) →
            u.regVal c.tid g = r.getD j 0 ∧ u.regTag c.tid g = .raw ∧ u.regFull c.tid g = true)) ∧
        (∀ t, (∀ c ∈ mine, c.tid = t → wait c = none) → u.th t = s.th t) ∧
        q ∈ (u.la l).lredDone ∧ u.dies = s.dies ∧ u.cores = s.cores ∧ u.cells = s.cells) ∧
    ((∃ g ∈ fs, g ≠ f) → exec (.lredResult l q) s = .next (s.endGrid l 4 0x4B4C0001))

/-- R195: the tree over four leaves, and an absent leaf does not take part. -/
def Claims.ReductionTree : Prop :=
  ∀ (a b c d : Word) (f : LredOp), f ≠ .mt →
    let op (x y : Word) : Word := if f = .add then x + y else (add32 x y).1
    treeRed f 4 [some [a], some [b], some [c], some [d]] = some [op (op a b) (op c d)] ∧
    treeRed f 4 [some [a], none, some [c], some [d]] = some [op a (op c d)] ∧
    treeRed f 3 [some [a], some [b], some [c]] = some [op (op a b) c]

/-- R199 to R201: the pager brings in the runnable cell of the lowest phase, then index: in a free slot, or, when the grant is used up or
no slot is free, in place of the victim, when that can be swapped out. The victim is the cell blocked in `phase` of the highest phase,
then index, and with none such the resident cell of the highest phase, then index, whose phase is above that of the cell to bring in. A
cell swapped in is resident in the lowest free lane slot (its pipe and column: the model's choice, log entry 15), one swapped out is
not, and no other cell changes. That the dies stay as they were, though a swap reads or writes the cell's record in near memory, is the
model's choice (log entry 81: the contents stay in its records). -/
def Claims.Pager : Prop :=
  (∀ (s : State) (core l : Nat) (c : Cell), partitionOn s core l = true → (s.co core).resident = true →
    nextIn s core l = some c →
    let here (x : Cell) : Prop := x ∈ s.cells ∧ x.core = core ∧ x.launch = l
    let inPhase (x : Cell) : Prop := ∃ r n, (s.th x.tid).status = .blocked (.phase r n)
    let upTo (x y : Cell) : Prop := x.q < y.q ∨ (x.q = y.q ∧ x.ell ≤ y.ell)
    let room : Prop := (s.cells.filter fun x => x.core = core && x.launch = l && holdsSlot s core x.tid).length < (s.la l).grant ∧
      slotFree s core (s.th c.tid).v.length = true
    (here c ∧ c.resident = false ∧ runnable s c = true ∧
      ∀ x, here x → x.resident = false → runnable s x = true → upTo c x) ∧
    (room → exec (.pagerFill ⟨core, l⟩) s = .next (s.swapIn c) ∧ exec (.pagerExchange ⟨core, l⟩) s = .next s) ∧
    (¬room → exec (.pagerFill ⟨core, l⟩) s = .next s ∧
      (victim s core l c = none → exec (.pagerExchange ⟨core, l⟩) s = .next s) ∧
      ∀ v, victim s core l c = some v →
        (here v ∧ v.resident = true) ∧
        ((∃ x, here x ∧ x.resident = true ∧ inPhase x) →
          inPhase v ∧ ∀ x, here x → x.resident = true → inPhase x → upTo x v) ∧
        (¬(∃ x, here x ∧ x.resident = true ∧ inPhase x) →
          c.q < v.q ∧ ∀ x, here x → x.resident = true → c.q < x.q → upTo x v) ∧
        (swapReady s v = true → exec (.pagerExchange ⟨core, l⟩) s = .next ((s.swapOut v).swapIn c)) ∧
        (swapReady s v = false → exec (.pagerExchange ⟨core, l⟩) s = .next s))) ∧
  ∀ (s : State) (c : Cell) (i : Nat), (s.th c.tid).cell = some i → i < s.cells.length →
    (s.planted = [] → let u := s.swapIn c
      let n := freeLane s c.core
      u.cl i = { s.cl i with resident := true } ∧ (∀ k, k ≠ i → u.cl k = s.cl k) ∧
      u.th c.tid = { s.th c.tid with slot := n } ∧ OthersSame s u c.tid ∧ u.dies = s.dies ∧ u.cores = s.cores ∧
      ((s.th c.tid).warp < s.warps.length →
        (u.wpOf c.tid).pipe = n / 64 % 4 ∧ (u.wpOf c.tid).col = n % 64) ∧
      (∀ k, k < n → ∃ t, t < s.threads.length ∧ holdsSlot s c.core t = true ∧ (s.th t).slot = k) ∧
      ∀ t, t < s.threads.length → holdsSlot s c.core t = true → (s.th t).slot ≠ n) ∧
    let u := s.swapOut c
    u.cl i = { s.cl i with resident := false } ∧ (∀ k, k ≠ i → u.cl k = s.cl k) ∧ u.threads = s.threads ∧
      u.warps = s.warps ∧ u.dies = s.dies ∧ u.cores = s.cores

/-! ### Engines (chapters 12 to 15) -/

/-- The instructions that name a record in the A-buffer: engine, prefix, destination, address operand, its E bit, and the bytes
that the record has at least (R231, R243, R248, R261). -/
def recordCmd : Instr → Option (BitVec 4 × Option Ext × Operand × Operand × Bool × Nat)
  | .xcp x d a ea => some (2, x, d, a, ea, 64)
  | .xsort x d a ea => some (3, x, d, a, ea, 64)
  | .xcol x d a ea => some (4, x, d, a, ea, 64)
  | .launch x d a ea => some (5, x, d, a, ea, 64)
  | _ => none

/-- A command has been issued by thread t (R18, R19, R51): it stands in the operation table and, as one entry, in the warp's
FIFO; its destination holds its handle and is empty; the PC has moved on; memory, the other threads and the thread's special
registers are as before. -/
def CommandIssued (s u : State) (t len : Nat) (o : Op) : Prop :=
  o.stage = .inFifo ∧ o.tid = t ∧ o.core = some (s.coreOf t) ∧ u.ops = s.ops ++ [o] ∧
    (∃ e, (u.wp (s.th t).warp).fifo = (s.wp (s.th t).warp).fifo ++ [e] ∧ e.body = .cmd s.ops.length ∧ e.tid = t) ∧
    (∀ n, RegRef.v n ∈ o.dst → n < (s.th t).v.length → u.regFull t (.v n) = false) ∧
    (∀ n, o.dst = [.v n] → n < (s.th t).v.length → u.regVal t (.v n) = o.handle) ∧
    (∀ n, RegRef.v n ∉ o.dst → u.regVal t (.v n) = s.regVal t (.v n) ∧ u.regFull t (.v n) = s.regFull t (.v n)) ∧
    (u.th t).pc = ((s.retire t len).th t).pc ∧ (u.th t).p = (s.th t).p ∧
    SameMemory s u ∧ OthersSame s u t ∧ SpecialsSame (u.th t) (s.th t)

/-- R231, R243, R248, R261: `xcp`, `xsort`, `xcol` and `launch` issue their command when there is room, wait when there is not,
and trap on a record that is misaligned or runs past the A-buffer. -/
def Claims.RecordCommands : Prop :=
  ∀ (s : State) (t : Nat) (i : Instr) (e : BitVec 4) (x : Option Ext) (d a : Operand) (ea : Bool) (n : Nat),
    recordCmd i = some (e, x, d, a, ea, n) → Lone s t x → (s.th t).warp < s.warps.length →
    Given s t [d, a] [src a ea] (regsOf (s.th t) d 1) →
    (recAddr s t a % 16 = 0 → recAddr s t a + n ≤ bufSize .a → cmdRoom s (s.coreOf t) e = true →
      ∃ u o, exec i s = .next u ∧ o.engine = e ∧ o.arg = recAddr s t a ∧ o.dst = regsOf (s.th t) d 1 ∧
        o.acq = ordAcq x ∧ o.rel = ordRel x ∧ CommandIssued s u t (extLen x) o) ∧
    (recAddr s t a % 16 = 0 → recAddr s t a + n ≤ bufSize .a → cmdRoom s (s.coreOf t) e = false →
      exec i s = .next (s.setStatus t (.blocked .retry))) ∧
    (recAddr s t a % 16 ≠ 0 → exec i s = .next (s.faultTrap t 6 0 (pcAddr (addrReg s t a)))) ∧
    (recAddr s t a % 16 = 0 → bufSize .a < recAddr s t a + n →
      exec i s = .next (s.faultTrap t 7 0 (pcAddr (addrReg s t a))))

/-- R207, R208: `mres` takes a free engine and says in its predicate whether its team holds it; `mresw` waits until it does;
`mrel` hands the engine to the team that has waited longest. The Collie may do none of these. -/
def Claims.Reservation : Prop :=
  ∀ (s : State) (t : Nat) (x : Option Ext) (p : BitVec 3), Lone s t x →
    let c := s.coreOf t
    let k := s.co c
    let team := teamOf s t
    ((s.th t).collie = true → ∀ i, i = .mres x p ∨ i = .mresw x ∨ i = .mrel x →
      exec i s = .next (s.faultTrap t 2 0x100 (pcAddr (s.th t).pc))) ∧
    ((s.th t).collie = false → k.holder = some team →
      exec (.mres x p) s = .next ((s.setP t p true).retire t (extLen x)) ∧
      exec (.mresw x) s = .next (s.retire t (extLen x)) ∧
      exec (.mrel x) s = .next ((s.modCo c fun k => { k with
        holder := k.waiters.head?, waiters := k.waiters.tail }).retire t (extLen x))) ∧
    ((s.th t).collie = false → k.holder = none → k.waiters = [] →
      exec (.mres x p) s = .next (((s.setHolder c (some team)).setP t p true).retire t (extLen x))) ∧
    ((s.th t).collie = false → k.holder = none → k.waiters = [] ∨ k.waiters.head? = some team →
      exec (.mresw x) s = .next ((s.modCo c fun k => { k with
        holder := some team, waiters := k.waiters.filter fun w => w != team }).retire t (extLen x))) ∧
    ((s.th t).collie = false → k.holder ≠ none → k.holder ≠ some team →
      exec (.mres x p) s = .next ((s.setP t p false).retire t (extLen x)) ∧
      exec (.mrel x) s = .next (s.retire t (extLen x)) ∧
      ∃ u, exec (.mresw x) s = .next u ∧ (u.th t).status = .blocked .mres ∧
        (c < s.cores.length → team ∈ (u.co c).waiters ∧ (u.co c).holder = k.holder))

/-- R212, R214, R218, R219, R221, R225: the matrix commands issue for the team that holds the engine; `mma` blocks until its A
registers are full; then a good block captures its rows, and a bad one is the matrix fault with its code. -/
def Claims.MatrixCommands : Prop :=
  ∀ (s : State) (t : Nat) (x : Option Ext) (d a b : Operand) (k ea eb : Bool), Lone s t x → (s.th t).warp < s.warps.length →
    ((s.th t).collie = false → (s.co (s.coreOf t)).holder ≠ some (teamOf s t) →
      ∀ i, i = .mma x d a b k eb ∨ i = .mdr x d a k ea eb ∨ i = .mzero x d a →
        exec i s = .next (s.faultTrap t 2 0x100 (pcAddr (s.th t).pc))) ∧
    ((s.th t).collie = false → (s.co (s.coreOf t)).holder = some (teamOf s t) →
      (Given s t [d, a, b] [src b eb] (regsOf (s.th t) d 1) → recAddr s t b % 16 = 0 → recAddr s t b + 32 ≤ bufSize .a →
        ∀ bl, mmaBlock s t b = some bl →
        s.planted = [] →
        (∀ r ∈ allRows s t (aReg a) bl (elemBits (aTag s t (aReg a) bl)), (ownLred s r.1).contains r.2 = false) →
        let full : Prop := (∀ r, firstReg s t (aReg a) bl = some r → s.regFull r.1 r.2 = true) ∧
          ∀ r ∈ allRows s t (aReg a) bl (elemBits (aTag s t (aReg a) bl)), s.regFull r.1 r.2 = true
        (¬full → ∃ rs, rs ≠ [] ∧ (∀ r ∈ rs, s.regFull r.1 r.2 = false) ∧
          exec (.mma x d a b k eb) s = .next (s.setStatus t (.blocked (.rows rs)))) ∧
        (full → mmaCode s t (aReg a) bl ≠ 0 → exec (.mma x d a b k eb) s =
          .next (s.faultTrap t 0x0A (mmaCode s t (aReg a) bl) (pcAddr (s.th t).pc))) ∧
        (full → mmaCode s t (aReg a) bl = 0 → ownCbLoad s t = false → cmdRoom s (s.coreOf t) 1 = true →
          ∃ u o, exec (.mma x d a b k eb) s = .next u ∧ o.engine = 1 ∧ o.fn = 0 ∧ o.record = bl ∧
            o.dst = regsOf (s.th t) d 1 ∧ o.rows = (List.range (bMe bl)).map (fun i =>
              (rowRegs s t (aReg a) bl (elemBits (aTag s t (aReg a) bl)) i).map (rowBytes s)) ∧
            CommandIssued s u t (extLen x) o)) ∧
      (Given s t [d, a] [src a ea] (regsOf (s.th t) d 1) → recAddr s t a % 16 = 0 → recAddr s t a + 32 ≤ bufSize .a →
        cmdRoom s (s.coreOf t) 1 = true →
        ∃ u o, exec (.mdr x d a k ea eb) s = .next u ∧ o.engine = 1 ∧ o.fn = 1 ∧ o.arg = recAddr s t a ∧
          o.dst = regsOf (s.th t) d 1 ∧ CommandIssued s u t (extLen x) o) ∧
      ∀ m : BitVec 6, a = .v m → Given s t [d, a] [srcN a 2] (regsOf (s.th t) d 1) →
        let off := s.regVal t (.v ((s.th t).wbase + m.toNat))
        let len := s.regVal t (.v ((s.th t).wbase + m.toNat + 1))
        (off.toNat % 64 = 0 ∧ len.toNat % 64 = 0 ∧ len ≠ 0 ∧ off.toNat + len.toNat ≤ bufSize .c →
          cmdRoom s (s.coreOf t) 1 = true →
          ∃ u o, exec (.mzero x d a) s = .next u ∧ o.engine = 1 ∧ o.fn = 2 ∧ o.record = [off, len] ∧
            o.dst = regsOf (s.th t) d 1 ∧ CommandIssued s u t (extLen x) o) ∧
        (¬(off.toNat % 64 = 0 ∧ len.toNat % 64 = 0 ∧ len ≠ 0 ∧ off.toNat + len.toNat ≤ bufSize .c) →
          exec (.mzero x d a) s = .next (s.faultTrap t 0x0A 8 (pcAddr (s.th t).pc))))

/-- R58, R210, R225, R240, R245, R259: ENGINE_START of a queued operation whose turn it is: a matrix command starts once its
acquire wait is over; a record that fails its check completes the operation with status 4 and its code; a good one starts it with
the flags of its record, a collective among them. An operation that is not queued stays as it is. -/
def Claims.EngineStarts : Prop :=
  ∀ (s : State) (i : Nat),
    let o := s.op i
    (o.stage ≠ .queued → exec (.engineStart i) s = .next s) ∧
    (o.stage = .queued → queueReady s i = true → engineHere s o = true →
      (o.engine = 1 → o.fn ≠ 1 → acqReady s o = true →
        exec (.engineStart i) s = .next (s.modOp i fun o => { o with stage := .started })) ∧
      (∀ bs, o.engine = 1 → o.fn = 1 → acqReady s o = true → s.recordView o o.arg 32 = some bs → s.planted = [] →
        let r := wordsOf 8 bs
        (mdrCode r = 0 → exec (.engineStart i) s = .next (s.modOp i fun o => { o with stage := .started, record := r })) ∧
        (mdrCode r ≠ 0 → exec (.engineStart i) s =
          .next (s.completeOp i 4 (BitVec.ofNat 32 (0x4D440000 + mdrCode r))))) ∧
      (∀ r, o.engine = 2 → readRecord s i = some r → s.planted = [] →
        (copyCode s o.ctx o.arg r = 0 → ∃ u, exec (.engineStart i) s = .next u ∧ (i < s.ops.length →
          (u.op i).stage = .started ∧ (u.op i).record = r ∧ (u.op i).acq = rAcq r ∧ (u.op i).rel = rRel r) ∧ SameMemory s u) ∧
        (copyCode s o.ctx o.arg r ≠ 0 → exec (.engineStart i) s =
          .next (s.completeOp i 4 (BitVec.ofNat 32 (0x43500000 + copyCode s o.ctx o.arg r))))) ∧
      (∀ bs, o.engine = 3 → s.recordView o o.arg 64 = some bs → s.planted = [] →
        let r := wordsOf 16 bs
        let own := (s.co o.coreId).ldie
        (sortCode s own r = 0 → exec (.engineStart i) s =
          .next (s.modOp i fun o => { o with stage := .started, record := r })) ∧
        (sortCode s own r ≠ 0 → exec (.engineStart i) s =
          .next (s.completeOp i 4 (BitVec.ofNat 32 (0x53540000 + sortCode s own r))))) ∧
      (∀ r, o.engine = 4 → readRecord s i = some r → s.planted = [] →
        (colCode s o.arg r = 0 → ∃ u, exec (.engineStart i) s = .next u ∧ (i < s.ops.length →
          (u.op i).stage = .started ∧ (u.op i).record = r ∧ (u.op i).acq = rAcq r ∧ (u.op i).rel = rRel r) ∧ SameMemory s u) ∧
        (colCode s o.arg r ≠ 0 → exec (.engineStart i) s =
          .next (s.completeOp i 4 (BitVec.ofNat 32 (0x434C0000 + colCode s o.arg r))))))

/-- R19: a completion fills the destination with the handle, records status and detail, and leaves every other operation,
thread and all memory as it was; the record goes to the Collie's queue while that has room. -/
def Claims.CompletionStep : Prop :=
  ∀ (s : State) (i c : Nat) (status : BitVec 16) (detail : Word),
    let o := s.op i
    let u := s.completeOp i status detail
    i < s.ops.length → o.stage ≠ .done → o.core = some c → c < s.cores.length →
    (u.op i).stage = .done ∧ (u.op i).status = status ∧ (u.op i).detail = detail ∧
      (∀ n, o.dst = [.v n] → n < (s.th o.tid).v.length → o.tid < s.threads.length →
        u.regFull o.tid (.v n) = true ∧ u.regVal o.tid (.v n) = o.handle) ∧
      ((s.co c).collie.isSome = true → (s.co c).heldBy o.engine = 0 → (s.co c).q0.length < Config.eventqDepth →
        (u.co c).q0 = (s.co c).q0 ++ [⟨o.handle, status, o.warp, detail, s.time.setWidth 32⟩]) ∧
      (∀ j, j ≠ i → u.op j = s.op j) ∧ SameMemory s u ∧ OthersSame s u o.tid ∧ ∀ st de, (u.completeOp i st de) = u

/-- R58, R210, R215, R220, R234: ENGINE_READ of a started operation: an `mma` reads one of the values that its remaining K blocks need,
by a free choice, and takes the block at its cursor once it has all of that block's (the model's choice, log entry 103); a copy reads
its next source element, whose writes then stand to be made; nothing is read while the acquire wait lasts, and a copy reads no element that a write it has
still to make, or that is on its way, goes to (it is read with the value that the write leaves). -/
def Claims.EngineReads : Prop :=
  ∀ (s s' : State) (i : Nat) (m : PeerMsg) (bs : List Byte) (p : Pte),
    let o := s.op i
    o.stage = .started → engineHere s o = true →
    (acqReady s o = false → exec (.engineRead i m) s = .next s) ∧
    (acqReady s o = true →
      (o.engine = 1 → o.fn = 0 → o.cursor < mmaBlocks o.record →
        let due := o.unread (mmaUnits o o.cursor)
        (due = [] → exec (.engineRead i m) s =
          .next (s.modOp i fun o => { o with cursor := o.cursor + 1, midBlock := false })) ∧
        (due ≠ [] → ∀ n, mmaNext o (Config.mmaPick s.tick) = some n → let x := mmaSite s o n
          s.readBuf i x.1 x.2.1 x.2.2.1 x.2.2.2 = .ok s' bs p → exec (.engineRead i m) s = .next (s'.modOp i fun o =>
            { o with units := (n, bs) :: o.units, midBlock := o.midBlock || due.contains n }))) ∧
      (o.engine = 2 → sourceBusy s i (sourceAt s i (elemOffs o.record o.cursor).1) = true →
        exec (.engineRead i m) s = .next s) ∧
      (o.engine = 2 → rKind o.record = false → o.outs = [] → o.cursor < rCount o.record → o.status = 0 →
        sourceBusy s i (sourceAt s i (elemOffs o.record o.cursor).1) = false →
        (∀ sp off, sourceAt s i (elemOffs o.record o.cursor).1 = .buf sp off → s.planted = [] →
          s.coreView o.coreId (if sp = .a then s.homeOf o.tid else o.coreId) sp off (rB o.record) = some bs → i < s.ops.length →
          ∃ u, exec (.engineRead i m) s = .next u ∧ (u.op i).cursor = o.cursor + 1 ∧
            (∃ tag, (u.op i).outs = elemWrites s i o.record (elemOffs o.record o.cursor).2 bs tag) ∧
            SameMemory s u ∧ u.threads = s.threads) ∧
        (∀ l va d pa, sourceAt s i (elemOffs o.record o.cursor).1 = .near l va → s.planted = [] →
          s.translate none o.ctx l va .load = .ok (p, pa) → d = s.pdie l → writeDue s i d pa (rB o.record) = false →
          i < s.ops.length →
          ∃ u, exec (.engineRead i m) s = .next u ∧ (u.op i).cursor = o.cursor + 1 ∧
            (∃ tag, (u.op i).outs =
              elemWrites s i o.record (elemOffs o.record o.cursor).2 (s.near d pa (rB o.record)) tag) ∧
            SameMemory s u ∧ u.threads = s.threads)))

/-- R249 to R255, R58: ENGINE_READ of a started collective takes the next element of the tile once the other members have brought
theirs: with MODE 0 or 1 the fold of all members in ascending group position, this member's own element at its place; with MODE 2 or 3
the one source's. The member's own element is read through the core view or from near memory, and waits for what stands before it there;
one that a chunk still to be written goes to is taken from staging. What is not of the element's length changes nothing (with TAG 7 the member whose element it is sends its tag
behind it: the model's choice, log entry 87). -/
def Claims.CollectiveReads : Prop :=
  ∀ (s : State) (i : Nat) (others : List Byte),
    let o := s.op i
    let r := o.record
    let e := o.cursor
    let pos := groupPos r s.rank.toNat
    o.engine = 4 → o.stage = .started → o.status = 0 → e < rCount r → i < s.ops.length → acqReady s o = true →
    let run := exec (.engineRead i (.done others)) s
    let takes (v : List Byte × Flags) : Prop := ∃ u tag, run = .next u ∧ SameMemory s u ∧ u.threads = s.threads ∧
      u.op i = { o with
        cursor := e + 1, flags := o.flags ||| v.2
        got := if (destElem r pos e).isSome then o.got ++ [v.1] else o.got
        tags := if (destElem r pos e).isSome then o.tags ++ [tag] else o.tags }
    let value (own : List Byte) : List Byte × Flags :=
      let xs := cut (rB r) (groupSize r - 1) others
      if cMode r ≤ 1 then foldElems (cOp r) (cEtype r) (xs.take pos ++ [own] ++ xs.drop pos) else (own, 0)
    let sent := othersBytes r pos e + if farTag r pos e then 1 else 0
    (others.length ≠ sent → run = .next s) ∧
    (others.length = sent →
      (ownSource r pos e = none → takes (others.take (rB r), 0)) ∧
      ∀ off, ownSource r pos e = some off →
        let w := sourceAt s i off
        (∀ bs, stagedAt s i w = some bs → takes (value bs)) ∧
        (stagedAt s i w = none → s.planted = [] →
          (∀ sp a, w = .buf sp a →
            let view := s.coreView o.coreId (if sp = .a then s.homeOf o.tid else o.coreId) sp a (rB r)
            (view = none → run = .next s) ∧ ∀ bs, view = some bs → takes (value bs)) ∧
          ∀ l va p pa, w = .near l va → s.translate none o.ctx l va .load = .ok (p, pa) →
            (writeDue s i (s.pdie l) pa (rB r) = true → run = .next s) ∧
            (writeDue s i (s.pdie l) pa (rB r) = false → takes (value (s.near (s.pdie l) pa (rB r))))))

/-- R252, R255, R257: ENGINE_WRITE of a collective writes a chunk whole, once every element of it is final and no write before it
to its places is still to be made; one that is not ready, or was written, stays as it is. In the A-buffer every byte of every element is
then there, but where a later element of the chunk goes to the same place, and no other byte is changed; to near memory each element's
bytes join the route to their die. Where a translation of the chunk fails the command halts, and none of the chunk is written. -/
def Claims.CollectiveWrites : Prop :=
  ∀ (s : State) (i c : Nat),
    let o := s.op i
    let r := o.record
    let es := chunkElems r c
    let ws := es.flatMap fun e =>
      elemWrites s i r (elemOffs (destRec r) e).2 (o.got.getD e []) (tagFor r (o.tags.getD e .raw))
    let ready : Prop := c < chunkCount r ∧ c ∉ o.sent ∧ (∀ e ∈ es, e < o.got.length) ∧ chunkTurn s i c = true ∧
      ∀ w ∈ ws, cmdTurn s i w = true
    o.engine = 4 → o.stage = .started → o.status = 0 → i < s.ops.length →
    let run := exec (.engineWrite i c) s
    (¬ready → run = .next s) ∧
    (ready → s.planted = [] →
      (rDsp r = 0 → rBkind r = 0 → rMask r = [] →
        let home := s.homeOf o.tid
        home < s.cores.length → Memory.wf (s.co home).a = true →
        ∃ u, run = .next u ∧ u.op i = { o with sent := c :: o.sent } ∧ u.dies = s.dies ∧ u.threads = s.threads ∧
          (∀ k, k ≠ home → u.co k = s.co k) ∧ (∀ sp, sp ≠ .a → (u.co home).buf sp = (s.co home).buf sp) ∧
          (∀ a, (∀ (off : Nat) (bs : List Byte) (tag : Option Tag), OutWrite.buf .a home off bs tag none ∈ ws → a < off ∨ off + bs.length ≤ a) →
            Memory.read1 (u.co home).a a = Memory.read1 (s.co home).a a) ∧
          ∀ (k off : Nat) (bs : List Byte) (tag : Option Tag), ws[k]? = some (.buf .a home off bs tag none) →
            (∀ (j off' : Nat) (bs' : List Byte) (tag' : Option Tag), k < j → ws[j]? = some (.buf .a home off' bs' tag' none) →
              off' + bs'.length ≤ off ∨ off + bs.length ≤ off') →
            ∀ x, x < bs.length → Memory.read1 (u.co home).a (off + x) = bs.getD x 0) ∧
      ((s.ctx o.ctx).live = true → rDsp r = 3 ∨ rDsp r = 4 →
        let translates (w : OutWrite) : Prop := ∃ l va bs obj, w = .near l va bs obj ∧
          ∀ v ∈ writeVas va bs.length obj, ∃ x, s.translate none o.ctx l v .store = .ok x
        ((∀ w ∈ ws, translates w) → ∃ u, run = .next u ∧ (u.op i).sent = c :: o.sent ∧ SameMemory s u ∧
          u.threads = s.threads ∧ u.routes.length = s.routes.length + ws.length ∧
          ∀ (k l va : Nat) (bs : List Byte) (obj : Option Nat), ws[k]? = some (.near l va bs obj) → ∃ q parts obj', u.routes[s.routes.length + k]? = some q ∧
            q.dst = .die l ∧ q.body = .write i parts obj' ∧ parts.flatMap Prod.snd = bs) ∧
        ((∃ w ∈ ws, ¬translates w) → ∃ u, run = .next u ∧ (u.op i).stage = .faulted ∧ (u.op i).sent = o.sent ∧
          u.routes = s.routes ∧ SameMemory s u)))

/-- R58, R234 to R236: ENGINE_WRITE of a buffer write of a copy whose turn it is: its bytes are in the receiver's buffer, every other
byte and every thread is as before, and the write is no longer to be made. -/
def Claims.EngineWrites : Prop :=
  ∀ (s : State) (i k c off : Nat) (sp : Space) (bytes : List Byte) (tag : Option Tag),
    let o := s.op i
    o.stage = .started → o.engine = 2 → o.status = 0 → o.outs[k]? = some (.buf sp c off bytes tag none) → sp ≠ .n →
    writeTurn s o k = true → cmdTurn s i (.buf sp c off bytes tag none) = true → s.planted = [] → i < s.ops.length →
    c < s.cores.length → Memory.wf ((s.co c).buf sp) = true →
    ∃ u, exec (.engineWrite i k) s = .next u ∧ (u.op i).outs = o.outs.eraseIdx k ∧
      (∀ a, Memory.read1 ((u.co c).buf sp) a =
        if off ≤ a ∧ a < off + bytes.length then bytes.getD (a - off) 0 else Memory.read1 ((s.co c).buf sp) a) ∧
      (∀ q, q ≠ sp → (u.co c).buf q = (s.co c).buf q) ∧ (∀ e, e ≠ c → u.co e = s.co e) ∧
      u.dies = s.dies ∧ u.threads = s.threads ∧ u.warps = s.warps

/-- R210, R218, R221, R239, R245, R257: ENGINE_COMPLETE: an `mma` that has taken every K block writes its rows of C, each element of
which is `mmaElem` of what it read, and completes with its flags; `mzero` writes zeros over its bytes of the C-buffer; a copy completes
with status 0 and the number of bytes; a sort with the number of dropped tokens; a collective that has taken its tile, and whose chunks
are written and applied, with the flags of its folds; an operation that has not done its work stays as it is. One that has stopped
completes with its status once the writes that its release flag or its receivers in near memory wait for are applied (R19, R59); an
aborted collective's bitmap is then in its A-buffer. -/
def Claims.EngineCompletes : Prop :=
  ∀ (s : State) (i : Nat),
    let o := s.op i
    let applied : Prop := relReady s i = true ∧ (o.engine = 4 ∨ (o.engine = 2 ∧ rBkind o.record = 2) → quiet s i = true)
    let maps : Prop := o.engine = 4 ∧ o.status = 3 ∧ cBmap o.record ≠ 0xFFFFFFFF
    (o.stage ≠ .started → o.stage ≠ .ending → exec (.engineComplete i) s = .next s) ∧
    (o.stage = .ending →
      (¬applied → exec (.engineComplete i) s = .next s) ∧
      (applied → o.rest = [] →
        (¬maps → exec (.engineComplete i) s = .next (s.completeOp i o.status o.detail)) ∧
        (maps → s.homeOf o.tid < s.cores.length → Memory.wf (s.co (s.homeOf o.tid)).a = true → i < s.ops.length →
          let bs := bitmapOf (chunkCount o.record) o.sent
          ∃ u, exec (.engineComplete i) s = .next u ∧ (u.op i).stage = .done ∧ (u.op i).status = 3 ∧
            (u.op i).detail = o.detail ∧ (∀ a, Memory.read1 (u.co (s.homeOf o.tid)).a a =
              if (cBmap o.record).toNat ≤ a ∧ a < (cBmap o.record).toNat + bs.length then
                bs.getD (a - (cBmap o.record).toNat) 0
              else Memory.read1 (s.co (s.homeOf o.tid)).a a) ∧ u.dies = s.dies))) ∧
    (o.stage = .started → engineHere s o = true →
      (o.engine = 1 → o.fn = 2 → marksApplied s o = true → relReady s i = true → o.core = some o.coreId →
        o.coreId < s.cores.length → Memory.wf (s.co o.coreId).c = true →
        ∃ u, exec (.engineComplete i) s = .next u ∧ (i < s.ops.length → (u.op i).stage = .done ∧ (u.op i).status = 0) ∧
          (∀ a, Memory.read1 (u.co o.coreId).c a =
            if (lw o.record 0).toNat ≤ a ∧ a < (lw o.record 0).toNat + (lw o.record 1).toNat then 0
            else Memory.read1 (s.co o.coreId).c a) ∧ u.dies = s.dies) ∧
      (o.engine = 1 → o.fn = 0 → marksApplied s o = true → relReady s i = true →
        (o.cursor = mmaBlocks o.record → exec (.engineComplete i) s = .next (((mmaResult o).1.foldl (fun s w =>
          s.bufWrite o.coreId .c w.1 w.2) s).completeOp i 0 ((mmaResult o).2.zeroExtend 32))) ∧
        (o.cursor ≠ mmaBlocks o.record → exec (.engineComplete i) s = .next s)) ∧
      (o.engine = 2 → o.status = 0 → o.cursor = rCount o.record → o.outs = [] → relReady s i = true →
        rBkind o.record ≠ 2 → o.lost = false → o.overrun = false → exec (.engineComplete i) s =
          .next (s.completeOp i 0 (BitVec.ofNat 32 (rB o.record * rCount o.record)))) ∧
      (o.engine = 2 → o.status = 0 → o.cursor < rCount o.record → exec (.engineComplete i) s = .next s) ∧
      (o.engine = 3 → o.status = 0 → o.outs = [] → relReady s i = true →
        o.cursor = sKeys o.record + sKeys o.record * (if sPay o.record then sBytes o.record / 16 else 1) + 1 →
        exec (.engineComplete i) s =
          .next (s.completeOp i 0 (BitVec.ofNat 32 (droppedOf (sKeyList o) (sExp o.record))))) ∧
      (o.engine = 4 → o.status = 0 →
        let done : Prop := quiet s i = true ∧ o.cursor = rCount o.record ∧ o.sent.length = chunkCount o.record ∧
          relReady s i = true
        (done → o.overrun = false → exec (.engineComplete i) s = .next (s.completeOp i 0 (o.flags.zeroExtend 32))) ∧
        (¬done → exec (.engineComplete i) s = .next s)))

/-- R21: a requested cancel completes a queued operation with status 5, and has no effect on one that has started. -/
def Claims.EngineCancels : Prop :=
  ∀ (s : State) (i : Nat), i < s.ops.length →
    let o := s.op i
    (o.cancel = true → o.stage = .queued → s.launchOfOp i = none →
      ∃ u, exec (.engineCancel i) s = .next u ∧ (u.op i).stage = .done ∧ (u.op i).status = 5 ∧ SameMemory s u) ∧
    (o.cancel = true → o.stage = .started → exec (.engineCancel i) s =
      .next (s.modOp i fun o => { o with cancel := false })) ∧
    (o.cancel = false → exec (.engineCancel i) s = .next s)

/-- R232, R234, R240, R303, R312: a copy asks for its host element once, by the port that HPORT names, and the request goes out at its
delivery, which waits while the port has 768 outstanding; HOST_COMPLETION through that port brings the bytes, whose writes then stand to
be made, or an error that stops the copy with status 4 and code 7. One that was not asked for, or comes by the other port, changes
nothing; one that a stopped copy no longer waits for is dropped; and one that comes after a reset of the copy's die is stale, and counted
there. -/
def Claims.HostCompletions : Prop :=
  (∀ (s : State) (i : Nat) (reply : HostReply) (m : PeerMsg) (a : BitVec 64),
    let o := s.op i
    i < s.ops.length → o.stage = .started → o.engine = 2 → rSsp o.record = 6 → rKind o.record = false → o.outs = [] →
    o.cursor < rCount o.record → o.status = 0 →
    sourceBusy s i (sourceAt s i (elemOffs o.record o.cursor).1) = false →
    (acqReady s o = true → sourceAt s i (elemOffs o.record o.cursor).1 = .host a →
      (o.asked = false → (∀ q ∈ s.routes, ∀ b n, q.body ≠ .hostRead i b n) → exec (.engineRead i m) s =
        .next (s.engineRoute i (.host (rHport o.record)) (.hostRead i a (rB o.record)))) ∧
      (o.asked = true → exec (.engineRead i m) s = .next s)) ∧
    (o.asked = false ∨ reply.port ≠ rHport o.record → ∀ err, exec (.hostCompletion i reply err) s = .next s) ∧
    (o.asked = true → reply.port = rHport o.record → (s.die (s.opDie o)).vintage = o.askedAt →
      (reply.bytes.length = rB o.record → ∃ u, exec (.hostCompletion i reply false) s = .next u ∧ (u.op i).cursor = o.cursor + 1 ∧
        (∃ tag, (u.op i).outs = elemWrites s i o.record (elemOffs o.record o.cursor).2 reply.bytes tag) ∧ (u.op i).asked = false ∧
        SameMemory s u ∧ u.threads = s.threads) ∧
      ∃ u, exec (.hostCompletion i reply true) s = .next u ∧ (u.op i).status = 4 ∧ (u.op i).detail = 0x43500007 ∧
        SameMemory s u ∧ u.threads = s.threads)) ∧
  (∀ (s : State) (i : Nat) (reply : HostReply) (err : Bool),
    let o := s.op i
    let answered := s.modOp i fun o => { o with asked := false }
    o.asked = true → reply.port = rHport o.record →
      ((s.die (s.opDie o)).vintage ≠ o.askedAt → exec (.hostCompletion i reply err) s = .next (answered.modDie (s.opDie o) fun x =>
        { x with stalecnt := if x.stalecnt = 0xFFFFFFFF then x.stalecnt else x.stalecnt + 1 })) ∧
      ((s.die (s.opDie o)).vintage = o.askedAt → o.stage ≠ .started ∨ o.status ≠ 0 →
        exec (.hostCompletion i reply err) s = .next answered)) ∧
  ∀ (s : State) (k i n : Nat) (r : Route) (p : BitVec 1) (a : BitVec 64), s.routes[k]? = some r →
    (s.routes.take k).all (fun q => !(q.src == r.src && q.dst == r.dst)) = true → routeStale s r = false →
    r.body = .hostRead i a n → r.dst = .host p → i < s.ops.length →
    let out := (s.ops.filter fun o => o.asked && rHport o.record = p).length
    (out < 768 → ∃ u, exec (.deliver k (.done [])) s = .next u ∧ (u.op i).asked = true ∧
      (u.op i).askedAt = (s.die (s.opDie (s.op i))).vintage ∧ u.out = s.out ++ [.read p i a n] ∧
      u.routes = s.routes.eraseIdx k ∧ SameMemory s u ∧ u.threads = s.threads) ∧
    (768 ≤ out → exec (.deliver k (.done [])) s = .next s)

/-- R170, R256: PEER_ACK_TIMEOUT of a route to a peer, the device's own rank among them, whose acknowledgement is overdue: a store or
reduction is gone and its grid remembers it, a peer load completes with status 2 and a zero word, a copy's read stops it with status
2; a route that is not overdue stays. A number beyond the routes loses a route of a started collective, which aborts (log entry 40). -/
def Claims.PeerTimeouts : Prop :=
  (∀ (s : State) (i : Nat) (r : Route), s.routes[i]? = some r →
    let due := r.born + 1000000 * Config.peerAckTimeoutMs
    ((∀ rank ldie, r.dst ≠ .peer rank ldie) ∨ s.time.toNat < due → exec (.peerAckTimeout i) s = .next s) ∧
    (∀ rank ldie, r.dst = .peer rank ldie → due ≤ s.time.toNat →
      let gone (u : State) : Prop := exec (.peerAckTimeout i) s = .next u ∧ u.routes = s.routes.eraseIdx i ∧ SameMemory s u
      ((∃ pa w, r.body = .stx pa w) ∨ (∃ pa k xs, r.body = .red pa k xs) →
        ∃ u, gone u ∧ u.threads = s.threads ∧ u.ops = s.ops ∧
          ∀ l, r.launch = some l → l < s.launches.length → (u.la l).peerLost = true) ∧
      (∀ pa j, r.body = .ldx pa j → (s.op j).stage ≠ .done → j < s.ops.length →
        ∃ u, gone u ∧ (u.op j).stage = .done ∧ (u.op j).status = 2 ∧
          (∀ c h n, (s.op j).core = some c → (s.op j).dst = [h, .v n] → h ≠ .v n → (s.op j).tid < s.threads.length →
            n < (s.th (s.op j).tid).v.length → u.regVal (s.op j).tid (.v n) = 0 ∧ u.regFull (s.op j).tid (.v n) = true)) ∧
      (∀ j pa n, r.body = .peerRead j pa n → (s.op j).status = 0 → j < s.ops.length →
        ∃ u, gone u ∧ (u.op j).status = 2 ∧ (u.op j).stage = (s.op j).stage ∧ u.threads = s.threads))) ∧
  ∀ (s : State) (j : Nat), (s.op j).engine = 4 → (s.op j).stage = .started → (s.op j).status = 0 → j < s.ops.length →
    ∃ u, exec (.peerAckTimeout (s.routes.length + j)) s = .next u ∧ (u.op j).status = 3 ∧
      (u.op j).detail = cBmap (s.op j).record ∧ u.threads = s.threads ∧ SameMemory s u

/-- R217: over integer tags an element of C gains the sum of all products of its row and column, modulo 2^32. -/
def Claims.IntegerMatrixProduct : Prop :=
  ∀ (o : Op) (i j : Nat) (acc : Word), intTag o.atag = true → intTag o.btag = true →
    mmaElem o i j acc = (acc + BitVec.ofInt 32 (((List.range (bK o.record)).map fun k =>
      ((aElem o i k).dy.mul (bElem o k j).dy).z).sum), 0)

/-- R252: an FP32 sum folds the members in ascending group position, each member's own word at its own place. -/
def Claims.CollectiveFold : Prop :=
  ∀ (r : List Word) (pos : Nat) (w : Word) (others : List Word), cMode r ≤ 1 → cOp r = 2 → rEsz r = 2 →
    others.length = groupSize r - 1 → pos ≤ others.length →
    (colValue r pos (some (wBytes w)) (others.flatMap wBytes)).1 =
      match others.take pos ++ [w] ++ others.drop pos with
      | [] => []
      | x :: xs => wBytes (xs.foldl (fun a b => (add32 a b).1) x)

/-- R245: the place that a sort gives each token is that of a stable sort by key: distinct tokens have distinct places, a lower key
comes first, and equal keys keep their order. -/
def Claims.StableSort : Prop :=
  ∀ (ks : List Nat) (a b : Nat), a < ks.length → b < ks.length →
    (ks.getD a 0 < ks.getD b 0 → rankOfKey ks a < rankOfKey ks b) ∧
    (ks.getD a 0 = ks.getD b 0 → a < b → rankOfKey ks a < rankOfKey ks b) ∧
    rankOfKey ks a < ks.length

/-! ### Scheduling (chapter 16) -/

/-- R263, R264, R267: LAUNCH_START of the first ready head starts a pool kernel: its range counters stand at each die's share, the
round-robin pointer goes past its queue, and the launch keeps the sections that the step brings (an argument of the step: the model's
choice, log entry 60). A head whose dependence cannot be read is refused with code 6, and a launch that is no
ready head stays queued. -/
def Claims.LaunchStarts : Prop :=
  ∀ (s : State) (l : Nat) (place : LaunchPlace), l < s.launches.length →
    let w := (s.la l).words
    (isHead s l = true → depBad s l = true → (s.la l).op < s.ops.length → (s.op (s.la l).op).stage ≠ .done →
      ∃ u, exec (.launchStart l place) s = .next u ∧ (u.la l).stage = .complete ∧ (u.op (s.la l).op).status = 4 ∧
        (u.op (s.la l).op).detail = 0x4C520006 ∧ SameMemory s u) ∧
    (depBad s l = false → headReady s l = true → firstHead s l = true → lLattice w = false → s.planted = [] →
      ∃ u, exec (.launchStart l place) s = .next u ∧ (u.la l).stage = .started ∧ u.rr = (lQueue w + 1) % 64 ∧
        ((s.la l).op < s.ops.length → (u.op (s.la l).op).stage = .started) ∧ (u.la l).init = place.init ∧
        (∀ k, k < s.ndie → (u.la l).next.getD k 0 = (dieShare w s.ndie k).1) ∧ (∀ m, m ≠ l → u.la m = s.la m) ∧
        u.threads = s.threads ∧ u.dies = s.dies ∧ u.cores = s.cores) ∧
    (isHead s l = false ∨ (depBad s l = false ∧ s.planted = [] ∧ (headReady s l = false ∨ firstHead s l = false)) →
      exec (.launchStart l place) s = .next s)

/-- R181: a lattice launch whose descriptor breaks a rule is refused with the number of the first malformed word. -/
def Claims.LatticeDescriptors : Prop :=
  ∀ (s : State) (l k : Nat) (place : LaunchPlace) (db : List Byte), l < s.launches.length → s.planted = [] →
    let x := s.la l
    depBad s l = false → headReady s l = true → firstHead s l = true → lLattice x.words = true →
    readPieces s x.ctx (lNwin x.words + (lw x.words 12).toNat) 4 = some db → descBad s (wordsOf 16 db) = some k →
    x.op < s.ops.length → (s.op x.op).stage ≠ .done →
    ∃ u, exec (.launchStart l place) s = .next u ∧ (u.la l).stage = .complete ∧ (u.op x.op).status = 4 ∧
      (u.op x.op).detail = BitVec.ofNat 32 (0x4C440000 + k) ∧ SameMemory s u

/-- R262, R263: a launch that reaches its queue is refused with the code of the first failing check, or queued (that the checks are
tried in the order of their table is the model's choice, log entry 32). -/
def Claims.LaunchesQueue : Prop :=
  ∀ (s : State) (i : Nat) (w : List Word), i < s.ops.length →
    let code := launchCode s (s.op i).ctx w
    (code ≠ 0 → s.enterLaunch i w = s.completeOp i 4 (BitVec.ofNat 32 (0x4C520000 + code))) ∧
    (code = 0 → let u := s.enterLaunch i w
      (u.op i).stage = .queued ∧ (u.op i).record = w ∧ u.launches.length = s.launches.length + 1 ∧
      (u.la s.launches.length).stage = .queued ∧ (u.la s.launches.length).words = w ∧
      (u.la s.launches.length).op = i ∧ u.threads = s.threads ∧ SameMemory s u)

/-- R267, R268: the shares of the dies cover the teams of the grid once each, in order: without packs die k of n has the teams from
k·T/n on, and with packs (which divide the teams, R262) every share is of whole packs (the model's choice, log entry 25). -/
def Claims.TeamShares : Prop :=
  ∀ (w : List Word) (n : Nat), 0 < n →
    (dieShare w n 0).1 = 0 ∧ (lTeams w % max 1 (lPack w) = 0 → (dieShare w n (n - 1)).2 = lTeams w) ∧
    (lPack w = 0 → ∀ k, dieShare w n k = (k * lTeams w / n, (k + 1) * lTeams w / n)) ∧
    (∀ k, lPack w ∣ (dieShare w n k).1 ∨ lPack w = 0) ∧
    (∀ k, (dieShare w n k).2 = (dieShare w n (k + 1)).1) ∧ (∀ k, (dieShare w n k).1 ≤ (dieShare w n k).2) ∧
    ∀ k t, (dieShare w n k).1 ≤ t → t < (dieShare w n k).2 → ∀ j, (dieShare w n j).1 ≤ t → t < (dieShare w n j).2 → j = k

/-- The n teams from index `lo` on stand on a die (R85, R267, R268): the i-th has its grid indices, and all its warps, of a pair the even
half first, with a new thread in every lane, ready at ENTRY, on the context's logical core `core i` of the die, or on the one beside
it. -/
def TeamsStand (s u : State) (l die lo n : Nat) (pack : Option Nat) (core : Nat → Nat) : Prop :=
  let w := (s.la l).words
  let gx := (lw w 4).toNat
  let gy := (lw w 5).toNat
  ∀ i, i < n → ∃ m v t, s.teams.length ≤ m ∧ s.warps.length ≤ v ∧ s.threads.length ≤ t ∧
    let at_ := lo + i
    (u.tm m).launch = some l ∧ (u.tm m).pack = pack ∧ (u.tm m).warps = lWarps w ∧ (u.tm m).x = BitVec.ofNat 32 (at_ % gx) ∧
    (u.tm m).y = BitVec.ofNat 32 (at_ / gx % gy) ∧ (u.tm m).z = BitVec.ofNat 32 (at_ / (gx * gy)) ∧
    ∀ j k, j < lWarps w → k < lWidth w →
      let q := t + j * lWidth w + k
      let c := u.co (u.wp (v + j)).core
      q < u.threads.length ∧ (u.th q).warp = v + j ∧ (u.th q).lane = k ∧ (u.th q).pc = lw w 1 ∧ (u.th q).status = .ready ∧
      (u.wp (v + j)).team = m ∧ (u.wp (v + j)).threads[k]? = some q ∧ c.ctx = (s.la l).ctx ∧ c.ldie = die ∧
      c.core = core i + if j < evenWarps w then 0 else 1

/-- R267, R268: TEAM_CLAIM takes the next CLAIM + 1 indices of the die, or what is left. A core that can place the claim starts its teams
there and leaves what ran before as it was. With PACK the claim is divided into packs of consecutive teams, each of which is then placed
by itself (the model's reading, log entry 25). A claim that cannot be placed, finds no index, or that a grid of higher rank comes
before, changes nothing. -/
def Claims.TeamClaims : Prop :=
  ∀ (s u : State) (l die core : Nat),
    let n := min (lClaim (s.la l).words) (leftOn s l die)
    let lo := (s.la l).next.getD die 0
    let k := lPack (s.la l).words
    (outranked s l die [core] = true → exec (.teamClaim l die core) s = .next s) ∧
    (claimed s l die core = none → exec (.teamClaim l die core) s = .next s) ∧
    (leftOn s l die = 0 → exec (.teamClaim l die core) s = .next s) ∧
    (outranked s l die [core] = false → k = 0 → claimed s l die core = some u → exec (.teamClaim l die core) s = .next u ∧
      0 < n ∧ TeamsStand s u l die lo n none (fun _ => core) ∧
      ((s.la l).next.length = s.ndie → (u.la l).next.getD die 0 = lo + n) ∧
      (∀ t, t < s.threads.length → u.th t = s.th t) ∧ u.dies = s.dies ∧ u.ops = s.ops) ∧
    (outranked s l die [core] = false → k ≠ 0 → leftOn s l die ≠ 0 → core < 72 → l < s.launches.length →
      ∃ v, exec (.teamClaim l die core) s = .next v ∧
        ((s.la l).next.length = s.ndie → (v.la l).next.getD die 0 = lo + n) ∧
        (v.la l).packs = (s.la l).packs ++ (List.range (n / k)).map (fun j => (die, lo + k * j)) ∧
        v.threads = s.threads ∧ v.teams = s.teams ∧ v.dies = s.dies ∧ v.cores = s.cores ∧ v.ops = s.ops)

/-- R14, R268: PACK_START starts every team of the next pack that a claim has taken in one step, each on its core of the one die, or none:
none when no claim has taken one (a die's share is of whole packs: the model's choice, log entry 25), when there is not one core for
each team, when the cores are not connected, or when they cannot hold the teams. -/
def Claims.PackStarts : Prop :=
  ∀ (s u : State) (l die : Nat) (cores : List Nat),
    let w := (s.la l).words
    let n := lPack w
    let set := if lPair w then cores.flatMap fun c => [c, c + 1] else cores
    (outranked s l die cores = true ∨ packed s l die cores = none → exec (.packStart l die cores) s = .next s) ∧
    (n = 0 ∨ packsOn s l die = [] ∨ cores.length ≠ n ∨ meshConnected set = false →
      exec (.packStart l die cores) s = .next s) ∧
    (outranked s l die cores = false → packed s l die cores = some u → exec (.packStart l die cores) s = .next u ∧
      0 < n ∧ ∃ lo rest, packsOn s l die = lo :: rest ∧ TeamsStand s u l die lo n (some lo) (fun i => cores.getD i 0) ∧
        packsOn u l die = rest ∧ (u.la l).next = (s.la l).next ∧
        (∀ t, t < s.threads.length → u.th t = s.th t) ∧ u.dies = s.dies ∧ u.ops = s.ops)

/-- R85: the launch state of the threads of a warp: they are ready at ENTRY, with full registers of 0, tag raw, no loop active,
predicates false, MEET none, the window at 0 and outside every section. -/
def Claims.LaunchState : Prop :=
  ∀ (s u : State) (team c k : Nat) (w : List Word), s.tryWarp team c w = some u → k < lWidth w →
    let t := s.threads.length + k
    u.threads.length = s.threads.length + lWidth w ∧ (u.th t).warp = s.warps.length ∧ (u.th t).lane = k ∧
      (u.th t).pc = lw w 1 ∧ (u.th t).status = .ready ∧ (u.th t).v = List.replicate (lAlloc w) ⟨0, .raw, true⟩ ∧
      (u.th t).p = 0 ∧ (u.th t).lnk = 0 ∧ (u.th t).meet = none ∧ (u.th t).wbase = 0 ∧ (u.th t).depth = 0 ∧
      (∀ r ∈ (u.th t).lc, r.desc = none) ∧ (u.th t).inHandler = false ∧ (∀ n, n < s.threads.length → u.th n = s.th n)

/-- R265: GRID_COMPLETE of a grid all of whose work is done arrives on DONE and completes the launch, with status 2 when a peer
store of it was lost; before that it does nothing. The grid of a context that ends arrives on DONE too before it completes (the
model's reading, log entry 49); an arrival that fails translation is not made, and gives status 4 and its own DETAIL. -/
def Claims.GridCompletes : Prop :=
  ∀ (s s1 : State) (l : Nat), l < s.launches.length →
    let x := s.la l
    (x.stage = .started → s.planted = [] → x.op < s.ops.length → (s.op x.op).stage ≠ .done →
      (∀ m, m < s.launches.length → m ≠ l → (s.la m).ctx = x.ctx → (s.la m).stage = .complete) → ∀ st de,
      let u := s.endCtx x.ctx st de
      let near (v : State) : Prop := ∀ d a, Memory.read1 (u.die d).mem a = Memory.read1 (v.die d).mem a
      (u.la l).stage = .complete ∧
        (s.arriveDone l = some s1 → near s1 ∧ (u.op x.op).status = st ∧ (u.op x.op).detail = de) ∧
        (s.arriveDone l = none → near s ∧ (u.op x.op).status = 4 ∧ (u.op x.op).detail = 0x4C520006)) ∧
    (¬(x.stage = .started ∧ gridQuiet s l = true) → exec (.gridComplete l) s = .next s) ∧
    (x.stage = .started → gridQuiet s l = true → s.arriveDone l = some s1 → s1.launches = s.launches → s1.ops = s.ops →
      x.op < s.ops.length → (s.op x.op).stage ≠ .done →
      ∃ u, exec (.gridComplete l) s = .next u ∧ (u.la l).stage = .complete ∧ (u.op x.op).stage = .done ∧
        (u.op x.op).status = (if x.peerLost then 2 else 0) ∧ SameMemory s1 u) ∧
    (x.stage = .started → gridQuiet s l = true → s.arriveDone l = none → x.op < s.ops.length → (s.op x.op).stage ≠ .done →
      ∃ u, exec (.gridComplete l) s = .next u ∧ (u.op x.op).status = 4 ∧ (u.op x.op).detail = 0x4C520006)

/-- R90, R94, R270: BUNDLE_REGROUP of groups that may stand together sets the core's bundles and makes its yielded threads ready;
ISSUE_BOUND of a bundle with a lane that can issue makes that bundle the next to issue. -/
def Claims.Bundles : Prop :=
  ∀ (s : State) (core i : Nat) (groups : List (List Nat)),
    (groups.flatten.Nodup → groups.all (bundleOk s core) = true →
      ∃ u, exec (.bundleRegroup core groups) s = .next u ∧ (core < s.cores.length → (u.co core).bundles = groups) ∧
        (∀ t, t < s.threads.length → s.coreOf t = core → (s.th t).status = .yielded → (u.th t).status = .ready) ∧
        (∀ t, s.coreOf t ≠ core ∨ (s.th t).status ≠ .yielded → u.th t = s.th t) ∧ SameMemory s u) ∧
    (¬(groups.flatten.Nodup ∧ groups.all (bundleOk s core) = true) → exec (.bundleRegroup core groups) s = .next s) ∧
    (bundleLanes s core ((s.co core).bundles.getD i []) ≠ [] →
      exec (.issueBound core i) s = .next { s with forced := some (core, i) } ∧
      issueTurn { s with forced := some (core, i) } = some (core, i)) ∧
    (bundleLanes s core ((s.co core).bundles.getD i []) = [] → exec (.issueBound core i) s = .next s)

/-! ### Fault queues and events (chapters 8 and 22) -/

/-- R152, R241, R265, R313, R315: a translation fault enters its die's fault queue when there is room and nothing waits before it; the
head record's replay makes its thread ready to issue again, or its command go on; its termination ends the context, whose grids complete
with status 4 and the fault's kind, and the copy that it halted with code 8; the answer to a record of a context that has ended discards
it. That a started grid of the ended context arrives on DONE, with the detail of R265 where that fails, is the model's choice (log entry
49). -/
def Claims.FaultQueues : Prop :=
  ∀ (s : State) (die : Nat) (f : FaultRec),
    (die < s.dies.length → s.ioeq < Config.ioeqDepth → (s.die die).latch = [] → (s.die die).offers = [] →
      ((s.reportFault die f).die die).faultq = (s.die die).faultq ++ [f]) ∧
    (∀ rest t, (s.die die).faultq = f :: rest → f.ended = false → f.tid = some t → (s.th t).status = .parked f →
      t < s.threads.length → die < s.dies.length → ∃ u, exec (.frespReplay die) s = .next u ∧ (u.die die).faultq = rest ∧
        u.th t = { s.th t with status := .ready } ∧ SameMemory s u ∧ OthersSame s u t) ∧
    (∀ rest, (s.die die).faultq = f :: rest → f.ended = false → f.op = none → die < s.dies.length →
      ∃ u, exec (.frespTerminate die) s = .next u ∧
        (u.die die).faultq.map FaultRec.words = rest.map FaultRec.words ∧
        (∀ g ∈ (u.die die).faultq, g.ctx = f.ctx → g.ended = true) ∧ (u.ctx f.ctx).live = false ∧
        ContextEnded s u f.ctx 4 (BitVec.ofNat 32 (0x54460000 + f.kind.toNat))) ∧
    (∀ rest i, (s.die die).faultq = f :: rest → f.ended = false → f.op = some i → (s.op i).stage = .faulted →
      i < s.ops.length → die < s.dies.length →
      (f.tid = none → exec (.frespReplay die) s =
        .next ((s.modDie die fun x => { x with faultq := rest }).modOp i fun o => { o with stage := .started })) ∧
      ((s.op i).engine = 2 → (s.op i).status = 0 → (s.op i).rel = false → rBkind (s.op i).record = 0 →
        (∀ r ∈ s.routes, r.src ≠ .engine (s.op i).coreId 2) →
        ∃ u, exec (.frespTerminate die) s = .next u ∧ (u.op i).stage = .done ∧ (u.op i).status = 4 ∧
          (u.op i).detail = 0x43500008 ∧ (u.ctx f.ctx).live = false)) ∧
    (∀ rest, (s.die die).faultq = f :: rest → f.ended = true → die < s.dies.length →
      exec (.frespReplay die) s = .next (s.modDie die fun x => { x with faultq := rest }) ∧
      exec (.frespTerminate die) s = .next (s.modDie die fun x => { x with faultq := rest })) ∧
    ((s.die die).faultq = [] → exec (.frespReplay die) s = .next s ∧ exec (.frespTerminate die) s = .next s)

/-- R315: the FRESP register of a die's fault queue: bit 0 of the write says terminate or replay, the answer takes the head record
away, and FQHEAD0 to FQHEAD3 and FQCOUNT give the head's words and how many there are. -/
def Claims.FaultAnswerRegister : Prop :=
  ∀ (s : State) (die : Nat) (v : Word) (req : Nat) (port : BitVec 1), die < 8 → (s.port port).up = true →
    lgoWaits s req = false →
    let base := 0x40000 + 0x100 * die
    let write := exec (.controlRegisterWrite ⟨port, req, base + 0x14, 4, .bar0, false⟩ v) s
    write = exec (if v.getLsbD 0 then .frespTerminate die else .frespReplay die) s ∧
    controlRead s port req (base + 0x10) = BitVec.ofNat 32 ((s.die die).faultq.length % 2 ^ 16) ∧
    (∀ f rest k, (s.die die).faultq = f :: rest → k < 4 → controlRead s port req (base + 4 * k) = f.words.getD k 0) ∧
    (∀ f rest, (s.die die).faultq = f :: rest → die < s.dies.length →
      ∃ u, write = .next u ∧ (u.die die).faultq.map FaultRec.words = rest.map FaultRec.words)

/-- R313: FAULT_RECORD_OFFER moves the oldest latched record on when there is room. -/
def Claims.LatchedRecords : Prop :=
  ∀ (s : State) (die : Nat) (f : FaultRec) (rest : List LatchItem), (s.die die).latch = .fault f :: rest →
    (s.die die).offers = [] → die < s.dies.length →
    (s.ioeq < Config.ioeqDepth → ∃ u, exec (.faultRecordOffer die) s = .next u ∧
      (u.die die).faultq = (s.die die).faultq ++ [f] ∧ u.threads = s.threads ∧ SameMemory s u) ∧
    (Config.ioeqDepth ≤ s.ioeq → exec (.faultRecordOffer die) s = .next s)

/-- R308, R313, R314, R316: EQPOP removes the head event, FATALSTAT clears the bits written as 1, ERRINJ keeps ARM, NBITS and ARRAY,
TIMELO latches the high half of device time for its requester, and LINKSTAT clears RETRIED. -/
def Claims.ControlEvents : Prop :=
  ∀ (s : State) (v : Word) (req n : Nat) (port : BitVec 1),
    exec .eqpop s = .next { s with eventq := s.eventq.tail } ∧
    exec (.fatalstat v) s = .next { s with fatalstat := s.fatalstat &&& ~~~v } ∧
    exec (.errinj v) s = .next { s with errinj := v &&& 0xE000FFFF } ∧
    (∃ u, exec (.timelo req) s = .next u ∧ controlRead u port req 0x7000C = s.time.extractLsb' 32 32 ∧
      u.threads = s.threads ∧ SameMemory s u) ∧
    ∃ u, exec (.linkstat n) s = .next u ∧ (n < s.links.length → (u.links.getD n Link.reset).retried = false ∧
      (u.links.getD n Link.reset).up = (s.links.getD n Link.reset).up) ∧ u.threads = s.threads ∧ SameMemory s u

/-- R303, R306 to R309, R314: a register that the host writes reads back what its field keeps, through either port; HCQSIZE takes a power of
two from 16 to 65,536 and ignores any other; the counters clear, EQPOP removes the head event, FATALSTAT clears the bits written as 1,
MCMDGO starts a command with the block's address, and LGO makes a launch at its window, through whichever port the write came; a write to
a register that only reads changes nothing. An access that is misaligned, is not of 32 bits or lies beyond BAR0 gets Unsupported Request;
one through a link that is down is not made, nor is one behind the requester's own waiting write to LGO; a poisoned write is discarded and
logged (R303; in AER bit 12: PRESUMED, log entry 88); and a read of LHANDLE waits for the writes to LGO before it. -/
def Claims.ControlRegisters : Prop :=
  ∀ (s : State) (v : Word) (req : Nat) (port : BitVec 1),
    let write (off len : Nat) : Host.Outcome State Fault Refusal :=
      exec (.controlRegisterWrite ⟨port, req, off, len, .bar0, false⟩ v) s
    ((s.port port).up = false → ∀ off len, write off len = .next s) ∧
    ((s.port port).up = true → ∀ off len sp, exec (.controlRegisterWrite ⟨port, req, off, len, sp, true⟩ v) s =
      .next (if lgoWaits s req then s else s.aer port 12)) ∧
    ((s.port port).up = true →
      write 0x20040 4 = .next (s.writeLgo 0 req v) ∧ write 0x21040 4 = .next (s.writeLgo 1 req v) ∧
      ∀ p : BitVec 1, (s.port p).up = true → exec (.hostLaunch p req v) s = .next (s.writeLgo p req v)) ∧
    (∀ off len, lgoWaits s req = true → off ≠ 0x20040 → off ≠ 0x21040 → write off len = .next s) ∧
    ((s.port port).up = true → lgoWaits s req = false →
      (∀ off len, off % 4 ≠ 0 ∨ len ≠ 4 ∨ 2 ^ 26 ≤ off →
        (∃ u, write off len = .next u ∧ u.out = s.out ++ [.unsupported port req] ∧ u.threads = s.threads ∧ SameMemory s u) ∧
        controlAnswer s port req off len = .unsupported) ∧
      (∀ off, off % 4 = 0 → off < 2 ^ 26 → controlAnswer s port req off 4 =
        if off = 0x20044 ∧ (s.port 0).lgos ≠ [] ∨ off = 0x21044 ∧ (s.port 1).lgos ≠ [] then .wait
        else .word (controlRead s port req off)) ∧
      (s.ports.length = 2 → ∀ p : BitVec 1, let off := 0x30008 + 0x1000 * p.toNat
        (∀ k, 4 ≤ k → k ≤ 16 → v = BitVec.ofNat 32 (2 ^ k) → ∃ u, write off 4 = .next u ∧ controlRead u port req off = v ∧
          u.threads = s.threads ∧ SameMemory s u) ∧
        ((∀ k, 4 ≤ k → k ≤ 16 → v.toNat ≠ 2 ^ k) → write off 4 = .next s)) ∧
      (s.ports.length = 2 →
        (∀ r ∈ ([(0x10000, 0xFFFFFFFF), (0x10004, 0xFFFFFFFF), (0x30000, 0xFFFFFFF0), (0x30004, 0xFFFFFFFF),
            (0x3000C, 0xFFFFFFFF), (0x30014, 0x3F), (0x31000, 0xFFFFFFF0), (0x31004, 0xFFFFFFFF), (0x3100C, 0xFFFFFFFF),
            (0x31014, 0x3F), (0x50000, 0xE000FFFF), (0x50004, 0xFFFFFFFF), (0x50008, 0xFFFF), (0x50100, 0xFFFF),
            (0x50104, 0x3F), (0x60118, 0x3F), (0x70004, 0x3F), (0x80010, 0x3FF), (0x80014, 0xFFFFFFFF), (0x80018, 0x3FF),
            (0x8001C, 0xFFFFFFFF)] : List (Nat × Word)),
          ∃ u, write r.1 4 = .next u ∧ controlRead u port req r.1 = v &&& r.2 ∧ u.threads = s.threads ∧ u.ops = s.ops ∧
            SameMemory s u) ∧
        (∀ (p : BitVec 1) (j : Nat), j < 16 → j < (s.port p).lrec.length →
          ∃ u, write (0x20000 + 0x1000 * p.toNat + 4 * j) 4 = .next u ∧
            controlRead u port req (0x20000 + 0x1000 * p.toNat + 4 * j) = v)) ∧
      (∀ off ∈ [0x60050, 0x6011C], ∃ u, write off 4 = .next u ∧ controlRead u port req off = 0) ∧
      (∀ k, k < 8 → k < s.dies.length →
        (∃ u, write (0x60030 + 4 * k) 4 = .next u ∧ controlRead u port req (0x60030 + 4 * k) = 0) ∧
        ∃ u, write (0x60060 + 4 * k) 4 = .next u ∧ controlRead u port req (0x60060 + 4 * k) = 0) ∧
      write 0x60000 4 = exec (.fatalstat v) s ∧ write 0x60114 4 = exec .eqpop s ∧ write 0x50000 4 = exec (.errinj v) s ∧
      (v = 1 → s.mgmt.busy = false → ∃ u, write 0x10008 4 = .next u ∧ u.mgmt.busy = true ∧
        u.mgmt.addr = s.mgmt.mcmdhi ++ s.mgmt.mcmdlo ∧ controlRead u port req 0x1000C = 1 ∧
        u.mgmt.result = if fld s.mgmt.mcmdlo 0 6 = 0 then (0, 0) else (3, 3)) ∧
      (v ≠ 1 ∨ s.mgmt.busy = true → write 0x10008 4 = .next s) ∧
      ∀ off ∈ [0x0, 0x1000C, 0x20044, 0x30010, 0x31010, 0x40000, 0x40010, 0x50110, 0x60010, 0x60100, 0x60110, 0x70000, 0x70008,
          0x7000C, 0x70100, 0x70200, 0x80000, 0x90000], write off 4 = .next s)

/-! ### Host ports and peers (chapters 20 to 22) -/

/-- R303, R304, R308: an inbound posted write joins the route to its die; a poisoned one is logged instead; one beyond BAR2 gets
Unsupported Request; a port whose link is down takes none, and one behind its requester's waiting write to LGO waits. -/
def Claims.InboundWrites : Prop :=
  ∀ (s : State) (port : BitVec 1) (req off : Nat) (bytes : List Byte) (b : Bool),
    let p := s.port port
    let x := apertureSite p off
    let made (b : Bool) : Host.Outcome State Fault Refusal := exec (.inboundPostedWrite port req off bytes b) s
    (p.up = false ∨ lgoWaits s req = true → made b = .next s) ∧
    (p.up = true → lgoWaits s req = false → bytes.length ≤ 512 →
      (2 ^ 41 ≤ off → ∃ u, made b = .next u ∧ u.out = s.out ++ [.unsupported port req] ∧ u.routes = s.routes ∧
        u.threads = s.threads ∧ SameMemory s u) ∧
      (off < 2 ^ 41 →
        (∃ u, made true = .next u ∧ (port.toNat < s.ports.length →
          (u.port port).errors = p.errors ++ [(x.1, x.2, p.hctx)]) ∧ u.routes = s.routes ∧ u.threads = s.threads ∧
          SameMemory s u) ∧
        ∃ u r, made false = .next u ∧ u.routes = s.routes ++ [r] ∧
          r.body = .posted req x.2 bytes ∧ r.src = .host port ∧ r.dst = .die x.1 ∧ r.ctx = p.hctx ∧ u.threads = s.threads ∧
          SameMemory s u))

/-- R303, R304: an inbound read waits for its requester's posted writes; then it returns the bytes of near memory at its place, or ends
with an abort and a log entry when the place cannot be reached; one beyond BAR2 gets Unsupported Request. -/
def Claims.InboundReads : Prop :=
  ∀ (s : State) (port : BitVec 1) (req off len : Nat), (s.port port).up = true → lgoWaits s req = false → len ≤ 4096 →
    let p := s.port port
    let x := apertureSite p off
    (2 ^ 41 ≤ off → ∃ u, exec (.inboundRead port req off len) s = .next u ∧ u.out = s.out ++ [.unsupported port req] ∧
      u.threads = s.threads ∧ SameMemory s u) ∧
    (off < 2 ^ 41 →
      (postedPending s req = true → exec (.inboundRead port req off len) s = .next s) ∧
      (postedPending s req = false → s.planted = [] →
        (∀ d a, ownSite s p.hctx x.1 x.2 .load = some (d, a) → exec (.inboundRead port req off len) s =
          .next { s with out := s.out ++ [.completion port req (some (s.near d a len))] }) ∧
        (ownSite s p.hctx x.1 x.2 .load = none → ∃ u, exec (.inboundRead port req off len) s = .next u ∧
          u.out = s.out ++ [.completion port req none] ∧ SameMemory s u ∧ u.threads = s.threads)))

/-- R20, R308: HOST_LAUNCH in a context that is not live answers with handle 0; in a live one a good record is queued and the port's
handle is the launch's. A write to LGO waits, with its record, for the requester's posted writes, for a free slot and while as many
records are held as EVENT_HOLD; the next HOST_LAUNCH of the requester is that write, when it may be performed. -/
def Claims.HostLaunches : Prop :=
  ∀ (s : State) (port : BitVec 1) (req : Nat) (ctx : Word), (s.port port).up = true → s.ports.length = 2 →
    let p := s.port port
    (lgoWaits s req = false →
      (postedPending s req = false →
        ((s.ctx ctx).live = false → exec (.hostLaunch port req ctx) s =
          .next (s.modPort port fun x => { x with lhandle := 0 })) ∧
        (∀ k, (s.ctx ctx).live = true → freeSlot (s.usedSlots none port 5) = some k → p.held.length < Config.eventHold →
          launchCode s ctx p.lrec = 0 →
          ∃ u, exec (.hostLaunch port req ctx) s = .next u ∧ u.ops.length = s.ops.length + 1 ∧
            (u.op s.ops.length).stage = .queued ∧ (u.port port).lhandle = (u.op s.ops.length).handle ∧
            (u.op s.ops.length).slot = k ∧ (u.op s.ops.length).record = p.lrec ∧ u.threads = s.threads ∧ SameMemory s u)) ∧
      (postedPending s req = true ∨ (s.ctx ctx).live = true ∧
          (freeSlot (s.usedSlots none port 5) = none ∨ Config.eventHold ≤ p.held.length) →
        exec (.hostLaunch port req ctx) s = .next (s.modPort port fun x => { x with lgos := x.lgos ++ [⟨req, ctx, x.lrec⟩] }))) ∧
    ∀ w, p.lgos.find? (fun w => w.req = req) = some w →
      (lgoReady s port w = true → exec (.hostLaunch port req ctx) s = .next
        ((s.modPort port fun x => { x with lgos := x.lgos.eraseP fun w => w.req = req }).performLgo port w)) ∧
      (lgoReady s port w = false → exec (.hostLaunch port req ctx) s = .next s)

/-- R308, R311, R314, R336: the events of the links. HOST_LINK_DOWN takes a host port's link down; a retry is counted on a link that is
up; with the retries exhausted, LINK_RETRIES of them (the number at which it acts: the model's choice, log entry 55), the link goes down
with its time and a KIND 3 record; training brings a link that is not out of service up and enters
the far member into the domain table; MEMBER_COMPLETES_START enters a member. -/
def Claims.Links : Prop :=
  ∀ (s : State) (n : Nat) (l : Link) (port : BitVec 1) (rank : BitVec 8) (ndie : Nat), s.links[n]? = some l →
    (∃ u, exec (.hostLinkDown port) s = .next u ∧ (port.toNat < s.ports.length → (u.port port).up = false) ∧
      u.threads = s.threads ∧ SameMemory s u) ∧
    (l.up = true → exec (.linkRetry n) s = .next (s.modLink n fun l => { l with retried := true, retries := l.retries + 1 })) ∧
    (l.up = true → Config.linkRetries ≤ l.retries →
      ∃ u, exec (.linkRetriesExhausted n []) s = .next u ∧ (∃ k, u.links[n]? = some k ∧ k.up = false ∧ k.retries = 0 ∧
        k.failtime = s.time.extractLsb' 24 24) ∧ (s.ioeq < Config.ioeqDepth →
        ∃ e, u.eventq = s.eventq ++ [e] ∧ e.kind = 3 ∧ e.detail = BitVec.ofNat 16 n) ∧ SameMemory s u) ∧
    (l.oos = true → exec (.linkUp n rank ndie) s = .next s) ∧
    (l.oos = false → n < 64 → rank ≠ s.rank → ∃ u, exec (.linkUp n rank ndie) s = .next u ∧
      (∃ k, u.links[n]? = some k ∧ k.up = true ∧ k.rank = some rank) ∧ domNdie u rank = ndie ∧ SameMemory s u) ∧
    (rank ≠ s.rank → ∃ u, exec (.memberCompletesStart rank ndie) s = .next u ∧ domNdie u rank = ndie ∧ SameMemory s u ∧
      u.threads = s.threads)

/-- R280, R308, R311: losing the time lock clears LOCK and makes a KIND 4 record; gaining it sets LOCK, and GM (the model's choice, log
entry 53), makes a KIND 5 record, and takes the grandmaster's time when no context is loaded. The end of a step never takes device time
back. -/
def Claims.TimeLock : Prop :=
  (∀ s : State, s.time.toNat ≤ s.finishStep.time.toNat) ∧
  ∀ (s : State) (g : BitVec 64), s.ioeq < Config.ioeqDepth →
    (s.lock = true → ∃ u, exec .timeLockLost s = .next u ∧ u.lock = false ∧ u.time = s.time ∧
      (∃ e, u.eventq = s.eventq ++ [e] ∧ e.kind = 4) ∧ SameMemory s u ∧ u.threads = s.threads) ∧
    (s.lock = false → exec .timeLockLost s = .next s) ∧
    (s.lock = false → ∃ u, exec (.timeLockGained g) s = .next u ∧ u.lock = true ∧ u.gm = true ∧
      u.time = (if s.ctxs.any (fun c => c.live) then s.time else g) ∧
      (∃ e, u.eventq = s.eventq ++ [e] ∧ e.kind = 5) ∧ SameMemory s u ∧ u.threads = s.threads) ∧
    (s.lock = true → exec (.timeLockGained g) s = .next s)

/-! ### Management, resets, security and start-up (chapters 22 to 24) -/

/-- A management command of this block is being carried out and has no outcome yet. -/
def Commanded (s : State) (op : Nat) (blk : List Word) : Prop :=
  s.mgmt.busy = true ∧ s.mgmt.result.1 = 0 ∧ blk.length = 16 ∧ fld (lw blk 0) 0 8 = op ∧ s.sec.fuse = false

/-- The command's outcome waits: done, or refused with a code. -/
def Outcome (u : State) (code : Nat) : Prop :=
  u.mgmt.result = (if code = 0 then (2, 0) else (3, BitVec.ofNat 16 code))

/-- R309, R317, R337, R338: the management commands that act on contexts and images: a command without a cause of refusal acts and is
done, CREATE_CONTEXT writes its CTXID back to word 1 of the block, an image is in force when its header and signature verify, a failed
verification is counted, and the causes give their codes; of two causes together the lowest code is answered (the model's reading, log
entry 27). MANAGEMENT_COMMAND_DONE gives MCMDSTAT the outcome. -/
def Claims.ContextCommands : Prop :=
  ∀ (s : State) (blk rec pools : List Word) (body sig : List Byte), let img := body ++ sig
    (Commanded s 1 blk → rec.length = 16 → pools.length = 256 → restZero blk 3 = true → contextBad s rec = false →
      (imageOf s (fld (lw rec 1) 0 8)).isSome = true →
      (∃ u, exec (.createContext blk rec pools true) s = .next u ∧ Outcome u 0 ∧ (u.ctx (lw rec 0)).live = true ∧
        (u.ctx (lw rec 0)).words = rec ∧ (∃ p, u.out = s.out ++ [.write p (s.mgmt.addr + 4) (wBytes (lw rec 0))]) ∧
        u.threads = s.threads ∧ SameMemory s u) ∧
      ∃ u, exec (.createContext blk rec pools false) s = .next u ∧ Outcome u 5 ∧ u.ctxs = s.ctxs) ∧
    (Commanded s 2 blk → restZero blk 2 = true →
      ((s.ctx (lw blk 1)).live = true → ∃ u, exec (.destroyContext blk) s = .next u ∧ Outcome u 0 ∧
        (u.ctx (lw blk 1)).live = false) ∧
      ((s.ctx (lw blk 1)).live = false → ∃ u, exec (.destroyContext blk) s = .next u ∧ Outcome u 6 ∧ u.ctxs = s.ctxs)) ∧
    (Commanded s 3 blk → img.length = (lw blk 3).toNat → restZero blk 5 = true → fld (lw blk 4) 8 24 = 0 →
      s.sec.fails < 7 → let n := fld (lw blk 4) 0 8
      ∀ room, ∃ u, exec (.loadScheduleImage blk body sig room) s = .next u ∧
        if imageOk img 2 (lw blk 3) then
          if room then Outcome u 0 ∧ imageOf u n = some ⟨n, imageVersion img, imageDigest img⟩ ∧
            u.sec.inForce = imageDigest img ∧ u.sec.fails = 0
          else Outcome u 5 ∧ u.sec.images = s.sec.images
        else Outcome u 4 ∧ u.sec.fails = s.sec.fails + 1 ∧ u.sec.images = s.sec.images) ∧
    (Commanded s 4 blk → img.length = (lw blk 3).toNat → restZero blk 4 = true → s.sec.fails < 7 →
      s.sec.fwVersion.length = 2 → s.sec.fwDigest.length = 2 → let slot := ~~~s.sec.fwSlot
      ∃ u, exec (.loadFirmware blk body sig) s = .next u ∧ u.sec.fwSlot = s.sec.fwSlot ∧
        if imageOk img 1 (lw blk 3) then Outcome u 0 ∧ u.sec.fwNext = slot ∧
          u.sec.fwVersion.getD slot.toNat 0 = imageVersion img ∧ u.sec.fwDigest.getD slot.toNat [] = imageDigest img ∧
          u.sec.fails = 0
        else Outcome u 4 ∧ u.sec.fails = s.sec.fails + 1 ∧ u.sec.fwVersion = s.sec.fwVersion ∧
          u.sec.fwNext = s.sec.fwNext) ∧
    (s.mgmt.busy = true → s.mgmt.result.1 ≠ 0 → ∃ u, exec .managementCommandDone s = .next u ∧ u.mgmt.busy = false ∧
      u.mgmt.stat = s.mgmt.result.1 ∧ u.mgmt.code = s.mgmt.result.2) ∧
    (s.mgmt.busy = false ∨ s.mgmt.result.1 = 0 → exec .managementCommandDone s = .next s)

/-- R309, R336: the commands that act on the device: the rank is set while no context is loaded, a mapped die is reset, the
boot history is marked for clearing, and an opcode that is no command is refused with code 1, whatever else is wrong with the block (the
model's reading, log entry 27). -/
def Claims.DeviceCommands : Prop :=
  ∀ (s : State) (blk : List Word),
    (Commanded s 5 blk → restZero blk 2 = true → fld (lw blk 1) 8 24 = 0 →
      ((∀ c ∈ s.ctxs, c.live = false) → ∃ u, exec (.setDomainRank blk) s = .next u ∧ Outcome u 0 ∧
        u.rank = (lw blk 1).setWidth 8 ∧ domNdie u u.rank = s.ndie) ∧
      ((∃ c ∈ s.ctxs, c.live = true) → ∃ u, exec (.setDomainRank blk) s = .next u ∧ Outcome u 7 ∧ u.rank = s.rank)) ∧
    (Commanded s 6 blk → restZero blk 2 = true →
      ((lw blk 1).toNat < s.dies.length → (lw blk 1).toNat ≤ 7 → (s.die (lw blk 1).toNat).mapped = true →
        ∃ u, exec (.resetDie blk) s = .next u ∧ Outcome u 0 ∧ (u.die (lw blk 1).toNat).mem = [] ∧
          (u.die (lw blk 1).toNat).vintage = (s.die (lw blk 1).toNat).vintage + 1 ∧
          (u.die (lw blk 1).toNat).inService = false) ∧
      (7 < (lw blk 1).toNat → ∃ u, exec (.resetDie blk) s = .next u ∧ Outcome u 8 ∧ u.dies = s.dies)) ∧
    (Commanded s 7 blk → restZero blk 1 = true →
      ∃ u, exec (.clearBootHistory blk) s = .next u ∧ Outcome u 0 ∧ u.sec.clearBoot = true) ∧
    (∀ op, Commanded s op blk → op = 0 ∨ 8 ≤ op → ∃ u, exec (.answerFault blk) s = .next u ∧ Outcome u 1)

/-- The grids of every live context are complete with this status and detail, or with those of an arrival on DONE that failed
translation (R265; the model's reading, log entry 49). -/
def GridsEnd (s u : State) (status : BitVec 16) (detail : Word) : Prop :=
  ∀ l, l < s.launches.length → (∃ c ∈ s.ctxs, c.id = (s.la l).ctx ∧ c.live = true) → (s.la l).stage ≠ .complete →
    let n := (s.la l).op
    (u.la l).stage = .complete ∧ (n < s.ops.length → (s.op n).stage ≠ .done → (s.op n).engine = 5 →
      (∀ c, (s.op n).core = some c → (s.co c).ctx = (s.la l).ctx) →
      (u.op n).stage = .done ∧ ((u.op n).status = status ∧ (u.op n).detail = detail ∨
        (∃ m, (s.la m).op = n ∧ (s.la m).stage = .started ∧ (lDone (s.la m).words).en = true) ∧
          (u.op n).status = 4 ∧ (u.op n).detail = 0x4C520006))

/-- R312, R313: a die's fatal condition sets its FATALSTAT bit and resets the die: its memory is empty, its vintage is higher by
one, no thread of a context that used it is live (every loaded context uses a die that is placed: the model's choice, log entry 44), the
grids complete with status 1 (their DETAIL is open, a free value: log entry 6), and it is out of service until command 6; DIE_RESET_COMPLETED reports the new
vintage in a KIND 7 record. -/
def Claims.DieResets : Prop :=
  (∀ (s : State) (d : Nat) (field : BitVec 2), d < 8 → d < s.dies.length → field ≠ 3 → (s.die d).mapped = true →
    ∃ u, exec (.dieFatal d field) s = .next u ∧ u.fatalstat.getLsbD (8 * field.toNat + d) = true ∧ (u.die d).mem = [] ∧
      (u.die d).vintage = (s.die d).vintage + 1 ∧ (u.die d).inService = false ∧ (u.die d).resetting = some false ∧
      (d ∈ s.place → (∀ c ∈ u.ctxs, c.live = false) ∧
        (∀ n, n < s.threads.length → (s.ctxOf n).live = true → (u.th n).status = .exited) ∧
        (s.planted = [] → GridsEnd s u 1 s.openDetail))) ∧
  ∀ (s : State) (d : Nat), d < s.dies.length → s.ioeq < Config.ioeqDepth →
    (∀ b, (s.die d).resetting = some b → ∃ u, exec (.dieResetCompleted d) s = .next u ∧ (u.die d).resetting = none ∧
      (u.die d).inService = b ∧ ∃ e, u.eventq = s.eventq ++ [e] ∧ e.kind = 7 ∧
        e.detail = (s.die d).vintage.zeroExtend 16) ∧
    ((s.die d).resetting = none → exec (.dieResetCompleted d) s = .next s)

/-- R318: the tamper alarm ends every context with its grids at status 4 and DETAIL 0x54410000, erases the derived keys, blows the fuse and sets the input's TAMPERSTAT bit. -/
def Claims.TamperAlarm : Prop :=
  ∀ (s : State) (input : BitVec 3), input ≠ 7 → (input = 5 → 8 ≤ s.sec.fails) →
    ∃ u, exec (.tamperAlarm input) s = .next u ∧ u.sec.keys = false ∧ u.sec.fuse = true ∧
      u.sec.tamperstat = s.sec.tamperstat ||| (1#7 <<< input.toNat) ∧ (∀ c ∈ u.ctxs, c.live = false) ∧
      (∀ n, n < s.threads.length → (s.ctxOf n).live = true → (u.th n).status = .exited) ∧ GridsEnd s u 4 0x54410000

/-- R317, R318: an SPDM request on a port whose link is up is answered; with the fuse blown every request but GET_VERSION is
answered with an error. GET_MEASUREMENTS gives what the measurements cover (the schedule image's version in the IPT's digest is the
model's choice, and so are the contents of the other answers, log entry 28). -/
def Claims.Attestation : Prop :=
  ∀ (s : State) (port : BitVec 1), (s.port port).up = true →
    let ans (name : String) (err : Bool) : Host.Outcome State Fault Refusal :=
      .next { s with out := s.out ++ [.spdm port name err (if err then [] else spdmContents s name)] }
    exec (.getVersion port) s = ans "GET_VERSION" false ∧
    exec (.getCapabilities port) s = ans "GET_CAPABILITIES" s.sec.fuse ∧
    exec (.negotiateAlgorithms port) s = ans "NEGOTIATE_ALGORITHMS" s.sec.fuse ∧
    exec (.getDigests port) s = ans "GET_DIGESTS" s.sec.fuse ∧
    exec (.getCertificate port) s = ans "GET_CERTIFICATE" s.sec.fuse ∧
    exec (.challenge port) s = ans "CHALLENGE" s.sec.fuse ∧
    exec (.getMeasurements port) s = ans "GET_MEASUREMENTS" s.sec.fuse ∧
    spdmContents s "GET_MEASUREMENTS" = s.sec.fwDigest.getD s.sec.fwSlot.toNat [] ++ s.sec.inForce ++
      sha256 (((s.sec.history.getLast?.map fun r => (List.range 64).map r.word).getD []).flatMap wBytes) ++
      sha256 (((List.range Config.iptSize).map fun i => s.ipt i 0).flatMap wBytes)

/-- R318, R319, R320: how the steps of a start come out, in the record that it leaves. Every step before i has passed: then step i, if
its alternatives are used up, fails with the last of them and the device halts; where the start is cut off, its entry stands begun; else
it passes, or fails, with the alternative of this start. With the fuse blown no step follows the sixth, and a step that is not reached
keeps its alternative. -/
def StepsAre (s : State) (f : StartFacts) (es : List (BitVec 4 × BitVec 8 × Word)) : Prop :=
  ∀ i, i < 10 →
    let a := altOf s i
    let last := altCount.getD i 0
    let out := ((es.getD i (0, 0, 0)).1, (es.getD i (0, 0, 0)).2.1)
    let reached : Prop := (∀ j, j < i → (es.getD j (0, 0, 0)).1 = 1 ∨ (es.getD j (0, 0, 0)).1 = 2) ∧
      (5 < i → s.sec.fuse = false)
    (reached →
      (last < a → out = (3, BitVec.ofNat 8 last)) ∧
      (a ≤ last → f.cut = some i → out = (5, BitVec.ofNat 8 a)) ∧
      (a ≤ last → f.cut ≠ some i → out = (if stepOk s f i a then if a = 0 then 1 else 2 else 3, BitVec.ofNat 8 a))) ∧
    (¬reached → out = (0, BitVec.ofNat 8 a))

/-- R312, R317 to R320: a start writes its record under the next number, counts as a reset in every die's vintage, derives the
keys, leaves no context, thread, core or route, a clear racking unit and rank 0 (the rank: the model's choice, log entry 14). A step that
failed in the start before takes its next alternative, and one that passed keeps its own; the device halts exactly when a step's turn
comes that has no alternative left. A start all of whose steps pass places the dies that are not left out and have a stack; a die that
step 5 gave up is not among them. What acts on which socket, and that a step not reached keeps its alternative, is the model's choice, log entry
29. With seven failed verifications behind it a failure of the start's own can be the alarm (R318), which the clause on keys and fuse
leaves out. The record reads so in BOOTREC: the entry of a step that was not reached reads 0. -/
def Claims.StartUp : Prop :=
  ∀ (s : State) (f : StartFacts), ∃ u r, exec (.deviceStart f) s = .next u ∧ u.sec.history.getLast? = some r ∧
    u.sec.startNumber = s.sec.startNumber + 1 ∧ r.number = s.sec.startNumber + 1 ∧ r.steps.length = 10 ∧ StepsAre s f r.steps ∧
    u.sec.history.length ≤ 256 ∧ u.ctxs = [] ∧ u.threads = [] ∧ u.cores = [] ∧ u.routes = [] ∧ u.ops = [] ∧
    u.g = 0 ∧ u.gdone = 0 ∧ u.req = false ∧ u.rank = 0 ∧ u.sec.clearBoot = false ∧
    (∀ d ∈ u.dies, d.mem = []) ∧ (∀ k, k < 8 → (u.die k).vintage = (s.die k).vintage + 1) ∧
    (s.sec.fails < 7 → u.sec.keys = true ∧ u.sec.fuse = s.sec.fuse) ∧
    (s.sec.clearBoot = true → ∀ i, altOf s i = 0) ∧
    (∀ old i e, s.sec.clearBoot = false → s.sec.history.getLast? = some old → old.steps[i]? = some e →
      altOf s i = e.2.1.toNat + if e.1 = 3 ∨ e.1 = 5 then 1 else 0) ∧
    (u.sec.halted = true ↔ ∃ i, i < 10 ∧ altCount.getD i 0 < altOf s i ∧
      (∀ j, j < i → r.outcome j = 1 ∨ r.outcome j = 2) ∧ (5 < i → s.sec.fuse = false)) ∧
    (r.complete = true → ∀ k, k < 8 → (k ∈ u.place ↔ u.sec.degraded.gone.getLsbD k = false ∧
      (u.sec.degraded.gone.getLsbD (12 + 2 * k) = false ∨ u.sec.degraded.gone.getLsbD (13 + 2 * k) = false))) ∧
    (s.sec.clearBoot = true → u.sec.degraded = Degraded.none) ∧
    (∀ old w, s.sec.clearBoot = false → s.sec.history.getLast? = some old → old.steps[4]? = some (3, 1, w) → w.toNat < 8 →
      r.complete = true → w.toNat ∉ u.place) ∧
    (r.complete = false → u.place = []) ∧
    (r.word 0 = r.number ∧ ∀ i, i < 10 → ∀ e, r.steps[i]? = some e →
      r.word (4 * (i + 1)) = if e.1 = 0 then 0 else BitVec.ofNat 4 (i + 1) ++ e.1 ++ e.2.1 ++ (0#16))

/-- R320: a restart after a failed step is a start, up to eight in a row; a start that completed, halted or stopped is not
repeated. While the device is halted every step but a device start is the stop of R320. -/
def Claims.Restarts : Prop :=
  (∀ (s : State) (f : StartFacts) (r : StartRec), s.sec.history.getLast? = some r →
    (r.complete = false → s.sec.halted = false → s.sec.stopped = false → s.sec.restarts < 8 →
      ∃ u, exec (.deviceRestart f) s = .next u ∧ u.sec.restarts = s.sec.restarts + 1 ∧
        u.sec.startNumber = s.sec.startNumber + 1) ∧
    (r.complete = true ∨ s.sec.halted = true ∨ s.sec.stopped = true ∨ 8 ≤ s.sec.restarts →
      exec (.deviceRestart f) s = .next s)) ∧
  ∀ (s : State), s.sec.halted = true → (∀ f, s.turn ≠ .event (.deviceStart f)) → step s = .fault .startHalted

/-! ### Frames of the arithmetic rows (chapter 7) -/

/-- R37, R43, R115, R184: what a row leaves of everything but its result: all registers that it does not name as its destination,
the predicates, the flags but for those it ORs in, the masks, memory, the other threads and the registers with instructions of their
own. The register x that it names takes the word; a destination z takes nothing. -/
def Claims.RowFrame : Prop :=
  ∀ (r : Row) (s : State) (t : Nat) (vals : List Word), t < s.threads.length → (s.th t).warp < s.warps.length →
    let u := r.after s t vals
    let w := (s.th t).warp
    let dst := regsOf (s.th t) r.d r.dn
    (∀ n, RegRef.v n ∉ dst → u.regVal t (.v n) = s.regVal t (.v n) ∧ u.regTag t (.v n) = s.regTag t (.v n) ∧
      u.regFull t (.v n) = s.regFull t (.v n)) ∧
    (∀ n, RegRef.s n ∉ dst → (u.wp w).s[n]? = (s.wp w).s[n]?) ∧
    (u.wp w).fp = (s.wp w).fp ||| (r.out s t vals).flags ∧ (u.wp w).m = (s.wp w).m ∧ (u.th t).p = (s.th t).p ∧
    (u.th t).x = (match r.d with
      | .x i => (s.th t).x.set i.toNat ((r.out s t vals).vals.getD 0 0)
      | _ => (s.th t).x) ∧
    SpecialsSame { u.th t with x := (s.th t).x } (s.th t) ∧ SameMemory s u ∧ OthersSame s u t ∧
    ∀ v, v ≠ w → u.wp v = s.wp v

/-- R43, R115: the register that a row of one result names holds its result, with its tag, and is full; for a moment instruction
three registers do. -/
def Claims.RowResult : Prop :=
  ∀ (r : Row) (s : State) (t : Nat) (vals : List Word) (n : BitVec 6), t < s.threads.length → r.d = .v n →
    (s.th t).wbase + n.toNat + r.dn ≤ (s.th t).v.length → (r.out s t vals).vals.length = r.dn →
    ∀ i, i < r.dn → let g := RegRef.v ((s.th t).wbase + n.toNat + i)
      (r.after s t vals).regVal t g = (r.out s t vals).vals.getD i 0 ∧
      (r.after s t vals).regTag t g = (r.out s t vals).tag ∧ (r.after s t vals).regFull t g = true

/-- R89, R90, R42: two lanes of one bundle that can both execute do so, each on its own registers; with an s destination only the
lower lane of a warp acts. -/
def Claims.LanesTogether : Prop :=
  ∀ (s : State) (i : Instr) (w : R3) (f : Word → Word → Word) (t u : Nat) (vt vu : List Word), intOp3 i = some (w, f) →
    s.issuing = [t, u] → t ≠ u → t < s.threads.length → u < s.threads.length → s.live t = true → s.live u = true →
    guardOn w.x (s.th t) = true →
    guardOn w.x (s.th u) = true → let r := rowR3 w fun a b => outW (f a b)
    RowGiven r s t vt →
    (∀ n, w.d = .v n → RowGiven r s u vu → exec i s = .next (r.after (r.after s t vt) u vu)) ∧
    (∀ n, w.d = .s n → (s.th t).warp = (s.th u).warp → exec i s = .next ((r.after s t vt).retire u (extLen w.x)))

/-- R48, R271: when a lane of a bundle traps, the instruction has no effect in any lane: that lane takes its trap, and the other stays
as it is, at its PC. -/
def Claims.TrapStopsTheBundle : Prop :=
  ∀ (s : State) (i : Instr) (w : R3) (f : Word → Word → Word) (t u : Nat) (o : Operand), intOp3 i = some (w, f) →
    s.issuing = [t, u] → w.d.isS = false → guardOn w.x (s.th t) = true → guardOn w.x (s.th u) = true →
    [w.d, w.a, w.b].find? (opBad s t) = some o →
    Given s u [w.d, w.a, w.b] [src w.a w.ea, src w.b w.eb] (regsOf (s.th u) w.d 1) →
    (∀ n, w.d ≠ .q n ∧ w.a ≠ .q n ∧ w.b ≠ .q n) →
    exec i s = .next (s.faultTrap t 2 o.code.toNat (pcAddr (s.th t).pc))

/-- R35: a lane whose guard is false passes the instruction by: nothing of it changes but the PC. -/
def Claims.GuardedOff : Prop :=
  ∀ (s : State) (t : Nat) (i : Instr) (x : Option Ext), s.issuing = [t] → guardOn x (s.th t) = false →
    (∃ w f, intOp3 i = some (w, f) ∧ w.x = x) ∨ (∃ w f, floatOp2 i = some (w, f) ∧ w.x = x) ∨
      (∃ w sp, loadOf i = some (w, sp) ∧ w.x = x) ∨ (∃ w sp, storeOf i = some (w, sp) ∧ w.x = x) ∨ i = .exit x ∨ i = .brk x ∨
      i = .qenter x →
    exec i s = .next (s.retire t (extLen x))

/-! ### Decoding (chapter 5) -/

/-- R25 to R46: every instruction that is encoded is read back from its bytes, whatever bytes follow. -/
def Claims.DecodeOfEncode : Prop :=
  ∀ (i : Instr) (x : Option Ext) (w : Word) (rest : List Byte), encodeWord i = some (x, w) → i.legal = true →
    decode (encode i ++ rest) = .ok (i, rest)

/-- R45, R46: a word that is read as an instruction is the word of that instruction: no two words are read alike, and no reserved bit
is passed over. -/
def Claims.EncodeOfDecode : Prop :=
  ∀ (x : Option Ext) (w : Word) (i : Instr), decodeWord x w = .ok i → encodeWord i = some (x, w)

/-- R36, R93, R96, R105, R118, R124, R182, R208, R231, R275: words that the manual writes out are read as the instructions that they
stand for; an opcode without an instruction is refused. -/
def Claims.KnownWords : Prop :=
  let v (n : BitVec 6) : Operand := .v n
  let g (p : BitVec 3) (neg : Bool) : Option Ext := some { Ext.ofWord 0 with g := true, gp := p, gn := neg }
  decodeTableWord 32 0x0A141030 = some (.mulhu ⟨none, v 5, v 2, v 3, false, false, false, false⟩) ∧
  decodeTableWord 32 0x3C000000 = some (.movi none (v 0) 0) ∧
  decodeTableWord 32 0x42440D90 = some (.setp none .lt 1 (v 1) .lane false false false false) ∧
  decodeTableWord 64 0x02000010FD200000 = some (.add ⟨g 1 false, v 0, v 0, v 1, false, false, false, false⟩) ∧
  decodeTableWord 64 0xA0502410FC000027 = some (.ldn ⟨some { Ext.ofWord 0 with immx := 0x27 }, v 20, v 4, 4, 0x10⟩) ∧
  decodeTableWord 32 0x82BFFFFB = some (.brp 2 true (-5)) ∧
  decodeTableWord 32 0x9A000A90 = some (.loop 0 0 10 true 1) ∧
  decodeTableWord 64 0x8E1C0803FD600000 = some (.vote (g 3 false) ⟨7, by decide⟩ ⟨false, 1⟩ 3) ∧
  decodeTableWord 32 0xE3605000 = some (.fwait none .z (v 10)) ∧
  decodeTableWord 32 0xE0004001 = some (.barArrive none false (v 8)) ∧
  decodeTableWord 32 0xC4140800 = some (.lred none .add (v 5) (v 1) false) ∧
  decodeTableWord 32 0xD4208460 = some (.mma none (v 8) (v 16) (.s 6) false false) ∧
  decodeTableWord 32 0xD8284800 = some (.xcp none (v 10) (v 9) false) ∧
  decodeTableWord 32 0xE80A2000 = some (.palloc none (v 2) (.s 4) false false) ∧
  decodeTableWord 32 0xF2000000 = some (.rte none) ∧
  decodeTableWord 32 0xFA082810 = some (.ctxsave none (v 2) (v 5)) ∧
  decodeTableWord 32 0 = none

/-! ### Issue and steps (chapter 6) -/

/-- R25, R27, R51, R90: when it is a bundle's turn, no release or meeting is due, and the words at the lane's PC decode to a legal
instruction, the step is that instruction's in the lanes of the bundle, after which device time has passed and the next step is
chosen. The lines fetched, of 64 bytes, are then in the instruction cache (the model's choice, log entry 66). An uncorrectable error that the fetch reads ends the context instead (R174). Without an active loop the instruction is that of
the fetched words. -/
def Claims.StepRunsTheInstruction : Prop :=
  ∀ (s : State) (c b t : Nat) (ts : List Nat) (x : Option Word) (w : Word) (i : Instr), s.sec.halted = false →
    dueEvent s = none → issueTurn s = some (c, b) →
    let s0 := { s with forced := none }
    bundleLanes s0 c ((s.co c).bundles.getD b []) = t :: ts → fetchAt s0 t = .ok x w →
    legalInstr (instrWords (s.th t) x w) = some i →
    (let lanes := (t :: ts).filter fun u => instrWords (s.th u) x w = instrWords (s.th t) x w
     let s1 := (s0.cacheLine t (s.th t).pc).cacheLine t ((s.th t).pc + if x.isSome then 4 else 0)
     (s.planted = [] → s1.live t = true) ∧
     (s1.live t = true → step s = match exec i { s1 with issuing := lanes } with
       | .next u => .next u.finishStep
       | .fault r => .fault r
       | .refused r => .refused r) ∧
     (s1.live t = false → step s = .next s1.finishStep)) ∧
    ((∀ r ∈ (s.th t).lc, r.desc = none) → instrWords (s.th t) x w = (x, w))

/-- R47: an illegal word traps in its lane, its guard true or false; R26, R152: a fetch that cannot be translated parks it. -/
def Claims.IllegalWordsTrap : Prop :=
  ∀ (s : State) (c b t : Nat), s.sec.halted = false → dueEvent s = none → issueTurn s = some (c, b) →
    let s0 := { s with forced := none }
    bundleLanes s0 c ((s.co c).bundles.getD b []) = [t] →
    (∀ x w, fetchAt s0 t = .ok x w → legalInstr (instrWords (s.th t) x w) = none → s.planted = [] →
      step s = .next ((((s0.cacheLine t (s.th t).pc).cacheLine t ((s.th t).pc + if x.isSome then 4 else 0)).faultTrap t 1 0
        (pcAddr (s.th t).pc)).finishStep)) ∧
    (∀ k va, fetchAt s0 t = .fault k va → s.planted = [] → let s1 := s0.cacheLine t (s.th t).pc
      step s = .next ((s1.park t (s1.faultRec t va k .fetch)).finishStep))

/-- R51, R91, R96, R97: a release or a meeting that is due is the next step; otherwise an event has its turn, and an instruction has
none as an event. -/
def Claims.EventSteps : Prop :=
  ∀ (s u : State) (e : Instr), s.sec.halted = false →
    (dueEvent s = some e → exec e s = .next u → step s = .next u.finishStep) ∧
    (dueEvent s = none → issueTurn s = none → s.turn = .event e →
      (e.isEvent = true → exec e s = .next u → step s = .next u.finishStep) ∧
      (e.isEvent = false → step s = .next s.finishStep))

/-! ### Invariants and reset -/

/-- The bytes of near memory and of the buffers stay in canonical form: every step keeps it. -/
def Claims.MemoryStaysCanonical : Prop :=
  ∀ (s u : State), s.MemCanonical → step s = .next u → u.MemCanonical

/-- Reset memory is in canonical form: nothing is listed. -/
def Claims.MemoryCanonicalAtReset : Prop :=
  State.reset.MemCanonical ∧ ∀ d a, Memory.read1 (State.reset.die d).mem a = 0

/-- Canonical memories that read alike are the same data. -/
def Claims.CanonicalMemoriesAgree : Prop :=
  ∀ (m n : Memory), Memory.wf m = true → Memory.wf n = true → (∀ a, Memory.read1 m a = Memory.read1 n a) → m = n

/-- What a write of bytes leaves: its bytes, every other byte as before, and canonical form. -/
def Claims.ReadAfterWrite : Prop :=
  ∀ (m : Memory) (x : Nat) (bs : List Byte), Memory.wf m = true →
    Memory.wf (Memory.write m x bs) = true ∧ Memory.read (Memory.write m x bs) x bs.length = bs ∧
    ∀ a, (a < x ∨ x + bs.length ≤ a) → Memory.read1 (Memory.write m x bs) a = Memory.read1 m a

/-- R289, R312, R320, R336: what the reset that the spec describes leaves: no context, thread, grid or operation; the racking unit at
period 0; the device alone in its domain, at rank 0 (the rank before SET_DOMAIN_RANK is the model's choice, log entry 14); empty queues
and no error recorded. -/
def Claims.StateAfterReset : Prop :=
  State.reset.ctxs = [] ∧ State.reset.threads = [] ∧ State.reset.launches = [] ∧ State.reset.ops = [] ∧
  State.reset.routes = [] ∧ State.reset.g = 0 ∧ State.reset.gdone = 0 ∧ State.reset.req = false ∧ State.reset.rank = 0 ∧
  State.reset.domain = [(0, State.reset.ndie)] ∧ State.reset.eventq = [] ∧ State.reset.fatalstat = 0 ∧
  State.reset.lock = false ∧ State.reset.errinj = 0 ∧ (∀ d ∈ State.reset.dies, d.mem = [] ∧ d.faultq = [] ∧ d.vintage = 0)

/-! ### The statements for the provers -/

/-- Together: `Claims.IntegerThreeRegister`, `Claims.IntegerOneSourceAndImmediate`, `Claims.ConstantsSelectAndBitFields`. -/
def Obligations.IntegerArithmetic : Prop :=
  Claims.IntegerThreeRegister ∧ Claims.IntegerOneSourceAndImmediate ∧ Claims.ConstantsSelectAndBitFields

/-- Together: `Claims.FloatResults`, `Claims.TaggedResults`, `Claims.MomentResults`. -/
def Obligations.FloatingPointAndMoments : Prop :=
  Claims.FloatResults ∧ Claims.TaggedResults ∧ Claims.MomentResults

/-- Together: `Claims.ComparisonsWritePredicates`, `Claims.BitStream`. -/
def Obligations.ComparisonsAndBitStream : Prop :=
  Claims.ComparisonsWritePredicates ∧ Claims.BitStream

/-- Together: `Claims.DivisionNeverTraps`, `Claims.DivisionLaws`, `Claims.BitCounts`. -/
def Obligations.DivisionLawsAndBitCounts : Prop :=
  Claims.DivisionNeverTraps ∧ Claims.DivisionLaws ∧ Claims.BitCounts

/-- Together: `Claims.RowFrame`, `Claims.RowResult`. -/
def Obligations.ArithmeticFrame : Prop :=
  Claims.RowFrame ∧ Claims.RowResult

/-- Together: `Claims.DeferredInstructions`, `Claims.AllOrNothing`, `Claims.PopsAndDeferredComplete`. -/
def Obligations.DeferralAndAllOrNothing : Prop :=
  Claims.DeferredInstructions ∧ Claims.AllOrNothing ∧ Claims.PopsAndDeferredComplete

/-- Together: `Claims.LanesTogether`, `Claims.TrapStopsTheBundle`, `Claims.GuardedOff`. -/
def Obligations.LanesOfABundle : Prop :=
  Claims.LanesTogether ∧ Claims.TrapStopsTheBundle ∧ Claims.GuardedOff

/-- Together: `Claims.ControlTransfers`, `Claims.AdvanceOutsideLoops`. -/
def Obligations.ControlFlow : Prop :=
  Claims.ControlTransfers ∧ Claims.AdvanceOutsideLoops

/-- Together: `Claims.LoopOpens`, `Claims.LoopSteps`, `Claims.LoopBackEdge`, `Claims.SteppedWords`. -/
def Obligations.HardwareLoops : Prop :=
  Claims.LoopOpens ∧ Claims.LoopSteps ∧ Claims.LoopBackEdge ∧ Claims.SteppedWords

/-- Together: `Claims.ExitLeavesTheMasks`, `Claims.SoftwareTraps`, `Claims.WindowBase`. -/
def Obligations.ExitTrapsAndWindow : Prop :=
  Claims.ExitLeavesTheMasks ∧ Claims.SoftwareTraps ∧ Claims.WindowBase

/-- Together: `Claims.MaskResults`, `Claims.MaskReads`. -/
def Obligations.LaneMasks : Prop :=
  Claims.MaskResults ∧ Claims.MaskReads

/-- Together: `Claims.MaskWait`, `Claims.MeetRelease`. -/
def Obligations.MeetAndMaskWaits : Prop :=
  Claims.MaskWait ∧ Claims.MeetRelease

/-- Together: `Claims.CrossLaneArrival`, `Claims.CrossLaneMeetings`. -/
def Obligations.CrossLaneExecution : Prop :=
  Claims.CrossLaneArrival ∧ Claims.CrossLaneMeetings

/-- Together: `Claims.ShuffleValues`, `Claims.ReductionValues`. -/
def Obligations.CrossLaneValues : Prop :=
  Claims.ShuffleValues ∧ Claims.ReductionValues

/-- Together: `Claims.LoadsIssue`, `Claims.ScaleLoadsAndPrefetch`. -/
def Obligations.LoadsAreIssued : Prop :=
  Claims.LoadsIssue ∧ Claims.ScaleLoadsAndPrefetch

/-- Together: `Claims.StoresIssue`, `Claims.AccessFaults`. -/
def Obligations.StoresAreIssuedOrFault : Prop :=
  Claims.StoresIssue ∧ Claims.AccessFaults

/-- Together: `Claims.AtomicsIssue`, `Claims.AtomicFunctions`, `Claims.AtomicsExecute`. -/
def Obligations.AtomicOperations : Prop :=
  Claims.AtomicsIssue ∧ Claims.AtomicFunctions ∧ Claims.AtomicsExecute

/-- Together: `Claims.PeerAccess`, `Claims.PeerTimeouts`. -/
def Obligations.PeerAccessAndLoss : Prop :=
  Claims.PeerAccess ∧ Claims.PeerTimeouts

/-- Together: `Claims.LeaveFifo`, `Claims.ReleasesWait`, `Claims.Fences`, `Claims.NonTemporalDrain`. -/
def Obligations.FifoAndFences : Prop :=
  Claims.LeaveFifo ∧ Claims.ReleasesWait ∧ Claims.Fences ∧ Claims.NonTemporalDrain

/-- Together: `Claims.StoresReachMemory`, `Claims.CopiesAndMerges`. -/
def Obligations.StoresReachTheirPlace : Prop :=
  Claims.StoresReachMemory ∧ Claims.CopiesAndMerges

/-- Together: `Claims.LoadsPerform`, `Claims.NearLoadsPerform`, `Claims.LoadSources`, `Claims.LoadExtension`, `Claims.LoadedValue`. -/
def Obligations.LoadsTakeTheirValues : Prop :=
  Claims.LoadsPerform ∧ Claims.NearLoadsPerform ∧ Claims.LoadSources ∧ Claims.LoadExtension ∧ Claims.LoadedValue

/-- The statement `Claims.Deliveries`. -/
def Obligations.RoutesDeliver : Prop :=
  Claims.Deliveries

/-- The statement `Claims.BarrierObjects`. -/
def Obligations.BarrierObjectOperations : Prop :=
  Claims.BarrierObjects

/-- Together: `Claims.BarrierIssue`, `Claims.BarrierApplies`, `Claims.BarrierWaitAndTest`. -/
def Obligations.BarrierInstructions : Prop :=
  Claims.BarrierIssue ∧ Claims.BarrierApplies ∧ Claims.BarrierWaitAndTest

/-- Together: `Claims.Futures`, `Claims.QueueOperations`. -/
def Obligations.FuturesAndQueues : Prop :=
  Claims.Futures ∧ Claims.QueueOperations

/-- Together: `Claims.GraceKept`, `Claims.GraceAtReset`, `Claims.PeriodInProgress`. -/
def Obligations.GraceCounterInvariant : Prop :=
  Claims.GraceKept ∧ Claims.GraceAtReset ∧ Claims.PeriodInProgress

/-- Together: `Claims.GracePeriods`, `Claims.MarkersDrain`. -/
def Obligations.GracePeriodSteps : Prop :=
  Claims.GracePeriods ∧ Claims.MarkersDrain

/-- Together: `Claims.ReadSideSections`, `Claims.Tickets`. -/
def Obligations.SectionsAndTickets : Prop :=
  Claims.ReadSideSections ∧ Claims.Tickets

/-- Together: `Claims.Pools`, `Claims.BlockStates`. -/
def Obligations.PoolOperations : Prop :=
  Claims.Pools ∧ Claims.BlockStates

/-- Together: `Claims.TrapDelivery`, `Claims.TrapsWaitForStores`. -/
def Obligations.TrapEntry : Prop :=
  Claims.TrapDelivery ∧ Claims.TrapsWaitForStores

/-- Together: `Claims.UnhandledTrapEndsContext`, `Claims.ReturnFromTrap`. -/
def Obligations.TrapEndAndReturn : Prop :=
  Claims.UnhandledTrapEndsContext ∧ Claims.ReturnFromTrap

/-- Together: `Claims.SpecialRegisterAccess`, `Claims.SpecialRegisterValues`, `Claims.SpecialRegisterWrites`, `Claims.TimedWait`. -/
def Obligations.SpecialRegistersAndTime : Prop :=
  Claims.SpecialRegisterAccess ∧ Claims.SpecialRegisterValues ∧ Claims.SpecialRegisterWrites ∧ Claims.TimedWait

/-- Together: `Claims.PrivilegeRequired`, `Claims.PrivilegedOperations`. -/
def Obligations.PrivilegedInstructions : Prop :=
  Claims.PrivilegeRequired ∧ Claims.PrivilegedOperations

/-- Together: `Claims.SavingAndRestoring`, `Claims.SavedStateIsKept`. -/
def Obligations.ContextSaveAndRestore : Prop :=
  Claims.SavingAndRestoring ∧ Claims.SavedStateIsKept

/-- Together: `Claims.Phases`, `Claims.PhaseEnds`, `Claims.PhasePublishes`. -/
def Obligations.PhasesOfCells : Prop :=
  Claims.Phases ∧ Claims.PhaseEnds ∧ Claims.PhasePublishes

/-- Together: `Claims.CellInstructions`, `Claims.FacesAndReports`. -/
def Obligations.CellsAndTheirMessages : Prop :=
  Claims.CellInstructions ∧ Claims.FacesAndReports

/-- Together: `Claims.LatticeReductions`, `Claims.ReductionTree`. -/
def Obligations.LatticeReduction : Prop :=
  Claims.LatticeReductions ∧ Claims.ReductionTree

/-- The statement `Claims.Pager`. -/
def Obligations.PagerPlacesCells : Prop :=
  Claims.Pager

/-- The statement `Claims.RecordCommands`. -/
def Obligations.RecordCommandsIssue : Prop :=
  Claims.RecordCommands

/-- Together: `Claims.Reservation`, `Claims.MatrixCommands`. -/
def Obligations.MatrixReservationAndCommands : Prop :=
  Claims.Reservation ∧ Claims.MatrixCommands

/-- Together: `Claims.EngineStarts`, `Claims.EngineReads`, `Claims.CollectiveReads`. -/
def Obligations.EngineStartAndRead : Prop :=
  Claims.EngineStarts ∧ Claims.EngineReads ∧ Claims.CollectiveReads

/-- Together: `Claims.EngineWrites`, `Claims.CollectiveWrites`, `Claims.EngineCompletes`, `Claims.EngineCancels`, `Claims.HostCompletions`. -/
def Obligations.EngineWriteCompleteCancel : Prop :=
  Claims.EngineWrites ∧ Claims.CollectiveWrites ∧ Claims.EngineCompletes ∧ Claims.EngineCancels ∧ Claims.HostCompletions

/-- The statement `Claims.CompletionStep`. -/
def Obligations.CompletionOfOperations : Prop :=
  Claims.CompletionStep

/-- Together: `Claims.IntegerMatrixProduct`, `Claims.CollectiveFold`, `Claims.StableSort`. -/
def Obligations.EngineResultLaws : Prop :=
  Claims.IntegerMatrixProduct ∧ Claims.CollectiveFold ∧ Claims.StableSort

/-- Together: `Claims.LaunchStarts`, `Claims.LatticeDescriptors`, `Claims.LaunchesQueue`, `Claims.GridCompletes`. -/
def Obligations.LaunchLifeCycle : Prop :=
  Claims.LaunchStarts ∧ Claims.LatticeDescriptors ∧ Claims.LaunchesQueue ∧ Claims.GridCompletes

/-- Together: `Claims.TeamClaims`, `Claims.PackStarts`, `Claims.LaunchState`, `Claims.TeamShares`. -/
def Obligations.TeamsAndPacks : Prop :=
  Claims.TeamClaims ∧ Claims.PackStarts ∧ Claims.LaunchState ∧ Claims.TeamShares

/-- Together: `Claims.Bundles`, `Claims.EventSteps`. -/
def Obligations.BundlesAndEvents : Prop :=
  Claims.Bundles ∧ Claims.EventSteps

/-- Together: `Claims.FaultQueues`, `Claims.FaultAnswerRegister`, `Claims.LatchedRecords`. -/
def Obligations.FaultQueueAnswers : Prop :=
  Claims.FaultQueues ∧ Claims.FaultAnswerRegister ∧ Claims.LatchedRecords

/-- Together: `Claims.InboundWrites`, `Claims.InboundReads`, `Claims.HostLaunches`. -/
def Obligations.HostAccesses : Prop :=
  Claims.InboundWrites ∧ Claims.InboundReads ∧ Claims.HostLaunches

/-- Together: `Claims.ControlEvents`, `Claims.ControlRegisters`. -/
def Obligations.ControlSpace : Prop :=
  Claims.ControlEvents ∧ Claims.ControlRegisters

/-- Together: `Claims.Links`, `Claims.TimeLock`. -/
def Obligations.LinksAndTimeLock : Prop :=
  Claims.Links ∧ Claims.TimeLock

/-- Together: `Claims.ContextCommands`, `Claims.DeviceCommands`. -/
def Obligations.ManagementCommands : Prop :=
  Claims.ContextCommands ∧ Claims.DeviceCommands

/-- Together: `Claims.DieResets`, `Claims.TamperAlarm`, `Claims.Attestation`. -/
def Obligations.ResetsTamperAttestation : Prop :=
  Claims.DieResets ∧ Claims.TamperAlarm ∧ Claims.Attestation

/-- Together: `Claims.StartUp`, `Claims.Restarts`. -/
def Obligations.DeviceStartAndRestart : Prop :=
  Claims.StartUp ∧ Claims.Restarts

/-- Together: `Claims.DecodeOfEncode`, `Claims.EncodeOfDecode`. -/
def Obligations.DecodeAndEncodeAgree : Prop :=
  Claims.DecodeOfEncode ∧ Claims.EncodeOfDecode

/-- Together: `Claims.StepRunsTheInstruction`, `Claims.IllegalWordsTrap`. -/
def Obligations.StepRunsTheDecodedInstruction : Prop :=
  Claims.StepRunsTheInstruction ∧ Claims.IllegalWordsTrap

/-- The statement `Claims.MemoryStaysCanonical`. -/
def Obligations.MemoryStaysCanonicalInEveryStep : Prop :=
  Claims.MemoryStaysCanonical

/-- Together: `Claims.CanonicalMemoriesAgree`, `Claims.ReadAfterWrite`. -/
def Obligations.MemoryReadsWhatWasWritten : Prop :=
  Claims.CanonicalMemoriesAgree ∧ Claims.ReadAfterWrite

/-- Together: `Claims.MemoryCanonicalAtReset`, `Claims.StateAfterReset`. -/
def Obligations.ResetState : Prop :=
  Claims.MemoryCanonicalAtReset ∧ Claims.StateAfterReset

/-- The statement `Claims.KnownWords`. -/
def Obligations.WordsOfTheManual : Prop :=
  Claims.KnownWords
end

