-- ==== Sys2Proof/Laws/Memory.lean ====
section
/-! SUPPORT. The laws of memory: a write is read back, leaves every other address alone, and keeps the canonical form. -/

namespace Sys2Proof.Machine

theorem Memory.wf_nil : Memory.wf [] = true := rfl

theorem Memory.wfFrom_cons {lo a : Nat} {b : Byte} {m : Memory} :
    Memory.wfFrom lo ((a, b) :: m) = true ↔ lo ≤ a ∧ b ≠ 0 ∧ Memory.wfFrom (a + 1) m = true := by
  simp [Memory.wfFrom, and_assoc]

theorem Memory.wfFrom_mono {lo hi : Nat} (h : lo ≤ hi) : ∀ {m : Memory}, Memory.wfFrom hi m = true → Memory.wfFrom lo m = true
  | [], _ => rfl
  | (_, _) :: _, hm => by
    rw [Memory.wfFrom_cons] at hm ⊢
    exact ⟨h.trans hm.1, hm.2⟩

/-- Below its lowest address a memory reads 0. -/
theorem Memory.read1_below {lo x : Nat} (h : x < lo) : ∀ {m : Memory}, Memory.wfFrom lo m = true → Memory.read1 m x = 0
  | [], _ => rfl
  | (a, b) :: m, hm => by
    obtain ⟨h1, -, h3⟩ := Memory.wfFrom_cons.mp hm
    have hx : x ≠ a := by omega
    simp only [Memory.read1, hx, if_false]
    exact Memory.read1_below (by omega) h3

theorem Memory.wfFrom_write1 (x : Nat) (v : Byte) : ∀ {lo : Nat} {m : Memory}, lo ≤ x → Memory.wfFrom lo m = true →
    Memory.wfFrom lo (Memory.write1 m x v) = true
  | lo, [], hx, _ => by
    by_cases hv : v = 0
    · simp only [Memory.write1, if_pos hv, Memory.wfFrom]
    · simp only [Memory.write1, if_neg hv]
      exact Memory.wfFrom_cons.mpr ⟨hx, hv, rfl⟩
  | lo, (a, b) :: m, hx, hm => by
    obtain ⟨h1, h2, h3⟩ := Memory.wfFrom_cons.mp hm
    simp only [Memory.write1]
    split
    · split
      · exact hm
      · rename_i hxa hv
        exact Memory.wfFrom_cons.mpr ⟨hx, hv, Memory.wfFrom_cons.mpr ⟨hxa, h2, h3⟩⟩
    · split
      · split
        · exact Memory.wfFrom_mono (by omega) h3
        · rename_i hxa hv
          exact Memory.wfFrom_cons.mpr ⟨hx, hv, by rw [hxa]; exact h3⟩
      · exact Memory.wfFrom_cons.mpr ⟨h1, h2, Memory.wfFrom_write1 x v (by omega) h3⟩

/-- Writing one byte keeps the canonical form. -/
theorem Memory.wf_write1 (x : Nat) (v : Byte) {m : Memory} (h : Memory.wf m = true) : Memory.wf (Memory.write1 m x v) = true :=
  Memory.wfFrom_write1 x v (Nat.zero_le x) h

/-- Writing bytes keeps the canonical form. -/
theorem Memory.wf_write : ∀ (bs : List Byte) (x : Nat) {m : Memory}, Memory.wf m = true → Memory.wf (Memory.write m x bs) = true
  | [], _, _, h => h
  | b :: bs, x, _, h => Memory.wf_write bs (x + 1) (Memory.wf_write1 x b h)

theorem Memory.read1_write1_from (x y : Nat) (v : Byte) : ∀ {lo : Nat} {m : Memory}, Memory.wfFrom lo m = true →
    Memory.read1 (Memory.write1 m x v) y = if y = x then v else Memory.read1 m y
  | lo, [], _ => by
    by_cases hv : v = 0
    · subst hv
      simp only [Memory.write1, if_true, Memory.read1, ite_self]
    · simp only [Memory.write1, if_neg hv, Memory.read1]
  | lo, (a, b) :: m, hm => by
    obtain ⟨h1, h2, h3⟩ := Memory.wfFrom_cons.mp hm
    simp only [Memory.write1]
    split
    · rename_i hxa
      split
      · rename_i hv
        by_cases hy : y = x
        · have := Memory.read1_below hxa (Memory.wfFrom_cons.mpr ⟨le_refl a, h2, h3⟩)
          rw [hy, this, if_pos rfl, hv]
        · rw [if_neg hy]
      · simp [Memory.read1]
    · split
      · rename_i hxa
        subst hxa
        split
        · rename_i hv
          by_cases hy : y = x
          · rw [hy, if_pos rfl, hv, Memory.read1_below (Nat.lt_succ_self x) h3]
          · simp [Memory.read1, hy]
        · by_cases hy : y = x <;> simp [Memory.read1, hy]
      · rename_i hxa1 hxa2
        simp only [Memory.read1, Memory.read1_write1_from x y v h3]
        by_cases hy : y = a
        · have : y ≠ x := by omega
          simp [hy, show ¬a = x by omega]
        · simp [hy]

/-- A byte written is read back, and every other byte is as before. -/
theorem Memory.read1_write1 (x y : Nat) (v : Byte) {m : Memory} (h : Memory.wf m = true) :
    Memory.read1 (Memory.write1 m x v) y = if y = x then v else Memory.read1 m y :=
  Memory.read1_write1_from x y v h

/-- What every address reads as after a write of bytes. -/
theorem Memory.read1_write (y : Nat) : ∀ (bs : List Byte) (x : Nat) {m : Memory}, Memory.wf m = true →
    Memory.read1 (Memory.write m x bs) y = if x ≤ y ∧ y < x + bs.length then bs.getD (y - x) 0 else Memory.read1 m y
  | [], x, m, _ => by
    have : ¬(x ≤ y ∧ y < x + ([] : List Byte).length) := by
      rw [List.length_nil]
      omega
    rw [Memory.write, if_neg this]
  | b :: bs, x, m, h => by
    rw [Memory.write, Memory.read1_write y bs (x + 1) (Memory.wf_write1 x b h), Memory.read1_write1 x y b h]
    by_cases hy : y = x
    · simp [hy]
    · by_cases hr : x + 1 ≤ y ∧ y < x + 1 + bs.length
      · have h1 : x ≤ y ∧ y < x + (bs.length + 1) := by omega
        have h2 : y - x = (y - (x + 1)) + 1 := by omega
        simp [hr, h1, h2]
      · have h1 : ¬(x ≤ y ∧ y < x + (b :: bs).length) := by
          rw [List.length_cons]
          omega
        rw [if_neg hr, if_neg h1, if_neg hy]

theorem Memory.read_length (m : Memory) : ∀ (x n : Nat), (Memory.read m x n).length = n
  | _, 0 => rfl
  | x, n + 1 => by simp [Memory.read, Memory.read_length m (x + 1) n]

theorem Memory.read_getD (m : Memory) : ∀ (x n i : Nat), i < n → (Memory.read m x n).getD i 0 = Memory.read1 m (x + i)
  | x, n + 1, 0, _ => by simp [Memory.read]
  | x, n + 1, i + 1, h => by
    have := Memory.read_getD m (x + 1) n i (by omega)
    simp only [Memory.read, List.getD_cons_succ, this]
    congr 1
    omega

/-- Bytes written are read back. -/
theorem Memory.read_write_self (bs : List Byte) (x : Nat) {m : Memory} (h : Memory.wf m = true) :
    Memory.read (Memory.write m x bs) x bs.length = bs := by
  apply List.ext_getElem
  · exact Memory.read_length _ _ _
  · intro i h1 h2
    have hg := Memory.read_getD (Memory.write m x bs) x bs.length i h2
    rw [Memory.read1_write _ _ _ h] at hg
    have hr : x ≤ x + i ∧ x + i < x + bs.length := by omega
    simp only [hr, and_self, if_true, Nat.add_sub_cancel_left] at hg
    simpa [List.getD_eq_getElem?_getD, h1, h2] using hg

/-! ### The buffers of a core -/

theorem CoreSt.canonical_setBuf {k : CoreSt} {sp : Space} {m : Memory} (h : k.Canonical) (hm : Memory.wf m = true) :
    (k.setBuf sp m).Canonical := by
  obtain ⟨h1, h2, h3⟩ := h
  cases sp <;> exact ⟨by assumption, by assumption, by assumption⟩

theorem CoreSt.wf_buf {k : CoreSt} (h : k.Canonical) (sp : Space) : Memory.wf (k.buf sp) = true := by
  obtain ⟨h1, h2, h3⟩ := h
  cases sp <;> first | assumption | rfl

end Sys2Proof.Machine
end

