-- ==== Sys2Proof/Laws/State.lean ====
section
/-! SUPPORT. What each update of a table of the state leaves alone, one conjunct for each field, and what an entry of the
updated table reads as. -/

namespace Sys2Proof.Machine

@[simp] theorem State.modTh_frame (s : State) (i : Nat) (f : Thread → Thread) :
    (s.modTh i f).dies = s.dies ∧ (s.modTh i f).place = s.place ∧ (s.modTh i f).ctxs = s.ctxs ∧
    (s.modTh i f).cores = s.cores ∧ (s.modTh i f).launches = s.launches ∧ (s.modTh i f).teams = s.teams ∧
    (s.modTh i f).warps = s.warps ∧ (s.modTh i f).cells = s.cells ∧ (s.modTh i f).ops = s.ops ∧
    (s.modTh i f).routes = s.routes ∧ (s.modTh i f).seq = s.seq ∧ (s.modTh i f).g = s.g ∧
    (s.modTh i f).gdone = s.gdone ∧ (s.modTh i f).req = s.req ∧ (s.modTh i f).time = s.time ∧
    (s.modTh i f).lock = s.lock ∧ (s.modTh i f).gm = s.gm ∧ (s.modTh i f).timevec = s.timevec ∧
    (s.modTh i f).rank = s.rank ∧ (s.modTh i f).domain = s.domain ∧ (s.modTh i f).links = s.links ∧
    (s.modTh i f).ports = s.ports ∧ (s.modTh i f).mgmt = s.mgmt ∧ (s.modTh i f).requesters = s.requesters ∧
    (s.modTh i f).errinj = s.errinj ∧ (s.modTh i f).errinjlo = s.errinjlo ∧ (s.modTh i f).errinjhi = s.errinjhi ∧
    (s.modTh i f).planted = s.planted ∧ (s.modTh i f).logs = s.logs ∧ (s.modTh i f).elsel = s.elsel ∧
    (s.modTh i f).elidx = s.elidx ∧ (s.modTh i f).fatalstat = s.fatalstat ∧ (s.modTh i f).hostlost = s.hostlost ∧
    (s.modTh i f).eventq = s.eventq ∧ (s.modTh i f).eqvec = s.eqvec ∧ (s.modTh i f).eqdrop = s.eqdrop ∧
    (s.modTh i f).sec = s.sec ∧ (s.modTh i f).out = s.out ∧ (s.modTh i f).rr = s.rr ∧
    (s.modTh i f).issuing = s.issuing ∧ (s.modTh i f).forced = s.forced ∧ (s.modTh i f).turn = s.turn ∧
    (s.modTh i f).tick = s.tick := by
  simp [State.modTh]

@[simp] theorem State.modWp_frame (s : State) (i : Nat) (f : Warp → Warp) :
    (s.modWp i f).dies = s.dies ∧ (s.modWp i f).place = s.place ∧ (s.modWp i f).ctxs = s.ctxs ∧
    (s.modWp i f).cores = s.cores ∧ (s.modWp i f).launches = s.launches ∧ (s.modWp i f).teams = s.teams ∧
    (s.modWp i f).threads = s.threads ∧ (s.modWp i f).cells = s.cells ∧ (s.modWp i f).ops = s.ops ∧
    (s.modWp i f).routes = s.routes ∧ (s.modWp i f).seq = s.seq ∧ (s.modWp i f).g = s.g ∧
    (s.modWp i f).gdone = s.gdone ∧ (s.modWp i f).req = s.req ∧ (s.modWp i f).time = s.time ∧
    (s.modWp i f).lock = s.lock ∧ (s.modWp i f).gm = s.gm ∧ (s.modWp i f).timevec = s.timevec ∧
    (s.modWp i f).rank = s.rank ∧ (s.modWp i f).domain = s.domain ∧ (s.modWp i f).links = s.links ∧
    (s.modWp i f).ports = s.ports ∧ (s.modWp i f).mgmt = s.mgmt ∧ (s.modWp i f).requesters = s.requesters ∧
    (s.modWp i f).errinj = s.errinj ∧ (s.modWp i f).errinjlo = s.errinjlo ∧ (s.modWp i f).errinjhi = s.errinjhi ∧
    (s.modWp i f).planted = s.planted ∧ (s.modWp i f).logs = s.logs ∧ (s.modWp i f).elsel = s.elsel ∧
    (s.modWp i f).elidx = s.elidx ∧ (s.modWp i f).fatalstat = s.fatalstat ∧ (s.modWp i f).hostlost = s.hostlost ∧
    (s.modWp i f).eventq = s.eventq ∧ (s.modWp i f).eqvec = s.eqvec ∧ (s.modWp i f).eqdrop = s.eqdrop ∧
    (s.modWp i f).sec = s.sec ∧ (s.modWp i f).out = s.out ∧ (s.modWp i f).rr = s.rr ∧
    (s.modWp i f).issuing = s.issuing ∧ (s.modWp i f).forced = s.forced ∧ (s.modWp i f).turn = s.turn ∧
    (s.modWp i f).tick = s.tick := by
  simp [State.modWp]

@[simp] theorem State.modTm_frame (s : State) (i : Nat) (f : Team → Team) :
    (s.modTm i f).dies = s.dies ∧ (s.modTm i f).place = s.place ∧ (s.modTm i f).ctxs = s.ctxs ∧
    (s.modTm i f).cores = s.cores ∧ (s.modTm i f).launches = s.launches ∧ (s.modTm i f).warps = s.warps ∧
    (s.modTm i f).threads = s.threads ∧ (s.modTm i f).cells = s.cells ∧ (s.modTm i f).ops = s.ops ∧
    (s.modTm i f).routes = s.routes ∧ (s.modTm i f).seq = s.seq ∧ (s.modTm i f).g = s.g ∧
    (s.modTm i f).gdone = s.gdone ∧ (s.modTm i f).req = s.req ∧ (s.modTm i f).time = s.time ∧
    (s.modTm i f).lock = s.lock ∧ (s.modTm i f).gm = s.gm ∧ (s.modTm i f).timevec = s.timevec ∧
    (s.modTm i f).rank = s.rank ∧ (s.modTm i f).domain = s.domain ∧ (s.modTm i f).links = s.links ∧
    (s.modTm i f).ports = s.ports ∧ (s.modTm i f).mgmt = s.mgmt ∧ (s.modTm i f).requesters = s.requesters ∧
    (s.modTm i f).errinj = s.errinj ∧ (s.modTm i f).errinjlo = s.errinjlo ∧ (s.modTm i f).errinjhi = s.errinjhi ∧
    (s.modTm i f).planted = s.planted ∧ (s.modTm i f).logs = s.logs ∧ (s.modTm i f).elsel = s.elsel ∧
    (s.modTm i f).elidx = s.elidx ∧ (s.modTm i f).fatalstat = s.fatalstat ∧ (s.modTm i f).hostlost = s.hostlost ∧
    (s.modTm i f).eventq = s.eventq ∧ (s.modTm i f).eqvec = s.eqvec ∧ (s.modTm i f).eqdrop = s.eqdrop ∧
    (s.modTm i f).sec = s.sec ∧ (s.modTm i f).out = s.out ∧ (s.modTm i f).rr = s.rr ∧
    (s.modTm i f).issuing = s.issuing ∧ (s.modTm i f).forced = s.forced ∧ (s.modTm i f).turn = s.turn ∧
    (s.modTm i f).tick = s.tick := by
  simp [State.modTm]

@[simp] theorem State.modCo_frame (s : State) (i : Nat) (f : CoreSt → CoreSt) :
    (s.modCo i f).dies = s.dies ∧ (s.modCo i f).place = s.place ∧ (s.modCo i f).ctxs = s.ctxs ∧
    (s.modCo i f).launches = s.launches ∧ (s.modCo i f).teams = s.teams ∧ (s.modCo i f).warps = s.warps ∧
    (s.modCo i f).threads = s.threads ∧ (s.modCo i f).cells = s.cells ∧ (s.modCo i f).ops = s.ops ∧
    (s.modCo i f).routes = s.routes ∧ (s.modCo i f).seq = s.seq ∧ (s.modCo i f).g = s.g ∧
    (s.modCo i f).gdone = s.gdone ∧ (s.modCo i f).req = s.req ∧ (s.modCo i f).time = s.time ∧
    (s.modCo i f).lock = s.lock ∧ (s.modCo i f).gm = s.gm ∧ (s.modCo i f).timevec = s.timevec ∧
    (s.modCo i f).rank = s.rank ∧ (s.modCo i f).domain = s.domain ∧ (s.modCo i f).links = s.links ∧
    (s.modCo i f).ports = s.ports ∧ (s.modCo i f).mgmt = s.mgmt ∧ (s.modCo i f).requesters = s.requesters ∧
    (s.modCo i f).errinj = s.errinj ∧ (s.modCo i f).errinjlo = s.errinjlo ∧ (s.modCo i f).errinjhi = s.errinjhi ∧
    (s.modCo i f).planted = s.planted ∧ (s.modCo i f).logs = s.logs ∧ (s.modCo i f).elsel = s.elsel ∧
    (s.modCo i f).elidx = s.elidx ∧ (s.modCo i f).fatalstat = s.fatalstat ∧ (s.modCo i f).hostlost = s.hostlost ∧
    (s.modCo i f).eventq = s.eventq ∧ (s.modCo i f).eqvec = s.eqvec ∧ (s.modCo i f).eqdrop = s.eqdrop ∧
    (s.modCo i f).sec = s.sec ∧ (s.modCo i f).out = s.out ∧ (s.modCo i f).rr = s.rr ∧
    (s.modCo i f).issuing = s.issuing ∧ (s.modCo i f).forced = s.forced ∧ (s.modCo i f).turn = s.turn ∧
    (s.modCo i f).tick = s.tick := by
  simp [State.modCo]

@[simp] theorem State.modOp_frame (s : State) (i : Nat) (f : Op → Op) :
    (s.modOp i f).dies = s.dies ∧ (s.modOp i f).place = s.place ∧ (s.modOp i f).ctxs = s.ctxs ∧
    (s.modOp i f).cores = s.cores ∧ (s.modOp i f).launches = s.launches ∧ (s.modOp i f).teams = s.teams ∧
    (s.modOp i f).warps = s.warps ∧ (s.modOp i f).threads = s.threads ∧ (s.modOp i f).cells = s.cells ∧
    (s.modOp i f).routes = s.routes ∧ (s.modOp i f).seq = s.seq ∧ (s.modOp i f).g = s.g ∧
    (s.modOp i f).gdone = s.gdone ∧ (s.modOp i f).req = s.req ∧ (s.modOp i f).time = s.time ∧
    (s.modOp i f).lock = s.lock ∧ (s.modOp i f).gm = s.gm ∧ (s.modOp i f).timevec = s.timevec ∧
    (s.modOp i f).rank = s.rank ∧ (s.modOp i f).domain = s.domain ∧ (s.modOp i f).links = s.links ∧
    (s.modOp i f).ports = s.ports ∧ (s.modOp i f).mgmt = s.mgmt ∧ (s.modOp i f).requesters = s.requesters ∧
    (s.modOp i f).errinj = s.errinj ∧ (s.modOp i f).errinjlo = s.errinjlo ∧ (s.modOp i f).errinjhi = s.errinjhi ∧
    (s.modOp i f).planted = s.planted ∧ (s.modOp i f).logs = s.logs ∧ (s.modOp i f).elsel = s.elsel ∧
    (s.modOp i f).elidx = s.elidx ∧ (s.modOp i f).fatalstat = s.fatalstat ∧ (s.modOp i f).hostlost = s.hostlost ∧
    (s.modOp i f).eventq = s.eventq ∧ (s.modOp i f).eqvec = s.eqvec ∧ (s.modOp i f).eqdrop = s.eqdrop ∧
    (s.modOp i f).sec = s.sec ∧ (s.modOp i f).out = s.out ∧ (s.modOp i f).rr = s.rr ∧
    (s.modOp i f).issuing = s.issuing ∧ (s.modOp i f).forced = s.forced ∧ (s.modOp i f).turn = s.turn ∧
    (s.modOp i f).tick = s.tick := by
  simp [State.modOp]

@[simp] theorem State.modCl_frame (s : State) (i : Nat) (f : Cell → Cell) :
    (s.modCl i f).dies = s.dies ∧ (s.modCl i f).place = s.place ∧ (s.modCl i f).ctxs = s.ctxs ∧
    (s.modCl i f).cores = s.cores ∧ (s.modCl i f).launches = s.launches ∧ (s.modCl i f).teams = s.teams ∧
    (s.modCl i f).warps = s.warps ∧ (s.modCl i f).threads = s.threads ∧ (s.modCl i f).ops = s.ops ∧
    (s.modCl i f).routes = s.routes ∧ (s.modCl i f).seq = s.seq ∧ (s.modCl i f).g = s.g ∧
    (s.modCl i f).gdone = s.gdone ∧ (s.modCl i f).req = s.req ∧ (s.modCl i f).time = s.time ∧
    (s.modCl i f).lock = s.lock ∧ (s.modCl i f).gm = s.gm ∧ (s.modCl i f).timevec = s.timevec ∧
    (s.modCl i f).rank = s.rank ∧ (s.modCl i f).domain = s.domain ∧ (s.modCl i f).links = s.links ∧
    (s.modCl i f).ports = s.ports ∧ (s.modCl i f).mgmt = s.mgmt ∧ (s.modCl i f).requesters = s.requesters ∧
    (s.modCl i f).errinj = s.errinj ∧ (s.modCl i f).errinjlo = s.errinjlo ∧ (s.modCl i f).errinjhi = s.errinjhi ∧
    (s.modCl i f).planted = s.planted ∧ (s.modCl i f).logs = s.logs ∧ (s.modCl i f).elsel = s.elsel ∧
    (s.modCl i f).elidx = s.elidx ∧ (s.modCl i f).fatalstat = s.fatalstat ∧ (s.modCl i f).hostlost = s.hostlost ∧
    (s.modCl i f).eventq = s.eventq ∧ (s.modCl i f).eqvec = s.eqvec ∧ (s.modCl i f).eqdrop = s.eqdrop ∧
    (s.modCl i f).sec = s.sec ∧ (s.modCl i f).out = s.out ∧ (s.modCl i f).rr = s.rr ∧
    (s.modCl i f).issuing = s.issuing ∧ (s.modCl i f).forced = s.forced ∧ (s.modCl i f).turn = s.turn ∧
    (s.modCl i f).tick = s.tick := by
  simp [State.modCl]

@[simp] theorem State.modLa_frame (s : State) (i : Nat) (f : Launch → Launch) :
    (s.modLa i f).dies = s.dies ∧ (s.modLa i f).place = s.place ∧ (s.modLa i f).ctxs = s.ctxs ∧
    (s.modLa i f).cores = s.cores ∧ (s.modLa i f).teams = s.teams ∧ (s.modLa i f).warps = s.warps ∧
    (s.modLa i f).threads = s.threads ∧ (s.modLa i f).cells = s.cells ∧ (s.modLa i f).ops = s.ops ∧
    (s.modLa i f).routes = s.routes ∧ (s.modLa i f).seq = s.seq ∧ (s.modLa i f).g = s.g ∧
    (s.modLa i f).gdone = s.gdone ∧ (s.modLa i f).req = s.req ∧ (s.modLa i f).time = s.time ∧
    (s.modLa i f).lock = s.lock ∧ (s.modLa i f).gm = s.gm ∧ (s.modLa i f).timevec = s.timevec ∧
    (s.modLa i f).rank = s.rank ∧ (s.modLa i f).domain = s.domain ∧ (s.modLa i f).links = s.links ∧
    (s.modLa i f).ports = s.ports ∧ (s.modLa i f).mgmt = s.mgmt ∧ (s.modLa i f).requesters = s.requesters ∧
    (s.modLa i f).errinj = s.errinj ∧ (s.modLa i f).errinjlo = s.errinjlo ∧ (s.modLa i f).errinjhi = s.errinjhi ∧
    (s.modLa i f).planted = s.planted ∧ (s.modLa i f).logs = s.logs ∧ (s.modLa i f).elsel = s.elsel ∧
    (s.modLa i f).elidx = s.elidx ∧ (s.modLa i f).fatalstat = s.fatalstat ∧ (s.modLa i f).hostlost = s.hostlost ∧
    (s.modLa i f).eventq = s.eventq ∧ (s.modLa i f).eqvec = s.eqvec ∧ (s.modLa i f).eqdrop = s.eqdrop ∧
    (s.modLa i f).sec = s.sec ∧ (s.modLa i f).out = s.out ∧ (s.modLa i f).rr = s.rr ∧
    (s.modLa i f).issuing = s.issuing ∧ (s.modLa i f).forced = s.forced ∧ (s.modLa i f).turn = s.turn ∧
    (s.modLa i f).tick = s.tick := by
  simp [State.modLa]

@[simp] theorem State.modDie_frame (s : State) (i : Nat) (f : Die → Die) :
    (s.modDie i f).place = s.place ∧ (s.modDie i f).ctxs = s.ctxs ∧ (s.modDie i f).cores = s.cores ∧
    (s.modDie i f).launches = s.launches ∧ (s.modDie i f).teams = s.teams ∧ (s.modDie i f).warps = s.warps ∧
    (s.modDie i f).threads = s.threads ∧ (s.modDie i f).cells = s.cells ∧ (s.modDie i f).ops = s.ops ∧
    (s.modDie i f).routes = s.routes ∧ (s.modDie i f).seq = s.seq ∧ (s.modDie i f).g = s.g ∧
    (s.modDie i f).gdone = s.gdone ∧ (s.modDie i f).req = s.req ∧ (s.modDie i f).time = s.time ∧
    (s.modDie i f).lock = s.lock ∧ (s.modDie i f).gm = s.gm ∧ (s.modDie i f).timevec = s.timevec ∧
    (s.modDie i f).rank = s.rank ∧ (s.modDie i f).domain = s.domain ∧ (s.modDie i f).links = s.links ∧
    (s.modDie i f).ports = s.ports ∧ (s.modDie i f).mgmt = s.mgmt ∧ (s.modDie i f).requesters = s.requesters ∧
    (s.modDie i f).errinj = s.errinj ∧ (s.modDie i f).errinjlo = s.errinjlo ∧ (s.modDie i f).errinjhi = s.errinjhi ∧
    (s.modDie i f).planted = s.planted ∧ (s.modDie i f).logs = s.logs ∧ (s.modDie i f).elsel = s.elsel ∧
    (s.modDie i f).elidx = s.elidx ∧ (s.modDie i f).fatalstat = s.fatalstat ∧ (s.modDie i f).hostlost = s.hostlost ∧
    (s.modDie i f).eventq = s.eventq ∧ (s.modDie i f).eqvec = s.eqvec ∧ (s.modDie i f).eqdrop = s.eqdrop ∧
    (s.modDie i f).sec = s.sec ∧ (s.modDie i f).out = s.out ∧ (s.modDie i f).rr = s.rr ∧
    (s.modDie i f).issuing = s.issuing ∧ (s.modDie i f).forced = s.forced ∧ (s.modDie i f).turn = s.turn ∧
    (s.modDie i f).tick = s.tick := by
  simp [State.modDie]

@[simp] theorem State.modPort_frame (s : State) (p : BitVec 1) (f : Port → Port) :
    (s.modPort p f).dies = s.dies ∧ (s.modPort p f).place = s.place ∧ (s.modPort p f).ctxs = s.ctxs ∧
    (s.modPort p f).cores = s.cores ∧ (s.modPort p f).launches = s.launches ∧ (s.modPort p f).teams = s.teams ∧
    (s.modPort p f).warps = s.warps ∧ (s.modPort p f).threads = s.threads ∧ (s.modPort p f).cells = s.cells ∧
    (s.modPort p f).ops = s.ops ∧ (s.modPort p f).routes = s.routes ∧ (s.modPort p f).seq = s.seq ∧
    (s.modPort p f).g = s.g ∧ (s.modPort p f).gdone = s.gdone ∧ (s.modPort p f).req = s.req ∧
    (s.modPort p f).time = s.time ∧ (s.modPort p f).lock = s.lock ∧ (s.modPort p f).gm = s.gm ∧
    (s.modPort p f).timevec = s.timevec ∧ (s.modPort p f).rank = s.rank ∧ (s.modPort p f).domain = s.domain ∧
    (s.modPort p f).links = s.links ∧ (s.modPort p f).mgmt = s.mgmt ∧ (s.modPort p f).requesters = s.requesters ∧
    (s.modPort p f).errinj = s.errinj ∧ (s.modPort p f).errinjlo = s.errinjlo ∧
    (s.modPort p f).errinjhi = s.errinjhi ∧ (s.modPort p f).planted = s.planted ∧ (s.modPort p f).logs = s.logs ∧
    (s.modPort p f).elsel = s.elsel ∧ (s.modPort p f).elidx = s.elidx ∧ (s.modPort p f).fatalstat = s.fatalstat ∧
    (s.modPort p f).hostlost = s.hostlost ∧ (s.modPort p f).eventq = s.eventq ∧ (s.modPort p f).eqvec = s.eqvec ∧
    (s.modPort p f).eqdrop = s.eqdrop ∧ (s.modPort p f).sec = s.sec ∧ (s.modPort p f).out = s.out ∧
    (s.modPort p f).rr = s.rr ∧ (s.modPort p f).issuing = s.issuing ∧ (s.modPort p f).forced = s.forced ∧
    (s.modPort p f).turn = s.turn ∧ (s.modPort p f).tick = s.tick := by
  simp [State.modPort]

@[simp] theorem State.modCtx_frame (s : State) (c : Word) (f : Ctx → Ctx) :
    (s.modCtx c f).dies = s.dies ∧ (s.modCtx c f).place = s.place ∧ (s.modCtx c f).cores = s.cores ∧
    (s.modCtx c f).launches = s.launches ∧ (s.modCtx c f).teams = s.teams ∧ (s.modCtx c f).warps = s.warps ∧
    (s.modCtx c f).threads = s.threads ∧ (s.modCtx c f).cells = s.cells ∧ (s.modCtx c f).ops = s.ops ∧
    (s.modCtx c f).routes = s.routes ∧ (s.modCtx c f).seq = s.seq ∧ (s.modCtx c f).g = s.g ∧
    (s.modCtx c f).gdone = s.gdone ∧ (s.modCtx c f).req = s.req ∧ (s.modCtx c f).time = s.time ∧
    (s.modCtx c f).lock = s.lock ∧ (s.modCtx c f).gm = s.gm ∧ (s.modCtx c f).timevec = s.timevec ∧
    (s.modCtx c f).rank = s.rank ∧ (s.modCtx c f).domain = s.domain ∧ (s.modCtx c f).links = s.links ∧
    (s.modCtx c f).ports = s.ports ∧ (s.modCtx c f).mgmt = s.mgmt ∧ (s.modCtx c f).requesters = s.requesters ∧
    (s.modCtx c f).errinj = s.errinj ∧ (s.modCtx c f).errinjlo = s.errinjlo ∧ (s.modCtx c f).errinjhi = s.errinjhi ∧
    (s.modCtx c f).planted = s.planted ∧ (s.modCtx c f).logs = s.logs ∧ (s.modCtx c f).elsel = s.elsel ∧
    (s.modCtx c f).elidx = s.elidx ∧ (s.modCtx c f).fatalstat = s.fatalstat ∧ (s.modCtx c f).hostlost = s.hostlost ∧
    (s.modCtx c f).eventq = s.eventq ∧ (s.modCtx c f).eqvec = s.eqvec ∧ (s.modCtx c f).eqdrop = s.eqdrop ∧
    (s.modCtx c f).sec = s.sec ∧ (s.modCtx c f).out = s.out ∧ (s.modCtx c f).rr = s.rr ∧
    (s.modCtx c f).issuing = s.issuing ∧ (s.modCtx c f).forced = s.forced ∧ (s.modCtx c f).turn = s.turn ∧
    (s.modCtx c f).tick = s.tick := by
  simp [State.modCtx]

@[simp] theorem State.bump_frame (s : State) :
    (s.bump).dies = s.dies ∧ (s.bump).place = s.place ∧ (s.bump).ctxs = s.ctxs ∧ (s.bump).cores = s.cores ∧
    (s.bump).launches = s.launches ∧ (s.bump).teams = s.teams ∧ (s.bump).warps = s.warps ∧
    (s.bump).threads = s.threads ∧ (s.bump).cells = s.cells ∧ (s.bump).ops = s.ops ∧ (s.bump).routes = s.routes ∧
    (s.bump).g = s.g ∧ (s.bump).gdone = s.gdone ∧ (s.bump).req = s.req ∧ (s.bump).time = s.time ∧
    (s.bump).lock = s.lock ∧ (s.bump).gm = s.gm ∧ (s.bump).timevec = s.timevec ∧ (s.bump).rank = s.rank ∧
    (s.bump).domain = s.domain ∧ (s.bump).links = s.links ∧ (s.bump).ports = s.ports ∧ (s.bump).mgmt = s.mgmt ∧
    (s.bump).requesters = s.requesters ∧ (s.bump).errinj = s.errinj ∧ (s.bump).errinjlo = s.errinjlo ∧
    (s.bump).errinjhi = s.errinjhi ∧ (s.bump).planted = s.planted ∧ (s.bump).logs = s.logs ∧
    (s.bump).elsel = s.elsel ∧ (s.bump).elidx = s.elidx ∧ (s.bump).fatalstat = s.fatalstat ∧
    (s.bump).hostlost = s.hostlost ∧ (s.bump).eventq = s.eventq ∧ (s.bump).eqvec = s.eqvec ∧
    (s.bump).eqdrop = s.eqdrop ∧ (s.bump).sec = s.sec ∧ (s.bump).out = s.out ∧ (s.bump).rr = s.rr ∧
    (s.bump).issuing = s.issuing ∧ (s.bump).forced = s.forced ∧ (s.bump).turn = s.turn ∧ (s.bump).tick = s.tick := by
  simp [State.bump]

/-- An entry of a table after one entry is changed. -/
theorem getD_modify {α : Type} (l : List α) (i j : Nat) (f : α → α) (d : α) :
    (l.modify i f).getD j d = if i = j ∧ i < l.length then f (l.getD i d) else l.getD j d := by
  simp only [List.getD_eq_getElem?_getD, List.getElem?_modify]
  by_cases h : i = j
  · subst h
    by_cases hi : i < l.length
    · simp [hi]
    · simp [hi]
  · simp [h]

theorem State.th_modTh (s : State) (i j : Nat) (f : Thread → Thread) :
    (s.modTh i f).th j = if i = j ∧ i < s.threads.length then f (s.th i) else s.th j :=
  getD_modify s.threads i j f _

@[simp] theorem State.th_modTh_self (s : State) (i : Nat) (f : Thread → Thread) (h : i < s.threads.length) :
    (s.modTh i f).th i = f (s.th i) := by simp [State.th_modTh, h]

@[simp] theorem State.modTh_entries (s : State) (i j : Nat) (f : Thread → Thread) :
    (s.modTh i f).wp j = s.wp j ∧ (s.modTh i f).tm j = s.tm j ∧ (s.modTh i f).co j = s.co j ∧ (s.modTh i f).op j = s.op j ∧
    (s.modTh i f).cl j = s.cl j ∧ (s.modTh i f).la j = s.la j ∧ (s.modTh i f).die j = s.die j :=
  ⟨rfl, rfl, rfl, rfl, rfl, rfl, rfl⟩

@[simp] theorem State.modTh_ctx (s : State) (i : Nat) (c : Word) (f : Thread → Thread) : (s.modTh i f).ctx c = s.ctx c := rfl

@[simp] theorem State.modTh_threads_length (s : State) (i : Nat) (f : Thread → Thread) :
    (s.modTh i f).threads.length = s.threads.length := by simp [State.modTh]

theorem State.wp_modWp (s : State) (i j : Nat) (f : Warp → Warp) :
    (s.modWp i f).wp j = if i = j ∧ i < s.warps.length then f (s.wp i) else s.wp j :=
  getD_modify s.warps i j f _

@[simp] theorem State.wp_modWp_self (s : State) (i : Nat) (f : Warp → Warp) (h : i < s.warps.length) :
    (s.modWp i f).wp i = f (s.wp i) := by simp [State.wp_modWp, h]

@[simp] theorem State.modWp_entries (s : State) (i j : Nat) (f : Warp → Warp) :
    (s.modWp i f).th j = s.th j ∧ (s.modWp i f).tm j = s.tm j ∧ (s.modWp i f).co j = s.co j ∧ (s.modWp i f).op j = s.op j ∧
    (s.modWp i f).cl j = s.cl j ∧ (s.modWp i f).la j = s.la j ∧ (s.modWp i f).die j = s.die j :=
  ⟨rfl, rfl, rfl, rfl, rfl, rfl, rfl⟩

@[simp] theorem State.modWp_ctx (s : State) (i : Nat) (c : Word) (f : Warp → Warp) : (s.modWp i f).ctx c = s.ctx c := rfl

@[simp] theorem State.modWp_warps_length (s : State) (i : Nat) (f : Warp → Warp) :
    (s.modWp i f).warps.length = s.warps.length := by simp [State.modWp]

theorem State.tm_modTm (s : State) (i j : Nat) (f : Team → Team) :
    (s.modTm i f).tm j = if i = j ∧ i < s.teams.length then f (s.tm i) else s.tm j :=
  getD_modify s.teams i j f _

@[simp] theorem State.tm_modTm_self (s : State) (i : Nat) (f : Team → Team) (h : i < s.teams.length) :
    (s.modTm i f).tm i = f (s.tm i) := by simp [State.tm_modTm, h]

@[simp] theorem State.modTm_entries (s : State) (i j : Nat) (f : Team → Team) :
    (s.modTm i f).th j = s.th j ∧ (s.modTm i f).wp j = s.wp j ∧ (s.modTm i f).co j = s.co j ∧ (s.modTm i f).op j = s.op j ∧
    (s.modTm i f).cl j = s.cl j ∧ (s.modTm i f).la j = s.la j ∧ (s.modTm i f).die j = s.die j :=
  ⟨rfl, rfl, rfl, rfl, rfl, rfl, rfl⟩

@[simp] theorem State.modTm_ctx (s : State) (i : Nat) (c : Word) (f : Team → Team) : (s.modTm i f).ctx c = s.ctx c := rfl

@[simp] theorem State.modTm_teams_length (s : State) (i : Nat) (f : Team → Team) :
    (s.modTm i f).teams.length = s.teams.length := by simp [State.modTm]

theorem State.co_modCo (s : State) (i j : Nat) (f : CoreSt → CoreSt) :
    (s.modCo i f).co j = if i = j ∧ i < s.cores.length then f (s.co i) else s.co j :=
  getD_modify s.cores i j f _

@[simp] theorem State.co_modCo_self (s : State) (i : Nat) (f : CoreSt → CoreSt) (h : i < s.cores.length) :
    (s.modCo i f).co i = f (s.co i) := by simp [State.co_modCo, h]

@[simp] theorem State.modCo_entries (s : State) (i j : Nat) (f : CoreSt → CoreSt) :
    (s.modCo i f).th j = s.th j ∧ (s.modCo i f).wp j = s.wp j ∧ (s.modCo i f).tm j = s.tm j ∧ (s.modCo i f).op j = s.op j ∧
    (s.modCo i f).cl j = s.cl j ∧ (s.modCo i f).la j = s.la j ∧ (s.modCo i f).die j = s.die j :=
  ⟨rfl, rfl, rfl, rfl, rfl, rfl, rfl⟩

@[simp] theorem State.modCo_ctx (s : State) (i : Nat) (c : Word) (f : CoreSt → CoreSt) : (s.modCo i f).ctx c = s.ctx c := rfl

@[simp] theorem State.modCo_cores_length (s : State) (i : Nat) (f : CoreSt → CoreSt) :
    (s.modCo i f).cores.length = s.cores.length := by simp [State.modCo]

theorem State.op_modOp (s : State) (i j : Nat) (f : Op → Op) :
    (s.modOp i f).op j = if i = j ∧ i < s.ops.length then f (s.op i) else s.op j :=
  getD_modify s.ops i j f _

@[simp] theorem State.op_modOp_self (s : State) (i : Nat) (f : Op → Op) (h : i < s.ops.length) :
    (s.modOp i f).op i = f (s.op i) := by simp [State.op_modOp, h]

@[simp] theorem State.modOp_entries (s : State) (i j : Nat) (f : Op → Op) :
    (s.modOp i f).th j = s.th j ∧ (s.modOp i f).wp j = s.wp j ∧ (s.modOp i f).tm j = s.tm j ∧ (s.modOp i f).co j = s.co j ∧
    (s.modOp i f).cl j = s.cl j ∧ (s.modOp i f).la j = s.la j ∧ (s.modOp i f).die j = s.die j :=
  ⟨rfl, rfl, rfl, rfl, rfl, rfl, rfl⟩

@[simp] theorem State.modOp_ctx (s : State) (i : Nat) (c : Word) (f : Op → Op) : (s.modOp i f).ctx c = s.ctx c := rfl

@[simp] theorem State.modOp_ops_length (s : State) (i : Nat) (f : Op → Op) :
    (s.modOp i f).ops.length = s.ops.length := by simp [State.modOp]

theorem State.cl_modCl (s : State) (i j : Nat) (f : Cell → Cell) :
    (s.modCl i f).cl j = if i = j ∧ i < s.cells.length then f (s.cl i) else s.cl j :=
  getD_modify s.cells i j f _

@[simp] theorem State.cl_modCl_self (s : State) (i : Nat) (f : Cell → Cell) (h : i < s.cells.length) :
    (s.modCl i f).cl i = f (s.cl i) := by simp [State.cl_modCl, h]

@[simp] theorem State.modCl_entries (s : State) (i j : Nat) (f : Cell → Cell) :
    (s.modCl i f).th j = s.th j ∧ (s.modCl i f).wp j = s.wp j ∧ (s.modCl i f).tm j = s.tm j ∧ (s.modCl i f).co j = s.co j ∧
    (s.modCl i f).op j = s.op j ∧ (s.modCl i f).la j = s.la j ∧ (s.modCl i f).die j = s.die j :=
  ⟨rfl, rfl, rfl, rfl, rfl, rfl, rfl⟩

@[simp] theorem State.modCl_ctx (s : State) (i : Nat) (c : Word) (f : Cell → Cell) : (s.modCl i f).ctx c = s.ctx c := rfl

@[simp] theorem State.modCl_cells_length (s : State) (i : Nat) (f : Cell → Cell) :
    (s.modCl i f).cells.length = s.cells.length := by simp [State.modCl]

theorem State.la_modLa (s : State) (i j : Nat) (f : Launch → Launch) :
    (s.modLa i f).la j = if i = j ∧ i < s.launches.length then f (s.la i) else s.la j :=
  getD_modify s.launches i j f _

@[simp] theorem State.la_modLa_self (s : State) (i : Nat) (f : Launch → Launch) (h : i < s.launches.length) :
    (s.modLa i f).la i = f (s.la i) := by simp [State.la_modLa, h]

@[simp] theorem State.modLa_entries (s : State) (i j : Nat) (f : Launch → Launch) :
    (s.modLa i f).th j = s.th j ∧ (s.modLa i f).wp j = s.wp j ∧ (s.modLa i f).tm j = s.tm j ∧ (s.modLa i f).co j = s.co j ∧
    (s.modLa i f).op j = s.op j ∧ (s.modLa i f).cl j = s.cl j ∧ (s.modLa i f).die j = s.die j :=
  ⟨rfl, rfl, rfl, rfl, rfl, rfl, rfl⟩

@[simp] theorem State.modLa_ctx (s : State) (i : Nat) (c : Word) (f : Launch → Launch) : (s.modLa i f).ctx c = s.ctx c := rfl

@[simp] theorem State.modLa_launches_length (s : State) (i : Nat) (f : Launch → Launch) :
    (s.modLa i f).launches.length = s.launches.length := by simp [State.modLa]

theorem State.die_modDie (s : State) (i j : Nat) (f : Die → Die) :
    (s.modDie i f).die j = if i = j ∧ i < s.dies.length then f (s.die i) else s.die j :=
  getD_modify s.dies i j f _

@[simp] theorem State.die_modDie_self (s : State) (i : Nat) (f : Die → Die) (h : i < s.dies.length) :
    (s.modDie i f).die i = f (s.die i) := by simp [State.die_modDie, h]

@[simp] theorem State.modDie_entries (s : State) (i j : Nat) (f : Die → Die) :
    (s.modDie i f).th j = s.th j ∧ (s.modDie i f).wp j = s.wp j ∧ (s.modDie i f).tm j = s.tm j ∧ (s.modDie i f).co j = s.co j ∧
    (s.modDie i f).op j = s.op j ∧ (s.modDie i f).cl j = s.cl j ∧ (s.modDie i f).la j = s.la j :=
  ⟨rfl, rfl, rfl, rfl, rfl, rfl, rfl⟩

@[simp] theorem State.modDie_ctx (s : State) (i : Nat) (c : Word) (f : Die → Die) : (s.modDie i f).ctx c = s.ctx c := rfl

@[simp] theorem State.modDie_dies_length (s : State) (i : Nat) (f : Die → Die) :
    (s.modDie i f).dies.length = s.dies.length := by simp [State.modDie]

end Sys2Proof.Machine
end

