-- ==== Sys2Proof/Laws/Ops.lean ====
section
/-! SUPPORT. What each shared operation can change, once: `f_only` says that the operation leaves every field of the state
as it was but those that it names. -/

namespace Sys2Proof.Machine

/-! ### Reports and errors -/

theorem State.eccWrite_only (s : State) (arr : BitVec 16) (a n : Nat) :
    s.eccWrite arr a n = { s with errinj := (s.eccWrite arr a n).errinj, planted := (s.eccWrite arr a n).planted } := by
  unfold State.eccWrite; dsimp only; split <;> rfl

theorem State.raiseVec_only (s : State) (p : BitVec 1) (v : Word) :
    s.raiseVec p v = { s with ports := (s.raiseVec p v).ports, out := (s.raiseVec p v).out } := by
  unfold State.raiseVec; dsimp only
  split
  · rfl
  · split <;> rfl

theorem State.raiseBoth_only (s : State) (v : Word) :
    s.raiseBoth v = { s with ports := (s.raiseBoth v).ports, out := (s.raiseBoth v).out } := by
  unfold State.raiseBoth
  generalize [0, 1].filter (fun p => (s.port p).up) = ps
  induction ps generalizing s with
  | nil => rfl
  | cons p ps ih => rw [List.foldl_cons, ih]; rw [State.raiseVec_only]

theorem State.pushEvent_only (s : State) (e : EventRec) :
    s.pushEvent e = { s with
      eventq := s.eventq ++ [e], ports := (s.pushEvent e).ports, out := (s.pushEvent e).out } := by
  unfold State.pushEvent; dsimp only
  split
  · rw [State.raiseBoth_only]
  · rfl

theorem State.ioEvent_only (s : State) (k so : BitVec 8) (d : BitVec 16) :
    s.ioEvent k so d = { s with
      eventq := (s.ioEvent k so d).eventq, eqdrop := (s.ioEvent k so d).eqdrop
      ports := (s.ioEvent k so d).ports, out := (s.ioEvent k so d).out } := by
  unfold State.ioEvent
  split
  · rfl
  · rw [State.pushEvent_only]

theorem State.dieEvent_only (s : State) (d : Nat) (k : BitVec 8) (de : BitVec 16) (i j : Word) :
    s.dieEvent d k de i j = { s with
      dies := (s.dieEvent d k de i j).dies, eventq := (s.dieEvent d k de i j).eventq
      ports := (s.dieEvent d k de i j).ports, out := (s.dieEvent d k de i j).out } := by
  unfold State.dieEvent
  split
  · rw [State.pushEvent_only]
  · split <;> rfl

theorem State.latchLost_only (s : State) (d : Nat) : s.latchLost d = { s with dies := (s.latchLost d).dies } := rfl

/-- Near memory is as before, die by die. -/
def NearSame (s u : State) : Prop :=
  u.dies.length = s.dies.length ∧ ∀ d : Nat, ((u.dies[d]?).map Die.mem) = ((s.dies[d]?).map Die.mem)

theorem NearSame.refl (s : State) : NearSame s s := ⟨rfl, fun _ => rfl⟩
theorem NearSame.of_eq {s u : State} (h : u.dies = s.dies) : NearSame s u := by rw [NearSame, h]; exact ⟨rfl, fun _ => rfl⟩
theorem NearSame.trans {s u v : State} (h : NearSame s u) (g : NearSame u v) : NearSame s v :=
  ⟨g.1.trans h.1, fun d => (g.2 d).trans (h.2 d)⟩

theorem NearSame.die {s u : State} (h : NearSame s u) (d : Nat) : (u.die d).mem = (s.die d).mem := by
  have := h.2 d
  simp only [State.die, List.getD_eq_getElem?_getD]
  cases h1 : u.dies[d]? <;> cases h2 : s.dies[d]? <;> simp_all

theorem NearSame.canonical {s u : State} (h : NearSame s u) (hs : ∀ d ∈ s.dies, Memory.wf d.mem = true) :
    ∀ d ∈ u.dies, Memory.wf d.mem = true := by
  intro d hd
  obtain ⟨n, hn, rfl⟩ := List.getElem_of_mem hd
  have h2 := h.2 n
  have hn' : n < s.dies.length := h.1 ▸ hn
  rw [List.getElem?_eq_getElem hn, List.getElem?_eq_getElem hn'] at h2
  simp only [Option.map_some, Option.some.injEq] at h2
  rw [h2]
  exact hs _ (List.getElem_mem hn')

/-- Near memory keeps its canonical form. -/
def NearCanon (s u : State) : Prop := (∀ d ∈ s.dies, Memory.wf d.mem = true) → ∀ d ∈ u.dies, Memory.wf d.mem = true

theorem NearSame.canon {s u : State} (h : NearSame s u) : NearCanon s u := h.canonical
theorem NearCanon.refl (s : State) : NearCanon s s := fun h => h
theorem NearCanon.of_eq {s u : State} (h : u.dies = s.dies) : NearCanon s u := (NearSame.of_eq h).canon
theorem NearCanon.trans {s u v : State} (h : NearCanon s u) (g : NearCanon u v) : NearCanon s v := fun x => g (h x)

theorem NearCanon.foldl {α : Type} (f : State → α → State) (h : ∀ s x, NearCanon s (f s x)) :
    ∀ (l : List α) (s : State), NearCanon s (l.foldl f s)
  | [], s => NearCanon.refl s
  | x :: l, s => (h s x).trans (NearCanon.foldl f h l (f s x))

theorem State.modDie_near (s : State) (d : Nat) (f : Die → Die) (h : ∀ x, (f x).mem = x.mem) : NearSame s (s.modDie d f) := by
  refine ⟨by simp, fun k => ?_⟩
  simp only [State.modDie, List.getElem?_modify]
  by_cases hk : d = k
  · subst hk
    simp only [if_true]
    cases s.dies[d]? <;> simp [h]
  · simp [hk]

theorem State.dieEvent_near (s : State) (d : Nat) (k : BitVec 8) (de : BitVec 16) (i j : Word) :
    NearSame s (s.dieEvent d k de i j) := by
  unfold State.dieEvent
  split
  · exact NearSame.of_eq (by rw [State.pushEvent_only])
  · split <;> exact State.modDie_near _ _ _ fun _ => rfl

theorem State.enterFault_only (s : State) (d : Nat) (f : FaultRec) :
    s.enterFault d f = { s with
      dies := (s.enterFault d f).dies, eventq := (s.enterFault d f).eventq
      ports := (s.enterFault d f).ports, out := (s.enterFault d f).out } := by
  unfold State.enterFault; dsimp only
  split
  · rw [State.dieEvent_only]; rfl
  · rfl

theorem State.enterFault_near (s : State) (d : Nat) (f : FaultRec) : NearSame s (s.enterFault d f) := by
  unfold State.enterFault; dsimp only
  split
  · exact (State.modDie_near s d (fun x => { x with faultq := x.faultq ++ [f] }) fun _ => rfl).trans
      (State.dieEvent_near _ _ _ _ _ _)
  · exact State.modDie_near _ _ _ fun _ => rfl

theorem State.takeFault_only {s u : State} {d : Nat} {f : FaultRec} (h : s.takeFault d f = some u) :
    u = { s with dies := u.dies, eventq := u.eventq, ports := u.ports, out := u.out } := by
  unfold State.takeFault at h
  split at h
  · obtain rfl := Option.some.inj h; rw [State.enterFault_only]
  · split at h
    · obtain rfl := Option.some.inj h; rfl
    · cases h

theorem State.takeFault_near {s u : State} {d : Nat} {f : FaultRec} (h : s.takeFault d f = some u) : NearSame s u := by
  unfold State.takeFault at h
  split at h
  · obtain rfl := Option.some.inj h; exact State.enterFault_near _ _ _
  · split at h
    · obtain rfl := Option.some.inj h; exact State.modDie_near _ _ _ fun _ => rfl
    · cases h

theorem State.reportFault_only (s : State) (d : Nat) (f : FaultRec) :
    s.reportFault d f = { s with
      dies := (s.reportFault d f).dies, eventq := (s.reportFault d f).eventq
      ports := (s.reportFault d f).ports, out := (s.reportFault d f).out } := by
  unfold State.reportFault; dsimp only
  split
  · split <;> rfl
  · cases h : s.takeFault d f with
    | none => rfl
    | some u => exact State.takeFault_only h

theorem State.reportFault_near (s : State) (d : Nat) (f : FaultRec) : NearSame s (s.reportFault d f) := by
  have lost : NearSame s ((s.modDie d fun y => { y with offers := y.offers ++ [f] }).latchLost d) :=
    (State.modDie_near s d (fun y => { y with offers := y.offers ++ [f] }) fun _ => rfl).trans
      (State.modDie_near _ _ _ fun _ => rfl)
  unfold State.reportFault; dsimp only
  split
  · split
    · exact State.modDie_near _ _ _ fun _ => rfl
    · exact lost
  · cases h : s.takeFault d f with
    | none => exact lost
    | some u => exact State.takeFault_near h

theorem State.logError_only (s : State) (c : Word) (d : Nat) (p : Planted) :
    s.logError c d p = { s with
      dies := (s.logError c d p).dies, eventq := (s.logError c d p).eventq, ports := (s.logError c d p).ports
      logs := (s.logError c d p).logs, out := (s.logError c d p).out } := by
  unfold State.logError; dsimp only
  split
  · rw [State.dieEvent_only]
  · rfl

theorem State.logError_near (s : State) (c : Word) (d : Nat) (p : Planted) : NearSame s (s.logError c d p) := by
  unfold State.logError; dsimp only
  split
  · exact (NearSame.of_eq rfl).trans (State.dieEvent_near _ _ _ _ _ _)
  · exact NearSame.of_eq rfl

/-- A fold of steps that each leave near memory leaves it. -/
theorem NearSame.foldl {α : Type} (f : State → α → State) (h : ∀ s x, NearSame s (f s x)) :
    ∀ (l : List α) (s : State), NearSame s (l.foldl f s)
  | [], s => NearSame.refl s
  | x :: l, s => (h s x).trans (NearSame.foldl f h l (f s x))

theorem State.logErrors_only (c : Word) (d : Nat) : ∀ (l : List Planted) (s : State),
    l.foldl (fun s p => s.logError c d p) s = { s with
      dies := (l.foldl (fun s p => s.logError c d p) s).dies
      eventq := (l.foldl (fun s p => s.logError c d p) s).eventq
      ports := (l.foldl (fun s p => s.logError c d p) s).ports
      logs := (l.foldl (fun s p => s.logError c d p) s).logs
      out := (l.foldl (fun s p => s.logError c d p) s).out }
  | [], _ => rfl
  | p :: l, s => by rw [List.foldl_cons, State.logErrors_only c d l]; rw [State.logError_only]

theorem State.eccRead_only (s : State) (arr : BitVec 16) (a n : Nat) (c : Word) (d : Nat) :
    (s.eccRead arr a n c d).1 = { s with
      dies := (s.eccRead arr a n c d).1.dies, eventq := (s.eccRead arr a n c d).1.eventq
      ports := (s.eccRead arr a n c d).1.ports
      logs := (s.eccRead arr a n c d).1.logs, out := (s.eccRead arr a n c d).1.out
      planted := (s.eccRead arr a n c d).1.planted } := by
  unfold State.eccRead; dsimp only
  rw [State.logErrors_only]

theorem State.eccRead_near (s : State) (arr : BitVec 16) (a n : Nat) (c : Word) (d : Nat) :
    NearSame s (s.eccRead arr a n c d).1 := by
  unfold State.eccRead; dsimp only
  exact (NearSame.of_eq rfl).trans (NearSame.foldl _ (fun s p => State.logError_near s c d p) _ _)

/-- Where no error is planted, a read reports none. -/
@[simp] theorem State.eccRead_clean (s : State) (arr : BitVec 16) (a n : Nat) (c : Word) (d : Nat) (h : s.planted = []) :
    s.eccRead arr a n c d = (s, false) := by
  simp only [State.eccRead, h, List.filter_nil, List.foldl_nil, List.any_nil]; rw [← h]

/-! ### Writes of memory -/

theorem State.setNear_only (s : State) (d a : Nat) (bs : List Byte) :
    s.setNear d a bs = { s with
      dies := s.dies.modify d fun x => { x with mem := Memory.write x.mem a bs }
      errinj := (s.setNear d a bs).errinj, planted := (s.setNear d a bs).planted } := by
  unfold State.setNear; rw [State.eccWrite_only]; rfl

theorem State.setNear_canon (s : State) (d a : Nat) (bs : List Byte) : NearCanon s (s.setNear d a bs) := by
  intro h x hx
  rw [State.setNear_only] at hx
  obtain ⟨n, hn, rfl⟩ := List.getElem_of_mem hx
  simp only [List.length_modify] at hn
  simp only [List.getElem_modify]
  split
  · exact Memory.wf_write _ _ (h _ (List.getElem_mem hn))
  · exact h _ (List.getElem_mem hn)

theorem State.bufWrite_only (s : State) (c : Nat) (sp : Space) (a : Nat) (bs : List Byte) :
    s.bufWrite c sp a bs = { s with
      cores := s.cores.modify c fun k => k.setBuf sp (Memory.write (k.buf sp) a bs)
      errinj := (s.bufWrite c sp a bs).errinj, planted := (s.bufWrite c sp a bs).planted } := by
  unfold State.bufWrite; rw [State.eccWrite_only]; rfl

theorem State.bufWriteTag_only (s : State) (c : Nat) (sp : Space) (a : Nat) (bs : List Byte) (t : Option Tag) :
    s.bufWriteTag c sp a bs t = { s with
      cores := (s.bufWriteTag c sp a bs t).cores, errinj := (s.bufWriteTag c sp a bs t).errinj
      planted := (s.bufWriteTag c sp a bs t).planted } := by
  unfold State.bufWriteTag; dsimp only
  rw [State.bufWrite_only]
  split <;> rfl

/-! ### Translation, parking, registers -/

theorem State.tlbFill_only (s : State) (co : Option Nat) (c : Word) (l va : Nat) (p : Pte) :
    s.tlbFill co c l va p = { s with
      dies := (s.tlbFill co c l va p).dies, cores := (s.tlbFill co c l va p).cores } := by
  unfold State.tlbFill; dsimp only; split <;> rfl

theorem State.tlbFill_near (s : State) (co : Option Nat) (c : Word) (l va : Nat) (p : Pte) :
    NearSame s (s.tlbFill co c l va p) := by
  unfold State.tlbFill; dsimp only
  split <;> exact State.modDie_near _ _ _ fun _ => rfl

theorem State.setStatus_only (s : State) (t : Nat) (st : Status) :
    s.setStatus t st = { s with threads := (s.setStatus t st).threads } := rfl

theorem State.fillReg_only (s : State) (t : Nat) (r : RegRef) (w : Word) (g : Tag) :
    s.fillReg t r w g = { s with threads := (s.fillReg t r w g).threads, warps := (s.fillReg t r w g).warps } := by
  cases r <;> rfl

theorem State.fillRegs_only (t : Nat) (g : Tag) : ∀ (rs : List RegRef) (ws : List Word) (s : State),
    s.fillRegs t rs ws g = { s with
      threads := (s.fillRegs t rs ws g).threads, warps := (s.fillRegs t rs ws g).warps }
  | [], _, s => by simp [State.fillRegs]
  | _ :: _, [], s => by simp [State.fillRegs]
  | r :: rs, w :: ws, s => by
    rw [State.fillRegs, State.fillRegs_only t g rs ws]
    cases r <;> rfl

theorem State.markAll_only (t : Nat) : ∀ (rs : List RegRef) (s : State),
    s.markAll t rs = { s with threads := (s.markAll t rs).threads, warps := (s.markAll t rs).warps }
  | [], s => rfl
  | r :: rs, s => by
    have h := State.markAll_only t rs (s.markEmpty t r)
    have e : s.markAll t (r :: rs) = (s.markEmpty t r).markAll t rs := rfl
    rw [e, h]
    cases r <;> rfl

theorem State.jump_only (s : State) (t : Nat) (w : Word) (n : Nat) :
    s.jump t w n = { s with threads := (s.jump t w n).threads } := by
  unfold State.jump; split <;> rfl

theorem State.retire_only (s : State) (t n : Nat) : s.retire t n = { s with threads := (s.retire t n).threads } := rfl

/-! ### Completion -/

theorem State.ringRecord_only (s : State) (p : BitVec 1) (r : Record) :
    s.ringRecord p r = { s with ports := (s.ringRecord p r).ports, out := (s.ringRecord p r).out } := by
  unfold State.ringRecord; dsimp only
  split
  · rw [State.raiseVec_only]; rfl
  · rfl

theorem State.admitRing_only (p : BitVec 1) : ∀ (n : Nat) (s : State),
    s.admitRing n p = { s with ports := (s.admitRing n p).ports, out := (s.admitRing n p).out }
  | 0, s => rfl
  | n + 1, s => by
    unfold State.admitRing
    split
    · rfl
    · split
      · dsimp only
        rw [State.admitRing_only p n]
        simp only [State.modPort]
        rw [State.ringRecord_only]
      · rfl

theorem State.completeOp_only (s : State) (i : Nat) (st : BitVec 16) (de : Word) (vs : List Word) :
    s.completeOp i st de vs = { s with
      ops := (s.completeOp i st de vs).ops, threads := (s.completeOp i st de vs).threads
      warps := (s.completeOp i st de vs).warps, cores := (s.completeOp i st de vs).cores
      ports := (s.completeOp i st de vs).ports, out := (s.completeOp i st de vs).out } := by
  unfold State.completeOp; dsimp only
  split
  · rfl
  · split
    · rw [State.ringRecord_only]; rfl
    · simp only [State.modCo]; rw [State.fillRegs_only]; rfl

/-- A core's record queues change, and nothing else of it. -/
theorem CoreSt.addRecord_only (k : CoreSt) (e : BitVec 4) (r : Record) :
    k.addRecord e r = { k with q0 := (k.addRecord e r).q0, heldq := (k.addRecord e r).heldq } := by
  unfold CoreSt.addRecord
  split
  · rfl
  · split <;> rfl

/-- The fields that the error protection of a read, the end of a context and a use of a translation may change. -/
def Guarded (s u : State) : Prop :=
  u = { s with
    launches := u.launches, ops := u.ops, threads := u.threads, warps := u.warps, cells := u.cells, cores := u.cores
    dies := u.dies, ctxs := u.ctxs, ports := u.ports, out := u.out, eventq := u.eventq, logs := u.logs
    errinj := u.errinj, planted := u.planted }

theorem Guarded.refl (s : State) : Guarded s s := rfl
theorem Guarded.trans {s u v : State} (h : Guarded s u) (g : Guarded u v) : Guarded s v := by
  unfold Guarded at *; rw [g, h]

theorem Guarded.foldl {α : Type} (f : State → α → State) (h : ∀ s x, Guarded s (f s x)) :
    ∀ (l : List α) (s : State), Guarded s (l.foldl f s)
  | [], s => Guarded.refl s
  | x :: l, s => (h s x).trans (Guarded.foldl f h l (f s x))

theorem State.eccRead_guarded (s : State) (arr : BitVec 16) (a n : Nat) (c : Word) (d : Nat) :
    Guarded s (s.eccRead arr a n c d).1 := by
  unfold Guarded; rw [State.eccRead_only]

/-- The reads of an arrival on DONE, folded with their flag: what each may change, all may. -/
theorem State.eccReads_guarded (arr : BitVec 16) (c : Word) (d : Nat) : ∀ (l : List (Nat × Nat)) (r : State × Bool),
    Guarded r.1 (l.foldl (fun (r : State × Bool) (a : Nat × Nat) =>
      ((r.1.eccRead arr a.1 a.2 c d).1, r.2 || (r.1.eccRead arr a.1 a.2 c d).2)) r).1
  | [], r => Guarded.refl r.1
  | a :: l, r => (State.eccRead_guarded r.1 arr a.1 a.2 c d).trans (State.eccReads_guarded arr c d l _)

theorem State.eccReads_near (arr : BitVec 16) (c : Word) (d : Nat) : ∀ (l : List (Nat × Nat)) (r : State × Bool),
    NearSame r.1 (l.foldl (fun (r : State × Bool) (a : Nat × Nat) =>
      ((r.1.eccRead arr a.1 a.2 c d).1, r.2 || (r.1.eccRead arr a.1 a.2 c d).2)) r).1
  | [], r => NearSame.refl r.1
  | a :: l, r => (State.eccRead_near r.1 arr a.1 a.2 c d).trans (State.eccReads_near arr c d l _)

theorem State.putArrive_guarded (s : State) (d pa : Nat) : Guarded s (s.putArrive d pa) := by
  unfold State.putArrive; dsimp only
  split
  · unfold Guarded; rw [State.setNear_only]
  · exact Guarded.refl s

theorem State.putArrive_canon (s : State) (d pa : Nat) : NearCanon s (s.putArrive d pa) := by
  unfold State.putArrive; dsimp only
  split
  · exact State.setNear_canon _ _ _ _
  · exact NearCanon.refl s

theorem State.lastArrival_guarded (s : State) (l : Nat) : Guarded s (s.lastArrival l).1 := by
  unfold State.lastArrival; dsimp only
  split
  · exact Guarded.refl s
  · split
    · dsimp only
      split
      · exact State.eccReads_guarded _ _ _ _ (s, false)
      · exact (State.eccReads_guarded _ _ _ _ (s, false)).trans (State.putArrive_guarded _ _ _)
    · exact Guarded.refl s

theorem State.lastArrival_canon (s : State) (l : Nat) : NearCanon s (s.lastArrival l).1 := by
  unfold State.lastArrival; dsimp only
  split
  · exact NearCanon.refl s
  · split
    · dsimp only
      split
      · exact (State.eccReads_near _ _ _ _ (s, false)).canon
      · exact (State.eccReads_near _ _ _ _ (s, false)).canon.trans (State.putArrive_canon _ _ _)
    · exact NearCanon.refl s

/-- A grid without a DONE object arrives nowhere. -/
theorem State.lastArrival_none (s : State) (l : Nat) (h : (lDone (s.la l).words).en = false) : s.lastArrival l = (s, false) := by
  simp [State.lastArrival, h]

theorem State.completeOp_guarded (s : State) (i : Nat) (st : BitVec 16) (de : Word) (vs : List Word) :
    Guarded s (s.completeOp i st de vs) := by
  unfold Guarded; rw [State.completeOp_only]

theorem State.completeOp_near (s : State) (i : Nat) (st : BitVec 16) (de : Word) (vs : List Word) :
    NearSame s (s.completeOp i st de vs) := by
  rw [State.completeOp_only]; exact NearSame.of_eq rfl

theorem State.endLaunches_guarded (s : State) (c : Word) (st : BitVec 16) (de : Word) : Guarded s (s.endLaunches c st de) := by
  unfold State.endLaunches
  refine Guarded.foldl _ (fun s l => ?_) _ _
  have done (s : State) (a : BitVec 16) (b : Word) (x : Launch) :
      Guarded s ((s.modLa l fun y => { y with stage := .complete }).completeOp x.op a b) :=
    Guarded.trans (u := s.modLa l fun y => { y with stage := .complete }) rfl (State.completeOp_guarded _ _ _ _ _)
  dsimp only
  split
  · exact done _ _ _ _
  · split <;> exact (State.lastArrival_guarded s l).trans (done _ _ _ _)
  · exact Guarded.refl s

theorem State.endLaunches_canon (s : State) (c : Word) (st : BitVec 16) (de : Word) : NearCanon s (s.endLaunches c st de) := by
  unfold State.endLaunches
  refine NearCanon.foldl _ (fun s l => ?_) _ _
  have done (s : State) (a : BitVec 16) (b : Word) (x : Launch) :
      NearCanon s ((s.modLa l fun y => { y with stage := .complete }).completeOp x.op a b) :=
    (NearCanon.of_eq (s := s) (u := s.modLa l fun y => { y with stage := .complete }) rfl).trans (State.completeOp_near _ _ _ _ _).canon
  dsimp only
  split
  · exact done _ _ _ _
  · split <;> exact (State.lastArrival_canon s l).trans (done _ _ _ _)
  · exact NearCanon.refl s

theorem State.endOps_only (s : State) (c : Word) : s.endOps c = { s with ops := (s.endOps c).ops } := by
  unfold State.endOps
  generalize List.range s.ops.length = l
  induction l generalizing s with
  | nil => rfl
  | cons a l ih =>
    rw [List.foldl_cons, ih]
    dsimp only
    split
    · rfl
    · split <;> rfl

theorem State.endCtx_guarded (s : State) (c : Word) (st : BitVec 16) (de : Word) : Guarded s (s.endCtx c st de) := by
  unfold State.endCtx; dsimp only [State.modCtx]
  refine (State.endLaunches_guarded s c st de).trans ?_
  unfold Guarded
  rw [State.endOps_only]

theorem State.endCtx_canon (s : State) (c : Word) (st : BitVec 16) (de : Word) : NearCanon s (s.endCtx c st de) := by
  unfold State.endCtx; dsimp only [State.modCtx]
  refine (State.endLaunches_canon s c st de).trans ?_
  rw [State.endOps_only]
  intro h d hd
  obtain ⟨x, hx, rfl⟩ := List.mem_map.1 hd
  exact h x hx

theorem State.tlbFill_guarded (s : State) (co : Option Nat) (c : Word) (l va : Nat) (p : Pte) :
    Guarded s (s.tlbFill co c l va p) := by
  unfold Guarded; rw [State.tlbFill_only]

theorem State.eccGuard_guarded (s : State) (arr : BitVec 16) (a n : Nat) (c : Word) (d : Nat) :
    Guarded s (s.eccGuard arr a n c d).1 := by
  have h := State.eccRead_guarded s arr a n c d
  unfold State.eccGuard; dsimp only
  split
  · exact h.trans (State.endCtx_guarded _ _ _ _)
  · exact h

theorem State.eccGuard_canon (s : State) (arr : BitVec 16) (a n : Nat) (c : Word) (d : Nat) :
    NearCanon s (s.eccGuard arr a n c d).1 := by
  have h := (State.eccRead_near s arr a n c d).canon
  unfold State.eccGuard; dsimp only
  split
  · exact h.trans (State.endCtx_canon _ _ _ _)
  · exact h

/-- Where no error is planted, a guarded read changes nothing. -/
@[simp] theorem State.eccGuard_clean (s : State) (arr : BitVec 16) (a n : Nat) (c : Word) (d : Nat) (h : s.planted = []) :
    s.eccGuard arr a n c d = (s, false) := by
  simp [State.eccGuard, State.eccRead_clean _ _ _ _ _ _ h]

@[simp] theorem State.placeEcc_clean (s : State) (p : Place) (a n : Nat) (c : Word) (h : s.planted = []) :
    s.placeEcc p a n c = (s, false) := by
  unfold State.placeEcc
  split <;> exact State.eccGuard_clean _ _ _ _ _ _ h

/-- Where no error is planted, the reads of an instruction at issue change nothing. -/
@[simp] theorem State.readsEcc_clean (s : State) (c : Word) (h : s.planted = []) :
    ∀ sites, s.readsEcc c sites = (s, false)
  | [] => rfl
  | x :: xs => by
    have := State.readsEcc_clean s c h xs
    unfold State.readsEcc at this ⊢
    simp only [List.foldl_cons, State.placeEcc_clean s _ _ _ _ h, Bool.false_eq_true, if_false]
    exact this

theorem State.walkEcc_guarded (s : State) (co : Option Nat) (c : Word) (l va : Nat) : Guarded s (s.walkEcc co c l va) := by
  exact Guarded.foldl _ (fun s (x : Place × Nat × Nat) => State.eccGuard_guarded s _ x.2.1 x.2.2 c _) _ _

theorem State.walkEcc_canon (s : State) (co : Option Nat) (c : Word) (l va : Nat) : NearCanon s (s.walkEcc co c l va) := by
  exact NearCanon.foldl _ (fun s (x : Place × Nat × Nat) => State.eccGuard_canon s _ x.2.1 x.2.2 c _) _ _

/-- Where no error is planted, a walk's reads change nothing. -/
@[simp] theorem State.walkEcc_clean (s : State) (co : Option Nat) (c : Word) (l va : Nat) (h : s.planted = []) :
    s.walkEcc co c l va = s := by
  unfold State.walkEcc
  generalize s.walkReads co c l va = sites
  induction sites with
  | nil => rfl
  | cons a as ih => rw [List.foldl_cons, State.eccGuard_clean s _ _ _ _ _ h]; exact ih

@[simp] theorem State.useXlate_clean (s : State) (co : Option Nat) (c : Word) (l va : Nat) (p : Pte) (h : s.planted = []) :
    s.useXlate co c l va p = s.tlbFill co c l va p := by
  rw [State.useXlate, State.walkEcc_clean s co c l va h]

theorem State.useXlate_guarded (s : State) (co : Option Nat) (c : Word) (l va : Nat) (p : Pte) :
    Guarded s (s.useXlate co c l va p) :=
  (State.walkEcc_guarded s co c l va).trans (State.tlbFill_guarded _ _ _ _ _ _)

theorem State.useXlate_canon (s : State) (co : Option Nat) (c : Word) (l va : Nat) (p : Pte) :
    NearCanon s (s.useXlate co c l va p) :=
  (State.walkEcc_canon s co c l va).trans (State.tlbFill_near _ _ _ _ _ _).canon

theorem State.park_guarded (s : State) (t : Nat) (f : FaultRec) : Guarded s (s.park t f) := by
  have h := State.walkEcc_guarded s (some (s.coreOf t)) (s.co (s.coreOf t)).ctx (s.ldieOf t) f.va
  unfold State.park; dsimp only
  split
  · exact h
  · refine h.trans ?_
    unfold Guarded; rw [State.reportFault_only]; rfl

theorem State.park_canon (s : State) (t : Nat) (f : FaultRec) : NearCanon s (s.park t f) := by
  have h := State.walkEcc_canon s (some (s.coreOf t)) (s.co (s.coreOf t)).ctx (s.ldieOf t) f.va
  unfold State.park; dsimp only
  split
  · exact h
  · refine h.trans (NearSame.canon ?_)
    exact (NearSame.of_eq rfl).trans (State.reportFault_near _ _ _)

/-! ### Traps -/

theorem State.enterHandler_only (s : State) (t : Nat) (e : Entry) (i : TrapInfo) (f : Nat) (h : Word) :
    s.enterHandler t e i f h = { s with
      threads := (s.enterHandler t e i f h).threads, cores := (s.enterHandler t e i f h).cores
      seq := (s.enterHandler t e i f h).seq } := by
  unfold State.enterHandler; split <;> rfl

theorem State.enterHandler_near (s : State) (t : Nat) (e : Entry) (i : TrapInfo) (f : Nat) (h : Word) :
    NearSame s (s.enterHandler t e i f h) := by
  rw [State.enterHandler_only]; exact NearSame.of_eq rfl

theorem State.deliverTrap_only (s : State) (t : Nat) (i : TrapInfo) :
    s.deliverTrap t i = { s with
      launches := (s.deliverTrap t i).launches, ops := (s.deliverTrap t i).ops
      threads := (s.deliverTrap t i).threads, warps := (s.deliverTrap t i).warps
      cells := (s.deliverTrap t i).cells, cores := (s.deliverTrap t i).cores, dies := (s.deliverTrap t i).dies
      ctxs := (s.deliverTrap t i).ctxs, ports := (s.deliverTrap t i).ports, out := (s.deliverTrap t i).out
      eventq := (s.deliverTrap t i).eventq, logs := (s.deliverTrap t i).logs
      errinj := (s.deliverTrap t i).errinj, planted := (s.deliverTrap t i).planted, seq := (s.deliverTrap t i).seq } := by
  unfold State.deliverTrap; dsimp only
  split
  · rw [(State.endCtx_guarded s _ _ _ : _ = _)]
  · split
    · rw [(State.endCtx_guarded _ _ _ _ : _ = _), (State.walkEcc_guarded s _ _ _ _ : _ = _)]
    · rename_i p _ _
      rw [State.enterHandler_only, (State.useXlate_guarded s _ _ _ _ p : _ = _)]

theorem State.deliverTrap_canon (s : State) (t : Nat) (i : TrapInfo) : NearCanon s (s.deliverTrap t i) := by
  unfold State.deliverTrap; dsimp only
  split
  · exact State.endCtx_canon _ _ _ _
  · split
    · exact (State.walkEcc_canon _ _ _ _ _).trans (State.endCtx_canon _ _ _ _)
    · exact (State.useXlate_canon _ _ _ _ _ _).trans (State.enterHandler_near _ _ _ _ _ _).canon

theorem State.takeTrap_only (s : State) (t : Nat) (c : Word) (a : BitVec 64) (r : Word) :
    s.takeTrap t c a r = { s with
      launches := (s.takeTrap t c a r).launches, ops := (s.takeTrap t c a r).ops
      threads := (s.takeTrap t c a r).threads, warps := (s.takeTrap t c a r).warps
      cells := (s.takeTrap t c a r).cells, cores := (s.takeTrap t c a r).cores, dies := (s.takeTrap t c a r).dies
      ctxs := (s.takeTrap t c a r).ctxs, ports := (s.takeTrap t c a r).ports, out := (s.takeTrap t c a r).out
      eventq := (s.takeTrap t c a r).eventq, logs := (s.takeTrap t c a r).logs
      errinj := (s.takeTrap t c a r).errinj, planted := (s.takeTrap t c a r).planted, seq := (s.takeTrap t c a r).seq } := by
  unfold State.takeTrap
  split
  · rfl
  · split
    · rw [State.deliverTrap_only]
    · rfl

theorem State.takeTrap_canon (s : State) (t : Nat) (c : Word) (a : BitVec 64) (r : Word) : NearCanon s (s.takeTrap t c a r) := by
  unfold State.takeTrap
  split
  · exact NearCanon.refl s
  · split
    · exact State.deliverTrap_canon _ _ _
    · exact NearCanon.of_eq rfl

theorem State.exitThread_only (s : State) (t : Nat) :
    s.exitThread t = { s with
      threads := (s.exitThread t).threads, warps := (s.exitThread t).warps, cores := (s.exitThread t).cores } := by
  unfold State.exitThread; dsimp only; split <;> rfl

theorem State.cacheLine_guarded (s : State) (t : Nat) (pc : Word) : Guarded s (s.cacheLine t pc) := by
  unfold State.cacheLine; dsimp only
  split
  · exact Guarded.refl s
  · split
    · exact State.useXlate_guarded _ _ _ _ _ _
    · exact ((State.useXlate_guarded _ _ _ _ _ _).trans (State.eccGuard_guarded _ _ _ _ _ _)).trans rfl

theorem State.cacheLine_canon (s : State) (t : Nat) (pc : Word) : NearCanon s (s.cacheLine t pc) := by
  unfold State.cacheLine; dsimp only
  split
  · exact NearCanon.refl s
  · split
    · exact State.useXlate_canon _ _ _ _ _ _
    · exact ((State.useXlate_canon _ _ _ _ _ _).trans (State.eccGuard_canon _ _ _ _ _ _)).trans (NearCanon.of_eq rfl)

end Sys2Proof.Machine
end

