-- ==== Sys2Proof/Laws/Lanes.lean ====
section
/-! SUPPORT. What the shared wrappers of the lane instructions do for a lane that issues alone: the checks pass, and the
instruction acts. -/

namespace Sys2Proof.Machine

theorem leaderOf_self (s : State) (t : Nat) : leaderOf s [t] t = t := by
  simp [leaderOf]

/-- A lane that issues alone and passes its check acts, and nothing else happens. -/
theorem runLanes_lone {s : State} {t : Nat} {x : Option Ext} {once : Bool} {chk : State → Nat → Check}
    {act start : State → Nat → State} (h : Lone s t x) (hc : chk s t = .ok) :
    runLanes x once chk act start s = act s t := by
  simp [runLanes, h.issuing, h.guard, h.live, leaderOf_self, hc, laneStep]

/-- A lane that issues alone and whose check is not a trap blocks, parks or starts its pops. -/
theorem runLanes_lone_step {s : State} {t : Nat} {x : Option Ext} {once : Bool} {chk : State → Nat → Check}
    {act start : State → Nat → State} (h : Lone s t x) (hc : ∀ c d a, chk s t ≠ .trap c d a) :
    runLanes x once chk act start s = laneStep (chk s t) act start s t := by
  cases hq : chk s t with
  | trap c d a => exact absurd hq (hc c d a)
  | _ => simp [runLanes, h.issuing, h.guard, h.live, leaderOf_self, hq, laneStep]

/-- A lane that issues alone and traps takes its trap, and the instruction has no effect. -/
theorem runLanes_lone_trap {s : State} {t : Nat} {x : Option Ext} {once : Bool} {chk : State → Nat → Check}
    {act start : State → Nat → State} {c d : Nat} {a : BitVec 64} (h : Lone s t x) (hc : chk s t = .trap c d a) :
    runLanes x once chk act start s = s.faultTrap t c d a := by
  simp [runLanes, h.issuing, h.guard, leaderOf_self, hc]

/-- A lane whose guard is false passes the instruction by (R35). -/
theorem runLanes_guard_off {s : State} {t : Nat} {x : Option Ext} {once : Bool} {chk : State → Nat → Check}
    {act start : State → Nat → State} (hi : s.issuing = [t]) (hg : guardOn x (s.th t) = false) :
    runLanes x once chk act start s = s.retire t (extLen x) := by
  simp [runLanes, hi, hg]

theorem runPlain_lone {s : State} {t : Nat} {x : Option Ext} {once : Bool} {chk : State → Nat → Check}
    {act : State → Nat → State} (h : Lone s t x) (hc : chk s t = .ok) : runPlain x once chk act s = act s t :=
  runLanes_lone h hc

/-- The reads that a lane makes at issue change nothing, where it makes none or no error is planted. -/
theorem withReads_lone {s : State} {t : Nat} {x : Option Ext} {once : Bool}
    {sites : State → Nat → List (Place × Nat × Nat)} {run : State → State} (h : Lone s t x)
    (hq : s.planted = [] ∨ sites s t = []) : withReads x once sites run s = run s := by
  have hr : s.readsEcc (s.ctxIdOf t) (sites s t) = (s, false) := by
    rcases hq with hp | hn
    · exact State.readsEcc_clean _ _ hp _
    · rw [hn]; rfl
  cases once <;> simp [withReads, h.issuing, h.guard, leaderOf_self, hr]

theorem faceSites_nil (s : State) (t : Nat) : faceSites s t [] = [] := by
  unfold faceSites
  split <;> rfl

/-- Without neighbour values among its sources an instruction reads no face store. -/
theorem nbrReads_nil {chk : State → Nat → Check} {srcs : List SrcF} (h : ∀ f ∈ srcs, ∀ k j, f.op ≠ .nbr k j) (s : State) (t : Nat) :
    nbrReads chk srcs s t = [] := by
  unfold nbrReads
  split
  · rw [List.filterMap_eq_nil_iff.mpr, faceSites_nil]
    intro f hf
    split
    · next k j hk => exact absurd hk (h f hf k j)
    · rfl
  · rfl

theorem Check.ok_andThen (c : Check) : Check.ok.andThen c = c := rfl

/-- Operands that are given pass the faults that every instruction checks first, and whatever stands between them decides. -/
theorem opFault_given {s : State} {t : Nat} {fields : List Operand} {srcs : List SrcF} {dst : List RegRef}
    (h : Given s t fields srcs dst) (more : Check) : opFault s t fields srcs dst more = more.andThen .ok := by
  obtain ⟨ha, hf, hl, -⟩ := h
  have h1 : fields.find? (opBad s t) = none := by
    simpa [List.find?_eq_none] using ha
  have h2 : (srcRegs (s.th t) srcs ++ dst).any (ownLred s t).contains = false := by
    rw [List.any_eq_false]
    intro r hr
    rw [hl r hr]
    simp
  have h3 : (srcs.find? fun f => f.e && (regsOf (s.th t) f.op f.n).any fun r => !s.regFull t r) = none := by
    rw [List.find?_eq_none]
    intro f hm hx
    simp only [Bool.and_eq_true, List.any_eq_true, Bool.not_eq_true'] at hx
    obtain ⟨-, r, hr, hx⟩ := hx
    have := hf r (List.mem_append_left _ (List.mem_flatMap.mpr ⟨f, hm, hr⟩))
    rw [this] at hx
    cases hx
  simp only [opFault, h1, h2, h3, Bool.false_eq_true, if_false]

/-- They are not waited for. -/
theorem opWait_given {s : State} {t : Nat} {fields : List Operand} {srcs : List SrcF} {dst : List RegRef}
    (h : Given s t fields srcs dst) : opWait s t srcs dst = .ok := by
  have : (srcRegs (s.th t) srcs ++ dst).filter (regWaits s t) = [] := by
    rw [List.filter_eq_nil_iff]
    intro r hr
    simp [regWaits, h.full r hr]
  simp [opWait, this]

/-- Operands that are given pass the checks that every instruction makes first. -/
theorem opCheck_given {s : State} {t : Nat} {fields : List Operand} {srcs : List SrcF} {dst : List RegRef}
    (h : Given s t fields srcs dst) : opCheck s t fields srcs dst = .ok := by
  simp [opCheck, opFault_given h, opWait_given h, Check.ok_andThen]

/-- An unavailable operand is the illegal-operand trap (R40). -/
theorem opCheck_unavailable {s : State} {t : Nat} {fields : List Operand} {srcs : List SrcF} {dst : List RegRef}
    {o : Operand} (h : fields.find? (opBad s t) = some o) :
    opCheck s t fields srcs dst = trapHere s t 2 o.code.toNat := by
  simp [opCheck, opFault, h, trapHere, Check.andThen]

theorem allSlots_no_queue (s : State) (t : Nat) : ∀ (k j : Nat) (fs : List SrcF) (vals : List Word),
    allSlots s t k fs = vals.map Slot.val → allSlots s t j fs = allSlots s t k fs ∧ queuesOf fs = []
  | _, _, [], _, _ => ⟨rfl, rfl⟩
  | k, j, f :: fs, vals, h => by
    have hq : ∀ n, f.op ≠ .q n := by
      intro n hn
      rw [allSlots, slotsOf, hn] at h
      cases vals <;> simp at h
    have hi : f.op.isQ = false := by
      cases ho : f.op with
      | q n => exact absurd ho (hq n)
      | _ => rfl
    have hs : slotsOf s t j f = slotsOf s t k f := by
      unfold slotsOf
      cases ho : f.op with
      | q n => exact absurd ho (hq n)
      | _ => rfl
    rw [allSlots, hi] at h
    have hd : ∃ v, allSlots s t k fs = List.map Slot.val v := by
      refine ⟨vals.drop (slotsOf s t k f).length, ?_⟩
      have := congrArg (List.drop (slotsOf s t k f).length) h
      simpa using this
    obtain ⟨v, hv⟩ := hd
    obtain ⟨h1, h2⟩ := allSlots_no_queue s t k j fs v hv
    refine ⟨by simp [allSlots, hi, hs, h1], ?_⟩
    rw [queuesOf] at h2 ⊢
    cases ho : f.op with
    | q n => exact absurd ho (hq n)
    | _ => simpa [ho] using h2

theorem missing_val (vals : List Word) : missing (vals.map Slot.val) = [] := by
  simp [missing, List.filterMap_map]

theorem all_isVal_val (vals : List Word) : (vals.map Slot.val).all Slot.isVal = true := by
  simp [Slot.isVal]

theorem slotNow_val (s : State) (t : Nat) (vals : List Word) : (vals.map Slot.val).map (slotNow s t) = vals := by
  simp [Function.comp_def, slotNow]

/-- What an arithmetic instruction is given when its lane issues alone (compare `RowGiven`). -/
structure JobGiven (j : Job) (s : State) (t : Nat) (vals : List Word) : Prop where
  noN : j.n = false
  ops : Given s t (j.d :: j.srcs.map SrcF.op) j.reads (j.dst (s.th t))
  words : allSlots s t (s.th t).tickets j.reads = vals.map Slot.val
  room : DestRoom s t j.d
  fresh : (s.th t).popped = []
  tags : j.tagFault s t = .ok
  book : j.bookWait s t = .ok

theorem queuesOf_srcs {j : Job} (h : queuesOf j.reads = []) : queuesOf j.srcs = [] := by
  unfold Job.reads at h
  split at h
  · simp only [queuesOf, List.filterMap_append, List.append_eq_nil_iff] at h
    exact h.1
  · exact h

theorem chanCheck_nil (s : State) (t : Nat) : chanCheck s t [] = .ok := rfl

theorem chanCheck_room {s : State} {t : Nat} {d : Operand} (h : DestRoom s t d) {n : BitVec 2} (hd : d = .q n) :
    chanCheck s t [n.toNat] = .ok := by
  obtain ⟨-, h2⟩ := h n hd
  simp only [chanCheck, List.foldr_cons, List.foldr_nil, queueCheck]
  by_cases hn : n = 0
  · subst hn
    cases boundChan (s.th t) (0#2).toNat <;> simp [Check.ok_andThen]
  · obtain ⟨off, h3, h4⟩ := h2 hn
    have : n.toNat ≠ 0 := fun h0 => hn (BitVec.eq_of_toNat_eq (by simpa using h0))
    simp [h3, h4, this, Check.ok_andThen]

theorem Job.check_given {j : Job} {s : State} {t : Nat} {vals : List Word} (h : JobGiven j s t vals) :
    j.check s t = .ok := by
  obtain ⟨-, hq⟩ := allSlots_no_queue s t _ (s.th t).tickets j.reads vals h.words
  have hq' := queuesOf_srcs hq
  unfold Job.check
  simp only [opFault_given h.ops, opWait_given h.ops, h.tags, h.book, h.noN, hq', h.words, nbrCheck, missing_val, withPops,
    h.fresh, List.nil_append, Check.ok_andThen]
  cases hd : j.d with
  | q n =>
    have hr := (h.room n hd).1
    simp [Job.deferrable, Job.pushes, hd, Operand.isVS, hr, pushWait, chanCheck_room h.room hd, Check.ok_andThen]
  | _ => simp [Job.pushes, hd, pushWait, chanCheck_nil, Check.ok_andThen]

/-- A thread without pops has none to use up. -/
@[simp] theorem State.usePops_nil {s : State} {t : Nat} (h : (s.th t).popped = []) : s.usePops t = s := by
  simp [State.usePops, h]

/-- The effect of an arithmetic instruction in its lane: the result of its source words, and the next PC. -/
theorem Job.act_given {j : Job} {s : State} {t : Nat} {vals : List Word} (h : JobGiven j s t vals) :
    j.act s t = ((j.finish s t vals).usePops t).retire t (extLen j.x) := by
  obtain ⟨h1, hq⟩ := allSlots_no_queue s t _ 0 j.reads vals h.words
  have hv : wordsNow s t j.reads = vals := by
    rw [wordsNow, h.fresh, List.head?_nil, Option.map_none, Option.getD_none, h1, h.words, slotNow_val]
  have hr : j.pushes.all (s.pushRoom t) = true := by
    unfold Job.pushes
    cases hd : j.d with
    | q n => simp [(h.room n hd).1]
    | _ => simp
  unfold Job.act
  simp only [h.noN, h.words, all_isVal_val, hv, hr, orWait, Bool.not_true, Bool.and_false,
    Bool.false_eq_true, if_false, if_true]

/-- What an arithmetic instruction reads at issue meets no planted error. -/
theorem Job.sites_given {j : Job} {s : State} {t : Nat} {vals : List Word} (h : JobGiven j s t vals) :
    s.planted = [] ∨ j.sites s t = [] := by
  refine h.ops.quiet.imp_right fun hn => ?_
  have hs : ∀ f ∈ j.srcs, ∀ k i, f.op ≠ .nbr k i := by
    intro f hf
    refine hn f ?_
    unfold Job.reads
    split
    · exact List.mem_append_left _ hf
    · exact hf
  simp only [Job.sites, nbrReads_nil hs, h.noN, Bool.false_and, Bool.false_eq_true, if_false, List.append_nil]

/-- An arithmetic instruction of a lane that issues alone. -/
theorem runJob_lone {j : Job} {s : State} {t : Nat} {vals : List Word} (hl : Lone s t j.x) (h : JobGiven j s t vals) :
    runJob j s = .next (((j.finish s t vals).usePops t).retire t (extLen j.x)) := by
  rw [runJob, withReads_lone hl (Job.sites_given h), runLanes_lone hl (Job.check_given h), Job.act_given h]

/-! ### Rows of chapter 7 -/

theorem fillRegs_popped (t : Nat) : ∀ (rs : List RegRef) (ws : List Word) (tag : Tag) (s : State),
    ((s.fillRegs t rs ws tag).th t).popped = (s.th t).popped
  | [], _, _, s => by simp [State.fillRegs]
  | _ :: _, [], _, s => by simp [State.fillRegs]
  | r :: rs, w :: ws, tag, s => by
    rw [State.fillRegs, fillRegs_popped t rs ws tag]
    cases r with
    | v n => simp only [State.fillReg, State.th_modTh]; split <;> simp_all
    | s n => simp [State.fillReg]

theorem toFifo_popped (s : State) (t : Nat) (e : Entry) : ((s.toFifo t e).th t).popped = (s.th t).popped := by
  simp only [State.toFifo, State.th, State.bump_frame, State.modWp_frame]

theorem modTh_pop (s : State) (t : Nat) (f : Thread → Thread) (h : ∀ x, (f x).popped = x.popped) :
   ((s.modTh t f).th t).popped = (s.th t).popped := by
  simp only [State.th_modTh]; split <;> simp_all

theorem pushQ_popped (s : State) (t q : Nat) (w : Word) : ((s.pushQ t q w).th t).popped = (s.th t).popped := by
  unfold State.pushQ
  split
  · dsimp only
    split
    · exact modTh_pop _ _ _ fun _ => rfl
    · simp only [State.modCo_entries]; exact modTh_pop _ _ _ fun _ => rfl
  · split
    · exact toFifo_popped _ _ _
    · rfl

theorem writeDst_popped (s : State) (t : Nat) (d : Operand) (dst) (o : FnOut) : ((s.writeDst t d dst o).th t).popped = (s.th t).popped := by
  cases d with
  | v n => exact fillRegs_popped _ _ _ _ _
  | s n => exact fillRegs_popped _ _ _ _ _
  | x i => exact modTh_pop _ _ _ fun _ => rfl
  | q n => exact pushQ_popped _ _ _ _
  | _ => rfl

/-- The end of an arithmetic instruction that is a lane function. -/
theorem Job.finish_fn {j : Job} {s : State} {t : Nat} {vals : List Word} {f : LaneFn} (hp : (s.th t).popped = [])
    (hf : j.res = .fn f) :
  j.finish s t vals = (s.writeDst t j.d (j.dst (s.th t)) (f.eval vals (j.tags s t) (if f.usesCb (j.tags s t) then (captureCb s t).entries else []))).addFlags t
     (f.eval vals (j.tags s t) (if f.usesCb (j.tags s t) then (captureCb s t).entries else [])).flags := by
  simp [Job.finish, hf, bookNow, hp]

theorem runJob_fn {j : Job} {s : State} {t : Nat} {vals : List Word} {f : LaneFn} (hl : Lone s t j.x) (h : JobGiven j s t vals)
   (hf : j.res = .fn f) :
   runJob j s = .next (((s.writeDst t j.d (j.dst (s.th t)) (f.eval vals (j.tags s t) (if f.usesCb (j.tags s t) then (captureCb s t).entries else []))).addFlags t
     (f.eval vals (j.tags s t) (if f.usesCb (j.tags s t) then (captureCb s t).entries else [])).flags).retire t (extLen j.x)) := by
  rw [runJob_lone hl h, State.usePops_nil, Job.finish_fn h.fresh hf]
  rw [Job.finish_fn h.fresh hf]
  simp only [State.addFlags, State.modWp_entries, writeDst_popped, h.fresh]

/-- The tags of full registers are known. -/
theorem knownTags_given {j : Job} {s : State} {t : Nat} (h : Given s t (j.d :: j.srcs.map SrcF.op) j.reads (j.dst (s.th t))) :
    j.knownTags s t = j.tags s t := by
  have hs : ∀ f ∈ j.srcs, (regsOf (s.th t) f.op f.n).all (s.regFull t) = true := by
    intro f hf
    rw [List.all_eq_true]
    intro r hr
    refine h.full r (List.mem_append_left _ (List.mem_flatMap.mpr ⟨f, ?_, hr⟩))
    unfold Job.reads
    split
    · exact List.mem_append_left _ hf
    · exact hf
  have hd : (j.dst (s.th t)).all (s.regFull t) = true := by
    rw [List.all_eq_true]
    exact fun r hr => h.full r (List.mem_append_right _ hr)
  have hk (i : Nat) : (j.srcs[i]?.map fun f => if (regsOf (s.th t) f.op f.n).all (s.regFull t) then tagOf s t f else .raw) =
      j.srcs[i]?.map (tagOf s t) := by
    cases hi : j.srcs[i]? with
    | none => rfl
    | some f => simp only [Option.map_some, hs f (List.mem_of_getElem? hi), if_true]
  simp only [Job.knownTags, hk, hd, if_true, Job.tags]

/-- An instruction whose job is a lane function holds its row, when the function gives the row's result. -/
theorem row_fn {r : Row} {i : Instr} {j : Job} {f : LaneFn} (he : ∀ s, exec i s = runJob j s) (hx : j.x = r.x) (hn : j.n = r.n)
   (hd : j.d = r.d) (hdn : j.dn = r.dn) (hfs : r.fields = j.d :: j.srcs.map SrcF.op) (hrs : r.reads = j.reads) (hf : j.res = .fn f)
   (ht : ∀ s t, r.tagsOk (r.tags s t) = true → f.tagsOk (j.tags s t) = true)
   (hc : ∀ s t, f.usesCb (j.tags s t) = r.codebook (r.tags s t))
   (hv : ∀ s t vals, r.tagsOk (r.tags s t) = true → (allSlots s t (s.th t).tickets r.reads = vals.map Slot.val) → f.eval vals (j.tags s t) (if r.codebook (r.tags s t) then (captureCb s t).entries else []) = r.out s t vals) :
   r.Holds i := by
  intro s t vals hl hg
  have hg' : Given s t (j.d :: j.srcs.map SrcF.op) j.reads (j.dst (s.th t)) := by
    rw [← hfs, ← hrs, Job.dst, hd, hdn]; exact hg.ops
  have hj : JobGiven j s t vals := by
    refine ⟨hn.trans hg.noN, hg', ?_, ?_, hg.fresh, ?_, ?_⟩
    · rw [← hrs]; exact hg.words
    · rw [hd]; exact hg.room
    · unfold Job.tagFault
      simp only [hf, knownTags_given hg', ht s t hg.tags, if_true]
    · unfold Job.bookWait
      simp only [hf]
      by_cases hb : r.codebook (r.tags s t) = true
      · simp [hg.book hb]
      · simp [hc s t, hb]
  rw [he s, runJob_fn (by rw [hx]; exact hl) hj hf, hc, hv s t vals hg.tags hg.words]
  simp only [Row.after, Job.dst, hd, hdn, hx]

end Sys2Proof.Machine
end

