-- ==== Sys2Proof/Tests/Slice0.lean ====
section
/-! SUPPORT. Tests: words of the manual read as its instructions, ill-formed instructions refused, and for each statement
with hypotheses a state and operands that meet them. -/

namespace Sys2Proof.Tests

open Sys2Proof Sys2Proof.Machine

/-! ### Words of the manual -/

/-- A word of 32 bits is read as this instruction. -/
def reads (w : Nat) (i : Instr) : Bool := decodeTableWord 32 w == some i

/-- A guard p or !p. -/
def onP (p : BitVec 3) (neg : Bool) : Option Ext := some { Ext.ofWord 0 with g := true, gp := p, gn := neg }

/-- R118: `add v0, v0, v1`, `mulhu v5, v2, v3`, `sel v3, p2, v1, v2`, `setpi.lt p2, v1, #8`, `clz v2, v1`, `shli v4, lane, #2`. -/
theorem test_word_integer :
    reads 0x02000010 (.add ⟨none, .v 0, .v 0, .v 1, false, false, false, false⟩) ∧
    reads 0x0A141030 (.mulhu ⟨none, .v 5, .v 2, .v 3, false, false, false, false⟩) ∧
    reads 0x3C145678 (.movi none (.v 5) 0x05678) ∧ reads 0x440C0824 (.sel none (.v 3) (.v 1) (.v 2) 2) ∧
    reads 0x46480808 (.setpi none .lt 2 (.v 1) 8) ∧ reads 0x40080840 (.clz ⟨none, .v 2, .v 1, false, false, false⟩) ∧
    reads 0x3A12C802 (.shli ⟨none, .v 4, .lane, 2⟩) := by decide

/-- R125 to R137. -/
theorem test_word_float :
    reads 0x54100820 (.fdiv ⟨none, .v 4, .v 1, .v 2, false, false, false, false⟩) ∧
    reads 0x4E1C0820 (.ffma ⟨none, .v 7, .v 1, .v 2, false, false, false, false⟩) ∧
    reads 0x580C3020 (.fsqrt ⟨none, .v 3, .v 6, false, false, false⟩) ∧
    reads 0x5A080860 (.f2bf ⟨none, .v 2, .v 1, false, false, false⟩) ∧
    reads 0x601C0820 (.dot4 ⟨none, .v 7, .v 1, .v 2, false, false, false, false⟩) ∧
    reads 0x6E080810 (.ftag ⟨none, .v 2, .v 1, false, false, false⟩ .e4m3) ∧
    reads 0x70140868 (.bfx none (.v 5) (.v 1) 3 8) := by decide

/-- R139 to R141. -/
theorem test_word_streams_and_moments :
    reads 0x76001000 (.bsld none (.v 2) false false false false) ∧ reads 0x78180005 (.bsget none (.v 6) 5) ∧
    reads 0x7A242000 (.bsrf ⟨none, .v 9, .v 4, false, false, false⟩ false) ∧
    reads 0x74200040 (.blend ⟨none, .v 8, .v 0, .v 4, false, false, false, false⟩) ∧
    reads 0x7E000010 (.mclr none (.v 0) false false false) ∧
    reads 0x7E240050 (.mrstd ⟨none, .v 9, .v 0, false, false, false⟩) := by decide

/-- R86, R93 to R102. -/
theorem test_word_control :
    reads 0x86000020 (.exit none) ∧ reads 0x82BFFFFB (.brp 2 true (-5)) ∧ reads 0x8C140000 (.join none ⟨5, by decide⟩) ∧
    reads 0x8D0838A0 (.mpopc none (.s 2) ⟨7, by decide⟩) ∧ reads 0x9704100F (.wred none .add (.s 1) (.v 2) 15) ∧
    reads 0x9604100F (.wred none .add (.v 1) (.v 2) 15) ∧
    reads 0x98C5801F (.wscan none .addx (.v 49) (.v 48) 15) ∧ reads 0x9A000A90 (.loop 0 0 10 true 1) := by decide

/-- R155 to R169. -/
theorem test_word_memory :
    reads 0xAE0C3005 (.ldsc none (.v 3) (.v 6) 5) ∧ reads 0xB600F010 (.stx none (.v 30) (.v 1)) ∧
    reads 0xB428F000 (.ldx ⟨none, .v 10, .v 30, false, false, false⟩ false) := by decide

/-- R105, R110, R191 to R195, R208, R231, R243, R248. -/
theorem test_word_engines :
    reads 0xC0000010 (.phaseRetire none) ∧ reads 0xC2080001 (.nbok none 2 1) ∧ reads 0xC7000010 (.lcfg none (.s 0) 1) ∧
    reads 0xD0040000 (.mres none 1) ∧ reads 0xD0000010 (.mresw none) ∧ reads 0xD2000000 (.mrel none) ∧
    reads 0xD6242000 (.mdr none (.v 9) (.v 4) false false false) ∧ reads 0xDE301000 (.mzero none (.v 12) (.v 2)) ∧
    reads 0xDA321800 (.xsort none (.v 12) (.s 3) false) ∧ reads 0xDC2A1000 (.xcol none (.v 10) (.s 2) false) ∧
    reads 0xE0004002 (.barWait none false (.v 8) false) ∧ reads 0xE3605000 (.fwait none .z (.v 10)) := by decide

/-- R274 to R283, R294, R296. -/
theorem test_word_system :
    reads 0xE4140040 (.gstart none (.v 5)) ∧ reads 0xE4042850 (.gpoll none 1 (.v 5)) ∧
    reads 0xEA001C40 (.pfree none (.v 3) (.s 4) false false) ∧ reads 0xEE2A1000 (.launch none (.v 10) (.s 2) false) ∧
    reads 0xF0000005 (.trap none 5) ∧ reads 0xF40C0018 (.gets none (.v 3) 0x018) ∧
    reads 0xF6000828 (.sets none (.v 1) 0x028) ∧ reads 0xF8002000 (.twait none (.v 4) false) ∧
    reads 0xFA000030 (.icinv none) ∧ reads 0xFA004000 (.tlbinv none (.v 8)) := by decide

/-- An EXT word stands before its instruction, and its immediate's high bits and guard belong to it (R30, R35). -/
theorem test_word_prefixed :
    decodeTableWord 64 0x02000010FD200000 = some (.add ⟨onP 1 false, .v 0, .v 0, .v 1, false, false, false, false⟩) := by
  decide

/-- The digest of the three letters abc, from FIPS 180's examples. -/
theorem test_sha256 : sha256 [0x61, 0x62, 0x63] =
    [0xBA7816BF, 0x8F01CFEA, 0x414140DE, 0x5DAE2223, 0xB00361A3, 0x96177A9C, 0xB410FF61, 0xF20015AD] := by decide +kernel

/-! ### Ill-formed instructions -/

def ill (i : Instr) : Bool := !i.legal

def r3 (d a b : Operand) : R3 := ⟨none, d, a, b, false, false, false, false⟩
def rf (d a : Operand) : RF := ⟨none, d, a, false, false, false⟩

/-- R35, R36: guard fields without G, a reserved scope, an order without a scope, an attribute that the word does not take. -/
theorem test_ill_prefix :
    ill (.nop (some { Ext.ofWord 0 with gp := 1 })) ∧ ill (.nop (some { Ext.ofWord 0 with scope := 6 })) ∧
    ill (.fence (some { Ext.ofWord 0 with ord := 1 })) ∧ ill (.fence none) ∧
    ill (.nop (some { Ext.ofWord 0 with scope := 1 })) ∧ ill (.nop (some { Ext.ofWord 0 with immx := 1 })) ∧
    ill (.stn ⟨some { Ext.ofWord 0 with ord := 1, scope := 1 }, .v 0, .v 0, 4, 0⟩) ∧
    ill (.ldn ⟨some { Ext.ofWord 0 with nt := true }, .v 0, .v 0, 4, 0⟩) ∧
    ill (.fenceNtdrain (some { Ext.ofWord 0 with o := true, scope := 1 })) := by decide

/-- R38, R41, R43, R44, R116: register classes of arithmetic words, and their flags. -/
theorem test_ill_arithmetic :
    ill (.add (r3 .lane (.v 0) (.v 0))) ∧ ill (.mad (r3 .z (.v 0) (.v 0))) ∧ ill (.pk8 (r3 (.s 0) (.v 0) (.v 0))) ∧
    ill (.add { r3 (.v 0) (.s 0) (.v 0) with k := true }) ∧ ill (.add { r3 (.v 0) .z (.v 0) with ea := true }) ∧
    ill (.add { r3 (.v 0) (.v 0) .z with eb := true }) ∧ ill (.add { r3 (.v 0) (.v 0) (.v 0) with n := true }) ∧
    ill (.ftag (rf (.v 0) (.v 1)) .bad) ∧ ill (.blend (r3 (.v 2) (.v 0) (.v 4))) ∧ ill (.bsget none (.v 0) 0) ∧
    ill (.bsget none (.v 0) 33) ∧ ill (.bsld none (.v 1) false false false false) ∧
    ill (.bsrf (rf (.v 0) (.v 1)) true) ∧ ill (.mclr none (.v 1) false false false) := by decide

/-- R29, R31, R88, R96 to R102: targets, masks, loops and the window. -/
theorem test_ill_control :
    ill (.jmpi (rf (.x 0) (.v 0)) false) ∧ ill (.mpopc none (.v 0) ⟨0, by decide⟩) ∧ ill (.vote none ⟨0, by decide⟩ ⟨false, 0⟩ 12) ∧
    ill (.shfl none (.v 0) (.q 1) (.v 0) 15) ∧ ill (.shfl none (.v 0) (.v 0) (.x 0) 15) ∧
    ill (.wred none .blend (.v 1) (.v 4) 15) ∧ ill (.loop 3 0 0 true 0) ∧ ill (.loop 0 0 80 false 0) ∧
    ill (.wbase none (.v 0) 0) := by decide

/-- R31, R156, R157, R161, R166: pairs and quads, sizes, and the operands of atomics. -/
theorem test_ill_memory :
    ill (.ldn ⟨none, .v 1, .v 0, 5, 0⟩) ∧ ill (.ldn ⟨none, .v 2, .v 0, 6, 0⟩) ∧ ill (.ldn ⟨none, .v 0, .v 0, 7, 0⟩) ∧
    ill (.stn ⟨none, .v 0, .v 0, 1, 0⟩) ∧ ill (.ldc ⟨none, .v 0, .v 0, 0, 0⟩) ∧ ill (.atom none .mt (.v 0) (.v 0) (.v 4)) ∧
    ill (.atom none .cas (.v 0) (.v 0) (.v 1)) ∧ ill (.ared none .exch (.v 0) (.v 0)) ∧ ill (.stx none (.v 1) (.v 0)) ∧
    ill (.ldx (rf (.v 1) (.v 2)) false) := by decide

/-- R105, R108, R112, R194, R221, R275 to R283, R296. -/
theorem test_ill_system :
    ill (.lred none .mt (.v 1) (.v 4) false) ∧ ill (.mzero none (.v 0) (.v 1)) ∧ ill (.mdr none (.v 0) (.v 0) false false true) ∧
    ill (.mma none (.v 0) (.s 0) (.v 0) false false) ∧ ill (.qbind none (.q 0) (.v 0)) ∧ ill (.qlen none (.v 0) (.v 1)) ∧
    ill (.gets none (.v 0) 0x017) ∧ ill (.sets none (.v 0) 0x013) ∧ ill (.twait none (.v 1) false) ∧
    ill (.tlbinv none (.v 2)) ∧ ill (.ctxsave none (.x 0) (.v 0)) ∧ ill (.palloc none (.v 0) (.v 1) false true) ∧
    ill (.fwait none (.x 0) (.v 0)) ∧ ill (.barInit none false (.v 0) .z) := by decide

/-! ### The hypotheses of the statements hold somewhere

One lane of a small machine; `witness_<statement>` shows, for each of the statement's parts, a state and operands that meet its
hypotheses together. -/

/-- One lane on core 0, issuing alone. -/
def one : State := { State.reset.withFetchWord 32 0 with issuing := [0] }

/-- The same with its thread changed. -/
def on1 (f : Thread → Thread) : State := one.modTh 0 f

/-- The same with its core changed. -/
def co1 (f : CoreSt → CoreSt) : State := one.modCo 0 f

/-- Two lanes of one warp, issuing together. -/
def two : State := { one with
  threads := [Thread.fresh 0 0 0 64 0x100000, Thread.fresh 0 1 1 64 0x100000]
  warps := [{ Warp.blank with width := 16, threads := [0, 1] }], issuing := [0, 1] }

/-- Register n of a thread holds a word. -/
def setV (n : Nat) (w : Word) (x : Thread) : Thread := { x with v := x.v.set n ⟨w, .raw, true⟩ }

theorem lone_of {s : State} {t : Nat} {x : Option Ext}
    (h : s.issuing = [t] ∧ t < s.threads.length ∧ s.live t = true ∧ guardOn x (s.th t) = true) : Lone s t x :=
  ⟨h.1, h.2.1, h.2.2.1, h.2.2.2⟩

theorem given_of {s : State} {t : Nat} {fs : List Operand} {r : List SrcF} {d : List RegRef}
    (h : (∀ o ∈ fs, opBad s t o = false) ∧
      (∀ x ∈ r.flatMap (fun f => regsOf (s.th t) f.op f.n) ++ d, s.regFull t x = true ∧ (ownLred s t).contains x = false) ∧
      s.planted = []) :
    Given s t fs r d := ⟨h.1, fun x m => (h.2.1 x m).1, fun x m => (h.2.1 x m).2, .inl h.2.2⟩

/-- Enough for a row whose destination is no queue. -/
theorem rowGiven_of {r : Row} {s : State} {t : Nat} {vals : List Word}
    (h : r.n = false ∧ ((∀ o ∈ r.fields, opBad s t o = false) ∧
        (∀ x ∈ r.reads.flatMap (fun f => regsOf (s.th t) f.op f.n) ++ regsOf (s.th t) r.d r.dn,
          s.regFull t x = true ∧ (ownLred s t).contains x = false) ∧ s.planted = []) ∧
      allSlots s t (s.th t).tickets r.reads = vals.map Slot.val ∧ r.d.isQ = false ∧ (s.th t).popped = [] ∧
      r.tagsOk (r.tags s t) = true ∧ ownCbLoad s t = false) : RowGiven r s t vals where
  noN := h.1
  ops := given_of h.2.1
  words := h.2.2.1
  room n hd := by rw [hd] at h; exact absurd h.2.2.2.1 (by simp [Operand.isQ])
  fresh := h.2.2.2.2.1
  tags := h.2.2.2.2.2.1
  book _ := h.2.2.2.2.2.2

theorem reaches_of {s : State} {t : Nat} {sp : Space} {ea : Word} {n at_ : Nat} {acc : Access}
    (h : sp ≠ .n ∧ ea.toNat % n = 0 ∧ ea.toNat + n ≤ bufSize sp ∧ at_ = ea.toNat) : Reaches s t sp ea n acc at_ :=
  ⟨h.2.1, by rw [if_neg h.1]; exact h.2.2⟩

/-- R296: of two warps' markers of one `pfree` bundle, that of the lower home lane enters the write queue first. -/
theorem test_pool_markers_leave_in_lane_order :
    let m (t bundle : Nat) : Entry := { two.entry t .n 0 (.mark (.pfree 0 0)) with rel := true, scope := 2, bundle := bundle }
    let s (bundle : Nat) : State := { two.modTh 0 fun x => { x with warp := 1 } with
      warps := [{ two.wp 0 with threads := [1], fifo := [m 1 7] }, { two.wp 0 with threads := [0], fifo := [m 0 bundle] }] }
    (leaveTo (s 7) (m 1 7)).isNone ∧ (leaveTo (s 8) (m 1 7)).isSome ∧ (leaveTo (s 7) (m 0 7)).isSome := by decide

theorem lone_one : Lone one 0 none := lone_of (by decide)

/-- The integer rows: highest registers, a discarded result, an x register, and the immediate and shift forms. -/
theorem witness_IntegerArithmetic :
    Lone one 0 none ∧ RowGiven (rowR3 (r3 (.v 63) (.v 0) (.s 15)) fun a b => outW (a + b)) one 0 [0, 0] ∧
    RowGiven (rowRF (rf .z (.x 3)) fun a => outW a) one 0 [0] ∧
    RowGiven (rowRI ⟨none, .x 0, .lane, 0x7FF⟩ fun a b => outW (a + b)) one 0 [0, 0xFFFFFFFF] ∧
    RowGiven (rowShi ⟨none, .s 0, .v 63, 31⟩ fun a _ => outW a) one 0 [0, 31] ∧
    ∃ r, otherRow one 0 (.sel none (.v 1) (.v 0) (.v 2) 7) = some r ∧ RowGiven r one 0 [0, 0] :=
  ⟨lone_one, rowGiven_of (by decide), rowGiven_of (by decide), rowGiven_of (by decide), rowGiven_of (by decide),
    _, rfl, rowGiven_of (by decide)⟩

theorem witness_FloatingPointAndMoments :
    RowGiven (rowR3 (r3 (.v 1) (.v 0) .z) fun a b => outF (add32 a b)) one 0 [0, 0] ∧
    RowGiven (rowR3d (r3 (.v 1) (.v 0) (.v 2)) fun a b d => outF (fma32 a b d)) one 0 [0, 0, 0] ∧
    (∃ r, tagRow (.dot8 (r3 (.v 7) (.v 1) (.v 2))) = some r ∧ RowGiven r one 0 [0, 0, 0]) ∧
    ∃ r, momentRow (.blend (r3 (.v 60) (.v 0) (.v 4))) = some r ∧ RowGiven r one 0 [0, 0, 0, 0, 0, 0] :=
  ⟨rowGiven_of (by decide), rowGiven_of (by decide), ⟨_, rfl, rowGiven_of (by decide)⟩, _, rfl, rowGiven_of (by decide)⟩

/-- The cursor of `bsget` at 64, at 65, and the refill of `bsrf` from 32 on. -/
theorem witness_ComparisonsAndBitStream :
    Given one 0 [.z, .v 1, .v 2] [src (.v 1), src (.v 2)] [] ∧
    allSlots one 0 0 [src (.v 1), src (.v 2)] = [.val 0, .val 0] ∧ (one.th 0).popped = [] ∧
    Given one 0 [.z, .v 1, .z] [src (.v 1), srcK 8] [] ∧ windowBusy one 0 = false ∧ Given one 0 [.v 2] [srcN (.v 2) 2] [] ∧
    (let s := on1 fun x => { x with bc := 32 }
     Lone s 0 none ∧ windowBusy s 0 = false ∧ (s.th 0).popped = [] ∧ Given s 0 [.v 6] [] [.v 6] ∧ (s.th 0).bc.toNat + 32 = 64 ∧ 64 < (s.th 0).bc.toNat + 33 ∧
     Given s 0 [.v 9, .v 4] [src (.v 4)] [.v 9] ∧ allSlots s 0 0 [src (.v 4)] = [.val 0]) :=
  ⟨given_of (by decide), by decide, by decide, given_of (by decide), by decide, given_of (by decide), lone_of (by decide),
    by decide, by decide, given_of (by decide), by decide, by decide, given_of (by decide), by decide⟩

theorem witness_DivisionLawsAndBitCounts :
    RowGiven (rowR3 (r3 (.v 1) (.v 0) .z) fun _ _ => outW 0xFFFFFFFF) one 0 [0, 0] ∧ (0xFFFFFFFF : Word) ≠ 0 :=
  ⟨rowGiven_of (by decide), by decide⟩

theorem witness_ArithmeticFrame :
    0 < one.threads.length ∧ (one.th 0).warp < one.warps.length ∧ (one.th 0).wbase + 61 + 3 ≤ (one.th 0).v.length ∧
    ∃ r, momentRow (.mclr none (.v 61) false false false) = some r ∧ (r.out one 0 []).vals.length = r.dn :=
  ⟨by decide, by decide, by decide, _, rfl, by decide⟩

/-- A cell whose neighbour slot 0 names the cell itself: wrap mode, no offset, one cell. -/
def celled : State := { on1 fun x => { x with cell := some 0 } with
  cells := [{ Cell.blank with q := 1, retired := false, resident := true }]
  launches := [{ Launch.blank with stage := .started, desc := [0, 0, 0, 0, 0x80000000] }] }

/-- A channel of capacity 4 at A offset 0, entries from 16 on, with this TAIL, bound to q1. -/
def channelled (tail : Word) : State :=
  (on1 fun x => { x with qb := [some 0, none, none] }).bufWrite 0 .a 0 (wBytes 16 ++ wBytes 4 ++ wBytes 0 ++ wBytes tail)

theorem witness_DeferralAndAllOrNothing :
    (Lone celled 0 none ∧ Given celled 0 [.v 2, .nbr 0 3, .v 1] [src (.nbr 0 3), src (.v 1)] [.v 2] ∧
      queuesOf [src (.nbr 0 3), src (.v 1)] = [] ∧ (celled.th 0).deferred = [] ∧
      (allSlots celled 0 0 [src (.nbr 0 3), src (.v 1)]).all Slot.isVal = false) ∧
    (let s := channelled 0
     Lone s 0 none ∧ Given s 0 [.v 2, .q 1] [src (.q 1)] [.v 2] ∧ chanCheck s 0 [1] = .ok ∧ (tryPops s 0 [1]).isNone) ∧
    (let s := (channelled 1).modCo 0 fun k => { k with popWait := [⟨1, 0, 0, 0⟩] }
     (s.co 0).popWait[0]? = some ⟨1, 0, 0, 0⟩ ∧ s.chanAt 0 0 = some ⟨16, 4, 0, 1⟩ ∧ chanLen ⟨16, 4, 0, 1⟩ ≠ 0 ∧ s.planted = []) ∧
    let d : Deferred := ⟨.add, [.val 1, .val 2], [], none, [.v 63]⟩
    let s := on1 fun x => { x with deferred := [d] }
    (s.th 0).deferred[0]? = some d ∧ d.slots.map (slotVal s 0) = [1, 2].map some ∧ 63 < (s.th 0).v.length :=
  ⟨⟨lone_of (by decide), given_of (by decide), by decide, by decide, by decide⟩,
    ⟨lone_of (by decide), given_of (by decide), by decide, by decide⟩, by decide, by decide⟩

/-- N = 1: an `add` and a `mov` that pop, an `add` that pushes, and one that does both, on a channel that is empty, holds one entry, is
full, or has an operation on its way. -/
theorem witness_DeferralAndAllOrNothing_issue :
    let w (d a : Operand) : R3 := { r3 d a (.v 1) with n := true }
    let reads (a : Operand) : List SrcF := [src a, src (.v 1)]
    (∀ tail ∈ [(0 : Word), 1, 4], let s := channelled tail
      Lone s 0 none ∧ s.planted = [] ∧ boundChan (s.th 0) 1 = some 0 ∧ s.inFlight (s.homeOf 0) 0 true = 0 ∧
        s.inFlight (s.homeOf 0) 0 false = 0 ∧ (s.co (s.homeOf 0)).popWait = [] ∧
        Given s 0 [.v 2, .q 1] [src (.q 1)] [.v 2] ∧ chanCheck s 0 [1] = .ok ∧
        ((s.chanAt (s.homeOf 0) 0).map chanLen = some tail.toNat) ∧
        ((tryPops s 0 [1]).map (·.2.length) = if tail = 0 then none else some 1) ∧
        (tryPush s 0 1 7).isSome = decide (tail ≠ 4) ∧
        (∀ d ∈ [Operand.v 2, .q 1], ∀ a ∈ [Operand.q 1, .v 0],
          intOp3 (.add (w d a)) = some (w d a, fun x y => x + y) ∧ (w d a).n = true ∧
          chanCheck s 0 (queuesOf (reads a) ++ match d with | .q n => [n.toNat] | _ => []) = .ok ∧
          missing (allSlots s 0 (s.th 0).tickets (reads a)) = []) ∧
        Given s 0 [.q 1, .q 1, .v 1] (reads (.q 1)) (regsOf (s.th 0) (.q 1) 1) ∧
        Given s 0 [.v 2, .q 1, .v 1] (reads (.q 1)) (regsOf (s.th 0) (.v 2) 1)) ∧
    (let s := channelled 4
     ∃ u ws, tryPops s 0 [1] = some (u, ws) ∧ (tryPush u 0 1 7).isSome = true) ∧
    ∀ b ∈ [true, false], let e : Entry := one.entry 0 .a 0 (if b then .push 7 else .pop 0 0)
      let s := (channelled 1).modCo 0 fun k => { k with wq := [e] }
      s.inFlight 0 0 b ≠ 0 := by
  refine ⟨fun n h => ?_, ⟨_, _, rfl, by decide⟩, by decide⟩
  simp only [List.mem_cons, List.not_mem_nil, or_false] at h
  rcases h with rfl | rfl | rfl <;>
    exact ⟨lone_of (by decide), by decide, by decide, by decide, by decide, by decide, given_of (by decide), by decide, by decide,
      by decide, by decide, fun d hd a ha => by
        simp only [List.mem_cons, List.not_mem_nil, or_false] at hd ha
        rcases hd with rfl | rfl <;> rcases ha with rfl | rfl <;> exact ⟨rfl, rfl, by decide, by decide⟩,
      given_of (by decide), given_of (by decide)⟩

/-- N = 1: a `neg`, an `fadd`, an `ffma`, a `dot8` and a comparison that pop; a `neg` that pushes. -/
theorem witness_DeferralAndAllOrNothing_rows :
    let s := channelled 1
    let r3n (d a : Operand) : R3 := { r3 d a (.v 1) with n := true }
    let rfn (d a : Operand) : RF := { rf d a with n := true }
    let ok (r : Row) : Prop := Given s 0 r.fields r.reads (regsOf (s.th 0) r.d r.dn) ∧ r.n = true ∧ r.x = none ∧
      chanCheck s 0 (queuesOf r.reads ++ match r.d with | .q n => [n.toNat] | _ => []) = .ok ∧
      missing (allSlots s 0 (s.th 0).tickets r.reads) = [] ∧ (r.d.isQ = true → r.reads.length < r.fields.length) ∧
      r.tagsOk (r.tags s 0) = true ∧ ownCbLoad s 0 = false ∧ (s.th 0).popped = [] ∧ (tryPops s 0 (queuesOf r.reads)).isSome = true
    Lone s 0 none ∧ s.planted = [] ∧ ok (rowRF (rfn (.v 2) (.q 1)) fun a => outW (-a)) ∧
    ok (rowRF (rfn (.q 1) (.v 3)) fun a => outW (-a)) ∧ ok (rowR3 (r3n (.v 2) (.q 1)) fun a b => outF (add32 a b)) ∧
    ok (rowR3d (r3n (.v 2) (.q 1)) fun a b d => outF (fma32 a b d)) ∧
    (∃ r, tagRow (.dot8 (r3n (.v 2) (.q 1))) = some r ∧ ok r) ∧ (∃ r, momentRow (.mupdw (r3n (.v 2) (.q 1))) = some r ∧ ok r) ∧
    Given s 0 [.z, .q 1, .v 1] [src (.q 1), src (.v 1)] [] ∧ missing (allSlots s 0 (s.th 0).tickets [src (.q 1), src (.v 1)]) = [] :=
  ⟨lone_of (by decide), by decide, ⟨given_of (by decide), by decide⟩, ⟨given_of (by decide), by decide⟩,
    ⟨given_of (by decide), by decide⟩, ⟨given_of (by decide), by decide⟩, ⟨_, rfl, given_of (by decide), by decide⟩,
    ⟨_, rfl, given_of (by decide), by decide⟩, given_of (by decide), by decide⟩

/-- Two lanes with words for `add`; a lane that is a cell beside one that is not; a guard that is false. -/
theorem witness_LanesOfABundle :
    (let r := rowR3 (r3 (.v 0) (.v 1) (.v 2)) fun a b => outW (a + b)
     RowGiven r two 0 [0, 0] ∧ RowGiven r two 1 [0, 0]) ∧
    RowGiven (rowR3 (r3 (.s 0) (.v 1) (.v 2)) fun a b => outW (a + b)) two 0 [0, 0] ∧ (two.th 0).warp = (two.th 1).warp ∧
    (let s := { two.modTh 1 fun x => { x with cell := some 0 } with cells := [Cell.blank] }
     s.issuing = [0, 1] ∧ [Operand.v 0, .cx, .v 1].find? (opBad s 0) = some .cx ∧
     Given s 1 [.v 0, .cx, .v 1] [src .cx, src (.v 1)] [.v 0]) ∧
    one.issuing = [0] ∧ guardOn (onP 0 false) (one.th 0) = false :=
  ⟨⟨rowGiven_of (by decide), rowGiven_of (by decide)⟩, rowGiven_of (by decide), by decide,
    ⟨by decide, by decide, given_of (by decide)⟩, by decide, by decide⟩

theorem witness_ControlFlow :
    Lone one 0 none ∧ Given one 0 [.v 2, .v 1] [src (.v 1)] [.v 2] ∧ (one.regVal 0 (.v 1)).toNat % 4 = 0 ∧
    (let s := on1 (setV 1 2)
     Lone s 0 none ∧ Given s 0 [.v 2, .v 1] [src (.v 1)] [.v 2] ∧ (s.regVal 0 (.v 1)).toNat % 4 ≠ 0) ∧
    one.live 0 = true ∧ loopsAt ((one.th 0).pc + BitVec.ofNat 32 (8 - 4)) (one.th 0).lc = [] :=
  ⟨lone_one, given_of (by decide), by decide, ⟨lone_of (by decide), given_of (by decide), by decide⟩, by decide, by decide⟩

/-- `loop` at its longest body; counters 2, 1 and 0 at the last word. -/
theorem witness_HardwareLoops :
    Lone one 0 none ∧ (2 : BitVec 2).toNat < (one.th 0).lc.length ∧ Given one 0 [] [src (.ofCode 1)] [] ∧
    addrReg one 0 (.ofCode 1) = 0 ∧ addrReg (on1 (setV 1 5)) 0 (.ofCode 1) = 5 ∧
    (∀ first last, loopNests (one.th 0) 2 first last = true) ∧
    ∀ n ∈ [(0 : Word), 1, 2], (⟨n, some ⟨0x100, 0x108, [], 0⟩, 0⟩ : LoopReg).desc.isSome = true :=
  ⟨lone_one, by decide, given_of (by decide), by decide, by decide, fun _ _ => rfl, fun _ _ => rfl⟩

/-- The words after the lane's own: a step word and the one after it. -/
def looped (step body : Word) : State :=
  one.modDie 0 fun d => { d with mem := Memory.write d.mem 0x00100004 (wBytes step ++ wBytes body) }

/-- A step that adds 1 to b of an `add`; a body outside another loop's; a word that is no step, a step past the body, one of a field that
`add` has not, and one whose fetch fails. -/
theorem witness_HardwareLoops_steps :
    (let s := looped 0x9C010020 0x02000080
     Lone s 0 none ∧ (0 : BitVec 2).toNat < (s.th 0).lc.length ∧ s.planted = [] ∧ loopNests (s.th 0) 0 0x100008 0x100008 = true ∧
       Given s 0 [] [src (.ofCode 10)] [] ∧ StepWords s 0 0x100008 0 [⟨0, 2, 1⟩] ∧ ([⟨0, 2, 1⟩] : List LoopStep).length = (1 : BitVec 3).toNat) ∧
    (let s := on1 fun x => { x with lc := x.lc.set 1 ⟨2, some ⟨0x100000, 0x100004, [], 0⟩, 1⟩ }
     Lone s 0 none ∧ s.planted = [] ∧ ∃ c r d, c ≠ 0 ∧ (s.th 0).lc[c]? = some r ∧ r.desc = some d ∧
       ¬(d.first.toNat ≤ 0x100008 ∧ 0x100008 ≤ d.last.toNat)) ∧
    StepWords one 0 0x100008 0 [] ∧
    (∃ w p, (looped 0x02000080 0).fetchWord 0 0x100004 = .ok (w, p) ∧ ∀ l, decodeLStep w ≠ .ok l) ∧
    (∃ w p l, (looped 0x9C030020 0).fetchWord 0 0x100004 = .ok (w, p) ∧ decodeLStep w = .ok l ∧ 0 < l.idx.toNat) ∧
    (∃ w p l b q, (looped 0x9C018020 0x02000080).fetchWord 0 0x100004 = .ok (w, p) ∧ decodeLStep w = .ok l ∧ l.idx.toNat ≤ 0 ∧
      (looped 0x9C018020 0x02000080).fetchWord 0 0x100008 = .ok (b, q) ∧ hasField b l.fld = false) ∧
    (let s := on1 fun x => { x with pc := 0xC0000000 }; Lone s 0 none ∧ ∃ k va, s.fetchWord 0 0xC0000004 = .error (k, va)) := by
  refine ⟨⟨lone_of (by decide), by decide, by decide, by decide, given_of (by decide), ?_, rfl⟩,
    ⟨lone_of (by decide), by decide, 1, _, _, by decide, rfl, rfl, by decide⟩, fun j k h => by simp at h,
    ⟨_, _, rfl, fun l h => ?_⟩, ⟨_, _, _, rfl, rfl, by decide⟩, ⟨_, _, _, _, _, rfl, rfl, by decide, rfl, by decide⟩,
    ⟨lone_of (by decide), _, _, rfl⟩⟩
  · intro j k h
    cases j with
    | zero => cases h; exact ⟨_, _, _, _, _, rfl, rfl, rfl, by decide, rfl, by decide⟩
    | succ j => simp at h
  · exact absurd (h.symm.trans (rfl : _ = Except.error Reject.opcode)) (by simp)

/-- In iteration 3 of a loop: the word that its step names, and another; the same behind an EXT word. -/
theorem witness_HardwareLoops_stepped :
    let th (pc : Word) (f : BitVec 2) : Thread := { (one.th 0) with
      pc := pc, lc := (one.th 0).lc.set 0 ⟨2, some ⟨0x100008, 0x100008, [⟨0, f, 1⟩], 3⟩, 1⟩ }
    ∀ pc ∈ [(0x100008 : Word), 0x100004], ∀ f ∈ [(2 : BitVec 2), 3], ∃ r d, (th pc f).lc[0]? = some r ∧ r.desc = some d ∧
      (∀ c ∈ [1, 2], ((th pc f).lc[c]?.bind LoopReg.desc) = none) ∧ (th pc f).lc.length = 3 ∧ d.steps = [⟨0, f, 1⟩] ∧
      (d.first + BitVec.ofNat 32 0 = (th pc f).pc ↔ pc = 0x100008) ∧
      (d.first + BitVec.ofNat 32 0 = (th pc f).pc + 4 ↔ pc = 0x100004) := by
  intro th pc hp f hf
  simp only [List.mem_cons, List.not_mem_nil, or_false] at hp hf
  rcases hp with rfl | rfl <;> rcases hf with rfl | rfl <;>
    exact ⟨_, _, rfl, rfl, by decide, by decide, rfl, by decide, by decide⟩

theorem witness_ExitTrapsAndWindow :
    Lone one 0 none ∧ (one.th 0).depth = 0 ∧ (let s := on1 fun x => { x with depth := 1 }; Lone s 0 none ∧ (s.th 0).depth ≠ 0) ∧
    (0 : BitVec 11).toInt + 64 ≤ (one.th 0).v.length ∧ ¬(16 : BitVec 11).toInt + 64 ≤ (one.th 0).v.length :=
  ⟨lone_one, by decide, ⟨lone_of (by decide), by decide⟩, by decide, by decide⟩

theorem witness_LaneMasks :
    Lone one 0 none ∧ Given one 0 [] [] [.s 15] ∧ (one.wpOf 0).width ≠ 64 ∧ (one.th 0).warp < one.warps.length ∧
    (⟨11, by decide⟩ : MaskReg).val < (one.wpOf 0).m.length ∧
    let s := one.modWp 0 fun w => { w with width := 64 }
    Lone s 0 none ∧ Given s 0 [] [] [.s 14, .s 15] ∧ (s.wpOf 0).width = 64 :=
  ⟨lone_one, given_of (by decide), by decide, by decide, by decide, lone_of (by decide), given_of (by decide), by decide⟩

theorem witness_MeetAndMaskWaits :
    Lone one 0 none ∧
    (let s := (on1 fun x => { x with status := .blocked (.mwait ⟨11, by decide⟩ 4) }).modWp 0 fun w => { w with m := w.m.set 11 1 }
     mwaitReady s 0 ⟨11, by decide⟩ = true ∧ (s.wp 0).threads.Nodup ∧ waitsOn (s.th 0) ⟨11, by decide⟩ = some 4) ∧
    let s := on1 fun x => { x with meet := some x.pc }
    meetReady s 0 (s.th 0).pc = true ∧ (s.wp 0).threads.Nodup ∧ isHeld (s.th 0) = true :=
  ⟨lone_one, by decide, by decide⟩

theorem witness_CrossLaneExecution :
    (∃ c, crossOf false (.wred none .add (.v 1) (.v 2) 15) = some c ∧ Lone one 0 c.x ∧
      Given one 0 c.fields c.srcs ((c.d.map fun d => regsOf (one.th 0) d c.dn).getD []) ∧ isMember one c.m 0 = true ∧
      ¬(c.dn = 2 ∧ c.d = some (.v 63)) ∧ missing (allSlots one 0 0 c.srcs) = []) ∧
    let i := Instr.wred none .add (.v 1) (.v 2) 15
    let s := on1 fun x => { x with status := .blocked (.meeting i) }
    ((s.wp 0).threads.findSome? fun t => meetingReady s (s.wp 0) t) = some i ∧ (crossOf false i).isSome = true :=
  ⟨⟨_, rfl, lone_one, given_of (by decide), by decide, by decide, by decide⟩, by decide⟩

theorem witness_CrossLaneValues :
    (two.wp 0).threads.Nodup ∧ membersOf two (two.wp 0) 15 = [0, 1] ∧
    (∀ u ∈ [0, 1], guardOn none (two.th u) = true ∧ u < two.threads.length) ∧ (two.wp 0).width ≠ 64 ∧
    (two.th 1).wbase + 63 < (two.th 1).v.length := by decide

/-- The members of `two`, lane 1 guarded off by p0: words, triples and pairs as values, lane 0 the first that executes; and both guarded
off. -/
theorem witness_CrossLaneValues_guarded :
    (let s := two.modTh 0 fun x => { x with p := 1 }
     let g := onP 0 false
     let ms := membersOf s (s.wp 0) 15
     (s.wp 0).threads.Nodup ∧ ms = [0, 1] ∧ (∀ u ∈ ms, u < s.threads.length ∧ (s.th u).warp = (s.th 0).warp) ∧
       guardOn g (s.th 0) = true ∧ guardOn g (s.th 1) = false ∧ (ms.filter fun u => guardOn g (s.th u)).head? = some 0 ∧
       (∀ a ∈ [Operand.v 2, .s 3, .lane], ∀ u ∈ ms, guardOn g (s.th u) = true → (allSlots s u 0 [src a]).all Slot.isVal = true) ∧
       allSlots s 0 0 [srcN (.v 61) 3] = (⟨0, 0, 0⟩ : Triple).words.map Slot.val ∧
       (s.th 0).wbase + 61 + 2 < (s.th 0).v.length ∧ (s.th 0).warp < s.warps.length ∧ 15 < (s.wpOf 0).s.length ∧
       (s.wp 0).width ≠ 64 ∧ (({ s.wp 0 with width := 64 } : Warp)).width = 64) ∧
    ∀ u ∈ membersOf two (two.wp 0) 15, guardOn (onP 0 false) (two.th u) = false := by decide

/-- Virtual addresses from 2^30 on are a page of E4M3 elements whose scales stand from `sv` on; v1 names its second element. -/
def scaled (sv : Nat) : State := (on1 (setV 1 0x40000001)).modDie 0 fun d =>
  { d with mem := Memory.write d.mem 0x40010010 (leBytes 8 (2 ^ 54 + 2 * 2 ^ 52 + 0x0F) ++ leBytes 8 sv) }

/-- A load of the last word of W into an s register, one of near memory; and `ldsc` of a page without scales, and of one whose
scales can be read, are in a page that is not mapped, or in one with a format of its own. -/
theorem witness_LoadsAreIssued :
    (let w : MW := ⟨none, .s 2, .v 1, 4, 0⟩
     let s := on1 (setV 1 (BitVec.ofNat 32 (bufSize .w - 4)))
     loadOf (.ldw w) = some (w, .w) ∧ Lone s 0 none ∧ Given s 0 [.s 2, .v 1] [src (.v 1)] (regsOf (s.th 0) (.s 2) (szRegs 4)) ∧
     Reaches s 0 .w (eaOf s 0 none (.v 1) 0 (szBytes 4)) (szBytes 4) .load (bufSize .w - 4)) ∧
    (Given one 0 [.v 2, .v 1] [src (.v 1)] (regsOf (one.th 0) (.v 2) (szRegs 6)) ∧ one.planted = [] ∧
      ∃ p, one.laneXlate 0 (nVa one 0 (eaOf one 0 none (.v 1) 0 16)) .load = .ok (p, 0) ∧ p.fmt = 0) ∧
    (∀ r ∈ regsOf (one.th 0) (.v 1) 1, one.regFull 0 r = true) ∧
    ∀ sv ∈ [0x100, 0xC0000000, 0x40000000], let s := scaled sv
      Lone s 0 none ∧ Given s 0 [.v 2, .v 1] [src (.v 1)] (regsOf (s.th 0) (.v 2) 1) ∧ s.planted = [] ∧
      ((s.laneXlate 0 (nVa s 0 (eaOf s 0 none (.v 1) 0 1)) .load).toOption.map fun r => scaleVa r.1 (s.nwin 0 + 0x40000001)) =
        some (some sv) ∧
      ((s.laneXlate 0 sv .load).toOption.map fun r => r.1.fmt) =
        (if sv = 0x100 then some 0 else if sv = 0x40000000 then some 1 else none) := by
  refine ⟨⟨by decide, lone_of (by decide), given_of (by decide), reaches_of (by decide)⟩,
    ⟨given_of (by decide), by decide, _, rfl, by decide⟩, by decide, fun sv h => ?_⟩
  rcases List.mem_cons.1 h with rfl | h
  · exact ⟨lone_of (by decide), given_of (by decide), by decide, by decide, by decide⟩
  rcases List.mem_cons.1 h with rfl | h
  · exact ⟨lone_of (by decide), given_of (by decide), by decide, by decide, by decide⟩
  · rcases List.mem_singleton.1 h with rfl
    exact ⟨lone_of (by decide), given_of (by decide), by decide, by decide, by decide⟩

/-- A store to the last word of A; a load and a store that are misaligned, past the end, and to a page that is not mapped. -/
theorem witness_StoresAreIssuedOrFault :
    let w : MW := ⟨none, .v 2, .v 1, 4, 0⟩
    let at_ (n : Nat) : State := on1 (setV 1 (BitVec.ofNat 32 n))
    let ea (s : State) : Word := eaOf s 0 none (.v 1) 0 (szBytes 4)
    storeOf (.sta w) = some (w, .a) ∧ loadOf (.lda w) = some (w, .a) ∧
    (∀ n ∈ [2, bufSize .a - 4, bufSize .a, 0xC0000000], Lone (at_ n) 0 none ∧ 0 < (at_ n).warps.length ∧ (at_ n).planted = [] ∧
      Given (at_ n) 0 [.v 2, .v 1] [src (.v 1)] (regsOf ((at_ n).th 0) (.v 2) (szRegs 4)) ∧
      Given (at_ n) 0 [.v 2, .v 1] [src (.v 1), srcN (.v 2) (szRegs 4)] []) ∧
    Reaches (at_ (bufSize .a - 4)) 0 .a (ea (at_ (bufSize .a - 4))) 4 .store (bufSize .a - 4) ∧ (ea (at_ 2)).toNat % 4 ≠ 0 ∧
    bufSize .a < (ea (at_ (bufSize .a))).toNat + 4 ∧
    ∀ acc ∈ [Access.load, .store],
      ∃ k, (at_ 0xC0000000).laneXlate 0 (nVa (at_ 0xC0000000) 0 (ea (at_ 0xC0000000))) acc = .error k := by
  refine ⟨by decide, by decide, fun n h => ?_, reaches_of (by decide), by decide, by decide, fun acc h => ?_⟩
  · simp only [List.mem_cons, List.not_mem_nil, or_false] at h
    rcases h with rfl | rfl | rfl | rfl <;>
      exact ⟨lone_of (by decide), by decide, by decide, given_of (by decide), given_of (by decide)⟩
  · simp only [List.mem_cons, List.not_mem_nil, or_false] at h
    rcases h with rfl | rfl <;> exact ⟨_, rfl⟩

/-- Addresses that an atomic reaches; misaligned, past the end of A, and not mapped; the operands of a reduction of triples. -/
theorem witness_AtomicOperations :
    Lone one 0 none ∧ 0 < one.warps.length ∧ one.planted = [] ∧
    allSlots one 0 0 [atomSrc .add (.v 4)] = [(0 : Word)].map Slot.val ∧
    allSlots one 0 0 [atomSrc .mt (.v 4)] = [(0 : Word), 0, 0].map Slot.val ∧
    Given one 0 [.v 2, .v 1, .v 4] [src (.v 1), atomSrc .add (.v 4)] (regsOf (one.th 0) (.v 2) 1) ∧
    Given one 0 [.v 1, .v 4] [src (.v 1), atomSrc .mt (.v 4)] [] ∧
    Reaches one 0 .a (addrReg one 0 (.v 1)) 4 .atomic 0 ∧ Reaches one 0 .n (addrReg one 0 (.v 1)) 16 .atomic 0 ∧
    ∀ n ∈ [2, bufSize .a, 0xC0000000], let s := on1 (setV 1 (BitVec.ofNat 32 n))
      let ea := addrReg s 0 (.v 1)
      Lone s 0 none ∧ Given s 0 [.v 2, .v 1, .v 4] [src (.v 1), atomSrc .add (.v 4)] (regsOf (s.th 0) (.v 2) 1) ∧
      (ea.toNat % 4 ≠ 0 ↔ n = 2) ∧ (bufSize .a < ea.toNat + 4 ↔ n ≠ 2) ∧
      ((s.laneXlate 0 (nVa s 0 ea) .atomic).toOption.isNone ↔ n = 0xC0000000) := by
  refine ⟨lone_one, by decide, by decide, by decide, by decide, given_of (by decide), given_of (by decide),
    reaches_of (by decide), ⟨by decide, _, rfl⟩, fun n h => ?_⟩
  simp only [List.mem_cons, List.not_mem_nil, or_false] at h
  rcases h with rfl | rfl | rfl <;> exact ⟨lone_of (by decide), given_of (by decide), by decide, by decide, by decide⟩

/-- An atomic of two lanes and a reduction of two operations, applied to A and drained to N. -/
theorem witness_AtomicOperations_execute :
    let ops : List AtomOp := [⟨0, [.v 2], [1], 0, 0⟩, ⟨1, [.v 63], [2], 0, 0⟩]
    let run (sp : Space) (b : Body) : State := two.modCo 0 fun k => { k with wq := [two.entry 0 sp 8 b] }
    (ops.map AtomOp.tid).Nodup ∧ (∀ o ∈ ops, o.tid < two.threads.length) ∧ 63 < (two.th 1).v.length ∧
    3 < (two.wpOf 0).s.length ∧ (two.th 0).warp < two.warps.length ∧
    ∀ b ∈ [Body.atom .add ops, .atom .add [⟨0, [.s 3], [1], 0, 0⟩],
        .red .add [⟨8, [1], 0, 0, false, true, 2, false⟩, ⟨16, [1], 0, 0, false, false, 2, false⟩]],
      (let s := run .a b
       let e := two.entry 0 .a 8 b
       (s.co 0).wq[0]? = some e ∧ s.planted = [] ∧ 0 < s.cores.length ∧ (s.co 0).wq.findIdx? Entry.isAC = some 0 ∧
         e.home = 0 ∧ e.dieRel = false) ∧
      let s := run .n b
      let e := two.entry 0 .n 8 b
      (s.co 0).wq[0]? = some e ∧ drainReady s 0 0 e = true ∧ e.die < s.dies.length := by decide

/-- Good, misaligned and bad P addresses; a word from a queue before its pop and after it; a peer load that has no slot; overdue
routes of each kind to a peer and to the device itself, and a started collective. -/
theorem witness_PeerAccessAndLoss :
    Lone one 0 none ∧ 0 < one.warps.length ∧ Given one 0 [.v 2, .v 4] [srcN (.v 2) 2, src (.v 4)] [] ∧
    Given one 0 [.v 2, .v 4] [srcN (.v 2) 2, atomSrc .mt (.v 4)] [] ∧
    Given one 0 [.v 6, .v 2] [srcN (.v 2) 2] (regsOf (one.th 0) (.v 6) 2) ∧
    (let pa := peerAddr one 0 (.v 2)
     paVa pa % 16 = 0 ∧ paOk one pa = true ∧ (one.th 0).loads = [] ∧ (one.th 0).popped = [] ∧ engineFree one 0 6 = true ∧
       allSlots one 0 0 [src (.v 4)] = [.val 0]) ∧
    (let s := on1 (setV 2 2); paVa (peerAddr s 0 (.v 2)) % 4 ≠ 0) ∧
    (let s := on1 (setV 3 0x01000000); paVa (peerAddr s 0 (.v 2)) % 4 = 0 ∧ paOk s (peerAddr s 0 (.v 2)) = false) ∧
    (∀ p ∈ [[], [(1, some (7 : Word))]], let s := (channelled 0).modTh 0 fun x => { x with popped := p }
      Lone s 0 none ∧ Given s 0 [.v 2, .q 1] [srcN (.v 2) 2, src (.q 1)] [] ∧ chanCheck s 0 [1] = .ok ∧ (s.th 0).popped = p) ∧
    engineFree (co1 fun k => { k with heldq := List.replicate 16 (6, ⟨0x60000000, 0, 0, 0, 0⟩) }) 0 6 = false ∧
    (∀ rank ∈ [(0 : BitVec 8), 1], ∀ b ∈ [RouteBody.stx 0 0, .red 0 .add [1], .ldx 0 0, .peerRead 0 0 4],
      let r : Route := { one.mkRoute (.core 0) (.peer rank 0) b 1 0 with launch := some 0 }
      let s : State := { one with
        routes := [r], launches := [Launch.blank], time := 20000000
        ops := [{ Op.blank with stage := .started, core := some 0, dst := [.v 2, .v 3] }] }
      s.routes[0]? = some r ∧ r.dst = .peer rank 0 ∧ r.launch = some 0 ∧
        r.born + 1000000 * Config.peerAckTimeoutMs ≤ s.time.toNat ∧
        one.time.toNat < r.born + 1000000 * Config.peerAckTimeoutMs ∧ (s.op 0).stage ≠ .done ∧ (s.op 0).status = 0 ∧
        (s.op 0).core = some 0 ∧ (s.op 0).dst = [.v 2, .v 3] ∧ (s.op 0).tid < s.threads.length ∧ 3 < (s.th 0).v.length) ∧
    let s : State := { one with ops := [{ Op.blank with engine := 4, stage := .started }] }
    (s.op 0).engine = 4 ∧ (s.op 0).stage = .started ∧ (s.op 0).status = 0 := by
  refine ⟨lone_one, by decide, given_of (by decide), given_of (by decide), given_of (by decide), by decide, by decide, by decide,
    fun p h => ?_, by decide, by decide, by decide⟩
  simp only [List.mem_cons, List.not_mem_nil, or_false] at h
  rcases h with rfl | rfl <;> exact ⟨lone_of (by decide), given_of (by decide), by decide, by decide⟩

/-- A store entry of the lane in a space: bytes 1, 2, 3, 4 at offset or address 8. -/
def stored (sp : Space) : Entry := one.entry 0 sp 8 (.store [1, 2, 3, 4])

/-- A pending load of a word into v2. -/
def pending (sp : Space) : Load :=
  { ord := 0, kind := .mem false, sp := sp, core := 0, die := 0, addr := 8, sz := 4, dst := [.v 2], tag := .raw, acq := false }

/-- An EXT word with an order and a scope. -/
def ordered (o : BitVec 2) (sc : BitVec 3) : Option Ext := some { Ext.ofWord 0 with ord := o, scope := sc }

set_option maxRecDepth 10000 in
/-- A store and a command at the head of the FIFO; the fences of every order; stores in the non-temporal queue. -/
theorem witness_FifoAndFences :
    (∀ e ∈ [stored .a, { stored .n with nt := true }], let s := one.modWp 0 fun w => { w with fifo := [e] }
      (s.wp 0).fifo = [e] ∧ (e.lanes s).all (fun x => loadsPerformed s x.1 x.2 e.isStore) = true ∧ e.dieRel = false ∧
      (s.co e.home).wq.length < Config.wqDepth) ∧
    (∀ sq ∈ [[], [{ stored .a with home := 1, dieRel := true }]],
      let s := { co1 fun k => { k with wq := sq } with cores := [{ one.co 0 with wq := sq }, one.co 0] }
      let e := { stored .a with home := 1 }
      (sq = [] → (s.co e.home).wq.length < Config.wqDepth) ∧ e.home ≠ s.coreOf e.tid ∧ e.nt = false ∧
        ((∃ g ∈ (s.co (s.coreOf e.tid)).wq, g.dieRel = true ∧ g.home = e.home ∧ (s.th g.tid).warp = (s.th e.tid).warp) ↔ sq ≠ [])) ∧
    (let s := co1 fun k => { k with wq := List.replicate 128 (stored .a) }; ¬(s.co 0).wq.length < Config.wqDepth) ∧
    (∀ o ∈ [(1 : BitVec 2), 2, 3], Lone one 0 (ordered o 3)) ∧ ordAcq (ordered 1 3) = true ∧ ordRel (ordered 1 3) = false ∧
    ordRel (ordered 3 3) = true ∧ (one.th 0).loads = [] ∧
    (let s := on1 fun x => { x with loads := [{ pending .n with kind := .peer 0 }] }
     Lone s 0 (ordered 1 3) ∧ (s.th 0).loads ≠ []) ∧ 0 < one.warps.length ∧ ntPending one 0 = false ∧
    4 ≤ (scopeOf (ordered 0 4)).toNat ∧ peersPending one 0 (one.th 0).peerCount = false ∧
    (let s := on1 fun x => { x with peerCount := 1 }
     peersPending { s with routes := [s.mkRoute (.core 0) (.peer 1 0) (.stx 0 5) 1 0] } 0 (s.th 0).peerCount = true) ∧
    let e : Entry := { stored .n with nt := true }
    let s := co1 fun k => { k with nt := [e] }
    ntPending s 0 = true ∧ (s.co 0).nt[0]? = some e ∧ s.planted = [] ∧ e.die < s.dies.length ∧ Memory.wf (s.die e.die).mem = true :=
  ⟨by decide, by decide, by decide, fun o h => lone_of (by
    rcases List.mem_cons.1 h with rfl | h
    · decide
    rcases List.mem_cons.1 h with rfl | h
    · decide
    · rcases List.mem_singleton.1 h with rfl
      decide), by decide, by decide, by decide, by decide, ⟨lone_of (by decide), by decide⟩, by decide⟩

/-- A reduction entry of one word. -/
def part (a : Nat) (b : Bool) : RedPart := ⟨a, [1], 0, 0, b, false, 2, false⟩
def reduced (a : Nat) (b : Bool) : Entry := { one.entry 0 .n a (.red .add [part a b]) with rel := b }

/-- A release for N behind nothing; behind a store to N, a release and a store of its bytes; behind a store to A, at die scope and at
team scope; with a peer store of its thread on its way. A release of a peer store with the write queue empty and not, and with a
route to another device. -/
theorem witness_FifoAndFences_releases :
    let r (sc : BitVec 3) : Entry := { stored .n with rel := true, scope := sc, peers := 1 }
    let q (es : List Entry) : State := co1 fun k => { k with wq := es }
    (∀ e ∈ [r 2, { stored .n with body := .mark .fenceRel }], ((q [e]).co 0).wq[0]? = some e ∧ e.sp = .n ∧
      ((q [e]).co 0).wq.take 0 = [] ∧ 0 < (q [e]).cores.length ∧ (q [e]).planted = [] ∧ peersPending (q [e]) 0 1 = false ∧
      ∀ x ∈ e.released, x.2.1 = 0) ∧
    (r 2).releases = true ∧ (stored .n).meets (r 2) = true ∧ Entry.ordered { one.entry 0 .n 8 (.atom .add [⟨0, [], [1], 0, 0⟩]) with o := true } { one.entry 0 .n 0 (.atom .add [⟨0, [], [1], 0, 0⟩]) with o := true } ∧
    (∃ x ∈ (r 2).released, 2 ≤ x.1.toNat) ∧ (¬∃ x ∈ (r 1).released, 2 ≤ x.1.toNat) ∧
    (∃ x ∈ (r 4).released, 4 ≤ x.1.toNat ∧
      peersPending { q [r 4] with routes := [(q []).mkRoute (.core 0) (.peer 1 0) (.stx 0 5) 1 0] } x.2.1 x.2.2 = true) ∧
    let e : Entry := { one.entry 0 .n 0 (.peerStore 0 5) with rel := true, scope := 4 }
    let s := one.modWp 0 fun w => { w with fifo := [e] }
    (s.wp 0).fifo = [e] ∧ 0 < s.warps.length ∧ (e.lanes s).all (fun x => loadsPerformed s x.1 x.2 e.isStore) = true ∧
      (s.co (s.coreOf e.tid)).wq = [] ∧ s.routes = [] ∧ ((q [stored .a]).co 0).wq ≠ [] ∧
      (let w := { s with routes := [s.mkRoute (.core 0) (.peer 1 0) (.stx 0 5) 1 0] }
       ∃ r ∈ w.routes, r.tid = e.tid ∧ r.dst ≠ .peer (paRank 0) (paLdie 0)) ∧
      let b := on1 fun x => { x with status := .blocked .acquire }
      fenceAcquires b 0 = true ∧ Lone b 0 (ordered 3 3) := by
  refine ⟨by decide, by decide, by decide, by decide, by decide, by decide, by decide, by decide, by decide, by decide, by decide,
    by decide, by decide, by decide, by decide, lone_of (by decide)⟩

/-- The last line of near memory; reductions of one line with a store to another between them, each of the two a release or not. -/
theorem witness_StoresReachTheirPlace :
    (let s := co1 fun k => { k with wq := [stored .a] }
     (s.co 0).wq[0]? = some (stored .a) ∧ s.planted = [] ∧ (s.co 0).wq.findIdx? Entry.isAC = some 0 ∧ (stored .a).home = 0 ∧
       (stored .a).dieRel = false ∧ Memory.wf (s.co 0).a = true) ∧
    (let s := co1 fun k => { k with wq := [stored .n] }
     drainReady s 0 0 (stored .n) = true ∧ (stored .n).die < s.dies.length ∧ Memory.wf (s.die 0).mem = true) ∧
    (let d := one.pdie (one.co 0).ldie
     64 * (72 * 2 ^ 24 - 1) < (one.die d).memBytes ∧ ¬ 64 * (72 * 2 ^ 24) < (one.die d).memBytes ∧ one.planted = []) ∧
    ∀ a ∈ [true, false], ∀ b ∈ [true, false], let e := reduced 60 a
      let f := reduced 0 b
      let g := one.entry 0 (if a then .a else .n) 640 (.store [1, 2, 3, 4])
      let s := co1 fun k => { k with wq := [e, g, f] }
      0 < s.cores.length ∧ (s.co 0).wq[0]? = some e ∧ (s.co 0).wq[2]? = some f ∧ e.body = .red .add [part 60 a] ∧
      f.body = .red .add [part 0 b] ∧ e.at_ f.sp f.die = true ∧ (∀ o ∈ [part 60 a, part 0 b], o.addr / 64 = e.addr / 64) ∧
      e.dieRel = false ∧ f.dieRel = false ∧ ((s.co 0).wq.take 2).drop 1 = [g] ∧ g.bars = false ∧ g.releases = false ∧
      g.meets f = false ∧ g.ordered f = false ∧ g.meets e = false ∧ g.ordered e = false ∧ (e.rel = true → g.sp ≠ .n) := by
  refine ⟨by decide, by decide, by decide, fun a _ b _ => ?_⟩
  cases a <;> cases b <;> decide

/-- A load served by its buffer, by near memory or by a copy that a scheduled store has not passed; its bytes from the own FIFO, from
the write queue behind it, from neither, and behind an entry that has yet to execute. -/
theorem witness_LoadsTakeTheirValues :
    (let s := on1 fun x => { x with loads := [pending .a] }
     firstLoad (s.th 0) = some (pending .a) ∧ loadHeld (s.th 0) (pending .a) = false ∧ s.planted = [] ∧
       loadView s 0 (pending .a) (s.bufRead 0 .a 8 4) = some [0, 0, 0, 0]) ∧
    (∀ b ∈ [true, false], let c : Copy := ⟨0, 0, List.replicate 64 7, 1, b⟩
     let s := (on1 fun x => { x with loads := [pending .n] }).modCo 0 fun k => { k with copies := [c] }
     firstLoad (s.th 0) = some (pending .n) ∧ loadView s 0 (pending .n) (s.near 0 8 4) = some [0, 0, 0, 0] ∧
       (s.co 0).copyOf 0 0 = some c ∧ loadHeld (s.th 0) (pending .n) = false ∧ s.planted = [] ∧ (s.th 0).depth = 0 ∧
       ¬((pending .n).acq = true ∧ c.passed = true) ∧ loadView s 0 (pending .n) ((c.bytes.drop 8).take 4) = some [7, 7, 7, 7]) ∧
    (let queue (es : List Entry) : State := co1 fun k => { k with wq := es }
     let view (s : State) := loadView s 0 (pending .n) [9, 9, 9, 9]
     let half : Entry := one.entry 0 .n 10 (.store [5, 6])
     view ((queue [half]).modWp 0 fun w => { w with fifo := [stored .n] }) = some [1, 2, 3, 4] ∧
       view (queue [half]) = some [9, 9, 5, 6] ∧ view (queue [stored .n, half]) = some [1, 2, 5, 6] ∧
       view (queue [reduced 8 false]) = none) ∧
    ([1, 2, 3, 4] : List Byte).length = 4 ∧ 2 < (one.th 0).v.length := by decide

/-- Routes to another device and to the device itself. -/
theorem witness_RoutesDeliver :
    (∀ b ∈ [RouteBody.stx 0x0100000000000000 5, .ldx 0x0100000000000000 0],
      let r : Route := { one.mkRoute (.core 0) (.peer 1 0) b 1 0 with launch := some 0 }
      let s : State := { one with routes := [r], launches := [Launch.blank], ops := [{ Op.blank with stage := .started }] }
      s.routes[0]? = some r ∧ routeStale s r = false ∧ (s.op 0).stage ≠ .done) ∧
    paRank 0x0100000000000000 ≠ one.rank ∧
    let r := one.mkRoute (.core 0) (.peer 0 0) (.stx 0x100 5) 1 0
    let s : State := { one with routes := [r] }
    s.routes[0]? = some r ∧ routeStale s r = false ∧ paRank 0x100 = s.rank ∧ s.planted = [] ∧
      (s.die (s.pdie (paLdie 0x100))).vintage = r.target ∧
      (s.die (s.pdie (paLdie 0x100))).vintage ≠ { r with target := 1, launch := some 0 }.target ∧
      ownSite s r.ctx (paLdie 0x100) (paVa 0x100) .store = some (0, 0x100) ∧ Memory.wf (s.die 0).mem = true := by decide

/-- ARRIVE at 0, 1 and 2, BYTES at 0 and more, and the sum at 2^32 and just below. -/
theorem witness_BarrierObjectOperations :
    let o (arr by_ : Nat) : BarObj := ⟨false, arr, by_, 2⟩
    (o 0 0).arrive = 0 ∧ 1 < (o 2 0).arrive ∧ ((o 1 5).arrive = 1 ∧ (o 1 5).bytes ≠ 0) ∧ ((o 1 0).arrive = 1 ∧ (o 1 0).bytes = 0) ∧
    (o 1 5).bytes + (0xFFFFFFFA : Word).toNat < 2 ^ 32 ∧ 2 ^ 32 ≤ (o 1 5).bytes + (0xFFFFFFFB : Word).toNat ∧
    (0 < (o 0 5).bytes ∧ (o 0 5).arrive = 0) := by decide

/-- The object at the last place of A; an entry of `bar.arrive` that applies and one that faults; a phase of 0. -/
theorem witness_BarrierInstructions :
    (let s := (on1 (setV 1 (BitVec.ofNat 32 (bufSize .a - 16)))).modTh 0 (setV 2 1)
     Lone s 0 none ∧ Given s 0 [.v 1, .v 2] [src (.v 1), src (.v 2)] [] ∧
       (s.regVal 0 (.v 1)).toNat % 16 = 0 ∧ (s.regVal 0 (.v 1)).toNat + 16 ≤ bufSize .a ∧ 1 ≤ (s.regVal 0 (.v 2)).toNat ∧
       barPhase s 0 false (.v 1) = some false) ∧
    (∀ n ∈ [1, 0x80000000], ¬(1 ≤ (BitVec.ofNat 32 n).toNat ∧ (BitVec.ofNat 32 n).toNat < 2 ^ 31) ↔ n = 0x80000000) ∧
    let e := one.entry 0 .a 0 (.bar 0 [(0, 0, .arrive)])
    let s := (on1 fun x => { x with status := .blocked (.entry 4) }).modCo 0 fun k => { k with wq := [e] }
    (s.co 0).wq[0]? = some e ∧ s.planted = [] ∧ (s.co 0).wq.findIdx? Entry.isAC = some 0 ∧ e.home = 0 ∧ e.dieRel = false ∧
      (s.th 0).status = .blocked (.entry 4) ∧ (BarObj.of (s.bufRead 0 .a 0 16)).apply .arrive = none ∧
      ((BarObj.of ((s.bufWrite 0 .a 0 (wBytes 1)).bufRead 0 .a 0 16)).apply .arrive).isSome = true :=
  ⟨⟨lone_of (by decide), given_of (by decide), by decide, by decide, by decide, by decide⟩, by decide, by decide⟩

/-- An object in near memory: good, misaligned and unmapped addresses; its entry drains, with a value and with a fault; and a look at
it behind an entry of the thread that has yet to apply. -/
theorem witness_BarrierInstructions_near :
    (let s := on1 (setV 2 1)
     Lone s 0 none ∧ Given s 0 [.v 1, .v 2] [src (.v 1), src (.v 2)] [] ∧ Given s 0 [.v 1] [src (.v 1)] [] ∧ s.planted = [] ∧
       (∀ acc ∈ [Access.load, .store], (s.laneXlate 0 (nVa s 0 (addrReg s 0 (.v 1))) acc).toOption.isSome = true) ∧
       barPhase s 0 true (.v 1) = some false ∧ (s.wpOf 0).fifo = [] ∧ (s.co 0).wq = []) ∧
    (∀ n ∈ [8, bufSize .a, 0xC0000000], let s := on1 (setV 1 (BitVec.ofNat 32 n))
      Lone s 0 none ∧ Given s 0 [.v 1] [src (.v 1)] [] ∧ ((addrReg s 0 (.v 1)).toNat % 16 ≠ 0 ↔ n = 8) ∧
        (bufSize .a < (addrReg s 0 (.v 1)).toNat + 16 ↔ n ≠ 8) ∧
        ((s.laneXlate 0 (nVa s 0 (addrReg s 0 (.v 1))) .store).toOption.isNone ↔ n = 0xC0000000)) ∧
    (let e := one.entry 0 .n 0 (.bar 0 [(0, 0, .arrive)])
     let s := (on1 fun x => { x with status := .blocked (.entry 4) }).modCo 0 fun k => { k with wq := [e] }
     (s.co 0).wq[0]? = some e ∧ drainReady s 0 0 e = true ∧ e.die < s.dies.length ∧ s.planted = [] ∧
       Memory.wf (s.die e.die).mem = true ∧ (s.th 0).status = .blocked (.entry 4)) ∧
    barPhase (one.modWp 0 fun w => { w with fifo := [one.entry 0 .a 0 (.bar 0 [(0, 0, .arrive)])] }) 0 false (.v 1) = none := by
  refine ⟨⟨lone_of (by decide), given_of (by decide), given_of (by decide), by decide, by decide, by decide, by decide, by decide⟩,
    fun n h => ?_, by decide, by decide⟩
  simp only [List.mem_cons, List.not_mem_nil, or_false] at h
  rcases h with rfl | rfl | rfl <;> exact ⟨lone_of (by decide), given_of (by decide), by decide, by decide, by decide⟩

/-- A handle of the copy engine whose operation has started, has completed, or is unknown, in a full register and in an empty one; a
register that holds no handle; queues with a sound channel, a malformed one, and one whose record an atomic has yet to write; q0. -/
theorem witness_FuturesAndQueues :
    (∀ st ∈ [OpStage.started, .done], ∀ b ∈ [true, false],
      let s := { on1 (fun x => { x with v := x.v.set 1 ⟨0x20000000, .raw, b⟩ }) with
        ops := [{ Op.blank with engine := 2, core := some 0, ctx := 1, stage := st }] }
      latestOp s 0 (addrReg s 0 (.v 1)) = some 0 ∧ (s.op 0).stage = st ∧ handleOk (addrReg s 0 (.v 1)) = true ∧
        Lone s 0 none ∧ opBad s 0 (.v 1) = false ∧ Given s 0 [.v 1, .v 1] [] [] ∧
        (∀ r ∈ regsOf (s.th 0) (.v 1) 1, (ownLred s 0).contains r = false) ∧
        (regsOf (s.th 0) (.v 1) 1).all (s.regFull 0) = b) ∧
    latestOp (on1 (setV 1 0x20000000)) 0 0x20000000 = none ∧
    ((regsOf (one.th 0) (.v 1) 1).filter fun r => some r ≠ regOf (one.th 0) (.v 1)) = [] ∧
    (handleOk (addrReg one 0 (.v 1)) = false ∧ opBad one 0 (.v 1) = false ∧ opBad one 0 (.x 0) = false) ∧
    Given one 0 [.v 1] [src (.v 1)] [] ∧ (addrReg one 0 (.v 1)).toNat % 16 = 0 ∧
    (let s := on1 (setV 1 8); Given s 0 [.v 1] [src (.v 1)] [] ∧ (addrReg s 0 (.v 1)).toNat % 16 ≠ 0) ∧
    (∀ f ∈ [[], [one.entry 0 .a 0 (.red .add [part 0 false])]], ∀ n ∈ [0, 0x900],
      let s := ((channelled 1).modTh 0 fun x => { x with qb := [none, none, some n] }).modWp 0 fun w => { w with fifo := f }
      Given s 0 [.v 2, .q 3] [] (regsOf (s.th 0) (.v 2) 1) ∧ boundChan (s.th 0) 3 = some n ∧
        chanGood s 0 n = (if n ≠ 0 then some false else if f = [] then some true else none) ∧
        (s.chanAt (s.homeOf 0) 0).isSome = true) ∧
    let s := on1 fun x => { x with collie := true }
    Lone s 0 none ∧ Given s 0 [.v 2, .q 0] [] (regsOf (s.th 0) (.v 2) 1) := by
  refine ⟨fun st h b hb => ?_, by decide, by decide, by decide, given_of (by decide), by decide, ⟨given_of (by decide), by decide⟩,
    fun f h n hn => ?_, lone_of (by decide), given_of (by decide)⟩ <;>
    simp only [List.mem_cons, List.not_mem_nil, or_false] at h
  · simp only [List.mem_cons, List.not_mem_nil, or_false] at hb
    rcases h with rfl | rfl <;> rcases hb with rfl | rfl <;>
      exact ⟨by decide, by decide, by decide, lone_of (by decide), by decide, given_of (by decide), by decide, by decide⟩
  · simp only [List.mem_cons, List.not_mem_nil, or_false] at hn
    rcases h with rfl | rfl <;> rcases hn with rfl | rfl <;>
      exact ⟨given_of (by decide), by decide, by decide, by decide⟩

/-- A step is taken from a state with no period in progress and from one in which period 1 is. -/
theorem witness_GraceCounterInvariant :
    (∀ n ∈ [0, 1], ({ State.reset with g := n, turn := .event .eqpop } : State).Grace) ∧
    (∃ u, step { State.reset with turn := .event .eqpop } = .next u) ∧
    (let s : State := { State.reset with g := 0xFFFFFFFF, gdone := 0xFFFFFFFF, req := true }
     s.g = 0xFFFFFFFF ∧ s.gdone = s.g ∧ s.req = true ∧ s.gdone ≠ s.g - 1) ∧ (0 : Word) = 1 - 1 :=
  ⟨fun n h => by rcases List.mem_cons.1 h with rfl | h
                 · exact Or.inl rfl
                 · rcases List.mem_singleton.1 h with rfl
                   exact Or.inr rfl,
    ⟨_, rfl⟩, by decide, by decide⟩

theorem witness_GracePeriodSteps :
    (let s : State := { State.reset with req := true }; s.gdone = s.g ∧ s.req = true) ∧
    (let s : State := { State.reset with g := 1 }; s.gdone = s.g - 1 ∧ ∀ x ∈ s.threads, holdsPeriod s x = false) ∧
    (let s := { on1 fun x => { x with depth := 1 } with g := 1 }; ∃ x ∈ s.threads, holdsPeriod s x = true) ∧
    ((on1 fun x => { x with status := .blocked (.entry 4) }).th 0).status = .blocked (.entry 4) := by decide

/-- A period in progress whose tickets two deferred blocks have, and one of a later period; a block that is taken, free and deferred, with
the die's queue empty and full; a marker that can drain. -/
theorem witness_GracePeriodSteps_blocks :
    let q (es : List LeesEntry) (st : Option Bool) : State :=
      (((on1 fun x => { x with status := .blocked (.entry 4) }).modDie 0 fun d => { d with lees := es }).modCtx 1 fun c =>
        c.setBlock 0 0 1 st)
    (let s := { q [⟨1, 0, 1, 1⟩, ⟨1, 0, 0, 2⟩] (some true) with g := 1 }
     s.gdone = s.g - 1 ∧ (∀ x ∈ s.threads, holdsPeriod s x = false) ∧ (s.ctx 1).live = true ∧ 0 < s.dies.length ∧
       (s.place.findIdx? fun p => p = 0).getD 8 = 0 ∧ (s.ctx 1).block 0 0 1 = some true) ∧
    (∀ st ∈ [none, some false, some true], ((q [] st).ctxOf 0).block 0 ((q [] st).ldieOf 0) 1 = st) ∧
    (∀ es ∈ [[], List.replicate Config.leesDepth (⟨1, 0, 0, 1⟩ : LeesEntry)], ((q es none).th 0).status = .blocked (.entry 4) ∧
      0 < (q es none).threads.length ∧ (((q es none).die ((q es none).pdie ((q es none).ldieOf 0))).lees = es)) ∧
    let e := { one.entry 0 .n 0 (.mark .qleave) with rel := true, scope := 2 }
    let s := co1 fun k => { k with wq := [e] }
    (s.co 0).wq[0]? = some e ∧ drainReady s 0 0 e = true := by
  refine ⟨by decide, by decide, fun es h => ?_, by decide⟩
  simp only [List.mem_cons, List.not_mem_nil, or_false] at h
  rcases h with rfl | rfl <;> exact ⟨rfl, by decide, rfl⟩

/-- Depths 0, 1 and 255; a `gwait` whose ticket has ended. -/
theorem witness_SectionsAndTickets :
    (∀ d ∈ [(0 : BitVec 8), 1, 255], Lone (on1 fun x => { x with depth := d }) 0 none ∧
      ((on1 fun x => { x with depth := d }).th 0).depth = d ∧ ((on1 fun x => { x with depth := d }).th 0).status = .ready) ∧
    (let s := on1 fun x => { x with status := .blocked (.ticket 0) }
     Lone s 0 none ∧ (s.th 0).status = .blocked (.ticket 0) ∧ s.ticketEnded 0 = true) ∧
    Given one 0 [.v 2] [src (.v 2)] [] ∧ Given one 0 [.s 3] [src (.s 3)] [] ∧ Given one 0 [.v 2] [] [.v 2] ∧
    Given one 0 [.x 1] [] (regsOf (one.th 0) (.x 1) 1) ∧ ∀ e ∈ (one.wpOf 0).fifo, e.seq < one.seq := by
  refine ⟨fun d h => ?_, ⟨lone_of (by decide), by decide, by decide⟩, given_of (by decide), given_of (by decide), given_of (by decide),
    given_of (by decide), by decide⟩
  rcases List.mem_cons.1 h with rfl | h
  · exact ⟨lone_of (by decide), by decide, by decide⟩
  rcases List.mem_cons.1 h with rfl | h
  · exact ⟨lone_of (by decide), by decide, by decide⟩
  · rcases List.mem_singleton.1 h with rfl
    exact ⟨lone_of (by decide), by decide, by decide⟩

/-- The lane's context has pool 0 of two blocks of 16 bytes, these of them taken. -/
def pooled (taken : List Nat) : State := one.modCtx 1 fun c =>
  { c with pools := [[0, 0, 2, 0x80000004]], blocks := taken.map fun i => ⟨0, 0, i, false⟩ }

theorem witness_PoolOperations :
    Lone (pooled [0]) 0 none ∧ Given (pooled [0]) 0 [.v 1, .v 2] [src (.v 1), src (.v 2)] [] ∧
    poolOf (pooled [0]) 0 0 = some ⟨0, 0, 2, 16⟩ ∧ ((pooled [0]).ctxOf 0).freeBlock ⟨0, 0, 2, 16⟩ 0 0 = some 1 ∧
    ((pooled [0, 1]).ctxOf 0).freeBlock ⟨0, 0, 2, 16⟩ 0 0 = none ∧ (⟨0, 0, 2, 16⟩ : Pool).index 16 = some 1 ∧
    (⟨0, 0, 2, 16⟩ : Pool).index 8 = none ∧ (⟨0, 0, 2, 16⟩ : Pool).index 32 = none ∧ poolOf (pooled []) 0 1 = none ∧
    poolOf (pooled []) 0 64 = none :=
  ⟨lone_of (by decide), given_of (by decide), by decide, by decide, by decide, by decide, by decide, by decide, by decide,
    by decide⟩

/-- The frame of the lane's context is mapped; a FIFO that holds a store holds a trap back. -/
theorem witness_TrapEntry :
    (one.ctxOf 0).addr48 2 ≠ 0 ∧ (one.th 0).inHandler = false ∧
    (∃ p pa, one.translate (some 0) (one.ctxOf 0).id (one.co 0).ldie ((one.ctxOf 0).addr48 4) .store = .ok (p, pa)) ∧
    one.live 0 = true ∧ one.trapReady 0 = true ∧
    ∀ f ∈ [[], [stored .a]], let i : TrapInfo := ⟨0, 0, 0⟩
      let s := (on1 fun x => { x with status := .trapping i }).modWp 0 fun w => { w with fifo := f }
      (s.th 0).status = .trapping i ∧ s.live 0 = true ∧ s.trapReady 0 = f.isEmpty :=
  ⟨by decide, by decide, ⟨_, _, rfl⟩, by decide, by decide, by decide⟩

/-- No handler; in a handler; a frame that is not mapped, for the trap and for `rte`; and one that `rte` reads. -/
theorem witness_TrapEndAndReturn :
    ((one.modCtx 1 fun c => { c with words := [1] }).ctxOf 0).addr48 2 = 0 ∧
    (∃ e, (one.modCtx 1 fun c => { c with words := c.words.set 4 0xC0000000 }).translate (some 0) 1 0
      (((one.modCtx 1 fun c => { c with words := c.words.set 4 0xC0000000 }).ctxOf 0).addr48 4) .store = .error e) ∧
    (one.issuing = [0] ∧ (one.th 0).inHandler = false ∧ guardOn (onP 0 false) (one.th 0) = false) ∧
    (let s := on1 fun x => { x with inHandler := true, frame := 0xC0000000 }
     Lone s 0 none ∧ (s.th 0).inHandler = true ∧ ∃ e, s.translate (some 0) (s.co 0).ctx (s.co 0).ldie (s.th 0).frame .load = .error e) ∧
    (let s := on1 fun x => { x with inHandler := true, frame := 0x200000 }
     Lone s 0 none ∧ (s.th 0).inHandler = true ∧ s.planted = [] ∧ (s.wpOf 0).fifo = [] ∧ (s.th 0).loads = [] ∧
       (s.co 0).wq = [] ∧ (s.co 0).copies = [] ∧
       (∃ p, s.translate (some 0) (s.ctxIdOf 0) (s.ldieOf 0) (s.th 0).frame .load = .ok (p, 0x200000)) ∧ 0x200000 % 16 = 0) :=
  ⟨by decide, ⟨_, rfl⟩, by decide, ⟨lone_of (by decide), by decide, _, rfl⟩, lone_of (by decide), by decide, by decide, by decide,
    by decide, by decide, by decide, ⟨_, rfl⟩, by decide⟩

/-- The lane, the Collie, and a cell; FPSTAT behind a deferred instruction and behind one that waits for its pops, and BSCUR behind a deferred refill; numbers that the table
has, last and first, and that it lacks. -/
theorem witness_SpecialRegistersAndTime :
    (∀ n ∈ [(0 : BitVec 11), 0x2B], sregReadable n = true) ∧ (∀ n ∈ [(0x10 : BitVec 11), 0x28], sregWritable n = true) ∧
    sregReadable 0x17 = false ∧ sregReadable 0x2C = false ∧ sregWritable 0x13 = false ∧
    (∃ u ∈ ((on1 fun x => { x with deferred := [⟨.add, [.nbr 0 3, .val 1], [], none, [.v 2]⟩] }).wpOf 0).threads,
      ((on1 fun x => { x with deferred := [⟨.add, [.nbr 0 3, .val 1], [], none, [.v 2]⟩] }).th u).deferred ≠ []) ∧
    (∃ u ∈ (one.wpOf 0).threads, ((on1 fun x => { x with popJob := true }).th u).popJob = true) ∧
    windowBusy (on1 fun x => { x with deferred := [⟨.refill false, [.nbr 0 3], [], none, [.v 2]⟩] }) 0 = true ∧
    (one.th 0).cell = none ∧ (one.th 0).collie = false ∧ (celled.th 0).cell = some 0 ∧ { celled with teams := [{ celled.tm 0 with launch := some 0 }] }.launchOf 0 = some 0 ∧
    (∀ i, i < 3 → ((one.th 0).lc[i]?).isSome = true) ∧ (one.th 0).warp < one.warps.length ∧
    Lone one 0 none ∧ windowBusy one 0 = false ∧ 
    (∀ u ∈ (one.wpOf 0).threads, (one.th u).deferred = [] ∧ (one.th u).popJob = false) ∧ Given one 0 [.v 2] [] [.v 2] ∧
    Given one 0 [.v 2] [src (.v 2)] [] ∧ (on1 fun x => { x with collie := true }).threads.all (fun x => x.collie) = true ∧
    (one.th 0).status = .ready ∧ Given one 0 [.v 2] [srcN (.v 2) 2] [] ∧ (one.regVal 0 (.v 2)).toNat ≤ one.time.toNat ∧
    one.time.toNat < ((on1 (setV 2 1)).regVal 0 (.v 2)).toNat ∧
    (∀ n ∈ [0, 1, 2], ∀ b ∈ [true, false],
      let s := { (on1 fun x => { x with status := .blocked (.time n 4) }).modCo 0 fun k => { k with resident := b } with time := 1 }
      (s.th 0).status = .blocked (.time n 4) ∧ (s.co (s.coreOf 0)).resident = b ∧ (n ≤ s.time.toNat ↔ n ≠ 2)) :=
  ⟨by decide, by decide, by decide, by decide, by decide, by decide, by decide, by decide, by decide, by decide, by decide,
    by decide, by decide, by decide, lone_one, by decide, by decide, given_of (by decide), given_of (by decide), by decide, by decide,
    given_of (by decide), by decide, by decide, by decide⟩

theorem witness_PrivilegedInstructions :
    (let s := one.modCtx 1 fun c => { c with words := c.words.set 1 0 }; Lone s 0 none ∧ privileged s 0 = false) ∧
    Lone one 0 none ∧ privileged one 0 = true ∧ (one.th 0).popped = [] ∧ Given one 0 [.v 2] [srcN (.v 2) 3] [] ∧
    (let s := on1 (setV 2 1); Given s 0 [.v 2] [src (.v 2)] [] ∧ (s.ctx (s.regVal 0 (.v 2))).live = true ∧ allSlots s 0 0 [src (.v 2)] = [.val 1]) ∧
    (let s := (channelled 0).modTh 0 fun x => { x with popped := [(1, some 1)] }
     Lone s 0 none ∧ privileged s 0 = true ∧ Given s 0 [.q 1] [src (.q 1)] [] ∧ (s.th 0).popped = [(1, some 1)]) ∧
    0 < one.dies.length ∧ 0 < one.cores.length :=
  ⟨⟨lone_of (by decide), by decide⟩, lone_one, by decide, by decide, given_of (by decide), ⟨given_of (by decide), by decide, by decide⟩,
    ⟨lone_of (by decide), by decide, given_of (by decide), by decide⟩, by decide, by decide⟩

/-- A context of two cores: the issuer's, and one that is saved. -/
def halfSaved : State :=
  let s := on1 (setV 1 1)
  { s with
    cores := s.cores ++ [{ CoreSt.blank with ctx := 1, core := 1 }]
    warps := s.warps ++ [{ Warp.blank with core := 1, threads := [1] }]
    threads := s.threads ++ [Thread.fresh 1 0 0 64 0] }

theorem witness_ContextSaveAndRestore :
    let s := halfSaved
    let r := s.modCtx 1 fun c => { c with words := c.words.set 1 0xA0000000 }
    Lone s 0 none ∧ privileged s 0 = true ∧ (s.th 0).popped = [] ∧ Given s 0 [.v 2, .v 1] [src (.v 1)] [.v 2] ∧
    ((s.ctx (s.regVal 0 (.v 1))).live = true ∧ (s.ctx 0).live = false) ∧
    (residentCores s 1 = [0] ∧ quietCore s 0 = true ∧ savedCores s 1 = [1] ∧ restoreReady s [1] = true) ∧
    (residentCores one 2 = [] ∧ savedCores one 1 = [] ∧ restoreReady one [] = true) ∧
    (Machine.bit ((r.ctx 1).words.getD 1 0) 29 = true ∧ closedSet r [0] = true ∧ residentCores r 1 = [0]) ∧
    (s.ctx 1).saved = false ∧ closedSet s [1] = true ∧ ∀ c ∈ [0, 1], c < s.cores.length :=
  ⟨lone_of (by decide), by decide, by decide, given_of (by decide), by decide, by decide, by decide, by decide, by decide⟩

/-- The lane's cell with this status, and with a leaf. -/
def celledAs (st : Status) (leaf : Option (LredOp × List Word)) : State :=
  (celled.modTh 0 fun x => { x with status := st }).modCl 0 fun c => { c with leaf := leaf }

/-- The conditions of the end of a phase hold; a deferred instruction that misses a value holds it back. -/
theorem witness_PhasesOfCells :
    Lone celled 0 none ∧ (celled.th 0).depth = 0 ∧ (celled.th 0).cell = some 0 ∧ (one.th 0).cell = none ∧
    phaseReady celled 0 = true ∧
    phaseReady (celled.modTh 0 fun x => { x with deferred := [⟨.add, [.nbr 0 3, .val 1], [], none, [.v 2]⟩] }) 0 = false ∧
    (∀ b ∈ [true, false], let s := (celledAs (.blocked (.phase true 4)) none).modCo 0 fun k => { k with resident := b }
     (s.th (s.cl 0).tid).status = .blocked (.phase true 4) ∧ 0 < s.cells.length ∧ phaseReady s 0 = true ∧
       (s.co (s.cl 0).core).resident = b) :=
  ⟨lone_of (by decide), by decide, by decide, by decide, by decide, by decide, by decide⟩

/-- `lred` without a leaf in the phase and with one; a face message from a peer that is next in order, and a peer's word that the
lattice, which has cells on two devices, has ended. -/
theorem witness_CellsAndTheirMessages :
    (∀ f ∈ [none, some (LredOp.add, [(1 : Word)])], let s := celledAs .ready f; (s.th 0).cell = some 0 ∧ (s.cl 0).leaf = f) ∧
    Lone celled 0 none ∧ Given celled 0 [.v 2] [] [.v 2] ∧ 0 < celled.cells.length ∧
    (∀ n ∈ [1, 3], Given celled 0 [.v 2, .v 5] [srcN (.v 5) n] (regsOf (celled.th 0) (.v 2) n)) ∧
    allSlots celled 0 0 [srcN (.v 5) 3] = [(0 : Word), 0, 0].map Slot.val ∧ allSlots celled 0 0 [srcN (.v 5) 1] = [.val 0] ∧
    regsOf (celled.th 0) (.v 61) 3 = [.v 61, .v 62, .v 63] ∧ 63 < (celled.th 0).v.length ∧
    (∀ b ∈ [true, false], let m : FaceMsg := ⟨0, 0, [1, 2, 3, 4], false, true, if b then some 5 else none⟩
     let s := celled.modLa 0 fun x => { x with desc := x.desc.set 0 0x100 }
     m.launch = 0 ∧ partitionOn s 0 0 = true ∧ s.cellAt 0 5 = none ∧ m.remote = true ∧ m.ended.isSome = b ∧ spans (s.la 0).desc = true ∧
       faceInOrder (s.co 0).faces 0 5 m.idx1 m.retired = true ∧ Machine.bit s.errinj 31 = false ∧
       (s.th 0).deferred = []) :=
  ⟨by decide, lone_of (by decide), given_of (by decide), by decide, fun n h => by
    rcases List.mem_cons.1 h with rfl | h
    · exact given_of (by decide)
    · rcases List.mem_singleton.1 h with rfl
      exact given_of (by decide), by decide, by decide, by decide, by decide, by decide⟩

/-- Two cells of two threads that have ended phase 0, with these leaves, and whose results go to v2. -/
def leafed (f g : LredOp) : State := { celled with
  threads := [0, 1].map fun i => { two.th i with cell := some i, lred := [⟨0, f, [.v 2]⟩] }
  launches := [{ Launch.blank with stage := .started, desc := [1, 1, 0, 0] }]
  cells := [{ Cell.blank with q := 1, leaves := [(0, some (f, [5]))] }, { Cell.blank with ell := 1, tid := 1, q := 1, leaves := [(0, some (g, [6]))] }] }

theorem witness_LatticeReduction :
    (∀ g ∈ [LredOp.add, .fadd], let s := leafed .add g
      (s.la 0).stage = .started ∧ 0 ∉ (s.la 0).lredDone ∧ (∀ x ∈ phaseLeaves s 0 0, x.1 = true) ∧
      ((phaseLeaves s 0 0).filterMap fun x => x.2.map Prod.fst) = [.add, g] ∧ 0 < s.launches.length ∧
      ((phaseLeaves s 0 0).map fun x => x.2.map Prod.snd) = [some [5], some [6]] ∧
      (s.cells.filter fun c => c.launch = 0) = s.cells ∧ (s.cells.map Cell.tid).Nodup ∧ (∀ c ∈ s.cells, c.tid < s.threads.length) ∧
      ∀ c ∈ s.cells, ((s.th c.tid).lred.find? fun w => w.q = 0) = some ⟨0, .add, [.v 2]⟩ ∧ 2 < (s.th c.tid).v.length) ∧
    LredOp.fadd ≠ .mt := by decide

/-- A cell waits in the cellar beside a resident one, which is in `phase` or not, of the same phase or a later one; the partition has
room, or has none. -/
theorem witness_PagerPlacesCells :
    ∀ n ∈ [1, 2], ∀ q ∈ [0, 1], ∀ b ∈ [true, false],
      let c : Cell := { Cell.blank with ell := 1, tid := 1, retired := false }
      let v : Cell := { Cell.blank with q := q, retired := false, resident := true }
      let s : State := { two with
        cells := [v, c], launches := [{ Launch.blank with stage := .started, grant := n }]
        threads := [{ two.th 0 with cell := some 0, status := if b then .blocked (.phase false 4) else .ready },
          { two.th 1 with cell := some 1 }] }
      partitionOn s 0 0 = true ∧ (s.co 0).resident = true ∧ nextIn s 0 0 = some c ∧
        (s.cells.filter fun x => x.core = 0 && x.launch = 0 && x.resident).length = 1 ∧ slotFree s 0 64 = true ∧
        victim s 0 0 c = (if b ∨ q = 1 then some v else none) ∧ swapReady s v = true ∧
        swapReady (s.modWp 0 fun w => { w with fifo := [stored .a] }) v = false ∧
        (s.th c.tid).cell = some 1 ∧ 1 < s.cells.length ∧ s.planted = [] ∧ (s.th c.tid).warp < s.warps.length := by decide

/-- The last record of A, a misaligned one, one past the end; a full queue of the sort unit. -/
theorem witness_RecordCommandsIssue :
    recordCmd (.xsort none (.v 2) (.v 1) false) = some (3, none, .v 2, .v 1, false, 64) ∧ Lone one 0 none ∧
    Given one 0 [.v 2, .v 1] [src (.v 1)] [.v 2] ∧ cmdRoom one 0 3 = true ∧
    (∀ n ∈ [8, bufSize .a - 64, bufSize .a - 48], recAddr (on1 (setV 1 (BitVec.ofNat 32 n))) 0 (.v 1) = n) ∧
    cmdRoom { one with ops := List.replicate 4 { Op.blank with engine := 3, core := some 0, stage := .queued } } 0 3 = false :=
  ⟨by decide, lone_one, given_of (by decide), by decide, by decide, by decide⟩

/-- A parameter block of one row and one element of K, whose rows of C are n bytes apart. -/
def mmaRec (n : Nat) : List Byte :=
  [0, BitVec.ofNat 32 (n * 2 ^ 16), 0, 0x10000, 0, 0, 1, 0].flatMap wBytes

/-- The engine free, held by the lane's team, held by another, and handed to a team that waits; the Collie. A good block, one whose
columns do not fit, a row whose register is empty, and the last bytes of C for `mzero`. -/
theorem witness_MatrixReservationAndCommands :
    (∀ h ∈ [none, some 0, some 1], ∀ w ∈ [[], [0]], let s := co1 fun k => { k with holder := h, waiters := w }
      s.issuing = [0] ∧ (s.th 0).collie = false ∧ (s.co 0).holder = h ∧ (s.co 0).waiters = w ∧ teamOf s 0 = 0) ∧
    Lone (on1 fun x => { x with collie := true }) 0 none ∧ Lone one 0 none ∧ (one.co 0).holder ≠ some (teamOf one 0) ∧
    (let s := co1 fun k => { k with holder := some 0 }
     Lone s 0 none ∧ 0 < s.warps.length ∧ Given s 0 [.v 2, .v 0, .v 1] [src (.v 1)] (regsOf (s.th 0) (.v 2) 1) ∧
     Given s 0 [.s 2, .v 4] [src (.v 4)] (regsOf (s.th 0) (.s 2) 1) ∧ Given s 0 [.v 2, .v 4] [srcN (.v 4) 2] (regsOf (s.th 0) (.v 2) 1) ∧
     recAddr s 0 (.v 1) % 16 = 0 ∧ recAddr s 0 (.v 1) + 32 ≤ bufSize .a ∧ cmdRoom s 0 1 = true ∧ ownCbLoad s 0 = false ∧
     s.planted = [] ∧
     ∀ n ∈ [0, 4], ∃ b, mmaBlock (s.bufWrite 0 .a 0 (mmaRec n)) 0 (.v 1) = some b ∧
       (mmaCode s 0 0 b = 0 ↔ n = 4) ∧
       (∀ r, firstReg s 0 0 b = some r → s.regFull r.1 r.2 = true) ∧
       (∀ r ∈ allRows s 0 0 b (elemBits (aTag s 0 0 b)), (ownLred s r.1).contains r.2 = false ∧ s.regFull r.1 r.2 = true) ∧
       let u := (s.bufWrite 0 .a 0 (mmaRec n)).modTh 0 fun x => { x with
         v := x.v.set 0 ⟨0, .raw, false⟩ }
       n = 4 → ∃ r, firstReg u 0 0 b = some r ∧ u.regFull r.1 r.2 = false) ∧
    let off : Word := BitVec.ofNat 32 (bufSize .c - 64)
    off.toNat % 64 = 0 ∧ off.toNat + (64 : Word).toNat ≤ bufSize .c ∧ ¬ off.toNat + (128 : Word).toNat ≤ bufSize .c := by
  refine ⟨by decide, lone_of (by decide), lone_one, by decide, ⟨lone_of (by decide), by decide, given_of (by decide),
    given_of (by decide), given_of (by decide), by decide, by decide, by decide, by decide, by decide, fun n h => ?_⟩, by decide⟩
  rcases List.mem_cons.1 h with rfl | h
  · exact ⟨_, rfl, by decide, by decide, by decide, by decide⟩
  · rcases List.mem_singleton.1 h with rfl
    exact ⟨_, rfl, by decide, by decide, by decide, by decide⟩

/-- One operation of the lane's core. -/
def opState (e : BitVec 4) (fn : Nat) (st : OpStage) (ws : List Word) : State :=
  { one with ops := [{ Op.blank with engine := e, fn := fn, stage := st, ctx := 1, core := some 0, record := ws }] }.bufWrite 0 .a 0
    (ws.flatMap wBytes)

/-- A copy of one word of A from 0 to 0x100; the same without dimensions; a sort of one key over one expert; a collective without
members. -/
def copyRec : List Word := [0x14000000, 0, 0, 0x100, 0, 0, 0, 0, 0, 0, 0, 0, 0, 0, 0, 0, 1, 1, 1, 0]
def noDims : List Word := List.replicate 16 0
def sortRec : List Word := [1, 1, 0, 0, 0x100, 0, 0x200, 0, 0x300, 0, 0, 0, 0, 0, 0, 0]

theorem witness_EngineStartAndRead :
    (∀ f ∈ [0, 2], let s := opState 1 f .queued []
      (s.op 0).stage = .queued ∧ queueReady s 0 = true ∧ engineHere s (s.op 0) = true ∧ acqReady s (s.op 0) = true) ∧
    (let s := opState 1 1 .queued []; acqReady s (s.op 0) = true ∧ (s.recordView (s.op 0) 0 32).isSome = true) ∧
    (mdrCode (List.replicate 8 0) = 0 ∧ mdrCode [0, 0, 0, 1, 0, 0, 0, 0] = 1) ∧
    (let s := opState 2 0 .queued copyRec; readRecord s 0 = some copyRec ∧ copyCode s 1 0 copyRec = 0 ∧ copyCode s 1 0 noDims ≠ 0) ∧
    (let s := opState 3 0 .queued sortRec
     (s.recordView (s.op 0) 0 64).map (wordsOf 16) = some sortRec ∧ sortCode s 0 sortRec = 0 ∧ sortCode s 0 noDims ≠ 0) ∧
    (let s := opState 4 0 .queued noDims; (readRecord s 0).isSome = true ∧ colCode s 0 noDims ≠ 0) ∧
    (let s := opState 2 0 .started copyRec
     (s.op 0).stage = .started ∧ engineHere s (s.op 0) = true ∧ acqReady s (s.op 0) = true ∧ rKind copyRec = false ∧
       (s.op 0).cursor < rCount copyRec ∧ sourceAt s 0 (elemOffs copyRec 0).1 = .buf .a 0 ∧ s.planted = [] ∧
       sourceBusy s 0 (.buf .a 0) = false ∧ (s.coreView 0 0 .a 0 (rB copyRec)).isSome = true) ∧
    (let s := (opState 2 0 .started copyRec).modOp 0 fun o => { o with outs := [.buf .a 0 2 [1, 2, 3, 4] none none] }
     acqReady s (s.op 0) = true ∧ sourceBusy s 0 (sourceAt s 0 (elemOffs copyRec 0).1) = true) ∧
    (let s := opState 2 0 .started (copyRec.set 0 0x14C00000)
     let o := s.op 0
     sourceAt s 0 (elemOffs o.record 0).1 = .near 0 0 ∧ o.cursor < rCount o.record ∧ o.outs = [] ∧ o.status = 0 ∧
       acqReady s o = true ∧ sourceBusy s 0 (.near 0 0) = false ∧ (s.translate none o.ctx 0 0 .load).toOption.map Prod.snd = some 0 ∧
       writeDue s 0 (s.pdie 0) 0 (rB o.record) = false ∧ s.planted = []) ∧
    (∀ b ∈ [true, false], let s := (opState 1 0 .started [0, 0, 0, 0x10001, 0, 0, 1, 0]).modOp 0 fun o => { o with
       units := if b then [] else [(.b 0 0, [1])] }
     let o := s.op 0
     s.planted = [] ∧ acqReady s o = true ∧ engineHere s o = true ∧ o.cursor < mmaBlocks o.record ∧
       o.unread (mmaUnits o o.cursor) = if b then [.b 0 0] else []) ∧
    let s := ((opState 2 0 .started copyRec).modOp 0 fun o => { o with acq := true, scope := 4, mark := [7] }).modCo 0 fun k =>
      { k with wq := [{ one.entry 0 .n 8 (.store [1, 2, 3, 4]) with seq := 7 }] }
    acqReady s (s.op 0) = false := by decide

/-- The one element of B that is left is read whatever the choice. -/
theorem witness_EngineStartAndRead_mma (pick : Nat) :
    let s := opState 1 0 .started [0, 0, 0, 0x10001, 0, 0, 1, 0]
    let x := mmaSite s (s.op 0) (.b 0 0)
    mmaNext (s.op 0) pick = some (.b 0 0) ∧ ∃ s' bs p, s.readBuf 0 x.1 x.2.1 x.2.2.1 x.2.2.2 = .ok s' bs p := by
  refine ⟨?_, _, _, _, rfl⟩
  unfold mmaNext
  generalize h : Op.unread _ _ = us
  obtain rfl : us = [.b 0 0] := h.symm.trans (by decide)
  simp [Nat.mod_one]

/-- A collective of one word over a group of n members, of this mode and operation, from SADDR in this space to DADDR in that one. -/
def colRec (n mode fn sp dp : Nat) : List Word :=
  [BitVec.ofNat 32 (0x14000000 + sp * 2 ^ 22 + dp * 2 ^ 19), 0x40, 0, 0x100, 0, 0, 0, 0, 0, 0, 0, 0,
    BitVec.ofNat 32 (0x1000 + mode * 2 ^ 9 + fn * 2 ^ 5), BitVec.ofNat 32 (n - 1), 12, 0xFFFFFFFF, 1, 1, 1, 0]

/-- A fold of two members whose own element is in A, in near memory and in staging, or is held by an entry of the write queue; an element
that another member sends. -/
theorem witness_EngineStartAndRead_collective :
    (let s := opState 4 0 .queued (colRec 1 0 2 0 0)
     queueReady s 0 = true ∧ engineHere s (s.op 0) = true ∧ readRecord s 0 = some (colRec 1 0 2 0 0) ∧
       colCode s (s.op 0).arg (colRec 1 0 2 0 0) = 0 ∧ s.planted = []) ∧
    (let s := opState 4 0 .started (colRec 2 0 2 0 0)
     let o := s.op 0
     o.engine = 4 ∧ o.stage = .started ∧ o.status = 0 ∧ o.cursor < rCount o.record ∧ 0 < s.ops.length ∧ acqReady s o = true ∧
       ([0, 0, 0, 0] : List Byte).length = othersBytes o.record (groupPos o.record 0) 0 + (if farTag o.record (groupPos o.record 0) 0 then 1 else 0) ∧
       ownSource o.record (groupPos o.record 0) 0 = some 0 ∧ sourceAt s 0 0 = .buf .a 0x40 ∧ stagedAt s 0 (.buf .a 0x40) = none ∧
       (s.coreView 0 0 .a 0x40 4).isSome = true) ∧
    (let s := (opState 4 0 .started (colRec 2 0 2 3 3)).modOp 0 fun o => { o with record := o.record.set 1 0x1000 }
     sourceAt s 0 0 = .near 0 0x1000 ∧ stagedAt s 0 (.near 0 0x1000) = none ∧ (s.translate none 1 0 0x1000 .load).toOption.isSome = true ∧
       writeDue s 0 (s.pdie 0) 0x1000 4 = false) ∧
    (let s := (opState 4 0 .started (colRec 2 0 2 0 0)).modOp 0 fun o => { o with
       record := (o.record.set 1 0x100).set 16 2, cursor := 1, got := [[1, 2, 3, 4]] }
     (s.op 0).cursor < rCount (s.op 0).record ∧ stagedAt s 0 (.buf .a 0x100) = some [1, 2, 3, 4]) ∧
    (let r := (colRec 2 3 0 0 0).set 12 0x00011600
     ownSource r (groupPos r 0) 0 = none ∧ othersBytes r (groupPos r 0) 0 = 4) := by decide

/-- A copy of one byte to A at 0x100, done up to its writes; a copy whose element is still to come from host port 0. -/
def hostRec : List Word := [0x01800000, 0, 0, 0x100, 0, 0, 0, 0, 0, 0, 0, 0, 0, 0, 0, 0, 1, 1, 1, 0]

theorem witness_EngineWriteCompleteCancel :
    (let s := (opState 2 0 .started copyRec).modOp 0 fun o => { o with cursor := 1, outs := [.buf .a 0 0x100 [1, 2, 3, 4] none none] }
     (s.op 0).stage = .started ∧ (s.op 0).engine = 2 ∧ (s.op 0).status = 0 ∧
       (s.op 0).outs[0]? = some (.buf .a 0 0x100 [1, 2, 3, 4] none none) ∧ writeTurn s (s.op 0) 0 = true ∧
       cmdTurn s 0 (.buf .a 0 0x100 [1, 2, 3, 4] none none) = true ∧ s.planted = [] ∧ 0 < s.ops.length ∧ 0 < s.cores.length ∧
       Memory.wf ((s.co 0).buf .a) = true) ∧
    (let s := opState 1 2 .started [0x40, 0x40]
     (s.op 0).stage = .started ∧ engineHere s (s.op 0) = true ∧ (s.op 0).engine = 1 ∧ (s.op 0).fn = 2 ∧
       marksApplied s (s.op 0) = true ∧ relReady s 0 = true ∧ (s.op 0).core = some (s.op 0).coreId ∧
       (s.op 0).coreId < s.cores.length ∧ Memory.wf (s.co (s.op 0).coreId).c = true) ∧
    (∀ n ∈ [0, 1], let s := (opState 2 0 .started copyRec).modOp 0 fun o => { o with cursor := n }
     (s.op 0).stage = .started ∧ engineHere s (s.op 0) = true ∧ (s.op 0).status = 0 ∧ (s.op 0).outs = [] ∧
       relReady s 0 = true ∧ rBkind (s.op 0).record ≠ 2 ∧ (s.op 0).lost = false ∧ (s.op 0).overrun = false ∧
       ((s.op 0).cursor = rCount (s.op 0).record ↔ n = 1) ∧ ((s.op 0).cursor < rCount (s.op 0).record ↔ n = 0)) ∧
    (let s := (opState 3 0 .started sortRec).modOp 0 fun o => { o with cursor := 3 }
     engineHere s (s.op 0) = true ∧ (s.op 0).outs = [] ∧ relReady s 0 = true ∧ (s.op 0).status = 0 ∧ (s.op 0).cursor =
       sKeys (s.op 0).record + sKeys (s.op 0).record * (if sPay (s.op 0).record then sBytes (s.op 0).record / 16 else 1) + 1) ∧
    (∀ st ∈ [OpStage.queued, .started], ∀ b ∈ [true, false],
      let s := (opState 2 0 st copyRec).modOp 0 fun o => { o with cancel := b }
      0 < s.ops.length ∧ (s.op 0).cancel = b ∧ (s.op 0).stage = st ∧ s.launchOfOp 0 = none) ∧
    (∀ b ∈ [true, false], let s := (opState 2 0 .started hostRec).modOp 0 fun o => { o with asked := b }
     let r := { s.mkRoute (.engine 0 2) (.host 1) (.hostRead 0 0x40 1) 1 0 with launch := none }
     let u := { s with routes := [r] }
     (s.op 0).stage = .started ∧ (s.op 0).engine = 2 ∧ (s.op 0).asked = b ∧ s.routes = [] ∧ 0 < u.ops.length ∧
       (∃ a, sourceAt s 0 (elemOffs (s.op 0).record 0).1 = .host a) ∧ (rHport (s.op 0).record = 0 ∨ rHport (s.op 0).record = 1) ∧
       u.routes[0]? = some r ∧ routeStale u r = false) ∧
    (let s := opState 2 0 .started hostRec
     0 < s.ops.length ∧ rSsp (s.op 0).record = 6 ∧ rKind (s.op 0).record = false ∧ (s.op 0).outs = [] ∧
       (s.op 0).cursor < rCount (s.op 0).record ∧ (s.op 0).status = 0 ∧ acqReady s (s.op 0) = true ∧
       sourceBusy s 0 (sourceAt s 0 (elemOffs (s.op 0).record 0).1) = false ∧
       ([7] : List Byte).length = rB (s.op 0).record) := by
  refine ⟨by decide, by decide, by decide, by decide, by decide, fun b h => ?_, by decide⟩
  cases b <;> exact ⟨by decide, by decide, by decide, by decide, by decide, ⟨_, rfl⟩, by decide, by decide, by decide⟩

/-- An `mma` with its K block taken, and with none; a host read that is stale, one that a stopped copy asked for; a port whose tags are
all in use. -/
theorem witness_EngineWriteCompleteCancel_hosts :
    (∀ n ∈ [0, 1], let s := (opState 1 0 .started [0, 0, 0, 0x10001, 0, 0, 1, 0]).modOp 0 fun o => { o with cursor := n }
     engineHere s (s.op 0) = true ∧ (s.op 0).fn = 0 ∧ marksApplied s (s.op 0) = true ∧ relReady s 0 = true ∧
       ((s.op 0).cursor = mmaBlocks (s.op 0).record ↔ n = 1)) ∧
    (∀ v ∈ [(0 : BitVec 8), 1], let s := (opState 2 0 .started hostRec).modOp 0 fun o => { o with asked := true, askedAt := v, status := 4 }
     (s.op 0).asked = true ∧ rHport (s.op 0).record = 0 ∧ ((s.die (s.opDie (s.op 0))).vintage = (s.op 0).askedAt ↔ v = 0) ∧
       (s.op 0).status ≠ 0) ∧
    (let s := opState 2 0 .started hostRec
     (s.ops.filter fun o => o.asked && rHport o.record = 0).length < 768) ∧
    let s := opState 2 0 .started hostRec
    768 ≤ ((List.replicate 768 { s.op 0 with asked := true }).filter fun o => o.asked && rHport o.record = 0).length := by
  refine ⟨by decide, by decide, by decide, ?_⟩
  show 768 ≤ (List.filter _ (List.replicate 768 _)).length
  rw [List.filter_replicate, if_pos (by decide), List.length_replicate]

/-- A collective whose one chunk is final, for A and for near memory, mapped and not; one that has written it, and one that has not read
its element yet. -/
theorem witness_EngineWriteCompleteCancel_collective :
    (∀ dp ∈ [0, 3], let s := (opState 4 0 .started (colRec 2 0 2 0 dp)).modOp 0 fun o => { o with
       record := o.record.set 3 0x1000, cursor := 1, got := [[1, 2, 3, 4]], tags := [.raw] }
     let o := s.op 0
     let ws := (chunkElems o.record 0).flatMap fun e =>
       elemWrites s 0 o.record (elemOffs (destRec o.record) e).2 (o.got.getD e []) (tagFor o.record (o.tags.getD e .raw))
     o.engine = 4 ∧ o.stage = .started ∧ o.status = 0 ∧ 0 < s.ops.length ∧ 0 < chunkCount o.record ∧ 0 ∉ o.sent ∧
       (∀ e ∈ chunkElems o.record 0, e < o.got.length) ∧ chunkTurn s 0 0 = true ∧ (∀ w ∈ ws, cmdTurn s 0 w = true) ∧ s.planted = [] ∧
       rDsp o.record = dp ∧ rBkind o.record = 0 ∧ rMask o.record = [] ∧ s.homeOf o.tid < s.cores.length ∧
       Memory.wf (s.co (s.homeOf o.tid)).a = true ∧ (s.ctx o.ctx).live = true ∧
       ws = if dp = 0 then [.buf .a 0 0x1000 [1, 2, 3, 4] (some .raw) none] else [.near 0 0x1000 [1, 2, 3, 4] none]) ∧
    (let s := opState 4 0 .started (colRec 2 0 2 0 3)
     (s.translate none 1 0 0x1000 .store).toOption.isSome = true ∧ (s.translate none 1 0 0xC0000000 .store).toOption.isSome = false ∧
       writeVas 0x1000 4 none = [0x1000]) ∧
    ∀ n ∈ [0, 1], let s := (opState 4 0 .started (colRec 2 0 2 0 0)).modOp 0 fun o => { o with cursor := n, sent := if n = 1 then [0] else [] }
      quiet s 0 = true ∧ ((s.op 0).cursor = rCount (s.op 0).record ↔ n = 1) ∧ ((s.op 0).sent.length = chunkCount (s.op 0).record ↔ n = 1) ∧
        relReady s 0 = true ∧ (s.op 0).overrun = false := by decide

/-- An operation that has stopped: a copy with its writes applied and with one on its way to an object of near memory, and a collective
that leaves a bitmap. -/
theorem witness_EngineWriteCompleteCancel_ending :
    (∀ b ∈ [true, false], let o (o : Op) : Op := { o with status := 4, rel := true, scope := 4 }
      let s := (opState 2 0 .ending (copyRec.set 12 0x20000000)).modOp 0 o
      let u := { s with routes := if b then [] else [s.mkRoute (.engine 0 2) (.die 0) (.write 0 [(0, [1])] none) 1 0] }
      (u.op 0).stage = .ending ∧ (u.op 0).rest = [] ∧ (u.op 0).engine = 2 ∧ relReady u 0 = b ∧ quiet u 0 = b) ∧
    let s := (opState 4 0 .ending noDims).modOp 0 fun o => { o with status := 3, detail := 0 }
    (s.op 0).stage = .ending ∧ relReady s 0 = true ∧ quiet s 0 = true ∧ (s.op 0).rest = [] ∧ (s.op 0).engine = 4 ∧
      (s.op 0).status = 3 ∧ cBmap (s.op 0).record ≠ 0xFFFFFFFF ∧ s.homeOf (s.op 0).tid < s.cores.length ∧
      Memory.wf (s.co (s.homeOf (s.op 0).tid)).a = true ∧ 0 < s.ops.length := by decide

/-- The copy's core has a Collie with room in its event queue. -/
theorem witness_CompletionOfOperations :
    let s := ((opState 2 0 .started copyRec).modOp 0 fun o => { o with dst := [.v 63] }).modCo 0 fun k => { k with collie := some 0 }
    0 < s.ops.length ∧ (s.op 0).stage ≠ .done ∧ (s.op 0).core = some 0 ∧ 0 < s.cores.length ∧ (s.op 0).dst = [.v 63] ∧
      63 < (s.th (s.op 0).tid).v.length ∧ (s.op 0).tid < s.threads.length ∧ (s.co 0).collie.isSome = true ∧
      (s.co 0).heldBy (s.op 0).engine = 0 ∧ (s.co 0).q0.length < Config.eventqDepth := by decide

/-- A sum over a group of two; keys that differ, and equal ones. -/
theorem witness_EngineResultLaws :
    (let o : Op := { Op.blank with atag := .i8, btag := .i4 }; intTag o.atag = true ∧ intTag o.btag = true) ∧
    (let r : List Word := [0x04000000, 0, 0, 0, 0, 0, 0, 0, 0, 0, 0, 0, 0x1040, 1, 0, 0]
     cMode r ≤ 1 ∧ cOp r = 2 ∧ rEsz r = 2 ∧ ([5] : List Word).length = groupSize r - 1 ∧ 1 ≤ ([5] : List Word).length) ∧
    let ks := [3, 1, 3]; 2 < ks.length ∧ ks.getD 1 0 < ks.getD 0 0 ∧ ks.getD 0 0 = ks.getD 2 0 := by decide

/-- One launch of one team of one warp. -/
def launched (st : LaunchStage) (w : List Word) (next : List Nat) : State := { one with
  launches := [{ Launch.blank with ctx := 1, stage := st, words := w, next := next }]
  ops := [{ Op.blank with stage := .queued, ctx := 1 }] }

/-- A pool kernel of n teams, with this word 0 and this first dependence, and a lattice kernel. -/
def poolLaunch (w0 n : Word) (a : Word × Word) : List Word := [w0, 0x100000, 0, 0, n, 1, 1, 0, a.1, 0, a.2, 0, 0, 0, 0, 0]
def latticeLaunch : List Word := [0x40000000, 0x100000, 0, 0, 0, 0, 0, 0, 0, 0, 0, 0, 0, 0, 0, 0]

/-- A ready head; one whose dependence is not mapped; one that has started. -/
theorem witness_LaunchLifeCycle :
    (let s := launched .queued (poolLaunch 0 8 (0, 0)) []
     0 < s.launches.length ∧ depBad s 0 = false ∧ headReady s 0 = true ∧ firstHead s 0 = true ∧
       lLattice (s.la 0).words = false ∧ s.planted = []) ∧
    (let s := launched .queued (poolLaunch 0 8 (0xC0000000, 0x10)) []
     isHead s 0 = true ∧ depBad s 0 = true ∧ (s.la 0).op < s.ops.length ∧ (s.op (s.la 0).op).stage ≠ .done) ∧
    isHead (launched .started (poolLaunch 0 8 (0, 0)) []) 0 = false ∧
    (let s := launched .queued (poolLaunch 0 8 (0x4000, 0x10)) []
     depBad s 0 = false ∧ headReady s 0 = false ∧ s.planted = []) ∧
    (let s := launched .queued latticeLaunch []
     depBad s 0 = false ∧ headReady s 0 = true ∧ firstHead s 0 = true ∧ lLattice (s.la 0).words = true ∧
       ∃ db, readPieces s (s.la 0).ctx (lNwin (s.la 0).words + (lw (s.la 0).words 12).toNat) 4 = some db ∧
         descBad s (wordsOf 16 db) = some 0) ∧
    (let s := (launched .queued [] []).modCtx 1 fun c => { c with words := c.words.set 10 1 }
     0 < s.ops.length ∧ launchCode s (s.op 0).ctx (poolLaunch 0 8 (0, 0)) = 0 ∧
       launchCode s (s.op 0).ctx (poolLaunch 1 8 (0, 0)) ≠ 0) ∧
    (∀ b : Bool,
      let s := { launched .started latticeLaunch [] with threads := [], cells := [Cell.blank] }.modLa 0 fun x => { x with peerLost := b }
      (s.la 0).stage = .started ∧ gridQuiet s 0 = true ∧ s.arriveDone 0 = some s ∧ (s.la 0).peerLost = b) ∧
    let s := { launched .started ((latticeLaunch.set 10 0x4000).set 11 0xC0000000) [] with threads := [], cells := [Cell.blank] }
    (s.la 0).stage = .started ∧ gridQuiet s 0 = true ∧ s.arriveDone 0 = none ∧ (s.op (s.la 0).op).stage ≠ .done :=
  ⟨by decide, by decide, by decide, by decide, ⟨by decide, by decide, by decide, by decide, _, rfl, by decide⟩, by decide,
    fun b => ⟨by cases b <;> decide, by cases b <;> decide, by cases b <;> rfl, by cases b <;> rfl⟩, by decide⟩

/-- The context of a started grid ends, whose DONE object is in memory, is not mapped, or is not asked for. -/
theorem witness_LaunchLifeCycle_ended :
    ∀ w ∈ [latticeLaunch, (latticeLaunch.set 10 0x1000).set 11 0x80000000, (latticeLaunch.set 10 0x4000).set 11 0xC0000000],
      let s := launched .started w []
      0 < s.launches.length ∧ (s.la 0).stage = .started ∧ s.planted = [] ∧ (s.la 0).op < s.ops.length ∧
        (s.op (s.la 0).op).stage ≠ .done ∧ s.launches.length = 1 := by decide

/-- Eight teams, one on each die; sixteen in packs of two, on two cores that are neighbours; a grid of higher rank. -/
theorem witness_TeamsAndPacks :
    (let s := launched .started (poolLaunch 0 8 (0, 0)) (List.range 8)
     outranked s 0 0 [0] = false ∧ (∃ u, claimed s 0 0 0 = some u) ∧ (s.la 0).next.length = s.ndie) ∧
    (let s := launched .queued (poolLaunch 0 8 (0, 0)) (List.range 8); claimed s 0 0 0 = none ∧ packed s 0 0 [0] = none) ∧
    (let s := { launched .started ((poolLaunch 0x2000 16 (0, 0)).set 7 1) ((List.range 8).map fun k => 2 * k) with
       cores := [one.co 0, { one.co 0 with bundles := [] }] }
     outranked s 0 0 [0, 1] = false ∧ (∃ u, packed (s.modLa 0 fun x => { x with packs := [(0, 0)] }) 0 0 [0, 1] = some u) ∧
       (s.la 0).next.length = s.ndie ∧ packsOn s 0 0 = [] ∧ lPack (s.la 0).words ≠ 0 ∧ leftOn s 0 0 ≠ 0 ∧ 0 < s.launches.length ∧
       outranked s 0 0 [0] = false ∧ outranked (s.modLa 0 fun x => { x with packs := [(0, 0)] }) 0 0 [0, 1] = false) ∧
    (let s := { launched .started ((poolLaunch 0x2000 16 (0, 0)).set 7 1) ((List.range 8).map fun k => 2 * k) with
       cores := [one.co 0, { one.co 0 with bundles := [] }] }
     lPack (s.la 0).words = 2 ∧ leftOn s 0 0 = 2 ∧ leftOn s 0 8 < 2 ∧ meshConnected [0, 1] = true ∧ meshConnected [0, 2] = false ∧
       lPair (s.la 0).words = false) ∧
    lTeams (poolLaunch 0x2000 16 (0, 0)) % max 1 (lPack (poolLaunch 0x2000 16 (0, 0))) = 0 ∧
    (∃ u, one.tryWarp 0 0 (poolLaunch 0 8 (0, 0)) = some u) ∧ 15 < lWidth (poolLaunch 0 8 (0, 0)) ∧
    (let s := launched .started (poolLaunch 0 8 (0, 0)) (List.range 8)
     let r := { s with launches := [s.la 0, { s.la 0 with words := poolLaunch 0x400000 8 (0, 0) }] }
     outranked r 0 0 [0] = true) ∧
    (dieShare (poolLaunch 0 16 (0, 0)) 8 1).1 ≤ 3 ∧ 3 < (dieShare (poolLaunch 0 16 (0, 0)) 8 1).2 :=
  ⟨⟨by decide, ⟨_, rfl⟩, by decide⟩, by decide, ⟨by decide, ⟨_, rfl⟩, by decide⟩, by decide, by decide, ⟨_, rfl⟩, by decide, by decide, by decide⟩

/-- Groups of threads that may stand together, and one that names a thread twice; a step with an event's turn. -/
theorem witness_BundlesAndEvents :
    ([[0, 1]] : List (List Nat)).flatten.Nodup ∧ [[0, 1]].all (bundleOk two 0) = true ∧ ¬([[0, 0]] : List (List Nat)).flatten.Nodup ∧
    (∀ st ∈ [Status.ready, .yielded], ((two.modTh 1 fun x => { x with status := st }).th 1).status = st ∧
      1 < two.threads.length ∧ two.coreOf 1 = 0) ∧
    bundleLanes one 0 ((one.co 0).bundles.getD 0 []) = [0] ∧ bundleLanes one 0 ((one.co 0).bundles.getD 1 []) = [] ∧
    (∃ u, exec .eqpop { one with turn := .event .eqpop } = .next u) ∧ one.sec.halted = false ∧ dueEvent one = none ∧
    issueTurn { one with turn := .event .eqpop } = none ∧ Instr.eqpop.isEvent = true ∧ (Instr.phaseRetire none).isEvent = false ∧
    (let s := on1 fun x => { x with meet := some x.pc }
     ∃ u, dueEvent s = some (.meetRelease 0 0x100000) ∧ exec (.meetRelease 0 0x100000) s = .next u) :=
  ⟨by decide, by decide, by decide, by decide, by decide, by decide, ⟨_, rfl⟩, by decide, by decide, by decide, rfl, rfl,
    ⟨_, by decide, rfl⟩⟩

/-- A record of the lane's fault at the head of die 0's queue, with the context live and ended. -/
def faulted (live : Bool) : State :=
  let f : FaultRec := ⟨0xC0000000, 1, 1, 0, 0, 0, 0, some 0, none, !live⟩
  { (on1 fun x => { x with status := .parked f }).modCtx 1 fun c => { c with live := live } with
    dies := [{ Die.reset with faultq := [f] }] }

theorem witness_FaultQueueAnswers :
    (0 < one.dies.length ∧ one.ioeq < Config.ioeqDepth ∧ (one.die 0).latch = [] ∧ (one.die 0).offers = [] ∧
      (one.die 0).faultq = [] ∧ (one.port 1).up = true ∧ lgoWaits one 5 = false) ∧
    (∀ b ∈ [true, false], let s := faulted b
      ∃ f, (s.die 0).faultq = [f] ∧ f.ended = !b ∧ f.tid = some 0 ∧ (s.th 0).status = .parked f ∧ f.op = none ∧
        0 < s.threads.length ∧ 0 < s.dies.length ∧ (s.co (s.coreOf 0)).ctx = f.ctx) ∧
    (∀ n ∈ [0, Config.ioeqDepth], let f : FaultRec := ⟨0, 1, 1, 0, 0, 0, 0, some 0, none, false⟩
      let s : State := { State.reset with
        dies := [{ Die.reset with latch := [.fault f] }], eventq := List.replicate n ⟨0, 0, 0, 0, 0, 0⟩ }
      (s.die 0).latch = [.fault f] ∧ (s.die 0).offers = [] ∧ 0 < s.dies.length ∧
        s.ioeq = n) := by
  refine ⟨by decide, fun b h => ?_, ?_⟩
  · rcases List.mem_cons.1 h with rfl | h
    · exact ⟨_, rfl, by decide, rfl, rfl, rfl, by decide, by decide, by decide⟩
    · rcases List.mem_singleton.1 h with rfl
      exact ⟨_, rfl, by decide, rfl, rfl, rfl, by decide, by decide, by decide⟩
  · simp [State.ioeq, State.die, Die.reset]

/-- The record of a copy that its fault has halted. -/
theorem witness_FaultQueueAnswers_commands :
    let f : FaultRec := ⟨0xC0000000, 1, 1, 0, 0, 0, 0, none, some 0, false⟩
    let s := (opState 2 0 .faulted copyRec).modDie 0 fun d => { d with faultq := [f] }
    (s.die 0).faultq = [f] ∧ f.ended = false ∧ f.op = some 0 ∧ f.tid = none ∧ (s.op 0).stage = .faulted ∧ 0 < s.ops.length ∧
      0 < s.dies.length ∧ (s.op 0).engine = 2 ∧ (s.op 0).status = 0 ∧ (s.op 0).rel = false ∧ rBkind (s.op 0).record = 0 ∧ s.routes = [] := by decide

/-- Port 0 of the small machine opens the lane's context; a posted write is still on its way. -/
def hosted : State := one.modPort 0 fun p => { p with hctx := 1, lrec := poolLaunch 0 8 (0, 0) }

/-- A write to LGO of requester 5 waits at port 0. -/
def lgoHeld : State := hosted.modPort 0 fun p => { p with lgos := [⟨5, 1, p.lrec⟩] }

theorem witness_HostAccesses :
    (hosted.port 0).up = true ∧ ((hosted.modPort 0 fun p => { p with up := false }).port 0).up = false ∧
    lgoWaits hosted 5 = false ∧ lgoWaits lgoHeld 5 = true ∧ ([1] : List Byte).length ≤ 512 ∧
    postedPending hosted 5 = false ∧
    postedPending { hosted with routes := [{ hosted.mkRoute (.host 0) (.die 0) (.posted 5 0 [1]) 1 0 with launch := none }] } 5 = true ∧
    (∃ d a, ownSite hosted (hosted.port 0).hctx 0 0 .load = some (d, a)) ∧ hosted.planted = [] ∧
    ownSite hosted (hosted.port 0).hctx 0 0xC0000000 .load = none ∧ hosted.ports.length = 2 ∧
    (hosted.ctx 9).live = false ∧ (hosted.ctx 1).live = true ∧ freeSlot (hosted.usedSlots none 0 5) = some 0 ∧
    (hosted.port 0).held.length < Config.eventHold ∧
    (let s := hosted.modPort 0 fun p => { p with held := List.replicate 16 ⟨0, 0, 0, 0, 0⟩ }
     Config.eventHold ≤ (s.port 0).held.length) ∧
    launchCode (hosted.modCtx 1 fun c => { c with words := c.words.set 10 1 }) 1 (hosted.port 0).lrec = 0 ∧
    (∃ w, (lgoHeld.port 0).lgos.find? (fun w => w.req = 5) = some w ∧ lgoReady lgoHeld 0 w = true) ∧
    ∃ w, (lgoHeld.port 0).lgos.find? (fun w => w.req = 5) = some w ∧
      lgoReady { lgoHeld with routes := [{ hosted.mkRoute (.host 0) (.die 0) (.posted 5 0 [1]) 1 0 with launch := none }] } 0 w =
        false :=
  ⟨by decide, by decide, by decide, by decide, by decide, by decide, by decide, ⟨_, _, rfl⟩, by decide, by decide, by decide,
    by decide, by decide, by decide, by decide, by decide, by decide, ⟨_, rfl, by decide⟩, _, rfl, by decide⟩

theorem witness_ControlSpace :
    State.reset.ports.length = 2 ∧ 0 < State.reset.links.length ∧ 0x10001 % 4 ≠ 0 ∧
    (∀ p : BitVec 1, (State.reset.port p).up = true ∧ 15 < (State.reset.port p).lrec.length) ∧ lgoWaits State.reset 5 = false ∧
    lgoWaits lgoHeld 5 = true ∧ 7 < State.reset.dies.length ∧ State.reset.mgmt.busy = false ∧
    ((State.reset.modPort 1 fun p => { p with up := false }).port 1).up = false ∧
    ((lgoHeld.port 0).lgos ≠ [] ∧ lgoWaits lgoHeld 6 = false ∧ (lgoHeld.port 1).up = true) ∧
    ((BitVec.ofNat 32 (2 ^ 16) : Word).toNat = 2 ^ 16) ∧ (∀ k, 4 ≤ k → k ≤ 16 → (17 : Word).toNat ≠ 2 ^ k) := by
  refine ⟨by decide, by decide, by decide, by decide, by decide, by decide, by decide, by decide, by decide, by decide, by decide,
    fun k a b => ?_⟩
  interval_cases k <;> decide

/-- A link that is up with no retry left and with all, one out of service; both sides of the time lock. -/
theorem witness_LinksAndTimeLock :
    (∀ n ∈ [0, Config.linkRetries], ∀ b ∈ [true, false], ∀ o ∈ [true, false],
      let s := State.reset.modLink 79 fun l => { l with up := b, retries := n, oos := o }
      ∃ l, s.links[79]? = some l ∧ l.up = b ∧ l.oos = o ∧ l.retries = n) ∧
    (State.reset.modLink 63 id).links[63]?.isSome = true ∧ (1 : BitVec 8) ≠ State.reset.rank ∧
    State.reset.ioeq < Config.ioeqDepth ∧ (∀ b ∈ [true, false], ({ State.reset with lock := b } : State).lock = b) := by
  refine ⟨fun n _ b _ o _ => ⟨_, rfl, rfl, rfl, rfl⟩, by decide, by decide, by decide, by decide⟩

/-- A command with this block is being carried out. -/
def commanded : State := { State.reset with mgmt := { State.reset.mgmt with busy := true } }
def cmdBlk (ws : List Word) : List Word := ws ++ List.replicate (16 - ws.length) 0

theorem witness_ManagementCommands :
    (∀ b ∈ [[1, 0x100], [2, 1], [3, 0, 0, 64, 7], [4, 0, 0, 64], [5, 0xFF], [6, 7], [6, 8], [7], [0], [8], [255]],
      Commanded commanded (b.getD 0 0).toNat (cmdBlk b) ∧ restZero (cmdBlk b) b.length = true) ∧
    (let rec_ : List Word := [5, 0, 0, 0, 0, 0, 0, 0, 0, 0, 0, 0, 0, 0, 0, 0]
     rec_.length = 16 ∧ (List.replicate 256 (0 : Word)).length = 256 ∧ contextBad commanded rec_ = false ∧
       (imageOf commanded (fld (lw rec_ 1) 0 8)).isSome = true) ∧
    (∀ b ∈ [true, false], let s := { commanded with ctxs := [{ Ctx.blank with id := 1, live := b }] }
      (s.ctx 1).live = b ∧ ((∀ c ∈ s.ctxs, c.live = false) ↔ b = false) ∧ ((∃ c ∈ s.ctxs, c.live = true) ↔ b = true) ∧
      Commanded s 5 (cmdBlk [5, 1])) ∧
    (fld (lw (cmdBlk [3, 0, 0, 64, 7]) 4) 8 24 = 0 ∧ commanded.sec.fails < 7 ∧ commanded.sec.fwVersion.length = 2 ∧
      commanded.sec.fwDigest.length = 2 ∧ (List.replicate 64 (0 : Byte)).length = (lw (cmdBlk [3, 0, 0, 64, 7]) 3).toNat ∧
      (List.replicate 64 (0 : Byte)).length = (lw (cmdBlk [4, 0, 0, 64]) 3).toNat) ∧
    (let s := { commanded with mgmt := { commanded.mgmt with result := (3, 4) } }; s.mgmt.busy = true ∧ s.mgmt.result.1 ≠ 0) ∧
    fld (lw (cmdBlk [5, 0xFF]) 1) 8 24 = 0 ∧ (lw (cmdBlk [6, 7]) 1).toNat < commanded.dies.length ∧
    (commanded.die 7).mapped = true ∧ 7 < (lw (cmdBlk [6, 8]) 1).toNat := by
  refine ⟨?_, ⟨rfl, List.length_replicate, by decide, by decide⟩, ?_, by decide, by decide, by decide, by decide, by decide, by decide⟩
  · simp only [Commanded]; decide
  · simp only [Commanded]; decide

/-- The last die; a die whose reset is to be reported; the input of the unit that counts failures. -/
theorem witness_ResetsTamperAttestation :
    (7 < State.reset.dies.length ∧ (2 : BitVec 2) ≠ 3 ∧ (State.reset.die 7).mapped = true ∧ 7 ∈ State.reset.place) ∧
    (∀ r ∈ [none, some true, some false], let s := State.reset.modDie 7 fun d => { d with resetting := r }
      7 < s.dies.length ∧ s.ioeq < Config.ioeqDepth ∧ (s.die 7).resetting = r) ∧
    (6 : BitVec 3) ≠ 7 ∧ (let s : State := { State.reset with sec := { Sec.reset with fails := 8 } }; 8 ≤ s.sec.fails) ∧
    (State.reset.port 0).up = true ∧
    (let s := launched .started (poolLaunch 0 8 (0, 0)) []
     let u := s.modOp 0 fun o => { o with engine := 5 }
     0 < u.launches.length ∧ (u.ctxs.any fun c => c.id = (u.la 0).ctx && c.live) = true ∧ (u.la 0).stage ≠ .complete ∧
       (u.la 0).op < u.ops.length ∧ (u.op (u.la 0).op).stage ≠ .done ∧ (u.op (u.la 0).op).engine = 5 ∧
       (u.op (u.la 0).op).core = none ∧ u.planted = [] ∧ 0 ∈ u.place) := by decide

/-- The start before: step 5 failed with alternative 1 at die 5, and step 7 had come to its last alternative; or step 1 failed. -/
def failedAt5 : StartRec := ⟨2, [(1, 0, 0), (1, 0, 0), (1, 0, 0), (1, 0, 0), (3, 1, 5), (0, 0, 0), (0, 2, 0), (0, 0, 0), (0, 0, 0), (0, 0, 0)]⟩
def failedAt1 : StartRec := ⟨2, (3, 0, 0) :: List.replicate 9 (0, 0, 0)⟩
def startFacts (cut : Option Nat) : StartFacts :=
  { probe := 0x0FFFFFFF, pass := List.replicate 10 true, detail := [], firmware := [1], image := [],
    links := 0, cut := cut, reprovision := [] }
def afterStart (r : StartRec) (clear : Bool) : State :=
  { State.reset with sec := { Sec.reset with history := [r], clearBoot := clear, fwDigest := [[1], [2]] } }

/-- A start that passes in every step after one that failed in step 5; starts that are cut off, that meet a step without an
alternative, that are not reached, and one after the history was marked for clearing; a start that has failed, alone and eighth. -/
theorem witness_DeviceStartAndRestart :
    (let s := afterStart failedAt5 false
     s.sec.fails < 7 ∧ s.sec.clearBoot = false ∧ s.sec.history.getLast? = some failedAt5 ∧
       failedAt5.steps[4]? = some (3, 1, 5) ∧ (5 : Word).toNat < 8 ∧
       (⟨3, (runSteps s (startFacts none) 10 0).1⟩ : StartRec).complete = true ∧ altOf s 6 = 2 ∧
       ((runSteps s (startFacts (some 3)) 10 0).1[3]?).map Prod.fst = some 5 ∧
       ((runSteps s (startFacts (some 3)) 10 0).1[4]?).map Prod.fst = some 0) ∧
    (let s := afterStart failedAt1 false; altCount.getD 0 0 < altOf s 0 ∧ (runSteps s (startFacts none) 10 0).2 = true) ∧
    (afterStart failedAt1 true).sec.clearBoot = true ∧
    (∀ n ∈ [7, 8], let r : StartRec := ⟨2, [(3, 0, 0)]⟩
      let s : State := { State.reset with sec := { Sec.reset with history := [r], restarts := n } }
      s.sec.history.getLast? = some r ∧ r.complete = false ∧ s.sec.halted = false ∧ s.sec.stopped = false ∧
        (s.sec.restarts < 8 ↔ n = 7) ∧ (8 ≤ s.sec.restarts ↔ n = 8)) ∧
    (State.reset.sec.history.getLast?.map StartRec.complete) = some true ∧
    let s : State := { State.reset with sec := { Sec.reset with halted := true }, turn := .event .eqpop }
    s.sec.halted = true ∧ ∀ f, s.turn ≠ .event (.deviceStart f) :=
  ⟨by decide, by decide, by decide, by decide, by decide, by decide, fun _ h => nomatch h⟩

/-- An EXT word with every bit of its immediate, a guard p7 inverted and the highest registers. -/
theorem witness_DecodeAndEncodeAgree :
    (∃ x w, let i := Instr.addi ⟨some { Ext.ofWord 0x1FFF with g := true, gp := 7, gn := true }, .v 63, .v 63, 0x7FF⟩
      encodeWord i = some (x, w) ∧ i.legal = true) ∧
    (∃ x w, let i := Instr.exit none; encodeWord i = some (x, w) ∧ i.legal = true) ∧
    ∃ i, decodeWord none 0x02000010 = .ok i :=
  ⟨⟨_, _, rfl, by decide⟩, ⟨_, _, rfl, by decide⟩, _, rfl⟩

/-- A fetch that reads an uncorrectable error (R174). -/
theorem witness_fetch_error :
    let s := { State.reset.withFetchWord 32 0x86000020 with planted := [⟨arrNear 0, 0x100000, 2⟩] }
    issueTurn s = some (0, 0) ∧ fetchAt { s with forced := none } 0 = .ok none 0x86000020 ∧
      (({ s with forced := none }.cacheLine 0 (s.th 0).pc).cacheLine 0 (s.th 0).pc).live 0 = false := by decide

/-- The word of `exit`, an illegal word, and a PC that is not mapped. -/
theorem witness_StepRunsTheDecodedInstruction :
    ∀ w ∈ [0x86000020, 0], let s := State.reset.withFetchWord 32 w
      let s0 := { s with forced := none }
      s.sec.halted = false ∧ dueEvent s = none ∧ issueTurn s = some (0, 0) ∧
      s.planted = [] ∧ bundleLanes s0 0 ((s.co 0).bundles.getD 0 []) = [0] ∧ fetchAt s0 0 = .ok none (BitVec.ofNat 32 w) ∧
      (∀ r ∈ (s.th 0).lc, r.desc = none) ∧ ((legalInstr (instrWords (s.th 0) none (BitVec.ofNat 32 w))).isSome ↔ w ≠ 0) ∧
      let u := { s with threads := [Thread.fresh 0 0 0 64 0xC0000000] }
      dueEvent u = none ∧ issueTurn u = some (0, 0) ∧ bundleLanes { u with forced := none } 0 ((u.co 0).bundles.getD 0 []) = [0] ∧
        ∃ k va, fetchAt { u with forced := none } 0 = .fault k va := by
  intro w h
  rcases List.mem_cons.1 h with rfl | h
  · exact ⟨by decide, by decide, by decide, rfl, by decide, by decide, by decide, by decide, by decide, by decide, by decide,
      _, _, rfl⟩
  · rcases List.mem_singleton.1 h with rfl
    exact ⟨by decide, by decide, by decide, rfl, by decide, by decide, by decide, by decide, by decide, by decide, by decide,
      _, _, rfl⟩

theorem witness_MemoryStaysCanonicalInEveryStep :
    ({ State.reset with turn := .event .eqpop } : State).MemCanonical ∧ ∃ u, step { State.reset with turn := .event .eqpop } = .next u :=
  ⟨by simp [State.MemCanonical, State.reset, Die.reset, Memory.wf]; try decide, _, rfl⟩

theorem witness_MemoryReadsWhatWasWritten :
    Memory.wf [⟨3, 1⟩, ⟨4, 2⟩] = true ∧ ∀ a, Memory.read1 [⟨3, 1⟩, ⟨4, 2⟩] a = Memory.read1 [⟨3, 1⟩, ⟨4, 2⟩] a :=
  ⟨by decide, fun _ => rfl⟩

end Sys2Proof.Tests
end

section
/-! PROOF. How a three-register instruction of chapter 7 meets its row; the division laws of R118 and R119; what the bit counts of
R122 mean; from these, O4. -/

namespace Sys2Proof.Machine

/-! ### Rows of three registers -/

/-- An instruction that runs its three-register job with a plain lane function (no tag refused, no codebook) holds its row. -/
theorem rowR3_holds {i : Instr} {w : R3} {fn : LaneFn} {g : Word → Word → FnOut} (he : ∀ s, exec i s = runJob (r3Job w fn) s)
    (hv : ∀ vals ts, fn.eval vals ts [] = g (vals.getD 0 0) (vals.getD 1 0)) (ht : ∀ ts, fn.tagsOk ts = true)
    (hc : ∀ ts, fn.usesCb ts = false) : (rowR3 w g).Holds i :=
  row_fn (j := r3Job w fn) (f := fn) he rfl rfl rfl rfl rfl rfl rfl (fun _ _ _ => ht _) (fun _ _ => hc _)
    (fun _ _ vals _ _ => hv vals _)

/-! ### Division (R118, R119) -/

/-- The signed quotient and remainder give the dividend back. -/
theorem divS_mul_add_tmod (a b : Word) (hb : b ≠ 0) :
    divS a b * b + BitVec.ofInt 32 (a.toInt.tmod b.toInt) = a :=
  calc divS a b * b + BitVec.ofInt 32 (a.toInt.tmod b.toInt)
      = BitVec.ofInt 32 (a.toInt.tdiv b.toInt * b.toInt + a.toInt.tmod b.toInt) := by
        rw [divS, if_neg hb, BitVec.ofInt_add, BitVec.ofInt_mul, BitVec.ofInt_toInt]
    _ = a := by rw [Int.tdiv_mul_add_tmod, BitVec.ofInt_toInt]

/-- The unsigned quotient and remainder give the dividend back. -/
theorem divU_mul_add_mod (a b : Word) (hb : b ≠ 0) :
    divU a b * b + BitVec.ofNat 32 (a.toNat % b.toNat) = a :=
  calc divU a b * b + BitVec.ofNat 32 (a.toNat % b.toNat)
      = BitVec.ofNat 32 (a.toNat / b.toNat * b.toNat + a.toNat % b.toNat) := by
        rw [divU, if_neg hb, BitVec.ofNat_add, BitVec.ofNat_mul, BitVec.ofNat_toNat, BitVec.setWidth_eq]
    _ = a := by rw [Nat.div_add_mod', BitVec.ofNat_toNat, BitVec.setWidth_eq]

/-- `rem` computes its remainder by a product and a difference (R119). -/
theorem sub_mul_divS (a b : Word) (hb : b ≠ 0) : a - b * divS a b = BitVec.ofInt 32 (a.toInt.tmod b.toInt) := by
  rw [BitVec.mul_comm b, sub_eq_iff_eq_add', divS_mul_add_tmod a b hb]

theorem sub_mul_divU (a b : Word) (hb : b ≠ 0) : a - b * divU a b = BitVec.ofNat 32 (a.toNat % b.toNat) := by
  rw [BitVec.mul_comm b, sub_eq_iff_eq_add', divU_mul_add_mod a b hb]

theorem eval_rem (xs : List Word) (ts : List Tag) (cb : List (BitVec 16)) :
    LaneFn.rem.eval xs ts cb = outW (if xs.getD 1 0 = 0 then xs.getD 0 0 else
      BitVec.ofInt 32 ((xs.getD 0 0).toInt.tmod (xs.getD 1 0).toInt)) := by
  by_cases hb : xs.getD 1 0 = 0
  · simp only [LaneFn.eval, if_pos hb]
  · simp only [LaneFn.eval, if_neg hb, sub_mul_divS _ _ hb]

theorem eval_remu (xs : List Word) (ts : List Tag) (cb : List (BitVec 16)) :
    LaneFn.remu.eval xs ts cb = outW (if xs.getD 1 0 = 0 then xs.getD 0 0 else
      BitVec.ofNat 32 ((xs.getD 0 0).toNat % (xs.getD 1 0).toNat)) := by
  by_cases hb : xs.getD 1 0 = 0
  · simp only [LaneFn.eval, if_pos hb]
  · simp only [LaneFn.eval, if_neg hb, sub_mul_divU _ _ hb]

/-- The signed remainder is smaller in magnitude than the divisor. -/
theorem natAbs_tmod_lt (a b : Word) (hb : b ≠ 0) : (a.toInt.tmod b.toInt).natAbs < b.toInt.natAbs := by
  have hne : b.toInt ≠ 0 := fun h => hb (BitVec.toInt_inj.mp (h.trans BitVec.toInt_zero.symm))
  rw [Int.natAbs_tmod]
  exact Nat.mod_lt _ (Int.natAbs_pos.mpr hne)

/-- A dividend that is not positive leaves no positive remainder. -/
theorem tmod_nonpos_of_nonpos {a : Int} (b : Int) (ha : a ≤ 0) : a.tmod b ≤ 0 := by
  have h := Int.tmod_nonneg b (Int.neg_nonneg.mpr ha)
  rwa [Int.neg_tmod, Int.neg_nonneg] at h

/-- The row holds of all four; the values of the table are the branch b = 0 and one quotient that wraps. -/
theorem divisionNeverTraps : Claims.DivisionNeverTraps := by
  refine ⟨fun w => ⟨_, rfl, ?div, fun _ => if_pos rfl, by decide⟩, fun w => ⟨_, rfl, ?rem, fun _ => if_pos rfl, by decide⟩,
    fun w => ⟨_, rfl, ?divu, fun _ => if_pos rfl, by decide⟩, fun w => ⟨_, rfl, ?remu, fun _ => if_pos rfl, by decide⟩,
    fun w => ⟨_, _, rfl, rfl, by decide⟩⟩
  case div => exact rowR3_holds (fn := .div) (fun _ => rfl) (fun _ _ => rfl) (fun _ => rfl) (fun _ => rfl)
  case rem => exact rowR3_holds (fn := .rem) (fun _ => rfl) (fun _ _ => eval_rem _ _ _) (fun _ => rfl) (fun _ => rfl)
  case divu => exact rowR3_holds (fn := .divu) (fun _ => rfl) (fun _ _ => rfl) (fun _ => rfl) (fun _ => rfl)
  case remu => exact rowR3_holds (fn := .remu) (fun _ => rfl) (fun _ _ => eval_remu _ _ _) (fun _ => rfl) (fun _ => rfl)

theorem divisionLaws : Claims.DivisionLaws := by
  intro a b hb
  have hrem : (LaneFn.rem.eval [a, b] [] []).vals = [BitVec.ofInt 32 (a.toInt.tmod b.toInt)] := by
    simp only [eval_rem, outW, List.getD_cons_zero, List.getD_cons_succ, if_neg hb]
  have hremu : (LaneFn.remu.eval [a, b] [] []).vals = [BitVec.ofNat 32 (a.toNat % b.toNat)] := by
    simp only [eval_remu, outW, List.getD_cons_zero, List.getD_cons_succ, if_neg hb]
  exact ⟨hrem, hremu, Int.tmod_nonneg _, tmod_nonpos_of_nonpos _, natAbs_tmod_lt a b hb, divU_mul_add_mod a b hb,
    divS_mul_add_tmod a b hb⟩

/-! ### Bit counts (R122) -/

theorem clzNat_le (a : Word) : ∀ n, clzNat n a ≤ n
  | 0 => Nat.le_refl 0
  | n + 1 => by
    have ih := clzNat_le a n
    rw [clzNat]
    split <;> omega

/-- The bits that `clzNat` counts are clear. -/
theorem getLsbD_eq_false_of_clzNat (a : Word) : ∀ n i, n - clzNat n a ≤ i → i < n → a.getLsbD i = false
  | 0, i, _, hi => absurd hi (Nat.not_lt_zero i)
  | n + 1, i, hl, hi => by
    rw [clzNat] at hl
    split at hl
    · omega
    · next hn =>
      rcases Nat.lt_succ_iff_lt_or_eq.mp hi with hlt | rfl
      · exact getLsbD_eq_false_of_clzNat a n i (by omega) hlt
      · simpa using hn

/-- The bit below them is set, if there is one. -/
theorem getLsbD_eq_true_below_clzNat (a : Word) : ∀ n, clzNat n a < n → a.getLsbD (n - 1 - clzNat n a) = true
  | 0, h => absurd h (Nat.not_lt_zero _)
  | n + 1, h => by
    rw [clzNat] at h ⊢
    split
    · next hn => simpa using hn
    · next hn =>
      rw [if_neg hn] at h
      rw [show n + 1 - 1 - (1 + clzNat n a) = n - 1 - clzNat n a by omega]
      exact getLsbD_eq_true_below_clzNat a n (by omega)

theorem ctzNat_le (a : Word) : ∀ n k, ctzNat n k a ≤ n
  | 0, _ => Nat.le_refl 0
  | n + 1, k => by
    have ih := ctzNat_le a n (k + 1)
    rw [ctzNat]
    split <;> omega

/-- From bit k on, the bits that `ctzNat` counts are clear. -/
theorem getLsbD_eq_false_of_ctzNat (a : Word) : ∀ n k i, i < ctzNat n k a → a.getLsbD (k + i) = false
  | 0, _, i, h => absurd h (Nat.not_lt_zero i)
  | n + 1, k, i, h => by
    rw [ctzNat] at h
    split at h
    · omega
    · next hk =>
      cases i with
      | zero => simpa using hk
      | succ i =>
        rw [← Nat.succ_add_eq_add_succ]
        exact getLsbD_eq_false_of_ctzNat a n (k + 1) i (by omega)

/-- The bit above them is set, if there is one. -/
theorem getLsbD_eq_true_above_ctzNat (a : Word) : ∀ n k, ctzNat n k a < n → a.getLsbD (k + ctzNat n k a) = true
  | 0, _, h => absurd h (Nat.not_lt_zero _)
  | n + 1, k, h => by
    rw [ctzNat] at h ⊢
    split
    · next hk => simpa using hk
    · next hk =>
      rw [if_neg hk] at h
      rw [← Nat.add_assoc]
      exact getLsbD_eq_true_above_ctzNat a n (k + 1) (by omega)

/-- `popNat` counts the set bits among the lowest n. -/
theorem popNat_eq (n x : Nat) : popNat n x = (List.range n).countP x.testBit := by
  induction n generalizing x with
  | zero => rfl
  | succ n ih =>
    have hshift : (x.testBit ∘ Nat.succ) = (x / 2).testBit := funext (Nat.testBit_succ x)
    have hlow : x % 2 = if x.testBit 0 then 1 else 0 := by
      rcases Nat.mod_two_eq_zero_or_one x with h | h <;> simp [Nat.testBit_zero, h]
    rw [popNat, ih, List.range_succ_eq_map, List.countP_cons, List.countP_map, hshift, hlow, Nat.add_comm]

/-- `revBits` puts the lowest n bits of w in reverse order below r. -/
theorem testBit_revBits (n w r i : Nat) :
    (revBits n w r).testBit i = if i < n then w.testBit (n - 1 - i) else r.testBit (i - n) := by
  induction n generalizing w r with
  | zero => simp [revBits]
  | succ n ih =>
    rw [revBits, ih]
    rcases Nat.lt_trichotomy i n with h | rfl | h
    · rw [if_pos h, if_pos (by omega), ← Nat.testBit_succ]
      congr 1
      omega
    · have hlow : (2 * r + w % 2) % 2 = w % 2 := by omega
      simp [Nat.testBit_zero, hlow]
    · rw [if_neg (by omega), if_neg (by omega), show i - n = (i - (n + 1)).succ by omega, Nat.testBit_succ]
      congr 1
      omega

theorem bitCounts : Claims.BitCounts := by
  intro a
  refine ⟨⟨clzNat_le a 32, fun i hi => ?_, getLsbD_eq_true_below_clzNat a 32⟩,
    ⟨ctzNat_le a 32 0, fun i hi => ?_, fun h => ?_⟩, ?_, fun i hi => ?_⟩
  · by_cases h : i < 32
    · exact getLsbD_eq_false_of_clzNat a 32 i hi h
    · exact BitVec.getLsbD_of_ge a i (Nat.not_lt.mp h)
  · simpa using getLsbD_eq_false_of_ctzNat a 32 0 i hi
  · simpa using getLsbD_eq_true_above_ctzNat a 32 0 h
  · rw [popNat_eq, List.countP_eq_length_filter]
    rfl
  · rw [BitVec.getLsbD_ofNat, testBit_revBits, if_pos hi]
    simp [hi, BitVec.getLsbD]

/-- Settles O4: each division's job gives its row (`divisionNeverTraps`), quotient and remainder obey the laws of truncated division
(`divisionLaws`), and the recursions of the bit counts are followed bit by bit (`bitCounts`). -/
theorem divisionLawsAndBitCounts : Obligations.DivisionLawsAndBitCounts :=
  ⟨divisionNeverTraps, divisionLaws, bitCounts⟩

end Sys2Proof.Machine
end

section
/-! PROOF. What the model's operations on the state leave of the grace counters G and GDONE (R289): all of them leave both. -/

namespace Sys2Proof.Machine

/-- G and GDONE (R289) are in u what they are in s. -/
@[simp] abbrev SameCounters (s u : State) : Prop := u.g = s.g ∧ u.gdone = s.gdone

theorem SameCounters.trans {s u v : State} (h : SameCounters s u) (k : SameCounters u v) : SameCounters s v :=
  ⟨k.1.trans h.1, k.2.trans h.2⟩

theorem SameCounters.of_eq {s u v : State} (h : u = v) (k : SameCounters s v) : SameCounters s u := h ▸ k

theorem Guarded.counters {s u : State} (h : Guarded s u) : SameCounters s u := .of_eq h ⟨rfl, rfl⟩

theorem SameCounters.ite {c : Prop} [Decidable c] {s u v : State} (hu : SameCounters s u) (hv : SameCounters s v) :
    SameCounters s (if c then u else v) := by
  split
  · exact hu
  · exact hv

/-- A branch is taken on either counter alone. -/
theorem ite_counters (c : Prop) [Decidable c] (s u : State) :
    (if c then s else u).g = (if c then s.g else u.g) ∧ (if c then s else u).gdone = if c then s.gdone else u.gdone :=
  ⟨apply_ite State.g c s u, apply_ite State.gdone c s u⟩

/-- A fold of steps that each leave the counters leaves them. -/
@[simp] theorem foldl_counters {α : Type} {f : State → α → State} (h : ∀ s x, SameCounters s (f s x)) (l : List α)
    (s : State) : SameCounters s (l.foldl f s) := by
  induction l generalizing s with
  | nil => exact ⟨rfl, rfl⟩
  | cons x l ih => exact (h s x).trans (ih (f s x))

@[simp] theorem foldl_fst_counters {α β : Type} {f : State × β → α → State × β} (h : ∀ r x, SameCounters r.1 (f r x).1)
    (l : List α) (r : State × β) : SameCounters r.1 (l.foldl f r).1 := by
  induction l generalizing r with
  | nil => exact ⟨rfl, rfl⟩
  | cons x l ih => exact (h r x).trans (ih (f r x))

theorem getD_counters {s u : State} {o : Option State} (h : ∀ v ∈ o, SameCounters s v) (hu : SameCounters s u) :
    SameCounters s (o.getD u) := by
  cases o with
  | none => exact hu
  | some v => exact h v rfl

@[simp] theorem State.eccWrite_counters (s : State) (arr : BitVec 16) (a n : Nat) : SameCounters s (s.eccWrite arr a n) :=
  .of_eq (s.eccWrite_only arr a n) ⟨rfl, rfl⟩

@[simp] theorem State.raiseVec_counters (s : State) (p : BitVec 1) (v : Word) : SameCounters s (s.raiseVec p v) :=
  .of_eq (s.raiseVec_only p v) ⟨rfl, rfl⟩

@[simp] theorem State.raiseBoth_counters (s : State) (v : Word) : SameCounters s (s.raiseBoth v) :=
  .of_eq (s.raiseBoth_only v) ⟨rfl, rfl⟩

@[simp] theorem State.pushEvent_counters (s : State) (e : EventRec) : SameCounters s (s.pushEvent e) :=
  .of_eq (s.pushEvent_only e) ⟨rfl, rfl⟩

@[simp] theorem State.ioEvent_counters (s : State) (k so : BitVec 8) (d : BitVec 16) : SameCounters s (s.ioEvent k so d) :=
  .of_eq (s.ioEvent_only k so d) ⟨rfl, rfl⟩

@[simp] theorem State.enterFault_counters (s : State) (d : Nat) (f : FaultRec) : SameCounters s (s.enterFault d f) :=
  .of_eq (s.enterFault_only d f) ⟨rfl, rfl⟩

theorem State.takeFault_counters (s : State) (d : Nat) (f : FaultRec) : ∀ u ∈ s.takeFault d f, SameCounters s u :=
  fun _ h => .of_eq (State.takeFault_only h) ⟨rfl, rfl⟩

@[simp] theorem State.reportFault_counters (s : State) (d : Nat) (f : FaultRec) : SameCounters s (s.reportFault d f) :=
  .of_eq (s.reportFault_only d f) ⟨rfl, rfl⟩

@[simp] theorem State.eccRead_counters (s : State) (arr : BitVec 16) (a n : Nat) (c : Word) (d : Nat) :
    SameCounters s (s.eccRead arr a n c d).1 := (s.eccRead_guarded arr a n c d).counters

@[simp] theorem State.setNear_counters (s : State) (d a : Nat) (bs : List Byte) : SameCounters s (s.setNear d a bs) :=
  .of_eq (s.setNear_only d a bs) ⟨rfl, rfl⟩

@[simp] theorem State.bufWrite_counters (s : State) (c : Nat) (sp : Space) (a : Nat) (bs : List Byte) :
    SameCounters s (s.bufWrite c sp a bs) := .of_eq (s.bufWrite_only c sp a bs) ⟨rfl, rfl⟩

@[simp] theorem State.bufWriteTag_counters (s : State) (c : Nat) (sp : Space) (a : Nat) (bs : List Byte) (t : Option Tag) :
    SameCounters s (s.bufWriteTag c sp a bs t) := .of_eq (s.bufWriteTag_only c sp a bs t) ⟨rfl, rfl⟩

@[simp] theorem State.discardCopies_counters (s : State) (c : Nat) : SameCounters s (s.discardCopies c) := ⟨rfl, rfl⟩

@[simp] theorem State.discardAllCopies_counters (s : State) : SameCounters s s.discardAllCopies := ⟨rfl, rfl⟩

@[simp] theorem State.fillLine_counters (s : State) (c d l : Nat) : SameCounters s (s.fillLine c d l) := ⟨rfl, rfl⟩

@[simp] theorem State.refreshCopy_counters (s : State) (c d a n : Nat) : SameCounters s (s.refreshCopy c d a n) := ⟨rfl, rfl⟩

@[simp] theorem State.passCopies_counters (s : State) (d a n : Nat) : SameCounters s (s.passCopies d a n) := ⟨rfl, rfl⟩

@[simp] theorem State.tlbFill_counters (s : State) (co : Option Nat) (c : Word) (l va : Nat) (p : Pte) :
    SameCounters s (s.tlbFill co c l va p) := (s.tlbFill_guarded co c l va p).counters

@[simp] theorem State.setStatus_counters (s : State) (t : Nat) (st : Status) : SameCounters s (s.setStatus t st) := ⟨rfl, rfl⟩

@[simp] theorem State.fillRegs_counters (s : State) (t : Nat) (rs : List RegRef) (ws : List Word) (g : Tag) :
    SameCounters s (s.fillRegs t rs ws g) := .of_eq (State.fillRegs_only t g rs ws s) ⟨rfl, rfl⟩

@[simp] theorem State.markAll_counters (s : State) (t : Nat) (rs : List RegRef) : SameCounters s (s.markAll t rs) :=
  .of_eq (State.markAll_only t rs s) ⟨rfl, rfl⟩

@[simp] theorem State.addFlags_counters (s : State) (t : Nat) (f : Flags) : SameCounters s (s.addFlags t f) := ⟨rfl, rfl⟩

@[simp] theorem State.retire_counters (s : State) (t n : Nat) : SameCounters s (s.retire t n) := ⟨rfl, rfl⟩

@[simp] theorem State.jump_counters (s : State) (t : Nat) (w : Word) (n : Nat) : SameCounters s (s.jump t w n) :=
  .of_eq (s.jump_only t w n) ⟨rfl, rfl⟩

@[simp] theorem State.toFifo_counters (s : State) (t : Nat) (e : Entry) : SameCounters s (s.toFifo t e) := ⟨rfl, rfl⟩

@[simp] theorem State.growNew_counters (s : State) (t n : Nat) (f : Entry → Entry) : SameCounters s (s.growNew t n f) :=
  ⟨rfl, rfl⟩

@[simp] theorem State.admitRing_counters (n : Nat) (s : State) (p : BitVec 1) : SameCounters s (s.admitRing n p) :=
  .of_eq (State.admitRing_only p n s) ⟨rfl, rfl⟩

@[simp] theorem State.completeOp_counters (s : State) (i : Nat) (st : BitVec 16) (de : Word) (vs : List Word) :
    SameCounters s (s.completeOp i st de vs) := (s.completeOp_guarded i st de vs).counters

@[simp] theorem State.stopOp_counters (s : State) (i : Nat) (st : BitVec 16) (de : Word) : SameCounters s (s.stopOp i st de) :=
  ⟨rfl, rfl⟩

@[simp] theorem State.putArrive_counters (s : State) (d a : Nat) : SameCounters s (s.putArrive d a) :=
  (s.putArrive_guarded d a).counters

@[simp] theorem State.endCtx_counters (s : State) (c : Word) (st : BitVec 16) (de : Word) : SameCounters s (s.endCtx c st de) :=
  (s.endCtx_guarded c st de).counters

@[simp] theorem State.eccGuard_counters (s : State) (arr : BitVec 16) (a n : Nat) (c : Word) (d : Nat) :
    SameCounters s (s.eccGuard arr a n c d).1 := (s.eccGuard_guarded arr a n c d).counters

@[simp] theorem State.walkEcc_counters (s : State) (co : Option Nat) (c : Word) (l va : Nat) :
    SameCounters s (s.walkEcc co c l va) := (s.walkEcc_guarded co c l va).counters

@[simp] theorem State.useXlate_counters (s : State) (co : Option Nat) (c : Word) (l va : Nat) (p : Pte) :
    SameCounters s (s.useXlate co c l va p) := (s.useXlate_guarded co c l va p).counters

@[simp] theorem State.park_counters (s : State) (t : Nat) (f : FaultRec) : SameCounters s (s.park t f) :=
  (s.park_guarded t f).counters

@[simp] theorem State.parkOwing_counters (s : State) (t : Nat) (f : FaultRec) (dst : List RegRef) :
    SameCounters s (s.parkOwing t f dst) := by simp [State.parkOwing]

@[simp] theorem State.placeWrite_counters (s : State) (p : Place) (a : Nat) (bs : List Byte) :
    SameCounters s (s.placeWrite p a bs) := by cases p <;> simp [State.placeWrite]

@[simp] theorem State.placeEcc_counters (s : State) (p : Place) (a n : Nat) (c : Word) :
    SameCounters s (s.placeEcc p a n c).1 := by cases p <;> simp [State.placeEcc]

@[simp] theorem State.partEcc_counters (s : State) (p : Place) (a n : Nat) (c : Word) :
    SameCounters s (s.partEcc p a n c).1 := by simp [State.partEcc, apply_ite Prod.fst, ite_counters]

@[simp] theorem State.readsEcc_counters (s : State) (c : Word) (sites : List (Place × Nat × Nat)) :
    SameCounters s (s.readsEcc c sites).1 := by simp [State.readsEcc, apply_ite Prod.fst, ite_counters]

@[simp] theorem State.deliverTrap_counters (s : State) (t : Nat) (i : TrapInfo) : SameCounters s (s.deliverTrap t i) :=
  .of_eq (s.deliverTrap_only t i) ⟨rfl, rfl⟩

@[simp] theorem State.takeTrap_counters (s : State) (t : Nat) (c : Word) (a : BitVec 64) (r : Word) :
    SameCounters s (s.takeTrap t c a r) := .of_eq (s.takeTrap_only t c a r) ⟨rfl, rfl⟩

@[simp] theorem State.faultTrap_counters (s : State) (t c d : Nat) (a : BitVec 64) : SameCounters s (s.faultTrap t c d a) := by
  simp [State.faultTrap]

@[simp] theorem State.illegal_counters (s : State) (t : Nat) : SameCounters s (s.illegal t) := by simp [State.illegal]

@[simp] theorem State.exitThread_counters (s : State) (t : Nat) : SameCounters s (s.exitThread t) :=
  .of_eq (s.exitThread_only t) ⟨rfl, rfl⟩

@[simp] theorem State.cacheLine_counters (s : State) (t : Nat) (pc : Word) : SameCounters s (s.cacheLine t pc) :=
  (s.cacheLine_guarded t pc).counters

end Sys2Proof.Machine
end

section
/-! PROOF. Executing a job, lane by lane, leaves the grace counters. -/

namespace Sys2Proof.Machine

/-! ### Lanes -/

theorem laneStep_counters {act start : State → Nat → State} (ha : ∀ s t, SameCounters s (act s t))
    (hs : ∀ s t, SameCounters s (start s t)) (chk : Check) (s : State) (t : Nat) :
    SameCounters s (laneStep chk act start s t) := by
  cases chk with
  | ok => exact ha s t
  | start => simp [laneStep, hs s t]
  | _ => simp [laneStep]

@[simp] theorem followStep_counters (x : Option Ext) (l : Nat) (chk : Check) (s : State) (t : Nat) :
    SameCounters s (followStep x l chk s t) := by
  unfold followStep
  split
  case h_3 => split <;> simp
  all_goals simp

theorem runLanes_counters {act start : State → Nat → State} (ha : ∀ s t, SameCounters s (act s t))
    (hs : ∀ s t, SameCounters s (start s t)) (x : Option Ext) (once : Bool) (chk : State → Nat → Check) (s : State) :
    SameCounters s (runLanes x once chk act start s) := by
  unfold runLanes
  extract_lets on off s1 key checks isTrap
  have retired : SameCounters s s1 := by simp [s1]
  split
  · refine retired.trans (foldl_counters (fun s c => ?_) _ _)
    split
    · split <;> simp
    · simp
  · refine retired.trans (foldl_counters (fun s c => ?_) _ _)
    split
    · simp
    · split
      · exact laneStep_counters ha hs _ _ _
      · simp

theorem runPlain_counters {act : State → Nat → State} (ha : ∀ s t, SameCounters s (act s t)) (x : Option Ext) (once : Bool)
    (chk : State → Nat → Check) (s : State) : SameCounters s (runPlain x once chk act s) :=
  runLanes_counters ha (fun _ _ => ⟨rfl, rfl⟩) x once chk s

theorem withReads_counters {run : State → State} (hr : ∀ s, SameCounters s (run s)) (x : Option Ext) (once : Bool)
    (sites : State → Nat → List (Place × Nat × Nat)) (s : State) : SameCounters s (withReads x once sites run s) := by
  unfold withReads
  extract_lets on lanes r
  have read : SameCounters s r.1 := foldl_fst_counters (fun r t => by split <;> simp) lanes (s, false)
  split
  · exact read
  · exact read.trans (hr _)

@[simp] theorem orWait_counters {s u : State} (h : SameCounters s u) (ok : Bool) (t : Nat) :
    SameCounters s (orWait ok s t u) := by
  unfold orWait
  split
  · exact h
  · simp

@[simp] theorem State.touchWrites_counters (s : State) (sites : List (Place × Nat × Nat)) :
    SameCounters s (s.touchWrites sites) :=
  foldl_counters (fun s x => by split <;> simp) sites s

@[simp] theorem State.chanPush_counters (s : State) (c off : Nat) (ch : Chan) (w : Word) :
    SameCounters s (s.chanPush c off ch w) := by simp [State.chanPush]

@[simp] theorem State.chanPop_counters (s : State) (c off : Nat) (ch : Chan) : SameCounters s (s.chanPop c off ch).1 := by
  simp [State.chanPop]

@[simp] theorem State.q0Pop_counters (s : State) (t : Nat) : SameCounters s (s.q0Pop t) := by
  unfold State.q0Pop
  dsimp only
  split
  · simp
  · split <;> simp

@[simp] theorem State.givePop_counters (s : State) (t k : Nat) (w : Word) : SameCounters s (s.givePop t k w) := ⟨rfl, rfl⟩

@[simp] theorem State.completeDeferred_counters (s : State) (t i : Nat) : SameCounters s (s.completeDeferred t i) := by
  unfold State.completeDeferred
  split
  · simp
  · extract_lets vals e
    split
    · simp [e]
    · split <;> simp +zetaDelta

@[simp] theorem State.settlePops_counters (s : State) (t : Nat) : SameCounters s (s.settlePops t) := by
  unfold State.settlePops
  split <;> simp

@[simp] theorem State.issuePop_counters (s : State) (t q k : Nat) : SameCounters s (s.issuePop t q k) := by
  unfold State.issuePop
  split
  · dsimp only
    split <;> simp
  · split <;> simp

@[simp] theorem State.issuePops_counters (s : State) (t k : Nat) (qs : List Nat) : SameCounters s (s.issuePops t k qs) := by
  induction qs generalizing s k with
  | nil => simp [State.issuePops]
  | cons q qs ih => simp [State.issuePops, ih]

@[simp] theorem State.startPops_counters (s : State) (t : Nat) (qs : List Nat) : SameCounters s (s.startPops t qs) := by
  simp [State.startPops]

@[simp] theorem State.pushQ_counters (s : State) (t q : Nat) (w : Word) : SameCounters s (s.pushQ t q w) := by
  unfold State.pushQ
  split
  · simp [ite_counters]
  · split <;> simp

@[simp] theorem State.usePops_counters (s : State) (t : Nat) : SameCounters s (s.usePops t) := by
  simp [State.usePops, ite_counters]

theorem tryPops_counters (t : Nat) (qs : List Nat) (s : State) : ∀ r ∈ tryPops s t qs, SameCounters s r.1 := by
  induction qs generalizing s with
  | nil => simp [tryPops]
  | cons q qs ih =>
    intro r h
    unfold tryPops at h
    extract_lets c step at h
    have popped : ∀ x ∈ step, SameCounters s x.1 := by
      intro x hx
      unfold step at hx
      split at hx
      · split at hx <;> simp at hx
        simp [← hx]
      · split at hx
        · simp at hx
        · split at hx
          · simp at hx
          · split at hx <;> simp at hx
            simp [← hx]
    cases hs : step with
    | none => simp [hs] at h
    | some x =>
      simp only [hs, Option.mem_def, Option.map_eq_some_iff] at h
      obtain ⟨y, hy, rfl⟩ := h
      exact (popped x hs).trans (ih x.1 y hy)

theorem tryPush_counters (s : State) (t q : Nat) (w : Word) : ∀ u ∈ tryPush s t q w, SameCounters s u := by
  intro u h
  unfold tryPush at h
  split at h
  · split at h <;> simp at h; simp [← h]
  · split at h
    · cases h
    · dsimp only at h
      split at h
      · cases h
      · split at h <;> simp at h; simp [← h]

@[simp] theorem State.setP_counters (s : State) (t : Nat) (p : BitVec 3) (v : Bool) : SameCounters s (s.setP t p v) :=
  ⟨rfl, rfl⟩

@[simp] theorem State.writeDst_counters (s : State) (t : Nat) (d : Operand) (dst : List RegRef) (o : FnOut) :
    SameCounters s (s.writeDst t d dst o) := by
  unfold State.writeDst
  split <;> simp

@[simp] theorem Job.finish_counters (j : Job) (s : State) (t : Nat) (vals : List Word) : SameCounters s (j.finish s t vals) := by
  unfold Job.finish
  dsimp only
  split
  case h_5 => split <;> simp
  all_goals simp

theorem Job.actN_counters (j : Job) (s : State) (t : Nat) : SameCounters s (j.actN s t) := by
  unfold Job.actN
  extract_lets slots made
  have kept : ∀ u ∈ made, SameCounters s u := by
    intro u hu
    unfold made at hu
    split at hu
    · cases hu
    · next s1 ws hp =>
      have popped : SameCounters s s1 := tryPops_counters t _ s _ hp
      split at hu
      · simp only [Option.mem_def, Option.map_eq_some_iff] at hu
        obtain ⟨s2, h2, rfl⟩ := hu
        refine popped.trans ((tryPush_counters _ _ _ _ _ h2).trans ?_)
        split
        · split <;> simp
        · simp
      · simp only [Option.mem_def, Option.some.injEq] at hu
        subst hu
        exact popped.trans (j.finish_counters s1 t _)
  cases hm : made with
  | none => simp
  | some u => exact (kept u hm).trans (by simp)

theorem Job.act_counters (j : Job) (s : State) (t : Nat) : SameCounters s (j.act s t) := by
  unfold Job.act
  dsimp only
  split
  · exact j.actN_counters s t
  · split <;> simp

theorem Job.start_counters (j : Job) (s : State) (t : Nat) : SameCounters s (j.start s t) := by simp [Job.start]

/-- The next state, if the outcome is one, has the counters of s. -/
def CountersKept (s : State) (o : Host.Outcome State Fault Refusal) : Prop := ∀ u, o = .next u → SameCounters s u

theorem CountersKept.next {s u : State} (h : SameCounters s u) : CountersKept s (.next u) := by
  rintro _ ⟨⟩
  exact h

/-- An instruction of chapter 7. -/
theorem runJob_counters (j : Job) (s : State) : CountersKept s (runJob j s) :=
  .next (withReads_counters (runLanes_counters j.act_counters j.start_counters j.x j.d.isS j.check) _ _ _ s)

end Sys2Proof.Machine
end

section
/-! PROOF. The memory port, the reference machine's accesses and the barriers leave the grace counters. -/

namespace Sys2Proof.Machine

/-! ### The memory port -/

@[simp] theorem State.keepXlate_counters (s : State) (t : Nat) (ea : Word) (p : Option Pte) :
    SameCounters s (s.keepXlate t ea p) := by
  cases p <;> simp [State.keepXlate]

@[simp] theorem pushLoad_counters (s : State) (t : Nat) (l : Load) : SameCounters s (pushLoad s t l) := by simp [pushLoad]

theorem runLoad_counters (w : MW) (sp : Space) (s : State) : CountersKept s (runLoad w sp s) :=
  .next (runPlain_counters (fun s t => by simp [loadAct]) _ _ _ s)

theorem execLdsc_counters (x : Option Ext) (d a : Operand) (off : BitVec 8) (s : State) :
    CountersKept s (execLdsc x d a off s) := by
  refine .next (runPlain_counters (fun s t => ?_) _ _ _ s)
  extract_lets va page scale l keep
  have kept (u : State) (va : Nat) (p : Option Pte) : SameCounters u (keep u va p) := by
    cases p <;> simp [keep]
  exact ((pushLoad_counters s t l).trans (kept _ _ _)).trans ((kept _ _ _).trans (State.retire_counters _ _ _))

theorem runStore_counters (w : MW) (sp : Space) (s : State) : CountersKept s (runStore w sp s) :=
  .next (runPlain_counters (fun s t => by simp [storeAct]) _ _ _ s)

theorem execPref_counters (x : Option Ext) (a : Operand) (off : BitVec 8) (s : State) : CountersKept s (execPref x a off s) :=
  .next (runPlain_counters (fun s t => by simp) _ _ _ s)

@[simp] theorem joinAtom_counters (s : State) (t : Nat) (old : Nat → Nat) (e : Entry) (o : AtomOp) (k : AtomKind) :
    SameCounters s (joinAtom s t old e o k).1 := by
  unfold joinAtom
  dsimp only
  split <;> simp

theorem runAtom_counters {act : State → Nat → State} (ha : ∀ s t, SameCounters s (act s t)) (x : Option Ext) (once : Bool)
    (chk : State → Nat → Check) (k : AtomKind) (b : Operand) (s : State) : SameCounters s (runAtom x once chk k b act s) :=
  withReads_counters (runPlain_counters ha x once chk) _ _ _ s

theorem atomAct_counters (x : Option Ext) (sp : Space) (k : AtomKind) (d a b : Operand) (old : Nat → Nat) (s : State) (t : Nat) :
    SameCounters s (atomAct x sp k d a b old s t) := by simp [atomAct]

theorem redAct_counters (x : Option Ext) (sp : Space) (k : AtomKind) (a b : Operand) (s : State) (t : Nat) :
    SameCounters s (redAct x sp k a b s t) := by simp [redAct]

theorem execAtom_counters (x : Option Ext) (f : AtomKind) (d a b : Operand) (s : State) :
    CountersKept s (execAtom x f d a b s) := .next (runAtom_counters (atomAct_counters x .n f d a b s.fifoLens) _ _ _ _ _ s)

theorem execAtoma_counters (x : Option Ext) (f : AtomKind) (d a b : Operand) (s : State) :
    CountersKept s (execAtoma x f d a b s) := .next (runAtom_counters (atomAct_counters x .a f d a b s.fifoLens) _ _ _ _ _ s)

theorem execAred_counters (x : Option Ext) (f : AtomKind) (a b : Operand) (s : State) : CountersKept s (execAred x f a b s) :=
  .next (runAtom_counters (redAct_counters x .n f a b) _ _ _ _ _ s)

theorem execAreda_counters (x : Option Ext) (f : AtomKind) (a b : Operand) (s : State) : CountersKept s (execAreda x f a b s) :=
  .next (runAtom_counters (redAct_counters x .a f a b) _ _ _ _ _ s)

@[simp] theorem peerEntry_counters (x : Option Ext) (b : Body) (s : State) (t : Nat) : SameCounters s (peerEntry x b s t) := by
  simp [peerEntry]

theorem execStx_counters (x : Option Ext) (a b : Operand) (s : State) : CountersKept s (execStx x a b s) :=
  .next (withReads_counters (runLanes_counters (fun s t => by simp) (fun s t => by simp) _ _ _) _ _ _ s)

theorem execAredX_counters (x : Option Ext) (f : AtomKind) (a b : Operand) (s : State) : CountersKept s (execAredX x f a b s) :=
  .next (runAtom_counters (fun s t => by simp) _ _ _ _ _ s)

@[simp] theorem State.issueOp_counters (s : State) (t : Nat) (o : Op) : SameCounters s (s.issueOp t o) := by
  simp [State.issueOp]

@[simp] theorem State.pushRoute_counters (s : State) (r : Route) : SameCounters s (s.pushRoute r) := ⟨rfl, rfl⟩

theorem execLdx_counters (w : RF) (eb : Bool) (s : State) : CountersKept s (execLdx w eb s) :=
  .next (runPlain_counters (fun s t => orWait_counters (by simp) _ _) _ _ _ s)

theorem execFence_counters (x : Option Ext) (s : State) : CountersKept s (execFence x s) :=
  .next (runPlain_counters (fun s t => by simp [ite_counters]) _ _ _ s)

theorem execFenceNtdrain_counters (x : Option Ext) (s : State) : CountersKept s (execFenceNtdrain x s) :=
  .next (runPlain_counters (fun s t => by simp) _ _ _ s)

/-! ### Entries at their places -/

@[simp] theorem State.atomAt_counters (s : State) (p : Place) (k : AtomKind) (a : Nat) (xs : List Word) :
    SameCounters s (s.atomAt p k a xs) := by simp [State.atomAt]

@[simp] theorem State.atomLanes_counters (s : State) (p : Place) (k : AtomKind) (a q : Nat) (acq : Bool) (os : List AtomOp) :
    SameCounters s (s.atomLanes p k a q acq os) := by
  induction os generalizing s with
  | nil => simp [State.atomLanes]
  | cons o os ih => simp [State.atomLanes, ih, ite_counters]

@[simp] theorem State.redAt_counters (s : State) (p : Place) (k : AtomKind) (o : RedPart) : SameCounters s (s.redAt p k o) := by
  simp [State.redAt, ite_counters]

@[simp] theorem State.barFold_counters (s : State) (p : Place) (os : List (Nat × Nat × BarKind)) :
    SameCounters s (s.barFold p os).1 := by
  induction os generalizing s with
  | nil => simp [State.barFold]
  | cons o os ih =>
    unfold State.barFold
    dsimp only
    split <;> simp [ih]

@[simp] theorem State.entryDone_counters (s : State) (t : Nat) : SameCounters s (s.entryDone t) := by
  unfold State.entryDone
  split <;> simp

@[simp] theorem State.barAt_counters (s : State) (p : Place) (ops : List (Nat × Nat × BarKind)) :
    SameCounters s (s.barAt p ops) := by
  unfold State.barAt
  extract_lets r nsp blockedAt
  split
  · simp [r]
  · exact foldl_counters (fun s o => by simp [ite_counters]) _ _

@[simp] theorem State.countBar_counters (s : State) (p : Place) (a n : Nat) (c : Word) : SameCounters s (s.countBar p a n c).1 := by
  simp [State.countBar, apply_ite Prod.fst, ite_counters]

@[simp] theorem State.request_counters (s : State) : SameCounters s s.request.1 := ⟨rfl, rfl⟩

@[simp] theorem State.drainMark_counters (s : State) (t : Nat) (m : Marker) : SameCounters s (s.drainMark t m) := by
  cases m with
  | fenceAcqRel =>
    simp only [State.drainMark]
    split <;> simp
  | _ => simp [State.drainMark, ite_counters]

@[simp] theorem State.entryEcc_counters (s : State) (p : Place) (e : Entry) : SameCounters s (s.entryEcc p e).1 := by
  unfold State.entryEcc
  split <;> simp

@[simp] theorem State.execEntry_counters (s : State) (p : Place) (e : Entry) : SameCounters s (s.execEntry p e) := by
  unfold State.execEntry
  dsimp only
  split
  · simp
  · split <;> simp

@[simp] theorem State.chanEcc_counters (s : State) (c off : Nat) (pop : Bool) : SameCounters s (s.chanEcc c off pop).1 := by
  unfold State.chanEcc
  dsimp only
  split <;> simp

@[simp] theorem State.applyPush_counters (s : State) (c : Nat) (e : Entry) (w : Word) : SameCounters s (s.applyPush c e w) := by
  unfold State.applyPush
  dsimp only
  split
  · simp
  · split <;> simp

@[simp] theorem State.applyPop_counters (s : State) (c : Nat) (e : Entry) (t k : Nat) : SameCounters s (s.applyPop c e t k) := by
  unfold State.applyPop
  dsimp only
  split
  · simp
  · split
    · split <;> simp
    · simp

@[simp] theorem State.enterQueue_counters (s : State) (i : Nat) : SameCounters s (s.enterQueue i) := ⟨rfl, rfl⟩

@[simp] theorem finishLoad_counters (s : State) (t : Nat) (l : Load) (ws : List Word) : SameCounters s (finishLoad s t l ws) := by
  simp [finishLoad, ite_counters]

/-- The state that a load of N leaves, if it leaves one, has the counters of s. -/
def LoadRead.Kept (s : State) : LoadRead → Prop
  | .wait => True
  | .ended u | .ok u _ => SameCounters s u

theorem State.nearLoad_counters (s : State) (t : Nat) (l : Load) (useCopy : Bool) : (s.nearLoad t l useCopy).Kept s := by
  unfold State.nearLoad
  dsimp only
  split
  · trivial
  · split
    · exact ⟨rfl, rfl⟩
    · split <;> simp [LoadRead.Kept]

/-! ### Barriers, futures and queues at issue -/

@[simp] theorem joinBar_counters (s : State) (t g : Nat) (old : Nat → Nat) (e : Entry) (k : BarKind) :
    SameCounters s (joinBar s t g old e k) := by simp [joinBar, ite_counters]

theorem runBar_counters (x : Option Ext) (nsp : Bool) (a : Operand) (more : List Operand) (acc : Access)
    (chk : State → Nat → Check) (kind : State → Nat → BarKind) (rel : Bool) (s : State) :
    CountersKept s (runBar x nsp a more acc chk kind rel s) := .next (runPlain_counters (fun s t => by simp) _ _ _ s)

@[simp] theorem State.barKept_counters (s : State) (t : Nat) (nsp : Bool) (a : Operand) : SameCounters s (s.barKept t nsp a) := by
  simp [State.barKept]

@[simp] theorem barAcquire_counters (s : State) (t : Nat) (nsp : Bool) : SameCounters s (barAcquire s t nsp) := by
  simp [barAcquire, ite_counters]

theorem execBarWait_counters (x : Option Ext) (nsp : Bool) (a : Operand) (par : Bool) (s : State) :
    CountersKept s (execBarWait x nsp a par s) :=
  .next (withReads_counters (runPlain_counters (fun s t => by simp) _ _ _) _ _ _ s)

theorem execBarTest_counters (x : Option Ext) (nsp : Bool) (p : BitVec 3) (a : Operand) (par : Bool) (s : State) :
    CountersKept s (execBarTest x nsp p a par s) :=
  .next (withReads_counters (runPlain_counters (fun s t => by simp [ite_counters]) _ _ _) _ _ _ s)

theorem execFwait_counters (x : Option Ext) (d a : Operand) (s : State) : CountersKept s (execFwait x d a s) :=
  .next (runPlain_counters (fun s t => by simp) _ _ _ s)

theorem execFtest_counters (x : Option Ext) (p : BitVec 3) (a : Operand) (s : State) : CountersKept s (execFtest x p a s) :=
  .next (runPlain_counters (fun s t => by simp [ite_counters]) _ _ _ s)

theorem execFcancel_counters (x : Option Ext) (a : Operand) (s : State) : CountersKept s (execFcancel x a s) :=
  .next (runPlain_counters (fun s t => by split <;> simp) _ _ _ s)

theorem execQlen_counters (x : Option Ext) (d a : Operand) (s : State) : CountersKept s (execQlen x d a s) :=
  .next (withReads_counters (runPlain_counters (fun s t => by simp) _ _ _) _ _ _ s)

theorem execQbind_counters (x : Option Ext) (d a : Operand) (s : State) : CountersKept s (execQbind x d a s) :=
  .next (runPlain_counters (fun s t => by simp) _ _ _ s)

end Sys2Proof.Machine
end

section
/-! PROOF. Commands of engines at issue, control transfer, masks, cross-lane instructions and the lattice leave the grace counters. -/

namespace Sys2Proof.Machine

/-! ### Launch records and engine commands -/

@[simp] theorem State.enterLaunch_counters (s : State) (i : Nat) (w : List Word) : SameCounters s (s.enterLaunch i w) := by
  simp [State.enterLaunch, ite_counters]

@[simp] theorem State.nearEcc_counters (s : State) (c : Word) (l va : Nat) : SameCounters s (s.nearEcc c l va).1 := by
  unfold State.nearEcc
  dsimp only
  split <;> simp

theorem State.arriveDone_counters (s : State) (l : Nat) : ∀ u ∈ s.arriveDone l, SameCounters s u := by
  intro u hu
  unfold State.arriveDone at hu
  dsimp only at hu
  split at hu
  · simp at hu
    simp [← hu]
  · split at hu <;> simp at hu
    simp [← hu, ite_counters]

@[simp] theorem State.completeGrid_counters (s : State) (l : Nat) (st : BitVec 16) (de : Word) :
    SameCounters s (s.completeGrid l st de) := by
  unfold State.completeGrid
  dsimp only
  split
  · simp
  · next u hu => exact (s.arriveDone_counters l u hu).trans (by simp)

@[simp] theorem State.issueCmd_counters (s : State) (t : Nat) (o : Op) : SameCounters s (s.issueCmd t o) := by
  simp [State.issueCmd]

theorem recAct_counters (e : BitVec 4) (x : Option Ext) (d a : Operand) (s : State) (t : Nat) :
    SameCounters s (recAct e x d a s t) := orWait_counters (by simp) _ _

/-! ### Accesses of engines -/

@[simp] theorem State.haltOp_counters (s : State) (i l va : Nat) (k : BitVec 4) (w : Bool) :
    SameCounters s (s.haltOp i l va k w) := by simp [State.haltOp, ite_counters]

/-- The state that an engine's read leaves, if it leaves one, has the counters of s. -/
def EngineRead.Kept (s : State) : EngineRead → Prop
  | .wait => True
  | .fault u | .ended u | .ok u _ _ => SameCounters s u

theorem State.readNear_counters (s : State) (i l va n : Nat) : (s.readNear i l va n).Kept s := by
  unfold State.readNear
  dsimp only
  split
  · exact s.haltOp_counters _ _ _ _ _
  · split
    · trivial
    · split <;> simp [EngineRead.Kept]

theorem State.readBuf_counters (s : State) (i c : Nat) (sp : Space) (off n : Nat) : (s.readBuf i c sp off n).Kept s := by
  unfold State.readBuf
  dsimp only
  split
  · trivial
  · split <;> simp [EngineRead.Kept]

@[simp] theorem State.engineRoute_counters (s : State) (i : Nat) (d : Dst) (b : RouteBody) : SameCounters s (s.engineRoute i d b) := by
  simp [State.engineRoute]

@[simp] theorem State.readyNear_counters (s : State) (i l : Nat) (vas : List Nat) (acc : Access) :
    SameCounters s (s.readyNear i l vas acc).1 := by
  unfold State.readyNear
  dsimp only
  split
  · simp
  · exact foldl_counters (fun u v => by split <;> simp) vas s

@[simp] theorem State.readyWrite_counters (s : State) (i : Nat) (w : OutWrite) : SameCounters s (s.readyWrite i w).1 := by
  cases w <;> simp [State.readyWrite]

@[simp] theorem State.putWrite_counters (s : State) (i : Nat) (w : OutWrite) : SameCounters s (s.putWrite i w) := by
  cases w with
  | buf sp c off bytes tag obj => cases obj <;> simp [State.putWrite, ite_counters]
  | _ => simp [State.putWrite]

@[simp] theorem State.makeWrite_counters (s : State) (i : Nat) (w : OutWrite) : SameCounters s (s.makeWrite i w).1 := by
  simp [State.makeWrite, apply_ite Prod.fst, ite_counters]

@[simp] theorem State.makeAll_counters (s : State) (i : Nat) (ws : List OutWrite) : SameCounters s (s.makeAll i ws).1 := by
  simp [State.makeAll, apply_ite Prod.fst, ite_counters]

theorem execXcp_counters (x : Option Ext) (d a : Operand) (ea : Bool) (s : State) : CountersKept s (execXcp x d a ea s) :=
  .next (runPlain_counters (recAct_counters 2 x d a) _ _ _ s)

theorem execXsort_counters (x : Option Ext) (d a : Operand) (ea : Bool) (s : State) : CountersKept s (execXsort x d a ea s) :=
  .next (runPlain_counters (recAct_counters 3 x d a) _ _ _ s)

theorem execXcol_counters (x : Option Ext) (d a : Operand) (ea : Bool) (s : State) : CountersKept s (execXcol x d a ea s) :=
  .next (runPlain_counters (recAct_counters 4 x d a) _ _ _ s)

/-! ### Control transfer and masks -/

theorem execJmp_counters (off : BitVec 21) (s : State) : CountersKept s (execJmp off s) :=
  .next (runPlain_counters (fun s t => by simp) _ _ _ s)

theorem execBrp_counters (p : BitVec 3) (nz : Bool) (off : BitVec 21) (s : State) : CountersKept s (execBrp p nz off s) :=
  .next (runPlain_counters (fun s t => by simp [ite_counters]) _ _ _ s)

theorem execCall_counters (off : BitVec 21) (s : State) : CountersKept s (execCall off s) :=
  .next (runPlain_counters (fun s t => by simp) _ _ _ s)

theorem execJmpi_counters (w : RF) (eb : Bool) (s : State) : CountersKept s (execJmpi w eb s) :=
  .next (runPlain_counters (fun s t => by simp [ite_counters]) _ _ _ s)

theorem execNop_counters (x : Option Ext) (s : State) : CountersKept s (execNop x s) :=
  .next (runPlain_counters (fun s t => by simp) _ _ _ s)

theorem execRet_counters (x : Option Ext) (s : State) : CountersKept s (execRet x s) :=
  .next (runPlain_counters (fun s t => by simp) _ _ _ s)

theorem execYield_counters (x : Option Ext) (s : State) : CountersKept s (execYield x s) :=
  .next (runPlain_counters (fun s t => by simp) _ _ _ s)

theorem execBrk_counters (x : Option Ext) (s : State) : CountersKept s (execBrk x s) :=
  .next (runPlain_counters (fun s t => by simp) _ _ _ s)

theorem execMeet_counters (off : BitVec 21) (s : State) : CountersKept s (execMeet off s) :=
  .next (runPlain_counters (fun s t => by simp) _ _ _ s)

theorem execWbase_counters (x : Option Ext) (a : Operand) (imm : BitVec 11) (s : State) : CountersKept s (execWbase x a imm s) :=
  .next (runPlain_counters (fun s t => by simp) _ _ _ s)

@[simp] theorem State.cacheLook_counters (s : State) (first : State → Nat → Word) (lenm1 n : Nat) :
    SameCounters s (s.cacheLook first lenm1 n) := by
  unfold State.cacheLook
  split <;> simp

theorem execLoop_counters (lc : BitVec 2) (lenm1 : BitVec 8) (cnt : BitVec 7) (i : Bool) (nstep : BitVec 3) (s : State) :
    CountersKept s (execLoop lc lenm1 cnt i nstep s) := by
  unfold execLoop
  extract_lets o count first last look s1
  refine .next ?_
  have looked : SameCounters s s1 := s.cacheLook_counters _ _ _
  split
  · exact looked
  · exact looked.trans (runPlain_counters (fun s t => by simp [ite_counters]) _ _ _ s1)

@[simp] theorem State.setMask_counters (s : State) (t : Nat) (m : MaskReg) (b : BitVec 64) : SameCounters s (s.setMask t m b) :=
  ⟨rfl, rfl⟩

theorem runMask_counters {f : State → Nat → State} (hf : ∀ s t, SameCounters s (f s t)) (x : Option Ext) (once : Bool) (s : State) :
    CountersKept s (runMask x once f s) := .next (runPlain_counters (fun s t => by simp [hf s t]) _ _ _ s)

theorem execMwait_counters (x : Option Ext) (d : MaskReg) (s : State) : CountersKept s (execMwait x d s) :=
  .next (runPlain_counters (fun s t => by simp) _ _ _ s)

theorem execMpopc_counters (x : Option Ext) (d : Operand) (a : MaskReg) (s : State) : CountersKept s (execMpopc x d a s) :=
  .next (runPlain_counters (fun s t => by simp) _ _ _ s)

theorem execMtos_counters (x : Option Ext) (d : Operand) (a : MaskReg) (s : State) : CountersKept s (execMtos x d a s) :=
  .next (runPlain_counters (fun s t => by simp) _ _ _ s)

theorem execMwaitRelease_counters (w : Nat) (m : MaskReg) (s : State) : CountersKept s (execMwaitRelease w m s) := by
  refine .next ?_
  split
  · exact foldl_counters (fun s t => by split <;> simp) _ _
  · simp

/-! ### Cross-lane instructions -/

theorem arriveCross_counters (i : Instr) (s : State) : SameCounters s (arriveCross i s) := by
  unfold arriveCross
  extract_lets part checks isTrap
  split
  · exact foldl_counters (fun s c => by split <;> simp) _ _
  · refine foldl_counters (fun s c => ?_) _ _
    split
    · simp
    · exact laneStep_counters (fun s t => by simp) (fun s t => by simp) _ _ _

theorem runCross_counters (i : Instr) (s : State) : CountersKept s (runCross i s) :=
  .next (withReads_counters (arriveCross_counters i) _ _ _ s)

@[simp] theorem State.giveLane_counters (s : State) (t : Nat) (d : Operand) (n : Nat) (ws : List Word) (g : Tag) :
    SameCounters s (s.giveLane t d n ws g) := by simp [State.giveLane]

@[simp] theorem meetingEffect_counters (s : State) (w : Warp) (i : Instr) (ms : List Nat) :
    SameCounters s (meetingEffect s w i ms) := by
  unfold meetingEffect
  dsimp only
  split
  · simp
  · split <;> simp [ite_counters]

theorem execCrossLaneMeeting_counters (w : Nat) (s : State) : CountersKept s (execCrossLaneMeeting w s) := by
  refine .next ?_
  split <;> simp

/-! ### The lattice engine -/

@[simp] theorem State.faceRoute_counters (s : State) (c r : Nat) (b : RouteBody) : SameCounters s (s.faceRoute c r b) := by
  simp [State.faceRoute]

@[simp] theorem sendFaces_counters (s : State) (c : Cell) (leaf : Option (LredOp × List Word)) (r : Bool) :
    SameCounters s (sendFaces s c leaf r) := by simp [sendFaces]

@[simp] theorem State.endPhase_counters (s : State) (i : Nat) : SameCounters s (s.endPhase i) := by simp [State.endPhase]

@[simp] theorem State.retireCell_counters (s : State) (t : Nat) : SameCounters s (s.retireCell t) := by
  unfold State.retireCell
  split <;> simp

@[simp] theorem State.finishPhase_counters (s : State) (i : Nat) (r : Bool) (n : Nat) : SameCounters s (s.finishPhase i r n) := by
  simp [State.finishPhase, ite_counters]

theorem execExit_counters (x : Option Ext) (s : State) : CountersKept s (execExit x s) :=
  .next (runPlain_counters (fun s t => by simp) _ _ _ s)

theorem runPhase_counters (r : Bool) (x : Option Ext) (s : State) : CountersKept s (runPhase r x s) :=
  .next (runPlain_counters (fun s t => by simp [ite_counters]) _ _ _ s)

theorem execNbok_counters (x : Option Ext) (p k : BitVec 3) (s : State) : CountersKept s (execNbok x p k s) :=
  .next (runPlain_counters (fun s t => by simp) _ _ _ s)

theorem execLcfg_counters (x : Option Ext) (d : Operand) (w : BitVec 4) (s : State) : CountersKept s (execLcfg x d w s) :=
  .next (runPlain_counters (fun s t => by simp) _ _ _ s)

theorem execLred_counters (x : Option Ext) (f : LredOp) (d a : Operand) (ea : Bool) (s : State) :
    CountersKept s (execLred x f d a ea s) :=
  .next (withReads_counters (runPlain_counters (fun s t => by simp) _ _ _) _ _ _ s)

theorem execPhaseEnd_counters (c : Nat) (s : State) : CountersKept s (execPhaseEnd c s) := by
  refine .next ?_
  split
  · split <;> simp
  · simp

@[simp] theorem State.settle_counters (s : State) (t n : Nat) : SameCounters s (s.settle t n) := by
  induction n generalizing s with
  | zero => simp [State.settle]
  | succ n ih =>
    unfold State.settle
    split <;> simp [ih]

@[simp] theorem State.setFace_counters (s : State) (c : Nat) (f : Face) : SameCounters s (s.setFace c f) := by
  simp [State.setFace]

@[simp] theorem State.takeFace_counters (s : State) (c : Nat) (f : Face) : SameCounters s (s.takeFace c f) := by
  simp [State.takeFace]

theorem execFaceDelivery_counters (c l : Nat) (m : FaceMsg) (s : State) : CountersKept s (execFaceDelivery c l m s) := by
  refine .next ?_
  dsimp only
  split
  · split
    · split <;> simp
    · simp
  · simp

@[simp] theorem State.endGrid_counters (s : State) (l : Nat) (st : BitVec 16) (de : Word) : SameCounters s (s.endGrid l st de) := by
  simp [State.endGrid]

@[simp] theorem State.loseFace_counters (s : State) (l : Nat) : SameCounters s (s.loseFace l) := by
  simp [State.loseFace, ite_counters]

theorem execPhaseReport_counters (c l : Nat) (m : FaceMsg) (s : State) : CountersKept s (execPhaseReport c l m s) := by
  refine .next ?_
  dsimp only
  split
  · split <;> simp [ite_counters]
  · simp

theorem execLredResult_counters (l q : Nat) (s : State) : CountersKept s (execLredResult l q s) := by
  refine .next ?_
  dsimp only
  split
  · split
    · simp
    · split
      · simp
      · exact foldl_counters (fun s c => by split <;> simp) _ s
  · simp

@[simp] theorem State.swapIn_counters (s : State) (c : Cell) : SameCounters s (s.swapIn c) := by
  simp [State.swapIn, ite_counters]

@[simp] theorem State.swapOut_counters (s : State) (c : Cell) : SameCounters s (s.swapOut c) := by simp [State.swapOut]

theorem execPagerFill_counters (p : Pager) (s : State) : CountersKept s (execPagerFill p s) := by
  refine .next ?_
  split
  · split <;> simp
  · simp

theorem execPagerExchange_counters (p : Pager) (s : State) : CountersKept s (execPagerExchange p s) := by
  refine .next ?_
  split
  · split
    · split <;> simp [ite_counters]
    · simp
  · simp

/-! ### The matrix engine at issue -/

theorem execMres_counters (x : Option Ext) (p : BitVec 3) (s : State) : CountersKept s (execMres x p s) :=
  .next (runPlain_counters (fun s t => by simp [State.setHolder, ite_counters]) _ _ _ s)

theorem execMresw_counters (x : Option Ext) (s : State) : CountersKept s (execMresw x s) :=
  .next (runPlain_counters (fun s t => by simp [ite_counters]) _ _ _ s)

theorem execMrel_counters (x : Option Ext) (s : State) : CountersKept s (execMrel x s) :=
  .next (runPlain_counters (fun s t => by simp [ite_counters]) _ _ _ s)

theorem execMma_counters (x : Option Ext) (d a b : Operand) (k eb : Bool) (s : State) : CountersKept s (execMma x d a b k eb s) :=
  .next (withReads_counters (runPlain_counters (fun s t => orWait_counters (by simp) _ _) _ _ _) _ _ _ s)

theorem execMdr_counters (x : Option Ext) (d a : Operand) (k ea eb : Bool) (s : State) : CountersKept s (execMdr x d a k ea eb s) :=
  .next (runPlain_counters (fun s t => orWait_counters (by simp) _ _) _ _ _ s)

theorem execMzero_counters (x : Option Ext) (d a : Operand) (s : State) : CountersKept s (execMzero x d a s) :=
  .next (runPlain_counters (fun s t => orWait_counters (by simp) _ _) _ _ _ s)

end Sys2Proof.Machine
end

section
/-! PROOF. Steps of the reference machine and deliveries leave the grace counters. -/

namespace Sys2Proof.Machine

/-! ### Steps of the reference machine -/

theorem leaveTo_counters (s : State) (e : Entry) : ∀ u ∈ leaveTo s e, SameCounters s u := by
  intro u hu
  unfold leaveTo at hu
  extract_lets wqc room send at hu
  have sent (pa : BitVec 64) (b : RouteBody) (k : Bool) : ∀ u ∈ send pa b k, SameCounters s u := by
    intro u hu
    unfold send at hu
    split at hu <;> simp at hu
    simp [← hu]
  split at hu
  · exact sent _ _ _ u hu
  · exact sent _ _ _ u hu
  · extract_lets record at hu
    have recorded (off n : Nat) (f : State → List Byte → State) (hf : ∀ s bs, SameCounters s (f s bs)) :
        ∀ u ∈ record off n f, SameCounters s u := by
      intro u hu
      simp only [record, Option.mem_def, Option.map_eq_some_iff] at hu
      obtain ⟨bs, -, rfl⟩ := hu
      simp [hf, ite_counters]
    clear_value record
    split at hu
    · exact recorded _ _ _ (fun s bs => by simp) u hu
    · split at hu
      · refine recorded _ _ _ (fun s bs => ?_) u hu
        simp
      · simp at hu
        simp [← hu]
  · split at hu
    · simp at hu
      simp [← hu]
    · split at hu <;> simp at hu
      simp [← hu]

@[simp] theorem State.leaveBar_counters (s : State) (g : Nat) : SameCounters s (s.leaveBar g) := by
  unfold State.leaveBar
  dsimp only
  split
  · split
    · simp
    · exact getD_counters (fun u hu => SameCounters.trans (by simp) (leaveTo_counters _ _ u hu)) ⟨rfl, rfl⟩
  · simp

theorem execLeaveFifo_counters (w : Nat) (s : State) : CountersKept s (execLeaveFifo w s) := by
  refine .next ?_
  split
  · simp
  · split
    · simp
    · split
      · exact getD_counters (fun u hu => SameCounters.trans (by simp) (leaveTo_counters _ _ u hu)) ⟨rfl, rfl⟩
      · simp

theorem execApply_counters (c : Nat) (s : State) : CountersKept s (execApply c s) := by
  refine .next ?_
  split
  · simp
  · dsimp only
    split
    · simp
    · split
      · simp [ite_counters]
      · split <;> simp

theorem execDrain_counters (c i : Nat) (s : State) : CountersKept s (execDrain c i s) := by
  refine .next ?_
  split
  · simp
  · simp [ite_counters]

theorem execMerge_counters (c i j : Nat) (s : State) : CountersKept s (execMerge c i j s) := by
  refine .next ?_
  split
  · split
    · split <;> simp
    · simp
  · simp

theorem execFill_counters (c l : Nat) (s : State) : CountersKept s (execFill c l s) :=
  .next (by simp [ite_counters])

theorem execEvict_counters (c l : Nat) (s : State) : CountersKept s (execEvict c l s) := .next (by simp)

theorem execNtDrain_counters (c i : Nat) (s : State) : CountersKept s (execNtDrain c i s) := by
  refine .next ?_
  split <;> simp

theorem execPerform_counters (t : Nat) (useCopy : Bool) (s : State) : CountersKept s (execPerform t useCopy s) := by
  refine .next ?_
  split
  · simp
  · next l _ =>
    split
    · simp
    · split
      · simp
      · have read := s.nearLoad_counters t l useCopy
        dsimp only
        split
        · split
          · simp
          · next hu => rw [hu] at read; exact read
          · next hu => rw [hu] at read; exact SameCounters.trans read (finishLoad_counters _ _ _ _)
        · split
          · simp
          · split <;> split <;> simp

/-! ### Delivery of routes -/

@[simp] theorem State.loseStore_counters (s : State) (r : Route) : SameCounters s (s.loseStore r) := by
  unfold State.loseStore
  split <;> simp

@[simp] theorem State.countStale_counters (s : State) (d : Nat) : SameCounters s (s.countStale d) := ⟨rfl, rfl⟩

@[simp] theorem State.dropStale_counters (s : State) (r : Route) : SameCounters s (s.dropStale r) := by
  unfold State.dropStale
  split
  case h_5 => split <;> simp
  all_goals simp

theorem peerOutcome_counters {f : State → Nat → Nat → State} (hf : ∀ s d a, SameCounters s (f s d a)) (s : State) (r : Route)
    (pa : BitVec 64) (m : PeerMsg) (n : Nat) (acc : Access) : SameCounters s (peerOutcome s r pa m n acc f).1 := by
  unfold peerOutcome
  split
  · split
    · simp
    · extract_lets s1
      have walked : SameCounters s s1 := s.walkEcc_counters _ _ _ _
      split
      · extract_lets x
        have guarded : SameCounters s1 x.1 := by
          unfold x
          split <;> simp
        split
        · exact walked.trans guarded
        · exact (walked.trans guarded).trans (hf _ _ _)
      · exact walked
  · split <;> simp

@[simp] theorem State.failOp_counters (s : State) (i : Nat) (st : BitVec 16) (de : Word) : SameCounters s (s.failOp i st de) := by
  simp [State.failOp]

@[simp] theorem State.failPeer_counters (s : State) (i : Nat) (b : Bool) : SameCounters s (s.failPeer i b) := by
  simp [State.failPeer, ite_counters]

theorem State.peerAnswer_counters {f : State → Nat → Nat → State × Option (List Byte)} (hf : ∀ s d a, SameCounters s (f s d a).1)
    (s : State) (r : Route) (va : Nat) (acc : Access) : SameCounters s (s.peerAnswer r va acc f) := by
  unfold State.peerAnswer
  extract_lets rank l s1 x
  have walked : SameCounters s s1 := s.walkEcc_counters _ _ _ _
  have answered : SameCounters s1 x.1 := by
    unfold x
    split
    · exact hf _ _ _
    · exact ⟨rfl, rfl⟩
  exact walked.trans answered

@[simp] theorem State.setPeer_counters (s : State) (r : Route) (d a : Nat) (bs : List Byte) : SameCounters s (s.setPeer r d a bs) := by
  simp [State.setPeer, ite_counters]

@[simp] theorem State.peerArrives_counters (s : State) (k : BitVec 8) (c : Word) (l : Nat) (b : RouteBody) (w : Bool) :
    SameCounters s (s.peerArrives k c l b w) := by simp [State.peerArrives]

@[simp] theorem State.deliverEffect_counters (s : State) (r : Route) (m : PeerMsg) : SameCounters s (s.deliverEffect r m) := by
  unfold State.deliverEffect
  cases r.body with
  | stx pa w =>
    have kept := peerOutcome_counters (fun u d a => u.setPeer_counters r d a (wBytes w)) s r pa m 4 .store
    dsimp only
    split
    · exact kept
    · exact kept.trans (State.loseStore_counters _ _)
  | red pa k xs =>
    have kept := peerOutcome_counters (fun u d a => u.atomAt_counters (.near d) k a xs) s r pa m (kindBytes k) .atomic
    dsimp only
    split
    · exact kept
    · exact kept.trans (State.loseStore_counters _ _)
  | ldx pa i =>
    have kept := peerOutcome_counters (fun u _ _ => ⟨rfl, rfl⟩) s r pa m 4 .load
    dsimp only
    split <;> exact kept.trans (by simp [ite_counters])
  | write i parts obj =>
    dsimp only
    cases obj <;> simp [apply_ite Prod.fst, ite_counters]
  | peerWrite i pa bytes =>
    have kept := peerOutcome_counters (fun u d a => u.setNear_counters d a bytes) s r pa m bytes.length .store
    dsimp only
    split
    · exact kept
    · split <;> exact kept.trans (by simp)
  | peerRead i pa n =>
    have kept := peerOutcome_counters (fun u _ _ => ⟨rfl, rfl⟩) s r pa m n .load
    dsimp only
    split <;> exact kept.trans (by simp)
  | posted q va bytes =>
    dsimp only
    split
    · simp [ite_counters]
    · simp
  | inWrite va bytes => exact s.peerAnswer_counters (fun u d a => by simp [apply_ite Prod.fst, ite_counters]) r va .store
  | inRed va k xs => exact s.peerAnswer_counters (fun u d a => by simp [apply_ite Prod.fst, ite_counters]) r va .atomic
  | inRead va n => exact s.peerAnswer_counters (fun u d a => by simp [apply_ite Prod.fst]) r va .load
  | face l ell q xs retired =>
    dsimp only
    split <;> simp
  | report l ell q leaf retired =>
    dsimp only
    split <;> simp
  | _ => simp

theorem execDeliver_counters (i : Nat) (m : PeerMsg) (s : State) : CountersKept s (execDeliver i m s) := by
  refine .next ?_
  split
  case h_4 =>
    split
    · simp
    · simp [ite_counters]
  all_goals simp

theorem execChannelPopServed_counters (c i : Nat) (s : State) : CountersKept s (execChannelPopServed c i s) := by
  refine .next ?_
  split
  · simp
  · dsimp only
    split
    · simp
    · split
      · split <;> simp
      · split
        · simp [ite_counters]
        · simp

theorem execDeferredComplete_counters (t i : Nat) (s : State) : CountersKept s (execDeferredComplete t i s) := .next (by simp)

end Sys2Proof.Machine
end

section
/-! PROOF. Steps of the engines leave the grace counters. -/

namespace Sys2Proof.Machine

/-! ### Steps of the engines -/

theorem EngineRead.Kept.trans {s u : State} (h : SameCounters s u) : ∀ {r : EngineRead}, r.Kept u → r.Kept s
  | .wait, _ => trivial
  | .fault _, k | .ended _, k | .ok _ _ _, k => h.trans k

theorem EngineRead.andThen_counters {r : EngineRead} {s : State} {f : State → List Byte → Pte → State} (hr : r.Kept s)
    (hf : ∀ u bs p, SameCounters s u → SameCounters s (f u bs p)) : SameCounters s (r.andThen s f) := by
  cases r with
  | wait => exact ⟨rfl, rfl⟩
  | fault u => exact hr
  | ended u => exact hr
  | ok u bs p => exact hf u bs p hr

theorem State.readSource_counters (s : State) (i : Nat) (w : Where_) : (s.readSource i w).Kept s := by
  cases w with
  | buf sp off => exact s.readBuf_counters _ _ _ _ _
  | near l va => exact s.readNear_counters _ _ _ _
  | _ => trivial

@[simp] theorem State.nameReceivers_counters (s : State) (i : Nat) (r : List Word) : SameCounters s (s.nameReceivers i r) :=
  ⟨rfl, rfl⟩

@[simp] theorem State.startWith_counters (s : State) (i : Nat) (r : List Word) (code base : Nat) (flags : Bool) :
    SameCounters s (s.startWith i r code base flags) := by simp [State.startWith, ite_counters]

theorem State.recordRead_counters {f : State → State} (hf : ∀ s, SameCounters s (f s)) (s : State) (i n : Nat) :
    SameCounters s (s.recordRead i n f) := by simp [State.recordRead, hf, ite_counters]

theorem execEngineStart_counters (i : Nat) (s : State) : CountersKept s (execEngineStart i s) := by
  refine .next ?_
  split
  · split
    · split
      · simp
      · split
        · split
          · exact State.recordRead_counters (fun s => by simp) _ _ _
          · simp
        · simp
    · split
      · exact State.recordRead_counters (fun s => by simp) _ _ _
      · simp
    · split
      · exact State.recordRead_counters (fun s => by simp) _ _ _
      · simp
    · split
      · exact State.recordRead_counters (fun s => by simp) _ _ _
      · simp
    · simp
  · simp

theorem mmaRead_counters (s : State) (i : Nat) : SameCounters s (mmaRead s i) := by
  unfold mmaRead
  dsimp only
  split
  · simp
  · split
    · simp
    · split
      · simp
      · exact EngineRead.andThen_counters (s.readBuf_counters _ _ _ _ _) (fun u bs p h => by simpa using h)

theorem mdrRead_counters (s : State) (i : Nat) : SameCounters s (mdrRead s i) := by
  unfold mdrRead
  extract_lets o r home inA factors
  have readA (b : Bool) (u : State) (off n : Nat) : (inA b u off n).Kept u := by
    unfold inA
    split
    · exact u.readBuf_counters _ _ _ _ _
    · exact ⟨rfl, rfl⟩
  split
  · refine EngineRead.andThen_counters (readA _ _ _ _) fun s1 _ _ h1 => ?_
    refine EngineRead.andThen_counters (.trans h1 (readA _ _ _ _)) fun s2 _ _ h2 => ?_
    refine EngineRead.andThen_counters (.trans h2 (readA _ _ _ _)) fun s3 _ _ h3 => ?_
    exact EngineRead.andThen_counters (.trans h3 (s3.readBuf_counters _ _ _ _ _)) fun s4 _ _ h4 => h4.trans (by simp)
  · exact ⟨rfl, rfl⟩

@[simp] theorem copyTake_counters (s : State) (i : Nat) (w : Where_) (bs : List Byte) (p : Pte) :
    SameCounters s (copyTake s i w bs p) := by
  unfold copyTake
  dsimp only
  split
  · split <;> simp
  · simp

theorem copyRead_counters (s : State) (i : Nat) : SameCounters s (copyRead s i) := by
  unfold copyRead
  dsimp only
  split
  · simp
  · next w _ =>
    split
    · split
      · simp
      · split <;> simp
    · split <;> simp
    · split
      · simp
      · exact EngineRead.andThen_counters (s.readSource_counters i _) fun u bs p h => h.trans (by simp)

theorem sortRead_counters (s : State) (i : Nat) : SameCounters s (sortRead s i) := by
  unfold sortRead
  extract_lets o r own n m ks put w32 add
  have added (u : State) (ws : List OutWrite) : SameCounters u (add u ws) := by simp [add]
  split
  · exact EngineRead.andThen_counters (s.readNear_counters _ _ _ _) fun u bs p h => h.trans (by simp)
  · split
    · split
      · exact added _ _
      · split
        · exact EngineRead.andThen_counters (s.readNear_counters _ _ _ _) fun u bs p h => h.trans (added _ _)
        · exact added _ _
    · split
      · exact added _ _
      · simp

theorem colRead_counters (s : State) (i : Nat) (m : PeerMsg) : SameCounters s (colRead s i m) := by
  unfold colRead
  extract_lets o r pos mine take stop
  have taken (u : State) (own : Option (List Byte)) (g : Tag) (bs : List Byte) : SameCounters u (take u own g bs) := by simp [take]
  have stopped (st : BitVec 16) (de : Word) : SameCounters s (stop st de) := by simp [stop]
  split
  · split
    · exact stopped _ _
    · exact stopped _ _
  · exact stopped _ _
  · refine .ite ?_ ⟨rfl, rfl⟩
    split
    · exact taken _ _ _ _
    · extract_lets w
      split
      · exact taken _ _ _ _
      · exact EngineRead.andThen_counters (s.readSource_counters i _) fun u bs p h => h.trans (taken _ _ _ _)
  · simp

theorem execEngineRead_counters (i : Nat) (m : PeerMsg) (s : State) : CountersKept s (execEngineRead i m s) := by
  refine .next ?_
  split
  · split
    · simp [mmaRead_counters, mdrRead_counters, ite_counters]
    · exact copyRead_counters s i
    · exact sortRead_counters s i
    · exact colRead_counters s i m
    · simp
  · simp

theorem execHostCompletion_counters (i : Nat) (reply : HostReply) (err : Bool) (s : State) :
    CountersKept s (execHostCompletion i reply err s) := by
  refine .next ?_
  dsimp only
  split
  · simp
  · split
    · simp
    · split
      · simp
      · split
        · simp
        · simp [ite_counters]

theorem colWrite_counters (s : State) (i c : Nat) : SameCounters s (colWrite s i c) := by
  unfold colWrite
  dsimp only
  split
  · simp [ite_counters]
  · simp

theorem execEngineWrite_counters (i k : Nat) (s : State) : CountersKept s (execEngineWrite i k s) := by
  refine .next ?_
  dsimp only
  split
  · split
    · exact colWrite_counters s i k
    · split
      · simp
      · simp [ite_counters]
  · simp

@[simp] theorem State.countDown_counters (s : State) (xs : List (Place × Nat × Nat)) (c : Word) :
    SameCounters s (s.countDown xs c) := by simp [State.countDown]

@[simp] theorem State.countRest_counters (s : State) (i : Nat) : SameCounters s (s.countRest i) := by simp [State.countRest]

theorem matrixDone_counters (s : State) (i : Nat) : SameCounters s (matrixDone s i) := by
  unfold matrixDone
  dsimp only
  split
  · simp
  · simp [ite_counters]

theorem copyDone_counters (s : State) (i : Nat) : SameCounters s (copyDone s i) := by
  simp [copyDone, ite_counters]

theorem sortDone_counters (s : State) (i : Nat) : SameCounters s (sortDone s i) := by
  simp [sortDone, ite_counters]

theorem colDone_counters (s : State) (i : Nat) : SameCounters s (colDone s i) := by
  simp [colDone, ite_counters]

@[simp] theorem State.endDone_counters (s : State) (i : Nat) : SameCounters s (s.endDone i) := by
  simp [State.endDone, ite_counters]

theorem execEngineComplete_counters (i : Nat) (s : State) : CountersKept s (execEngineComplete i s) := by
  refine .next ?_
  split
  · simp
  · split
    · split
      · exact matrixDone_counters s i
      · exact copyDone_counters s i
      · exact sortDone_counters s i
      · exact colDone_counters s i
      · simp
    · simp

@[simp] theorem State.cancelOp_counters (s : State) (i : Nat) : SameCounters s (s.cancelOp i) := by
  unfold State.cancelOp
  split <;> simp

theorem execEngineCancel_counters (i : Nat) (s : State) : CountersKept s (execEngineCancel i s) := by
  refine .next ?_
  split
  · split <;> simp
  · simp

@[simp] theorem State.loseRoute_counters (s : State) (i : Nat) : SameCounters s (s.loseRoute i) := by
  unfold State.loseRoute
  split
  · simp
  · dsimp only
    split <;> simp [ite_counters]

@[simp] theorem State.loseMember_counters (s : State) (i : Nat) : SameCounters s (s.loseMember i) := by
  simp [State.loseMember, ite_counters]

theorem execPeerAckTimeout_counters (i : Nat) (s : State) : CountersKept s (execPeerAckTimeout i s) := by
  refine .next ?_
  dsimp only
  split
  · split <;> simp
  · simp

end Sys2Proof.Machine
end

section
/-! PROOF. Traps, saving, the privileged operations and the scheduling of launches leave the grace counters. -/

namespace Sys2Proof.Machine

/-! ### Traps, saving and the privileged operations -/

theorem execLaunch_counters (x : Option Ext) (d a : Operand) (ea : Bool) (s : State) : CountersKept s (execLaunch x d a ea s) :=
  .next (runPlain_counters (recAct_counters 5 x d a) _ _ _ s)

theorem execTrap_counters (x : Option Ext) (n : BitVec 10) (s : State) : CountersKept s (execTrap x n s) :=
  .next (runPlain_counters (fun s t => by simp) _ _ _ s)

/-- The state that a read of a frame leaves, if it leaves one, has the counters of s. -/
def FrameRead.Kept (s : State) : FrameRead → Prop
  | .wait => True
  | .ended u | .ok u _ _ => SameCounters s u

theorem State.readFrame_counters (s : State) (t : Nat) : (s.readFrame t).Kept s := by
  unfold State.readFrame
  extract_lets x c
  split
  · simp [FrameRead.Kept]
  · extract_lets rpc meet s1
    have used : SameCounters s s1 := s.useXlate_counters _ _ _ _ _
    split
    · trivial
    · split
      · exact used
      · have first := s1.nearLoad_counters t rpc (Config.freeBit s.tick (2 * t + 1))
        split
        · trivial
        · next h => rw [h] at first; exact used.trans first
        · next s2 r h =>
          rw [h] at first
          have second := (finishLoad s2 t rpc []).nearLoad_counters t meet (Config.freeBit s.tick (2 * t + 2))
          have loaded : SameCounters s (finishLoad s2 t rpc []) := (used.trans first).trans (finishLoad_counters _ _ _ _)
          split
          · trivial
          · next h => rw [h] at second; exact loaded.trans second
          · next h => rw [h] at second; exact (loaded.trans second).trans (finishLoad_counters _ _ _ _)

@[simp] theorem State.returnTrap_counters (s : State) (t : Nat) (a b : Word) (n : Nat) : SameCounters s (s.returnTrap t a b n) := by
  simp [State.returnTrap]

theorem execRte_counters (x : Option Ext) (s : State) : CountersKept s (execRte x s) := by
  refine .next (.ite (runPlain_counters (fun s t => ?_) _ _ _ s) (by simp [ite_counters]))
  have read := s.readFrame_counters t
  split
  · simp
  · next h => rw [h] at read; exact read
  · next h => rw [h] at read; exact SameCounters.trans read (by simp)

theorem execTwait_counters (x : Option Ext) (a : Operand) (ea : Bool) (s : State) : CountersKept s (execTwait x a ea s) :=
  .next (runPlain_counters (fun s t => by simp) _ _ _ s)

@[simp] theorem State.expire_counters (s : State) (t : Nat) : SameCounters s (s.expire t) := by
  unfold State.expire
  split
  · simp [ite_counters]
  · simp

theorem execTwaitExpiry_counters (t : Nat) (s : State) : CountersKept s (execTwaitExpiry t s) :=
  .next (.ite (by simp) (by simp))

theorem execTrapDelivery_counters (t : Nat) (s : State) : CountersKept s (execTrapDelivery t s) := by
  refine .next ?_
  split
  · simp [ite_counters]
  · simp

@[simp] theorem State.saveCores_counters (s : State) (cs : List Nat) : SameCounters s (s.saveCores cs) := by
  simp [State.saveCores]

@[simp] theorem State.restoreCores_counters (s : State) (cs : List Nat) : SameCounters s (s.restoreCores cs) := by
  simp [State.restoreCores]

theorem execRestore_counters (c : Nat) (cs : List Nat) (s : State) : CountersKept s (execRestore c cs s) :=
  .next (.ite (by simp) (by simp))

theorem runPriv_counters {act start : State → Nat → State} (ha : ∀ s t, SameCounters s (act s t))
    (hs : ∀ s t, SameCounters s (start s t)) (x : Option Ext) (once : Bool) (chk : State → Nat → Check) (s : State) :
    SameCounters s (runPriv x once chk act start s) := .ite (runLanes_counters ha hs x once chk s) (by simp)

@[simp] theorem sysStart_counters (a : Operand) (s : State) (t : Nat) : SameCounters s (sysStart a s t) := by simp [sysStart]

theorem execTlbinv_counters (x : Option Ext) (a : Operand) (s : State) : CountersKept s (execTlbinv x a s) :=
  .next (runPriv_counters (fun s t => by simp) (fun s t => by simp) _ _ _ s)

@[simp] theorem sysDone_counters (x : Option Ext) (d : Operand) (s : State) (t : Nat) (w : Word) :
    SameCounters s (sysDone x d s t w) := by simp [sysDone]

theorem execCtxsave_counters (x : Option Ext) (d a : Operand) (s : State) : CountersKept s (execCtxsave x d a s) :=
  .next (withReads_counters (runPriv_counters (fun s t => by simp [ite_counters]) (sysStart_counters a) _ _ _) _ _ _ s)

theorem execCtxload_counters (x : Option Ext) (d a : Operand) (s : State) : CountersKept s (execCtxload x d a s) :=
  .next (withReads_counters (runPriv_counters (fun s t => by simp [ite_counters]) (sysStart_counters a) _ _ _) _ _ _ s)

theorem execIcinv_counters (x : Option Ext) (s : State) : CountersKept s (execIcinv x s) :=
  .next (runPriv_counters (fun s t => by simp) (fun s t => by simp) _ _ _ s)

@[simp] theorem State.haltCtx_counters (s : State) (c : Word) : SameCounters s (s.haltCtx c) := by
  simp [State.haltCtx, ite_counters]

theorem execHalt_counters (x : Option Ext) (a : Operand) (s : State) : CountersKept s (execHalt x a s) :=
  .next (withReads_counters (fun s => by
    refine SameCounters.trans ?_ (foldl_counters State.haltCtx_counters _ _)
    exact runPriv_counters (fun s t => by simp) (sysStart_counters a) _ _ _ s) _ _ _ s)

/-! ### Scheduling -/

@[simp] theorem State.eccDeps_counters (s : State) (l : Nat) : SameCounters s (s.eccDeps l) := by
  simp [State.eccDeps, ite_counters]

@[simp] theorem State.refuseLaunch_counters (s : State) (l : Nat) (de : Word) : SameCounters s (s.refuseLaunch l de) := by
  simp [State.refuseLaunch]

@[simp] theorem State.startCollie_counters (s : State) (c : Nat) : SameCounters s (s.startCollie c) := by
  simp [State.startCollie, ite_counters]

@[simp] theorem State.initBuffers_counters (s : State) (l c : Nat) : SameCounters s (s.initBuffers l c) := by
  simp [State.initBuffers, ite_counters]

@[simp] theorem State.readyCore_counters (s : State) (l : Nat) (c : Word) (d k : Nat) : SameCounters s (s.readyCore l c d k).1 := by
  unfold State.readyCore
  dsimp only
  split <;> simp [ite_counters]

theorem State.tryWarp_counters (s : State) (m c : Nat) (w : List Word) : ∀ u ∈ s.tryWarp m c w, SameCounters s u := by
  intro u hu
  simp only [State.tryWarp, Option.mem_ite_none_right, Option.mem_map] at hu
  obtain ⟨-, b, -, rfl⟩ := hu
  simp

/-- A fold of steps that may fail and else leave the counters. -/
theorem foldl_bind_counters {α : Type} {f : State → α → Option State} (h : ∀ s x, ∀ u ∈ f s x, SameCounters s u) (l : List α)
    {s : State} {o : Option State} (ho : ∀ v ∈ o, SameCounters s v) :
    ∀ u ∈ l.foldl (fun (a : Option State) x => a.bind fun s => f s x) o, SameCounters s u := by
  induction l generalizing o with
  | nil => exact ho
  | cons x l ih =>
    refine ih fun v hv => ?_
    obtain ⟨w, hw, hv⟩ := Option.bind_eq_some_iff.1 hv
    exact (ho w hw).trans (h w x v hv)

theorem State.tryTeam_counters (s : State) (l d c t : Nat) (p : Option Nat) : ∀ u ∈ s.tryTeam l d c t p, SameCounters s u := by
  intro u hu
  unfold State.tryTeam at hu
  dsimp only at hu
  rw [Option.mem_ite_none_right] at hu
  refine foldl_bind_counters (fun s i => s.tryWarp_counters _ _ _) _ ?_ u hu.2
  rintro _ ⟨⟩
  simp [apply_ite Prod.fst, ite_counters]

theorem State.startTeams_counters (s : State) (l d lo n : Nat) (p : Option Nat) (f : Nat → Nat) :
    ∀ u ∈ s.startTeams l d lo n p f, SameCounters s u :=
  foldl_bind_counters (fun s i => s.tryTeam_counters l d (f i) (lo + i) p) (List.range n) (by simp)

@[simp] theorem State.takeTeams_counters (s : State) (l d n : Nat) : SameCounters s (s.takeTeams l d n) := ⟨rfl, rfl⟩

theorem claimed_counters (s : State) (l d c : Nat) : ∀ u ∈ claimed s l d c, SameCounters s u := by
  intro u hu
  unfold claimed at hu
  dsimp only at hu
  split at hu
  · cases hu
  · split at hu
    · simp only [Option.mem_def, Option.map_eq_some_iff] at hu
      obtain ⟨v, hv, rfl⟩ := hu
      exact (s.startTeams_counters _ _ _ _ _ _ v hv).trans (by simp)
    · split at hu <;> simp at hu
      simp [← hu]

theorem packAt_counters (s : State) (l d lo : Nat) (cs : List Nat) : ∀ u ∈ packAt s l d lo cs, SameCounters s u := by
  intro u hu
  unfold packAt at hu
  dsimp only at hu
  rw [Option.mem_ite_none_left] at hu
  exact s.startTeams_counters _ _ _ _ _ _ u hu.2

theorem packed_counters (s : State) (l d : Nat) (cs : List Nat) : ∀ u ∈ packed s l d cs, SameCounters s u := by
  intro u hu
  unfold packed at hu
  split at hu
  · cases hu
  · simp only [Option.mem_def, Option.map_eq_some_iff] at hu
    obtain ⟨v, hv, rfl⟩ := hu
    exact (packAt_counters s _ _ _ _ v hv).trans (by simp)

theorem execTeamClaim_counters (l d c : Nat) (s : State) : CountersKept s (execTeamClaim l d c s) :=
  .next (.ite (by simp) (getD_counters (claimed_counters s l d c) (by simp)))

theorem execPackStart_counters (l d : Nat) (cs : List Nat) (s : State) : CountersKept s (execPackStart l d cs s) :=
  .next (.ite (by simp) (getD_counters (packed_counters s l d cs) (by simp)))

@[simp] theorem State.eccPieces_counters (s : State) (c : Word) (va n : Nat) : SameCounters s (s.eccPieces c va n).1 := by
  simp [State.eccPieces, apply_ite Prod.fst, ite_counters]

@[simp] theorem State.addCell_counters (s : State) (l m c : Nat) (w d : List Word) (image : List Byte) (ell : Nat) :
    SameCounters s (s.addCell l m c w d image ell) := by simp [State.addCell]

@[simp] theorem State.addPartition_counters (s : State) (l : Nat) (w d : List Word) (image : List Byte) (p : Nat × Nat × List Nat) :
    SameCounters s (s.addPartition l w d image p) := by simp [State.addPartition]

@[simp] theorem State.firstFaces_counters (s : State) (l : Nat) (d : List Word) : SameCounters s (s.firstFaces l d) := by
  simp [State.firstFaces]

@[simp] theorem State.markStarted_counters (s : State) (l : Nat) (init : LaunchInit) : SameCounters s (s.markStarted l init) := by
  simp [State.markStarted]

theorem State.startLattice_counters (s : State) (l : Nat) (place : List (Nat × Nat × List Nat)) (peer : List Word)
    (init : LaunchInit) : ∀ u ∈ s.startLattice l place peer init, SameCounters s u := by
  intro u hu
  unfold State.startLattice at hu
  extract_lets x w dva iva unread e1 at hu
  have refused {v : State} (h : SameCounters s v) (de : Word) (hu : u ∈ some (v.refuseLaunch l de)) : SameCounters s u :=
    Option.mem_some.1 hu ▸ h.trans (v.refuseLaunch_counters l de)
  split at hu
  · exact refused ⟨rfl, rfl⟩ _ hu
  · extract_lets d e2 s1 at hu
    have read : SameCounters s e2.1 := by simp [e2, e1, apply_ite Prod.fst, ite_counters]
    split at hu
    · exact refused ⟨rfl, rfl⟩ _ hu
    · split at hu
      · exact refused ⟨rfl, rfl⟩ _ hu
      · split at hu
        · exact Option.mem_some.1 hu ▸ read
        · split at hu
          · exact refused read _ hu
          · split at hu
            · exact refused read _ hu
            · split at hu
              · exact Option.mem_some.1 hu ▸ read.trans (by simp [s1])
              · cases hu

@[simp] theorem State.startPool_counters (s : State) (l : Nat) (init : LaunchInit) : SameCounters s (s.startPool l init) := by
  simp [State.startPool]

@[simp] theorem State.startHead_counters (s : State) (l : Nat) (place : LaunchPlace) : SameCounters s (s.startHead l place) := by
  unfold State.startHead
  extract_lets w turn
  have turned {u : State} (h : SameCounters s u) : SameCounters s (turn u) := h
  refine .ite (.ite (getD_counters ?_ ⟨rfl, rfl⟩) (turned (s.startPool_counters l place.init))) ⟨rfl, rfl⟩
  intro u hu
  simp only [Option.mem_def, Option.map_eq_some_iff] at hu
  obtain ⟨v, hv, rfl⟩ := hu
  exact turned (s.startLattice_counters _ _ _ _ v hv)

theorem execLaunchStart_counters (l : Nat) (place : LaunchPlace) (s : State) : CountersKept s (execLaunchStart l place s) :=
  .next (.ite (by simp) (.ite (by simp) (by simp)))

theorem execPreempt_counters (c : Nat) (cs : List Nat) (why : PreemptReason) (s : State) : CountersKept s (execPreempt c cs why s) :=
  .next (.ite (by simp) (by simp))

theorem execGridComplete_counters (l : Nat) (s : State) : CountersKept s (execGridComplete l s) :=
  .next (.ite (by simp) (by simp))

end Sys2Proof.Machine
end

section
/-! PROOF. Resets, links, host ports, the bundle former, the racking unit's instructions and the management commands leave the grace counters. -/

namespace Sys2Proof.Machine

/-! ### Resets, fault queues and links -/

@[simp] theorem State.flushRoutes_counters (s : State) (i : Nat) : SameCounters s (s.flushRoutes i) := by
  simp [State.flushRoutes]

@[simp] theorem State.failOps_counters (s : State) (c : Word) (st : BitVec 16) : SameCounters s (s.failOps c st) :=
  foldl_counters (fun s i => by simp [ite_counters]) _ s

@[simp] theorem State.resetDie_counters (s : State) (d : Nat) (b : Bool) : SameCounters s (s.resetDie d b) := by
  simp [State.resetDie]

theorem execDieResetCompleted_counters (d : Nat) (s : State) : CountersKept s (execDieResetCompleted d s) := by
  refine .next ?_
  split <;> simp

theorem execDieFatal_counters (d : Nat) (f : BitVec 2) (s : State) : CountersKept s (execDieFatal d f s) :=
  .next (.ite (by simp [ite_counters]) (by simp))

theorem execFaultRecordOffer_counters (d : Nat) (s : State) : CountersKept s (execFaultRecordOffer d s) := by
  unfold execFaultRecordOffer
  extract_lets s1
  have drained : SameCounters s s1 := by
    unfold s1
    split
    · simp
    · refine .ite ?_ ⟨rfl, rfl⟩
      dsimp only
      split <;> simp
  refine .next ?_
  split
  · exact drained
  · exact getD_counters (fun u hu => drained.trans (SameCounters.trans (by simp) (State.takeFault_counters _ _ _ u hu))) drained

@[simp] theorem State.terminateOp_counters (s : State) (i : Nat) : SameCounters s (s.terminateOp i) := by
  simp [State.terminateOp]

@[simp] theorem State.answer_counters (s : State) (d : Nat) (b : Bool) : SameCounters s (s.answer d b) := by
  unfold State.answer
  split
  · simp
  · dsimp only
    split
    · simp
    · split
      · split <;> simp [ite_counters]
      · split <;> simp [ite_counters]

@[simp] theorem State.modLink_counters (s : State) (n : Nat) (f : Link → Link) : SameCounters s (s.modLink n f) := ⟨rfl, rfl⟩

@[simp] theorem State.setMember_counters (s : State) (k : BitVec 8) (n : Nat) : SameCounters s (s.setMember k n) := by
  simp [State.setMember, ite_counters]

@[simp] theorem State.loseAll_counters (s : State) (lost : List Nat) : SameCounters s (s.loseAll lost) := by
  unfold State.loseAll
  exact (foldl_counters State.loseRoute_counters _ s).trans (foldl_counters State.loseMember_counters _ _)

@[simp] theorem State.dropMember_counters (s : State) (k : Option (BitVec 8)) : SameCounters s (s.dropMember k) := by
  cases k <;> simp [State.dropMember, ite_counters]

theorem execLinkRetriesExhausted_counters (p : Nat) (lost : List Nat) (s : State) :
    CountersKept s (execLinkRetriesExhausted p lost s) := by
  refine .next ?_
  split
  · exact .ite (by simp) (by simp)
  · simp

theorem execLinkUp_counters (p : Nat) (k : BitVec 8) (n : Nat) (s : State) : CountersKept s (execLinkUp p k n s) := by
  refine .next ?_
  split
  · simp [ite_counters]
  · simp

theorem execTimeLockLost_counters (s : State) : CountersKept s (execTimeLockLost s) :=
  .next (.ite (by simp) (by simp))

theorem execTimeLockGained_counters (t : BitVec 64) (s : State) : CountersKept s (execTimeLockGained t s) :=
  .next (.ite (by simp) (by simp))

/-! ### Host ports -/

@[simp] theorem State.hostError_counters (s : State) (p : BitVec 1) (l va : Nat) (c : Word) : SameCounters s (s.hostError p l va c) :=
  ⟨rfl, rfl⟩

@[simp] theorem State.aer_counters (s : State) (p : BitVec 1) (b : Nat) : SameCounters s (s.aer p b) := ⟨rfl, rfl⟩

@[simp] theorem State.unsupported_counters (s : State) (p : BitVec 1) (q : Nat) : SameCounters s (s.unsupported p q) := ⟨rfl, rfl⟩

theorem execInboundPostedWrite_counters (p : BitVec 1) (q off : Nat) (bs : List Byte) (poisoned : Bool) (s : State) :
    CountersKept s (execInboundPostedWrite p q off bs poisoned s) := .next (by simp [ite_counters])

theorem execInboundRead_counters (p : BitVec 1) (q off n : Nat) (s : State) : CountersKept s (execInboundRead p q off n s) := by
  unfold execInboundRead
  extract_lets x y done s1
  have finished (u : State) (r : Option (List Byte)) : SameCounters u (done u r) := by simp [done, ite_counters]
  refine .next (.ite ⟨rfl, rfl⟩ (.ite (by simp) (.ite ⟨rfl, rfl⟩ ?_)))
  have walked : SameCounters s s1 := s.walkEcc_counters _ _ _ _
  split
  · exact walked.trans (.ite (SameCounters.trans (by simp) (finished _ _)) (SameCounters.trans (by simp) (finished _ _)))
  · exact walked.trans (SameCounters.trans (by simp) (finished _ _))

@[simp] theorem State.performLgo_counters (s : State) (p : BitVec 1) (w : LgoWrite) : SameCounters s (s.performLgo p w) := by
  unfold State.performLgo
  refine .ite (by simp) ?_
  split <;> simp

@[simp] theorem State.writeLgo_counters (s : State) (p : BitVec 1) (q : Nat) (c : Word) : SameCounters s (s.writeLgo p q c) := by
  unfold State.writeLgo
  dsimp only
  split <;> simp [ite_counters]

theorem execHostLaunch_counters (p : BitVec 1) (q : Nat) (c : Word) (s : State) : CountersKept s (execHostLaunch p q c s) :=
  .next (.ite (by simp) (by simp))

@[simp] theorem writePort_counters (s : State) (p : BitVec 1) (b off : Nat) (v : Word) : SameCounters s (writePort s p b off v) := by
  unfold writePort
  refine .ite (.ite ⟨rfl, rfl⟩ ⟨rfl, rfl⟩) ?_
  split
  case h_3 => simp [ite_counters]
  all_goals simp

@[simp] theorem startCommand_counters (s : State) (v : Word) : SameCounters s (startCommand s v) := by
  simp [startCommand, ite_counters]

@[simp] theorem setErrinj_counters (s : State) (v : Word) : SameCounters s (setErrinj s v) := ⟨rfl, rfl⟩

@[simp] theorem controlWrite_counters (s : State) (off : Nat) (v : Word) : SameCounters s (controlWrite s off v) := by
  simp [controlWrite, ite_counters]

@[simp] theorem State.raisePending_counters (s : State) (p : BitVec 1) : SameCounters s (s.raisePending p) := by
  simp [State.raisePending, ite_counters]

theorem execControlRegisterWrite_counters (a : ControlAccess) (v : Word) (s : State) :
    CountersKept s (execControlRegisterWrite a v s) := .next (by simp [ite_counters])

/-! ### The bundle former -/

theorem execMeetRelease_counters (w : Nat) (pc : Word) (s : State) : CountersKept s (execMeetRelease w pc s) :=
  .next (.ite (foldl_counters (fun s t => by simp [ite_counters]) _ _) ⟨rfl, rfl⟩)

theorem execBundleRegroup_counters (c : Nat) (gs : List (List Nat)) (s : State) : CountersKept s (execBundleRegroup c gs s) :=
  .next (.ite (by simp [ite_counters]) ⟨rfl, rfl⟩)

theorem execIssueBound_counters (c i : Nat) (s : State) : CountersKept s (execIssueBound c i s) :=
  .next (.ite ⟨rfl, rfl⟩ ⟨rfl, rfl⟩)

/-- The state in which a bundle's issue ends or its instruction executes has the counters of s. -/
def Issued.Kept (s : State) : Issued → Prop
  | .settled u | .run _ u => SameCounters s u

theorem issueOf_counters (s : State) (c : Nat) (b : List Nat) : (issueOf s c b).Kept s := by
  unfold issueOf
  split
  · exact ⟨rfl, rfl⟩
  · split
    · exact SameCounters.ite (by simp) (by simp)
    · extract_lets i lanes s1
      have cached : SameCounters s s1 := by simp [s1]
      split
      · exact cached
      · split
        · exact cached.trans (by simp)
        · exact cached

theorem execBsld_counters (x : Option Ext) (a : Operand) (k ea eb n : Bool) (s : State) : CountersKept s (execBsld x a k ea eb n s) :=
  .next (runPlain_counters (fun s t => by simp) _ _ _ s)

theorem execBsget_counters (x : Option Ext) (d : Operand) (n : BitVec 6) (s : State) : CountersKept s (execBsget x d n s) :=
  .next (runPlain_counters (fun s t => orWait_counters (by simp) _ _) _ _ _ s)

/-! ### The racking unit -/

theorem execQenter_counters (x : Option Ext) (s : State) : CountersKept s (execQenter x s) :=
  .next (runPlain_counters (fun s t => by simp) _ _ _ s)

@[simp] theorem bundleMark_counters (x : Option Ext) (k : BitVec 3) (b : Nat) (m : Marker) (s : State) (t : Nat) :
    SameCounters s (bundleMark x k b m s t) := by simp [bundleMark]

@[simp] theorem issueMark_counters (x : Option Ext) (k : BitVec 3) (m : Marker) (s : State) (t : Nat) :
    SameCounters s (issueMark x k m s t) := bundleMark_counters x k 0 m s t

theorem execQleave_counters (x : Option Ext) (s : State) : CountersKept s (execQleave x s) :=
  .next (runPlain_counters (issueMark_counters x 3 .qleave) _ _ _ s)

theorem execQpt_counters (x : Option Ext) (s : State) : CountersKept s (execQpt x s) :=
  .next (runPlain_counters (issueMark_counters x 3 .qpt) _ _ _ s)

theorem execGwait_counters (x : Option Ext) (s : State) : CountersKept s (execGwait x s) :=
  .next (runPlain_counters (fun s t => by split <;> simp) _ _ _ s)

@[simp] theorem joinGstart_counters (x : Option Ext) (d : Operand) (old : Nat → Nat) (s : State) (t : Nat) :
    SameCounters s (joinGstart x d old s t) := by
  unfold joinGstart
  dsimp only
  split <;> simp

theorem execGstart_counters (x : Option Ext) (d : Operand) (s : State) : CountersKept s (execGstart x d s) :=
  .next (runPlain_counters (joinGstart_counters x d s.fifoLens) _ _ _ s)

theorem execGpoll_counters (x : Option Ext) (p : BitVec 3) (a : Operand) (s : State) : CountersKept s (execGpoll x p a s) :=
  .next (runPlain_counters (fun s t => by simp [ite_counters]) _ _ _ s)

theorem execPalloc_counters (x : Option Ext) (d a : Operand) (ea eb : Bool) (s : State) : CountersKept s (execPalloc x d a ea eb s) := by
  refine .next (runPlain_counters (fun s t => ?_) _ _ _ s)
  extract_lets k c r
  have given : SameCounters s r.1 := by
    unfold r
    split
    · exact ⟨rfl, rfl⟩
    · split <;> simp
  exact given.trans (by simp)

theorem execPfree_counters (x : Option Ext) (a b : Operand) (ea eb : Bool) (s : State) : CountersKept s (execPfree x a b ea eb s) :=
  .next (runPlain_counters (fun s t => by simp) _ _ _ s)

theorem execLees_counters (x : Option Ext) (a b : Operand) (ea eb : Bool) (s : State) : CountersKept s (execLees x a b ea eb s) :=
  .next (runPlain_counters (fun s t => by simp) _ _ _ s)

@[simp] theorem State.returnLees_counters (s : State) (d : Nat) : SameCounters s (s.returnLees d) := by
  simp [State.returnLees]

/-! ### Special registers -/

@[simp] theorem latchTime_counters (s : State) (t n : Nat) : SameCounters s (latchTime s t n) := by
  simp [latchTime, ite_counters]

theorem execGets_counters (x : Option Ext) (d : Operand) (n : BitVec 11) (s : State) : CountersKept s (execGets x d n s) :=
  .next (runPlain_counters (fun s t => by simp) _ _ _ s)

@[simp] theorem setSreg_counters (s : State) (t n : Nat) (w : Word) : SameCounters s (setSreg s t n w) := by
  unfold setSreg
  dsimp only
  split <;> simp

theorem execSets_counters (x : Option Ext) (a : Operand) (n : BitVec 11) (s : State) : CountersKept s (execSets x a n s) :=
  .next (runPlain_counters (fun s t => by simp) _ _ _ s)

/-! ### Management -/

@[simp] theorem State.tamper_counters (s : State) (i : BitVec 3) : SameCounters s (s.tamper i) := by
  simp [State.tamper, ite_counters]

theorem execTamperAlarm_counters (i : BitVec 3) (s : State) : CountersKept s (execTamperAlarm i s) :=
  .next (.ite (by simp) (by simp))

@[simp] theorem State.verified_counters (s : State) (ok : Bool) : SameCounters s (s.verified ok) := by
  simp [State.verified, ite_counters]

@[simp] theorem State.cmdResult_counters (s : State) (code : Nat) : SameCounters s (s.cmdResult code) := ⟨rfl, rfl⟩

theorem runCommand_counters {act : State → State} (ha : ∀ s, SameCounters s (act s)) (s : State) (op : Nat) (blk : List Word)
    (causes : List (Nat × Bool)) : SameCounters s (runCommand s op blk causes act) := by simp [runCommand, ha, ite_counters]

theorem runImage_counters {act : State → State} (ha : ∀ s, SameCounters s (act s)) (s : State) (op : Nat) (blk : List Word)
    (before : List (Nat × Bool)) (ok : Bool) (after : List (Nat × Bool)) :
    SameCounters s (runImage s op blk before ok after act) := by simp [runImage, runCommand_counters ha, ite_counters]

theorem execCreateContext_counters (blk rec pools : List Word) (room : Bool) (s : State) :
    CountersKept s (execCreateContext blk rec pools room s) := .next (runCommand_counters (fun s => by simp) _ _ _ _)

theorem execDestroyContext_counters (blk : List Word) (s : State) : CountersKept s (execDestroyContext blk s) :=
  .next (runCommand_counters (fun s => by simp) _ _ _ _)

theorem execLoadScheduleImage_counters (blk : List Word) (img sig : List Byte) (room : Bool) (s : State) :
    CountersKept s (execLoadScheduleImage blk img sig room s) := .next (runImage_counters (fun s => by simp) _ _ _ _ _ _)

theorem execLoadFirmware_counters (blk : List Word) (img sig : List Byte) (s : State) :
    CountersKept s (execLoadFirmware blk img sig s) := .next (runImage_counters (fun s => by simp) _ _ _ _ _ _)

theorem execSetDomainRank_counters (blk : List Word) (s : State) : CountersKept s (execSetDomainRank blk s) :=
  .next (runCommand_counters (fun s => by simp) _ _ _ _)

theorem execResetDie_counters (blk : List Word) (s : State) : CountersKept s (execResetDie blk s) :=
  .next (runCommand_counters (fun s => by simp) _ _ _ _)

theorem execClearBootHistory_counters (blk : List Word) (s : State) : CountersKept s (execClearBootHistory blk s) :=
  .next (runCommand_counters (fun s => by simp) _ _ _ _)

theorem execAnswerFault_counters (blk : List Word) (s : State) : CountersKept s (execAnswerFault blk s) :=
  .next (.ite (runCommand_counters (fun s => by simp) _ _ _ _) ⟨rfl, rfl⟩)

theorem execManagementCommandDone_counters (s : State) : CountersKept s (execManagementCommandDone s) :=
  .next (.ite ⟨rfl, rfl⟩ ⟨rfl, rfl⟩)

theorem spdmAnswer_counters (s : State) (p : BitVec 1) (name : String) : SameCounters s (spdmAnswer s p name) :=
  .ite ⟨rfl, rfl⟩ ⟨rfl, rfl⟩

end Sys2Proof.Machine
end

section
/-! PROOF. Which instructions and events move the grace counters, and how; from this, O26. -/

namespace Sys2Proof.Machine

/-! ### The dispatch -/

/-- The four instructions and events that write G or GDONE: BEGIN, END and the starts of the device. -/
def movesCounters : Instr → Bool
  | .beginPeriod | .endPeriod | .deviceStart _ | .deviceRestart _ => true
  | _ => false

theorem exec_counters (i : Instr) (s : State) (h : movesCounters i = false) : CountersKept s (exec i s) := by
  cases i with
  | add | sub | mul | mulh | mulhu | mad | div | divu | rem | remu | min | max | minu | maxu | and_ | or_ | xor | andn |
    shl | shr | sar | rot | addsat | addi | muli | andi | ori | xori | shli | shri | sari | roti | movi | movh | mov |
    not_ | neg | abs | clz | ctz | popc | brev | bswap | sxb | sxh | zxb | zxh | setp | sel | setpi | fadd | fsub | fmul |
    ffma | fmin | fmax | fdiv | fsetp | fabs | fneg | fsqrt | frcp | frsq | fexp2 | flog2 | ffloor | fceil | ftrunc |
    frint | f2i | f2iz | f2u | f2uz | i2f | u2f | f2bf | bf2f | f2h | h2f | bfma2 | badd2 | dot4 | dot8 | fscl | pk8 |
    upk8 | pk4 | upk4 | ftag | bfx | bfi | blend | bsrf | mupdw | mupd | mclr | mmean | mvar | mvars | mrstd | msum =>
    exact runJob_counters _ s
  | ldn | lda | ldc | ldw => exact runLoad_counters _ _ s
  | stn | sta | stc => exact runStore_counters _ _ s
  | vote | veq | shfl | xchg | wred | wscan => exact runCross_counters _ s
  | join | leaveMask | mzeroMask | mfill | mmov | mand | mor | mxor | mnot => exact runMask_counters (fun s t => by simp) _ _ s
  | phase | phaseRetire => exact runPhase_counters _ _ s
  | barInit | barArrive | barExpect => exact runBar_counters _ _ _ _ _ _ _ _ s
  | getVersion | getCapabilities | negotiateAlgorithms | getDigests | getCertificate | challenge | getMeasurements =>
    exact .next (spdmAnswer_counters _ _ _)
  | bsld x a k ea eb n => exact execBsld_counters x a k ea eb n s
  | bsget => exact execBsget_counters _ _ _ s
  | jmp => exact execJmp_counters _ s
  | brp => exact execBrp_counters _ _ _ s
  | call => exact execCall_counters _ s
  | nop => exact execNop_counters _ s
  | ret => exact execRet_counters _ s
  | exit => exact execExit_counters _ s
  | yield => exact execYield_counters _ s
  | brk => exact execBrk_counters _ s
  | jmpi w eb => exact execJmpi_counters w eb s
  | meet => exact execMeet_counters _ s
  | mwait => exact execMwait_counters _ _ s
  | mpopc => exact execMpopc_counters _ _ _ s
  | mtos => exact execMtos_counters _ _ _ s
  | loop => exact execLoop_counters _ _ _ _ _ s
  | wbase => exact execWbase_counters _ _ _ s
  | ldsc => exact execLdsc_counters _ _ _ _ s
  | atom => exact execAtom_counters _ _ _ _ _ s
  | ared => exact execAred_counters _ _ _ _ s
  | aredX => exact execAredX_counters _ _ _ _ s
  | ldx w eb => exact execLdx_counters w eb s
  | stx => exact execStx_counters _ _ _ s
  | fence => exact execFence_counters _ s
  | fenceNtdrain => exact execFenceNtdrain_counters _ s
  | pref x a off => exact execPref_counters x a off s
  | atoma => exact execAtoma_counters _ _ _ _ _ s
  | areda => exact execAreda_counters _ _ _ _ s
  | nbok => exact execNbok_counters _ _ _ s
  | lred => exact execLred_counters _ _ _ _ _ s
  | lcfg => exact execLcfg_counters _ _ _ s
  | mres => exact execMres_counters _ _ s
  | mresw => exact execMresw_counters _ s
  | mrel => exact execMrel_counters _ s
  | mma x d a b k eb => exact execMma_counters x d a b k eb s
  | mdr x d a k ea eb => exact execMdr_counters x d a k ea eb s
  | xcp => exact execXcp_counters _ _ _ _ s
  | xsort => exact execXsort_counters _ _ _ _ s
  | xcol => exact execXcol_counters _ _ _ _ s
  | mzero => exact execMzero_counters _ _ _ s
  | barWait => exact execBarWait_counters _ _ _ _ s
  | barTest => exact execBarTest_counters _ _ _ _ _ s
  | fwait => exact execFwait_counters _ _ _ s
  | ftest => exact execFtest_counters _ _ _ s
  | fcancel => exact execFcancel_counters _ _ s
  | qenter => exact execQenter_counters _ s
  | qleave => exact execQleave_counters _ s
  | qpt => exact execQpt_counters _ s
  | gwait => exact execGwait_counters _ s
  | gstart => exact execGstart_counters _ _ s
  | gpoll => exact execGpoll_counters _ _ _ s
  | lees => exact execLees_counters _ _ _ _ _ s
  | palloc x d a ea eb => exact execPalloc_counters x d a ea eb s
  | pfree => exact execPfree_counters _ _ _ _ _ s
  | qlen => exact execQlen_counters _ _ _ s
  | qbind => exact execQbind_counters _ _ _ s
  | launch => exact execLaunch_counters _ _ _ _ s
  | trap => exact execTrap_counters _ _ s
  | rte => exact execRte_counters _ s
  | gets => exact execGets_counters _ _ _ s
  | sets => exact execSets_counters _ _ _ s
  | twait => exact execTwait_counters _ _ _ s
  | tlbinv => exact execTlbinv_counters _ _ s
  | ctxsave => exact execCtxsave_counters _ _ _ s
  | ctxload => exact execCtxload_counters _ _ _ s
  | icinv => exact execIcinv_counters _ s
  | halt => exact execHalt_counters _ _ s
  | leaveFifo => exact execLeaveFifo_counters _ s
  | apply => exact execApply_counters _ s
  | drain => exact execDrain_counters _ _ s
  | merge => exact execMerge_counters _ _ _ s
  | fill => exact execFill_counters _ _ s
  | evict => exact execEvict_counters _ _ s
  | perform => exact execPerform_counters _ _ s
  | ntDrain => exact execNtDrain_counters _ _ s
  | deliver => exact execDeliver_counters _ _ s
  | engineStart => exact execEngineStart_counters _ s
  | engineRead => exact execEngineRead_counters _ _ s
  | engineWrite => exact execEngineWrite_counters _ _ s
  | engineComplete => exact execEngineComplete_counters _ s
  | engineCancel => exact execEngineCancel_counters _ s
  | channelPopServed => exact execChannelPopServed_counters _ _ s
  | meetRelease => exact execMeetRelease_counters _ _ s
  | crossLaneMeeting => exact execCrossLaneMeeting_counters _ s
  | mwaitRelease => exact execMwaitRelease_counters _ _ s
  | bundleRegroup => exact execBundleRegroup_counters _ _ s
  | issueBound => exact execIssueBound_counters _ _ s
  | deferredComplete => exact execDeferredComplete_counters _ _ s
  | phaseEnd => exact execPhaseEnd_counters _ s
  | faceDelivery => exact execFaceDelivery_counters _ _ _ s
  | phaseReport => exact execPhaseReport_counters _ _ _ s
  | lredResult => exact execLredResult_counters _ _ s
  | pagerFill => exact execPagerFill_counters _ s
  | pagerExchange => exact execPagerExchange_counters _ s
  | launchStart => exact execLaunchStart_counters _ _ s
  | teamClaim => exact execTeamClaim_counters _ _ _ s
  | packStart => exact execPackStart_counters _ _ _ s
  | gridComplete => exact execGridComplete_counters _ s
  | trapDelivery => exact execTrapDelivery_counters _ s
  | preempt => exact execPreempt_counters _ _ _ s
  | restore => exact execRestore_counters _ _ s
  | twaitExpiry => exact execTwaitExpiry_counters _ s
  | faultRecordOffer => exact execFaultRecordOffer_counters _ s
  | peerAckTimeout => exact execPeerAckTimeout_counters _ s
  | inboundPostedWrite => exact execInboundPostedWrite_counters _ _ _ _ _ s
  | inboundRead => exact execInboundRead_counters _ _ _ _ s
  | hostLaunch => exact execHostLaunch_counters _ _ _ s
  | createContext => exact execCreateContext_counters _ _ _ _ s
  | destroyContext => exact execDestroyContext_counters _ s
  | loadScheduleImage => exact execLoadScheduleImage_counters _ _ _ _ s
  | loadFirmware => exact execLoadFirmware_counters _ _ _ s
  | setDomainRank => exact execSetDomainRank_counters _ s
  | resetDie => exact execResetDie_counters _ s
  | clearBootHistory => exact execClearBootHistory_counters _ s
  | answerFault => exact execAnswerFault_counters _ s
  | controlRegisterWrite => exact execControlRegisterWrite_counters _ _ s
  | linkRetriesExhausted => exact execLinkRetriesExhausted_counters _ _ s
  | linkUp => exact execLinkUp_counters _ _ _ s
  | timeLockLost => exact execTimeLockLost_counters s
  | timeLockGained => exact execTimeLockGained_counters _ s
  | dieFatal => exact execDieFatal_counters _ _ s
  | tamperAlarm => exact execTamperAlarm_counters _ s
  | dieResetCompleted => exact execDieResetCompleted_counters _ s
  | managementCommandDone => exact execManagementCommandDone_counters s
  | hostCompletion => exact execHostCompletion_counters _ _ _ s
  | frespReplay | frespTerminate => exact .next (State.answer_counters _ _ _)
  | errinj => exact .next (setErrinj_counters _ _)
  | eqpop | fatalstat | timelo | hostLinkDown => exact .next ⟨rfl, rfl⟩
  | linkstat | linkRetry => exact .next (State.modLink_counters _ _ _)
  | memberCompletesStart => exact .next (State.setMember_counters _ _ _)
  | beginPeriod | endPeriod | deviceStart | deviceRestart => exact nomatch h

/-! ### The invariant -/

theorem SameCounters.grace {s u : State} (h : SameCounters s u) (hs : s.Grace) : u.Grace := by
  obtain ⟨hg, hd⟩ := h
  rw [State.Grace, hg, hd]
  exact hs

/-- A period begins only when none is in progress, and then G moves one ahead of GDONE. -/
theorem execBeginPeriod_grace {s u : State} (hs : s.Grace) (h : execBeginPeriod s = .next u) : u.Grace := by
  obtain rfl := Host.Outcome.next.inj h
  split
  case isTrue hidle => exact .inr (hidle.1.trans (BitVec.add_sub_cancel s.g 1).symm)
  case isFalse => exact hs

/-- A period that ends sets GDONE to G. -/
theorem execEndPeriod_grace {s u : State} (hs : s.Grace) (h : execEndPeriod s = .next u) : u.Grace := by
  obtain rfl := Host.Outcome.next.inj h
  split
  case isTrue => exact .inl (foldl_counters State.returnLees_counters _ s).1.symm
  case isFalse => exact hs

theorem State.countStep_counters (s : State) (r : StartRec) (halted : Bool) (i : Nat) : SameCounters s (s.countStep r halted i) :=
  .ite (by simp) (.ite (by simp) ⟨rfl, rfl⟩)

/-- A start leaves the counters as its reset made them: counting its verifications moves neither. -/
theorem State.boot_counters (s : State) (f : StartFacts) (n : Nat) : SameCounters State.reset (s.boot f n) := by
  unfold State.boot
  extract_lets r rec_ s1 s2 ok s3
  have h1 : SameCounters State.reset s1 := SameCounters.trans (u := s.bootState f n) ⟨rfl, rfl⟩ (State.countStep_counters ..)
  have h2 : SameCounters State.reset s2 := .ite h1 (h1.trans (State.countStep_counters ..))
  have h3 : SameCounters State.reset s3 := h2.trans (State.verified_counters ..)
  exact .ite (.ite h3 h3) h2

theorem reset_grace : State.reset.Grace := .inl rfl

theorem execDeviceStart_grace {s u : State} (f : StartFacts) (h : execDeviceStart f s = .next u) : u.Grace := by
  obtain rfl := Host.Outcome.next.inj h
  exact (s.boot_counters f 0).grace reset_grace

theorem execDeviceRestart_grace {s u : State} (f : StartFacts) (hs : s.Grace) (h : execDeviceRestart f s = .next u) : u.Grace := by
  obtain rfl := Host.Outcome.next.inj h
  split
  · exact hs
  · exact (s.boot_counters f _).grace reset_grace

theorem exec_grace {i : Instr} {s u : State} (hs : s.Grace) (h : exec i s = .next u) : u.Grace := by
  cases hm : movesCounters i with
  | false => exact (exec_counters i s hm u h).grace hs
  | true =>
    cases i with
    | beginPeriod => exact execBeginPeriod_grace hs h
    | endPeriod => exact execEndPeriod_grace hs h
    | deviceStart f => exact execDeviceStart_grace f h
    | deviceRestart f => exact execDeviceRestart_grace f hs h
    | _ => nomatch hm

/-- Whatever a step does, an event or the issue of a bundle, is an instruction executed in a state with the counters of s. -/
theorem taken_grace {s u : State} (hs : s.Grace) (h : taken s = .next u) : u.Grace := by
  unfold taken at h
  split at h
  case h_1 => exact exec_grace hs h
  case h_2 =>
    split at h
    case h_1 c b _ =>
      have kept := issueOf_counters { s with forced := none } c ((s.co c).bundles.getD b [])
      split at h
      case h_1 v hi =>
        rw [hi] at kept
        obtain rfl := Host.Outcome.next.inj h
        exact SameCounters.grace (s := s) kept hs
      case h_2 i v hi =>
        rw [hi] at kept
        exact exec_grace (SameCounters.grace (s := s) kept hs) h
    case h_2 =>
      split at h
      case h_1 e _ =>
        split at h
        · exact exec_grace hs h
        · exact Host.Outcome.next.inj h ▸ hs
      case h_2 => exact Host.Outcome.next.inj h ▸ hs

theorem State.finishStep_counters (s : State) : SameCounters s s.finishStep := ⟨rfl, rfl⟩

theorem graceKept : Claims.GraceKept := by
  intro s u hs h
  unfold step at h
  split at h
  · cases h
  · split at h
    case h_1 v hv =>
      obtain rfl := Host.Outcome.next.inj h
      exact v.finishStep_counters.grace (taken_grace hs hv)
    all_goals cases h

theorem graceAtReset : Claims.GraceAtReset := ⟨rfl, rfl, rfl, reset_grace⟩

theorem sub_one_ne_self (g : Word) : g - 1 ≠ g := by bv_omega

theorem periodInProgress : Claims.PeriodInProgress := by
  refine fun s => ⟨fun hrun => ?_, fun hidle => ?_, fun hg hd hreq => ?_⟩
  · have hne : ¬ (s.gdone = s.g ∧ s.req) := fun h => sub_one_ne_self s.g (hrun.symm.trans h.1)
    exact congrArg Host.Outcome.next (if_neg hne)
  · have hne : ¬ (s.gdone = s.g - 1 ∧ ¬ s.threads.any (holdsPeriod s)) := fun h => hidle h.1
    exact congrArg Host.Outcome.next (if_neg hne)
  · refine ⟨_, rfl, ?_⟩
    rw [if_pos ⟨hd, hreq⟩]
    show s.g + 1 = 0
    rw [hg]
    rfl

/-- Settles O26: only BEGIN, END and a start of the device move G or GDONE (`exec_counters`); each of them leaves GDONE at G or at
G − 1, and a step executes one instruction at most (`graceKept`). Reset has both at 0 (`graceAtReset`); as G − 1 is never G, BEGIN does
nothing while a period is in progress and END nothing while none is (`periodInProgress`). -/
theorem graceCounterInvariant : Obligations.GraceCounterInvariant :=
  ⟨graceKept, graceAtReset, periodInProgress⟩

end Sys2Proof.Machine
end

section
/-! PROOF. The die fault queues (R313 to R315): what enters one, and that no other operation but an answer adds or removes a record or
changes its words; the end of a context marks records. -/

namespace Sys2Proof.Machine

/-! ### Entering a queue -/

/-- What a change of one entry of a table leaves of that entry, it leaves of every entry. -/
theorem getD_modify_proj {α β : Type} (g : α → β) {f : α → α} (h : ∀ x, g (f x) = g x) (l : List α) (i j : Nat) (d : α) :
    g ((l.modify i f).getD j d) = g (l.getD j d) := by
  rw [getD_modify]
  split
  · next hij => rw [h, hij.1]
  · rfl

theorem State.pushEvent_die (s : State) (e : EventRec) (d : Nat) : (s.pushEvent e).die d = s.die d := by
  rw [State.pushEvent_only]
  rfl

/-- An event of a die goes to the event queue, to the die's latch or is lost: the fault queues and the waiting records stay. -/
@[simp] theorem State.dieEvent_queues (s : State) (d : Nat) (k : BitVec 8) (de : BitVec 16) (i j : Word) (x : Nat) :
    ((s.dieEvent d k de i j).die x).faultq = (s.die x).faultq ∧ ((s.dieEvent d k de i j).die x).offers = (s.die x).offers := by
  unfold State.dieEvent
  split
  · rw [State.pushEvent_die]
    exact ⟨rfl, rfl⟩
  · split <;> exact ⟨getD_modify_proj Die.faultq (by simp) _ _ _ _, getD_modify_proj Die.offers (by simp) _ _ _ _⟩

/-- A record enters at the end of its die's queue. -/
theorem State.enterFault_queues (s : State) (d : Nat) (f : FaultRec) (hd : d < s.dies.length) :
    ((s.enterFault d f).die d).faultq = (s.die d).faultq ++ [f] ∧ ((s.enterFault d f).die d).offers = (s.die d).offers := by
  unfold State.enterFault
  dsimp only
  split <;> simp [hd]

/-- With room and nothing latched before it, a record that is offered enters the queue. -/
theorem State.takeFault_room (s : State) (d : Nat) (f : FaultRec) (hroom : s.ioeq < Config.ioeqDepth) (hl : (s.die d).latch = []) :
    s.takeFault d f = some (s.enterFault d f) := by
  simp [State.takeFault, hroom, hl]

/-- With nothing waiting either, so does one that is reported. -/
theorem State.reportFault_room (s : State) (d : Nat) (f : FaultRec) (hroom : s.ioeq < Config.ioeqDepth) (hl : (s.die d).latch = [])
    (ho : (s.die d).offers = []) : s.reportFault d f = s.enterFault d f := by
  simp [State.reportFault, ho, State.takeFault_room s d f hroom hl]

theorem NearSame.sameMemory {s u : State} (h : NearSame s u) (hc : u.cores = s.cores) : SameMemory s u :=
  ⟨fun d a => by rw [h.die], fun c sp a => by rw [State.co, State.co, hc]⟩

theorem latchedRecords : Claims.LatchedRecords := by
  intro s die f rest hlatch hoffers hdie
  refine ⟨fun hroom => ?_, fun hfull => ?_⟩
  · let s0 := s.modDie die fun x => { x with latch := rest }
    have hq : (s0.die die).faultq = (s.die die).faultq ∧ (s0.die die).offers = [] := by simp [s0, hdie, hoffers]
    obtain ⟨hfq, hof⟩ := s0.enterFault_queues die f (by simpa [s0] using hdie)
    refine ⟨s0.enterFault die f, ?_, hfq.trans (by rw [hq.1]), ?_, ?_⟩
    · show execFaultRecordOffer die s = _
      unfold execFaultRecordOffer
      simp only [hlatch, if_pos hroom]
      rw [hof, hq.2]
    · rw [State.enterFault_only]
      rfl
    · refine NearSame.sameMemory (.trans (u := s0) (State.modDie_near s die _ fun _ => rfl) (s0.enterFault_near die f)) ?_
      rw [State.enterFault_only]
      rfl
  · show execFaultRecordOffer die s = _
    unfold execFaultRecordOffer
    simp only [hlatch, if_neg (Nat.not_lt.mpr hfull), hoffers]

/-! ### What leaves the records of the queues -/

/-- Every die fault queue holds the same records, in the same order, by their words (R153); whether a record's context has ended is
no part of them. -/
def SameFaults (s u : State) : Prop := ∀ d, (u.die d).faultq.map FaultRec.words = (s.die d).faultq.map FaultRec.words

theorem SameFaults.refl (s : State) : SameFaults s s := fun _ => rfl

theorem SameFaults.trans {s u v : State} (h : SameFaults s u) (k : SameFaults u v) : SameFaults s v := fun d => (k d).trans (h d)

theorem SameFaults.of_dies {s u : State} (h : u.dies = s.dies) : SameFaults s u := fun d => by rw [State.die, State.die, h]

theorem SameFaults.of_modDie {f : Die → Die} (h : ∀ x, (f x).faultq = x.faultq) (s : State) (d : Nat) : SameFaults s (s.modDie d f) :=
  fun x => congrArg (List.map FaultRec.words) (getD_modify_proj Die.faultq h s.dies d x _)

theorem SameFaults.foldl {α : Type} {f : State → α → State} (l : List α) (h : ∀ s, ∀ x ∈ l, SameFaults s (f s x)) (s : State) :
    SameFaults s (l.foldl f s) :=
  List.foldlRecOn (motive := SameFaults s) l f (.refl s) fun u hu x hx => hu.trans (h u x hx)

/-- A fold whose steps carry a flag along. -/
theorem SameFaults.foldl_fst {α : Type} {f : State × Bool → α → State × Bool} (h : ∀ r x, SameFaults r.1 (f r x).1) (l : List α)
    (r : State × Bool) : SameFaults r.1 (l.foldl f r).1 :=
  List.foldlRecOn (motive := fun q => SameFaults r.1 q.1) l f (.refl r.1) fun q hq x _ => hq.trans (h q x)

theorem State.eccWrite_faults (s : State) (arr : BitVec 16) (a n : Nat) : SameFaults s (s.eccWrite arr a n) := by
  rw [State.eccWrite_only]
  exact .of_dies rfl

theorem State.logError_faults (s : State) (c : Word) (d : Nat) (p : Planted) : SameFaults s (s.logError c d p) := by
  unfold State.logError
  dsimp only
  split
  · intro x
    rw [(State.dieEvent_queues _ _ _ _ _ _ x).1]
    rfl
  · exact .of_dies rfl

theorem State.eccRead_faults (s : State) (arr : BitVec 16) (a n : Nat) (c : Word) (d : Nat) : SameFaults s (s.eccRead arr a n c d).1 :=
  .trans (.of_dies rfl) (SameFaults.foldl _ (fun u p _ => u.logError_faults c d p) _)

theorem State.setNear_faults (s : State) (d a : Nat) (bs : List Byte) : SameFaults s (s.setNear d a bs) :=
  .trans (.of_modDie (by simp) s d) (State.eccWrite_faults _ _ _ _)

theorem State.bufWrite_faults (s : State) (c : Nat) (sp : Space) (a : Nat) (bs : List Byte) : SameFaults s (s.bufWrite c sp a bs) := by
  rw [State.bufWrite_only]
  exact .of_dies rfl

theorem State.placeWrite_faults (s : State) (p : Place) (a : Nat) (bs : List Byte) : SameFaults s (s.placeWrite p a bs) := by
  cases p with
  | near d => exact s.setNear_faults d a bs
  | buf c sp => exact s.bufWrite_faults c sp a bs

theorem State.completeOp_faults (s : State) (i : Nat) (st : BitVec 16) (de : Word) (vs : List Word) :
    SameFaults s (s.completeOp i st de vs) := by
  rw [State.completeOp_only]
  exact .of_dies rfl

theorem State.putArrive_faults (s : State) (d a : Nat) : SameFaults s (s.putArrive d a) := by
  unfold State.putArrive
  dsimp only
  split
  · exact s.setNear_faults _ _ _
  · exact .refl s

/-- The reads of an arrival on DONE, folded with their flag. -/
theorem State.eccReads_faults (arr : BitVec 16) (c : Word) (d : Nat) (l : List (Nat × Nat)) (r : State × Bool) :
    SameFaults r.1 (l.foldl (fun (r : State × Bool) (a : Nat × Nat) =>
      ((r.1.eccRead arr a.1 a.2 c d).1, r.2 || (r.1.eccRead arr a.1 a.2 c d).2)) r).1 := by
  refine SameFaults.foldl_fst (fun q a => ?_) l r
  exact q.1.eccRead_faults arr a.1 a.2 c d

/-- An arrival on DONE reads under the error protection, and writes one object. -/
theorem State.lastArrival_faults (s : State) (l : Nat) : SameFaults s (s.lastArrival l).1 := by
  unfold State.lastArrival
  dsimp only
  split
  · exact .refl s
  · split
    · dsimp only
      split
      · exact State.eccReads_faults _ _ _ _ (s, false)
      · exact (State.eccReads_faults _ _ _ _ (s, false)).trans (State.putArrive_faults _ _ _)
    · exact .refl s

theorem State.endLaunches_faults (s : State) (c : Word) (st : BitVec 16) (de : Word) : SameFaults s (s.endLaunches c st de) := by
  refine SameFaults.foldl _ (fun u l _ => ?_) s
  dsimp only
  split
  · exact .trans (.of_dies rfl) (State.completeOp_faults _ _ _ _ _)
  · split <;> exact (u.lastArrival_faults l).trans (.trans (.of_dies rfl) (State.completeOp_faults _ _ _ _ _))
  · exact .refl u

/-! ### A context's records when it ends (R315) -/

/-- A record as the end of a context leaves it. -/
def FaultRec.endFor (c : Word) (f : FaultRec) : FaultRec := if f.ctx = c then { f with ended := true } else f

@[simp] theorem FaultRec.endFor_words (c : Word) (f : FaultRec) : (f.endFor c).words = f.words := by
  unfold FaultRec.endFor
  split <;> rfl

/-- The end of a context marks its records; beyond that the queues are those that the ends of its grids leave. -/
theorem State.endCtx_faultq (s : State) (c : Word) (st : BitVec 16) (de : Word) (d : Nat) :
    ((s.endCtx c st de).die d).faultq = ((s.endLaunches c st de).die d).faultq.map (FaultRec.endFor c) := by
  unfold State.endCtx
  rw [State.endOps_only]
  simp only [State.die, State.modCtx, List.getD_eq_getElem?_getD, List.getElem?_map]
  cases (s.endLaunches c st de).dies[d]? <;> rfl

theorem State.endCtx_faults (s : State) (c : Word) (st : BitVec 16) (de : Word) : SameFaults s (s.endCtx c st de) := fun d => by
  have hwords : FaultRec.words ∘ FaultRec.endFor c = FaultRec.words := funext (FaultRec.endFor_words c)
  rw [State.endCtx_faultq, List.map_map, hwords]
  exact s.endLaunches_faults c st de d

theorem State.endCtx_marks (s : State) (c : Word) (st : BitVec 16) (de : Word) (d : Nat) :
    ∀ g ∈ ((s.endCtx c st de).die d).faultq, g.ctx = c → g.ended = true := by
  intro g hg hc
  rw [State.endCtx_faultq] at hg
  obtain ⟨f, -, rfl⟩ := List.mem_map.1 hg
  unfold FaultRec.endFor at hc ⊢
  split
  · rfl
  · next hf => exact absurd (by rwa [if_neg hf] at hc) hf

/-! ### Writes and completions of a command that is terminated (R241) -/

theorem State.eccGuard_faults (s : State) (arr : BitVec 16) (a n : Nat) (c : Word) (d : Nat) :
    SameFaults s (s.eccGuard arr a n c d).1 := by
  unfold State.eccGuard
  dsimp only
  split
  · exact (s.eccRead_faults arr a n c d).trans (State.endCtx_faults _ _ _ _)
  · exact s.eccRead_faults arr a n c d

theorem State.placeEcc_faults (s : State) (p : Place) (a n : Nat) (c : Word) : SameFaults s (s.placeEcc p a n c).1 := by
  cases p <;> exact State.eccGuard_faults _ _ _ _ _ _

theorem State.partEcc_faults (s : State) (p : Place) (a n : Nat) (c : Word) : SameFaults s (s.partEcc p a n c).1 := by
  unfold State.partEcc
  extract_lets x
  have hx : SameFaults s x.1 := by
    unfold x
    split
    · exact s.placeEcc_faults _ _ _ _
    · exact .refl s
  split
  · exact hx
  · exact hx.trans (State.placeEcc_faults _ _ _ _ _)

theorem State.countBar_faults (s : State) (p : Place) (a n : Nat) (c : Word) : SameFaults s (s.countBar p a n c).1 := by
  unfold State.countBar
  dsimp only
  split
  · exact s.placeEcc_faults _ _ _ _
  · exact (s.placeEcc_faults _ _ _ _).trans (State.placeWrite_faults _ _ _ _)

/-- An engine's write to near memory, with its count at a barrier object, makes no fault record. -/
theorem State.deliverEffect_write_faults (s : State) (r : Route) (m : PeerMsg) {i : Nat} {parts : List (Nat × List Byte)}
    {obj : Option Nat} (h : r.body = .write i parts obj) : SameFaults s (s.deliverEffect r m) := by
  unfold State.deliverEffect
  rw [h]
  dsimp -zeta only
  extract_lets d e s1
  have he : SameFaults s e.1 := by
    refine SameFaults.foldl_fst (fun q p => ?_) parts (s, false)
    split
    · exact .refl _
    · exact State.partEcc_faults _ _ _ _ _
  have h1 : SameFaults s s1 := he.trans (SameFaults.foldl parts (fun u p _ => u.setNear_faults d p.1 p.2) e.1)
  split
  · exact he
  · split
    · exact h1
    · extract_lets c
      have hc : SameFaults s c.1 := h1.trans (State.countBar_faults _ _ _ _ _)
      split
      · exact hc.trans (.of_dies rfl)
      · exact hc

theorem State.flushRoutes_faults (s : State) (i : Nat) : SameFaults s (s.flushRoutes i) := by
  unfold State.flushRoutes
  extract_lets o mine
  refine .trans (.of_dies rfl) (SameFaults.foldl _ (fun u r hr => ?_) _)
  have hr : mine r = true := (List.mem_filter.1 hr).2
  cases hb : r.body with
  | write j ps obj => exact u.deliverEffect_write_faults r _ hb
  | _ => simp [mine, hb] at hr

theorem State.countDown_faults (s : State) (xs : List (Place × Nat × Nat)) (c : Word) : SameFaults s (s.countDown xs c) :=
  SameFaults.foldl xs (fun u x _ => u.countBar_faults x.1 x.2.1 x.2.2 c) s

theorem State.endDone_faults (s : State) (i : Nat) : SameFaults s (s.endDone i) := by
  unfold State.endDone
  extract_lets o wait s1
  have h1 : SameFaults s s1 := by
    unfold s1
    split
    · exact s.bufWrite_faults _ _ _ _
    · exact .refl s
  split
  · exact h1.trans ((State.countDown_faults _ _ _).trans (State.completeOp_faults _ _ _ _ _))
  · exact .refl s

theorem State.terminateOp_faults (s : State) (i : Nat) : SameFaults s (s.terminateOp i) :=
  (s.flushRoutes_faults i).trans (.trans (.of_dies rfl) (State.endDone_faults _ i))

end Sys2Proof.Machine
end

section
/-! PROOF. The end of a context (R152, R265, R272): its grids complete, each with the given status or with that of an arrival on DONE that
failed translation; its threads exit; no context of its CTXID is live. Operations that were done stay as they are. -/

namespace Sys2Proof.Machine

/-! ### Completion of an operation -/

theorem State.ringRecord_ops (s : State) (p : BitVec 1) (r : Record) : (s.ringRecord p r).ops = s.ops := by
  rw [State.ringRecord_only]

/-- The completion step gives one operation that is not done its stage, status and detail. -/
theorem State.completeOp_op (s : State) (i j : Nat) (st : BitVec 16) (de : Word) (vs : List Word) :
    (s.completeOp i st de vs).op j =
      if i = j ∧ (s.op i).stage ≠ .done then { s.op i with stage := .done, status := st, detail := de } else s.op j := by
  unfold State.completeOp
  dsimp only
  by_cases hs : (s.op i).stage = .done
  · simp [hs]
  · have hlen : i < s.ops.length := Nat.lt_of_not_le fun h => hs (by simp [State.op, List.getD_eq_getElem?_getD, h, Op.blank])
    simp only [hs, if_false, ne_eq, not_false_eq_true, and_true]
    have hmod := s.op_modOp i j fun o => { o with stage := .done, status := st, detail := de }
    simp only [hlen, and_true] at hmod
    rw [← hmod]
    split
    · rw [State.op, State.ringRecord_ops]
      rfl
    · rw [State.fillRegs_only]
      rfl

theorem State.completeOp_stage (s : State) (i : Nat) (st : BitVec 16) (de : Word) (vs : List Word) :
    ((s.completeOp i st de vs).op i).stage = .done := by
  rw [State.completeOp_op]
  by_cases h : (s.op i).stage = .done <;> simp [h]

/-- What is done stays done. -/
theorem State.completeOp_op_done (s : State) (i j : Nat) (st : BitVec 16) (de : Word) (vs : List Word) (h : (s.op j).stage = .done) :
    (s.completeOp i st de vs).op j = s.op j := by
  rw [State.completeOp_op, if_neg]
  rintro ⟨rfl, hi⟩
  exact hi h

theorem State.completeOp_la (s : State) (i l : Nat) (st : BitVec 16) (de : Word) (vs : List Word) :
    (s.completeOp i st de vs).la l = s.la l := by
  rw [State.completeOp_only]
  rfl

/-! ### Where threads stand -/

/-- Every thread is in the warp it was in, on the same core, and the core is of the same context. -/
structure SamePlaces (s u : State) : Prop where
  threads : u.threads.length = s.threads.length
  warp : ∀ n, (u.th n).warp = (s.th n).warp
  core : ∀ w, (u.wp w).core = (s.wp w).core
  ctx : ∀ c, (u.co c).ctx = (s.co c).ctx

theorem SamePlaces.refl (s : State) : SamePlaces s s := ⟨rfl, fun _ => rfl, fun _ => rfl, fun _ => rfl⟩

theorem SamePlaces.trans {s u v : State} (h : SamePlaces s u) (k : SamePlaces u v) : SamePlaces s v :=
  ⟨k.threads.trans h.threads, fun n => (k.warp n).trans (h.warp n), fun w => (k.core w).trans (h.core w),
    fun c => (k.ctx c).trans (h.ctx c)⟩

theorem SamePlaces.of_eq {s u : State} (ht : u.threads = s.threads) (hw : u.warps = s.warps) (hc : u.cores = s.cores) :
    SamePlaces s u :=
  ⟨by rw [ht], fun n => by rw [State.th, State.th, ht], fun w => by rw [State.wp, State.wp, hw],
    fun c => by rw [State.co, State.co, hc]⟩

theorem SamePlaces.ctxIdOf {s u : State} (h : SamePlaces s u) (n : Nat) : u.ctxIdOf n = s.ctxIdOf n := by
  unfold State.ctxIdOf State.coreOf State.wpOf
  rw [h.ctx, h.core, h.warp]

theorem SamePlaces.of_modTh {f : Thread → Thread} (h : ∀ x, (f x).warp = x.warp) (s : State) (t : Nat) : SamePlaces s (s.modTh t f) :=
  ⟨by simp, fun n => getD_modify_proj Thread.warp h s.threads t n _, fun _ => rfl, fun _ => rfl⟩

theorem SamePlaces.of_modWp {f : Warp → Warp} (h : ∀ x, (f x).core = x.core) (s : State) (w : Nat) : SamePlaces s (s.modWp w f) :=
  ⟨rfl, fun _ => rfl, fun n => getD_modify_proj Warp.core h s.warps w n _, fun _ => rfl⟩

theorem SamePlaces.of_modCo {f : CoreSt → CoreSt} (h : ∀ x, (f x).ctx = x.ctx) (s : State) (c : Nat) : SamePlaces s (s.modCo c f) :=
  ⟨rfl, fun _ => rfl, fun _ => rfl, fun n => getD_modify_proj CoreSt.ctx h s.cores c n _⟩

theorem State.fillReg_places (s : State) (t : Nat) (r : RegRef) (w : Word) (g : Tag) : SamePlaces s (s.fillReg t r w g) := by
  cases r with
  | v n => exact .of_modTh (by simp) s t
  | s n => exact .of_modWp (by simp) s _

theorem State.fillRegs_places (t : Nat) (g : Tag) : ∀ (rs : List RegRef) (ws : List Word) (s : State),
    SamePlaces s (s.fillRegs t rs ws g)
  | [], _, s => by simpa [State.fillRegs] using SamePlaces.refl s
  | _ :: _, [], s => by simpa [State.fillRegs] using SamePlaces.refl s
  | r :: rs, w :: ws, s => (s.fillReg_places t r w g).trans (State.fillRegs_places t g rs ws _)

theorem State.completeOp_places (s : State) (i : Nat) (st : BitVec 16) (de : Word) (vs : List Word) :
    SamePlaces s (s.completeOp i st de vs) := by
  unfold State.completeOp
  dsimp only
  split
  · exact .refl s
  · split
    · rw [State.ringRecord_only]
      exact .of_eq rfl rfl rfl
    · have hmod (f : Op → Op) : SamePlaces s (s.modOp i f) := .of_eq rfl rfl rfl
      refine ((hmod _).trans (State.fillRegs_places _ _ _ _ _)).trans (.of_modCo (fun k => ?_) _ _)
      rw [CoreSt.addRecord_only]

/-! ### An arrival on DONE -/

theorem State.eccReads_only (arr : BitVec 16) (c : Word) (d : Nat) : ∀ (l : List (Nat × Nat)) (r : State × Bool),
    let u := (l.foldl (fun (r : State × Bool) (a : Nat × Nat) =>
      ((r.1.eccRead arr a.1 a.2 c d).1, r.2 || (r.1.eccRead arr a.1 a.2 c d).2)) r).1
    u = { r.1 with
      dies := u.dies, eventq := u.eventq, ports := u.ports, logs := u.logs, out := u.out, planted := u.planted }
  | [], _ => rfl
  | a :: l, r => by
    have ih := State.eccReads_only arr c d l ((r.1.eccRead arr a.1 a.2 c d).1, r.2 || (r.1.eccRead arr a.1 a.2 c d).2)
    dsimp only at ih ⊢
    rw [List.foldl_cons, ih, State.eccRead_only]

theorem State.putArrive_only (s : State) (d a : Nat) :
    s.putArrive d a = { s with
      dies := (s.putArrive d a).dies, errinj := (s.putArrive d a).errinj, planted := (s.putArrive d a).planted } := by
  unfold State.putArrive
  dsimp only
  split
  · rw [State.setNear_only]
  · rfl

theorem State.lastArrival_only (s : State) (l : Nat) :
    (s.lastArrival l).1 = { s with
      dies := (s.lastArrival l).1.dies, eventq := (s.lastArrival l).1.eventq, ports := (s.lastArrival l).1.ports
      logs := (s.lastArrival l).1.logs, out := (s.lastArrival l).1.out, errinj := (s.lastArrival l).1.errinj
      planted := (s.lastArrival l).1.planted } := by
  unfold State.lastArrival
  dsimp only
  split
  · rfl
  · split
    · dsimp only
      split
      · rw [State.eccReads_only]
      · rw [State.putArrive_only, State.eccReads_only]
    · rfl

/-- Only an arrival that a DONE object asks for can fail. -/
theorem State.lastArrival_fails {s : State} {l : Nat} (h : (s.lastArrival l).2 = true) : (lDone (s.la l).words).en = true := by
  by_contra hen
  rw [State.lastArrival_none s l (by simpa using hen)] at h
  cases h

theorem State.lastArrival_places (s : State) (l : Nat) : SamePlaces s (s.lastArrival l).1 := by
  rw [State.lastArrival_only]
  exact .of_eq rfl rfl rfl

/-! ### Grids of a context that ends (R265) -/

/-- With what operation i may complete when the grids of state s end with a status and a detail: with these, or, if a started grid with a
DONE object has it as its operation, as an arrival that failed translation. -/
def GridOutcome (s : State) (i : Nat) (status : BitVec 16) (detail : Word) (st : BitVec 16) (de : Word) : Prop :=
  st = status ∧ de = detail ∨
    (∃ m, (s.la m).op = i ∧ (s.la m).stage = .started ∧ (lDone (s.la m).words).en = true) ∧ st = 4 ∧ de = 0x4C520006

/-- In u some grids of s have ended: each is as in s, or complete with its operation done; and an operation is as in s, or was not done and
is done now, with one of these outcomes. -/
structure GridsEnded (s : State) (status : BitVec 16) (detail : Word) (u : State) : Prop where
  grid : ∀ l, u.la l = s.la l ∨ u.la l = { s.la l with stage := .complete } ∧ (u.op (s.la l).op).stage = .done
  op : ∀ i, u.op i = s.op i ∨
    (s.op i).stage ≠ .done ∧ (u.op i).stage = .done ∧ GridOutcome s i status detail (u.op i).status (u.op i).detail

section
variable {s u : State} {status : BitVec 16} {detail : Word}

theorem GridsEnded.refl (s : State) (status : BitVec 16) (detail : Word) : GridsEnded s status detail s :=
  ⟨fun _ => .inl rfl, fun _ => .inl rfl⟩

theorem GridsEnded.of_eq (h : GridsEnded s status detail u) {v : State} (hl : v.launches = u.launches) (ho : v.ops = u.ops) :
    GridsEnded s status detail v := by
  have hla (l : Nat) : v.la l = u.la l := by rw [State.la, State.la, hl]
  have hop (i : Nat) : v.op i = u.op i := by rw [State.op, State.op, ho]
  exact ⟨fun l => by rw [hla, hop]; exact h.grid l, fun i => by rw [hop]; exact h.op i⟩

theorem GridsEnded.la_op (h : GridsEnded s status detail u) (l : Nat) : (u.la l).op = (s.la l).op := by
  rcases h.grid l with e | ⟨e, -⟩ <;> rw [e]

theorem GridsEnded.la_words (h : GridsEnded s status detail u) (l : Nat) : (u.la l).words = (s.la l).words := by
  rcases h.grid l with e | ⟨e, -⟩ <;> rw [e]

theorem GridsEnded.la_ctx (h : GridsEnded s status detail u) (l : Nat) : (u.la l).ctx = (s.la l).ctx := by
  rcases h.grid l with e | ⟨e, -⟩ <;> rw [e]

/-- A grid that is not complete has not ended yet. -/
theorem GridsEnded.la_stage (h : GridsEnded s status detail u) {l : Nat} {x : LaunchStage} (hx : (u.la l).stage = x) (hne : x ≠ .complete) :
    (s.la l).stage = x := by
  rcases h.grid l with e | ⟨e, -⟩
  · rwa [e] at hx
  · rw [e] at hx
    exact absurd hx.symm hne

/-- One more grid completes, with an outcome that its operation may have. -/
theorem GridsEnded.complete (h : GridsEnded s status detail u) (l : Nat) {st : BitVec 16} {de : Word}
    (ho : GridOutcome s (s.la l).op status detail st de) :
    GridsEnded s status detail ((u.modLa l fun y => { y with stage := .complete }).completeOp (s.la l).op st de) := by
  constructor
  · intro m
    rw [State.completeOp_la, State.la_modLa]
    split
    · next hm =>
      obtain ⟨rfl, -⟩ := hm
      refine .inr ⟨?_, State.completeOp_stage _ _ _ _ _⟩
      rcases h.grid l with e | ⟨e, -⟩ <;> rw [e]
    · rcases h.grid m with e | ⟨e, hd⟩
      · exact .inl e
      · have hv : ((u.modLa l fun y => { y with stage := .complete }).op (s.la m).op).stage = .done := hd
        exact .inr ⟨e, by rwa [State.completeOp_op_done _ _ _ _ _ _ hv]⟩
  · intro i
    rw [State.completeOp_op]
    split
    · next hi =>
      obtain ⟨rfl, hstage⟩ := hi
      refine .inr ⟨?_, rfl, ho⟩
      rcases h.op (s.la l).op with e | ⟨-, hd, -⟩
      · rwa [← e]
      · exact absurd hd hstage
    · exact h.op i

end

/-- Of the grids, a completion changes the one that it names, and leaves complete what is complete. -/
theorem State.complete_la_stage (u : State) (l i m : Nat) (st : BitVec 16) (de : Word) (h : m = l ∨ (u.la m).stage = .complete) :
    (((u.modLa l fun y => { y with stage := .complete }).completeOp i st de).la m).stage = .complete := by
  rw [State.completeOp_la, State.la_modLa]
  split
  · rfl
  · next hm =>
    refine h.elim (fun e => ?_) id
    subst e
    have hlen : u.launches.length ≤ m := by simpa using hm
    simp [State.la, List.getD_eq_getElem?_getD, hlen, Launch.blank]

/-- A fold over numbers of which each step keeps an invariant, makes something true of its own number, and of every other number keeps
it true. -/
theorem foldl_reaches {Inv : State → Prop} {Done : Nat → State → Prop} {f : State → Nat → State}
    (step : ∀ u l, Inv u → Inv (f u l) ∧ ∀ m, m = l ∨ Done m u → Done m (f u l)) :
    ∀ (ls : List Nat) (u : State), Inv u → Inv (ls.foldl f u) ∧ ∀ m, m ∈ ls ∨ Done m u → Done m (ls.foldl f u)
  | [], _, hu => ⟨hu, fun _ h => h.resolve_left List.not_mem_nil⟩
  | l :: ls, u, hu => by
    obtain ⟨hinv, hdone⟩ := step u l hu
    obtain ⟨hend, hall⟩ := foldl_reaches step ls (f u l) hinv
    refine ⟨hend, fun m hm => hall m ?_⟩
    rcases hm with hm | hm
    · exact (List.mem_cons.1 hm).elim (fun e => .inr (hdone m (.inl e))) .inl
    · exact .inr (hdone m (.inr hm))

/-- The end of a context's grids: each completes, and its operation with an outcome that it may have. -/
theorem State.endLaunches_grids (s : State) (c : Word) (status : BitVec 16) (detail : Word) :
    GridsEnded s status detail (s.endLaunches c status detail) ∧
      ∀ l, l < s.launches.length → (s.la l).ctx = c → ((s.endLaunches c status detail).la l).stage = .complete := by
  have hfold : GridsEnded s status detail (s.endLaunches c status detail) ∧
      ∀ m, m ∈ List.range s.launches.length ∨ ((s.la m).ctx = c → (s.la m).stage = .complete) →
        (s.la m).ctx = c → ((s.endLaunches c status detail).la m).stage = .complete := by
    refine foldl_reaches (Done := fun m u => (s.la m).ctx = c → (u.la m).stage = .complete) (fun u l hu => ?_) _ s (.refl s _ _)
    have complete {v : State} (hl : v.launches = u.launches) (ho : v.ops = u.ops) {st : BitVec 16} {de : Word}
        (hout : GridOutcome s (s.la l).op status detail st de) :=
      And.intro ((hu.of_eq hl ho).complete l hout) fun m (hm : m = l ∨ ((s.la m).ctx = c → (u.la m).stage = .complete)) hc =>
        v.complete_la_stage l (s.la l).op m st de (hm.imp_right fun h => by rw [State.la, hl]; exact h hc)
    dsimp only
    rw [hu.la_op l]
    split
    · exact complete rfl rfl (.inl ⟨rfl, rfl⟩)
    · next hst =>
      have hl : (u.lastArrival l).1.launches = u.launches := by rw [State.lastArrival_only]
      have ho : (u.lastArrival l).1.ops = u.ops := by rw [State.lastArrival_only]
      split
      · next hfail =>
        have hen : (lDone (s.la l).words).en = true := hu.la_words l ▸ State.lastArrival_fails hfail
        exact complete hl ho (.inr ⟨⟨l, rfl, hu.la_stage hst (by decide), hen⟩, rfl, rfl⟩)
      · exact complete hl ho (.inl ⟨rfl, rfl⟩)
    · next hq hs =>
      refine ⟨hu, fun m hm hc => ?_⟩
      rcases hm with rfl | hm
      · have hctx : decide ((u.la m).ctx = c) = true := by simpa [hu.la_ctx m] using hc
        cases hstage : (u.la m).stage with
        | queued => exact (hq hctx hstage).elim
        | started => exact (hs hctx hstage).elim
        | complete => rfl
      · exact hm hc
  exact ⟨hfold.1, fun l hl => hfold.2 l (.inl (List.mem_range.2 hl))⟩

theorem State.endLaunches_places (s : State) (c : Word) (st : BitVec 16) (de : Word) : SamePlaces s (s.endLaunches c st de) := by
  refine List.foldlRecOn (motive := SamePlaces s) _ _ (.refl s) fun u hu l _ => hu.trans ?_
  have complete {v : State} (i : Nat) (st : BitVec 16) (de : Word) (hv : SamePlaces u v) :
      SamePlaces u ((v.modLa l fun y => { y with stage := .complete }).completeOp i st de) :=
    hv.trans (.trans (u := v.modLa l _) (.of_eq rfl rfl rfl) (State.completeOp_places _ _ _ _ _))
  dsimp only
  split
  · exact complete _ _ _ (.refl u)
  · split <;> exact complete _ _ _ (u.lastArrival_places l)
  · exact .refl u

/-! ### The context (R272) -/

/-- The engine work of a context that ends: an operation that is done stays as it is. -/
theorem State.endOps_op_done (s : State) (c : Word) {i : Nat} (h : (s.op i).stage = .done) : (s.endOps c).op i = s.op i := by
  refine List.foldlRecOn (motive := fun u : State => u.op i = s.op i) _ _ rfl fun u hu j _ => ?_
  have other (hj : (u.op j).stage ≠ .done) (f : Op → Op) : (u.modOp j f).op i = s.op i := by
    rw [State.op_modOp, if_neg, hu]
    rintro ⟨rfl, -⟩
    exact hj (by rw [hu, h])
  dsimp only
  split
  · exact hu
  · next hlive =>
    have hj : (u.op j).stage ≠ .done := fun hd => hlive (by simp [hd])
    split <;> exact other hj _

theorem State.endCtx_op (s : State) (c : Word) (st : BitVec 16) (de : Word) (i : Nat) :
    (s.endCtx c st de).op i = ((s.endLaunches c st de).endOps c).op i := rfl

theorem State.endCtx_la (s : State) (c : Word) (st : BitVec 16) (de : Word) (l : Nat) :
    (s.endCtx c st de).la l = (s.endLaunches c st de).la l := by
  unfold State.endCtx
  rw [State.endOps_only]
  rfl

/-- An operation that was done before the context's end stays as it was. -/
theorem State.endCtx_op_done (s : State) (c : Word) (st : BitVec 16) (de : Word) {i : Nat} (h : (s.op i).stage = .done) :
    (s.endCtx c st de).op i = s.op i := by
  have hl : (s.endLaunches c st de).op i = s.op i := ((s.endLaunches_grids c st de).1.op i).resolve_right fun hn => hn.1 h
  rw [State.endCtx_op, State.endOps_op_done _ c (by rw [hl, h]), hl]

/-- The threads on cores of the context have exited. -/
theorem State.endCtx_th (s : State) (c : Word) (st : BitVec 16) (de : Word) {n : Nat} (hn : n < s.threads.length)
    (hc : s.ctxIdOf n = c) : ((s.endCtx c st de).th n).status = .exited := by
  have places : SamePlaces s ((s.endLaunches c st de).endOps c) := by
    rw [State.endOps_only]
    exact (s.endLaunches_places c st de).trans (.of_eq rfl rfl rfl)
  have hctx := (places.ctxIdOf n).trans hc
  have hlen := places.threads ▸ hn
  unfold State.endCtx
  generalize (s.endLaunches c st de).endOps c = u at hctx hlen
  have hth : u.th n = u.threads[n] := by simp [State.th, List.getD_eq_getElem?_getD, hlen]
  simp only [State.ctxIdOf, State.coreOf, State.wpOf, hth] at hctx
  simp [State.th, State.modCtx, List.getD_eq_getElem?_getD, hlen, hctx]

theorem State.endCtx_ctxs (s : State) (c : Word) (st : BitVec 16) (de : Word) :
    ∀ k ∈ (s.endCtx c st de).ctxs, k.id = c → k.live = false := by
  intro k hk hid
  obtain ⟨k0, -, rfl⟩ := List.mem_map.1 hk
  split at hid
  · next h => simp [h]
  · next h =>
    rw [if_neg h]
    simpa [hid] using h

/-- Where every context of a CTXID has ended, none is found. -/
theorem State.ctx_not_live {u : State} {c : Word} (h : ∀ k ∈ u.ctxs, k.id = c → k.live = false) : (u.ctx c).live = false := by
  unfold State.ctx
  cases hf : u.ctxs.find? fun k => k.id = c ∧ k.live with
  | none => rfl
  | some k =>
    have hk := List.find?_some hf
    simp only [decide_eq_true_eq] at hk
    exact h k (List.mem_of_find?_eq_some hf) hk.1

theorem State.endCtx_ended (s : State) (c : Word) (st : BitVec 16) (de : Word) : ContextEnded s (s.endCtx c st de) c st de := by
  obtain ⟨hgrids, hall⟩ := s.endLaunches_grids c st de
  refine ⟨s.endCtx_ctxs c st de, fun n hn hc => s.endCtx_th c st de hn hc, fun l hl hc hstage => ?_⟩
  have hcomplete := hall l hl hc
  refine ⟨by rw [State.endCtx_la]; exact hcomplete, fun _ hop => ?_⟩
  have hdone : ((s.endLaunches c st de).op (s.la l).op).stage = .done := by
    rcases hgrids.grid l with e | ⟨-, hd⟩
    · exact absurd (e ▸ hcomplete) hstage
    · exact hd
  rw [State.endCtx_op, State.endOps_op_done _ c hdone]
  rcases hgrids.op (s.la l).op with e | ⟨-, -, hout⟩
  · exact absurd (e ▸ hdone) hop
  · exact ⟨hdone, hout⟩

end Sys2Proof.Machine
end

section
/-! PROOF. The answers to fault records: FRESP_REPLAY, FRESP_TERMINATE and the registers of a die's fault queue (R152, R241, R315); from
these, O48. -/

namespace Sys2Proof.Machine

/-! ### The answer to the head record -/

section
variable {s : State} {die : Nat} {f : FaultRec} {rest : List FaultRec}

/-- The state in which the head record is answered: it has left the queue. -/
def State.popFault (s : State) (die : Nat) (rest : List FaultRec) : State := s.modDie die fun x => { x with faultq := rest }

theorem State.popFault_faultq (hdie : die < s.dies.length) : ((s.popFault die rest).die die).faultq = rest := by
  simp [State.popFault, hdie]

theorem State.popFault_near (s : State) (die : Nat) (rest : List FaultRec) : NearSame s (s.popFault die rest) :=
  State.modDie_near s die (fun x => { x with faultq := rest }) fun _ => rfl

/-- Nothing is answered while the queue is empty. -/
theorem State.answer_empty (h : (s.die die).faultq = []) (b : Bool) : s.answer die b = s := by
  simp [State.answer, h]

/-- The answer to a record of a context that has ended discards it. -/
theorem State.answer_discards (h : (s.die die).faultq = f :: rest) (hf : f.ended = true) (b : Bool) :
    s.answer die b = s.popFault die rest := by
  simp [State.answer, h, hf, State.popFault]

/-- The end of the context of a record that is answered with terminate (R265). -/
def State.endFault (s : State) (f : FaultRec) : State := s.endCtx f.ctx 4 (BitVec.ofNat 32 (0x54460000 + f.kind.toNat))

/-- Terminate ends the record's context. -/
theorem State.answer_terminates_none (h : (s.die die).faultq = f :: rest) (hf : f.ended = false) (hi : f.op = none) :
    s.answer die true = (s.popFault die rest).endFault f := by
  simp [State.answer, h, hf, hi, State.popFault, State.endFault]

/-- Before that, the command that the record's fault halted is terminated. -/
theorem State.answer_terminates_op (h : (s.die die).faultq = f :: rest) (hf : f.ended = false) {i : Nat} (hi : f.op = some i) :
    s.answer die true = (if (s.op i).stage = OpStage.faulted then (s.popFault die rest).terminateOp i
      else s.popFault die rest).endFault f := by
  simp [State.answer, h, hf, hi, State.popFault, State.endFault]

/-- Replay of a parked thread's record. -/
theorem State.answer_replays_thread (h : (s.die die).faultq = f :: rest) (hf : f.ended = false) {t : Nat} (ht : f.tid = some t) :
    s.answer die false =
      if (s.th t).status = .parked f then (s.popFault die rest).setStatus t .ready else s.popFault die rest := by
  simp [State.answer, h, hf, ht, State.popFault]

/-- Replay of a halted command's record. -/
theorem State.answer_replays_op (h : (s.die die).faultq = f :: rest) (hf : f.ended = false) (ht : f.tid = none) {i : Nat}
    (hi : f.op = some i) :
    s.answer die false =
      if (s.op i).stage = .faulted then (s.popFault die rest).modOp i fun o => { o with stage := .started } else s.popFault die rest := by
  simp [State.answer, h, hf, ht, hi, State.popFault]

theorem State.answer_replays_none (h : (s.die die).faultq = f :: rest) (hf : f.ended = false) (ht : f.tid = none) (hi : f.op = none) :
    s.answer die false = s.popFault die rest := by
  simp [State.answer, h, hf, ht, hi, State.popFault]

/-- An answer removes the head record of its queue, and changes the words of no other record. -/
theorem State.answer_faults (h : (s.die die).faultq = f :: rest) (b : Bool) : SameFaults (s.popFault die rest) (s.answer die b) := by
  by_cases hf : f.ended = true
  · rw [State.answer_discards h hf]
    exact .refl _
  replace hf : f.ended = false := by simpa using hf
  cases b with
  | true =>
    cases hi : f.op with
    | some i =>
      rw [State.answer_terminates_op h hf hi]
      refine .trans ?_ (State.endCtx_faults _ _ _ _)
      split
      · exact State.terminateOp_faults _ _
      · exact .refl _
    | none =>
      rw [State.answer_terminates_none h hf hi]
      exact State.endCtx_faults _ _ _ _
  | false =>
    cases ht : f.tid with
    | some t =>
      rw [State.answer_replays_thread h hf ht]
      split
      · exact .of_dies rfl
      · exact .refl _
    | none =>
      cases hi : f.op with
      | some i =>
        rw [State.answer_replays_op h hf ht hi]
        split
        · exact .of_dies rfl
        · exact .refl _
      | none =>
        rw [State.answer_replays_none h hf ht hi]
        exact .refl _

/-- The answer removes the head record. -/
theorem State.answer_removes_head (h : (s.die die).faultq = f :: rest) (hdie : die < s.dies.length) (b : Bool) :
    ((s.answer die b).die die).faultq.map FaultRec.words = rest.map FaultRec.words := by
  rw [State.answer_faults h b die, State.popFault_faultq hdie]

end

/-! ### A copy that its fault has halted (R241) -/

theorem State.flushRoutes_none {s : State} {i : Nat} (h : ∀ r ∈ s.routes, r.src ≠ .engine (s.op i).coreId (s.op i).engine) :
    s.flushRoutes i = s := by
  unfold State.flushRoutes
  extract_lets o mine
  have hmine : ∀ r ∈ s.routes, mine r = false := fun r hr => by simp [mine, o, h r hr]
  rw [List.filter_eq_nil_iff (p := mine).2 (by simpa using hmine), List.filter_eq_self.2 (by simpa using hmine)]
  rfl

theorem State.restCounts_none {s : State} {i : Nat} (h : rBkind (s.op i).record = 0) : s.restCounts i = [] := by
  simp [State.restCounts, h]

/-- A copy without a release flag or a barrier object, and with no write on its way, completes with status 4 and code 8 when its fault is
answered with terminate. -/
theorem State.terminateOp_copy {s : State} {i : Nat} (hlen : i < s.ops.length)
    (hengine : (s.op i).engine = 2) (hstatus : (s.op i).status = 0) (hrel : (s.op i).rel = false) (hobj : rBkind (s.op i).record = 0)
    (hroutes : ∀ r ∈ s.routes, r.src ≠ .engine (s.op i).coreId 2) :
    ((s.terminateOp i).op i).stage = .done ∧ ((s.terminateOp i).op i).status = 4 ∧ ((s.terminateOp i).op i).detail = 0x43500008 := by
  let u := s.stopOp i 4 0x43500008
  have hu : u.op i = { s.op i with stage := .ending, rest := [], status := 4, detail := 0x43500008 } := by
    simp [u, State.stopOp, hengine, State.restCounts_none hobj, hlen, hstatus]
  have hready : relReady u i = true := by simp [relReady, hu, hrel]
  have hend : u.endDone i = u.completeOp i 4 0x43500008 := by
    simp [State.endDone, hready, hu, hengine, hobj, State.countDown]
  have hterm : s.terminateOp i = u.completeOp i 4 0x43500008 := by
    unfold State.terminateOp
    rw [State.flushRoutes_none (by rwa [hengine])]
    simpa [hengine, u] using hend
  rw [hterm, State.completeOp_op, if_pos ⟨rfl, by simp [hu]⟩]
  exact ⟨rfl, rfl, rfl⟩

/-! ### The statements -/

section
variable {s : State} {die : Nat} {f : FaultRec} {rest : List FaultRec}

/-- After a replay the parked thread alone is not as it was, and it is ready to issue again (R152). -/
theorem exec_frespReplay_parked (hq : (s.die die).faultq = f :: rest) (hlive : f.ended = false) {t : Nat} (ht : f.tid = some t)
    (hparked : (s.th t).status = .parked f) (htlen : t < s.threads.length) (hdie : die < s.dies.length) :
    ∃ u, exec (.frespReplay die) s = .next u ∧ (u.die die).faultq = rest ∧ u.th t = { s.th t with status := .ready } ∧
      SameMemory s u ∧ OthersSame s u t := by
  have hans := State.answer_replays_thread hq hlive ht
  rw [if_pos hparked] at hans
  refine ⟨_, congrArg Host.Outcome.next hans, State.popFault_faultq hdie, ?_, ?_, fun n hn => ?_⟩
  · simp [State.setStatus, State.popFault, htlen, hparked, Status.to]
  · exact ((State.popFault_near s die rest).trans (.of_eq rfl)).sameMemory rfl
  · simp [State.setStatus, State.th_modTh, State.popFault, hn.symm]

/-- A termination ends the context of a record that halted no command (R152). -/
theorem exec_frespTerminate_none (hq : (s.die die).faultq = f :: rest) (hlive : f.ended = false) (hop : f.op = none)
    (hdie : die < s.dies.length) :
    ∃ u, exec (.frespTerminate die) s = .next u ∧ (u.die die).faultq.map FaultRec.words = rest.map FaultRec.words ∧
      (∀ g ∈ (u.die die).faultq, g.ctx = f.ctx → g.ended = true) ∧ (u.ctx f.ctx).live = false ∧
      ContextEnded s u f.ctx 4 (BitVec.ofNat 32 (0x54460000 + f.kind.toNat)) := by
  refine ⟨_, congrArg Host.Outcome.next (State.answer_terminates_none hq hlive hop), ?_, State.endCtx_marks _ _ _ _ _,
    State.ctx_not_live (State.endCtx_ctxs _ _ _ _), State.endCtx_ended _ _ _ _⟩
  rw [State.endFault, State.endCtx_faults _ _ _ _ die, State.popFault_faultq hdie]

/-- A termination completes the copy that the fault halted, before the context ends (R241). -/
theorem exec_frespTerminate_copy (hq : (s.die die).faultq = f :: rest) (hlive : f.ended = false) {i : Nat} (hi : f.op = some i)
    (hfaulted : (s.op i).stage = .faulted) (hlen : i < s.ops.length) (hengine : (s.op i).engine = 2) (hstatus : (s.op i).status = 0)
    (hrel : (s.op i).rel = false) (hobj : rBkind (s.op i).record = 0) (hroutes : ∀ r ∈ s.routes, r.src ≠ .engine (s.op i).coreId 2) :
    ∃ u, exec (.frespTerminate die) s = .next u ∧ (u.op i).stage = .done ∧ (u.op i).status = 4 ∧ (u.op i).detail = 0x43500008 ∧
      (u.ctx f.ctx).live = false := by
  have hans := State.answer_terminates_op hq hlive hi
  rw [if_pos hfaulted] at hans
  obtain ⟨hdone, hst, hde⟩ := State.terminateOp_copy (s := s.popFault die rest) hlen hengine hstatus hrel hobj hroutes
  have hkept : (((s.popFault die rest).terminateOp i).endFault f).op i = ((s.popFault die rest).terminateOp i).op i :=
    State.endCtx_op_done _ _ _ _ hdone
  refine ⟨_, congrArg Host.Outcome.next hans, ?_, ?_, ?_, State.ctx_not_live (State.endCtx_ctxs _ _ _ _)⟩
  · rw [hkept, hdone]
  · rw [hkept, hst]
  · rw [hkept, hde]

end

theorem faultQueues : Claims.FaultQueues := by
  intro s die f
  refine ⟨fun hdie hroom hlatch hoffers => ?_, fun _ _ hq hlive => exec_frespReplay_parked hq hlive,
    fun _ hq hlive => exec_frespTerminate_none hq hlive,
    fun _ i hq hlive hi hfaulted hlen _ => ⟨fun ht => ?_, exec_frespTerminate_copy hq hlive hi hfaulted hlen⟩,
    fun _ hq hended _ => ?_, fun hq => ?_⟩
  · rw [State.reportFault_room s die f hroom hlatch hoffers]
    exact (s.enterFault_queues die f hdie).1
  · have hans := State.answer_replays_op hq hlive ht hi
    rw [if_pos hfaulted] at hans
    exact congrArg Host.Outcome.next hans
  · exact ⟨congrArg Host.Outcome.next (State.answer_discards hq hended false),
      congrArg Host.Outcome.next (State.answer_discards hq hended true)⟩
  · exact ⟨congrArg Host.Outcome.next (State.answer_empty hq false), congrArg Host.Outcome.next (State.answer_empty hq true)⟩

/-- A write of a die's FRESP answers its head record. -/
theorem controlWrite_fresp (s : State) (die : Nat) (v : Word) (hdie : die < 8) :
    controlWrite s (0x40000 + 0x100 * die + 0x14) v = s.answer die (bit v 0) := by
  interval_cases die <;> rfl

/-- FQCOUNT (R315). -/
theorem controlRead_fqcount (s : State) (port : BitVec 1) (req die : Nat) (hdie : die < 8) :
    controlRead s port req (0x40000 + 0x100 * die + 0x10) = BitVec.ofNat 32 ((s.die die).faultq.length % 2 ^ 16) := by
  interval_cases die <;> rfl

/-- FQHEAD0 to FQHEAD3 (R315). -/
theorem controlRead_fqhead (s : State) (port : BitVec 1) (req die k : Nat) (hdie : die < 8) (hk : k < 4) :
    controlRead s port req (0x40000 + 0x100 * die + 4 * k) =
      (((s.die die).faultq.head?.map FaultRec.words).getD []).getD k 0 := by
  interval_cases die <;> interval_cases k <;> rfl

/-- A write of FRESP through a port whose link is up is an answer. -/
theorem exec_fresp {s : State} {die req : Nat} {v : Word} {port : BitVec 1} (hdie : die < 8) (hup : (s.port port).up = true)
    (hlgo : lgoWaits s req = false) :
    exec (.controlRegisterWrite ⟨port, req, 0x40000 + 0x100 * die + 0x14, 4, .bar0, false⟩ v) s = .next (s.answer die (v.getLsbD 0)) := by
  have hoff : controlOk (0x40000 + 0x100 * die + 0x14) 4 = true := by
    simp only [controlOk, Bool.and_eq_true, decide_eq_true_eq, and_true]
    omega
  have h0 : ¬(0x40000 + 0x100 * die + 0x14 = 0x20040) := by omega
  have h1 : ¬(0x40000 + 0x100 * die + 0x14 = 0x21040) := by omega
  show execControlRegisterWrite _ v s = _
  unfold execControlRegisterWrite
  simp [hup, h0, h1, hlgo, hoff, controlWrite_fresp s die v hdie, bit]

theorem faultAnswerRegister : Claims.FaultAnswerRegister := by
  intro s die v req port hdie hup hlgo
  refine ⟨?_, controlRead_fqcount s port req die hdie, fun f rest k hq hk => ?_, fun f rest hq hlen => ?_⟩
  · rw [exec_fresp hdie hup hlgo]
    cases v.getLsbD 0 <;> rfl
  · rw [controlRead_fqhead s port req die k hdie hk, hq]
    rfl
  · exact ⟨_, exec_fresp hdie hup hlgo, State.answer_removes_head hq hlen _⟩

/-- Settles O48: a record enters its queue at the end, and only an answer removes one (`SameFaults`, `State.answer_removes_head`); a
replay lets its thread or command go on, and a termination ends the context with its grids (`State.endCtx_ended`) and the copy that the
fault had halted (`State.terminateOp_copy`). -/
theorem faultQueueAnswers : Obligations.FaultQueueAnswers :=
  ⟨faultQueues, faultAnswerRegister, latchedRecords⟩

end Sys2Proof.Machine
end

section
/-! PROOF. The fields of a word and the codes in them: every word is what its fields make (`mkR3_eq_iff` and its kin), every code is
what it names; a word read is the word of its instruction, an instruction's word is read as that instruction, and from these, O55. -/

namespace Sys2Proof

/-! ### A word and its fields -/

theorem extractLsb'_eq_append_iff {k s m n : Nat} {a : BitVec m} {b : BitVec n} {x : BitVec k} :
    x.extractLsb' s (m + n) = a ++ b ↔ x.extractLsb' (s + n) m = a ∧ x.extractLsb' s n = b := by
  constructor
  · intro h
    have bits (i : Nat) := congrArg (fun y => y.getLsbD i) h
    simp only [BitVec.getLsbD_append, BitVec.getLsbD_extractLsb'] at bits
    constructor <;> ext i hi
    · simpa [hi, Nat.add_comm n i, Nat.add_assoc] using bits (n + i)
    · simpa [hi, show i < m + n by omega] using bits i
  · rintro ⟨rfl, rfl⟩
    exact (BitVec.extractLsb'_append_extractLsb'_eq_extractLsb' rfl).symm

theorem extractLsb'_eq_bit_iff {n i : Nat} {b : Bool} {x : BitVec n} : x.extractLsb' i 1 = bit b ↔ x.getLsbD i = b := by
  rw [BitVec.getLsbD_eq_extractLsb']
  generalize x.extractLsb' i 1 = y
  revert b y
  decide

theorem majorOf_eq_iff {op : BitVec 7} {w : Word} : w.extractLsb' 25 7 = op ↔ majorOf w = op.toNat := by
  rw [majorOf, BitVec.toNat_inj]

@[simp] theorem mkR3_eq_iff {op d a b : BitVec 7} {k ea eb n : Bool} {w : Word} : mkR3 op d a b k ea eb n = w ↔
    majorOf w = op.toNat ∧ fD w = d ∧ fA w = a ∧ fB w = b ∧ w.getLsbD 3 = k ∧ w.getLsbD 2 = ea ∧ w.getLsbD 1 = eb ∧ w.getLsbD 0 = n := by
  have hw : w.extractLsb' 0 (7 + 7 + 7 + 7 + 1 + 1 + 1 + 1) = w := BitVec.extractLsb'_eq_self
  refine (Eq.congr_right hw.symm).trans (eq_comm.trans ?_)
  simp only [mkR3, extractLsb'_eq_append_iff, extractLsb'_eq_bit_iff, and_assoc, fD, fA, fB, ← majorOf_eq_iff]

@[simp] theorem mkRX_eq_iff {op d a b : BitVec 7} {t : BitVec 4} {w : Word} : mkRX op d a b t = w ↔
    majorOf w = op.toNat ∧ fD w = d ∧ fA w = a ∧ fB w = b ∧ fTail w = t := by
  have hw : w.extractLsb' 0 (7 + 7 + 7 + 7 + 4) = w := BitVec.extractLsb'_eq_self
  refine (Eq.congr_right hw.symm).trans (eq_comm.trans ?_)
  simp only [mkRX, extractLsb'_eq_append_iff, and_assoc, fD, fA, fB, fTail, ← majorOf_eq_iff]

@[simp] theorem mkRI_eq_iff {op d a : BitVec 7} {i : BitVec 11} {w : Word} : mkRI op d a i = w ↔
    majorOf w = op.toNat ∧ fD w = d ∧ fA w = a ∧ fImm w = i := by
  have hw : w.extractLsb' 0 (7 + 7 + 7 + 11) = w := BitVec.extractLsb'_eq_self
  refine (Eq.congr_right hw.symm).trans (eq_comm.trans ?_)
  simp only [mkRI, extractLsb'_eq_append_iff, and_assoc, fD, fA, fImm, ← majorOf_eq_iff]

@[simp] theorem mkI18_eq_iff {op d : BitVec 7} {i : BitVec 18} {w : Word} : mkI18 op d i = w ↔
    majorOf w = op.toNat ∧ fD w = d ∧ w.extractLsb' 0 18 = i := by
  have hw : w.extractLsb' 0 (7 + 7 + 18) = w := BitVec.extractLsb'_eq_self
  refine (Eq.congr_right hw.symm).trans (eq_comm.trans ?_)
  simp only [mkI18, extractLsb'_eq_append_iff, and_assoc, fD, ← majorOf_eq_iff]

@[simp] theorem mkBR_eq_iff {op : BitVec 7} {p : BitVec 3} {nz : Bool} {off : BitVec 21} {w : Word} : mkBR op p nz off = w ↔
    majorOf w = op.toNat ∧ w.extractLsb' 22 3 = p ∧ w.getLsbD 21 = nz ∧ w.extractLsb' 0 21 = off := by
  have hw : w.extractLsb' 0 (7 + 3 + 1 + 21) = w := BitVec.extractLsb'_eq_self
  refine (Eq.congr_right hw.symm).trans (eq_comm.trans ?_)
  simp only [mkBR, extractLsb'_eq_append_iff, extractLsb'_eq_bit_iff, and_assoc, ← majorOf_eq_iff]

@[simp] theorem Operand.code_ofCode : ∀ c : BitVec 7, (Operand.ofCode c).code = c := by decide

@[simp] theorem Operand.ofCode_code (o : Operand) : Operand.ofCode o.code = o := by
  cases o with
  | v n => revert n; decide
  | s n => revert n; decide
  | x n => revert n; decide
  | q n => revert n; decide
  | nbr k j => revert k j; decide
  | _ => rfl

@[simp] theorem given_ok {z : Bool} {i j : Instr} : given z i = .ok j ↔ z = true ∧ i = j := by
  unfold given; split <;> simp_all

@[simp] theorem givenC_ok {α : Type} {z : Bool} {c : Except Reject α} {f : α → Instr} {j : Instr} :
    givenC z c f = .ok j ↔ z = true ∧ ∃ v, c = .ok v ∧ f v = j := by
  unfold givenC; split <;> cases c <;> simp_all

@[simp] theorem givenCC_ok {α β : Type} {z : Bool} {c : Except Reject α} {c' : Except Reject β} {f : α → β → Instr} {j : Instr} :
    givenCC z c c' f = .ok j ↔ z = true ∧ ∃ v, c = .ok v ∧ ∃ u, c' = .ok u ∧ f v u = j := by
  unfold givenCC; split <;> cases c <;> cases c' <;> simp_all

@[simp] theorem unprefixed_ok {x : Option Ext} {r : Except Reject Instr} {i : Instr} : unprefixed x r = .ok i ↔ x = none ∧ r = .ok i := by
  cases x <;> simp [unprefixed]

@[simp] theorem rfWord_ok {w : Word} {f : RF → Instr} {x : Option Ext} {j : Instr} :
    rfWord w f x = .ok j ↔ w.getLsbD 1 = false ∧ f (getRF x w) = j := by
  simp [rfWord, given_ok]

@[simp] theorem maskOf_ok {c : BitVec 7} {m : MaskReg} : maskOf c = .ok m ↔ c = maskCode m := by revert c m; decide
@[simp] theorem psrcOf_ok {c : BitVec 7} {p : PSrc} : psrcOf c = .ok p ↔ c = psrcCode p := by
  obtain ⟨n, p⟩ := p
  revert c n p; decide
@[simp] theorem condOf_ok {c : BitVec 4} {v : Cond} : condOf c = .ok v ↔ c = v.code := by cases v <;> revert c <;> decide
@[simp] theorem fcondOf_ok {c : BitVec 4} {v : FCond} : fcondOf c = .ok v ↔ c = v.code := by cases v <;> revert c <;> decide
@[simp] theorem redOpOf_ok {c : BitVec 7} {v : RedOp} : redOpOf c = .ok v ↔ c = v.code := by cases v <;> revert c <;> decide
@[simp] theorem scanOpOf_ok {c : BitVec 7} {v : ScanOp} : scanOpOf c = .ok v ↔ c = v.code := by cases v <;> revert c <;> decide
@[simp] theorem atomKindOf_ok {c : BitVec 4} {v : AtomKind} : atomKindOf c = .ok v ↔ c = v.code := by cases v <;> revert c <;> decide
@[simp] theorem lredOpOf_ok {c : BitVec 7} {v : LredOp} : lredOpOf c = .ok v ↔ c = v.code := by cases v <;> revert c <;> decide

@[simp] theorem Tag.code_ofCode : ∀ c : BitVec 3, (Tag.ofCode c).code = c := by decide
@[simp] theorem Tag.ofCode_code (t : Tag) : Tag.ofCode t.code = t := by cases t <;> rfl


/-! ### Fields that are cut once more -/

@[simp] theorem fD_eq_append_iff {w : Word} {c : BitVec 4} {p : BitVec 3} : fD w = c ++ p ↔ w.extractLsb' 21 4 = c ∧ w.extractLsb' 18 3 = p :=
  extractLsb'_eq_append_iff (s := 18) (m := 4) (n := 3)
@[simp] theorem fB_eq_append_iff5 {w : Word} {c : BitVec 5} {p : BitVec 2} : fB w = c ++ p ↔ w.extractLsb' 6 5 = c ∧ w.extractLsb' 4 2 = p :=
  extractLsb'_eq_append_iff (s := 4) (m := 5) (n := 2)
@[simp] theorem fB_eq_append_iff4 {w : Word} {c : BitVec 4} {p : BitVec 3} : fB w = c ++ p ↔ w.extractLsb' 7 4 = c ∧ w.extractLsb' 4 3 = p :=
  extractLsb'_eq_append_iff (s := 4) (m := 4) (n := 3)
@[simp] theorem fB_eq_append_iff3 {w : Word} {c : BitVec 3} {p : BitVec 4} : fB w = c ++ p ↔ w.extractLsb' 8 3 = c ∧ w.extractLsb' 4 4 = p :=
  extractLsb'_eq_append_iff (s := 4) (m := 3) (n := 4)
@[simp] theorem fB_eq_append_bit_iff {w : Word} {c : BitVec 6} {b : Bool} : fB w = c ++ bit b ↔ w.extractLsb' 5 6 = c ∧ w.getLsbD 4 = b :=
  (extractLsb'_eq_append_iff (s := 4) (m := 6) (n := 1)).trans (and_congr_right fun _ => extractLsb'_eq_bit_iff)
@[simp] theorem fTail_eq_append_iff {w : Word} {p : BitVec 3} : fTail w = p ++ 0#1 ↔ w.extractLsb' 1 3 = p ∧ w.getLsbD 0 = false :=
  (extractLsb'_eq_append_iff (s := 0) (m := 3) (n := 1)).trans (and_congr_right fun _ => extractLsb'_eq_bit_iff (b := false))
@[simp] theorem fTail_eq_bit_append_iff {w : Word} {b : Bool} {k : BitVec 3} : fTail w = bit b ++ k ↔ w.getLsbD 3 = b ∧ w.extractLsb' 0 3 = k :=
  (extractLsb'_eq_append_iff (s := 0) (m := 1) (n := 3)).trans (and_congr_left fun _ => extractLsb'_eq_bit_iff)
@[simp] theorem fImm_eq_append_iff8 {w : Word} {c : BitVec 3} {o : BitVec 8} : fImm w = c ++ o ↔ w.extractLsb' 8 3 = c ∧ w.extractLsb' 0 8 = o :=
  extractLsb'_eq_append_iff (s := 0) (m := 3) (n := 8)
@[simp] theorem fImm_eq_append_iff6 {w : Word} {c : BitVec 5} {o : BitVec 6} : fImm w = c ++ o ↔ w.extractLsb' 6 5 = c ∧ w.extractLsb' 0 6 = o :=
  extractLsb'_eq_append_iff (s := 0) (m := 5) (n := 6)
@[simp] theorem fImm_eq_append_iff3 {w : Word} {c : BitVec 8} {o : BitVec 3} : fImm w = c ++ o ↔ w.extractLsb' 3 8 = c ∧ w.extractLsb' 0 3 = o :=
  extractLsb'_eq_append_iff (s := 0) (m := 8) (n := 3)
@[simp] theorem fImm_eq_append_iff10 {w : Word} {o : BitVec 10} : fImm w = 0#1 ++ o ↔ w.getLsbD 10 = false ∧ w.extractLsb' 0 10 = o :=
  (extractLsb'_eq_append_iff (s := 0) (m := 1) (n := 10)).trans (and_congr_left fun _ => extractLsb'_eq_bit_iff (b := false))
@[simp] theorem fImm_eq_append_iff55 {w : Word} {l p : BitVec 5} : fImm w = 0#1 ++ l ++ p ↔
    w.getLsbD 10 = false ∧ w.extractLsb' 5 5 = l ∧ w.extractLsb' 0 5 = p :=
  (extractLsb'_eq_append_iff (s := 0) (m := 1 + 5) (n := 5)).trans
    ((and_congr_left fun _ => extractLsb'_eq_append_iff.trans (and_congr_left fun _ => extractLsb'_eq_bit_iff (b := false))).trans and_assoc)
@[simp] theorem fImm_eq_append_iff25 {w : Word} {c : BitVec 4} {l : BitVec 2} {p : BitVec 5} : fImm w = c ++ l ++ p ↔
    w.extractLsb' 7 4 = c ∧ w.extractLsb' 5 2 = l ∧ w.extractLsb' 0 5 = p :=
  (extractLsb'_eq_append_iff (s := 0) (m := 4 + 2) (n := 5)).trans
    ((and_congr_left fun _ => extractLsb'_eq_append_iff).trans and_assoc)

theorem encodes_of_word_eq {x : Option Ext} {u w : Word} (h : u = w) : some (x, u) = some (x, w) := h ▸ rfl

theorem encR3_getR3 {op : BitVec 7} {x : Option Ext} {w : Word} (hm : majorOf w = op.toNat) : some (encR3 op (getR3 x w)) = some (x, w) :=
  encodes_of_word_eq (by simp [getR3, oD, oA, oB, hm])

theorem encRI_getRI {op : BitVec 7} {x : Option Ext} {w : Word} (hm : majorOf w = op.toNat) : some (encRI op (getRI x w)) = some (x, w) :=
  encodes_of_word_eq (by simp [getRI, oD, oA, hm])

theorem encMW_getMW {op : BitVec 7} {x : Option Ext} {w : Word} (hm : majorOf w = op.toNat) : some (encMW op (getMW x w)) = some (x, w) :=
  encodes_of_word_eq (by simp [getMW, oD, oA, hm])

theorem encShi_getShi {x : Option Ext} {w : Word} {sel : BitVec 2} (hm : majorOf w = 0x1D) (hs : (w.extractLsb' 5 2).toNat = sel.toNat)
    (hz : w.extractLsb' 7 4 = 0) : some (encShi sel (getShi x w)) = some (x, w) :=
  encodes_of_word_eq (by simp [getShi, oD, oA, hm, hz, BitVec.toNat_inj.mp hs])

theorem encRF_getRF {op fn : BitVec 7} {x : Option Ext} {w : Word} (hm : majorOf w = op.toNat) (hf : (fB w).toNat = fn.toNat) {eb : Bool}
    (hb : w.getLsbD 1 = eb) : some (encRF op fn (getRF x w) eb) = some (x, w) :=
  encodes_of_word_eq (by subst hb; simp [getRF, oD, oA, hm, BitVec.toNat_inj.mp hf])

theorem mkRX_of_fields {op d a b : BitVec 7} {t : BitVec 4} {x : Option Ext} {w : Word} (hm : majorOf w = op.toNat)
    (hf : (fB w).toNat = b.toNat) (hd : fD w = d) (ha : fA w = a) (ht : fTail w = t) : some (x, mkRX op d a b t) = some (x, w) :=
  encodes_of_word_eq (mkRX_eq_iff.mpr ⟨hm, hd, ha, BitVec.toNat_inj.mp hf, ht⟩)

/-- A word without operand fields: only its function code is not 0. -/
theorem mkRX_of_fn {op fn : BitVec 7} {x : Option Ext} {w : Word} (hm : majorOf w = op.toNat) (hf : (fB w).toNat = fn.toNat)
    (hz : (fD w == 0 && fA w == 0 && fTail w == 0) = true) : some (x, mkRX op 0 0 fn 0) = some (x, w) := by
  simp only [Bool.and_eq_true, beq_iff_eq] at hz
  obtain ⟨⟨hd, ha⟩, ht⟩ := hz
  exact mkRX_of_fields hm hf hd ha ht

theorem pdCode_eq_fD {w : Word} (h : w.extractLsb' 21 4 = 0) : fD w = pdCode (w.extractLsb' 18 3) :=
  fD_eq_append_iff.mpr ⟨h, rfl⟩

theorem zero_iff_fields {w : Word} : w.extractLsb' 0 25 = 0 ↔ fD w = 0 ∧ fA w = 0 ∧ fB w = 0 ∧ fTail w = 0 := by
  have hz : w.extractLsb' 0 (7 + 7 + 7 + 4) = 0#7 ++ 0#7 ++ 0#7 ++ 0#4 ↔ fD w = 0 ∧ fA w = 0 ∧ fB w = 0 ∧ fTail w = 0 := by
    simp only [extractLsb'_eq_append_iff, and_assoc]
    exact Iff.rfl
  exact hz

variable {x : Option Ext} {w : Word} {i : Instr}

theorem encodeWord_of_decodeShi (hm : majorOf w = 0x1D) (h : decodeShi x w = .ok i) : encodeWord i = some (x, w) := by
  unfold decodeShi at h
  split at h <;> rename_i hs
  case h_5 => cases h
  all_goals
    obtain ⟨hz, rfl⟩ := given_ok.mp h
    exact encShi_getShi hm hs (by simpa using hz)

theorem encodeWord_of_decodeIun (hm : majorOf w = 0x20) (h : decodeIun x w = .ok i) : encodeWord i = some (x, w) := by
  unfold decodeIun at h
  split at h <;> rename_i hf
  case h_14 => cases h
  all_goals
    obtain ⟨hb, rfl⟩ := rfWord_ok.mp h
    exact encRF_getRF hm hf hb

theorem encodeWord_of_decodeFun (hm : majorOf w = 0x2C) (h : decodeFun x w = .ok i) : encodeWord i = some (x, w) := by
  unfold decodeFun at h
  split at h <;> rename_i hf
  case h_12 => cases h
  all_goals
    obtain ⟨hb, rfl⟩ := rfWord_ok.mp h
    exact encRF_getRF hm hf hb

theorem encodeWord_of_decodeFcvt (hm : majorOf w = 0x2D) (h : decodeFcvt x w = .ok i) : encodeWord i = some (x, w) := by
  unfold decodeFcvt at h
  split at h <;> rename_i hf
  case h_11 => cases h
  all_goals
    obtain ⟨hb, rfl⟩ := rfWord_ok.mp h
    exact encRF_getRF hm hf hb

theorem encodeWord_of_decodeMom (hm : majorOf w = 0x3F) (h : decodeMom x w = .ok i) : encodeWord i = some (x, w) := by
  unfold decodeMom at h
  split at h <;> rename_i hf
  case h_8 => cases h
  case h_2 =>
    obtain ⟨hz, rfl⟩ := given_ok.mp h
    simp only [Bool.and_eq_true, beq_iff_eq, Bool.not_eq_true'] at hz
    exact encodes_of_word_eq (mkR3_eq_iff.mpr ⟨hm, by simp [oD], hz.1, BitVec.toNat_inj.mp hf, rfl, rfl, hz.2, rfl⟩)
  all_goals
    obtain ⟨hb, rfl⟩ := rfWord_ok.mp h
    exact encRF_getRF hm hf hb

theorem encodeWord_of_decodeCtl (hm : majorOf w = 0x43) (h : decodeCtl x w = .ok i) : encodeWord i = some (x, w) := by
  unfold decodeCtl at h
  split at h <;> rename_i hf
  case h_6 => cases h
  all_goals
    obtain ⟨hz, rfl⟩ := given_ok.mp h
    exact mkRX_of_fn hm hf hz

theorem encodeWord_of_decodeFence (hm : majorOf w = 0x5C) (h : decodeFence x w = .ok i) : encodeWord i = some (x, w) := by
  unfold decodeFence at h
  split at h <;> rename_i hf
  case h_3 => cases h
  all_goals
    obtain ⟨hz, rfl⟩ := given_ok.mp h
    exact mkRX_of_fn hm hf hz

theorem encodeWord_of_decodePhase (hm : majorOf w = 0x60) (h : decodePhase x w = .ok i) : encodeWord i = some (x, w) := by
  unfold decodePhase at h
  split at h <;> rename_i hf
  case h_3 => cases h
  all_goals
    obtain ⟨hz, rfl⟩ := given_ok.mp h
    exact mkRX_of_fn hm hf hz

theorem encodeWord_of_decodeMsk (hm : majorOf w = 0x46) (h : decodeMsk x w = .ok i) : encodeWord i = some (x, w) := by
  unfold decodeMsk at h
  split at h <;> rename_i hf
  case h_13 => cases h
  case h_1 | h_2 | h_3 | h_4 | h_5 =>
    simp only [givenC_ok, maskOf_ok, Bool.and_eq_true, beq_iff_eq] at h
    obtain ⟨⟨ha, ht⟩, d, hd, rfl⟩ := h
    exact mkRX_of_fields hm hf hd ha ht
  case h_6 | h_7 | h_8 | h_9 | h_10 =>
    simp only [givenCC_ok, maskOf_ok, beq_iff_eq] at h
    obtain ⟨ht, d, hd, a, ha, rfl⟩ := h
    exact mkRX_of_fields hm hf hd ha ht
  case h_11 | h_12 =>
    simp only [givenC_ok, maskOf_ok, beq_iff_eq] at h
    obtain ⟨ht, a, ha, rfl⟩ := h
    exact mkRX_of_fields hm hf (by simp [oD]) ha ht

theorem encodeWord_of_decodeAred (hm : majorOf w = 0x59) (h : decodeAred x w = .ok i) : encodeWord i = some (x, w) := by
  unfold decodeAred at h
  split at h <;> rename_i hd
  case h_3 => cases h
  all_goals
    simp only [givenC_ok, atomKindOf_ok, true_and] at h
    obtain ⟨f, hf, rfl⟩ := h
    exact encodes_of_word_eq (mkRX_eq_iff.mpr ⟨hm, BitVec.toNat_inj.mp hd, by simp [oA], by simp [oB], hf⟩)

theorem encodeWord_of_decodeMres (hm : majorOf w = 0x68) (h : decodeMres x w = .ok i) : encodeWord i = some (x, w) := by
  unfold decodeMres at h
  split at h <;> rename_i hf
  case h_3 => cases h
  case h_1 =>
    obtain ⟨hz, rfl⟩ := given_ok.mp h
    simp only [Bool.and_eq_true, beq_iff_eq] at hz
    exact mkRX_of_fields hm hf (pdCode_eq_fD hz.1.1) hz.1.2 hz.2
  case h_2 =>
    obtain ⟨hz, rfl⟩ := given_ok.mp h
    exact mkRX_of_fn hm hf hz

theorem encodeWord_of_decodeFut (hm : majorOf w = 0x71) (h : decodeFut x w = .ok i) : encodeWord i = some (x, w) := by
  unfold decodeFut at h
  split at h <;> rename_i hf
  case h_4 => cases h
  all_goals
    obtain ⟨hz, rfl⟩ := given_ok.mp h
    simp only [Bool.and_eq_true, beq_iff_eq] at hz
  case h_1 => exact mkRX_of_fields hm hf (by simp [oD]) (by simp [oA]) hz
  case h_2 => exact mkRX_of_fields hm hf (pdCode_eq_fD hz.1) (by simp [oA]) hz.2
  case h_3 => exact mkRX_of_fields hm hf hz.1 (by simp [oA]) hz.2

theorem encodeWord_of_decodeQsc (hm : majorOf w = 0x72) (h : decodeQsc x w = .ok i) : encodeWord i = some (x, w) := by
  unfold decodeQsc at h
  split at h <;> rename_i hf
  case h_7 => cases h
  all_goals obtain ⟨hz, rfl⟩ := given_ok.mp h
  case h_5 =>
    simp only [Bool.and_eq_true, beq_iff_eq] at hz
    exact mkRX_of_fields hm hf (by simp [oD]) hz.1 hz.2
  case h_6 =>
    simp only [Bool.and_eq_true, beq_iff_eq] at hz
    exact mkRX_of_fields hm hf (pdCode_eq_fD hz.1) (by simp [oA]) hz.2
  all_goals exact mkRX_of_fn hm hf hz

theorem encodeWord_of_decodeQop (hm : majorOf w = 0x76) (h : decodeQop x w = .ok i) : encodeWord i = some (x, w) := by
  unfold decodeQop at h
  split at h <;> rename_i hf
  case h_3 => cases h
  all_goals
    obtain ⟨hz, rfl⟩ := given_ok.mp h
    exact mkRX_of_fields hm hf (by simp [oD]) (by simp [oA]) (by simpa using hz)

theorem encodeWord_of_decodeSysop (hm : majorOf w = 0x7D) (h : decodeSysop x w = .ok i) : encodeWord i = some (x, w) := by
  unfold decodeSysop at h
  split at h <;> rename_i hf
  case h_6 => cases h
  all_goals obtain ⟨hz, rfl⟩ := given_ok.mp h
  case h_4 => exact mkRX_of_fn hm hf hz
  case h_2 | h_3 => exact mkRX_of_fields hm hf (by simp [oD]) (by simp [oA]) (by simpa using hz)
  all_goals
    simp only [Bool.and_eq_true, beq_iff_eq] at hz
    exact mkRX_of_fields hm hf hz.1 (by simp [oA]) hz.2

/-- The fields of a `bar` word: its kind is bit 3 for the space, and three bits. -/
theorem encodeWord_of_decodeBar (hm : majorOf w = 0x70) (h : decodeBar x w = .ok i) : encodeWord i = some (x, w) := by
  unfold decodeBar at h
  split at h <;> rename_i ht
  case h_11 => cases h
  all_goals
    obtain ⟨hz, rfl⟩ := given_ok.mp h
    simp only [Bool.and_eq_true, beq_iff_eq] at hz
  case h_1 | h_4 | h_6 | h_9 =>
    exact encodes_of_word_eq (mkRX_eq_iff.mpr ⟨hm, hz, by simp [oA], by simp [oB], BitVec.eq_of_toNat_eq ht⟩)
  case h_2 | h_7 => exact encodes_of_word_eq (mkRX_eq_iff.mpr ⟨hm, hz.1, by simp [oA], hz.2, BitVec.eq_of_toNat_eq ht⟩)
  case h_3 | h_8 =>
    exact encodes_of_word_eq (mkRX_eq_iff.mpr ⟨hm, hz.1, by simp [oA], fB_eq_append_bit_iff.mpr ⟨hz.2, rfl⟩, BitVec.eq_of_toNat_eq ht⟩)
  case h_5 | h_10 =>
    exact encodes_of_word_eq (mkRX_eq_iff.mpr
      ⟨hm, pdCode_eq_fD hz.1, by simp [oA], fB_eq_append_bit_iff.mpr ⟨hz.2, rfl⟩, BitVec.eq_of_toNat_eq ht⟩)

theorem loopWord_eq_iff {lc : BitVec 2} {len : BitVec 8} {cnt : BitVec 7} {b : Bool} {ns : BitVec 3} {w : Word} :
    (0x4D#7 ++ lc ++ len ++ cnt ++ bit b ++ ns ++ 0#4 : Word) = w ↔ majorOf w = 0x4D ∧ w.extractLsb' 23 2 = lc ∧
      w.extractLsb' 15 8 = len ∧ w.extractLsb' 8 7 = cnt ∧ w.getLsbD 7 = b ∧ w.extractLsb' 4 3 = ns ∧ fTail w = 0 := by
  have hw : w.extractLsb' 0 (7 + 2 + 8 + 7 + 1 + 3 + 4) = w := BitVec.extractLsb'_eq_self
  refine (Eq.congr_right hw.symm).trans (eq_comm.trans ?_)
  simp only [extractLsb'_eq_append_iff, extractLsb'_eq_bit_iff, and_assoc, fTail]
  exact and_congr_left fun _ => majorOf_eq_iff

theorem fB_lt_4 {w : Word} : (fB w).toNat < 4 ↔ w.extractLsb' 6 5 = 0 := by
  simp only [fB, ← BitVec.toNat_inj, BitVec.extractLsb'_toNat, Nat.shiftRight_eq_div_pow,
    BitVec.ofNat_eq_ofNat, BitVec.toNat_ofNat]
  omega

theorem fB_lt_8 {w : Word} : (fB w).toNat < 8 ↔ w.extractLsb' 7 4 = 0 := by
  simp only [fB, ← BitVec.toNat_inj, BitVec.extractLsb'_toNat, Nat.shiftRight_eq_div_pow,
    BitVec.ofNat_eq_ofNat, BitVec.toNat_ofNat]
  omega

theorem fB_lt_16 {w : Word} : (fB w).toNat < 16 ↔ w.extractLsb' 8 3 = 0 := by
  simp only [fB, ← BitVec.toNat_inj, BitVec.extractLsb'_toNat, Nat.shiftRight_eq_div_pow,
    BitVec.ofNat_eq_ofNat, BitVec.toNat_ofNat]
  omega

theorem encodeWord_of_decodeWord {x : Option Ext} {w : Word} {i : Instr} (h : decodeWord x w = .ok i) :
    encodeWord i = some (x, w) := by
  unfold decodeWord at h
  split at h <;> rename_i hm
  case h_121 => cases h
  case h_1 | h_2 | h_3 | h_4 | h_5 | h_6 | h_7 | h_8 | h_9 | h_10 | h_11 | h_12 | h_13 | h_14 | h_15 | h_16 | h_17 | h_18 | h_19 | h_20 | h_21 | h_22 | h_23
   | h_36 | h_37 | h_38 | h_39 | h_40 | h_41 | h_42 | h_46 | h_47 | h_48 | h_49 | h_50 | h_51 | h_53 | h_58 | h_62 =>
    cases h; exact encR3_getR3 hm
  case h_24 | h_25 | h_26 | h_27 | h_28 => cases h; exact encRI_getRI hm
  case h_79 | h_80 | h_81 | h_82 | h_83 | h_84 | h_85 => cases h; exact encMW_getMW hm
  case h_29 => exact encodeWord_of_decodeShi hm h
  case h_32 => exact encodeWord_of_decodeIun hm h
  case h_44 => exact encodeWord_of_decodeFun hm h
  case h_45 => exact encodeWord_of_decodeFcvt hm h
  case h_63 => exact encodeWord_of_decodeMom hm h
  case h_67 => exact encodeWord_of_decodeCtl hm h
  case h_70 => exact encodeWord_of_decodeMsk hm h
  case h_88 => exact encodeWord_of_decodeAred hm h
  case h_91 => exact encodeWord_of_decodeFence hm h
  case h_95 => exact encodeWord_of_decodePhase hm h
  case h_99 => exact encodeWord_of_decodeMres hm h
  case h_107 => exact encodeWord_of_decodeBar hm h
  case h_108 => exact encodeWord_of_decodeFut hm h
  case h_109 => exact encodeWord_of_decodeQsc hm h
  case h_113 => exact encodeWord_of_decodeQop hm h
  case h_120 => exact encodeWord_of_decodeSysop hm h
  case h_30 | h_31 | h_73 | h_74 => cases h; exact encodes_of_word_eq (by simp [oD, oA, oB, hm])
  case h_61 | h_68 | h_89 =>
    obtain ⟨hz, rfl⟩ := given_ok.mp h
    exact encRF_getRF hm (congrArg BitVec.toNat (by simpa using hz)) rfl
  case h_52 | h_54 | h_55 =>
    obtain ⟨hz, rfl⟩ := given_ok.mp h
    simp only [Bool.and_eq_true, Bool.not_eq_true', decide_eq_true_eq, fB_lt_4, fB_lt_8] at hz
    exact encRF_getRF hm (congrArg BitVec.toNat (by simp [hz])) hz.2
  case h_64 | h_66 | h_69 =>
    obtain ⟨rfl, h⟩ := unprefixed_ok.mp h
    obtain ⟨hz, rfl⟩ := given_ok.mp h
    rw [beq_iff_eq] at hz
    have hz : w.extractLsb' 21 (3 + 1) = 0#3 ++ bit false := hz
    rw [extractLsb'_eq_append_iff, extractLsb'_eq_bit_iff] at hz
    exact encodes_of_word_eq (mkBR_eq_iff.mpr ⟨hm, hz.1, hz.2, rfl⟩)
  case h_65 =>
    obtain ⟨rfl, h⟩ := unprefixed_ok.mp h
    cases h
    exact encodes_of_word_eq (mkBR_eq_iff.mpr ⟨hm, rfl, rfl, rfl⟩)
  case h_77 =>
    obtain ⟨rfl, h⟩ := unprefixed_ok.mp h
    obtain ⟨hz, rfl⟩ := given_ok.mp h
    exact encodes_of_word_eq (loopWord_eq_iff.mpr ⟨hm, rfl, rfl, rfl, rfl, rfl, by simpa using hz⟩)
  case h_100 | h_116 =>
    obtain ⟨hz, rfl⟩ := given_ok.mp h
    obtain ⟨hd, ha, hb, ht⟩ := zero_iff_fields.mp (by simpa using hz)
    exact encodes_of_word_eq (mkRX_eq_iff.mpr ⟨hm, hd, ha, hb, ht⟩)
  case h_34 | h_56 | h_57 | h_59 | h_60 | h_72 | h_78 | h_86 | h_90 | h_92 | h_96 | h_98 | h_101 | h_102 | h_103 | h_104 | h_105 | h_106
    | h_110 | h_111 | h_112 | h_114 | h_115 | h_117 | h_118 | h_119 =>
    obtain ⟨hz, rfl⟩ := given_ok.mp h
    simp only [Bool.and_eq_true, beq_iff_eq, Bool.not_eq_true', decide_eq_true_eq, fB_lt_16] at hz
    exact encodes_of_word_eq (by simp [oD, oA, oB, pdCode, hm, hz, -BitVec.getLsbD_eq_getElem])
  case h_71 =>
    simp only [givenCC_ok, maskOf_ok, psrcOf_ok, beq_iff_eq] at h
    obtain ⟨hb, d, hd, a, ha, rfl⟩ := h
    exact encodes_of_word_eq (mkRX_eq_iff.mpr ⟨hm, hd, ha, hb, rfl⟩)
  case h_33 | h_35 | h_43 | h_75 | h_76 | h_87 | h_93 | h_94 | h_97 =>
    simp only [givenC_ok, condOf_ok, fcondOf_ok, redOpOf_ok, scanOpOf_ok, atomKindOf_ok, lredOpOf_ok, Bool.and_eq_true, beq_iff_eq, Bool.not_eq_true'] at h
    obtain ⟨hz, c, hc, rfl⟩ := h
    exact encodes_of_word_eq (by simp [oD, oA, oB, hm, hz, hc, -BitVec.getLsbD_eq_getElem])


theorem decodeWord_of_encR3 {op : BitVec 7} {f : R3 → Instr} {r : R3}
    (arm : ∀ x w, majorOf w = op.toNat → decodeWord x w = .ok (f (getR3 x w))) (h : some (encR3 op r) = some (x, w)) :
    decodeWord x w = .ok (f r) := by
  obtain ⟨rfl, hw⟩ := Prod.mk.inj (Option.some.inj h)
  obtain ⟨hm, hd, ha, hb, hk, hea, heb, hn⟩ := mkR3_eq_iff.mp hw
  rw [arm _ _ hm, getR3, oD, oA, oB, hd, ha, hb, hk, hea, heb, hn]
  simp only [Operand.ofCode_code]

theorem decodeWord_of_encRI {op : BitVec 7} {f : RI → Instr} {r : RI}
    (arm : ∀ x w, majorOf w = op.toNat → decodeWord x w = .ok (f (getRI x w))) (h : some (encRI op r) = some (x, w)) :
    decodeWord x w = .ok (f r) := by
  obtain ⟨rfl, hw⟩ := Prod.mk.inj (Option.some.inj h)
  obtain ⟨hm, hd, ha, hi⟩ := mkRI_eq_iff.mp hw
  rw [arm _ _ hm, getRI, oD, oA, hd, ha, hi]
  simp only [Operand.ofCode_code]

theorem decodeWord_of_encMW {op : BitVec 7} {f : MW → Instr} {r : MW}
    (arm : ∀ x w, majorOf w = op.toNat → decodeWord x w = .ok (f (getMW x w))) (h : some (encMW op r) = some (x, w)) :
    decodeWord x w = .ok (f r) := by
  obtain ⟨rfl, hw⟩ := Prod.mk.inj (Option.some.inj h)
  obtain ⟨hm, hd, ha, hi⟩ := mkRI_eq_iff.mp hw
  obtain ⟨hs, ho⟩ := fImm_eq_append_iff8.mp hi
  rw [arm _ _ hm, getMW, oD, oA, hd, ha, hs, ho]
  simp only [Operand.ofCode_code]

theorem decodeWord_of_encShi {sel : BitVec 2} {f : Shi → Instr} {r : Shi}
    (arm : ∀ x w, majorOf w = 0x1D → w.extractLsb' 5 2 = sel → decodeWord x w = given (w.extractLsb' 7 4 == 0) (f (getShi x w)))
    (h : some (encShi sel r) = some (x, w)) : decodeWord x w = .ok (f r) := by
  obtain ⟨rfl, hw⟩ := Prod.mk.inj (Option.some.inj h)
  obtain ⟨hm, hd, ha, hi⟩ := mkRI_eq_iff.mp hw
  obtain ⟨hz, hs, hn⟩ := fImm_eq_append_iff25.mp hi
  rw [arm _ _ hm hs, getShi, oD, oA, hd, ha, hn, hz]
  simp only [Operand.ofCode_code]
  rfl

theorem getRF_of_word {op fn : BitVec 7} {r : RF} {eb : Bool} (h : some (encRF op fn r eb) = some (x, w)) :
    majorOf w = op.toNat ∧ fB w = fn ∧ w.getLsbD 1 = eb ∧ getRF x w = r := by
  obtain ⟨rfl, hw⟩ := Prod.mk.inj (Option.some.inj h)
  obtain ⟨hm, hd, ha, hb, hk, hea, heb, hn⟩ := mkR3_eq_iff.mp hw
  refine ⟨hm, hb, heb, ?_⟩
  rw [getRF, oD, oA, hd, ha, hk, hea, hn]
  simp only [Operand.ofCode_code]

theorem decodeWord_of_encRF {op fn : BitVec 7} {f : RF → Instr} {r : RF}
    (arm : ∀ x w, majorOf w = op.toNat → fB w = fn → decodeWord x w = rfWord w f x) (h : some (encRF op fn r) = some (x, w)) :
    decodeWord x w = .ok (f r) := by
  obtain ⟨hm, hb, he, hr⟩ := getRF_of_word h
  rw [arm _ _ hm hb, rfWord_ok, hr]
  exact ⟨he, rfl⟩

theorem decodeWord_of_encRF_eb {op fn : BitVec 7} {f : RF → Bool → Instr} {r : RF} {eb : Bool}
    (arm : ∀ x w, majorOf w = op.toNat → decodeWord x w = given (fB w == fn) (f (getRF x w) (w.getLsbD 1)))
    (h : some (encRF op fn r eb) = some (x, w)) : decodeWord x w = .ok (f r eb) := by
  obtain ⟨hm, hb, he, hr⟩ := getRF_of_word h
  rw [arm _ _ hm, given_ok, hr, he, hb]
  exact ⟨beq_self_eq_true fn, rfl⟩

theorem decodeWord_of_encodeWord {i : Instr} (h : encodeWord i = some (x, w)) : decodeWord x w = .ok i := by
  cases i with
  | add r | sub r | mul r | mulh r | mulhu r | mad r | div r | divu r | rem r | remu r | min r | max r | minu r | maxu r | and_ r | or_ r | xor r | andn r
  | shl r | shr r | sar r | rot r | addsat r | fadd r | fsub r | fmul r | ffma r | fmin r | fmax r | fdiv r | bfma2 r | badd2 r | dot4 r | dot8 r | fscl r
  | pk8 r | pk4 r | blend r | mupdw r => exact decodeWord_of_encR3 (fun _ _ hm => by rw [decodeWord, hm]; rfl) h
  | addi r | muli r | andi r | ori r | xori r => exact decodeWord_of_encRI (fun _ _ hm => by rw [decodeWord, hm]; rfl) h
  | ldn r | stn r | lda r | sta r | ldc r | stc r | ldw r => exact decodeWord_of_encMW (fun _ _ hm => by rw [decodeWord, hm]; rfl) h
  | shli r | shri r | sari r | roti r =>
    exact decodeWord_of_encShi (fun _ _ hm hs => by rw [decodeWord, hm]; change decodeShi _ _ = _; rw [decodeShi, hs]; rfl) h
  | mov r | not_ r | neg r | abs r | clz r | ctz r | popc r | brev r | bswap r | sxb r | sxh r | zxb r | zxh r =>
    exact decodeWord_of_encRF (fun _ _ hm hb => by rw [decodeWord, hm]; change decodeIun _ _ = _; rw [decodeIun, hb]; rfl) h
  | fabs r | fneg r | fsqrt r | frcp r | frsq r | fexp2 r | flog2 r | ffloor r | fceil r | ftrunc r | frint r =>
    exact decodeWord_of_encRF (fun _ _ hm hb => by rw [decodeWord, hm]; change decodeFun _ _ = _; rw [decodeFun, hb]; rfl) h
  | f2i r | f2iz r | f2u r | f2uz r | i2f r | u2f r | f2bf r | bf2f r | f2h r | h2f r =>
    exact decodeWord_of_encRF (fun _ _ hm hb => by rw [decodeWord, hm]; change decodeFcvt _ _ = _; rw [decodeFcvt, hb]; rfl) h
  | mupd r | mmean r | mvar r | mvars r | mrstd r | msum r =>
    exact decodeWord_of_encRF (fun _ _ hm hb => by rw [decodeWord, hm]; change decodeMom _ _ = _; rw [decodeMom, hb]; rfl) h
  | bsrf r eb | jmpi r eb | ldx r eb => exact decodeWord_of_encRF_eb (fun _ _ hm => by rw [decodeWord, hm]; rfl) h
  | upk8 r j | upk4 r j | ftag r j =>
    obtain ⟨hm, hb, he, hr⟩ := getRF_of_word h
    simp only [fB_eq_append_iff5, fB_eq_append_iff4] at hb
    rw [decodeWord, hm]
    exact given_ok.mpr (by simp [fB_lt_4, fB_lt_8, hb, he, hr, -BitVec.getLsbD_eq_getElem])
  | movi y d n | movh y d n =>
    obtain ⟨rfl, hw⟩ := Prod.mk.inj (Option.some.inj h)
    obtain ⟨hm, hd, hi⟩ := mkI18_eq_iff.mp hw
    rw [decodeWord, hm]
    exact congrArg Except.ok (by simp [oD, hd, hi])
  | shfl y d a b m | xchg y d a b m =>
    obtain ⟨rfl, hw⟩ := Prod.mk.inj (Option.some.inj h)
    obtain ⟨hm, hd, ha, hb, ht⟩ := mkRX_eq_iff.mp hw
    rw [decodeWord, hm]
    exact congrArg Except.ok (by simp [oD, oA, oB, hd, ha, hb, ht])
  | sel | bfx | bfi | bsget | veq | wbase | ldsc | stx | pref | nbok | lcfg | mzero | trap | gets | sets
  | bsld | mma | mdr | xcp | xsort | xcol | lees | palloc | pfree | launch | twait =>
    obtain ⟨rfl, hw⟩ := Prod.mk.inj (Option.some.inj h)
    simp only [mkR3_eq_iff, mkRX_eq_iff, mkRI_eq_iff, pdCode, fD_eq_append_iff, fB_eq_append_iff3, fTail_eq_append_iff, fImm_eq_append_iff8, fImm_eq_append_iff6,
      fImm_eq_append_iff3, fImm_eq_append_iff10, fImm_eq_append_iff55] at hw
    rw [decodeWord, hw.1]
    exact given_ok.mpr (by simp [oD, oA, oB, fB_lt_16, hw, -BitVec.getLsbD_eq_getElem])
  | setp | setpi | fsetp | wred | wscan | atom | atoma | areda | lred =>
    obtain ⟨rfl, hw⟩ := Prod.mk.inj (Option.some.inj h)
    simp only [mkR3_eq_iff, mkRX_eq_iff, mkRI_eq_iff, fD_eq_append_iff] at hw
    rw [decodeWord, hw.1]
    exact givenC_ok.mpr (by simp [oD, oA, oB, hw, -BitVec.getLsbD_eq_getElem])
  | vote y d a m =>
    obtain ⟨rfl, hw⟩ := Prod.mk.inj (Option.some.inj h)
    obtain ⟨hm, hd, ha, hb, ht⟩ := mkRX_eq_iff.mp hw
    rw [decodeWord, hm]
    exact givenCC_ok.mpr (by simp [hd, ha, hb, ht])
  | jmp off | call off | meet off =>
    obtain ⟨rfl, hw⟩ := Prod.mk.inj (Option.some.inj h)
    obtain ⟨hm, hp, hz, ho⟩ := mkBR_eq_iff.mp hw
    have h4 : w.extractLsb' 21 (3 + 1) = 0#3 ++ bit false := extractLsb'_eq_append_iff.mpr ⟨hp, extractLsb'_eq_bit_iff.mpr hz⟩
    rw [decodeWord, hm]
    exact unprefixed_ok.mpr ⟨rfl, given_ok.mpr ⟨beq_iff_eq.mpr h4, by rw [ho]⟩⟩
  | brp p nz off =>
    obtain ⟨rfl, hw⟩ := Prod.mk.inj (Option.some.inj h)
    obtain ⟨hm, hp, hz, ho⟩ := mkBR_eq_iff.mp hw
    rw [decodeWord, hm]
    exact unprefixed_ok.mpr ⟨rfl, by rw [hp, hz, ho]⟩
  | loop lc len cnt b ns =>
    obtain ⟨rfl, hw⟩ := Prod.mk.inj (Option.some.inj h)
    obtain ⟨hm, hl, hn, hc, hb, hs, ht⟩ := loopWord_eq_iff.mp hw
    rw [decodeWord, hm]
    exact unprefixed_ok.mpr ⟨rfl, given_ok.mpr ⟨beq_iff_eq.mpr ht, by rw [hl, hn, hc, hb, hs]⟩⟩
  | nop | ret | exit | yield | brk =>
    obtain ⟨rfl, hw⟩ := Prod.mk.inj (Option.some.inj h)
    obtain ⟨hm, hd, ha, hb, ht⟩ := mkRX_eq_iff.mp hw
    rw [decodeWord, hm]
    change decodeCtl _ _ = _
    rw [decodeCtl, hb]
    exact given_ok.mpr (by simp [hd, ha, ht])
  | join | leaveMask | mwait | mzeroMask | mfill | mpopc | mtos =>
    obtain ⟨rfl, hw⟩ := Prod.mk.inj (Option.some.inj h)
    obtain ⟨hm, hd, ha, hb, ht⟩ := mkRX_eq_iff.mp hw
    rw [decodeWord, hm]
    change decodeMsk _ _ = _
    rw [decodeMsk, hb]
    exact givenC_ok.mpr (by simp [oD, hd, ha, ht])
  | mmov | mand | mor | mxor | mnot =>
    obtain ⟨rfl, hw⟩ := Prod.mk.inj (Option.some.inj h)
    obtain ⟨hm, hd, ha, hb, ht⟩ := mkRX_eq_iff.mp hw
    rw [decodeWord, hm]
    change decodeMsk _ _ = _
    rw [decodeMsk, hb]
    exact givenCC_ok.mpr (by simp [hd, ha, ht])
  | ared | aredX =>
    obtain ⟨rfl, hw⟩ := Prod.mk.inj (Option.some.inj h)
    obtain ⟨hm, hd, ha, hb, ht⟩ := mkRX_eq_iff.mp hw
    rw [decodeWord, hm]
    change decodeAred _ _ = _
    rw [decodeAred, hd]
    exact givenC_ok.mpr (by simp [oA, oB, ha, hb, ht])
  | fence | fenceNtdrain =>
    obtain ⟨rfl, hw⟩ := Prod.mk.inj (Option.some.inj h)
    obtain ⟨hm, hd, ha, hb, ht⟩ := mkRX_eq_iff.mp hw
    rw [decodeWord, hm]
    change decodeFence _ _ = _
    rw [decodeFence, hb]
    exact given_ok.mpr (by simp [hd, ha, ht])
  | phase | phaseRetire =>
    obtain ⟨rfl, hw⟩ := Prod.mk.inj (Option.some.inj h)
    obtain ⟨hm, hd, ha, hb, ht⟩ := mkRX_eq_iff.mp hw
    rw [decodeWord, hm]
    change decodePhase _ _ = _
    rw [decodePhase, hb]
    exact given_ok.mpr (by simp [hd, ha, ht])
  | mresw =>
    obtain ⟨rfl, hw⟩ := Prod.mk.inj (Option.some.inj h)
    obtain ⟨hm, hd, ha, hb, ht⟩ := mkRX_eq_iff.mp hw
    rw [decodeWord, hm]
    change decodeMres _ _ = _
    rw [decodeMres, hb]
    exact given_ok.mpr (by simp [hd, ha, ht])
  | qenter | qleave | qpt | gwait | gstart =>
    obtain ⟨rfl, hw⟩ := Prod.mk.inj (Option.some.inj h)
    obtain ⟨hm, hd, ha, hb, ht⟩ := mkRX_eq_iff.mp hw
    rw [decodeWord, hm]
    change decodeQsc _ _ = _
    rw [decodeQsc, hb]
    exact given_ok.mpr (by simp [oD, hd, ha, ht])
  | fwait | fcancel =>
    obtain ⟨rfl, hw⟩ := Prod.mk.inj (Option.some.inj h)
    obtain ⟨hm, hd, ha, hb, ht⟩ := mkRX_eq_iff.mp hw
    rw [decodeWord, hm]
    change decodeFut _ _ = _
    rw [decodeFut, hb]
    exact given_ok.mpr (by simp [oD, oA, hd, ha, ht])
  | qlen | qbind =>
    obtain ⟨rfl, hw⟩ := Prod.mk.inj (Option.some.inj h)
    obtain ⟨hm, hd, ha, hb, ht⟩ := mkRX_eq_iff.mp hw
    rw [decodeWord, hm]
    change decodeQop _ _ = _
    rw [decodeQop, hb]
    exact given_ok.mpr (by simp [oD, oA, hd, ha, ht])
  | tlbinv | ctxsave | ctxload | icinv | halt =>
    obtain ⟨rfl, hw⟩ := Prod.mk.inj (Option.some.inj h)
    obtain ⟨hm, hd, ha, hb, ht⟩ := mkRX_eq_iff.mp hw
    rw [decodeWord, hm]
    change decodeSysop _ _ = _
    rw [decodeSysop, hb]
    exact given_ok.mpr (by simp [oD, oA, hd, ha, ht])
  | mres =>
    obtain ⟨rfl, hw⟩ := Prod.mk.inj (Option.some.inj h)
    obtain ⟨hm, hd, ha, hb, ht⟩ := mkRX_eq_iff.mp hw
    rw [decodeWord, hm]
    change decodeMres _ _ = _
    rw [decodeMres, hb]
    exact given_ok.mpr (by simp [(fD_eq_append_iff.mp hd).1, (fD_eq_append_iff.mp hd).2, ha, ht])
  | ftest =>
    obtain ⟨rfl, hw⟩ := Prod.mk.inj (Option.some.inj h)
    obtain ⟨hm, hd, ha, hb, ht⟩ := mkRX_eq_iff.mp hw
    rw [decodeWord, hm]
    change decodeFut _ _ = _
    rw [decodeFut, hb]
    exact given_ok.mpr (by simp [oA, (fD_eq_append_iff.mp hd).1, (fD_eq_append_iff.mp hd).2, ha, ht])
  | gpoll =>
    obtain ⟨rfl, hw⟩ := Prod.mk.inj (Option.some.inj h)
    obtain ⟨hm, hd, ha, hb, ht⟩ := mkRX_eq_iff.mp hw
    rw [decodeWord, hm]
    change decodeQsc _ _ = _
    rw [decodeQsc, hb]
    exact given_ok.mpr (by simp [oA, (fD_eq_append_iff.mp hd).1, (fD_eq_append_iff.mp hd).2, ha, ht])
  | mrel | rte =>
    obtain ⟨rfl, hw⟩ := Prod.mk.inj (Option.some.inj h)
    obtain ⟨hm, hz⟩ := mkRX_eq_iff.mp hw
    rw [decodeWord, hm]
    exact given_ok.mpr ⟨beq_iff_eq.mpr (zero_iff_fields.mpr hz), rfl⟩
  | mclr y d k ea n =>
    obtain ⟨rfl, hw⟩ := Prod.mk.inj (Option.some.inj h)
    obtain ⟨hm, hd, ha, hb, hk, hea, heb, hn⟩ := mkR3_eq_iff.mp hw
    rw [decodeWord, hm]
    change decodeMom _ _ = _
    rw [decodeMom, hb]
    exact given_ok.mpr (by simp [oD, hd, ha, hk, hea, heb, hn, -BitVec.getLsbD_eq_getElem])
  | barInit y nsp a b | barExpect y nsp a b =>
    obtain ⟨rfl, hw⟩ := Prod.mk.inj (Option.some.inj h)
    obtain ⟨hm, hd, ha, hb, ht⟩ := mkRX_eq_iff.mp hw
    rw [decodeWord, hm]
    change decodeBar _ _ = _
    rw [decodeBar, ht]
    cases nsp <;> exact given_ok.mpr (by simp [oA, oB, hd, ha, hb])
  | barArrive y nsp a =>
    obtain ⟨rfl, hw⟩ := Prod.mk.inj (Option.some.inj h)
    obtain ⟨hm, hd, ha, hb, ht⟩ := mkRX_eq_iff.mp hw
    rw [decodeWord, hm]
    change decodeBar _ _ = _
    rw [decodeBar, ht]
    cases nsp <;> exact given_ok.mpr (by simp [oA, hd, ha, hb])
  | barWait y nsp a p =>
    obtain ⟨rfl, hw⟩ := Prod.mk.inj (Option.some.inj h)
    obtain ⟨hm, hd, ha, hb, ht⟩ := mkRX_eq_iff.mp hw
    obtain ⟨hz, hp⟩ := fB_eq_append_bit_iff.mp hb
    rw [decodeWord, hm]
    change decodeBar _ _ = _
    rw [decodeBar, ht]
    cases nsp <;> exact given_ok.mpr (by simp [oA, hd, ha, hz, hp, -BitVec.getLsbD_eq_getElem])
  | barTest y nsp q a p =>
    obtain ⟨rfl, hw⟩ := Prod.mk.inj (Option.some.inj h)
    obtain ⟨hm, hd, ha, hb, ht⟩ := mkRX_eq_iff.mp hw
    obtain ⟨hz, hp⟩ := fB_eq_append_bit_iff.mp hb
    obtain ⟨hd0, hq⟩ := fD_eq_append_iff.mp hd
    rw [decodeWord, hm]
    change decodeBar _ _ = _
    rw [decodeBar, ht]
    cases nsp <;> exact given_ok.mpr (by simp [oA, hd0, hq, ha, hz, hp, -BitVec.getLsbD_eq_getElem])
  | _ => cases h

theorem wordOf_wordBytes (w : Word) : wordOf (w.extractLsb' 0 8) (w.extractLsb' 8 8) (w.extractLsb' 16 8) (w.extractLsb' 24 8) = w := by
  have hw : w.extractLsb' 0 (8 + 8 + 8 + 8) = w := BitVec.extractLsb'_eq_self
  refine Eq.trans (Eq.symm ?_) hw
  exact extractLsb'_eq_append_iff.mpr ⟨extractLsb'_eq_append_iff.mpr ⟨extractLsb'_eq_append_iff.mpr ⟨rfl, rfl⟩, rfl⟩, rfl⟩

theorem ext_word_eq_iff {e : Ext} {w : Word} : e.word = w ↔ majorOf w = 0x7E ∧ Ext.ofWord w = e := by
  have hw : w.extractLsb' 0 (7 + 1 + 3 + 1 + 3 + 2 + 1 + 1 + 13) = w := BitVec.extractLsb'_eq_self
  refine (Eq.congr_right hw.symm).trans (eq_comm.trans ?_)
  obtain ⟨g, gp, gn, scope, ord, o, nt, immx⟩ := e
  simp only [Ext.word, Ext.ofWord, extractLsb'_eq_append_iff, extractLsb'_eq_bit_iff, and_assoc, Ext.mk.injEq]
  exact and_congr_left fun _ => majorOf_eq_iff

theorem majorOf_ne_ext {x : Option Ext} {w : Word} {i : Instr} (h : decodeWord x w = .ok i) : majorOf w ≠ 0x7E := by
  intro hm
  rw [decodeWord, hm] at h
  cases h

theorem decode_wordBytes {w : Word} {i : Instr} (h : decodeWord none w = .ok i) (rest : List Byte) :
    decode (wordBytes w ++ rest) = .ok (i, rest) := by
  simp [decode, wordBytes, wordOf_wordBytes, majorOf_ne_ext h, h]

theorem decode_ext_wordBytes {e : Ext} {w : Word} {i : Instr} (h : decodeWord (some e) w = .ok i) (rest : List Byte) :
    decode (wordBytes e.word ++ wordBytes w ++ rest) = .ok (i, rest) := by
  obtain ⟨hm, he⟩ := ext_word_eq_iff.mp (Eq.refl e.word)
  simp [decode, wordBytes, wordOf_wordBytes, hm, he, majorOf_ne_ext h, h]

/-- Settles O55: both directions go case by case through the map of R45, and a word is its fields in either. -/
theorem decodeAndEncodeAgree : Obligations.DecodeAndEncodeAgree := by
  refine ⟨fun i x w rest h _ => ?_, fun x w i => encodeWord_of_decodeWord⟩
  have hd := decodeWord_of_encodeWord h
  cases x with
  | none => simpa only [encode, h] using decode_wordBytes hd rest
  | some e => simpa only [encode, h] using decode_ext_wordBytes hd rest

end Sys2Proof
end

section
/-! PROOF. Memory as data (O58), the operations of a barrier object (O23), the state after reset (O59), and the words that the manual
writes out (O60). -/

namespace Sys2Proof.Machine

/-! ### Canonical memories -/

theorem Memory.read1_head (a : Nat) (b : Byte) (m : Memory) : Memory.read1 ((a, b) :: m) a = b := if_pos rfl

/-- A canonical memory that reads 0 everywhere lists nothing. -/
theorem Memory.eq_nil_of_read1 {lo : Nat} : ∀ {m : Memory}, Memory.wfFrom lo m = true → (∀ x, Memory.read1 m x = 0) → m = []
  | [], _, _ => rfl
  | (a, b) :: m, hm, h => by
    obtain ⟨-, hb, -⟩ := Memory.wfFrom_cons.mp hm
    exact absurd ((Memory.read1_head a b m).symm.trans (h a)) hb

/-- The lowest listed address of one memory is listed in every memory that reads like it. -/
theorem Memory.head_le_of_read1 {lo a a' : Nat} {b b' : Byte} {m m' : Memory} (h : Memory.wfFrom lo ((a, b) :: m) = true)
    (h' : Memory.wfFrom lo ((a', b') :: m') = true)
    (hr : ∀ x, Memory.read1 ((a, b) :: m) x = Memory.read1 ((a', b') :: m') x) : a' ≤ a := by
  obtain ⟨-, hb, -⟩ := Memory.wfFrom_cons.mp h
  obtain ⟨-, hb', hm'⟩ := Memory.wfFrom_cons.mp h'
  by_contra hlt
  have hz := Memory.read1_below (Nat.lt_of_not_le hlt) (Memory.wfFrom_cons.mpr ⟨le_refl a', hb', hm'⟩)
  exact hb ((Memory.read1_head a b m).symm.trans ((hr a).trans hz))

/-- Canonical memories that read alike are the same data: their lowest addresses agree, and with them the rest. -/
theorem Memory.ext_of_read1 {lo : Nat} : ∀ {m n : Memory}, Memory.wfFrom lo m = true → Memory.wfFrom lo n = true →
    (∀ x, Memory.read1 m x = Memory.read1 n x) → m = n
  | [], n, _, hn, h => (Memory.eq_nil_of_read1 hn fun x => (h x).symm).symm
  | m, [], hm, _, h => Memory.eq_nil_of_read1 hm h
  | (a, b) :: m, (a', b') :: n, hm, hn, h => by
    obtain rfl : a = a' := le_antisymm (Memory.head_le_of_read1 hn hm fun x => (h x).symm) (Memory.head_le_of_read1 hm hn h)
    obtain rfl : b = b' := by simpa only [Memory.read1_head] using h a
    obtain ⟨-, -, hm⟩ := Memory.wfFrom_cons.mp hm
    obtain ⟨-, -, hn⟩ := Memory.wfFrom_cons.mp hn
    have rest (x : Nat) : Memory.read1 m x = Memory.read1 n x := by
      by_cases hx : x = a
      · rw [hx, Memory.read1_below (Nat.lt_succ_self a) hm, Memory.read1_below (Nat.lt_succ_self a) hn]
      · simpa only [Memory.read1, if_neg hx] using h x
    rw [Memory.ext_of_read1 hm hn rest]

theorem readAfterWrite : Claims.ReadAfterWrite := by
  refine fun m x bs hm => ⟨Memory.wf_write bs x hm, Memory.read_write_self bs x hm, fun a ha => ?_⟩
  rw [Memory.read1_write a bs x hm, if_neg (by omega)]

/-- Settles O58: equality of canonical memories is read off from their lowest addresses on, and what a write leaves is
`Memory.read1_write`. -/
theorem memoryReadsWhatWasWritten : Obligations.MemoryReadsWhatWasWritten :=
  ⟨fun _ _ => Memory.ext_of_read1, readAfterWrite⟩

/-! ### Barrier objects (R109, R110) -/

/-- An object with arrivals or bytes to come does not complete its phase. -/
theorem BarObj.settle_pending {o : BarObj} (h : o.arrive ≠ 0 ∨ o.bytes ≠ 0) : o.settle = o := if_neg (by tauto)

/-- An object without either does. -/
theorem BarObj.settle_done {o : BarObj} (ha : o.arrive = 0) (hb : o.bytes = 0) :
    o.settle = { o with phase := !o.phase, arrive := o.init } := if_pos ⟨ha, hb⟩

theorem BarObj.settle_bytes (o : BarObj) : o.settle.bytes = o.bytes := by
  unfold BarObj.settle; split <;> rfl

theorem BarObj.apply_arrive {o : BarObj} (h : o.arrive ≠ 0) : o.apply .arrive = some { o with arrive := o.arrive - 1 }.settle :=
  if_neg h

/-- Settles O23: each operation is one branch of its definition, and `BarObj.settle` completes a phase exactly when nothing is to
come. -/
theorem barrierObjectOperations : Obligations.BarrierObjectOperations := by
  refine fun o n => ⟨rfl, fun h => if_pos h, fun h => ?_, fun h hb => ?_, fun h hb => ?_, fun h => if_neg (by omega), fun h => if_pos h,
    fun k hk => ?_, fun k hk => ?_, fun hb ha => ?_⟩
  · rw [BarObj.apply_arrive (by omega), BarObj.settle_pending (.inl (show o.arrive - 1 ≠ 0 by omega))]
  · rw [BarObj.apply_arrive (by omega), h]
    exact congrArg some (BarObj.settle_pending (.inr hb))
  · rw [BarObj.apply_arrive (by omega), h]
    exact congrArg some (BarObj.settle_done rfl hb)
  · rw [BarObj.count, if_pos hk]
    exact ⟨rfl, BarObj.settle_bytes _⟩
  · rw [BarObj.count, if_neg (by omega), BarObj.settle_pending (.inr (show o.bytes - k ≠ 0 by omega))]
  · rw [BarObj.count, if_neg (lt_irrefl _), Nat.sub_self]
    exact congrArg (·, false) (BarObj.settle_done ha rfl)

/-! ### Reset and known words -/

theorem die_reset (d : Nat) : State.reset.die d = Die.reset ∨ State.reset.die d = Die.blank := by
  rw [State.die, List.getD_eq_getElem?_getD]
  cases h : State.reset.dies[d]? with
  | none => exact .inr rfl
  | some k => exact .inl (List.eq_of_mem_replicate (List.mem_of_getElem? h))

/-- Settles O59: every die after reset is `Die.reset`, whose memory is empty, and the other values are fields of `State.reset`. -/
theorem resetState : Obligations.ResetState := by
  have dies (d : Die) (h : d ∈ State.reset.dies) : d = Die.reset := List.eq_of_mem_replicate h
  refine ⟨⟨⟨fun d hd => ?_, fun k hk => nomatch hk⟩, fun d a => ?_⟩,
    rfl, rfl, rfl, rfl, rfl, rfl, rfl, rfl, rfl, rfl, rfl, rfl, rfl, rfl, fun d hd => ?_⟩
  · rw [dies d hd]; rfl
  · rcases die_reset d with h | h <;> rw [h] <;> rfl
  · rw [dies d hd]; exact ⟨rfl, rfl, rfl⟩

/-- Settles O60: each word is decoded, field by field. -/
theorem wordsOfTheManual : Obligations.WordsOfTheManual := by
  refine ⟨rfl, rfl, rfl, rfl, rfl, rfl, rfl, rfl, rfl, rfl, rfl, rfl, rfl, rfl, rfl, rfl, rfl⟩

end Sys2Proof.Machine
end

section
/-! PROOF. How the instructions of chapter 7 meet their rows: `Meets` says that an instruction runs a job that is its row's; from it the
row holds, for the integer instructions (O1), and the floating-point, tagged and moment instructions (O2). -/

namespace Sys2Proof.Machine

/-- The instruction runs the job, which is that of the row: EXT word, N bit, operands and sources agree, and its lane function refuses and
decodes the tags that the row does and gives the row's result for any source words. -/
structure Meets (i : Instr) (r : Row) (j : Job) (f : LaneFn) : Prop where
  runs : ∀ s, exec i s = runJob j s
  res : j.res = .fn f
  x : j.x = r.x
  n : j.n = r.n
  d : j.d = r.d
  dn : j.dn = r.dn
  fields : r.fields = j.d :: j.srcs.map SrcF.op
  reads : r.reads = j.reads
  tags : ∀ s t, r.tagsOk (r.tags s t) = true → f.tagsOk (j.tags s t) = true
  book : ∀ s t, f.usesCb (j.tags s t) = r.codebook (r.tags s t)
  value : ∀ s t vals cb, r.tagsOk (r.tags s t) = true → f.eval vals (j.tags s t) cb = r.f vals (r.tags s t) cb

theorem Meets.holds {i : Instr} {r : Row} {j : Job} {f : LaneFn} (h : Meets i r j f) : r.Holds i :=
  row_fn h.runs h.x h.n h.d h.dn h.fields h.reads h.res h.tags h.book fun s t vals ht _ => h.value s t vals _ ht

/-- A lane function that takes every tag and decodes no codebook. -/
def LaneFn.plain (f : LaneFn) : Prop := (∀ ts, f.tagsOk ts = true) ∧ ∀ ts, f.usesCb ts = false

section
variable {i : Instr} {fn : LaneFn}

theorem meets_r3 {w : R3} {g : Word → Word → FnOut} (he : ∀ s, exec i s = runJob (r3Job w fn) s) (hp : fn.plain)
    (hv : ∀ vals ts cb, fn.eval vals ts cb = g (vals.getD 0 0) (vals.getD 1 0)) : Meets i (rowR3 w g) (r3Job w fn) fn :=
  ⟨he, rfl, rfl, rfl, rfl, rfl, rfl, rfl, fun _ _ _ => hp.1 _, fun _ _ => hp.2 _, fun _ _ vals _ _ => hv vals _ _⟩

theorem meets_r3d {w : R3} {g : Word → Word → Word → FnOut} (he : ∀ s, exec i s = runJob (r3JobRd w fn) s) (hp : fn.plain)
    (hv : ∀ vals ts cb, fn.eval vals ts cb = g (vals.getD 0 0) (vals.getD 1 0) (vals.getD 2 0)) :
    Meets i (rowR3d w g) (r3JobRd w fn) fn :=
  ⟨he, rfl, rfl, rfl, rfl, rfl, rfl, rfl, fun _ _ _ => hp.1 _, fun _ _ => hp.2 _, fun _ _ vals _ _ => hv vals _ _⟩

theorem meets_rf {w : RF} {g : Word → FnOut} (he : ∀ s, exec i s = runJob (rfJob w fn) s) (hp : fn.plain)
    (hv : ∀ vals ts cb, fn.eval vals ts cb = g (vals.getD 0 0)) : Meets i (rowRF w g) (rfJob w fn) fn :=
  ⟨he, rfl, rfl, rfl, rfl, rfl, rfl, rfl, fun _ _ _ => hp.1 _, fun _ _ => hp.2 _, fun _ _ vals _ _ => hv vals _ _⟩

theorem meets_ri {w : RI} {g : Word → Word → FnOut} (he : ∀ s, exec i s = runJob (riJob w fn) s) (hp : fn.plain)
    (hv : ∀ vals ts cb, fn.eval vals ts cb = g (vals.getD 0 0) (vals.getD 1 0)) : Meets i (rowRI w g) (riJob w fn) fn :=
  ⟨he, rfl, rfl, rfl, rfl, rfl, rfl, rfl, fun _ _ _ => hp.1 _, fun _ _ => hp.2 _, fun _ _ vals _ _ => hv vals _ _⟩

end

/-! ### The integer functions (R118 to R122) -/

theorem minS_eq (a b : Word) : minS a b = if a.toInt < b.toInt then a else b := by
  simp only [minS, BitVec.slt_iff_toInt_lt]

theorem maxS_eq (a b : Word) : maxS a b = if a.toInt < b.toInt then b else a := by
  simp only [maxS, BitVec.slt_iff_toInt_lt]

theorem minU_eq (a b : Word) : minU a b = if a.toNat < b.toNat then a else b := by
  simp only [minU, BitVec.ult_iff_lt, BitVec.lt_def]

theorem maxU_eq (a b : Word) : maxU a b = if a.toNat < b.toNat then b else a := by
  simp only [maxU, BitVec.ult_iff_lt, BitVec.lt_def]

/-- A sum inside the signed range is the word's sum; one outside takes the bound. -/
theorem addSat_eq (a b : Word) : addSat a b = BitVec.ofInt 32 (max (-2 ^ 31) (min (2 ^ 31 - 1) (a.toInt + b.toInt))) := by
  unfold addSat
  dsimp only
  split
  · rw [min_eq_left (by omega)]; rfl
  · split
    · rw [max_eq_left (by omega)]; rfl
    · rw [min_eq_right (by omega), max_eq_right (by omega), BitVec.ofInt_add, BitVec.ofInt_toInt, BitVec.ofInt_toInt]

theorem abs_eq (a : Word) : (if a.slt 0 then 0 - a else a) = if a.toInt < 0 then -a else a := by
  simp only [BitVec.slt_iff_toInt_lt, BitVec.ofNat_eq_ofNat, BitVec.toInt_zero, BitVec.zero_sub]

/-- The low n bits by a mask are the word cut to n bits. -/
theorem zeroExtend_setWidth_eq_and (a : Word) {n : Nat} (hn : n ≤ 32) :
    a &&& BitVec.ofNat 32 (2 ^ n - 1) = (a.setWidth n).zeroExtend 32 := by
  apply BitVec.eq_of_toNat_eq
  have h1 : 2 ^ n ≤ 2 ^ 32 := Nat.pow_le_pow_right (by decide) hn
  have h2 : 0 < 2 ^ n := Nat.two_pow_pos n
  have h3 : a.toNat % 2 ^ n < 2 ^ n := Nat.mod_lt _ h2
  rw [BitVec.toNat_and, BitVec.toNat_ofNat, Nat.mod_eq_of_lt (by omega), Nat.and_two_pow_sub_one_eq_mod,
    BitVec.zeroExtend, BitVec.toNat_setWidth, BitVec.toNat_setWidth, Nat.mod_eq_of_lt (a := _ % 2 ^ n) (by omega)]

theorem meets_intOp3 {i : Instr} {w : R3} {g : Word → Word → Word} (h : intOp3 i = some (w, g)) :
    ∃ f, Meets i (rowR3 w fun a b => outW (g a b)) (r3Job w f) f := by
  unfold intOp3 at h
  split at h
  case h_23 => cases h
  all_goals cases h
  case h_8 => exact ⟨.rem, meets_r3 (fun _ => rfl) ⟨fun _ => rfl, fun _ => rfl⟩ eval_rem⟩
  case h_9 => exact ⟨.remu, meets_r3 (fun _ => rfl) ⟨fun _ => rfl, fun _ => rfl⟩ eval_remu⟩
  case h_10 => exact ⟨.min, meets_r3 (fun _ => rfl) ⟨fun _ => rfl, fun _ => rfl⟩ fun _ _ _ => congrArg outW (minS_eq _ _)⟩
  case h_11 => exact ⟨.max, meets_r3 (fun _ => rfl) ⟨fun _ => rfl, fun _ => rfl⟩ fun _ _ _ => congrArg outW (maxS_eq _ _)⟩
  case h_12 => exact ⟨.minu, meets_r3 (fun _ => rfl) ⟨fun _ => rfl, fun _ => rfl⟩ fun _ _ _ => congrArg outW (minU_eq _ _)⟩
  case h_13 => exact ⟨.maxu, meets_r3 (fun _ => rfl) ⟨fun _ => rfl, fun _ => rfl⟩ fun _ _ _ => congrArg outW (maxU_eq _ _)⟩
  case h_22 => exact ⟨.addsat, meets_r3 (fun _ => rfl) ⟨fun _ => rfl, fun _ => rfl⟩ fun _ _ _ => congrArg outW (addSat_eq _ _)⟩
  all_goals exact ⟨_, meets_r3 (fun _ => rfl) ⟨fun _ => rfl, fun _ => rfl⟩ fun _ _ _ => rfl⟩

theorem meets_intOp1 {i : Instr} {w : RF} {g : Word → Word} (h : intOp1 i = some (w, g)) :
    ∃ f, Meets i (rowRF w fun a => outW (g a)) (rfJob w f) f := by
  unfold intOp1 at h
  split at h
  case h_13 => cases h
  all_goals cases h
  case h_2 =>
    exact ⟨.neg, meets_rf (fun _ => rfl) ⟨fun _ => rfl, fun _ => rfl⟩ fun _ _ _ => congrArg outW (BitVec.zero_sub _)⟩
  case h_3 => exact ⟨.abs, meets_rf (fun _ => rfl) ⟨fun _ => rfl, fun _ => rfl⟩ fun _ _ _ => congrArg outW (abs_eq _)⟩
  case h_11 =>
    exact ⟨.zxb, meets_rf (fun _ => rfl) ⟨fun _ => rfl, fun _ => rfl⟩ fun _ _ _ =>
      congrArg outW (zeroExtend_setWidth_eq_and _ (n := 8) (by decide))⟩
  case h_12 =>
    exact ⟨.zxh, meets_rf (fun _ => rfl) ⟨fun _ => rfl, fun _ => rfl⟩ fun _ _ _ =>
      congrArg outW (zeroExtend_setWidth_eq_and _ (n := 16) (by decide))⟩
  all_goals exact ⟨_, meets_rf (fun _ => rfl) ⟨fun _ => rfl, fun _ => rfl⟩ fun _ _ _ => rfl⟩

theorem meets_intOpImm {i : Instr} {w : RI} {g : Word → Word → Word} (h : intOpImm i = some (w, g)) :
    ∃ f, Meets i (rowRI w fun a b => outW (g a b)) (riJob w f) f := by
  unfold intOpImm at h
  split at h
  case h_6 => cases h
  all_goals cases h
  all_goals exact ⟨_, meets_ri (fun _ => rfl) ⟨fun _ => rfl, fun _ => rfl⟩ fun _ _ _ => rfl⟩

/-! ### Rows with constants among their sources (R120, R121) -/

theorem slotsOf_length (s : State) (t k : Nat) (f : SrcF) (h : f.n = 1) : (slotsOf s t k f).length = 1 := by
  unfold slotsOf
  split
  case h_4 => split <;> rfl
  all_goals simp [regsOf, *]

/-- A constant that stands behind a source of one word is the second source word. -/
theorem getD_one_of_constant {s : State} {t k : Nat} {o : Operand} {e : Bool} {c : Word} {vals : List Word}
    (h : allSlots s t k [src o e, srcK c] = vals.map Slot.val) : vals.getD 1 0 = c := by
  obtain ⟨x, hx⟩ := List.length_eq_one_iff.mp (slotsOf_length s t k (src o e) rfl)
  have h2 : [x, .val c] = vals.map Slot.val := by rw [← h, allSlots, hx]; rfl
  match vals, h2 with
  | [_, _], h2 => exact (Slot.val.inj (List.cons.inj (List.cons.inj h2).2).1).symm

/-- A constant that stands first is the first source word. -/
theorem getD_zero_of_constant {s : State} {t k : Nat} {c : Word} {fs : List SrcF} {vals : List Word}
    (h : allSlots s t k (srcK c :: fs) = vals.map Slot.val) : vals.getD 0 0 = c := by
  simp only [allSlots, slotsOf, srcK] at h
  match vals, h with
  | b :: _, h => simpa using (List.cons.inj h).1.symm

theorem rowShi_holds {i : Instr} {w : Shi} {g : Word → Nat → Word} (h : intOpShift i = some (w, g)) :
    (rowShi w fun a n => outW (g a n)).Holds i := by
  have hw : ((w.n.zeroExtend 32 : Word)).toNat % 32 = w.n.toNat := by
    rw [BitVec.zeroExtend, BitVec.toNat_setWidth]; have := w.n.isLt; omega
  have row {f : LaneFn} (he : ∀ s, exec i s = runJob (shiJob w f) s) (hp : f.plain)
      (hv : ∀ vals ts cb, f.eval vals ts cb = outW (g (vals.getD 0 0) ((vals.getD 1 0).toNat % 32))) :
      (rowShi w fun a n => outW (g a n)).Holds i :=
    row_fn he rfl rfl rfl rfl rfl rfl rfl (fun _ _ _ => hp.1 _) (fun _ _ => hp.2 _) fun s t vals _ hw' => by
      rw [hv, getD_one_of_constant hw', hw]; rfl
  unfold intOpShift at h
  split at h
  case h_5 => cases h
  all_goals cases h
  all_goals exact row (fun _ => rfl) ⟨fun _ => rfl, fun _ => rfl⟩ fun _ _ _ => rfl

/-- The upper bits by a shift, the lower ones by a mask. -/
theorem movh_eq (imm : BitVec 18) (b : Word) :
    (imm.zeroExtend 32 <<< 14) ||| (b &&& 0x3FFF) = imm ++ b.setWidth 14 := by
  rw [show (0x3FFF : Word) = BitVec.ofNat 32 (2 ^ 14 - 1) from rfl, zeroExtend_setWidth_eq_and b (n := 14) (by decide)]
  apply BitVec.eq_of_toNat_eq
  have h := imm.isLt
  have h2 : b.toNat % 2 ^ 14 < 2 ^ 14 := Nat.mod_lt _ (by decide)
  rw [BitVec.toNat_or, BitVec.toNat_append, BitVec.toNat_shiftLeft]
  simp only [BitVec.zeroExtend, BitVec.toNat_setWidth, Nat.shiftLeft_eq]
  rw [Nat.mod_eq_of_lt (a := imm.toNat) (by omega), Nat.mod_eq_of_lt (a := imm.toNat * _) (by omega),
    Nat.mod_eq_of_lt (a := b.toNat % _) (by omega)]

/-- `sel` writes the source that its predicate names. -/
theorem sel_holds {s : State} {t : Nat} {x : Option Ext} {d a b : Operand} {p : BitVec 3} {r : Row} {vals : List Word}
    (h : otherRow s t (.sel x d a b p) = some r) (hl : Lone s t r.x) (hg : RowGiven r s t vals) :
    exec (.sel x d a b p) s = .next (r.after s t vals) := by
  cases h
  have hj : JobGiven { x := x, d := d, srcs := [src a, src b], res := .sel p } s t vals :=
    ⟨rfl, hg.ops, hg.words, hg.room, hg.fresh, rfl, rfl⟩
  have hf := hg.fresh
  calc exec (.sel x d a b p) s = runJob { x := x, d := d, srcs := [src a, src b], res := .sel p } s := rfl
    _ = _ := by
      rw [runJob_lone hl hj, State.usePops_nil]
      · rfl
      · simp only [Job.finish, State.addFlags, State.modWp_entries, writeDst_popped, hf]

/-- A row of a form of its own that is a lane function. -/
theorem otherRow_holds {i : Instr} {s : State} {t : Nat} {r : Row} {vals : List Word} (h : otherRow s t i = some r)
    (hl : Lone s t r.x) (hg : RowGiven r s t vals) : exec i s = .next (r.after s t vals) := by
  unfold otherRow at h
  split at h
  case h_1 w =>
    cases h
    exact (meets_r3d (fn := .mad) (fun _ => rfl) ⟨fun _ => rfl, fun _ => rfl⟩ fun _ _ _ => rfl).holds s t vals hl hg
  case h_2 x d imm =>
    cases h
    refine row_fn (f := .mov) (fun _ => rfl) rfl rfl rfl rfl rfl rfl rfl (fun _ _ _ => rfl) (fun _ _ => rfl)
      (fun s t vals _ hw => ?_) s t vals hl hg
    exact congrArg outW (getD_zero_of_constant hw)
  case h_3 x d imm =>
    cases h
    refine row_fn (f := .movh) (fun _ => rfl) rfl rfl rfl rfl rfl rfl rfl (fun _ _ _ => rfl) (fun _ _ => rfl)
      (fun s t vals _ hw => ?_) s t vals hl hg
    simp only [LaneFn.eval, getD_zero_of_constant hw, movh_eq]
    rfl
  case h_4 x d a b p => exact sel_holds (by rw [← h]; rfl) hl hg
  case h_5 x d a len1 pos =>
    cases h
    exact row_fn (f := .bfx (len1.toNat + 1) pos.toNat) (fun _ => rfl) rfl rfl rfl rfl rfl rfl rfl (fun _ _ _ => rfl)
      (fun _ _ => rfl) (fun _ _ _ _ _ => rfl) s t vals hl hg
  case h_6 x d a len1 pos =>
    cases h
    exact row_fn (f := .bfi (len1.toNat + 1) pos.toNat) (fun _ => rfl) rfl rfl rfl rfl rfl rfl rfl (fun _ _ _ => rfl)
      (fun _ _ => rfl) (fun _ _ _ _ _ => rfl) s t vals hl hg
  case h_7 => cases h

/-- Settles O1: each instruction runs the job of its row, whose lane function is the row's. -/
theorem integerArithmetic : Obligations.IntegerArithmetic := by
  refine ⟨fun i w f h => ?_, ⟨fun i w f h => ?_, fun i w f h => ?_, fun i w f h => rowShi_holds h⟩, fun i s t r vals h => otherRow_holds h⟩
  · obtain ⟨_, h⟩ := meets_intOp3 h; exact h.holds
  · obtain ⟨_, h⟩ := meets_intOp1 h; exact h.holds
  · obtain ⟨_, h⟩ := meets_intOpImm h; exact h.holds

end Sys2Proof.Machine
end

section
/-! PROOF. The floating-point, tagged and moment instructions meet their rows (O2). -/

namespace Sys2Proof.Machine

theorem meets_floatOp1 {i : Instr} {w : RF} {g : Word → FnOut} (h : floatOp1 i = some (w, g)) :
    ∃ f, Meets i (rowRF w g) (rfJob w f) f := by
  unfold floatOp1 at h
  split at h
  case h_22 => cases h
  all_goals cases h
  all_goals exact ⟨_, meets_rf (fun _ => rfl) ⟨fun _ => rfl, fun _ => rfl⟩ fun _ _ _ => rfl⟩

theorem meets_floatOp2 {i : Instr} {w : R3} {g : Word → Word → FnOut} (h : floatOp2 i = some (w, g)) :
    ∃ f, Meets i (rowR3 w g) (r3Job w f) f := by
  unfold floatOp2 at h
  split at h
  case h_9 => cases h
  all_goals cases h
  all_goals exact ⟨_, meets_r3 (fun _ => rfl) ⟨fun _ => rfl, fun _ => rfl⟩ fun _ _ _ => rfl⟩

theorem meets_floatOp3 {i : Instr} {w : R3} {g : Word → Word → Word → FnOut} (h : floatOp3 i = some (w, g)) :
    ∃ f, Meets i (rowR3d w g) (r3JobRd w f) f := by
  unfold floatOp3 at h
  split at h
  case h_3 => cases h
  all_goals cases h
  all_goals exact ⟨_, meets_r3d (fun _ => rfl) ⟨fun _ => rfl, fun _ => rfl⟩ fun _ _ _ => rfl⟩

/-! ### Tags (R131) -/

theorem tagsOk_dot4 (ta tb td : Tag) : LaneFn.dot4.tagsOk [ta, tb, td] = (tags8.contains ta && tags8.contains tb) := by
  cases ta <;> cases tb <;> rfl

theorem tagsOk_dot8 (ta tb td : Tag) : LaneFn.dot8.tagsOk [ta, tb, td] = (tags4.contains ta && tags4.contains tb) := by
  cases ta <;> cases tb <;> rfl

theorem tagsOk_upk8 (i : Nat) (ta tb td : Tag) : (LaneFn.upk8 i).tagsOk [ta, tb, td] = tags8.contains ta := by
  cases ta <;> rfl

theorem tagsOk_upk4 (i : Nat) (ta tb td : Tag) : (LaneFn.upk4 i).tagsOk [ta, tb, td] = tags4.contains ta := by
  cases ta <;> rfl

theorem tagsOk_pk8 (ta tb td : Tag) : LaneFn.pk8.tagsOk [ta, tb, td] = [Tag.e4m3, .e5m2, .i8].contains td := by
  cases td <;> rfl

theorem tagsOk_pk4 (ta tb td : Tag) : LaneFn.pk4.tagsOk [ta, tb, td] = [Tag.e2m1, .i4].contains td := by
  cases td <;> rfl

theorem meets_tagRow {i : Instr} {r : Row} (h : tagRow i = some r) : ∃ j f, Meets i r j f := by
  unfold tagRow at h
  split at h
  case h_9 => cases h
  all_goals cases h
  case h_1 w =>
    exact ⟨rfJob w .mov, .mov, fun _ => rfl, rfl, rfl, rfl, rfl, rfl, rfl, rfl, fun _ _ _ => rfl, fun _ _ => rfl,
      fun _ _ _ _ _ => rfl⟩
  case h_2 w g =>
    exact ⟨rfJob w (.ftag g), .ftag g, fun _ => rfl, rfl, rfl, rfl, rfl, rfl, rfl, rfl, fun _ _ _ => rfl, fun _ _ => rfl,
      fun _ _ _ _ _ => rfl⟩
  case h_3 w =>
    exact ⟨r3JobRd w .dot4, .dot4, fun _ => rfl, rfl, rfl, rfl, rfl, rfl, rfl, rfl,
      fun _ _ h => (tagsOk_dot4 _ _ _).trans h, fun _ _ => rfl, fun _ _ _ _ _ => rfl⟩
  case h_4 w =>
    exact ⟨r3JobRd w .dot8, .dot8, fun _ => rfl, rfl, rfl, rfl, rfl, rfl, rfl, rfl,
      fun _ _ h => (tagsOk_dot8 _ _ _).trans h, fun _ _ => rfl, fun _ _ _ _ _ => rfl⟩
  case h_5 w =>
    exact ⟨r3JobRd w .pk8, .pk8, fun _ => rfl, rfl, rfl, rfl, rfl, rfl, rfl, rfl,
      fun _ _ h => (tagsOk_pk8 _ _ _).trans h, fun _ _ => rfl, fun _ _ _ _ _ => rfl⟩
  case h_6 w =>
    exact ⟨r3JobRd w .pk4, .pk4, fun _ => rfl, rfl, rfl, rfl, rfl, rfl, rfl, rfl,
      fun _ _ h => (tagsOk_pk4 _ _ _).trans h, fun _ _ => rfl, fun _ _ _ _ _ => rfl⟩
  case h_7 w i =>
    exact ⟨rfJob w (.upk8 i.toNat), .upk8 i.toNat, fun _ => rfl, rfl, rfl, rfl, rfl, rfl, rfl, rfl,
      fun _ _ h => (tagsOk_upk8 _ _ _ _).trans h, fun _ _ => rfl, fun _ _ _ _ _ => rfl⟩
  case h_8 w i =>
    exact ⟨rfJob w (.upk4 i.toNat), .upk4 i.toNat, fun _ => rfl, rfl, rfl, rfl, rfl, rfl, rfl, rfl,
      fun _ _ h => (tagsOk_upk4 _ _ _ _).trans h, fun _ _ => rfl, fun _ _ _ _ _ => rfl⟩

/-! ### Moment triples (R140, R141) -/

theorem ofWords_drop (v : List Word) (i : Nat) : Triple.ofWords (v.drop i) = tripleAt v i := by
  simp [Triple.ofWords, tripleAt, List.getD_eq_getElem?_getD]

theorem meets_momentRow {i : Instr} {r : Row} (h : momentRow i = some r) : ∃ j f, Meets i r j f := by
  unfold momentRow at h
  split at h
  case h_10 => cases h
  all_goals cases h
  case h_1 w =>
    refine ⟨{ x := w.x, n := w.n, d := w.d, dn := 3, srcs := [srcN w.a 3 w.ea, srcN w.b 3 w.eb], res := .fn .blend }, .blend,
      fun _ => rfl, rfl, rfl, rfl, rfl, rfl, rfl, rfl, fun _ _ _ => rfl, fun _ _ => rfl, fun _ _ _ _ _ => ?_⟩
    simp only [LaneFn.eval, ofWords_drop]
  case h_2 w =>
    refine ⟨{ r3JobRd w .mupdw with dn := 3 }, .mupdw,
      fun _ => rfl, rfl, rfl, rfl, rfl, rfl, rfl, rfl, fun _ _ _ => rfl, fun _ _ => rfl, fun _ _ _ _ _ => ?_⟩
    simp only [LaneFn.eval, ofWords_drop]
  case h_3 w =>
    refine ⟨{ rfJob w .mupd with dn := 3, rd := true }, .mupd,
      fun _ => rfl, rfl, rfl, rfl, rfl, rfl, rfl, rfl, fun _ _ _ => rfl, fun _ _ => rfl, fun _ _ _ _ _ => ?_⟩
    simp only [LaneFn.eval, ofWords_drop]
  case h_4 x d _ _ n =>
    exact ⟨{ x := x, n := n, d := d, dn := 3, srcs := [], res := .fn .mclr }, .mclr,
      fun _ => rfl, rfl, rfl, rfl, rfl, rfl, rfl, rfl, fun _ _ _ => rfl, fun _ _ => rfl, fun _ _ _ _ _ => rfl⟩
  case h_5 w =>
    exact ⟨{ rfJob w .mmean with srcs := [srcN w.a 3 w.ea] }, .mmean,
      fun _ => rfl, rfl, rfl, rfl, rfl, rfl, rfl, rfl, fun _ _ _ => rfl, fun _ _ => rfl, fun _ _ _ _ _ => rfl⟩
  case h_6 w =>
    exact ⟨{ rfJob w .mvar with srcs := [srcN w.a 3 w.ea] }, .mvar,
      fun _ => rfl, rfl, rfl, rfl, rfl, rfl, rfl, rfl, fun _ _ _ => rfl, fun _ _ => rfl, fun _ _ _ _ _ => rfl⟩
  case h_7 w =>
    exact ⟨{ rfJob w .mvars with srcs := [srcN w.a 3 w.ea] }, .mvars,
      fun _ => rfl, rfl, rfl, rfl, rfl, rfl, rfl, rfl, fun _ _ _ => rfl, fun _ _ => rfl, fun _ _ _ _ _ => rfl⟩
  case h_8 w =>
    exact ⟨{ rfJob w .msum with srcs := [srcN w.a 3 w.ea] }, .msum,
      fun _ => rfl, rfl, rfl, rfl, rfl, rfl, rfl, rfl, fun _ _ _ => rfl, fun _ _ => rfl, fun _ _ _ _ _ => rfl⟩
  case h_9 w =>
    exact ⟨{ rfJob w .mrstd with srcs := [srcN w.a 3 w.ea], rd := true }, .mrstd,
      fun _ => rfl, rfl, rfl, rfl, rfl, rfl, rfl, rfl, fun _ _ _ => rfl, fun _ _ => rfl, fun _ _ _ _ _ => rfl⟩

/-- Settles O2: each instruction runs the job of its row, whose lane function is the row's. -/
theorem floatingPointAndMoments : Obligations.FloatingPointAndMoments := by
  refine ⟨⟨fun i w f h => ?_, fun i w f h => ?_, fun i w f h => ?_⟩, fun i r h => ?_, fun i r h => ?_⟩
  · obtain ⟨_, h⟩ := meets_floatOp1 h; exact h.holds
  · obtain ⟨_, h⟩ := meets_floatOp2 h; exact h.holds
  · obtain ⟨_, h⟩ := meets_floatOp3 h; exact h.holds
  · obtain ⟨_, _, h⟩ := meets_tagRow h; exact h.holds
  · obtain ⟨_, _, h⟩ := meets_momentRow h; exact h.holds

end Sys2Proof.Machine
end

section
/-! PROOF. Writes of registers: what they leave alone, and what a written register reads as; from these the frame and the result of a
row (O5). -/

namespace Sys2Proof.Machine

/-! ### Advancing -/

/-- Completing an instruction moves the PC and the loops, and wakes the thread; nothing else of it changes. -/
theorem Thread.advance_only (len : Nat) (x : Thread) :
    Thread.advance len x = { x with
      pc := (Thread.advance len x).pc, lc := (Thread.advance len x).lc, status := x.status.to .ready } := rfl

theorem State.th_retire (s : State) (t len n : Nat) :
    (s.retire t len).th n = if t = n ∧ t < s.threads.length then Thread.advance len (s.th t) else s.th n :=
  State.th_modTh s t n _

@[simp] theorem State.retire_frame (s : State) (t len : Nat) :
    (s.retire t len).dies = s.dies ∧ (s.retire t len).cores = s.cores ∧ (s.retire t len).warps = s.warps ∧
    (s.retire t len).ctxs = s.ctxs ∧ (s.retire t len).ops = s.ops ∧ (s.retire t len).launches = s.launches ∧
    (s.retire t len).planted = s.planted ∧ (s.retire t len).issuing = s.issuing :=
  ⟨rfl, rfl, rfl, rfl, rfl, rfl, rfl, rfl⟩

@[simp] theorem State.retire_entries (s : State) (t len j : Nat) :
    (s.retire t len).wp j = s.wp j ∧ (s.retire t len).co j = s.co j ∧ (s.retire t len).die j = s.die j ∧
    (s.retire t len).op j = s.op j ∧ (s.retire t len).la j = s.la j ∧ (s.retire t len).cl j = s.cl j ∧
    (s.retire t len).tm j = s.tm j :=
  ⟨rfl, rfl, rfl, rfl, rfl, rfl, rfl⟩

@[simp] theorem State.th_retire_other (s : State) (t len n : Nat) (h : n ≠ t) : (s.retire t len).th n = s.th n := by
  rw [State.th_retire, if_neg (fun hn => h hn.1.symm)]

/-- A field that advancing leaves alone is as it was before the instruction retired. -/
theorem State.retire_keeps {α : Type} (g : Thread → α) (hg : ∀ len x, g (Thread.advance len x) = g x) (s : State) (t len n : Nat) :
    g ((s.retire t len).th n) = g (s.th n) :=
  getD_modify_proj g (hg len) s.threads t n _

@[simp] theorem State.retire_regs (s : State) (t len n : Nat) (r : RegRef) :
    (s.retire t len).regVal n r = s.regVal n r ∧ (s.retire t len).regTag n r = s.regTag n r ∧
    (s.retire t len).regFull n r = s.regFull n r := by
  have hv := State.retire_keeps Thread.v (fun _ _ => rfl) s t len n
  have hw := State.retire_keeps Thread.warp (fun _ _ => rfl) s t len n
  cases r <;> simp [State.regVal, State.regTag, State.regFull, State.wpOf, hv, hw]

/-! ### Registers only -/

/-- Nothing but registers of the list may differ: v registers of the thread and s registers of its warp. -/
structure RegsOnly (s u : State) (t : Nat) (dst : List RegRef) : Prop where
  threads : u.threads.length = s.threads.length
  warps : u.warps.length = s.warps.length
  others : ∀ n, n ≠ t → u.th n = s.th n
  self : ∃ v, u.th t = { s.th t with v := v } ∧ v.length = (s.th t).v.length ∧
    ∀ n, RegRef.v n ∉ dst → v[n]? = (s.th t).v[n]?
  otherWarps : ∀ k, k ≠ (s.th t).warp → u.wp k = s.wp k
  warp : ∃ r, u.wp (s.th t).warp = { s.wp (s.th t).warp with s := r } ∧ r.length = (s.wp (s.th t).warp).s.length ∧
    ∀ n, RegRef.s n ∉ dst → r[n]? = (s.wp (s.th t).warp).s[n]?

namespace RegsOnly

variable {s u v : State} {t : Nat} {dst : List RegRef}

theorem refl (s : State) (t : Nat) (dst : List RegRef) : RegsOnly s s t dst :=
  ⟨rfl, rfl, fun _ _ => rfl, ⟨_, rfl, rfl, fun _ _ => rfl⟩, fun _ _ => rfl, ⟨_, rfl, rfl, fun _ _ => rfl⟩⟩

theorem thWarp (h : RegsOnly s u t dst) : (u.th t).warp = (s.th t).warp := by
  obtain ⟨v, hv, -⟩ := h.self
  rw [hv]

theorem trans (h : RegsOnly s u t dst) (k : RegsOnly u v t dst) : RegsOnly s v t dst := by
  have hw := h.thWarp
  obtain ⟨x, hx, lx, fx⟩ := h.self
  obtain ⟨y, hy, ly, fy⟩ := k.self
  obtain ⟨p, hp, lp, fp⟩ := h.warp
  obtain ⟨q, hq, lq, fq⟩ := k.warp
  rw [hw] at hq lq fq
  rw [hx] at hy ly fy
  rw [hp] at hq lq fq
  refine ⟨k.threads.trans h.threads, k.warps.trans h.warps, fun n hn => (k.others n hn).trans (h.others n hn), ⟨y, hy, ?_, ?_⟩,
    fun j hj => (k.otherWarps j (by rwa [hw])).trans (h.otherWarps j hj), ⟨q, hq, lq.trans lp, fun n hn => (fq n hn).trans (fp n hn)⟩⟩
  · exact ly.trans lx
  · exact fun n hn => (fy n hn).trans (fx n hn)

theorem of_v {n : Nat} (hn : RegRef.v n ∈ dst) (f : VReg → VReg) (s : State) :
    RegsOnly s (s.modTh t fun x => { x with v := x.v.modify n f }) t dst := by
  refine ⟨by simp, rfl, fun k hk => ?_, ?_, fun _ _ => rfl, ⟨_, rfl, rfl, fun _ _ => rfl⟩⟩
  · rw [State.th_modTh, if_neg (fun h => hk h.1.symm)]
  · rw [State.th_modTh]
    split
    · refine ⟨_, rfl, by simp, fun k hk => ?_⟩
      have e : n ≠ k := fun e => hk (e ▸ hn)
      simp [e]
    · exact ⟨_, rfl, rfl, fun _ _ => rfl⟩

theorem of_s {n : Nat} (hn : RegRef.s n ∈ dst) (f : SReg → SReg) (s : State) :
    RegsOnly s (s.modWp (s.th t).warp fun x => { x with s := x.s.modify n f }) t dst := by
  refine ⟨rfl, by simp, fun _ _ => rfl, ⟨_, rfl, rfl, fun _ _ => rfl⟩, fun k hk => ?_, ?_⟩
  · rw [State.wp_modWp, if_neg (fun h => hk h.1.symm)]
  · rw [State.wp_modWp]
    split
    · refine ⟨_, rfl, by simp, fun k hk => ?_⟩
      have e : n ≠ k := fun e => hk (e ▸ hn)
      simp [e]
    · exact ⟨_, rfl, rfl, fun _ _ => rfl⟩

end RegsOnly

theorem State.fillReg_regsOnly (s : State) (t : Nat) (r : RegRef) (w : Word) (g : Tag) {dst : List RegRef} (h : r ∈ dst) :
    RegsOnly s (s.fillReg t r w g) t dst := by
  cases r with
  | v n => simpa only [State.fillReg, List.set_eq_modify] using RegsOnly.of_v h _ s
  | s n => simpa only [State.fillReg, List.set_eq_modify] using RegsOnly.of_s h _ s

theorem State.markEmpty_regsOnly (s : State) (t : Nat) (r : RegRef) {dst : List RegRef} (h : r ∈ dst) :
    RegsOnly s (s.markEmpty t r) t dst := by
  cases r with
  | v n => exact RegsOnly.of_v h _ s
  | s n => exact RegsOnly.of_s h _ s

theorem State.fillRegs_regsOnly (t : Nat) (g : Tag) {dst : List RegRef} : ∀ (rs : List RegRef) (ws : List Word) (s : State),
    (∀ r ∈ rs, r ∈ dst) → RegsOnly s (s.fillRegs t rs ws g) t dst
  | [], _, s, _ => by rw [State.fillRegs]; exact .refl s t dst; simp
  | _ :: _, [], s, _ => by rw [State.fillRegs]; exact .refl s t dst; simp
  | r :: rs, w :: ws, s, h =>
    (s.fillReg_regsOnly t r w g (h r List.mem_cons_self)).trans
      (State.fillRegs_regsOnly t g rs ws _ fun r hr => h r (List.mem_cons_of_mem _ hr))

theorem State.markAll_regsOnly (t : Nat) {dst : List RegRef} : ∀ (rs : List RegRef) (s : State), (∀ r ∈ rs, r ∈ dst) →
    RegsOnly s (s.markAll t rs) t dst
  | [], s, _ => .refl s t dst
  | r :: rs, s, h =>
    (s.markEmpty_regsOnly t r (h r List.mem_cons_self)).trans
      (State.markAll_regsOnly t rs _ fun r hr => h r (List.mem_cons_of_mem _ hr))

/-- A register outside the list reads as before. -/
theorem RegsOnly.reads {s u : State} {t : Nat} {dst : List RegRef} (h : RegsOnly s u t dst) {r : RegRef} (hr : r ∉ dst) :
    u.regVal t r = s.regVal t r ∧ u.regTag t r = s.regTag t r ∧ u.regFull t r = s.regFull t r := by
  obtain ⟨x, hx, -, fx⟩ := h.self
  obtain ⟨p, hp, -, fp⟩ := h.warp
  cases r with
  | v n => simp [State.regVal, State.regTag, State.regFull, hx, fx n hr]
  | s n => simp [State.regVal, State.regTag, State.regFull, State.wpOf, h.thWarp, hp, fp n hr]

theorem RegsOnly.hasReg {s u : State} {t : Nat} {dst : List RegRef} (h : RegsOnly s u t dst) (r : RegRef) :
    HasReg u t r ↔ HasReg s t r := by
  obtain ⟨x, hx, lx, -⟩ := h.self
  obtain ⟨p, hp, lp, -⟩ := h.warp
  cases r with
  | v n => simp [HasReg, hx, lx]
  | s n => simp [HasReg, State.wpOf, h.thWarp, h.warps, hp, lp]

/-- The register is full and holds the word, a v register with the tag. -/
def State.RegIs (s : State) (t : Nat) (r : RegRef) (w : Word) (g : Tag) : Prop :=
  s.regVal t r = w ∧ s.regTag t r = (match r with | .v _ => g | .s _ => .raw) ∧ s.regFull t r = true

theorem State.fillReg_regIs {s : State} {t : Nat} (ht : t < s.threads.length) {r : RegRef} (hr : HasReg s t r) (w : Word) (g : Tag) :
    (s.fillReg t r w g).RegIs t r w g := by
  cases r with
  | v n =>
    have hn : n < (s.th t).v.length := hr
    simp [State.RegIs, State.regVal, State.regTag, State.regFull, State.fillReg, ht, hn]
  | s n =>
    obtain ⟨hw, hn⟩ := hr
    have hn' : n < (s.wp (s.th t).warp).s.length := hn
    simp [State.RegIs, State.regVal, State.regTag, State.regFull, State.fillReg, State.wpOf, hw, hn']

/-- Each register of a list without repetition takes the word of its place. -/
theorem State.fillRegs_regIs {t : Nat} (g : Tag) : ∀ {rs : List RegRef} {ws : List Word} {s : State}, rs.Nodup → t < s.threads.length →
    ∀ {i : Nat} {r : RegRef} {w : Word}, rs[i]? = some r → ws[i]? = some w → HasReg s t r → (s.fillRegs t rs ws g).RegIs t r w g
  | [], _, _, _, _, _, _, _, h, _, _ => by simp at h
  | _ :: _, [], _, _, _, _, _, _, _, h, _ => by simp at h
  | r :: rs, w :: ws, s, hnd, ht, i, r', w', hi, hw, hr => by
    obtain ⟨hnot, hnd⟩ := List.nodup_cons.mp hnd
    have h1 := s.fillReg_regsOnly t r w g (dst := [r]) (by simp)
    have h2 := State.fillRegs_regsOnly t g rs ws (s.fillReg t r w g) (fun _ h => h)
    rw [State.fillRegs]
    cases i with
    | zero =>
      simp only [List.getElem?_cons_zero, Option.some.injEq] at hi hw
      subst hi hw
      obtain ⟨e1, e2, e3⟩ := h2.reads hnot
      obtain ⟨k1, k2, k3⟩ := State.fillReg_regIs ht hr w g
      exact ⟨e1.trans k1, e2.trans k2, e3.trans k3⟩
    | succ i => exact State.fillRegs_regIs g hnd (by rw [h1.threads]; exact ht) hi hw ((h1.hasReg r').mpr hr)

theorem regsOf_nodup (th : Thread) (o : Operand) (n : Nat) : (regsOf th o n).Nodup := by
  cases o with
  | v k => exact (List.nodup_range).map fun a b h => by simpa using h
  | s k => exact (List.nodup_range).map fun a b h => by simpa using h
  | _ => exact List.nodup_nil

/-! ### The destination of a row -/

/-- What writing a destination can change: registers of the list, registers x, a pending push of the thread, the warp's FIFO or the
queue q0. -/
structure DstOnly (s u : State) (t : Nat) (dst : List RegRef) : Prop where
  threads : u.threads.length = s.threads.length
  warps : u.warps.length = s.warps.length
  others : ∀ n, n ≠ t → u.th n = s.th n
  self : ∃ v st x, u.th t = { s.th t with v := v, staging := st, x := x } ∧ ∀ n, RegRef.v n ∉ dst → v[n]? = (s.th t).v[n]?
  otherWarps : ∀ k, k ≠ (s.th t).warp → u.wp k = s.wp k
  warp : ∃ r ff, u.wp (s.th t).warp = { s.wp (s.th t).warp with s := r, fifo := ff } ∧
    ∀ n, RegRef.s n ∉ dst → r[n]? = (s.wp (s.th t).warp).s[n]?
  dies : u.dies = s.dies
  bufs : ∀ c sp, (u.co c).buf sp = (s.co c).buf sp

theorem RegsOnly.dstOnly {s u : State} {t : Nat} {dst : List RegRef} (h : RegsOnly s u t dst) (hd : u.dies = s.dies)
    (hc : u.cores = s.cores) : DstOnly s u t dst := by
  obtain ⟨v, hv, -, fv⟩ := h.self
  obtain ⟨r, hr, -, fr⟩ := h.warp
  exact ⟨h.threads, h.warps, h.others, ⟨v, _, _, hv, fv⟩, h.otherWarps, ⟨r, _, hr, fr⟩, hd, fun c sp => by rw [State.co, State.co, hc]⟩

/-- A change of the thread's staging or registers x, and of q0 queues. -/
theorem DstOnly.of_thread {s u : State} {t : Nat} {dst : List RegRef} {f : Thread → Thread} {st : Thread → List Word}
    {x : Thread → List Word} (hf : ∀ y, f y = { y with staging := st y, x := x y }) (hth : ∀ n, u.th n = (s.modTh t f).th n)
    (hl : u.threads.length = s.threads.length)
    (hw : u.warps = s.warps) (hd : u.dies = s.dies) (hb : ∀ c sp, (u.co c).buf sp = (s.co c).buf sp) : DstOnly s u t dst := by
  refine ⟨hl, by rw [hw], fun n hn => ?_, ?_, fun k _ => by rw [State.wp, State.wp, hw],
    ⟨(s.wp (s.th t).warp).s, (s.wp (s.th t).warp).fifo, by rw [State.wp, State.wp, hw], fun _ _ => rfl⟩, hd, hb⟩
  · rw [hth, State.th_modTh, if_neg (fun h => hn h.1.symm)]
  · rw [hth, State.th_modTh]
    split
    · exact ⟨_, _, _, hf _, fun _ _ => rfl⟩
    · exact ⟨_, _, _, rfl, fun _ _ => rfl⟩

theorem State.toFifo_dstOnly (s : State) (t : Nat) (e : Entry) (dst : List RegRef) : DstOnly s (s.toFifo t e) t dst := by
  refine ⟨rfl, List.length_modify .., fun _ _ => rfl, ⟨_, _, _, rfl, fun _ _ => rfl⟩, fun k hk => ?_, ?_, rfl, fun _ _ => rfl⟩
  · exact (State.wp_modWp s _ k _).trans (if_neg fun h => hk h.1.symm)
  · have h : (s.toFifo t e).wp (s.th t).warp = _ := State.wp_modWp s _ _ _
    rw [h]
    split
    · exact ⟨_, _, rfl, fun _ _ => rfl⟩
    · exact ⟨_, _, rfl, fun _ _ => rfl⟩

theorem State.pushQ_dstOnly (s : State) (t q : Nat) (w : Word) (dst : List RegRef) : DstOnly s (s.pushQ t q w) t dst := by
  unfold State.pushQ
  split
  · dsimp only
    split
    · exact .of_thread (st := fun _ => (s.th t).staging ++ [w]) (x := Thread.x) (fun _ => rfl) (fun _ => rfl) (List.length_modify ..) rfl rfl
        fun _ _ => rfl
    · refine .of_thread (st := fun _ => []) (x := Thread.x) (fun _ => rfl) (fun _ => rfl) (List.length_modify ..) rfl rfl fun c sp => ?_
      exact getD_modify_proj (fun k : CoreSt => k.buf sp) (fun k => by cases sp <;> rfl) _ _ _ _
  · split
    · exact s.toFifo_dstOnly t _ dst
    · exact (RegsOnly.refl s t dst).dstOnly rfl rfl

theorem State.writeDst_dstOnly (s : State) (t : Nat) (d : Operand) (dst : List RegRef) (o : FnOut) :
    DstOnly s (s.writeDst t d dst o) t dst := by
  have hr : DstOnly s (s.fillRegs t dst o.vals o.tag) t dst :=
    (State.fillRegs_regsOnly t o.tag dst o.vals s fun _ h => h).dstOnly (by rw [State.fillRegs_only]) (by rw [State.fillRegs_only])
  have hn : DstOnly s s t dst := (RegsOnly.refl s t dst).dstOnly rfl rfl
  unfold State.writeDst
  split
  · exact hr
  · exact hr
  · exact .of_thread (st := Thread.staging) (fun _ => rfl) (fun _ => rfl) (List.length_modify ..) rfl rfl fun _ _ => rfl
  · exact s.pushQ_dstOnly t _ _ dst
  · exact hn

/-- Of the registers x only the one that is the destination changes. -/
theorem State.writeDst_x {s : State} {t : Nat} (ht : t < s.threads.length) (d : Operand) (dst : List RegRef) (o : FnOut) :
    ((s.writeDst t d dst o).th t).x = (match d with | .x i => (s.th t).x.set i.toNat (o.vals.getD 0 0) | _ => (s.th t).x) := by
  have hr : ((s.fillRegs t dst o.vals o.tag).th t).x = (s.th t).x := by
    obtain ⟨v, hv, -⟩ := (State.fillRegs_regsOnly t o.tag dst o.vals s fun _ h => h).self
    rw [hv]
  cases d with
  | v n => exact hr
  | s n => exact hr
  | x i => simp [State.writeDst, ht]
  | q n =>
    simp only [State.writeDst, State.pushQ]
    split
    · split
      · exact getD_modify_proj Thread.x (by simp) _ _ _ _
      · exact getD_modify_proj Thread.x (by simp) _ _ _ _
    · split <;> rfl
  | _ => rfl

/-- Flags are ORed into FPSTAT of the thread's warp. -/
theorem State.wp_addFlags (s : State) (t k : Nat) (f : Flags) :
    (s.addFlags t f).wp k =
      if (s.th t).warp = k ∧ (s.th t).warp < s.warps.length then { s.wp k with fp := (s.wp k).fp ||| f } else s.wp k := by
  rw [State.addFlags, State.wp_modWp]
  split
  · next h => rw [h.1]
  · rfl

@[simp] theorem State.addFlags_regs (s : State) (t n : Nat) (f : Flags) (r : RegRef) :
    (s.addFlags t f).regVal n r = s.regVal n r ∧ (s.addFlags t f).regTag n r = s.regTag n r ∧
    (s.addFlags t f).regFull n r = s.regFull n r := by
  have hs : ((s.addFlags t f).wpOf n).s = (s.wpOf n).s := getD_modify_proj Warp.s (by simp) s.warps _ _ _
  cases r with
  | v k => exact ⟨rfl, rfl, rfl⟩
  | s k => simp [State.regVal, State.regTag, State.regFull, hs]

theorem DstOnly.reads {s u : State} {t : Nat} {dst : List RegRef} (h : DstOnly s u t dst) {n : Nat} (hn : RegRef.v n ∉ dst) :
    u.regVal t (.v n) = s.regVal t (.v n) ∧ u.regTag t (.v n) = s.regTag t (.v n) ∧ u.regFull t (.v n) = s.regFull t (.v n) := by
  obtain ⟨v, st, x, hv, fv⟩ := h.self
  simp [State.regVal, State.regTag, State.regFull, hv, fv n hn]

theorem rowFrame : Claims.RowFrame := by
  intro r s t vals ht hw
  have h := s.writeDst_dstOnly t r.d (regsOf (s.th t) r.d r.dn) (r.out s t vals)
  have hx := State.writeDst_x ht r.d (regsOf (s.th t) r.d r.dn) (r.out s t vals)
  dsimp only [Row.after]
  generalize s.writeDst t r.d (regsOf (s.th t) r.d r.dn) (r.out s t vals) = a at h hx ⊢
  obtain ⟨v, st, x, hself, -⟩ := h.self
  obtain ⟨sr, ff, hwarp, hsr⟩ := h.warp
  have haw : (a.th t).warp = (s.th t).warp := by rw [hself]
  have hth : ((a.addFlags t (r.out s t vals).flags).retire t (extLen r.x)).th t =
      Thread.advance (extLen r.x) { s.th t with v := v, staging := st, x := x } := by
    rw [State.th_retire, if_pos ⟨rfl, by simpa [State.addFlags, h.threads] using ht⟩]
    exact congrArg _ hself
  have hwp (k : Nat) : ((a.addFlags t (r.out s t vals).flags).retire t (extLen r.x)).wp k =
      if (s.th t).warp = k then { a.wp k with fp := (a.wp k).fp ||| (r.out s t vals).flags } else a.wp k := by
    simp [State.wp_addFlags, haw, h.warps, hw]
  refine ⟨fun n hn => by simpa using h.reads hn, fun n hn => ?_, ?_, ?_, ?_, ?_, ?_, ⟨?_, ?_⟩, fun n hn => ?_, fun k hk => ?_⟩
  · rw [hwp, if_pos rfl, hwarp]; exact hsr n hn
  · rw [hwp, if_pos rfl, hwarp]
  · rw [hwp, if_pos rfl, hwarp]
  · rw [hth]; rfl
  · rw [hself] at hx; rw [hth]; exact hx
  · rw [hth]
    exact ⟨rfl, rfl, rfl, rfl, rfl, rfl, rfl, rfl, rfl, rfl, rfl, rfl, rfl, rfl, rfl, rfl, rfl, rfl, rfl, rfl, rfl, rfl⟩
  · exact fun d n => congrArg (fun l : List Die => Memory.read1 (l.getD d Die.blank).mem n) h.dies
  · exact fun c sp n => congrArg (fun m => Memory.read1 m n) (h.bufs c sp)
  · rw [State.th_retire_other _ _ _ _ hn]; exact h.others n hn
  · rw [hwp, if_neg (Ne.symm hk)]; exact h.otherWarps k hk

theorem rowResult : Claims.RowResult := by
  intro r s t vals n ht hd hlen hvals i hi
  have hdst : regsOf (s.th t) r.d r.dn = (List.range r.dn).map fun i => RegRef.v ((s.th t).wbase + n.toNat + i) := by rw [hd]; rfl
  have hreg := State.fillRegs_regIs (r.out s t vals).tag (regsOf_nodup (s.th t) r.d r.dn) ht (ws := (r.out s t vals).vals) (i := i)
    (r := .v ((s.th t).wbase + n.toNat + i)) (w := (r.out s t vals).vals.getD i 0)
    (by rw [hdst]; simp [hi]) (by rw [List.getD_eq_getElem?_getD, List.getElem?_eq_getElem (by omega)]; rfl)
    (show _ < _ by omega)
  obtain ⟨h1, h2, h3⟩ := hreg
  have hw : s.writeDst t r.d (regsOf (s.th t) r.d r.dn) (r.out s t vals) =
    s.fillRegs t (regsOf (s.th t) r.d r.dn) (r.out s t vals).vals (r.out s t vals).tag := by rw [hd]; rfl
  refine ⟨?_, ?_, ?_⟩
  · simpa [Row.after, hw] using h1
  · simpa [Row.after, hw] using h2
  · simpa [Row.after, hw] using h3

/-- Settles O5: a row writes its destination (`DstOnly`), its flags and the next PC. -/
theorem arithmeticFrame : Obligations.ArithmeticFrame := ⟨rowFrame, rowResult⟩

end Sys2Proof.Machine
end

section
/-! PROOF. The comparisons and the bit-stream instructions (O3). -/

namespace Sys2Proof.Machine

@[simp] theorem regsOf_v_one (th : Thread) (n : BitVec 6) : regsOf th (.v n) 1 = [.v (th.wbase + n.toNat)] := rfl

@[simp] theorem regsOf_s_one (th : Thread) (n : BitVec 4) : regsOf th (.s n) 1 = [.s n.toNat] := by simp [regsOf]

@[simp] theorem State.fillRegs_one (s : State) (t : Nat) (r : RegRef) (w : Word) (g : Tag) :
    s.fillRegs t [r] [w] g = s.fillReg t r w g := by
  simp [State.fillRegs]

theorem destRoom_of_not_queue {s : State} {t : Nat} {d : Operand} (h : ∀ n, d ≠ .q n) : DestRoom s t d :=
  fun n hn => absurd hn (h n)

/-- A job whose result leaves the thread's pops alone, in a lane that issues alone. -/
theorem runJob_lone_no_pops {j : Job} {s : State} {t : Nat} {vals : List Word} (hl : Lone s t j.x) (h : JobGiven j s t vals)
    (hp : ((j.finish s t vals).th t).popped = []) : runJob j s = .next ((j.finish s t vals).retire t (extLen j.x)) := by
  rw [runJob_lone hl h, State.usePops_nil hp]

theorem setP_popped (s : State) (t : Nat) (p : BitVec 3) (v : Bool) : ((s.setP t p v).th t).popped = (s.th t).popped :=
  modTh_pop _ _ _ fun _ => rfl

section
variable {s : State} {t : Nat} {x : Option Ext} {p : BitVec 3} {va vb : Word} {srcs : List SrcF}

/-- A comparison of two source words, whatever they come from. -/
theorem runJob_setp (c : Cond) (hl : Lone s t x) (hp : (s.th t).popped = []) (ho : Given s t (.z :: srcs.map SrcF.op) srcs [])
    (hw : allSlots s t (s.th t).tickets srcs = [.val va, .val vb]) :
    runJob { x := x, d := .z, srcs := srcs, res := .setp c p } s = .next ((s.setP t p (condHolds c va vb)).retire t (extLen x)) :=
  runJob_lone_no_pops (vals := [va, vb]) hl ⟨rfl, ho, hw, destRoom_of_not_queue (fun _ h => nomatch h), hp, rfl, rfl⟩
    ((setP_popped _ _ _ _).trans hp)

theorem runJob_fsetp (c : FCond) (hl : Lone s t x) (hp : (s.th t).popped = []) (ho : Given s t (.z :: srcs.map SrcF.op) srcs [])
    (hw : allSlots s t (s.th t).tickets srcs = [.val va, .val vb]) :
    runJob { x := x, d := .z, srcs := srcs, res := .fsetp c p } s =
      .next (((s.setP t p (fcondHolds c va vb).1).addFlags t (fcondHolds c va vb).2).retire t (extLen x)) :=
  runJob_lone_no_pops (vals := [va, vb]) hl ⟨rfl, ho, hw, destRoom_of_not_queue (fun _ h => nomatch h), hp, rfl, rfl⟩
    ((setP_popped _ _ _ _).trans hp)

end

theorem comparisonsWritePredicates : Claims.ComparisonsWritePredicates := by
  intro s t x p a b k ea eb imm va vb hl hp
  refine ⟨fun ho hw => ⟨fun c => runJob_setp c hl hp ho hw, fun c => runJob_fsetp c hl hp ho hw⟩, fun ho hw c => ?_⟩
  refine runJob_setp c hl hp ho (srcs := [src a, srcK (immOf x imm)]) ?_
  obtain ⟨-, hq⟩ := allSlots_no_queue s t _ 0 _ [va] hw
  simp only [allSlots, List.append_nil] at hw ⊢
  rw [hw]
  rfl

/-! ### The bit window (R139) -/

theorem windowWait_free {s : State} {t : Nat} (h : windowBusy s t = false) : windowWait s t = .ok := by
  simp [windowWait, h]

theorem exec_bsld {s : State} {t : Nat} {x : Option Ext} {n : BitVec 6} (k ea eb nb : Bool) (hl : Lone s t x)
    (hf : windowBusy s t = false) (ho : Given s t [.v n] [srcN (.v n) 2 ea] []) :
    exec (.bsld x (.v n) k ea eb nb) s =
      .next ((s.modTh t fun y => { y with
        bw := s.regVal t (.v ((s.th t).wbase + n.toNat + 1)) ++ s.regVal t (.v ((s.th t).wbase + n.toNat)), bc := 0 }).retire t
          (extLen x)) :=
  congrArg Host.Outcome.next (runPlain_lone hl (by rw [opCheck_given ho, windowWait_free hf]; rfl))

section
variable {s : State} {t : Nat} {x : Option Ext} {d n : BitVec 6}

theorem exec_bsget (hl : Lone s t x) (hf : windowBusy s t = false) (ho : Given s t [.v d] [] [.v ((s.th t).wbase + d.toNat)])
    (h : (s.th t).bc.toNat + n.toNat ≤ 64) :
    exec (.bsget x (.v d) n) s =
      .next (((s.modTh t fun y => { y with bc := y.bc + n }).fillReg t (.v ((s.th t).wbase + d.toNat))
        (BitVec.ofNat 32 ((s.th t).bw.toNat / 2 ^ (s.th t).bc.toNat % 2 ^ n.toNat)) .raw).retire t (extLen x)) := by
  refine congrArg Host.Outcome.next ((runPlain_lone hl ?_).trans ?_)
  · have hpast : ¬ 64 < (s.th t).bc.toNat + n.toNat := by omega
    simp [hf, hpast, opFault_given ho, opWait_given ho, windowWait_free hf, pushWait, chanCheck_nil, Check.ok_andThen]
  · simp [orWait, State.writeDst, outW]

/-- Past the window's end: the illegal-operand trap, with detail 0x104. -/
theorem exec_bsget_past (hl : Lone s t x) (hf : windowBusy s t = false) (ho : Given s t [.v d] [] [.v ((s.th t).wbase + d.toNat)])
    (h : 64 < (s.th t).bc.toNat + n.toNat) :
    exec (.bsget x (.v d) n) s = .next (s.faultTrap t 2 0x104 (pcAddr (s.th t).pc)) := by
  refine congrArg Host.Outcome.next (runLanes_lone_trap hl ?_)
  simp [hf, h, opFault_given ho, trapHere, Check.andThen]

end

theorem exec_bsrf {s : State} {t : Nat} {w : RF} (eb : Bool) {d : BitVec 6} {a : Word} (hl : Lone s t w.x) (hn : w.n = false)
    (hd : w.d = .v d) (hp : (s.th t).popped = []) (hf : windowBusy s t = false)
    (ho : Given s t [w.d, w.a] [src w.a w.ea] [.v ((s.th t).wbase + d.toNat)])
    (hw : allSlots s t (s.th t).tickets [src w.a w.ea] = [.val a]) :
    exec (.bsrf w eb) s = .next ((if 32 ≤ (s.th t).bc.toNat then
        (s.modTh t fun x => { x with bw := a ++ x.bw.extractLsb' 32 32, bc := x.bc - 32 }).fillReg t
          (.v ((s.th t).wbase + d.toNat)) 4 .raw
      else s.fillReg t (.v ((s.th t).wbase + d.toNat)) 0 .raw).retire t (extLen w.x)) := by
  have hj : JobGiven { x := w.x, n := w.n, d := w.d, srcs := [src w.a w.ea], res := .refill } s t [a] :=
    ⟨hn, by simp only [Job.dst, hd, regsOf_v_one]; rw [hd] at ho; exact ho, hw,
      destRoom_of_not_queue (fun n h => nomatch hd.symm.trans h), hp, rfl, windowWait_free hf⟩
  have hfin : Job.finish { x := w.x, n := w.n, d := w.d, srcs := [src w.a w.ea], res := .refill } s t [a] =
      if 32 ≤ (s.th t).bc.toNat then
        (s.modTh t fun x => { x with bw := a ++ x.bw.extractLsb' 32 32, bc := x.bc - 32 }).fillReg t
          (.v ((s.th t).wbase + d.toNat)) 4 .raw
      else s.fillReg t (.v ((s.th t).wbase + d.toNat)) 0 .raw := by
    simp [Job.finish, Job.dst, hd, State.writeDst, outW]
  rw [← hfin]
  refine runJob_lone_no_pops hl hj ?_
  rw [hfin]
  split
  · rw [← State.fillRegs_one, fillRegs_popped]
    refine Eq.trans (modTh_pop _ _ _ ?_) hp
    exact fun _ => rfl
  · rw [← State.fillRegs_one, fillRegs_popped, hp]

theorem bitStream : Claims.BitStream :=
  ⟨fun _ _ _ _ k ea eb nb hl hf ho => exec_bsld k ea eb nb hl hf ho,
    fun _ _ _ _ _ hl hf ho => ⟨exec_bsget hl hf ho, exec_bsget_past hl hf ho⟩,
    fun _ _ _ eb _ _ hl hn hd hp hf ho hw => exec_bsrf eb hl hn hd hp hf ho hw⟩

/-- Settles O3: a comparison is a job that writes a predicate; the bit-stream instructions act on the window of the lane. -/
theorem comparisonsAndBitStream : Obligations.ComparisonsAndBitStream := ⟨comparisonsWritePredicates, bitStream⟩

end Sys2Proof.Machine
end

section
/-! PROOF. Two lanes of one bundle (O7). A lane that waits for its pops is not checked for traps again, which refutes the statement on a
trap of one lane: it leaves open that the lane's pops are on their way. -/

namespace Sys2Proof.Machine

/-- Two lanes of a bundle: the first is no cell and still awaits a pop, the second is a cell. -/
def awaitingPop : State :=
  (Tests.two.modTh 0 fun x => { x with popped := [(0, none)] }).modTh 1 fun x => { x with cell := some 0 }

/-- `add z, cx, z`, whose source the first lane does not have. -/
def addCx : R3 := ⟨none, .z, .cx, .z, false, false, false, false⟩

/-- The first lane does not trap: it goes on waiting for its pop, and the second lane executes. -/
theorem exec_addCx_awaitingPop : ∃ u, exec (.add addCx) awaitingPop = .next u ∧ (u.th 1).pc = (awaitingPop.th 1).pc + 4 :=
  ⟨_, rfl, by decide⟩

/-- Refutes O7: where the lane whose operand is not available awaits a pop, it goes on waiting, and the other lane executes instead of
staying at its PC. -/
theorem not_lanesOfABundle : ¬ Obligations.LanesOfABundle := by
  intro h
  obtain ⟨-, trapStops, -⟩ := h
  have htrap := trapStops awaitingPop (.add addCx) addCx (fun a b => a + b) 0 1 .cx rfl rfl rfl rfl rfl rfl
    (Tests.given_of (by decide)) (fun n => ⟨nofun, nofun, nofun⟩)
  obtain ⟨u, hu, hpc⟩ := exec_addCx_awaitingPop
  have heq : u = awaitingPop.faultTrap 0 2 Operand.cx.code.toNat (pcAddr (awaitingPop.th 0).pc) := by
    rw [hu] at htrap; exact Host.Outcome.next.inj htrap
  rw [heq] at hpc
  exact absurd hpc (by decide)

end Sys2Proof.Machine
end

section
/-! PROOF. Control transfers and the advance outside loops (O8). -/

namespace Sys2Proof.Machine

section
variable {s : State} {t : Nat} {x : Option Ext}

/-- An instruction that checks nothing acts in a lane that issues alone. -/
theorem runPlain_always {once : Bool} {act : State → Nat → State} (h : Lone s t x) :
    runPlain x once (fun _ _ => .ok) act s = act s t :=
  runPlain_lone h rfl

/-- What `jmpi` checks of operands that are given: the low bits of its target. -/
theorem exec_jmpi {w : RF} (eb : Bool) {d a : BitVec 6} (hl : Lone s t w.x) (hd : w.d = .v d) (ha : w.a = .v a)
    (ho : Given s t [w.d, w.a] [src w.a w.ea] [.v ((s.th t).wbase + d.toNat)]) :
    let tg := s.regVal t (.v ((s.th t).wbase + a.toNat))
    (tg.toNat % 4 = 0 → exec (.jmpi w eb) s =
      .next ((s.fillReg t (.v ((s.th t).wbase + d.toNat)) ((s.th t).pc + 4) .raw).jump t tg (extLen w.x))) ∧
    (tg.toNat % 4 ≠ 0 → exec (.jmpi w eb) s = .next (s.faultTrap t 4 0 (pcAddr tg))) := by
  have hdst : regsOf (s.th t) w.d 1 = [.v ((s.th t).wbase + d.toNat)] := by rw [hd]; rfl
  have htg : ((regOf (s.th t) w.a).map (s.regVal t)).getD 0 = s.regVal t (.v ((s.th t).wbase + a.toNat)) := by rw [ha]; rfl
  refine ⟨fun h => congrArg Host.Outcome.next ((runPlain_lone hl ?_).trans ?_),
    fun h => congrArg Host.Outcome.next (runLanes_lone_trap hl ?_)⟩
  · rw [hdst, opCheck_given ho]; simp only [htg, h, Check.ok_andThen, if_true]
  · simp only [htg, hdst]
    rw [hd]
    simp [State.writeDst, outW, Operand.isS]
  · rw [hdst, opCheck_given ho]; simp only [htg, h, Check.ok_andThen, if_false]

end

theorem controlTransfers : Claims.ControlTransfers := by
  intro s t x off p nz
  refine ⟨fun h => ⟨?_, ?_, ?_, ?_⟩, fun h => ⟨?_, ?_, ?_⟩, fun w eb d a hx h hd ha ho => ?_⟩
  · exact congrArg Host.Outcome.next (runPlain_always h)
  · exact congrArg Host.Outcome.next (runPlain_always h)
  · exact congrArg Host.Outcome.next (runPlain_always h)
  · exact congrArg Host.Outcome.next (runPlain_always h)
  · exact congrArg Host.Outcome.next (runPlain_always h)
  · exact congrArg Host.Outcome.next (runPlain_always h)
  · exact congrArg Host.Outcome.next (runPlain_always h)
  · subst hx; exact exec_jmpi eb h hd ha ho

theorem advanceOutsideLoops : Claims.AdvanceOutsideLoops := by
  intro s t len ht hlive hloops hlen
  have hpc : BitVec.ofNat 32 (len - 4) + 4 = BitVec.ofNat 32 len := by
    apply BitVec.eq_of_toNat_eq; simp; omega
  have hst : (s.th t).status ≠ .exited := by simpa [State.live] using hlive
  rw [State.th_retire, if_pos ⟨rfl, ht⟩]
  unfold Thread.advance
  simp only [hloops, loopEnd, Status.to, if_neg hst, BitVec.add_assoc, hpc]

/-- Settles O8: each transfer is an unconditional act of its lane, `jmpi` after the check of its target. -/
theorem controlFlow : Obligations.ControlFlow := ⟨controlTransfers, advanceOutsideLoops⟩

end Sys2Proof.Machine
end

section
/-! PROOF. The hardware loops (O9): what opens, what goes back, and what the step words add. The words that an L word's examination
fetches leave translations and cache lines behind, and nothing else (`CachesOnly`). -/

namespace Sys2Proof.Machine

/-! ### Translations and cache lines -/

/-- Nothing but TLBs and instruction caches may differ. -/
structure CachesOnly (s u : State) : Prop where
  only : u = { s with dies := u.dies, cores := u.cores }
  die : ∀ d, ∃ tlb, u.die d = { s.die d with tlb := tlb }
  core : ∀ c, ∃ tlb ic, u.co c = { s.co c with tlb := tlb, icache := ic }
  dies : u.dies.length = s.dies.length
  cores : u.cores.length = s.cores.length

namespace CachesOnly

variable {s u v : State}

theorem refl (s : State) : CachesOnly s s := ⟨rfl, fun _ => ⟨_, rfl⟩, fun _ => ⟨_, _, rfl⟩, rfl, rfl⟩

theorem trans (h : CachesOnly s u) (k : CachesOnly u v) : CachesOnly s v := by
  refine ⟨?_, fun d => ?_, fun c => ?_, k.dies.trans h.dies, k.cores.trans h.cores⟩
  · rw [k.only, h.only]
  · obtain ⟨a, ha⟩ := h.die d
    obtain ⟨b, hb⟩ := k.die d
    exact ⟨b, by rw [hb, ha]⟩
  · obtain ⟨a, i, ha⟩ := h.core c
    obtain ⟨b, j, hb⟩ := k.core c
    exact ⟨b, j, by rw [hb, ha]⟩

theorem threads (h : CachesOnly s u) : u.threads = s.threads := by rw [h.only]
theorem warps (h : CachesOnly s u) : u.warps = s.warps := by rw [h.only]
theorem planted (h : CachesOnly s u) : u.planted = s.planted := by rw [h.only]
theorem issuing (h : CachesOnly s u) : u.issuing = s.issuing := by rw [h.only]
theorem th (h : CachesOnly s u) (n : Nat) : u.th n = s.th n := by rw [State.th, State.th, h.threads]
theorem wp (h : CachesOnly s u) (n : Nat) : u.wp n = s.wp n := by rw [State.wp, State.wp, h.warps]
theorem cl (h : CachesOnly s u) (n : Nat) : u.cl n = s.cl n := by rw [h.only]; rfl
theorem la (h : CachesOnly s u) (n : Nat) : u.la n = s.la n := by rw [h.only]; rfl

theorem buf (h : CachesOnly s u) (c : Nat) (sp : Space) : (u.co c).buf sp = (s.co c).buf sp := by
  obtain ⟨a, i, ha⟩ := h.core c
  rw [ha]
  cases sp <;> rfl

theorem mem (h : CachesOnly s u) (d : Nat) : (u.die d).mem = (s.die d).mem := by
  obtain ⟨a, ha⟩ := h.die d
  rw [ha]

theorem sameMemory (h : CachesOnly s u) : SameMemory s u :=
  ⟨fun d a => by rw [h.mem d], fun c sp a => by rw [h.buf c sp]⟩

theorem of_modDie (s : State) (d : Nat) {f : Die → Die} (hf : ∀ x, ∃ tlb, f x = { x with tlb := tlb }) :
    CachesOnly s (s.modDie d f) := by
  refine ⟨rfl, fun k => ?_, fun _ => ⟨_, _, rfl⟩, by simp, rfl⟩
  rw [State.die_modDie]
  split
  · next h => rw [← h.1]; exact hf _
  · exact ⟨_, rfl⟩

theorem of_modCo (s : State) (c : Nat) {f : CoreSt → CoreSt} (hf : ∀ x, ∃ tlb ic, f x = { x with tlb := tlb, icache := ic }) :
    CachesOnly s (s.modCo c f) := by
  refine ⟨rfl, fun _ => ⟨_, rfl⟩, fun k => ?_, rfl, by simp⟩
  rw [State.co_modCo]
  split
  · next h => rw [← h.1]; exact hf _
  · exact ⟨_, _, rfl⟩

theorem lone (h : CachesOnly s u) {t : Nat} {x : Option Ext} (hl : Lone s t x) : Lone u t x :=
  ⟨h.issuing.trans hl.issuing, by rw [h.threads]; exact hl.inRange, by rw [State.live, h.th]; exact hl.live,
    by rw [h.th]; exact hl.guard⟩

theorem regFull (h : CachesOnly s u) (t : Nat) (r : RegRef) : u.regFull t r = s.regFull t r := by
  cases r <;> simp [State.regFull, State.wpOf, h.th, h.wp]

theorem regVal (h : CachesOnly s u) (t : Nat) (r : RegRef) : u.regVal t r = s.regVal t r := by
  cases r <;> simp [State.regVal, State.wpOf, h.th, h.wp]

theorem cellOf (h : CachesOnly s u) (t : Nat) : u.cellOf t = s.cellOf t := by
  simp only [State.cellOf, h.th, show u.cl = s.cl from funext h.cl]

theorem given (h : CachesOnly s u) {t : Nat} {fs : List Operand} {srcs : List SrcF} {dst : List RegRef} (hg : Given s t fs srcs dst) :
    Given u t fs srcs dst := by
  have hbad (o : Operand) : opBad u t o = opBad s t o := by simp only [opBad, h.th, h.cellOf, h.la]
  have hown : ownLred u t = ownLred s t := by simp only [ownLred, h.th, h.cellOf]
  obtain ⟨ha, hf, hs, hq⟩ := hg
  refine ⟨fun o ho => by rw [hbad]; exact ha o ho, fun r hr => ?_, fun r hr => ?_, by rw [h.planted]; exact hq⟩
  · rw [h.regFull]; exact hf r (by simpa only [h.th] using hr)
  · rw [hown]; exact hs r (by simpa only [h.th] using hr)

end CachesOnly

theorem State.tlbFill_caches (s : State) (co : Option Nat) (c : Word) (l va : Nat) (p : Pte) :
    CachesOnly s (s.tlbFill co c l va p) := by
  unfold State.tlbFill
  dsimp only
  split
  · exact (CachesOnly.of_modDie s _ fun _ => ⟨_, rfl⟩).trans (CachesOnly.of_modCo _ _ fun _ => ⟨_, _, rfl⟩)
  · exact CachesOnly.of_modDie s _ fun _ => ⟨_, rfl⟩

theorem State.cacheLine_caches (s : State) (t : Nat) (pc : Word) (h : s.planted = []) : CachesOnly s (s.cacheLine t pc) := by
  unfold State.cacheLine
  dsimp only
  split
  · exact .refl s
  · next p pa _ =>
    rw [State.useXlate_clean _ _ _ _ _ _ h]
    have hf := s.tlbFill_caches (some (s.coreOf t)) (s.co (s.coreOf t)).ctx (s.co (s.coreOf t)).ldie
      (fld ((s.ctxOf t).words.getD 14 0) 0 16 * 2 ^ 32 + pc.toNat) p
    split
    · exact hf
    · rw [State.eccGuard_clean _ _ _ _ _ _ (hf.planted.trans h)]
      exact hf.trans (CachesOnly.of_modCo _ _ fun _ => ⟨_, _, rfl⟩)

theorem State.cacheLines_caches (t : Nat) : ∀ (pcs : List Word) (s : State), s.planted = [] →
    CachesOnly s (pcs.foldl (fun s pc => s.cacheLine t pc) s)
  | [], s, _ => .refl s
  | pc :: pcs, s, h =>
    (s.cacheLine_caches t pc h).trans (State.cacheLines_caches t pcs _ ((s.cacheLine_caches t pc h).planted.trans h))

theorem State.cacheLook_caches (s : State) (first : State → Nat → Word) (lenm1 n : Nat) (h : s.planted = [] ∨ n = 0) :
    CachesOnly s (s.cacheLook first lenm1 n) := by
  unfold State.cacheLook
  split
  · exact .refl s
  · rcases h with h | h
    · exact State.cacheLines_caches _ _ s h
    · subst h; exact .refl s

/-! ### Opening a loop (R102) -/

section
variable {s : State} {t : Nat} (lc : BitVec 2) (lenm1 : BitVec 8) (cnt : BitVec 7) (imm : Bool) (nstep : BitVec 3)

/-- The count of a loop: its immediate, or its register's value. -/
def loopCount (s : State) (t : Nat) : Word := if imm then cnt.zeroExtend 32 else addrReg s t (Operand.ofCode cnt)

/-- The first word of the body. -/
def loopFirst (s : State) (t : Nat) : Word := (s.th t).pc + 4 + BitVec.ofNat 32 (4 * nstep.toNat)

/-- The last word of the body. -/
def loopLast (s : State) (t : Nat) : Word := loopFirst nstep s t + BitVec.ofNat 32 (4 * lenm1.toNat)

/-- What the examination of the step words gives. -/
def loopLook (s : State) (t : Nat) : LoopLook :=
  lookSteps s t (loopFirst nstep s t) lenm1.toNat nstep.toNat ((s.th t).pc + 4) []

/-- The thread after an L word whose steps are good. -/
def loopOpened (n first last : Word) (ks : List LoopStep) : Thread → Thread :=
  if n = 0 then fun x => { x with
    lc := x.lc.modify lc.toNat fun r => { r with n := 0, desc := none }, pc := last + 4, status := x.status.to .ready }
  else fun x => { x with
    lc := x.lc.set lc.toNat ⟨n, some ⟨first, last, ks, 0⟩, (x.lc.map LoopReg.seq).foldl max 0 + 1⟩
    pc := first, status := x.status.to .ready }

/-- The state in which an L word acts: the words that it examined are in the instruction cache. -/
def looked (s : State) : State := s.cacheLook (loopFirst nstep) lenm1.toNat nstep.toNat

variable {lc lenm1 cnt imm nstep}

theorem looked_caches (h : s.planted = [] ∨ nstep = 0) : CachesOnly s (looked lenm1 nstep s) :=
  s.cacheLook_caches _ _ _ (h.imp_right fun h => by rw [h]; rfl)

/-- What the loops that are active and the words that were examined say of an L word. -/
def loopVerdict (lc : BitVec 2) (lenm1 : BitVec 8) (nstep : BitVec 3) (s0 s : State) (t : Nat) : Check :=
  if !loopNests (s.th t) lc.toNat (loopFirst nstep s t) (loopLast lenm1 nstep s t) then trapHere s t 1 0
  else match loopLook lenm1 nstep s0 t with
    | .fault k va => .park k va .fetch []
    | .illegal => trapHere s t 1 0
    | .ok _ => .ok

/-- The check of an L word, in the state in which it acts. -/
def loopCheck (lc : BitVec 2) (lenm1 : BitVec 8) (cnt : BitVec 7) (imm : Bool) (nstep : BitVec 3) (s0 s : State) (t : Nat) : Check :=
  (loopVerdict lc lenm1 nstep s0 s t).andThen (if imm then .ok else opCheck s t [] [src (Operand.ofCode cnt)] [])

theorem Check.andThen_ok (c : Check) : c.andThen .ok = c := by cases c <;> rfl

theorem Check.andThen_of_ne {c : Check} (h : c ≠ .ok) (d : Check) : c.andThen d = c := by
  cases c with
  | ok => exact absurd rfl h
  | _ => rfl

theorem loopVerdict_unnested {s0 : State} (h : loopNests (s.th t) lc.toNat (loopFirst nstep s t) (loopLast lenm1 nstep s t) = false) :
    loopVerdict lc lenm1 nstep s0 s t = trapHere s t 1 0 := by
  rw [loopVerdict, h]; rfl

theorem loopVerdict_nested {s0 : State} (h : loopNests (s.th t) lc.toNat (loopFirst nstep s t) (loopLast lenm1 nstep s t) = true) :
    loopVerdict lc lenm1 nstep s0 s t = match loopLook lenm1 nstep s0 t with
      | .fault k va => .park k va .fetch []
      | .illegal => trapHere s t 1 0
      | .ok _ => .ok := by
  rw [loopVerdict, h]; rfl

theorem loop_live (hl : Lone s t none) (h : s.planted = [] ∨ nstep = 0) :
    (s.issuing.any fun u => !(looked lenm1 nstep s).live u) = false := by
  have := ((looked_caches (lenm1 := lenm1) h).lone hl).live
  simp [hl.issuing, this]

/-- An L word whose check is a trap takes it. -/
theorem exec_loop_trap (hl : Lone s t none) (h : s.planted = [] ∨ nstep = 0) {c d : Nat} {a : BitVec 64}
    (hc : loopCheck lc lenm1 cnt imm nstep s (looked lenm1 nstep s) t = .trap c d a) :
    exec (.loop lc lenm1 cnt imm nstep) s = .next ((looked lenm1 nstep s).faultTrap t c d a) := by
  refine congrArg Host.Outcome.next ?_
  show (if (s.issuing.any fun u => !(looked lenm1 nstep s).live u) then _ else _) = _
  rw [if_neg (by rw [loop_live hl h]; simp)]
  exact runLanes_lone_trap ((looked_caches h).lone hl) hc

theorem exec_loop_park (hl : Lone s t none) (h : s.planted = [] ∨ nstep = 0) {k : BitVec 4} {va : Nat}
    (hc : loopCheck lc lenm1 cnt imm nstep s (looked lenm1 nstep s) t = .park k va .fetch []) :
    exec (.loop lc lenm1 cnt imm nstep) s =
      .next ((looked lenm1 nstep s).parkOwing t ((looked lenm1 nstep s).faultRec t va k .fetch) []) := by
  refine congrArg Host.Outcome.next ?_
  show (if (s.issuing.any fun u => !(looked lenm1 nstep s).live u) then _ else _) = _
  rw [if_neg (by rw [loop_live hl h]; simp)]
  refine (runLanes_lone_step ((looked_caches h).lone hl) ?_).trans ?_
  · exact fun _ _ _ he => nomatch hc.symm.trans he
  · exact congrArg (fun c => laneStep c _ _ _ t) hc

theorem exec_loop_ok (hl : Lone s t none) (h : s.planted = [] ∨ nstep = 0) {ks : List LoopStep}
    (hk : loopLook lenm1 nstep s t = .ok ks) (hc : loopCheck lc lenm1 cnt imm nstep s (looked lenm1 nstep s) t = .ok) :
    exec (.loop lc lenm1 cnt imm nstep) s = .next ((looked lenm1 nstep s).modTh t
      (loopOpened lc (loopCount cnt imm s t) (loopFirst nstep s t) (loopLast lenm1 nstep s t) ks)) := by
  have hcs := looked_caches (lenm1 := lenm1) h
  refine congrArg Host.Outcome.next ?_
  show (if (s.issuing.any fun u => !(looked lenm1 nstep s).live u) then _ else _) = _
  rw [if_neg (by rw [loop_live hl h]; simp)]
  refine (runPlain_lone (hcs.lone hl) hc).trans ?_
  have hn : loopCount cnt imm (looked lenm1 nstep s) t = loopCount cnt imm s t := by
    simp only [loopCount, addrReg, hcs.th, show (looked lenm1 nstep s).regVal t = s.regVal t from funext (hcs.regVal t)]
  have hf : loopFirst nstep (looked lenm1 nstep s) t = loopFirst nstep s t := by simp only [loopFirst, hcs.th]
  have hla : loopLast lenm1 nstep (looked lenm1 nstep s) t = loopLast lenm1 nstep s t := by simp only [loopLast, hf]
  have hks : (match loopLook lenm1 nstep s t with | .ok st => st | _ => []) = ks := by rw [hk]
  rw [← hn, ← hf, ← hla, ← hks]
  show (if loopCount cnt imm (looked lenm1 nstep s) t = 0 then _ else _) = _
  unfold loopOpened
  split
  · rfl
  · rfl

/-- What the examination leaves in the caches changes no verdict. -/
theorem loopVerdict_looked (h : s.planted = [] ∨ nstep = 0) :
    loopVerdict lc lenm1 nstep s (looked lenm1 nstep s) t = loopVerdict lc lenm1 nstep s s t := by
  simp only [loopVerdict, loopFirst, loopLast, trapHere, (looked_caches (lenm1 := lenm1) h).th]
  congr

/-- With its count's register given, the verdict is the check. -/
theorem loopCheck_given (h : s.planted = [] ∨ nstep = 0) (ho : imm = false → Given s t [] [src (Operand.ofCode cnt)] []) :
    loopCheck lc lenm1 cnt imm nstep s (looked lenm1 nstep s) t = loopVerdict lc lenm1 nstep s s t := by
  have hi : (if imm then Check.ok else opCheck (looked lenm1 nstep s) t [] [src (Operand.ofCode cnt)] []) = .ok := by
    cases himm : imm with
    | true => rfl
    | false => exact opCheck_given ((looked_caches h).given (ho himm))
  rw [loopCheck, hi, Check.andThen_ok, loopVerdict_looked h]

/-- A verdict against the word comes before the count's register is looked at. -/
theorem loopCheck_early (h : s.planted = [] ∨ nstep = 0) (hv : loopVerdict lc lenm1 nstep s s t ≠ .ok) :
    loopCheck lc lenm1 cnt imm nstep s (looked lenm1 nstep s) t = loopVerdict lc lenm1 nstep s s t := by
  rw [loopCheck, loopVerdict_looked h, Check.andThen_of_ne hv]

/-- What an opened loop leaves of its thread, and of the counter. -/
theorem loopOpened_spec (n first last : Word) (ks : List LoopStep) (x : Thread) (hlc : lc.toNat < x.lc.length) :
    (loopOpened lc n first last ks x).v = x.v ∧
    (n = 0 → (loopOpened lc n first last ks x).pc = last + 4 ∧
      ∃ r, (loopOpened lc n first last ks x).lc[lc.toNat]? = some r ∧ r.n = 0 ∧ r.desc = none) ∧
    (n ≠ 0 → (loopOpened lc n first last ks x).pc = first ∧
      ∃ r, (loopOpened lc n first last ks x).lc[lc.toNat]? = some r ∧ r.n = n ∧ r.desc = some ⟨first, last, ks, 0⟩) := by
  by_cases hn : n = 0
  · subst hn
    have e : loopOpened lc 0 first last ks = fun x => { x with
      lc := x.lc.modify lc.toNat fun r => { r with n := 0, desc := none }, pc := last + 4, status := x.status.to .ready } := if_pos rfl
    rw [e]
    refine ⟨rfl, fun _ => ⟨rfl, { x.lc[lc.toNat] with n := 0, desc := none }, ?_, rfl, rfl⟩, fun h => absurd rfl h⟩
    simp [hlc]
  · have e : loopOpened lc n first last ks = fun x => { x with
      lc := x.lc.set lc.toNat ⟨n, some ⟨first, last, ks, 0⟩, (x.lc.map LoopReg.seq).foldl max 0 + 1⟩
      pc := first, status := x.status.to .ready } := if_neg hn
    rw [e]
    refine ⟨rfl, fun h => absurd h hn, fun _ => ⟨rfl, ⟨n, some ⟨first, last, ks, 0⟩, (x.lc.map LoopReg.seq).foldl max 0 + 1⟩, ?_, rfl, rfl⟩⟩
    simp [hlc]

theorem looked_zero (hl : Lone s t none) : looked lenm1 0 s = s := by
  unfold looked State.cacheLook
  rw [hl.issuing]
  rfl

end

theorem loopOpens : Claims.LoopOpens := by
  intro s t lc lenm1 cnt imm hl hlc o ho n first last hnest
  have hf : loopFirst 0 s t = first := BitVec.add_zero _
  have hla : loopLast lenm1 0 s t = last := by rw [loopLast, hf]
  have hcheck : loopCheck lc lenm1 cnt imm 0 s (looked lenm1 0 s) t = .ok := by
    rw [loopCheck_given (.inr rfl) ho, loopVerdict_nested (by rw [hf, hla]; exact hnest)]; rfl
  have hex := exec_loop_ok (ks := []) hl (.inr rfl) rfl hcheck
  rw [looked_zero hl, hf, hla] at hex
  obtain ⟨hv, h0, h1⟩ := loopOpened_spec (loopCount cnt imm s t) first last [] (s.th t) hlc
  refine ⟨_, hex, fun hn => ?_, fun hn => ?_, fun k hk => ?_, ?_, rfl, rfl, rfl⟩
  · rw [State.th_modTh_self _ _ _ hl.inRange]; exact h0 hn
  · rw [State.th_modTh_self _ _ _ hl.inRange]; exact h1 hn
  · rw [State.th_modTh, if_neg fun h => hk h.1]
  · rw [State.th_modTh_self _ _ _ hl.inRange]; exact hv

/-! ### Step words (R34) -/

/-- The step at the head of those that are still to be read. -/
theorem lookSteps_step {s : State} {t : Nat} {first : Word} {lenm1 n : Nat} {pc : Word} {acc : List LoopStep} {w : Word} {p : Pte}
    {l : LStep} {b : Word} {q : Pte} (hw : s.fetchWord t pc = .ok (w, p)) (hl : decodeLStep w = .ok l) (hi : l.idx.toNat ≤ lenm1)
    (hb : s.fetchWord t (first + BitVec.ofNat 32 (4 * l.idx.toNat)) = .ok (b, q)) (hf : hasField b l.fld = true) :
    lookSteps s t first lenm1 (n + 1) pc acc =
      lookSteps s t first lenm1 n (pc + 4) (⟨l.idx.toNat, l.fld, l.inc⟩ :: acc) := by
  simp only [lookSteps, hw, hl, hb, hf, if_neg (Nat.not_lt.mpr hi), if_true]

/-- Steps that stand in memory are passed over, and kept. -/
theorem lookSteps_append {s : State} {t : Nat} {first : Word} {lenm1 : Nat} : ∀ (ks : List LoopStep) (n : Nat) (pc : Word)
    (acc : List LoopStep),
    (∀ j k, ks[j]? = some k → ∃ w p b q l, s.fetchWord t (pc + BitVec.ofNat 32 (4 * j)) = .ok (w, p) ∧ decodeLStep w = .ok l ∧
      k = ⟨l.idx.toNat, l.fld, l.inc⟩ ∧ l.idx.toNat ≤ lenm1 ∧
      s.fetchWord t (first + BitVec.ofNat 32 (4 * l.idx.toNat)) = .ok (b, q) ∧ hasField b l.fld = true) →
    lookSteps s t first lenm1 (ks.length + n) pc acc =
      lookSteps s t first lenm1 n (pc + BitVec.ofNat 32 (4 * ks.length)) (ks.reverse ++ acc)
  | [], n, pc, acc, _ => by simp
  | k :: ks, n, pc, acc, h => by
    obtain ⟨w, p, b, q, l, hw, hl, hk, hi, hb, hf⟩ := h 0 k rfl
    have hw' : s.fetchWord t pc = .ok (w, p) := by simpa using hw
    have hnext (j : Nat) : pc + 4 + BitVec.ofNat 32 (4 * j) = pc + BitVec.ofNat 32 (4 * (j + 1)) := by
      rw [BitVec.add_assoc]
      congr 1
      apply BitVec.eq_of_toNat_eq
      simp
      omega
    rw [List.length_cons, Nat.add_right_comm, lookSteps_step hw' hl hi hb hf, ← hk,
      lookSteps_append ks n (pc + 4) (k :: acc) fun j k' hj => ?_, hnext]
    · simp
    · rw [hnext]; exact h (j + 1) k' hj

theorem loopNests_false {th : Thread} {lc c : Nat} {first last : Word} {r : LoopReg} {d : LoopDesc} (hc : c ≠ lc)
    (hr : th.lc[c]? = some r) (hd : r.desc = some d) (h : ¬(d.first.toNat ≤ first.toNat ∧ last.toNat ≤ d.last.toNat)) :
    loopNests th lc first last = false := by
  unfold loopNests
  rw [List.all_eq_false]
  obtain ⟨hlt, hget⟩ := List.getElem?_eq_some_iff.mp hr
  refine ⟨(c, r), List.mem_iff_getElem?.mpr ⟨c, ?_⟩, ?_⟩
  · simp [hlt, hget]
  · simpa [hc, hd] using h

theorem loopSteps : Claims.LoopSteps := by
  intro s t lc lenm1 cnt imm nstep hl hlc hp o n first last stepAt bodyAt run illegal
  have hcs := looked_caches (s := s) (lenm1 := lenm1) (nstep := nstep) (.inl hp)
  have hillegal (hno : loopNests (s.th t) lc.toNat first last = false ∨ loopLook lenm1 nstep s t = .illegal) : illegal := by
    have hv : loopVerdict lc lenm1 nstep s s t = trapHere s t 1 0 := by
      cases hn : loopNests (s.th t) lc.toNat (loopFirst nstep s t) (loopLast lenm1 nstep s t) with
      | false => exact loopVerdict_unnested hn
      | true =>
        rw [loopVerdict_nested hn]
        rcases hno with hno | hno
        · exact nomatch hn.symm.trans hno
        · rw [hno]
    have hc : loopCheck lc lenm1 cnt imm nstep s (looked lenm1 nstep s) t = trapHere s t 1 0 := by
      rw [loopCheck_early (.inl hp) (by rw [hv]; exact nofun), hv]
    exact ⟨_, exec_loop_trap hl (.inl hp) hc, hcs.threads, hcs.sameMemory⟩
  refine ⟨fun ⟨c, r, d, hc, hr, hd, h⟩ => hillegal (.inl (loopNests_false hc hr hd h)), fun hnest ks hks => ?_⟩
  have hlook (m : Nat) (hm : nstep.toNat = ks.length + m) : loopLook lenm1 nstep s t =
      lookSteps s t first lenm1.toNat m ((s.th t).pc + 4 + BitVec.ofNat 32 (4 * ks.length)) (ks.reverse ++ []) := by
    rw [loopLook, hm]; exact lookSteps_append ks m _ [] hks
  refine ⟨fun hlen ho => ?_, fun hlt => ?_⟩
  · have hok : loopLook lenm1 nstep s t = .ok ks := by rw [hlook 0 hlen.symm]; simp [lookSteps]
    have hcheck : loopCheck lc lenm1 cnt imm nstep s (looked lenm1 nstep s) t = .ok := by
      rw [loopCheck_given (.inl hp) ho, loopVerdict_nested hnest, hok]
    obtain ⟨hv, h0, h1⟩ := loopOpened_spec n first last ks (s.th t) hlc
    have ht : t < (looked lenm1 nstep s).threads.length := by rw [hcs.threads]; exact hl.inRange
    have hself : ((looked lenm1 nstep s).modTh t (loopOpened lc n first last ks)).th t = loopOpened lc n first last ks (s.th t) := by
      rw [State.th_modTh_self _ _ _ ht, hcs.th]
    refine ⟨_, exec_loop_ok hl (.inl hp) hok hcheck, fun k hk => ?_, ?_, hcs.sameMemory, fun hn => ?_, fun hn => ?_⟩
    · rw [State.th_modTh, if_neg fun h => hk h.1, hcs.th]
    · exact (congrArg Thread.v hself).trans hv
    · obtain ⟨hpc, r, hr, hr0, -⟩ := h0 hn
      exact ⟨(congrArg Thread.pc hself).trans hpc, r, (congrArg (fun x : Thread => x.lc[lc.toNat]?) hself).trans hr, hr0⟩
    · obtain ⟨hpc, r, hr, hr0⟩ := h1 hn
      exact ⟨(congrArg Thread.pc hself).trans hpc, r, (congrArg (fun x : Thread => x.lc[lc.toNat]?) hself).trans hr, hr0⟩
  · obtain ⟨m, hm⟩ : ∃ m, nstep.toNat = ks.length + (m + 1) := ⟨nstep.toNat - ks.length - 1, by omega⟩
    dsimp only [stepAt, bodyAt]
    refine ⟨fun k va he => ?_, fun w p he hbad => hillegal (.inr ?_), fun w p l he hdl =>
      ⟨fun hi => hillegal (.inr ?_), fun hi b q hb hf => hillegal (.inr ?_)⟩⟩
    · have hfault : loopLook lenm1 nstep s t = .fault k va := by rw [hlook _ hm]; simp only [lookSteps]; rw [he]
      have hc : loopCheck lc lenm1 cnt imm nstep s (looked lenm1 nstep s) t = .park k va .fetch [] := by
        have hv : loopVerdict lc lenm1 nstep s s t = .park k va .fetch [] := by rw [loopVerdict_nested hnest, hfault]
        rw [loopCheck_early (.inl hp) (by rw [hv]; exact nofun), hv]
      exact ⟨_, exec_loop_park hl (.inl hp) hc, hcs.threads, hcs.sameMemory⟩
    · rw [hlook _ hm]
      simp only [lookSteps]
      rw [he]
      dsimp only
      cases hd : decodeLStep w with
      | ok l => exact absurd hd (hbad l)
      | error e => rfl
    · rw [hlook _ hm]
      simp only [lookSteps]
      rw [he]
      simp only [hdl, if_pos hi]
    · rw [hlook _ hm]
      simp only [lookSteps]
      rw [he]
      simp only [hdl, if_neg (Nat.not_lt.mpr hi)]
      rw [hb]
      simp [hf]

theorem loopBackEdge : Claims.LoopBackEdge := by
  intro lw i r d rest lc hd
  refine ⟨fun h => ?_, fun h => ?_, rfl⟩
  · simp only [loopEnd, hd, if_pos h]
  · simp only [loopEnd, hd, if_neg (Nat.not_lt.mpr h)]

/-! ### Stepped words (R104) -/

/-- A fold in which one place of the list acts, and every other leaves the value alone. -/
theorem foldl_single {α β : Type} {f : β → α → β} : ∀ {l : List α} {c : Nat} {a : α} (b : β), l[c]? = some a →
    (∀ c' a', c' ≠ c → l[c']? = some a' → ∀ b, f b a' = b) → l.foldl f b = f b a
  | [], _, _, _, h, _ => by simp at h
  | x :: l, 0, a, b, h, hid => by
    obtain rfl : x = a := by simpa using h
    have hrest : ∀ (l' : List α) (b : β), (∀ a' ∈ l', ∀ b, f b a' = b) → l'.foldl f b = b := by
      intro l'
      induction l' with
      | nil => exact fun _ _ => rfl
      | cons y l' ih => intro b h; rw [List.foldl_cons, h y List.mem_cons_self]; exact ih b fun a' h' => h a' (List.mem_cons_of_mem _ h')
    refine hrest l (f b x) fun a' ha' => ?_
    obtain ⟨j, hj⟩ := List.mem_iff_getElem?.mp ha'
    exact hid (j + 1) a' (Nat.succ_ne_zero j) hj
  | x :: l, c + 1, a, b, h, hid => by
    rw [List.foldl_cons, hid 0 x (Nat.succ_ne_zero c).symm rfl]
    exact foldl_single b h fun c' a' hc ha => hid (c' + 1) a' (fun e => hc (Nat.succ.inj e)) ha

/-- With one active loop of one step, the step acts at the word it names. -/
theorem stepped_one {th : Thread} {c : Nat} {r : LoopReg} {d : LoopDesc} {k : LoopStep} (addr : Word) (i : Option Word × Word)
    (hr : th.lc[c]? = some r) (hd : r.desc = some d) (hone : ∀ c' r', c' ≠ c → th.lc[c']? = some r' → r'.desc = none)
    (hk : d.steps = [k]) :
    stepped th addr i = if d.first + BitVec.ofNat 32 (4 * k.idx) = addr then addStep i k.fld (d.i * k.inc.toInt) else i := by
  unfold stepped
  rw [foldl_single i hr fun c' r' hc hr' b => by rw [hone c' r' hc hr']]
  simp only [hd, hk, List.foldl_cons, List.foldl_nil]

/-- A field of n bits at lo is replaced: the field is the new value, and the bits below and above it stay. -/
theorem replaceField {w lo n g : Nat} (hg : g < 2 ^ n) :
    let v := w - w / 2 ^ lo % 2 ^ n * 2 ^ lo + g * 2 ^ lo
    v / 2 ^ lo % 2 ^ n = g ∧ v % 2 ^ lo = w % 2 ^ lo ∧ v / 2 ^ (lo + n) = w / 2 ^ (lo + n) := by
  have hA : 0 < 2 ^ lo := Nat.two_pow_pos lo
  have hB : 0 < 2 ^ n := Nat.two_pow_pos n
  have hw : w = (w / 2 ^ lo / 2 ^ n * 2 ^ n + w / 2 ^ lo % 2 ^ n) * 2 ^ lo + w % 2 ^ lo := by
    rw [Nat.div_add_mod' (w / 2 ^ lo) (2 ^ n), Nat.div_add_mod']
  have hr : w % 2 ^ lo < 2 ^ lo := Nat.mod_lt _ hA
  have hdiv : w / 2 ^ (lo + n) = w / 2 ^ lo / 2 ^ n := by rw [Nat.pow_add, Nat.div_div_eq_div_mul]
  generalize w / 2 ^ lo / 2 ^ n = q at hw hdiv
  generalize w / 2 ^ lo % 2 ^ n = f at hw
  generalize w % 2 ^ lo = r at hw hr
  intro v
  have hv : v = (q * 2 ^ n + g) * 2 ^ lo + r := by
    show w - f * 2 ^ lo + g * 2 ^ lo = _
    rw [hw, Nat.add_mul, Nat.add_mul]
    omega
  have hvd : v / 2 ^ lo = q * 2 ^ n + g := by
    rw [hv, Nat.add_comm, Nat.add_mul_div_right _ _ hA, Nat.div_eq_of_lt hr, Nat.zero_add]
  refine ⟨?_, ?_, ?_⟩
  · rw [hvd, Nat.add_comm, Nat.add_mul_mod_self_right, Nat.mod_eq_of_lt hg]
  · rw [hv, Nat.add_comm, Nat.add_mul_mod_self_right, Nat.mod_eq_of_lt hr]
  · rw [hdiv, Nat.pow_add, ← Nat.div_div_eq_div_mul, hvd, Nat.add_comm, Nat.add_mul_div_right _ _ hB, Nat.div_eq_of_lt hg,
      Nat.zero_add]

/-- The word with such a field. -/
def withField (w : Word) (lo n g : Nat) : Word := BitVec.ofNat 32 (w.toNat - fld w lo n * 2 ^ lo + g * 2 ^ lo)

theorem withField_toNat (w : Word) {lo n g : Nat} (hn : lo + n ≤ 32) (hg : g < 2 ^ n) :
    (withField w lo n g).toNat = w.toNat - fld w lo n * 2 ^ lo + g * 2 ^ lo := by
  obtain ⟨-, -, h⟩ := replaceField (w := w.toNat) (lo := lo) hg
  rw [withField, BitVec.toNat_ofNat, Nat.mod_eq_of_lt]
  have h1 : w.toNat / 2 ^ (lo + n) < 2 ^ (32 - (lo + n)) := by
    rw [Nat.div_lt_iff_lt_mul (Nat.two_pow_pos _), ← Nat.pow_add]
    exact Nat.lt_of_lt_of_eq w.isLt (by congr 1; omega)
  rw [← h, Nat.div_lt_iff_lt_mul (Nat.two_pow_pos _), ← Nat.pow_add] at h1
  exact Nat.lt_of_lt_of_eq h1 (by congr 1; omega)

theorem withField_spec (w : Word) {lo n g : Nat} (hn : lo + n ≤ 32) (hg : g < 2 ^ n) :
    fld (withField w lo n g) lo n = g ∧
    ∀ b, b < 32 → b < lo ∨ lo + n ≤ b → (withField w lo n g).getLsbD b = w.getLsbD b := by
  obtain ⟨hf, hlow, hhigh⟩ := replaceField (w := w.toNat) (lo := lo) hg
  have hv := withField_toNat w hn hg
  refine ⟨by rw [fld, hv]; exact hf, fun b _ hb => ?_⟩
  show (withField w lo n g).toNat.testBit b = w.toNat.testBit b
  rw [hv]
  rcases hb with hb | hb
  · have e := congrArg (fun x => Nat.testBit x b) hlow
    simp only [Nat.testBit_mod_two_pow, hb, decide_true, Bool.true_and] at e
    exact e
  · have e := congrArg (fun x => Nat.testBit x (b - (lo + n))) hhigh
    rw [Nat.testBit_div_two_pow, Nat.testBit_div_two_pow, Nat.sub_add_cancel hb] at e
    exact e

theorem emod_two_pow_lt (z : Int) (n : Nat) : (z % (2 ^ n : Nat)).toNat < 2 ^ n := by
  have h1 := Int.emod_lt_of_pos z (show (0 : Int) < (2 ^ n : Nat) by exact_mod_cast Nat.two_pow_pos n)
  have h2 := Int.emod_nonneg z (show ((2 ^ n : Nat) : Int) ≠ 0 by exact_mod_cast (Nat.two_pow_pos n).ne')
  omega

/-- The bits of a step's field: where they stand, and how many they are. -/
def stepPlace (w : Word) (f : BitVec 2) : Nat × Nat :=
  match f.toNat with | 0 => (18, 7) | 1 => (11, 7) | 2 => (4, 7) | _ => (0, immBits w)

theorem immBits_le (w : Word) : immBits w ≤ 11 := by
  unfold immBits; split <;> omega

theorem stepPlace_le (w : Word) (f : BitVec 2) : (stepPlace w f).1 + (stepPlace w f).2 ≤ 32 := by
  have := immBits_le w
  unfold stepPlace
  split
  · decide
  · decide
  · decide
  · exact (Nat.zero_add _).trans_le (this.trans (by decide))

theorem addField_eq (w : Word) (lo n : Nat) (k : Int) :
    addField w lo n k = withField w lo n (((fld w lo n : Int) + k) % (2 ^ n : Nat)).toNat := rfl

/-- A step that names a field of the word itself. -/
theorem addStep_plain (x : Option Word) (w : Word) (f : BitVec 2) (k : Int) (h : x = none ∨ f ≠ 3) :
    addStep (x, w) f k = (x, addField w (stepPlace w f).1 (stepPlace w f).2 k) := by
  have hf := f.isLt
  have h3 : f.toNat = 3 → x = none := fun e => h.resolve_right fun hne => hne (BitVec.eq_of_toNat_eq e)
  unfold addStep stepPlace
  generalize f.toNat = m at hf h3
  match m, hf, h3 with
  | 0, _, _ => rfl
  | 1, _, _ => rfl
  | 2, _, _ => rfl
  | 3, _, h3 => rw [h3 rfl]; rfl

/-- A step on the immediate of a prefixed word. -/
theorem addStep_prefixed (x w : Word) (k : Int) :
    let n := immBits w
    let v := (((fld x 0 13 * 2 ^ n + fld w 0 n : Nat) + k) % (2 ^ (13 + n) : Nat)).toNat
    addStep (some x, w) 3 k = (some (withField x 0 13 (v / 2 ^ n)), withField w 0 n (v % 2 ^ n)) := by
  simp only [withField, Nat.pow_zero, Nat.mul_one]
  rfl

theorem steppedWords : Claims.SteppedWords := by
  intro th c r d k w hr hd hone hk at_ low place sum moved
  have hlow : immBits w = low := by
    show immBits w = if _ then 8 else 11
    unfold immBits
    congr 1
    simp
  have hplace : stepPlace w k.fld = place := by rw [stepPlace, hlow] <;> rfl
  have hstep (x : Option Word) (addr : Word) := stepped_one addr (x, w) hr hd hone hk
  have hmoved : moved (addField w place.1 place.2 (d.i * k.inc.toInt)) := by
    rw [addField_eq]
    exact withField_spec w (hplace ▸ stepPlace_le w k.fld) (emod_two_pow_lt _ _)
  refine ⟨fun hne => ?_, fun he => ⟨_, ?_, hmoved⟩, fun x => ⟨fun hne => ?_, fun he h3 => ⟨_, ?_, hmoved⟩, fun he h3 => ?_⟩⟩
  · exact (hstep none th.pc).trans (if_neg hne)
  · rw [← hplace]
    exact ((hstep none th.pc).trans (if_pos he)).trans (addStep_plain none w k.fld _ (.inl rfl))
  · exact (hstep (some x) (th.pc + 4)).trans (if_neg hne)
  · rw [← hplace]
    exact ((hstep (some x) (th.pc + 4)).trans (if_pos he)).trans (addStep_plain (some x) w k.fld _ (.inr h3))
  · have hadd := addStep_prefixed x w (d.i * k.inc.toInt)
    rw [hlow] at hadd
    dsimp only at hadd
    have hsum := emod_two_pow_lt ((fld x 0 13 * 2 ^ low + fld w 0 low : Nat) + d.i * k.inc.toInt) (13 + low)
    generalize hv : (((fld x 0 13 * 2 ^ low + fld w 0 low : Nat) + d.i * k.inc.toInt) % (2 ^ (13 + low) : Nat)).toNat = v
      at hadd hsum
    have hhi : v / 2 ^ low < 2 ^ 13 := by
      rw [Nat.div_lt_iff_lt_mul (Nat.two_pow_pos low), ← Nat.pow_add]; exact hsum
    have hlo : v % 2 ^ low < 2 ^ low := Nat.mod_lt _ (Nat.two_pow_pos low)
    have hle : low ≤ 11 := hlow ▸ immBits_le w
    obtain ⟨hy, hyb⟩ := withField_spec x (lo := 0) (n := 13) (by decide) hhi
    obtain ⟨hw, hwb⟩ := withField_spec w (lo := 0) (n := low) (by omega) hlo
    refine ⟨_, _, ((hstep (some x) (th.pc + 4)).trans (if_pos he)).trans (by rw [h3]; exact hadd), ?_, fun b h13 hb => ?_,
      fun b hl hb => ?_⟩
    · rw [hy, hw, Nat.div_add_mod']; exact hv.symm
    · exact hyb b hb (.inr (by omega))
    · exact hwb b hb (.inr (by omega))

/-- Settles O9: the L word is examined before it acts (`loopVerdict`), and a step replaces one field of the word it names
(`withField_spec`). -/
theorem hardwareLoops : Obligations.HardwareLoops := ⟨loopOpens, loopSteps, loopBackEdge, steppedWords⟩

end Sys2Proof.Machine
end

section
/-! PROOF. `exit`, the software traps and the window base (O10), the lane masks (O11), and the releases of masks and meeting places
(O12). -/

namespace Sys2Proof.Machine

/-! ### Exit (R86) -/

theorem foldl_keeps {α : Type} {P : State → State → Prop} (refl : ∀ s, P s s) (trans : ∀ s u v, P s u → P u v → P s v)
    {f : State → α → State} (hf : ∀ s a, P s (f s a)) : ∀ (l : List α) (s : State), P s (l.foldl f s)
  | [], s => refl s
  | a :: l, s => trans _ _ _ (hf s a) (foldl_keeps refl trans hf l (f s a))

/-- Nothing but the routes and the sequence number may differ. -/
def RoutesOnly (s u : State) : Prop := u = { s with routes := u.routes, seq := u.seq }

theorem RoutesOnly.trans (s u v : State) (h : RoutesOnly s u) (k : RoutesOnly u v) : RoutesOnly s v := by
  unfold RoutesOnly at h k ⊢
  rw [k, h]

theorem State.faceRoute_only (s : State) (core rank : Nat) (b : RouteBody) : RoutesOnly s (s.faceRoute core rank b) := rfl

theorem sendFaces_only (s : State) (c : Cell) (leaf : Option (LredOp × List Word)) (r : Bool) :
    RoutesOnly s (sendFaces s c leaf r) :=
  RoutesOnly.trans _ _ _
    (foldl_keeps (P := RoutesOnly) (fun _ => rfl) RoutesOnly.trans (fun s _ => s.faceRoute_only _ _ _) _ _)
    (foldl_keeps (P := RoutesOnly) (fun _ => rfl) RoutesOnly.trans (fun s _ => s.faceRoute_only _ _ _) _ _)

theorem State.retireCell_only (s : State) (t : Nat) :
    s.retireCell t = { s with
      cells := (s.retireCell t).cells, routes := (s.retireCell t).routes, seq := (s.retireCell t).seq } := by
  unfold State.retireCell
  split
  · rfl
  · rw [sendFaces_only]; rfl

/-- What `exitThread` leaves of threads and masks. -/
theorem State.exitThread_threads (s : State) (t : Nat) :
    (s.exitThread t).threads = s.threads.modify t fun y => { y with status := .exited } := by
  unfold State.exitThread; dsimp only; split <;> rfl

theorem State.exitThread_warps (s : State) (t : Nat) :
    (s.exitThread t).warps =
      s.warps.modify (s.th t).warp fun w => { w with m := w.m.map fun b => b &&& ~~~(1#64 <<< (s.th t).lane) } := by
  unfold State.exitThread; dsimp only; split <;> rfl

theorem getLsbD_and_not_shift (b : BitVec 64) (n : Nat) : (b &&& ~~~(1#64 <<< n)).getLsbD n = false := by
  by_cases h : n < 64 <;> simp [h]

theorem State.exitThread_masks (s : State) (t : Nat) : ∀ b ∈ ((s.exitThread t).wp (s.th t).warp).m, b.getLsbD (s.th t).lane = false := by
  have hw : (s.exitThread t).wp (s.th t).warp =
      (s.modWp (s.th t).warp fun w => { w with m := w.m.map fun b => b &&& ~~~(1#64 <<< (s.th t).lane) }).wp (s.th t).warp :=
    congrArg (fun l : List Warp => l.getD (s.th t).warp Warp.blank) (s.exitThread_warps t)
  rw [hw, State.wp_modWp]
  split
  · intro b hb
    obtain ⟨c, -, rfl⟩ := List.mem_map.mp hb
    exact getLsbD_and_not_shift c _
  · next h =>
    have hblank : s.wp (s.th t).warp = Warp.blank := by
      rw [State.wp, List.getD_eq_getElem?_getD, List.getElem?_eq_none (by simpa using h)]; rfl
    rw [hblank]
    intro b hb
    rw [List.eq_of_mem_replicate hb]
    simp

theorem exitLeavesTheMasks : Claims.ExitLeavesTheMasks := by
  intro s t x hl
  refine ⟨fun hd => ?_, fun hd => congrArg Host.Outcome.next (runLanes_lone_trap hl (if_neg hd))⟩
  have hr := s.retireCell_only t
  have hth (n : Nat) : (s.retireCell t).th n = s.th n := by rw [hr]; rfl
  have hlen : (s.retireCell t).threads.length = s.threads.length := by rw [hr]
  have hmasks := (s.retireCell t).exitThread_masks t
  rw [hth] at hmasks
  have hex (n : Nat) : ((s.retireCell t).exitThread t).th n =
      ((s.retireCell t).modTh t fun y => { y with status := .exited }).th n :=
    congrArg (fun l : List Thread => l.getD n Thread.blank) ((s.retireCell t).exitThread_threads t)
  refine ⟨_, congrArg Host.Outcome.next (runPlain_lone hl (if_pos hd)), ?_, hmasks, fun n hn => ?_, ?_⟩
  · rw [hex, State.th_modTh_self _ _ _ (by rw [hlen]; exact hl.inRange)]
  · rw [hex, State.th_modTh, if_neg fun h => hn h.1, hth]
  · rw [State.exitThread_only, hr]

/-! ### Traps and the window -/

theorem softwareTraps : Claims.SoftwareTraps := fun _ _ _ _ hl =>
  ⟨congrArg Host.Outcome.next (runPlain_always hl), congrArg Host.Outcome.next (runPlain_always hl)⟩

theorem opCheck_z (s : State) (t : Nat) : opCheck s t [.z] [src .z] [] = .ok := by
  simp [opCheck, opFault, opWait, opBad, srcRegs, src, regsOf, Check.andThen]

theorem windowBase : Claims.WindowBase := by
  intro s t imm hl
  refine ⟨fun h => congrArg Host.Outcome.next ((runPlain_lone hl ?_).trans ?_), fun h =>
    congrArg Host.Outcome.next (runLanes_lone_trap hl ?_)⟩
  · rw [opCheck_z, Check.ok_andThen]
    exact if_pos (by simpa [regOf] using h)
  · have hi : (0 + imm.toInt).toNat = imm.toNat := by
      have := h.1
      rw [BitVec.toInt_eq_toNat_cond] at this ⊢
      split at this <;> omega
    simp only [regOf, Option.map_none, Option.getD_none]
    rw [show ((0 : Word).toInt) = 0 from rfl, hi]
    rfl
  · rw [opCheck_z, Check.ok_andThen]
    exact if_neg (by simpa [regOf] using h)

/-- Settles O10: the three kinds of instruction act in a lane that issues alone, or trap there. -/
theorem exitTrapsAndWindow : Obligations.ExitTrapsAndWindow := ⟨exitLeavesTheMasks, softwareTraps, windowBase⟩

/-! ### Lane masks (R95, R96) -/

theorem laneBits_getLsbD (w : Warp) (i : Nat) : (laneBits w).getLsbD i = decide (i < 64 ∧ i < w.width) := by
  simp [laneBits, BitVec.getLsbD_ofNat, Nat.testBit_two_pow_sub_one]

theorem maskResults : Claims.MaskResults := by
  intro s t x d a hl w put here
  refine ⟨?_, ?_, ?_, ?_, ?_, ?_, ?_, ?_, ?_, fun b hw hd => ?_⟩
  case refine_10 =>
    have hwp : (s.setMask t d b).wp (s.th t).warp = { w with m := w.m.set d.val (b &&& laneBits w) } := State.wp_modWp_self _ _ _ hw
    have hself : (s.setMask t d b).wpOf t = { w with m := w.m.set d.val (b &&& laneBits w) } := hwp
    refine ⟨fun i => ?_, fun k hk => ?_, ?_, ?_, ?_, ?_, fun k hk => ?_, rfl, rfl, rfl⟩
    · rw [hself, maskVal]
      simp only [List.getD_eq_getElem?_getD, List.getElem?_set_self hd, Option.getD_some, BitVec.getLsbD_and, laneBits_getLsbD]
      by_cases hi : i < 64
      · simp [hi]
      · simp [BitVec.getLsbD_of_ge b i (by omega)]
    · have hne : d.val ≠ k.val := fun e => hk (Fin.ext e.symm)
      rw [hself, maskVal, maskVal, List.getD_eq_getElem?_getD, List.getElem?_set_ne hne, ← List.getD_eq_getElem?_getD]
    · rw [hself]
    · rw [hself]
    · rw [hself]
    · rw [hself]
    · exact (State.wp_modWp s _ k _).trans (if_neg fun h => hk h.1.symm)
  all_goals exact congrArg Host.Outcome.next (runPlain_always hl)

theorem code_s_eq_79 : ∀ n : BitVec 4, (Operand.s n).code = 79 ↔ n = 15 := by decide

theorem maskReads : Claims.MaskReads := by
  intro s t x n a hl
  refine ⟨fun ho => ⟨?_, fun hw => ?_⟩, fun ho hw hn => ?_, fun hw => ?_⟩
  · refine congrArg Host.Outcome.next ((runPlain_lone hl ?_).trans ?_)
    · rw [regsOf_s_one]; exact opCheck_given ho
    · simp only [regsOf_s_one, State.fillRegs_one]
  · refine congrArg Host.Outcome.next ((runPlain_lone hl ?_).trans ?_)
    · simpa [hw] using opCheck_given ho
    · simp [hw, State.fillRegs]
  · have hcode : ¬ (Operand.s n).code = 79 := fun h => hn ((code_s_eq_79 n).mp h)
    have hr : regsOf (s.th t) (.s n) 2 = [.s n.toNat, .s (n.toNat + 1)] := rfl
    refine congrArg Host.Outcome.next ((runPlain_lone hl ?_).trans ?_)
    · rw [if_neg fun h => hcode h.2]
      dsimp only
      rw [if_pos hw, hr]
      exact opCheck_given ho
    · simp [hw, hr, State.fillRegs]
  · refine congrArg Host.Outcome.next (runLanes_lone_trap hl ?_)
    exact if_pos ⟨if_pos hw, rfl⟩

/-- Settles O11: each mask instruction is an unconditional act of its lane on one mask of its warp. -/
theorem laneMasks : Obligations.LaneMasks := ⟨maskResults, maskReads⟩

/-! ### Releases (R91, R96) -/

/-- A change of the threads of a list, each at most once, by what the thread itself says. -/
theorem foldl_release {f : State → Nat → State} {g : Thread → Option (Thread → Thread)}
    (hf : ∀ s t, f s t = match g (s.th t) with | some h => s.modTh t h | none => s) (hblank : g Thread.blank = none) :
    ∀ (ts : List Nat) (s : State), ts.Nodup →
      (∀ t ∈ ts, ∀ h, g (s.th t) = some h → (ts.foldl f s).th t = h (s.th t)) ∧
      (∀ t, t ∉ ts ∨ g (s.th t) = none → (ts.foldl f s).th t = s.th t) ∧
      (ts.foldl f s).dies = s.dies ∧ (ts.foldl f s).cores = s.cores ∧ (ts.foldl f s).warps = s.warps
  | [], s, _ => ⟨nofun, fun _ _ => rfl, rfl, rfl, rfl⟩
  | a :: ts, s, hnd => by
    obtain ⟨hnot, hnd⟩ := List.nodup_cons.mp hnd
    obtain ⟨h1, h2, h3, h4, h5⟩ := foldl_release hf hblank ts (f s a) hnd
    have hother (t : Nat) (hne : t ≠ a) : (f s a).th t = s.th t := by
      rw [hf]
      split
      · rw [State.th_modTh, if_neg fun h => hne h.1.symm]
      · rfl
    have hsame : (f s a).dies = s.dies ∧ (f s a).cores = s.cores ∧ (f s a).warps = s.warps := by
      rw [hf]
      split <;> exact ⟨rfl, rfl, rfl⟩
    obtain ⟨k3, k4, k5⟩ := hsame
    rw [List.foldl_cons]
    refine ⟨fun t ht h hg => ?_, fun t ht => ?_, h3.trans k3, h4.trans k4, h5.trans k5⟩
    · rcases List.mem_cons.mp ht with rfl | ht
      · have hin : t < s.threads.length := by
          by_contra hge
          rw [State.th, List.getD_eq_getElem?_getD, List.getElem?_eq_none (by omega)] at hg
          exact nomatch hblank.symm.trans hg
        rw [h2 t (.inl hnot), hf, hg]
        exact State.th_modTh_self _ _ _ hin
      · have hne : t ≠ a := fun e => hnot (e ▸ ht)
        rw [← hother t hne] at hg ⊢
        exact h1 t ht h hg
    · by_cases hta : t = a
      · subst hta
        have hg := ht.resolve_left fun h => h List.mem_cons_self
        rw [h2 t (.inl hnot), hf, hg]
      · have hin : t ∉ ts ∨ g ((f s a).th t) = none := by
          rw [hother t hta]
          exact ht.imp_left fun h hm => h (List.mem_cons_of_mem _ hm)
        rw [h2 t hin, hother t hta]

theorem maskWait : Claims.MaskWait := by
  refine ⟨fun s t x d hl => congrArg Host.Outcome.next (runPlain_always hl), fun s w m hready hnd => ?_⟩
  obtain ⟨h1, h2, h3⟩ := foldl_release (g := fun x => (waitsOn x m).map Thread.advance)
    (f := fun s t => match waitsOn (s.th t) m with | some len => s.retire t len | none => s)
    (fun s t => by cases waitsOn (s.th t) m <;> rfl) rfl (s.wp w).threads s hnd
  refine ⟨_, congrArg Host.Outcome.next (if_pos hready), fun t ht len hlen => h1 t ht _ (by simp [hlen]), fun t ht => h2 t ?_, h3⟩
  exact ht.imp_right fun h => by simp [h]

theorem meetRelease : Claims.MeetRelease := by
  intro s w p hready hnd
  obtain ⟨h1, h2, h3⟩ := foldl_release
    (g := fun x => if isHeld x && x.pc == p then some fun x => { x with meet := none } else none)
    (f := fun s t => if isHeld (s.th t) && (s.th t).pc == p then s.modTh t fun x => { x with meet := none } else s)
    (fun s t => by cases isHeld (s.th t) && (s.th t).pc == p <;> rfl) rfl (s.wp w).threads s hnd
  refine ⟨_, congrArg Host.Outcome.next (if_pos hready), fun t ht hh hp => h1 t ht _ (if_pos (by simp [hh, hp])), fun t ht => h2 t ?_, h3⟩
  refine ht.imp_right fun h => if_neg ?_
  rcases h with h | h <;> simp [h]

/-- Settles O12: both releases are one pass over the warp's threads (`foldl_release`). -/
theorem meetAndMaskWaits : Obligations.MeetAndMaskWaits := ⟨maskWait, meetRelease⟩

end Sys2Proof.Machine
end

section
/-! PROOF. Cross-lane instructions: the arrival and the meeting (O13), and the values that a meeting gives (O14). -/

namespace Sys2Proof.Machine

/-! ### Arrival and meeting (R97) -/

theorem nbrCheck_none {slots : List Slot} (h : missing slots = []) : nbrCheck slots = .ok := by
  simp [nbrCheck, h]

/-- A cross-lane instruction runs as one. -/
theorem exec_cross {wide : Bool} {i : Instr} {c : Cross} (h : crossOf wide i = some c) (s : State) : exec i s = runCross i s := by
  unfold crossOf at h
  split at h
  case h_7 => cases h
  all_goals rfl

theorem crossCheck_given {s : State} {t : Nat} {c : Cross}
    (ho : Given s t c.fields c.srcs ((c.d.map fun d => regsOf (s.th t) d c.dn).getD [])) (hm : isMember s c.m t = true)
    (hp : ¬(c.dn = 2 ∧ c.d = some (.v 63))) (hs : missing (allSlots s t 0 c.srcs) = []) : crossCheck s c t = .ok := by
  have hp' : (c.dn = 2 && c.d == some (.v 63)) = false := by simpa using hp
  simp only [crossCheck, opFault_given ho, opWait_given ho, nbrCheck_none hs, hm, hp', Check.ok_andThen, Bool.not_true,
    Bool.false_eq_true, if_false]

theorem crossLaneArrival : Claims.CrossLaneArrival := by
  intro s t i c hc hl ho hm hp hs
  have hpart : crossPart s i t = c := by rw [crossPart, hc]; rfl
  have hcheck := crossCheck_given ho hm hp hs
  have hsites : s.planted = [] ∨ (if guardOn c.x (s.th t) then nbrReads (fun s t => crossCheck s c t) c.srcs s t else []) = [] := by
    refine ho.quiet.imp_right fun h => ?_
    split
    · exact nbrReads_nil h s t
    · rfl
  rw [exec_cross hc, runCross, withReads_lone ⟨hl.issuing, hl.inRange, hl.live, rfl⟩ (by simpa only [hpart] using hsites)]
  simp [arriveCross, hl.issuing, hpart, hl.guard, hcheck, laneStep]

theorem crossLaneMeetings : Claims.CrossLaneMeetings := by
  intro s w i c hi hc
  refine congrArg Host.Outcome.next ?_
  show (match (s.wp w).threads.findSome? fun t => meetingReady s (s.wp w) t with | none => _ | some i => _) = _
  rw [hi]
  dsimp only
  rw [hc]
  rfl

/-- Settles O13: a member whose check passes blocks for the meeting; the meeting is the step's whole effect. -/
theorem crossLaneExecution : Obligations.CrossLaneExecution := ⟨crossLaneArrival, crossLaneMeetings⟩

/-! ### What lanes receive -/

/-- A pass in which each element changes one thread of its own. -/
theorem foldl_lanes {α : Type} {f : State → α → State} (key : α → Nat) (hf : ∀ s a n, n ≠ key a → (f s a).th n = s.th n)
    (hlen : ∀ s a, (f s a).threads.length = s.threads.length) : ∀ (l : List α) (s : State), (l.map key).Nodup →
      (∀ n, n ∉ l.map key → (l.foldl f s).th n = s.th n) ∧
      ∀ a ∈ l, ∃ u, u.threads.length = s.threads.length ∧ u.th (key a) = s.th (key a) ∧
        (l.foldl f s).th (key a) = (f u a).th (key a)
  | [], _, _ => ⟨fun _ _ => rfl, nofun⟩
  | b :: l, s, hnd => by
    rw [List.map_cons, List.nodup_cons] at hnd
    obtain ⟨hnot, hnd⟩ := hnd
    obtain ⟨h1, h2⟩ := foldl_lanes key hf hlen l (f s b) hnd
    refine ⟨fun n hn => ?_, fun a ha => ?_⟩
    · rw [List.map_cons, List.mem_cons, not_or] at hn
      rw [List.foldl_cons, h1 n hn.2, hf s b n hn.1]
    · rcases List.mem_cons.mp ha with rfl | ha
      · exact ⟨s, rfl, rfl, h1 _ hnot⟩
      · have hne : key a ≠ key b := fun e => hnot (e ▸ List.mem_map_of_mem ha)
        obtain ⟨u, hu, hth, hres⟩ := h2 a ha
        exact ⟨u, hu.trans (hlen s b), hth.trans (hf s b _ hne), hres⟩

theorem State.giveLane_v_regsOnly (s : State) (t : Nat) (n : BitVec 6) (dn : Nat) (ws : List Word) (g : Tag) :
    RegsOnly s (s.giveLane t (.v n) dn ws g) t (regsOf (s.th t) (.v n) dn) :=
  State.fillRegs_regsOnly t g _ ws s fun _ h => h

theorem State.fillRegs_v_warps (t : Nat) (g : Tag) : ∀ (rs : List RegRef) (ws : List Word) (s : State), (∀ n, RegRef.s n ∉ rs) →
    (s.fillRegs t rs ws g).warps = s.warps
  | [], _, s, _ => by rw [State.fillRegs]; simp
  | _ :: _, [], s, _ => by rw [State.fillRegs]; simp
  | .v n :: rs, w :: ws, s, h => by
    rw [State.fillRegs, State.fillRegs_v_warps t g rs ws _ fun n hn => h n (List.mem_cons_of_mem _ hn)]
    rfl
  | .s n :: rs, w :: ws, s, h => absurd List.mem_cons_self (h n)

theorem s_not_mem_regsOf_v (th : Thread) (n : BitVec 6) (dn k : Nat) : RegRef.s k ∉ regsOf th (.v n) dn := by
  simp [regsOf]

/-- A v register read in a state whose thread is the same. -/
theorem State.RegIs.of_th {s u : State} {t n : Nat} {w : Word} {g : Tag} (h : s.RegIs t (.v n) w g) (hth : u.th t = s.th t) :
    u.RegIs t (.v n) w g := by
  simpa only [State.RegIs, State.regVal, State.regTag, State.regFull, hth] using h

/-- The registers of a lane that is given words hold them. -/
theorem State.giveLane_v_regIs {s : State} {t : Nat} (ht : t < s.threads.length) {n : BitVec 6} {dn i : Nat} {ws : List Word} {w : Word}
    (g : Tag) (hi : i < dn) (hw : ws[i]? = some w) (hr : (s.th t).wbase + n.toNat + i < (s.th t).v.length) :
    (s.giveLane t (.v n) dn ws g).RegIs t (.v ((s.th t).wbase + n.toNat + i)) w g :=
  State.fillRegs_regIs g (regsOf_nodup _ _ _) ht (by simp [regsOf, hi]) hw hr

/-- A pass that gives words to v registers of some of its lanes: only those lanes change, each register that is named takes its word,
and the warps stay. -/
theorem foldl_giveLane {α : Type} (key : α → Nat) (on : α → Bool) (n : BitVec 6) (dn : Nat) (ws : α → List Word) (g : α → Tag)
    (l : List α) (s : State) (hnd : (l.map key).Nodup) :
    let u := l.foldl (fun st a => if on a then st.giveLane (key a) (.v n) dn (ws a) (g a) else st) s
    (∀ k, (∀ a ∈ l, on a = true → k ≠ key a) → u.th k = s.th k) ∧ u.warps = s.warps ∧
    ∀ a ∈ l, on a = true → key a < s.threads.length → ∀ i w, i < dn → (ws a)[i]? = some w →
      (s.th (key a)).wbase + n.toNat + i < (s.th (key a)).v.length →
      u.RegIs (key a) (.v ((s.th (key a)).wbase + n.toNat + i)) w (g a) := by
  intro u
  have hf (s : State) (a : α) (k : Nat) (hk : k ≠ key a) :
      (if on a then s.giveLane (key a) (.v n) dn (ws a) (g a) else s).th k = s.th k := by
    split
    · exact (s.giveLane_v_regsOnly _ _ _ _ _).others k hk
    · rfl
  have hlen (s : State) (a : α) :
      (if on a then s.giveLane (key a) (.v n) dn (ws a) (g a) else s).threads.length = s.threads.length := by
    split
    · exact (s.giveLane_v_regsOnly _ _ _ _ _).threads
    · rfl
  obtain ⟨h1, h2⟩ := foldl_lanes key hf hlen l s hnd
  refine ⟨fun k hk => ?_, ?_, fun a ha hon ht i w hi hw hr => ?_⟩
  · by_cases hmem : k ∈ l.map key
    · obtain ⟨a, ha, rfl⟩ := List.mem_map.mp hmem
      have hoff : on a = false := Bool.eq_false_iff.mpr fun h => hk a ha h rfl
      obtain ⟨v, -, hv, hres⟩ := h2 a ha
      rw [show u.th (key a) = _ from hres, hoff]
      exact hv
    · exact h1 k hmem
  · refine foldl_keeps (P := fun s u => u.warps = s.warps) (fun _ => rfl) (fun _ _ _ h k => k.trans h) (fun s a => ?_) l s
    split
    · exact State.fillRegs_v_warps _ _ _ _ _ (s_not_mem_regsOf_v _ _ _)
    · rfl
  · obtain ⟨v, hvl, hv, hres⟩ := h2 a ha
    rw [hon, if_pos rfl] at hres
    rw [← hv] at hr ⊢
    exact (State.giveLane_v_regIs (by rw [hvl]; exact ht) (g a) hi hw hr).of_th hres

/-! ### Shuffles (R99) -/

section
variable {s : State} {w : Warp} {x : Option Ext} {m : BitVec 4}

/-- The members that execute: those whose guard is true. -/
def executing (s : State) (x : Option Ext) (ms : List Nat) : List Nat := ms.filter fun t => guardOn x (s.th t)

theorem executing_nodup {ms : List Nat} (h : ms.Nodup) : (executing s x ms).Nodup := h.filter _

theorem membersOf_nodup (h : w.threads.Nodup) : (membersOf s w m).Nodup := h.filter _

/-- The word of a v register that an executing member contributes. -/
theorem contrib_v {c : Cross} {t : Nat} (a : BitVec 6) (h : guardOn c.x (s.th t) = true) :
    (contrib s c (src (.v a)) t).getD 0 0 = s.regVal t (.v ((s.th t).wbase + a.toNat)) := by
  simp [contrib, h, allSlots, slotsOf, src, slotNow]

/-- What `shfl` and `xchg` take from the lane of that number (R99). -/
def shuffled (s : State) (c : Cross) (ms : List Nat) (a : Operand) (t j : Nat) : Word × Tag :=
  match ms.find? fun u => (s.th u).lane = j with
  | none => ((contrib s c (src a) t).getD 0 0, tagOf s t (src a))
  | some u => if guardOn c.x (s.th u) then ((contrib s c (src a) u).getD 0 0, tagOf s u (src a)) else (0, .raw)

/-- A pass that gives a word to each executing member. -/
theorem foldl_giveLane_one {ex : List Nat} (hnd : ex.Nodup) (n : BitVec 6) (r : Nat → Word × Tag) {t : Nat} (ht : t ∈ ex)
    (hlt : t < s.threads.length) (hv : (s.th t).wbase + n.toNat < (s.th t).v.length) :
    (ex.foldl (fun st t => st.giveLane t (.v n) 1 [(r t).1] (r t).2) s).RegIs t (.v ((s.th t).wbase + n.toNat)) (r t).1 (r t).2 := by
  obtain ⟨-, -, h⟩ := foldl_giveLane id (fun _ => true) n 1 (fun t => [(r t).1]) (fun t => (r t).2) ex s (by simpa using hnd)
  exact h t ht rfl hlt 0 _ Nat.one_pos rfl hv

theorem meetingEffect_shfl (d a b : Operand) {ms : List Nat} (hex : executing s x ms ≠ []) :
    meetingEffect s w (.shfl x d a b m) ms = (executing s x ms).foldl (fun st t =>
      st.giveLane t d 1 [(shuffled s ⟨x, m, [d, a, b], [src a, src b], some d, 1⟩ ms a t
        ((contrib s ⟨x, m, [d, a, b], [src a, src b], some d, 1⟩ (src b) t).getD 0 0).toNat).1]
        (shuffled s ⟨x, m, [d, a, b], [src a, src b], some d, 1⟩ ms a t
        ((contrib s ⟨x, m, [d, a, b], [src a, src b], some d, 1⟩ (src b) t).getD 0 0).toNat).2) s := by
  obtain ⟨lead, rest, he⟩ := List.exists_cons_of_ne_nil hex
  have he' : (ms.filter fun t => guardOn x (s.th t)) = lead :: rest := he
  rw [he]
  simp only [meetingEffect, crossOf, Option.getD_some, he']
  rfl

theorem meetingEffect_xchg (d a b : Operand) {ms : List Nat} (hex : executing s x ms ≠ []) :
    meetingEffect s w (.xchg x d a b m) ms = (executing s x ms).foldl (fun st t =>
      st.giveLane t d 1 [(shuffled s ⟨x, m, [d, a, b], [src a, src b], some d, 1⟩ ms a t (Nat.xor (s.th t).lane
        (((contrib s ⟨x, m, [d, a, b], [src a, src b], some d, 1⟩ (src b) t).getD 0 0).toNat % 64))).1]
        (shuffled s ⟨x, m, [d, a, b], [src a, src b], some d, 1⟩ ms a t (Nat.xor (s.th t).lane
        (((contrib s ⟨x, m, [d, a, b], [src a, src b], some d, 1⟩ (src b) t).getD 0 0).toNat % 64))).2) s := by
  obtain ⟨lead, rest, he⟩ := List.exists_cons_of_ne_nil hex
  have he' : (ms.filter fun t => guardOn x (s.th t)) = lead :: rest := he
  rw [he]
  simp only [meetingEffect, crossOf, Option.getD_some, he']
  rfl

end

theorem shuffleValues : Claims.ShuffleValues := by
  intro s w x d a b m t shfl ms a' b' i want u rd hnd hms ht hg hv
  let c : Cross := ⟨x, m, [.v d, .v a, .v b], [src (.v a), src (.v b)], some (.v d), 1⟩
  have hex : t ∈ executing s x ms := List.mem_filter.mpr ⟨ht, hg⟩
  have hexnd : (executing s x ms).Nodup := (membersOf_nodup hnd).filter _
  have hb : (contrib s c (src (.v b)) t).getD 0 0 = b' := contrib_v (c := c) b hg
  have hshuf : shuffled s c ms (.v a) t want = match ms.find? fun u => (s.th u).lane = want with
      | some v => if guardOn x (s.th v) then a' v else (0, .raw)
      | none => a' t := by
    unfold shuffled
    cases ms.find? fun u => (s.th u).lane = want with
    | none => exact Prod.ext (contrib_v (c := c) a hg) rfl
    | some v =>
      dsimp only
      split
      · next h => exact Prod.ext (contrib_v (c := c) a h) rfl
      · rfl
  have hreg : u.RegIs t rd (shuffled s c ms (.v a) t want).1 (shuffled s c ms (.v a) t want).2 := by
    cases shfl with
    | true =>
      have he : want = ((contrib s c (src (.v b)) t).getD 0 0).toNat := by rw [hb]; rfl
      rw [he]
      show (meetingEffect s w (.shfl x (.v d) (.v a) (.v b) m) ms).RegIs t rd _ _
      rw [meetingEffect_shfl _ _ _ (List.ne_nil_of_mem hex)]
      exact foldl_giveLane_one hexnd d (fun t => shuffled s c ms (.v a) t ((contrib s c (src (.v b)) t).getD 0 0).toNat) hex
        (hms t ht) hv
    | false =>
      have he : want = Nat.xor (s.th t).lane (((contrib s c (src (.v b)) t).getD 0 0).toNat % 64) := by rw [hb]; rfl
      rw [he]
      show (meetingEffect s w (.xchg x (.v d) (.v a) (.v b) m) ms).RegIs t rd _ _
      rw [meetingEffect_xchg _ _ _ (List.ne_nil_of_mem hex)]
      exact foldl_giveLane_one hexnd d (fun t => shuffled s c ms (.v a) t
        (Nat.xor (s.th t).lane (((contrib s c (src (.v b)) t).getD 0 0).toNat % 64))) hex (hms t ht) hv
  obtain ⟨h1, h2, h3⟩ := hreg
  refine ⟨?_, h3⟩
  rw [h1, h2]
  exact hshuf

/-! ### Reductions and scans (R98, R100, R101) -/

/-- A step of `redStep` on encoded values is the step on the values. -/
def Encodes {α : Type} (f : RedOp) (one : α → α → α × Flags) (enc : α → List Word) : Prop :=
  ∀ a y, redStep f (enc a) (enc y) = (enc (one a y).1, (one a y).2)

/-- One step of the fold of R100. -/
def foldStep {α : Type} (one : α → α → α × Flags) (p : α × Flags) (z : α) : α × Flags := ((one p.1 z).1, p.2 ||| (one p.1 z).2)

section
variable {α : Type} {f : RedOp} {one : α → α → α × Flags} {enc : α → List Word}

theorem foldl_foldStep_fst (fl fl' : Flags) : ∀ (ys : List α) (a : α),
    (ys.foldl (foldStep one) (a, fl)).1 = (ys.foldl (foldStep one) (a, fl')).1 := by
  intro ys
  induction ys generalizing fl fl' with
  | nil => exact fun _ => rfl
  | cons y ys ih => exact fun a => ih _ _ _

theorem scanFold_flags (h : Encodes f one enc) : ∀ (ys : List α) (a : α) (fl : Flags),
    fl ||| (scanFold f (enc a) (ys.map enc)).2 = (ys.foldl (foldStep one) (a, fl)).2
  | [], _, fl => BitVec.or_zero
  | y :: ys, a, fl => by
    have ih := scanFold_flags h ys (one a y).1 (fl ||| (one a y).2)
    rw [List.map_cons, scanFold, h a y, List.foldl_cons]
    dsimp only
    rw [← BitVec.or_assoc, ih]
    rfl

theorem scanFold_getElem? (h : Encodes f one enc) : ∀ (ys : List α) (a : α) (k : Nat), k < ys.length →
    (scanFold f (enc a) (ys.map enc)).1[k]? = some (enc ((ys.take (k + 1)).foldl (foldStep one) (a, 0)).1)
  | [], _, _, hk => absurd hk (Nat.not_lt_zero _)
  | y :: ys, a, k, hk => by
    rw [List.map_cons, scanFold, h a y]
    cases k with
    | zero => rfl
    | succ k =>
      rw [List.getElem?_cons_succ, scanFold_getElem? h ys (one a y).1 k (Nat.lt_of_succ_lt_succ hk), List.take_succ_cons,
        List.foldl_cons, foldl_foldStep_fst]
      rfl

theorem scanFold_length (f : RedOp) : ∀ (xs : List (List Word)) (acc : List Word), (scanFold f acc xs).1.length = xs.length
  | [], _ => rfl
  | x :: xs, acc => by rw [scanFold]; simp [scanFold_length f xs]

theorem partials_length (f : RedOp) (xs : List (List Word)) : (partials f xs).1.length = xs.length := by
  cases xs with
  | nil => rfl
  | cons x xs => simp [partials, scanFold_length]

theorem partials_flags (h : Encodes f one enc) (zero : α) (ys : List α) : (partials f (ys.map enc)).2 = (redAll one zero ys).2 := by
  cases ys with
  | nil => rfl
  | cons y ys => exact BitVec.zero_or.symm.trans (scanFold_flags h ys y 0)

/-- The partial fold at each place is the fold up to that place. -/
theorem partials_getElem? (h : Encodes f one enc) (zero : α) {ys : List α} {k : Nat} (hk : k < ys.length) :
    (partials f (ys.map enc)).1[k]? = some (enc (redAll one zero (ys.take (k + 1))).1) := by
  cases ys with
  | nil => exact absurd hk (Nat.not_lt_zero _)
  | cons y ys =>
    rw [List.map_cons, partials]
    cases k with
    | zero => rfl
    | succ k => exact scanFold_getElem? h ys y k (Nat.lt_of_succ_lt_succ hk)

theorem partials_getLast? (h : Encodes f one enc) (zero : α) {ys : List α} (hne : ys ≠ []) :
    ((partials f (ys.map enc)).1.getLast?).getD [] = enc (redAll one zero ys).1 := by
  have hpos := List.length_pos_iff.mpr hne
  rw [List.getLast?_eq_getElem?, partials_length, List.length_map, partials_getElem? h zero (Nat.sub_one_lt_of_lt hpos),
    Nat.sub_add_cancel hpos, List.take_length]
  rfl

end

/-- The operations of one word are those of R100. -/
theorem encodes_redOne {f : RedOp} (hf : f ≠ .blend) : Encodes f (redOne f) fun w => [w] := by
  intro a y
  cases f with
  | min => exact congrArg (fun w => ([w], 0)) (minS_eq a y)
  | max => exact congrArg (fun w => ([w], 0)) (maxS_eq a y)
  | minu => exact congrArg (fun w => ([w], 0)) (minU_eq a y)
  | maxu => exact congrArg (fun w => ([w], 0)) (maxU_eq a y)
  | blend => exact absurd rfl hf
  | _ => rfl

theorem encodes_blend : Encodes .blend blendT Triple.words := fun _ _ => rfl

section
variable {s : State} {w : Warp} {x : Option Ext} {m : BitVec 4} {ms : List Nat}

/-- What a member contributes is what it has, or 0 of a guarded-off lane (R97). -/
theorem contrib_eq {α : Type} {enc : α → List Word} {c : Cross} {f : SrcF} {vals : Nat → α} {zero : α} (hc : c.x = x)
    (hz : List.replicate f.n 0 = enc zero) (h : ∀ u ∈ ms, guardOn x (s.th u) = true → allSlots s u 0 [f] = (enc (vals u)).map .val) :
    ms.map (contrib s c f) = (ms.map fun u => if guardOn x (s.th u) then vals u else zero).map enc := by
  rw [List.map_map]
  refine List.map_congr_left fun u hu => ?_
  simp only [contrib, hc, Function.comp_apply]
  split
  · next hg =>
    rw [h u hu hg, List.map_map]
    exact List.map_id _
  · exact hz

/-- What a v register holds and what a pass leaves are as before the flags. -/
theorem State.RegIs.addFlags {u : State} {t : Nat} {r : RegRef} {v : Word} {g : Tag} (h : u.RegIs t r v g) (n : Nat) (f : Flags) :
    (u.addFlags n f).RegIs t r v g := by
  obtain ⟨h1, h2, h3⟩ := u.addFlags_regs n t f r
  obtain ⟨hv, hg, hf⟩ := h
  exact ⟨h1.trans hv, h2.trans hg, h3.trans hf⟩

/-- The flags of the warp of one of its lanes. -/
theorem addFlags_fp {u : State} {t lead : Nat} (hw : u.warps = s.warps) (ht : (u.th t).warp = (s.th t).warp)
    (hl : (u.th lead).warp = (s.th t).warp) (f : Flags) (hlt : (s.th t).warp < s.warps.length) :
    ((u.addFlags lead f).wpOf t).fp = (s.wpOf t).fp ||| f := by
  have hwp : u.wp (s.th t).warp = s.wp (s.th t).warp := by rw [State.wp, hw]; rfl
  have hth : (u.addFlags lead f).th t = u.th t := rfl
  rw [State.wpOf, hth, ht, State.wp_addFlags, hl, if_pos ⟨rfl, by rw [hw]; exact hlt⟩, hwp]
  rfl

theorem meetingEffect_none {i : Instr} {c : Cross} (hc : crossOf (w.width = 64) i = some c) (hx : c.x = x)
    (hoff : ∀ u ∈ ms, guardOn x (s.th u) = false) : meetingEffect s w i ms = s := by
  have hex : (ms.filter fun t => guardOn c.x (s.th t)) = [] := by
    rw [hx]
    exact List.filter_eq_nil_iff.mpr fun u hu => by simp [hoff u hu]
  simp only [meetingEffect, hc, Option.getD_some, hex]

theorem meetingEffect_vote (k : MaskReg) (p : PSrc) {t : Nat} (hh : (executing s x ms).head? = some t) :
    meetingEffect s w (.vote x k p m) ms = s.setMask t k ((executing s x ms).foldl (fun (b : BitVec 64) u =>
      if predVal (s.th u) p then b ||| (1#64 <<< (s.th u).lane) else b) 0) := by
  obtain ⟨rest, he⟩ := List.head?_eq_some_iff.mp hh
  have he' : (ms.filter fun t => guardOn x (s.th t)) = t :: rest := he
  rw [he]
  simp only [meetingEffect, crossOf, Option.getD_some, he']

/-- The first executing member, where there is one. -/
theorem executing_lead {t : Nat} (ht : t ∈ executing s x ms) :
    ∃ lead rest, executing s x ms = lead :: rest ∧ lead ∈ ms := by
  obtain ⟨lead, rest, he⟩ := List.exists_cons_of_ne_nil (List.ne_nil_of_mem ht)
  exact ⟨lead, rest, he, List.mem_of_mem_filter (he ▸ List.mem_cons_self : lead ∈ executing s x ms)⟩

theorem meetingEffect_wred_v (f : RedOp) (n : BitVec 6) (a : Operand) {lead : Nat} {rest : List Nat}
    (he : executing s x ms = lead :: rest) :
    let dn := if f = .blend then 3 else 1
    let r := partials f (ms.map (contrib s ⟨x, m, [.v n, a], [srcN a dn], some (.v n), dn⟩ (srcN a dn)))
    meetingEffect s w (.wred x f (.v n) a m) ms =
      ((executing s x ms).foldl (fun st t => st.giveLane t (.v n) dn ((r.1.getLast?).getD []) .raw) s).addFlags lead r.2 := by
  have he' : (ms.filter fun t => guardOn x (s.th t)) = lead :: rest := he
  rw [he]
  simp only [meetingEffect, crossOf, Option.getD_some, he']
  rfl

theorem meetingEffect_wred_s (f : RedOp) (hf : f ≠ .blend) (n : BitVec 4) (a : Operand) {lead : Nat} {rest : List Nat}
    (he : executing s x ms = lead :: rest) :
    let r := partials f (ms.map (contrib s ⟨x, m, [.s n, a], [src a], some (.s n), 1⟩ (src a)))
    meetingEffect s w (.wred x f (.s n) a m) ms = (s.fillRegs lead [.s n.toNat] ((r.1.getLast?).getD []) .raw).addFlags lead r.2 := by
  have he' : (ms.filter fun t => guardOn x (s.th t)) = lead :: rest := he
  simp only [meetingEffect, crossOf, Option.getD_some, he', if_neg hf]
  rfl

/-- The operation of a scan. -/
def scanOp (f : ScanOp) : RedOp := if f = .add ∨ f = .addx then .add else .fadd

/-- The words of the members at a scan: the partial folds, in the exclusive forms one place later. -/
def scanSeq (f : ScanOp) (r : List (List Word)) : List (List Word) := if f = .addx ∨ f = .faddx then [0] :: r else r

theorem meetingEffect_wscan (f : ScanOp) (n : BitVec 6) (a : Operand) {lead : Nat} {rest : List Nat}
    (he : executing s x ms = lead :: rest) :
    let r := partials (scanOp f) (ms.map (contrib s ⟨x, m, [.v n, a], [src a], some (.v n), 1⟩ (src a)))
    meetingEffect s w (.wscan x f (.v n) a m) ms =
      ((ms.zip (scanSeq f r.1)).foldl (fun st p =>
        if (executing s x ms).contains p.1 then st.giveLane p.1 (.v n) 1 p.2 .raw else st) s).addFlags lead r.2 := by
  have he' : (ms.filter fun t => guardOn x (s.th t)) = lead :: rest := he
  rw [he]
  cases f <;> simp only [meetingEffect, crossOf, Option.getD_some, he'] <;> rfl

theorem meetingEffect_veq (n : BitVec 6) (a : Operand) {lead : Nat} {rest : List Nat} (he : executing s x ms = lead :: rest) :
    let dn := if w.width = 64 then 2 else 1
    let word (u : Nat) : Word := (contrib s ⟨x, m, [.v n, a], [src a], some (.v n), dn⟩ (src a) u).getD 0 0
    let set (t : Nat) : BitVec 64 := (executing s x ms).foldl (fun (b : BitVec 64) u =>
      if word u = word t then b ||| (1#64 <<< (s.th u).lane) else b) 0
    meetingEffect s w (.veq x (.v n) a m) ms =
      (executing s x ms).foldl (fun st t =>
        st.giveLane t (.v n) dn [(set t).extractLsb' 0 32, (set t).extractLsb' 32 32] .raw) s := by
  have he' : (ms.filter fun t => guardOn x (s.th t)) = lead :: rest := he
  rw [he]
  simp only [meetingEffect, crossOf, Option.getD_some, he', decide_eq_true_eq]

/-- A word with the tag raw. -/
theorem State.RegIs.raw {u : State} {t : Nat} {r : RegRef} {v : Word} (h : u.RegIs t r v .raw) :
    u.regVal t r = v ∧ u.regTag t r = .raw ∧ u.regFull t r = true := by
  cases r <;> exact h

/-- Every thread stays in its warp. -/
theorem RegsOnly.thWarps {u : State} {t : Nat} {dst : List RegRef} (h : RegsOnly s u t dst) (k : Nat) :
    (u.th k).warp = (s.th k).warp := by
  by_cases hk : k = t
  · rw [hk]
    exact h.thWarp
  · rw [h.others k hk]

/-- What a meeting leaves where its executing members take words and one flag word is raised. -/
structure PassOnly (s u : State) (x : Option Ext) (ms : List Nat) (t : Nat) (f : Flags) : Prop where
  flags : (s.th t).warp < s.warps.length → (u.wpOf t).fp = (s.wpOf t).fp ||| f
  off : ∀ k, ¬(k ∈ ms ∧ guardOn x (s.th k) = true) → u.th k = s.th k

/-- The members of a meeting: each once, threads of one warp. -/
structure Gathered (s : State) (ms : List Nat) (t : Nat) : Prop where
  nodup : ms.Nodup
  inRange : ∀ u ∈ ms, u < s.threads.length
  warp : ∀ u ∈ ms, (s.th u).warp = (s.th t).warp
  here : t ∈ ms

/-- A pass over executing members gives each its words. -/
theorem pass_gives {α : Type} {key : α → Nat} {on : α → Bool} {n : BitVec 6} {dn : Nat} {ws : α → List Word} {l : List α} {t : Nat}
    (hg : Gathered s ms t) (hnd : (l.map key).Nodup) (hon : ∀ a ∈ l, on a = true → key a ∈ executing s x ms) {lead : Nat}
    (hlead : lead ∈ ms) (f : Flags) :
    let u := (l.foldl (fun st a => if on a then st.giveLane (key a) (.v n) dn (ws a) .raw else st) s).addFlags lead f
    PassOnly s u x ms t f ∧ ∀ a ∈ l, on a = true → key a = t → ∀ i v, i < dn → (ws a)[i]? = some v →
      (s.th t).wbase + n.toNat + i < (s.th t).v.length → u.RegIs t (.v ((s.th t).wbase + n.toNat + i)) v .raw := by
  intro u
  obtain ⟨hoff, hwarps, hregs⟩ := foldl_giveLane key on n dn ws (fun _ => .raw) l s hnd
  have hlane (k : Nat) : (u.th k).warp = (s.th k).warp := by
    have hw (s : State) (a : α) : ∀ k, ((if on a then s.giveLane (key a) (.v n) dn (ws a) .raw else s).th k).warp = (s.th k).warp := by
      split
      · exact (s.giveLane_v_regsOnly _ _ _ _ _).thWarps
      · exact fun _ => rfl
    exact foldl_keeps (P := fun s u => ∀ k, (u.th k).warp = (s.th k).warp) (fun _ _ => rfl) (fun _ _ _ h h' k => (h' k).trans (h k)) hw l s k
  refine ⟨⟨addFlags_fp hwarps (hlane t) ((hlane lead).trans (hg.warp lead hlead)) f, fun k hk => hoff k fun a ha hona => ?_⟩, ?_⟩
  · rintro rfl
    have hex := hon a ha hona
    exact hk ⟨List.mem_of_mem_filter hex, (List.mem_filter.mp hex).2⟩
  · rintro a ha hona rfl i v hi hv hlt
    exact State.RegIs.addFlags (hregs a ha hona (hg.inRange _ hg.here) i v hi hv hlt) lead f

theorem wred_v_values {α : Type} {f : RedOp} {one : α → α → α × Flags} {enc : α → List Word} {zero : α} {vals : Nat → α}
    {a : Operand} {t dn : Nat} (henc : Encodes f one enc) (hdn : (if f = .blend then 3 else 1) = dn)
    (hz : List.replicate dn 0 = enc zero) (hg : Gathered s ms t) (hon : guardOn x (s.th t) = true)
    (hvals : ∀ u ∈ ms, guardOn x (s.th u) = true → allSlots s u 0 [srcN a dn] = (enc (vals u)).map .val) (n : BitVec 6) :
    let r := redAll one zero (ms.map fun u => if guardOn x (s.th u) then vals u else zero)
    let u := meetingEffect s w (.wred x f (.v n) a m) ms
    PassOnly s u x ms t r.2 ∧ ∀ i v, i < dn → (enc r.1)[i]? = some v → (s.th t).wbase + n.toNat + i < (s.th t).v.length →
      u.RegIs t (.v ((s.th t).wbase + n.toNat + i)) v .raw := by
  intro r u
  have hex : t ∈ executing s x ms := List.mem_filter.mpr ⟨hg.here, hon⟩
  obtain ⟨lead, rest, he, hlead⟩ := executing_lead hex
  have hu := meetingEffect_wred_v (w := w) (m := m) f n a he
  rw [hdn] at hu
  dsimp only at hu
  rw [contrib_eq rfl hz hvals, partials_flags henc zero,
    partials_getLast? henc zero (List.ne_nil_of_mem (List.mem_map_of_mem hg.here))] at hu
  have hpass := pass_gives (key := id) (on := fun _ => true) (n := n) (dn := dn) (ws := fun _ => enc r.1) (x := x) hg
    (by simpa using executing_nodup hg.nodup) (fun _ h _ => h) hlead r.2
  rw [show u = _ from hu]
  exact ⟨hpass.1, fun i v => hpass.2 t hex rfl rfl i v⟩

theorem wred_s_values {f : RedOp} {vals : Nat → Word} {a : Operand} {t : Nat} (hf : f ≠ .blend) (hg : Gathered s ms t)
    (hon : guardOn x (s.th t) = true)
    (hvals : ∀ u ∈ ms, guardOn x (s.th u) = true → allSlots s u 0 [src a] = [.val (vals u)]) (n : BitVec 4)
    (hr : HasReg s t (.s n.toNat)) :
    let r := redAll (redOne f) 0 (ms.map fun u => if guardOn x (s.th u) then vals u else 0)
    let u := meetingEffect s w (.wred x f (.s n) a m) ms
    u.RegIs t (.s n.toNat) r.1 .raw ∧ ((s.th t).warp < s.warps.length → (u.wpOf t).fp = (s.wpOf t).fp ||| r.2) ∧
      u.threads = s.threads := by
  intro r u
  obtain ⟨lead, rest, he, hlead⟩ := executing_lead (List.mem_filter.mpr ⟨hg.here, hon⟩ : t ∈ executing s x ms)
  have hu := meetingEffect_wred_s (w := w) (m := m) f hf n a he
  dsimp only at hu
  rw [contrib_eq (enc := fun w => [w]) rfl rfl hvals, partials_flags (encodes_redOne hf) 0,
    partials_getLast? (encodes_redOne hf) 0 (List.ne_nil_of_mem (List.mem_map_of_mem hg.here))] at hu
  have hw : (s.th lead).warp = (s.th t).warp := hg.warp lead hlead
  have hfill : s.fillRegs lead [.s n.toNat] [r.1] .raw = s.fillReg t (.s n.toNat) r.1 .raw := by
    simp only [State.fillRegs, State.fillReg, hw]
  rw [show u = (s.fillRegs lead [.s n.toNat] [r.1] .raw).addFlags lead r.2 from hu, hfill]
  refine ⟨State.RegIs.addFlags (State.fillReg_regIs (hg.inRange t hg.here) hr _ _) lead r.2, fun hlt => ?_, rfl⟩
  have hth (k : Nat) : ((s.fillReg t (.s n.toNat) r.1 .raw).addFlags lead r.2).th k = s.th k := rfl
  have hth' (k : Nat) : (s.fillReg t (.s n.toNat) r.1 .raw).th k = s.th k := rfl
  rw [State.wpOf, hth, State.wp_addFlags, hth', hw]
  simp [State.fillReg, State.wpOf, hlt]

/-- What a scan gives the member after the members `before`. -/
theorem scanSeq_getElem? {f : ScanOp} {y : Nat → Word} {before after : List Nat} {t : Nat} :
    (scanSeq f (partials (scanOp f) (((before ++ t :: after).map y).map fun w => [w])).1)[before.length]? =
      some [(redAll (redOne (scanOp f)) 0
        (if f = .addx ∨ f = .faddx then before.map y else before.map y ++ [y t])).1] := by
  have henc : Encodes (scanOp f) (redOne (scanOp f)) fun w => [w] := encodes_redOne (by unfold scanOp; split <;> decide)
  unfold scanSeq
  split
  · next h =>
    cases hb : before with
    | nil => rfl
    | cons b bs =>
      rw [List.length_cons, List.getElem?_cons_succ, partials_getElem? henc 0 (by simp)]
      congr 4
      simp
  · rw [partials_getElem? henc 0 (by simp)]
    congr 4
    rw [List.map_append, List.map_cons, List.take_append, List.length_map, List.take_of_length_le (by simp)]
    simp

theorem wscan_values {f : ScanOp} {vals : Nat → Word} {a : Operand} {t : Nat} (hg : Gathered s ms t)
    (hon : guardOn x (s.th t) = true)
    (hvals : ∀ u ∈ ms, guardOn x (s.th u) = true → allSlots s u 0 [src a] = [.val (vals u)]) (n : BitVec 6)
    (hr : HasReg s t (.v ((s.th t).wbase + n.toNat))) :
    let y (u : Nat) : Word := if guardOn x (s.th u) then vals u else 0
    let below := (ms.takeWhile (· ≠ t)).map y
    let u := meetingEffect s w (.wscan x f (.v n) a m) ms
    u.RegIs t (.v ((s.th t).wbase + n.toNat))
      (redAll (redOne (scanOp f)) 0 (if f = .addx ∨ f = .faddx then below else below ++ [y t])).1 .raw ∧
    PassOnly s u x ms t (redAll (redOne (scanOp f)) 0 (ms.map y)).2 := by
  intro y below u
  have hex : t ∈ executing s x ms := List.mem_filter.mpr ⟨hg.here, hon⟩
  obtain ⟨lead, rest, he, hlead⟩ := executing_lead hex
  have henc : Encodes (scanOp f) (redOne (scanOp f)) fun w => [w] := encodes_redOne (by unfold scanOp; split <;> decide)
  have hu := meetingEffect_wscan (w := w) (m := m) f n a he
  dsimp only at hu
  rw [contrib_eq (enc := fun w => [w]) rfl rfl hvals, partials_flags henc 0] at hu
  obtain ⟨before, after, hms, hnot⟩ := List.eq_append_cons_of_mem hg.here
  have hbelow : below = before.map y := by
    simp only [below, hms]
    rw [List.takeWhile_append_of_pos fun b hb => decide_eq_true (ne_of_mem_of_not_mem hb hnot)]
    simp
  set seq := scanSeq f (partials (scanOp f) ((ms.map y).map fun w => [w])).1 with hseq
  have hlen : ms.length ≤ seq.length := by
    rw [hseq, scanSeq]
    split <;> simp [partials_length]
  have hgive : seq[before.length]? = some [(redAll (redOne (scanOp f)) 0 (if f = .addx ∨ f = .faddx then below else below ++ [y t])).1] := by
    rw [hseq, hbelow, hms]
    exact scanSeq_getElem?
  have hpass := pass_gives (key := Prod.fst) (on := fun p => (executing s x ms).contains p.1) (n := n) (dn := 1) (ws := Prod.snd)
    (l := ms.zip seq) (x := x) hg (by rw [List.map_fst_zip hlen]; exact hg.nodup) (fun _ _ h => List.contains_iff_mem.mp h) hlead
    (redAll (redOne (scanOp f)) 0 (ms.map y)).2
  have hmem : (t, [(redAll (redOne (scanOp f)) 0 (if f = .addx ∨ f = .faddx then below else below ++ [y t])).1]) ∈ ms.zip seq := by
    refine List.mem_of_getElem? (i := before.length) (List.getElem?_zip_eq_some.mpr ⟨?_, hgive⟩)
    rw [hms]
    simp
  rw [show u = _ from hu]
  exact ⟨hpass.2 _ hmem (List.contains_iff_mem.mpr hex) rfl 0 _ Nat.one_pos rfl hr, hpass.1⟩

theorem veq_values {vals : Nat → Word} {a : Operand} {t : Nat} (hg : Gathered s ms t) (hon : guardOn x (s.th t) = true)
    (hvals : ∀ u ∈ ms, guardOn x (s.th u) = true → allSlots s u 0 [src a] = [.val (vals u)]) (n : BitVec 6)
    (hr : ∀ i, i < (if w.width = 64 then 2 else 1) → HasReg s t (.v ((s.th t).wbase + n.toNat + i))) :
    let set := (executing s x ms).foldl (fun (b : BitVec 64) u => if decide (vals u = vals t) then b ||| (1#64 <<< (s.th u).lane) else b) 0
    let u := meetingEffect s w (.veq x (.v n) a m) ms
    u.RegIs t (.v ((s.th t).wbase + n.toNat)) (set.extractLsb' 0 32) .raw ∧
    (∀ k, ¬(k ∈ ms ∧ guardOn x (s.th k) = true) → u.th k = s.th k) ∧
    (w.width = 64 → u.RegIs t (.v ((s.th t).wbase + n.toNat + 1)) (set.extractLsb' 32 32) .raw) := by
  intro set u
  have hex : t ∈ executing s x ms := List.mem_filter.mpr ⟨hg.here, hon⟩
  obtain ⟨lead, rest, he, hlead⟩ := executing_lead hex
  have hu := meetingEffect_veq (w := w) (m := m) n a he
  dsimp only at hu
  have hword (dn : Nat) (u : Nat) (h : u ∈ executing s x ms) :
      (contrib s ⟨x, m, [.v n, a], [src a], some (.v n), dn⟩ (src a) u).getD 0 0 = vals u := by
    obtain ⟨hin, hgu⟩ := List.mem_filter.mp h
    simp [contrib, show guardOn x (s.th u) = true from hgu, hvals u hin hgu, slotNow]
  have hset : (executing s x ms).foldl (fun (b : BitVec 64) u =>
      if (contrib s ⟨x, m, [.v n, a], [src a], some (.v n), if w.width = 64 then 2 else 1⟩ (src a) u).getD 0 0 =
        (contrib s ⟨x, m, [.v n, a], [src a], some (.v n), if w.width = 64 then 2 else 1⟩ (src a) t).getD 0 0
      then b ||| (1#64 <<< (s.th u).lane) else b) 0 = set := by
    refine List.foldl_ext _ _ _ fun b u hu => ?_
    simp only [hword _ u hu, hword _ t hex, decide_eq_true_eq]
  obtain ⟨hoff, -, hregs⟩ := foldl_giveLane id (fun _ => true) n (if w.width = 64 then 2 else 1) (fun t =>
    let set := (executing s x ms).foldl (fun (b : BitVec 64) u =>
      if (contrib s ⟨x, m, [.v n, a], [src a], some (.v n), if w.width = 64 then 2 else 1⟩ (src a) u).getD 0 0 =
        (contrib s ⟨x, m, [.v n, a], [src a], some (.v n), if w.width = 64 then 2 else 1⟩ (src a) t).getD 0 0
      then b ||| (1#64 <<< (s.th u).lane) else b) 0
    [set.extractLsb' 0 32, set.extractLsb' 32 32]) (fun _ => .raw) (executing s x ms) s (by simpa using executing_nodup hg.nodup)
  have hregs := hregs t hex rfl (hg.inRange t hg.here)
  dsimp only at hregs
  rw [hset] at hregs
  rw [show u = _ from hu]
  refine ⟨hregs 0 _ (by split <;> decide) rfl (hr 0 (by split <;> decide)), fun k hk => hoff k fun a ha _ => ?_, fun h64 => ?_⟩
  · rintro rfl
    exact hk ⟨List.mem_of_mem_filter ha, (List.mem_filter.mp ha).2⟩
  · exact hregs 1 _ (by rw [if_pos h64]; decide) rfl (hr 1 (by rw [if_pos h64]; decide))

end

theorem reductionValues : Claims.ReductionValues := by
  intro s w x a m t ms on hnd hms lane
  refine ⟨fun i c hc hx hoff => meetingEffect_none hc hx hoff, fun k p hh => meetingEffect_vote k p hh, fun ht hon => ?_⟩
  intro gives off flags
  have hg : Gathered s ms t := ⟨membersOf_nodup hnd, fun u hu => (hms u hu).1, fun u hu => (hms u hu).2, ht⟩
  refine ⟨fun vals hvals => ⟨fun f n hf hr => ?_, fun f n hf hr => ?_, fun f n hr => ?_, fun n hr => ?_⟩,
    fun vals hvals n hr => ?_⟩
  · obtain ⟨hpass, hregs⟩ := wred_v_values (w := w) (m := m) (encodes_redOne hf) (if_neg hf) rfl hg hon hvals n
    exact ⟨(hregs 0 _ Nat.one_pos rfl hr).raw, hpass.flags, hpass.off⟩
  · obtain ⟨hreg, hflags, hths⟩ := wred_s_values (w := w) (m := m) hf hg hon hvals n hr
    exact ⟨hreg.raw, hflags, hths⟩
  · obtain ⟨hreg, hpass⟩ := wscan_values (w := w) (m := m) (f := f) hg hon hvals n hr
    exact ⟨hreg.raw, hpass.flags, hpass.off⟩
  · obtain ⟨hreg, hoff, hpair⟩ := veq_values (w := w) (m := m) hg hon hvals n hr
    exact ⟨hreg.raw, hoff, fun h64 => (hpair h64).raw⟩
  · obtain ⟨hpass, hregs⟩ := wred_v_values (w := w) (m := m) (zero := ⟨0, 0, 0⟩) encodes_blend (if_pos rfl) rfl hg hon hvals n
    refine ⟨fun i hi => (hregs i _ hi ?_ (hr i hi)).raw, hpass.flags, hpass.off⟩
    exact List.getElem?_eq_some_iff.mpr ⟨hi, (List.getD_eq_getElem _ _ hi).symm⟩

/-- Settles O14: each member of a meeting takes the value that the shuffle, reduction or scan gives its lane. -/
theorem crossLaneValues : Obligations.CrossLaneValues := ⟨shuffleValues, reductionValues⟩

end Sys2Proof.Machine
end

section
/-! PROOF. What a step runs: the decoded instruction of a bundle (O56), and the events (O47). -/

namespace Sys2Proof.Machine

/-! ### The lanes of a bundle -/

theorem mem_insLane {s : State} {t u : Nat} : ∀ {us : List Nat}, u ∈ insLane s t us → u = t ∨ u ∈ us
  | [], h => .inl (List.mem_singleton.mp h)
  | v :: us, h => by
    unfold insLane at h
    split at h
    · exact .inr h
    · split at h
      · exact List.mem_cons.mp h
      · rcases List.mem_cons.mp h with rfl | h
        · exact .inr List.mem_cons_self
        · exact (mem_insLane h).imp_right (List.mem_cons_of_mem _)

theorem mem_sortLanes {s : State} {u : Nat} : ∀ {l : List Nat}, u ∈ l.foldr (insLane s) [] → u ∈ l
  | [], h => h
  | t :: l, h => by
    rcases mem_insLane h with rfl | h
    · exact List.mem_cons_self
    · exact List.mem_cons_of_mem _ (mem_sortLanes h)

theorem live_of_canIssue {s : State} {c t : Nat} (h : canIssue s c t = true) : s.live t = true := by
  unfold canIssue at h
  unfold State.live
  cases hs : (s.th t).status <;> simp [hs] at h ⊢

theorem freshColumns_cons (s : State) (t : Nat) (ts : List Nat) : freshColumns s [] (t :: ts) = t :: freshColumns s [columnOf s t] ts := by
  simp [freshColumns]

/-- A list cut short begins as it did. -/
theorem head_of_take {v t n : Nat} {vs ts : List Nat} (h : (v :: vs).take n = t :: ts) : v = t := by
  cases n with
  | zero => cases h
  | succ n => exact (List.cons.inj h).1

/-- The first lane of a bundle that issues is live. -/
theorem live_of_bundleLanes {s : State} {c t : Nat} {bundle ts : List Nat} (h : bundleLanes s c bundle = t :: ts) : s.live t = true := by
  unfold bundleLanes at h
  split at h
  · cases h
  · next v vs hv =>
    have hlive : s.live v = true := live_of_canIssue (List.mem_filter.mp (mem_sortLanes (hv ▸ List.mem_cons_self))).2
    split at h
    · cases h
      exact hlive
    · rw [freshColumns_cons] at h
      rw [← head_of_take h]
      exact hlive

/-! ### The decoded instruction (R26, R47, R51) -/

section
variable {s : State} {c b t : Nat} {ts : List Nat}

theorem stopped_eq_false (h : s.sec.halted = false) : stopped s = false := by rw [stopped, h, Bool.false_and]

/-- The step of a bundle whose issue settles nothing but the state. -/
theorem step_settled (hh : s.sec.halted = false) (hd : dueEvent s = none) (ht : issueTurn s = some (c, b)) {u : State}
    (hi : issueOf { s with forced := none } c ((s.co c).bundles.getD b []) = .settled u) : step s = .next u.finishStep := by
  rw [step, stopped_eq_false hh, taken, hd, ht]
  dsimp only
  rw [hi]
  rfl

/-- The step of a bundle that runs an instruction. -/
theorem step_runs (hh : s.sec.halted = false) (hd : dueEvent s = none) (ht : issueTurn s = some (c, b)) {i : Instr} {u : State}
    (hi : issueOf { s with forced := none } c ((s.co c).bundles.getD b []) = .run i u) :
    step s = match exec i u with
      | .next u => .next u.finishStep
      | .fault r => .fault r
      | .refused r => .refused r := by
  rw [step, stopped_eq_false hh, taken, hd, ht]
  dsimp only
  rw [hi]
  rfl

/-- Without an active loop no word is stepped (R104). -/
theorem stepped_of_no_loop {th : Thread} (h : ∀ r ∈ th.lc, r.desc = none) (addr : Word) (i : Option Word × Word) :
    stepped th addr i = i := by
  unfold stepped
  generalize th.lc = l at h
  induction l generalizing i with
  | nil => rfl
  | cons r l ih =>
    rw [List.foldl_cons, h r List.mem_cons_self]
    exact ih i fun r' hr' => h r' (List.mem_cons_of_mem _ hr')

/-- The state in which the lines of the instruction's words are in the instruction cache. -/
def fetchedLines (s : State) (t : Nat) (x : Option Word) : State :=
  (s.cacheLine t (s.th t).pc).cacheLine t ((s.th t).pc + if x.isSome then 4 else 0)

theorem fetchedLines_caches (h : s.planted = []) (t : Nat) (x : Option Word) : CachesOnly s (fetchedLines s t x) := by
  have h1 := s.cacheLine_caches t (s.th t).pc h
  exact h1.trans ((s.cacheLine t (s.th t).pc).cacheLine_caches t _ (h1.planted.trans h))

theorem CachesOnly.live {u : State} (h : CachesOnly s u) (t : Nat) : u.live t = s.live t := by
  rw [State.live, h.th]
  rfl

/-- What the issue of a bundle comes to when the fetch at its first lane succeeds. -/
theorem issueOf_fetched {bundle : List Nat} {x : Option Word} {w : Word} (hl : bundleLanes s c bundle = t :: ts)
    (hf : fetchAt s t = .ok x w) :
    issueOf s c bundle = if !(fetchedLines s t x).live t then .settled (fetchedLines s t x)
      else match legalInstr (instrWords (s.th t) x w) with
      | none => .settled (((t :: ts).filter fun u => instrWords (s.th u) x w = instrWords (s.th t) x w).foldl
          (fun s u => s.illegal u) (fetchedLines s t x))
      | some j => .run j { fetchedLines s t x with
          issuing := (t :: ts).filter fun u => instrWords (s.th u) x w = instrWords (s.th t) x w } := by
  unfold issueOf
  rw [hl]
  dsimp only
  rw [hf]
  rfl

theorem issueOf_fault {bundle : List Nat} {k : BitVec 4} {va : Nat} (hl : bundleLanes s c bundle = [t])
    (hf : fetchAt s t = .fault k va) (hlive : (s.cacheLine t (s.th t).pc).live t = true) :
    issueOf s c bundle = .settled ((s.cacheLine t (s.th t).pc).park t ((s.cacheLine t (s.th t).pc).faultRec t va k .fetch)) := by
  unfold issueOf
  rw [hl]
  dsimp only
  rw [hf]
  exact congrArg Issued.settled (if_pos hlive)

end

theorem stepRunsTheInstruction : Claims.StepRunsTheInstruction := by
  intro s c b t ts x w i hh hd ht s0 hl hf hi
  refine ⟨⟨fun hp => ?_, fun hlive => step_runs hh hd ht ?_, fun hdead => step_settled hh hd ht ?_⟩, fun h => stepped_of_no_loop h _ _⟩
  · exact ((fetchedLines_caches (s := s0) hp t x).live t).trans (live_of_bundleLanes hl)
  · have hlive' : (fetchedLines s0 t x).live t = true := hlive
    have hi' : legalInstr (instrWords (s0.th t) x w) = some i := hi
    rw [issueOf_fetched hl hf, hlive', hi']
    rfl
  · have hdead' : (fetchedLines s0 t x).live t = false := hdead
    rw [issueOf_fetched hl hf, hdead']
    rfl

theorem illegalWordsTrap : Claims.IllegalWordsTrap := by
  intro s c b t hh hd ht s0 hl
  have hlive : s0.live t = true := live_of_bundleLanes hl
  refine ⟨fun x w hf hi hp => step_settled hh hd ht ?_, fun k va hf hp => step_settled hh hd ht ?_⟩
  · have hc := fetchedLines_caches (s := s0) hp t x
    have hi' : legalInstr (instrWords (s0.th t) x w) = none := hi
    have hpc : ((fetchedLines s0 t x).th t).pc = (s.th t).pc := congrArg Thread.pc (hc.th t)
    rw [issueOf_fetched hl hf, hc.live, hlive, hi']
    have hlanes : ([t].filter fun u => instrWords (s0.th u) x w = instrWords (s0.th t) x w) = [t] := by simp
    rw [hlanes]
    show Issued.settled ((fetchedLines s0 t x).faultTrap t 1 0 (pcAddr ((fetchedLines s0 t x).th t).pc)) = _
    rw [hpc]
    rfl
  · exact issueOf_fault hl hf (((s0.cacheLine_caches t (s.th t).pc hp).live t).trans hlive)

/-- Settles O56: the bundle whose turn it is runs the instruction that its fetched words decode to. -/
theorem stepRunsTheDecodedInstruction : Obligations.StepRunsTheDecodedInstruction := ⟨stepRunsTheInstruction, illegalWordsTrap⟩

/-! ### Bundles and events (R90, R94, R270) -/

/-- A yielded thread is ready again. -/
def wake (s : State) (t : Nat) : State := if (s.th t).status = .yielded then s.setStatus t .ready else s

theorem wake_th_other (s : State) (t n : Nat) (h : n ≠ t) : (wake s t).th n = s.th n := by
  unfold wake
  split
  · exact (s.th_modTh t n _).trans (if_neg fun k => h k.1.symm)
  · rfl

theorem wake_keeps (s : State) (t : Nat) :
    (wake s t).threads.length = s.threads.length ∧ (wake s t).cores = s.cores ∧ (wake s t).dies = s.dies := by
  unfold wake
  split <;> simp [State.setStatus]

theorem execBundleRegroup_ok {s : State} {core : Nat} {groups : List (List Nat)}
    (h : groups.flatten.Nodup ∧ groups.all (bundleOk s core) = true) :
    exec (.bundleRegroup core groups) s =
      .next (((threadsOn s core).foldl wake s).modCo core fun k => { k with bundles := groups }) :=
  congrArg Host.Outcome.next (if_pos h)

theorem bundles : Claims.Bundles := by
  intro s core i groups
  refine ⟨fun hn hok => ?_, fun h => congrArg Host.Outcome.next (if_neg h), fun h => ?_, fun h => ?_⟩
  · have hnd : ((threadsOn s core).map id).Nodup := by
      rw [List.map_id]
      exact List.nodup_range.filter _
    obtain ⟨hout, hin⟩ := foldl_lanes id (fun s t n h => wake_th_other s t n h) (fun s t => (wake_keeps s t).1) (threadsOn s core) s hnd
    rw [List.map_id] at hout
    have hk := foldl_keeps (P := fun s u => u.cores = s.cores ∧ u.dies = s.dies) (fun _ => ⟨rfl, rfl⟩)
      (fun _ _ _ h k => ⟨k.1.trans h.1, k.2.trans h.2⟩) (fun s t => (wake_keeps s t).2) (threadsOn s core) s
    obtain ⟨hcores, hdies⟩ := hk
    have hco (c : Nat) : ((threadsOn s core).foldl wake s).co c = s.co c := by rw [State.co, hcores]; rfl
    refine ⟨_, execBundleRegroup_ok ⟨hn, hok⟩, fun hc => ?_, fun t ht hcore hy => ?_, fun t ht => ?_, fun d a => ?_, fun c sp a => ?_⟩
    · rw [State.co_modCo_self _ _ _ (by rw [hcores]; exact hc)]
    · obtain ⟨v, hv, hth, hres⟩ := hin t (List.mem_filter.mpr ⟨List.mem_range.mpr ht, decide_eq_true hcore⟩)
      refine (congrArg Thread.status hres).trans ?_
      have hyv : (v.th t).status = .yielded := (congrArg Thread.status hth).trans hy
      rw [wake, if_pos hyv, State.setStatus, id, State.th_modTh_self _ _ _ (hv ▸ ht)]
      dsimp only
      rw [hyv]
      rfl
    · show ((threadsOn s core).foldl wake s).th t = s.th t
      by_cases hmem : t ∈ threadsOn s core
      · obtain ⟨v, -, hth, hres⟩ := hin t hmem
        have hny : (v.th t).status ≠ .yielded := fun h => ht.elim (fun h => h (of_decide_eq_true (List.mem_filter.mp hmem).2))
          fun hs => hs ((congrArg Thread.status hth).symm.trans h)
        exact hres.trans ((congrArg (fun u => State.th u t) (if_neg hny)).trans hth)
      · exact hout t hmem
    · exact congrArg (fun l : List Die => Memory.read1 (l.getD d Die.blank).mem a) hdies
    · rw [State.co_modCo]
      split
      · next h =>
        rw [hco, h.1]
        cases sp <;> rfl
      · rw [hco]
  · have he : (bundleLanes s core ((s.co core).bundles.getD i [])).isEmpty = false := by simpa using h
    exact ⟨congrArg Host.Outcome.next (if_neg (by rw [he]; decide)), rfl⟩
  · exact congrArg Host.Outcome.next (if_pos (by rw [h]; rfl))

theorem eventSteps : Claims.EventSteps := by
  intro s u e hh
  refine ⟨fun hd hx => ?_, fun hd ht he => ⟨fun hev hx => ?_, fun hev => ?_⟩⟩
  · rw [step, stopped_eq_false hh, taken, hd]
    dsimp only
    rw [hx]
    rfl
  · rw [step, stopped_eq_false hh, taken, hd, ht, he]
    dsimp only
    rw [if_pos hev, hx]
    rfl
  · rw [step, stopped_eq_false hh, taken, hd, ht, he]
    dsimp only
    rw [hev]
    rfl

/-- Settles O47: BUNDLE_REGROUP and ISSUE_BOUND, and which event a step runs. -/
theorem bundlesAndEvents : Obligations.BundlesAndEvents := ⟨bundles, eventSteps⟩

end Sys2Proof.Machine
end

section
/-! PROOF. Completions of operations (O43), and the laws of integer matrix products, collective folds and sorts (O44). -/

namespace Sys2Proof.Machine

/-! ### Words and their bytes -/

@[simp] theorem leBytes_length : ∀ n x : Nat, (leBytes n x).length = n
  | 0, _ => rfl
  | n + 1, _ => congrArg (· + 1) (leBytes_length n _)

theorem leNat_leBytes : ∀ n x : Nat, leNat (leBytes n x) = x % 256 ^ n
  | 0, x => by rw [pow_zero, Nat.mod_one]; rfl
  | n + 1, x => by
    have hsplit : x % 256 ^ (n + 1) = x % 256 + 256 * (x / 256 % 256 ^ n) := by rw [Nat.pow_succ', Nat.mod_mul]
    rw [leBytes, leNat, leNat_leBytes n, BitVec.toNat_ofNat, hsplit]

@[simp] theorem wBytes_length (w : Word) : (wBytes w).length = 4 := leBytes_length _ _

@[simp] theorem wOf_wBytes (w : Word) : wOf (wBytes w) = w := by
  rw [wOf, wBytes, leNat_leBytes]
  have hw := w.isLt
  exact BitVec.eq_of_toNat_eq (by rw [BitVec.toNat_ofNat]; omega)

/-! ### Completions (R19, R20) -/

/-- What a completion leaves when the operation was not yet complete. -/
theorem State.completeOp_eq {s : State} {i c : Nat} (st : BitVec 16) (de : Word) (hs : (s.op i).stage ≠ .done)
    (hc : (s.op i).core = some c) :
    s.completeOp i st de = (((s.modOp i fun o => { o with stage := .done, status := st, detail := de }).fillRegs (s.op i).tid (s.op i).dst
      [(s.op i).handle] .raw).modCo c fun k =>
        k.addRecord (s.op i).engine ⟨(s.op i).handle, st, (s.op i).warp, de, BitVec.ofNat 32 s.time.toNat⟩) := by
  simp only [State.completeOp, if_neg hs, hc]

theorem addRecord_buf (k : CoreSt) (e : BitVec 4) (r : Record) (sp : Space) : (k.addRecord e r).buf sp = k.buf sp := by
  unfold CoreSt.addRecord
  split
  · rfl
  · split <;> cases sp <;> rfl

theorem State.completeOp_regsOnly {s : State} {i c : Nat} (st : BitVec 16) (de : Word) (hs : (s.op i).stage ≠ .done)
    (hc : (s.op i).core = some c) :
    OthersSame s (s.completeOp i st de) (s.op i).tid ∧ SameMemory s (s.completeOp i st de) := by
  have hr := State.fillRegs_regsOnly (s.op i).tid .raw (s.op i).dst [(s.op i).handle]
    (s.modOp i fun o => { o with stage := .done, status := st, detail := de }) (fun _ h => h)
  have ho := State.fillRegs_only (s.op i).tid .raw (s.op i).dst [(s.op i).handle]
    (s.modOp i fun o => { o with stage := .done, status := st, detail := de })
  rw [State.completeOp_eq st de hs hc]
  refine ⟨fun n hn => (hr.others n hn).trans rfl, fun d a => ?_, fun k sp a => ?_⟩
  · rw [ho]
    rfl
  · rw [State.co_modCo, ho]
    split
    · next h =>
      rw [addRecord_buf, ← h.1]
      rfl
    · rfl

theorem completionStep : Claims.CompletionStep := by
  intro s i c st de o u hi hs hc hlt
  have hu := State.completeOp_eq st de hs hc
  have hop : u.op i = { s.op i with stage := .done, status := st, detail := de } := by
    rw [State.completeOp_op, if_pos ⟨rfl, hs⟩]
  obtain ⟨hothers, hmem⟩ := State.completeOp_regsOnly st de hs hc
  refine ⟨by rw [hop], by rw [hop], by rw [hop], fun n hn hv ht => ?_, fun hcol hheld hq => ?_, fun j hj => ?_, hmem, hothers,
    fun st' de' => ?_⟩
  · have hreg : u.RegIs o.tid (.v n) o.handle .raw := by
      rw [show u = _ from hu, show (s.op i).dst = [.v n] from hn]
      exact State.fillRegs_regIs (i := 0) (s := s.modOp i fun o => { o with stage := .done, status := st, detail := de })
        .raw (List.nodup_singleton (RegRef.v n)) ht rfl rfl hv
    exact ⟨hreg.2.2, hreg.1⟩
  · have hco : u.co c = (s.co c).addRecord o.engine ⟨o.handle, st, o.warp, de, BitVec.ofNat 32 s.time.toNat⟩ := by
      rw [show u = _ from hu, State.fillRegs_only]
      exact State.co_modCo_self _ _ _ hlt
    rw [hco, CoreSt.addRecord, if_neg (by simpa [Option.isSome_iff_ne_none] using hcol), if_pos ⟨hheld, hq⟩]
    rfl
  · rw [State.completeOp_op, if_neg fun h => hj h.1.symm]
  · rw [State.completeOp, if_pos (by rw [hop])]

/-- Settles O43: a completion fills the handle, records the outcome, and is the operation's only one. -/
theorem completionOfOperations : Obligations.CompletionOfOperations := completionStep

/-! ### Integer matrix products (R217) -/

/-- The product of an element of A's row with one of B's column. -/
def intProduct (o : Op) (i j k : Nat) : Int := ((aElem o i k).dy.mul (bElem o k j).dy).z

/-- The first 16·n products are those of the first n blocks. -/
theorem map_range_blocks (f : Nat → Int) (n : Nat) :
    ((List.range (16 * (n + 1))).map f).sum =
      ((List.range (16 * n)).map f).sum + (((List.range 16).map fun k => 16 * n + k).map f).sum := by
  rw [Nat.mul_succ, List.range_add, List.map_append, List.sum_append]

theorem mmaPart_int {o : Op} {i j : Nat} (ha : intTag o.atag = true) (hb : intTag o.btag = true) (acc : Word) : ∀ n,
    mmaPart o i j n acc = (acc + BitVec.ofInt 32 ((List.range (16 * n)).map (intProduct o i j)).sum, 0)
  | 0 => by simp [mmaPart]
  | n + 1 => by
    have ih := mmaPart_int (o := o) (i := i) (j := j) ha hb acc n
    have hstep : mmaPart o i j (n + 1) acc =
        ((mmaBlockStep o i j n (mmaPart o i j n acc).1).1, (mmaPart o i j n acc).2 ||| (mmaBlockStep o i j n (mmaPart o i j n acc).1).2) := by
      rw [mmaPart, List.range_succ, List.foldl_append]
      rfl
    rw [hstep, ih, map_range_blocks, BitVec.ofInt_add, ← BitVec.add_assoc]
    simp only [mmaBlockStep, ha, hb, Bool.and_self, if_true]
    rfl

theorem integerMatrixProduct : Claims.IntegerMatrixProduct := by
  intro o i j acc ha hb
  exact mmaPart_int ha hb acc _

/-! ### The collective fold (R252) -/

/-- Words laid end to end are cut into their words again. -/
theorem cut_flatMap_wBytes : ∀ ws : List Word, cut 4 ws.length (ws.flatMap wBytes) = ws.map wBytes
  | [] => rfl
  | w :: ws => by
    rw [List.flatMap_cons, List.length_cons, cut, List.take_left' (wBytes_length w), List.drop_left' (wBytes_length w),
      cut_flatMap_wBytes ws, List.map_cons]

/-- A fold with the FP32 sum works on the words. -/
theorem foldElems_sum (et : Nat) (x : Word) (xs : List Word) :
    (foldElems 2 et ((x :: xs).map wBytes)).1 = wBytes (xs.foldl (fun a b => (add32 a b).1) x) := by
  have h : ∀ (xs : List Word) (x : Word) (f : Flags), ((xs.map wBytes).foldl (fun (r : List Byte × Flags) y =>
      ((combElem 2 et r.1 y).1, r.2 ||| (combElem 2 et r.1 y).2)) (wBytes x, f)).1 = wBytes (xs.foldl (fun a b => (add32 a b).1) x) := by
    intro xs
    induction xs with
    | nil => exact fun _ _ => rfl
    | cons y ys ih =>
      intro x f
      have hc : (combElem 2 et (wBytes x) (wBytes y)).1 = wBytes (add32 x y).1 := by simp [combElem]
      rw [List.map_cons, List.foldl_cons, List.foldl_cons, hc, ih]
  exact h xs x 0

theorem collectiveFold : Claims.CollectiveFold := by
  intro r pos w others hm ho he hl hp
  have hb : rB r = 4 := by rw [rB, he]; rfl
  have hcut : cut (rB r) (groupSize r - 1) (others.flatMap wBytes) = others.map wBytes := by rw [hb, ← hl, cut_flatMap_wBytes]
  have hlist : (others.map wBytes).take pos ++ (some (wBytes w)).toList ++ (others.map wBytes).drop pos =
      (others.take pos ++ [w] ++ others.drop pos).map wBytes := by simp
  rw [colValue, if_pos hm, hcut, ho]
  dsimp only
  rw [hlist]
  cases hx : others.take pos ++ [w] ++ others.drop pos with
  | nil => simp at hx
  | cons x xs => exact foldElems_sum _ x xs

/-! ### The stable sort (R245) -/

/-- Keys below a key, and keys equal to it before its place, are fewer than those of a higher key. -/
theorem offsetOf_add_countOf_le {ks : List Nat} {k k' : Nat} (h : k < k') : offsetOf ks k + countOf ks k ≤ offsetOf ks k' := by
  unfold offsetOf countOf
  induction ks with
  | nil => rfl
  | cons x xs ih =>
    simp only [List.filter_cons]
    by_cases h1 : x < k
    · have h2 : x ≠ k := by omega
      have h3 : x < k' := by omega
      simp [h1, h2, h3]
      omega
    · by_cases h2 : x = k
      · have h3 : x < k' := by omega
        simp [h2, h]
        omega
      · by_cases h3 : x < k' <;> simp [h1, h2, h3] <;> omega

/-- Before the place of an element there are fewer of its key than up to a later place. -/
theorem countOf_take_lt {ks : List Nat} {a b : Nat} (ha : a < ks.length) (hab : a < b) :
    countOf (ks.take a) (ks.getD a 0) < countOf (ks.take b) (ks.getD a 0) := by
  have hsplit : ks.take b = ks.take a ++ ks.getD a 0 :: (ks.drop (a + 1)).take (b - a - 1) := by
    have hb : b = a + (1 + (b - a - 1)) := by omega
    conv_lhs => rw [hb, List.take_add, List.drop_eq_getElem_cons ha, Nat.add_comm 1, List.take_succ_cons]
    rw [List.getD_eq_getElem _ _ ha]
  rw [hsplit, countOf, countOf, List.filter_append, List.length_append]
  simp

theorem countOf_take_le (ks : List Nat) (b k : Nat) : countOf (ks.take b) k ≤ countOf ks k :=
  ((List.take_sublist b ks).filter _).length_le

theorem offsetOf_add_countOf_le_length (ks : List Nat) (k : Nat) : offsetOf ks k + countOf ks k ≤ ks.length := by
  unfold offsetOf countOf
  induction ks with
  | nil => rfl
  | cons x xs ih =>
    simp only [List.filter_cons, List.length_cons]
    by_cases h1 : x < k
    · have h2 : x ≠ k := by omega
      simp [h1, h2]
      omega
    · by_cases h2 : x = k <;> simp [h1, h2] <;> omega

theorem stableSort : Claims.StableSort := by
  intro ks a b ha hb
  have hcount {a : Nat} (ha : a < ks.length) : countOf (ks.take a) (ks.getD a 0) < countOf ks (ks.getD a 0) := by
    have h := countOf_take_lt ha ha
    rwa [List.take_length] at h
  refine ⟨fun h => ?_, fun he hab => ?_, ?_⟩ <;> simp only [rankOfKey]
  · have h1 := offsetOf_add_countOf_le (ks := ks) h
    have h2 := hcount ha
    omega
  · rw [← he]
    exact Nat.add_lt_add_left (countOf_take_lt ha hab) _
  · have h1 := offsetOf_add_countOf_le_length ks (ks.getD a 0)
    have h2 := hcount ha
    omega

/-- Settles O44: integer products are sums modulo 2^32, an FP32 collective folds in group order, and a sort is stable. -/
theorem engineResultLaws : Obligations.EngineResultLaws := ⟨integerMatrixProduct, collectiveFold, stableSort⟩

end Sys2Proof.Machine
end

section
/-! PROOF. The racking unit: sections and tickets (O28), the states of the blocks and the pool operations (O29), periods and markers
(O27). -/

namespace Sys2Proof.Machine

/-! ### Entries that join a FIFO -/

section
variable {s : State} {t : Nat}

theorem State.toFifo_fifo (s : State) (t : Nat) (e : Entry) (h : (s.th t).warp < s.warps.length) :
    ((s.toFifo t e).wp (s.th t).warp).fifo = (s.wp (s.th t).warp).fifo ++ [e] := by
  show ((s.modWp (s.th t).warp fun x => { x with fifo := x.fifo ++ [e] }).wp (s.th t).warp).fifo = _
  rw [State.wp_modWp_self _ _ _ h]

theorem State.setStatus_status (ht : t < s.threads.length) (hl : s.live t = true) (st : Status) :
    ((s.setStatus t st).th t).status = st := by
  have hne : (s.th t).status ≠ .exited := by simpa [State.live] using hl
  rw [State.setStatus, State.th_modTh_self _ _ _ ht]
  exact if_neg hne

theorem State.setStatus_depth (s : State) (t n : Nat) (st : Status) : ((s.setStatus t st).th n).depth = (s.th n).depth :=
  getD_modify_proj (f := fun x : Thread => { x with status := x.status.to st }) Thread.depth (fun _ => rfl) s.threads t n _

theorem State.setStatus_others (s : State) (t : Nat) (st : Status) : OthersSame s (s.setStatus t st) t := fun n hn =>
  (State.th_modTh s t n _).trans (if_neg fun h => hn h.1.symm)

/-- A marker that is issued stands in the FIFO, a release, and its thread waits for it. -/
theorem bundleMark_issued {x : Option Ext} (hl : Lone s t x) (hw : (s.th t).warp < s.warps.length) (scope : BitVec 3) (b : Nat)
    (m : Marker) :
    let u := bundleMark x scope b m s t
    ∃ e, (u.wp (s.th t).warp).fifo = (s.wp (s.th t).warp).fifo ++ [e] ∧ e.body = .mark m ∧ e.rel = true ∧
      (u.th t).status = .blocked (.entry (extLen x)) ∧ (u.th t).depth = (s.th t).depth ∧ SameMemory s u ∧ OthersSame s u t :=
  ⟨{ s.entry t .n 0 (.mark m) with rel := true, scope := scope, bars := true, bundle := b }, s.toFifo_fifo t _ hw, rfl, rfl,
    State.setStatus_status (s := s.toFifo t _) hl.inRange hl.live _, (s.toFifo t _).setStatus_depth t t _,
    ⟨fun _ _ => rfl, fun _ _ _ => rfl⟩, (s.toFifo t _).setStatus_others t _⟩

end

/-! ### Sections and tickets (R290, R293, R294) -/

theorem readSideSections : Claims.ReadSideSections := by
  intro s t x hl hw marks
  have hmark {i : Instr} {m : Marker} {chk : State → Nat → Check} (hi : exec i s = .next (runPlain x false chk (issueMark x 3 m) s))
      (hc : chk s t = .ok) : marks i m := by
    obtain ⟨e, hf, hb, hr, hst, hd, hm, ho⟩ := bundleMark_issued hl hw 3 0 m
    exact ⟨_, e, by rw [hi, runPlain_lone hl hc]; rfl, hf, hb, hr, hst, hd, hm, ho⟩
  refine ⟨fun hd => congrArg Host.Outcome.next (runPlain_lone hl (if_neg hd)),
    fun hd => congrArg Host.Outcome.next (runLanes_lone_trap hl (if_pos hd)), fun hd => hmark rfl (if_neg hd),
    fun hd => congrArg Host.Outcome.next (runLanes_lone_trap hl (if_pos hd)), hmark rfl rfl, fun hd hst => ?_, fun hd hst => ?_,
    fun k hst hk => ?_⟩
  · obtain ⟨e, hf, hb, hr, hst', hd', hm, ho⟩ := bundleMark_issued hl hw 3 0 .gwait
    refine ⟨_, e, congrArg Host.Outcome.next ((runPlain_lone hl ?_).trans ?_), hf, hb, hr, hst', hd', hm, ho⟩
    · simp only [hst]
      exact if_neg (not_not.mpr hd)
    · simp only [hst]
      rfl
  · refine congrArg Host.Outcome.next (runLanes_lone_trap hl ?_)
    simp only [hst]
    exact if_pos hd
  · refine congrArg Host.Outcome.next ((runPlain_lone hl ?_).trans ?_)
    · simp only [hst]
      exact if_pos hk
    · simp only [hst]

theorem tickets : Claims.Tickets := by
  refine ⟨fun s t x p a hl hg => congrArg Host.Outcome.next (runPlain_lone hl (opCheck_given hg)), fun s t x d hl hw hg => ?_⟩
  obtain ⟨e, hf, hb, -, hst, -, hm, ho⟩ := bundleMark_issued hl hw 3 0 (.gstart [(t, d)])
  refine ⟨_, e, congrArg Host.Outcome.next ((runPlain_lone hl (opCheck_given hg)).trans ?_), hf, hb, hst, hm, ho⟩
  have hnew : s.newEntries t (s.fifoLens (s.th t).warp) = [] := List.drop_length
  rw [joinGstart, hnew]
  rfl

/-- Settles O28: `qenter`, `qleave`, `qpt`, `gwait`, `gstart` and `gpoll`, with their traps. -/
theorem sectionsAndTickets : Obligations.SectionsAndTickets := ⟨readSideSections, tickets⟩

/-! ### The states of the blocks (R295) -/

theorem Ctx.block_setBlock_self (c : Ctx) (k l b : Nat) (st : Option Bool) : (c.setBlock k l b st).block k l b = st := by
  cases st with
  | none =>
    have h : ((c.blocks.filter fun y => ¬(y.pool = k ∧ y.die = l ∧ y.blk = b)).find? fun y => y.pool = k ∧ y.die = l ∧ y.blk = b) = none :=
      List.find?_eq_none.mpr fun y hy hk => of_decide_eq_true (List.mem_filter.mp hy).2 (of_decide_eq_true hk)
    exact congrArg (Option.map PoolBlock.deferred) h
  | some d => simp [Ctx.setBlock, Ctx.block]

theorem Ctx.block_setBlock_other (c : Ctx) {k l b k' l' b' : Nat} (st : Option Bool) (h : (k', l', b') ≠ (k, l, b)) :
    (c.setBlock k l b st).block k' l' b' = c.block k' l' b' := by
  have hne : ¬(k = k' ∧ l = l' ∧ b = b') := fun ⟨h1, h2, h3⟩ => h (by rw [h1, h2, h3])
  have hf : ((c.blocks.filter fun y => ¬(y.pool = k ∧ y.die = l ∧ y.blk = b)).find? fun y => y.pool = k' ∧ y.die = l' ∧ y.blk = b') =
      c.blocks.find? fun y => y.pool = k' ∧ y.die = l' ∧ y.blk = b' := by
    rw [List.find?_filter]
    refine List.find?_congr fun y _ => ?_
    by_cases hy : y.pool = k' ∧ y.die = l' ∧ y.blk = b'
    · obtain ⟨rfl, rfl, rfl⟩ := hy
      simp only [ne_eq, Prod.mk.injEq] at h
      simp [h]
    · simp [hy]
  cases st with
  | none => exact congrArg (Option.map PoolBlock.deferred) hf
  | some d => exact congrArg (Option.map PoolBlock.deferred) ((List.find?_cons_of_neg (by simpa using hne)).trans hf)

/-- The least free index of a search: what is below it is used, and it is free unless all that were tried are used. -/
theorem leastFree_spec (used : List Nat) : ∀ n i,
    let r := leastFree used n i
    i ≤ r ∧ r ≤ i + n ∧ (∀ j, i ≤ j → j < r → j ∈ used) ∧ (r < i + n → r ∉ used)
  | 0, i => by
    refine ⟨Nat.le_refl _, Nat.le_refl _, fun j h1 h2 => absurd h2 (Nat.not_lt.mpr h1), fun h => absurd h (Nat.lt_irrefl _)⟩
  | n + 1, i => by
    intro r
    by_cases hi : i ∈ used
    · have hr : r = leastFree used n (i + 1) := by
        show leastFree used (n + 1) i = _
        rw [leastFree, if_pos (by simpa using hi)]
      obtain ⟨h1, h2, h3, h4⟩ := leastFree_spec used n (i + 1)
      rw [← hr] at h1 h2 h3 h4
      refine ⟨by omega, by omega, fun j hj hjr => ?_, fun h => h4 (by omega)⟩
      by_cases hji : j = i
      · rwa [hji]
      · exact h3 j (by omega) hjr
    · have hr : r = i := by
        show leastFree used (n + 1) i = _
        rw [leastFree, if_neg (by simpa using hi)]
      refine ⟨by omega, by omega, fun j hj hjr => by omega, fun _ => by rwa [hr]⟩

/-- As many tries as there are used indices find the least that is free. -/
theorem leastFree_free (used : List Nat) : leastFree used used.length 0 ∉ used := by
  obtain ⟨-, h2, h3, h4⟩ := leastFree_spec used used.length 0
  intro hr
  have hge : used.length ≤ leastFree used used.length 0 := Nat.not_lt.mp fun h => h4 (by omega) hr
  have hsub : List.range (used.length + 1) ⊆ used := by
    intro j hj
    rcases Nat.lt_or_ge j (leastFree used used.length 0) with h | h
    · exact h3 j (Nat.zero_le _) h
    · have hj := List.mem_range.mp hj
      rwa [show j = leastFree used used.length 0 by omega]
  have hlen := (List.subperm_of_subset List.nodup_range hsub).length_le
  rw [List.length_range] at hlen
  omega

theorem Ctx.block_eq_none_iff (c : Ctx) (k l b : Nat) :
    c.block k l b = none ↔ b ∉ (c.blocks.filter fun y => y.pool = k ∧ y.die = l).map PoolBlock.blk := by
  simp only [Ctx.block, Option.map_eq_none_iff, List.find?_eq_none, List.mem_map, List.mem_filter, decide_eq_true_eq]
  constructor
  · rintro h ⟨y, ⟨hy, hk⟩, rfl⟩
    exact h y hy ⟨hk.1, hk.2, rfl⟩
  · rintro h y hy ⟨hk, hl, hb⟩
    exact h ⟨y, ⟨hy, hk, hl⟩, hb⟩

theorem blockStates : Claims.BlockStates := by
  intro c k l b st
  refine ⟨c.block_setBlock_self k l b st, fun k' l' b' h => c.block_setBlock_other st h, rfl, rfl, fun p i hi => ?_⟩
  unfold Ctx.freeBlock at hi
  dsimp only at hi
  split at hi
  · next hlt =>
    obtain ⟨-, -, h3, -⟩ := leastFree_spec ((c.blocks.filter fun y => y.pool = k ∧ y.die = l).map PoolBlock.blk)
      ((c.blocks.filter fun y => y.pool = k ∧ y.die = l).map PoolBlock.blk).length 0
    rw [Option.some.injEq] at hi
    rw [hi] at hlt h3
    refine ⟨hlt, (c.block_eq_none_iff k l i).mpr ?_, fun j hj hn => ?_⟩
    · rw [← hi]
      exact leastFree_free _
    · exact (c.block_eq_none_iff k l j).mp hn (h3 j (Nat.zero_le _) hj)
  · cases hi

/-! ### Pool operations (R295, R296) -/

section
variable {s : State} {t : Nat} {x : Option Ext} {a b : BitVec 6}

/-- Two given sources: the first of them may be a destination as well. -/
theorem given_first_as_dst (h : Given s t [.v a, .v b] [src (.v a), src (.v b)] []) :
    Given s t [.v a, .v b] [src (.v b)] (regsOf (s.th t) (.v a) 1) := by
  have hsub : ∀ r ∈ [src (.v b)].flatMap (fun f => regsOf (s.th t) f.op f.n) ++ regsOf (s.th t) (.v a) 1,
      r ∈ [src (.v a), src (.v b)].flatMap (fun f => regsOf (s.th t) f.op f.n) ++ [] := by
    intro r hr
    rcases List.mem_append.mp hr with hr | hr
    · exact List.mem_append_left _ (List.mem_append_right _ hr)
    · exact List.mem_append_left _ (List.mem_append_left _ hr)
  exact ⟨h.available, fun r hr => h.full r (hsub r hr), fun r hr => h.settled r (hsub r hr),
    h.quiet.imp_right fun hq f hf => hq f (List.mem_cons_of_mem _ hf)⟩

theorem addrReg_v (s : State) (t : Nat) (a : BitVec 6) : addrReg s t (.v a) = s.regVal t (.v ((s.th t).wbase + a.toNat)) := rfl

theorem blockCheck_given (h : Given s t [.v a, .v b] [src (.v a), src (.v b)] []) :
    blockCheck (.v a) (.v b) false false s t = match poolOf s t (addrReg s t (.v b)) with
      | none => trapHere s t 0x0E 1
      | some p => if (p.index (addrReg s t (.v a))).isSome then .ok else trapHere s t 0x0E 2 := by
  have hc : opCheck s t [.v a, .v b] [src (.v a) false, src (.v b) false] [] = .ok := opCheck_given h
  rw [blockCheck, hc]
  exact Check.ok_andThen _

theorem exec_palloc_pool (hl : Lone s t x) (hg : Given s t [.v a, .v b] [src (.v a), src (.v b)] [])
    (hp : (poolOf s t (addrReg s t (.v b))).isSome = true) :
    exec (.palloc x (.v a) (.v b) false false) s = .next (
      let k := addrReg s t (.v b)
      let c := s.ctxOf t
      let r : State × Word × Bool := match poolOf s t k with
        | none => (s, 0, false)
        | some p => match c.freeBlock p k.toNat (s.ldieOf t) with
          | some i => (s.modCtx c.id fun c => c.setBlock k.toNat (s.ldieOf t) i (some false),
              BitVec.ofNat 32 (p.baseLo + i * p.bs), true)
          | none => (s, 0, false)
      (((r.1.discardCopies (s.coreOf t)).writeDst t (.v a) (regsOf (s.th t) (.v a) 1) (outW r.2.1)).setP t 7 r.2.2).retire t
        (extLen x)) := by
  refine congrArg Host.Outcome.next (runPlain_lone hl ?_)
  have hc : opCheck s t [.v a, .v b] [src (.v b) false] (regsOf (s.th t) (.v a) 1) = .ok := opCheck_given (given_first_as_dst hg)
  rw [hc, Check.ok_andThen, if_pos hp]

/-- A word is written to the one register that v names. -/
theorem State.writeDst_v_one (u : State) (t : Nat) (a : BitVec 6) (n : Nat) (w : Word) :
    u.writeDst t (.v a) [.v n] (outW w) = u.fillReg t (.v n) w .raw := rfl

theorem pools : Claims.Pools := by
  intro s t x a b p hl hw hg va vb rd
  have hvb : addrReg s t (.v b) = vb := rfl
  have hcheck := blockCheck_given hg
  rw [hvb] at hcheck
  refine ⟨fun hp => ⟨fun i hi => ?_, fun hn => ?_, fun i k m hi hk => ?_, fun hn k hk => ?_⟩, fun hp k hk => ?_⟩
  · rw [exec_palloc_pool hl hg (by rw [hvb, hp]; rfl)]
    simp only [hvb, hp, hi]
    rfl
  · rw [exec_palloc_pool hl hg (by rw [hvb, hp]; rfl)]
    simp only [hvb, hp, hn]
    rfl
  · rw [hp] at hcheck
    have hok : blockCheck (.v a) (.v b) false false s t = .ok :=
      hcheck.trans (if_pos (by rw [addrReg_v, show p.index (s.regVal t _) = some i from hi]; rfl))
    have hb : blockOf s t (.v a) (.v b) = (vb.toNat, i) := by
      rw [blockOf, hvb, hp, Option.bind_some, show p.index (addrReg s t (.v a)) = some i from hi]
      rfl
    obtain ⟨e, hf, hbody, -, hst, -, hm, ho⟩ := bundleMark_issued hl hw 2 s.seq m
    refine ⟨_, e, ?_, hf, hbody, hst, hm, ho⟩
    rcases hk with ⟨rfl, rfl⟩ | ⟨rfl, rfl⟩
    · refine congrArg Host.Outcome.next ((runPlain_lone hl hok).trans ?_)
      simp only [hb]
    · refine congrArg Host.Outcome.next ((runPlain_lone hl hok).trans ?_)
      simp only [hb]
  · rw [hp] at hcheck
    have hbad : blockCheck (.v a) (.v b) false false s t = trapHere s t 0x0E 2 :=
      hcheck.trans (if_neg (by rw [addrReg_v, show p.index (s.regVal t _) = none from hn]; decide))
    rcases hk with rfl | rfl
    · exact congrArg Host.Outcome.next (runLanes_lone_trap hl hbad)
    · exact congrArg Host.Outcome.next (runLanes_lone_trap hl hbad)
  · rw [hp] at hcheck
    rcases hk with rfl | rfl | rfl
    · refine congrArg Host.Outcome.next (runLanes_lone_trap hl ?_)
      have hc : opCheck s t [.v a, .v b] [src (.v b) false] (regsOf (s.th t) (.v a) 1) = .ok := opCheck_given (given_first_as_dst hg)
      simp only [hc, Check.ok_andThen, hvb, hp]
      rfl
    · exact congrArg Host.Outcome.next (runLanes_lone_trap hl hcheck)
    · exact congrArg Host.Outcome.next (runLanes_lone_trap hl hcheck)

end

/-- Settles O29: the pool instructions, and the states of the blocks. -/
theorem poolOperations : Obligations.PoolOperations := ⟨pools, blockStates⟩

/-! ### Markers (R56, R290, R291, R296) -/

theorem entryDone_blocked {s : State} {t len : Nat} (h : (s.th t).status = .blocked (.entry len)) : s.entryDone t = s.retire t len := by
  rw [State.entryDone, h]

/-- A change of a thread that leaves its status does not end its wait. -/
theorem modTh_entryDone {s : State} {t len : Nat} (h : (s.th t).status = .blocked (.entry len)) {f : Thread → Thread}
    (hf : ∀ x, (f x).status = x.status) : (s.modTh t f).entryDone t = (s.modTh t f).retire t len := by
  refine entryDone_blocked ?_
  rw [← h]
  exact getD_modify_proj Thread.status hf s.threads _ _ _

theorem setP_entryDone {u : State} {t len : Nat} (p : BitVec 3) (v : Bool) (h : (u.th t).status = .blocked (.entry len)) :
    (u.setP t p v).entryDone t = (u.setP t p v).retire t len := modTh_entryDone h fun _ => rfl

theorem drainMarks {s : State} {core i : Nat} {e : Entry} {m : Marker} (hi : (s.co core).wq[i]? = some e) (hb : e.body = .mark m)
    (hr : drainReady s core i e = true) :
    exec (.drain core i) s = .next ((s.modCo core fun k => { k with wq := k.wq.eraseIdx i }).drainMark e.tid m) := by
  refine congrArg Host.Outcome.next ?_
  have hread : e.readsArray = false := by rw [Entry.readsArray, hb]
  have hranges : e.ranges = [] := by rw [Entry.ranges, hb]
  rw [hi]
  dsimp only
  rw [if_pos hr, hranges, List.foldl_nil, State.execEntry, State.entryEcc, hread]
  simp only [hb, Bool.false_eq_true, if_false]

theorem markersDrain : Claims.MarkersDrain := by
  refine ⟨fun s core i e m hi hb hr => drainMarks hi hb hr, fun s t len ht hst => ?_⟩
  refine ⟨rfl, ?_, modTh_entryDone hst fun _ => rfl, modTh_entryDone hst fun _ => rfl, rfl, fun d => ?_, fun k b => ?_⟩
  · rw [State.drainMark]
    simp only [hst]
  · refine entryDone_blocked ?_
    have hd := ({ s with req := true } : State).writeDst_dstOnly t d (regsOf (s.th t) d 1) (outW (s.g + 1))
    obtain ⟨v, st, y, hself, -⟩ := hd.self
    exact (congrArg Thread.status hself).trans hst
  · intro l c st
    refine ⟨fun h => ?_, fun h m hm => ?_, fun h hfull => ?_, fun h hroom => ?_⟩
    · rw [State.drainMark]
      exact (if_pos h).trans (entryDone_blocked hst)
    · rcases hm with rfl | rfl
      · exact if_neg h
      · exact if_pos h
    · rw [State.drainMark]
      exact (if_neg (not_not.mpr h)).trans ((if_pos hfull).trans (setP_entryDone 7 false hst))
    · rw [State.drainMark]
      refine (if_neg (not_not.mpr h)).trans ((if_neg (Nat.not_le.mpr hroom)).trans ?_)
      exact setP_entryDone 7 true hst

/-! ### Periods (R290) -/

/-- A change that keeps number and life of a context. -/
theorem State.ctx_modCtx (s : State) (id id' : Word) (f : Ctx → Ctx) (hid : ∀ c, (f c).id = c.id) (hlive : ∀ c, (f c).live = c.live) :
    (s.modCtx id f).ctx id' = if id' = id ∧ (s.ctx id').live = true then f (s.ctx id') else s.ctx id' := by
  have hp : ((fun c : Ctx => decide (c.id = id' ∧ c.live = true)) ∘ fun c => if c.id = id ∧ c.live = true then f c else c) =
      fun c => decide (c.id = id' ∧ c.live = true) := by
    funext c
    simp only [Function.comp_apply]
    split <;> simp [hid, hlive]
  have hctx : (s.modCtx id f).ctx id' =
      ((s.ctxs.find? fun c => c.id = id' ∧ c.live).map fun c => if c.id = id ∧ c.live = true then f c else c).getD Ctx.blank := by
    show ((s.ctxs.map _).find? _).getD _ = _
    rw [List.find?_map, hp]
  rw [hctx, State.ctx]
  cases hf : s.ctxs.find? fun c => c.id = id' ∧ c.live with
  | none => simp [Ctx.blank]
  | some c =>
    have hc : c.id = id' ∧ c.live = true := by simpa using List.find?_some hf
    simp [hc.1, hc.2]

/-- A block goes back to its pool on a logical die. -/
def giveBack (die : Nat) (s : State) (e : LeesEntry) : State := s.modCtx e.ctx fun c => c.setBlock e.pool die e.blk none

/-- Block i of pool k on logical die l is given back by one of the entries of that die. -/
def GivenBack (es : List LeesEntry) (die : Nat) (id : Word) (k l i : Nat) : Prop :=
  die = l ∧ ∃ e ∈ es, e.ctx = id ∧ e.pool = k ∧ e.blk = i

/-- Only the contexts' blocks may differ, and they differ at the places named: there they are free. -/
structure Returned (s u : State) (at_ : Word → Nat → Nat → Nat → Prop) : Prop where
  only : u = { s with ctxs := u.ctxs, dies := u.dies }
  live : ∀ id, (s.ctx id).live = true → (u.ctx id).live = true
  back : ∀ id k l i, (s.ctx id).live = true → at_ id k l i → (u.ctx id).block k l i = none
  kept : ∀ id k l i, (s.ctx id).live = true → ¬at_ id k l i → (u.ctx id).block k l i = (s.ctx id).block k l i

theorem Returned.refl (s : State) : Returned s s fun _ _ _ _ => False :=
  ⟨rfl, fun _ h => h, fun _ _ _ _ _ h => h.elim, fun _ _ _ _ _ _ => rfl⟩

theorem Returned.trans {s u v : State} {p q : Word → Nat → Nat → Nat → Prop} (h : Returned s u p) (g : Returned u v q) :
    Returned s v fun id k l i => p id k l i ∨ q id k l i := by
  refine ⟨by rw [g.only, h.only], fun id hl => g.live id (h.live id hl), fun id k l i hl hb => ?_, fun id k l i hl hn => ?_⟩
  · by_cases hq : q id k l i
    · exact g.back id k l i (h.live id hl) hq
    · rw [g.kept id k l i (h.live id hl) hq]
      exact h.back id k l i hl (hb.resolve_right hq)
  · rw [not_or] at hn
    rw [g.kept id k l i (h.live id hl) hn.2, h.kept id k l i hl hn.1]

theorem Returned.of_iff {s u : State} {p q : Word → Nat → Nat → Nat → Prop} (h : Returned s u p) (hpq : ∀ id k l i, p id k l i ↔ q id k l i) :
    Returned s u q :=
  ⟨h.only, h.live, fun id k l i hl hb => h.back id k l i hl ((hpq id k l i).mpr hb),
    fun id k l i hl hn => h.kept id k l i hl fun hp => hn ((hpq id k l i).mp hp)⟩

theorem giveBack_returned (die : Nat) (s : State) (e : LeesEntry) :
    Returned s (giveBack die s e) fun id k l i => GivenBack [e] die id k l i := by
  have hctx (id : Word) := s.ctx_modCtx e.ctx id (fun c => c.setBlock e.pool die e.blk none) (fun _ => rfl) fun _ => rfl
  refine ⟨rfl, fun id hl => ?_, fun id k l i hl hb => ?_, fun id k l i hl hn => ?_⟩
  · rw [giveBack, hctx]
    split
    · exact hl
    · exact hl
  · obtain ⟨rfl, e', he, rfl, rfl, rfl⟩ := hb
    obtain rfl := List.mem_singleton.mp he
    rw [giveBack, hctx, if_pos ⟨rfl, hl⟩, Ctx.block_setBlock_self]
  · rw [giveBack, hctx]
    split
    · next h =>
      refine Ctx.block_setBlock_other _ _ fun heq => hn ?_
      obtain ⟨rfl, rfl, rfl⟩ : k = e.pool ∧ l = die ∧ i = e.blk := by simpa using heq
      exact ⟨rfl, e, List.mem_singleton.mpr rfl, h.1.symm, rfl, rfl⟩
    · rfl

theorem foldl_giveBack_returned (die : Nat) : ∀ (es : List LeesEntry) (s : State),
    Returned s (es.foldl (giveBack die) s) fun id k l i => GivenBack es die id k l i
  | [], s => (Returned.refl s).of_iff fun id k l i => by simp [GivenBack]
  | e :: es, s => ((giveBack_returned die s e).trans (foldl_giveBack_returned die es _)).of_iff fun id k l i => by
    simp [GivenBack, ← and_or_left]

theorem foldl_giveBack_dies (die : Nat) : ∀ (es : List LeesEntry) (s : State), (es.foldl (giveBack die) s).dies = s.dies
  | [], _ => rfl
  | _ :: es, _ => foldl_giveBack_dies die es _

/-- The entries of a die whose ticket is this period's. -/
def dueBack (s : State) (d : Nat) : List LeesEntry := (s.die d).lees.filter fun (e : LeesEntry) => e.ticket = s.g

/-- The logical die that stands on a physical one. -/
def ldieAt (s : State) (d : Nat) : Nat := (s.place.findIdx? fun p => p = d).getD 8

theorem returnLees_eq (s : State) (d : Nat) : s.returnLees d = ((dueBack s d).foldl (giveBack (ldieAt s d)) s).modDie d fun x =>
    { x with lees := x.lees.filter fun (e : LeesEntry) => e.ticket ≠ s.g } := rfl

/-- After the first n dies have returned their blocks. -/
structure Drained (s u : State) (n : Nat) : Prop where
  returned : Returned s u fun id k l i => ∃ d, d < n ∧ GivenBack (dueBack s d) (ldieAt s d) id k l i
  dies : u.dies.length = s.dies.length
  lees : ∀ d, d < s.dies.length →
    (u.die d).lees = if d < n then (s.die d).lees.filter fun (e : LeesEntry) => e.ticket ≠ s.g else (s.die d).lees
  mem : ∀ d, (u.die d).mem = (s.die d).mem

theorem drained_returnLees (s : State) : ∀ n, n ≤ s.dies.length → Drained s ((List.range n).foldl State.returnLees s) n
  | 0, _ => ⟨(Returned.refl s).of_iff fun _ _ _ _ => by simp, rfl, fun d _ => by simp, fun _ => rfl⟩
  | n + 1, hn => by
    obtain ⟨hret, hlen, hlees, hmem⟩ := drained_returnLees s n (Nat.le_of_succ_le hn)
    rw [List.range_succ, List.foldl_append, List.foldl_cons, List.foldl_nil]
    set u := (List.range n).foldl State.returnLees s with hu
    have hg : u.g = s.g := by rw [hret.only]
    have hplace : ldieAt u n = ldieAt s n := by rw [hret.only]; rfl
    have hdue : dueBack u n = dueBack s n := by
      rw [dueBack, dueBack, hlees n hn, if_neg (Nat.lt_irrefl n), hg]
    have hback := foldl_giveBack_returned (ldieAt s n) (dueBack s n) u
    set w := (dueBack s n).foldl (giveBack (ldieAt s n)) u with hw
    have hdie (d : Nat) : w.die d = u.die d := by rw [State.die, foldl_giveBack_dies]; rfl
    have hdies : w.dies.length = s.dies.length := by rw [foldl_giveBack_dies, hlen]
    rw [returnLees_eq, hplace, hdue, ← hw, hg]
    refine ⟨⟨?_, (hret.trans hback).live, fun id k l i hl hb => ?_, fun id k l i hl hn' => ?_⟩, ?_, fun d hd => ?_, fun d => ?_⟩
    · rw [State.modDie, (hret.trans hback).only]
    · refine (hret.trans hback).back id k l i hl ?_
      obtain ⟨d, hd, hb⟩ := hb
      rcases Nat.lt_succ_iff_lt_or_eq.mp hd with h | rfl
      · exact .inl ⟨d, h, hb⟩
      · exact .inr hb
    · refine (hret.trans hback).kept id k l i hl fun h => hn' ?_
      rcases h with ⟨d, hd, hb⟩ | hb
      · exact ⟨d, Nat.lt_succ_of_lt hd, hb⟩
      · exact ⟨n, Nat.lt_succ_self n, hb⟩
    · simpa using hdies
    · rw [State.die_modDie, hdie, hdie]
      by_cases hdn : n = d
      · subst hdn
        rw [if_pos ⟨rfl, by rw [hdies]; exact hd⟩, if_pos (Nat.lt_succ_self n), hlees n hd, if_neg (Nat.lt_irrefl n)]
      · rw [if_neg fun h => hdn h.1, hlees d hd]
        exact if_congr (by omega) rfl rfl
    · rw [State.die_modDie, hdie, hdie]
      split
      · next h => rw [← h.1]; exact hmem n
      · exact hmem d

theorem gracePeriods : Claims.GracePeriods := by
  intro s
  refine ⟨fun hg hr => ⟨_, congrArg Host.Outcome.next (if_pos ⟨hg, hr⟩), rfl, rfl, rfl, fun k hk => ?_, rfl, rfl⟩,
    fun h => congrArg Host.Outcome.next (if_neg h), fun hg hno => ?_, fun ⟨x, hx, hh⟩ => ?_⟩
  · obtain ⟨k', -, rfl⟩ := List.mem_map.mp hk
    rfl
  · obtain ⟨hret, hlen, hlees, hmem⟩ := drained_returnLees s s.dies.length (Nat.le_refl _)
    have hany : ¬(s.threads.any (holdsPeriod s) = true) := by
      rw [List.any_eq_true]
      rintro ⟨x, hx, hh⟩
      rw [hno x hx] at hh
      cases hh
    have hthreads : ((List.range s.dies.length).foldl State.returnLees s).threads = s.threads := by rw [hret.only]
    have hcores : ((List.range s.dies.length).foldl State.returnLees s).cores = s.cores := by rw [hret.only]
    refine ⟨_, congrArg Host.Outcome.next (if_pos ⟨hg, hany⟩), rfl, by rw [hret.only], hthreads, by rw [hret.only],
      ⟨fun d a => congrArg (fun m => Memory.read1 m a) (hmem d), fun c sp a => ?_⟩, fun d hd => (hlees d hd).trans (if_pos hd),
      fun id k l i hl => ?_⟩
    · exact congrArg (fun l : List CoreSt => Memory.read1 ((l.getD c CoreSt.blank).buf sp) a) hcores
    · have hiff : (∃ d, d < s.dies.length ∧ (s.place.findIdx? fun p => p = d).getD 8 = l ∧
          ∃ e ∈ (s.die d).lees, e.ticket = s.g ∧ e.ctx = id ∧ e.pool = k ∧ e.blk = i) ↔
          ∃ d, d < s.dies.length ∧ GivenBack (dueBack s d) (ldieAt s d) id k l i := by
        simp only [GivenBack, dueBack, ldieAt, List.mem_filter, decide_eq_true_eq, and_assoc]
      exact ⟨fun hb => hret.back id k l i hl (hiff.mp hb), fun hb => hret.kept id k l i hl fun h => hb (hiff.mpr h)⟩
  · refine congrArg Host.Outcome.next (if_neg fun h => h.2 ?_)
    exact List.any_eq_true.mpr ⟨x, hx, hh⟩

/-- Settles O27: BEGIN and END of a period, and what the markers do when they drain. -/
theorem gracePeriodSteps : Obligations.GracePeriodSteps := ⟨gracePeriods, markersDrain⟩

end Sys2Proof.Machine
end

section
/-! PROOF. The lattice engine: phases (O35), the pager (O38), reductions (O37), cells and their messages (O36). -/

namespace Sys2Proof.Machine

/-! ### Phases (R185, R187, R191) -/

theorem cellCheck_none {s : State} {t : Nat} (h : (s.th t).cell = none) (rest : Check) : cellCheck s t [] rest = trapHere s t 2 0x102 := by
  simp [cellCheck, h]

theorem cellCheck_some {s : State} {t c : Nat} (h : (s.th t).cell = some c) (rest : Check) : cellCheck s t [] rest = rest := by
  simp [cellCheck, h]

theorem runPhase_cell {s : State} {t c : Nat} {x : Option Ext} (r : Bool) (hl : Lone s t x) (hd : (s.th t).depth = 0)
    (hc : (s.th t).cell = some c) :
    runPhase r x s = .next (if phaseReady s c then s.finishPhase c r (extLen x)
      else s.setStatus t (.blocked (.phase r (extLen x)))) := by
  refine congrArg Host.Outcome.next ((runPlain_lone hl ?_).trans ?_)
  · rw [cellCheck_some hc, hd]
    simp
  · simp only [hc, Option.getD_some]

theorem phases : Claims.Phases := by
  intro s t c x hl hd
  refine ⟨fun hc => ⟨fun hr => ⟨?_, ?_⟩, fun hr => ⟨?_, ?_⟩⟩, fun hc i hi => ?_⟩
  · exact (runPhase_cell false hl hd hc).trans (congrArg Host.Outcome.next (if_pos hr))
  · exact (runPhase_cell true hl hd hc).trans (congrArg Host.Outcome.next (if_pos hr))
  · exact (runPhase_cell false hl hd hc).trans (congrArg Host.Outcome.next (if_neg (by rw [hr]; decide)))
  · exact (runPhase_cell true hl hd hc).trans (congrArg Host.Outcome.next (if_neg (by rw [hr]; decide)))
  · rcases hi with rfl | rfl
    · exact congrArg Host.Outcome.next (runLanes_lone_trap hl (cellCheck_none hc _))
    · exact congrArg Host.Outcome.next (runLanes_lone_trap hl (cellCheck_none hc _))

theorem execPhaseEnd_blocked {s : State} {c len : Nat} {r : Bool} (h : (s.th (s.cl c).tid).status = .blocked (.phase r len)) :
    exec (.phaseEnd c) s = .next (if c < s.cells.length && (s.co (s.cl c).core).resident && phaseReady s c
      then s.finishPhase c r len else s) := by
  refine congrArg Host.Outcome.next ?_
  simp only [h]

theorem phaseEnds : Claims.PhaseEnds := by
  intro s c len r hst hc
  refine ⟨fun hp hres => ?_, fun hno => ?_⟩
  · rw [execPhaseEnd_blocked hst, if_pos (by simp [hc, hp, hres])]
  · rw [execPhaseEnd_blocked hst, if_neg (by rcases hno with h | h <;> simp [h])]

/-- What the end of a phase does to its cell. -/
def Cell.publish (xs : List Word) (y : Cell) : Cell :=
  { y with pubs := (y.q + 1, xs) :: y.pubs, q := y.q + 1, leaves := (y.q, y.leaf) :: y.leaves, leaf := none }

theorem endPhase_routesOnly (s : State) (c : Nat) :
    RoutesOnly (s.modCl c (Cell.publish (s.th (s.cl c).tid).x)) (s.endPhase c) := sendFaces_only _ _ _ _

theorem phasePublishes : Claims.PhasePublishes := by
  intro s c hc u
  have hu := endPhase_routesOnly s c
  have hcl (k : Nat) : u.cl k = (s.modCl c (Cell.publish (s.th (s.cl c).tid).x)).cl k := by
    rw [show u = _ from hu]
    rfl
  have hself : u.cl c = Cell.publish (s.th (s.cl c).tid).x (s.cl c) := by rw [hcl, State.cl_modCl_self _ _ _ hc]
  refine ⟨by rw [hself]; rfl, by rw [hself]; rfl, by rw [hself]; rfl, ?_, ?_, ?_, fun k hk => ?_⟩
  · rw [show u = _ from hu]; rfl
  · rw [show u = _ from hu]; rfl
  · rw [show u = _ from hu]; rfl
  · rw [hcl, State.cl_modCl, if_neg fun h => hk h.1.symm]

/-- Settles O35: `phase` and `phase.retire`, PHASE_END, and what the end of a phase publishes. -/
theorem phasesOfCells : Obligations.PhasesOfCells := ⟨phases, phaseEnds, phasePublishes⟩

/-! ### The pager (R199 to R201) -/

/-- The best cell of a list is one of its cells, and no other is better, where "not better the other way" is transitive. -/
theorem bestCell_spec {better : Cell → Cell → Bool} (htrans : ∀ a b c, better b a = false → better c b = false → better c a = false)
    (hrefl : ∀ a, better a a = false) (hasymm : ∀ a b, better a b = true → better b a = false) :
    ∀ {l : List Cell} {c : Cell}, bestCell better l = some c → c ∈ l ∧ ∀ x ∈ l, better x c = false
  | [], _, h => by cases h
  | a :: l, c, h => by
    unfold bestCell at h
    cases hb : bestCell better l with
    | none =>
      have hl : l = [] := by
        cases l with
        | nil => rfl
        | cons b l =>
          unfold bestCell at hb
          split at hb
          · cases hb
          · split at hb <;> cases hb
      rw [hb] at h
      cases h
      subst hl
      exact ⟨List.mem_singleton.mpr rfl, fun x hx => by rw [List.mem_singleton.mp hx]; exact hrefl _⟩
    | some d =>
      obtain ⟨hd, hbest⟩ := bestCell_spec htrans hrefl hasymm hb
      rw [hb] at h
      dsimp only at h
      split at h
      · next hlt =>
        cases h
        refine ⟨List.mem_cons_self, fun x hx => ?_⟩
        rcases List.mem_cons.mp hx with rfl | hx
        · exact hrefl _
        · exact htrans _ _ _ (hasymm _ _ hlt) (hbest x hx)
      · next hge =>
        cases h
        refine ⟨List.mem_cons_of_mem _ hd, fun x hx => ?_⟩
        rcases List.mem_cons.mp hx with rfl | hx
        · exact Bool.eq_false_iff.mpr hge
        · exact hbest x hx

theorem bestCell_eq_none {better : Cell → Cell → Bool} : ∀ {l : List Cell}, bestCell better l = none → l = []
  | [], _ => rfl
  | a :: l, h => by
    unfold bestCell at h
    split at h
    · cases h
    · split at h <;> cases h

theorem pagesFirst_eq_false (a c : Cell) : pagesFirst a c = false ↔ c.q < a.q ∨ (c.q = a.q ∧ c.ell ≤ a.ell) := by
  simp only [pagesFirst, Bool.or_eq_false_iff, decide_eq_false_iff_not, Bool.and_eq_false_iff]
  omega

/-- The first by phase, then index. -/
theorem bestCell_first {l : List Cell} {c : Cell} (h : bestCell pagesFirst l = some c) :
    c ∈ l ∧ ∀ x ∈ l, c.q < x.q ∨ (c.q = x.q ∧ c.ell ≤ x.ell) := by
  obtain ⟨hc, hbest⟩ := bestCell_spec (fun a b c hab hbc => by rw [pagesFirst_eq_false] at *; omega)
    (fun a => (pagesFirst_eq_false a a).mpr (by omega))
    (fun a b hab => by
      rw [pagesFirst_eq_false]
      have hn : ¬pagesFirst a b = false := by rw [hab]; decide
      rw [pagesFirst_eq_false] at hn
      omega) h
  exact ⟨hc, fun x hx => (pagesFirst_eq_false x c).mp (hbest x hx)⟩

/-- The last by phase, then index. -/
theorem bestCell_last {l : List Cell} {v : Cell} (h : bestCell (fun a b => pagesFirst b a) l = some v) :
    v ∈ l ∧ ∀ x ∈ l, x.q < v.q ∨ (x.q = v.q ∧ x.ell ≤ v.ell) := by
  obtain ⟨hc, hbest⟩ := bestCell_spec (better := fun a b => pagesFirst b a)
    (fun a b c hab hbc => by rw [pagesFirst_eq_false] at *; omega)
    (fun a => (pagesFirst_eq_false a a).mpr (by omega))
    (fun a b hab => by
      rw [pagesFirst_eq_false]
      have hn : ¬pagesFirst b a = false := by rw [hab]; decide
      rw [pagesFirst_eq_false] at hn
      omega) h
  exact ⟨hc, fun x hx => (pagesFirst_eq_false v x).mp (hbest x hx)⟩

section
variable {s : State} {core l : Nat} {c : Cell}

theorem mem_partitionOf {x : Cell} : x ∈ partitionOf s core l ↔ x ∈ s.cells ∧ x.core = core ∧ x.launch = l := by
  simp [partitionOf]

theorem nextIn_spec (h : nextIn s core l = some c) : (c ∈ s.cells ∧ c.core = core ∧ c.launch = l) ∧ c.resident = false ∧
    runnable s c = true ∧ ∀ x, (x ∈ s.cells ∧ x.core = core ∧ x.launch = l) → x.resident = false → runnable s x = true →
      c.q < x.q ∨ (c.q = x.q ∧ c.ell ≤ x.ell) := by
  obtain ⟨hc, hbest⟩ := bestCell_first h
  obtain ⟨hpart, hready⟩ := List.mem_filter.mp hc
  have hready : c.resident = false ∧ runnable s c = true := by simpa using hready
  exact ⟨mem_partitionOf.mp hpart, hready.1, hready.2,
    fun x hx hr hrun => hbest x (List.mem_filter.mpr ⟨mem_partitionOf.mpr hx, by simp [hr, hrun]⟩)⟩

theorem mem_residents {x : Cell} : x ∈ residents s core l ↔ (x ∈ s.cells ∧ x.core = core ∧ x.launch = l) ∧ x.resident = true := by
  rw [residents, List.mem_filter, mem_partitionOf]

/-- The cell is blocked in `phase`. -/
def blockedInPhase (s : State) (x : Cell) : Bool := match (s.th x.tid).status with | .blocked (.phase _ _) => true | _ => false

theorem blockedInPhase_iff {x : Cell} : blockedInPhase s x = true ↔ ∃ r n, (s.th x.tid).status = .blocked (.phase r n) := by
  unfold blockedInPhase
  split
  · next r n h => exact ⟨fun _ => ⟨r, n, h⟩, fun _ => rfl⟩
  · next h => exact ⟨nofun, fun ⟨r, n, hst⟩ => (h r n hst).elim⟩

/-- The victim, where a resident cell is blocked in `phase`, and where none is. -/
theorem victim_spec {v : Cell} (h : victim s core l c = some v) :
    let here (x : Cell) : Prop := x ∈ s.cells ∧ x.core = core ∧ x.launch = l
    let upTo (x y : Cell) : Prop := x.q < y.q ∨ (x.q = y.q ∧ x.ell ≤ y.ell)
    (here v ∧ v.resident = true) ∧
    ((∃ x, here x ∧ x.resident = true ∧ blockedInPhase s x = true) →
      blockedInPhase s v = true ∧ ∀ x, here x → x.resident = true → blockedInPhase s x = true → upTo x v) ∧
    (¬(∃ x, here x ∧ x.resident = true ∧ blockedInPhase s x = true) →
      c.q < v.q ∧ ∀ x, here x → x.resident = true → c.q < x.q → upTo x v) := by
  intro here upTo
  have h : (bestCell (fun a b => pagesFirst b a) ((residents s core l).filter (blockedInPhase s))).or
      (bestCell (fun a b => pagesFirst b a) ((residents s core l).filter fun x => c.q < x.q)) = some v := h
  cases hb : bestCell (fun a b => pagesFirst b a) ((residents s core l).filter (blockedInPhase s)) with
  | some w =>
    rw [hb, Option.some_or] at h
    cases h
    obtain ⟨hv, hbest⟩ := bestCell_last hb
    obtain ⟨hres, hph⟩ := List.mem_filter.mp hv
    obtain ⟨hhere, hr⟩ := mem_residents.mp hres
    exact ⟨⟨hhere, hr⟩, fun _ => ⟨hph, fun x hx hxr hxp => hbest x (List.mem_filter.mpr ⟨mem_residents.mpr ⟨hx, hxr⟩, hxp⟩)⟩,
      fun hno => (hno ⟨_, hhere, hr, hph⟩).elim⟩
  | none =>
    rw [hb, Option.none_or] at h
    have hnil := bestCell_eq_none hb
    obtain ⟨hv, hbest⟩ := bestCell_last h
    obtain ⟨hres, hq⟩ := List.mem_filter.mp hv
    obtain ⟨hhere, hr⟩ := mem_residents.mp hres
    refine ⟨⟨hhere, hr⟩, fun ⟨x, hx, hxr, hxp⟩ => ?_, fun _ => ⟨of_decide_eq_true hq, fun x hx hxr hxq =>
      hbest x (List.mem_filter.mpr ⟨mem_residents.mpr ⟨hx, hxr⟩, decide_eq_true hxq⟩)⟩⟩
    have hmem : x ∈ (residents s core l).filter (blockedInPhase s) := List.mem_filter.mpr ⟨mem_residents.mpr ⟨hx, hxr⟩, hxp⟩
    rw [hnil] at hmem
    cases hmem

/-- The lowest lane slot that no thread of the core holds. -/
theorem freeLane_spec (s : State) (core : Nat) :
    (∀ k, k < freeLane s core → ∃ t, t < s.threads.length ∧ holdsSlot s core t = true ∧ (s.th t).slot = k) ∧
    ∀ t, t < s.threads.length → holdsSlot s core t = true → (s.th t).slot ≠ freeLane s core := by
  have hused (n : Nat) : n ∈ ((List.range s.threads.length).filter (holdsSlot s core)).map (fun t => (s.th t).slot) ↔
      ∃ t, t < s.threads.length ∧ holdsSlot s core t = true ∧ (s.th t).slot = n := by
    simp [and_assoc]
  unfold freeLane
  dsimp only
  generalize ((List.range s.threads.length).filter (holdsSlot s core)).map (fun t => (s.th t).slot) = used at hused
  cases hf : (List.range (used.length + 1)).find? fun n => !used.contains n with
  | none =>
    have hsub : List.range (used.length + 1) ⊆ used := fun n hn => by
      simpa using List.find?_eq_none.mp hf n hn
    have hlen := (List.subperm_of_subset List.nodup_range hsub).length_le
    rw [List.length_range] at hlen
    omega
  | some n =>
    obtain ⟨hn, -, hbelow⟩ := List.find?_range_eq_some.mp hf
    refine ⟨fun k hk => (hused k).mp (by simpa using hbelow k hk), fun t ht hh hs => ?_⟩
    · have := (hused n).mpr ⟨t, ht, hh, hs⟩
      simp [this] at hn

end

/-- The pager's room: the grant of the partition, and a slot. -/
theorem pagerRoom_iff {s : State} {core l : Nat} {c : Cell} : pagerRoom s core l c = true ↔
    (s.cells.filter fun x => x.core = core && x.launch = l && holdsSlot s core x.tid).length < (s.la l).grant ∧
      slotFree s core (s.th c.tid).v.length = true := by
  rw [pagerRoom, partitionOf, List.filter_filter, Bool.and_eq_true, decide_eq_true_eq]
  simp only [Bool.and_comm, Bool.and_assoc]

theorem execPagerFill_eq {s : State} {core l : Nat} {c : Cell} (hp : partitionOn s core l = true) (hr : (s.co core).resident = true)
    (hn : nextIn s core l = some c) :
    exec (.pagerFill ⟨core, l⟩) s = .next (if pagerRoom s core l c then s.swapIn c else s) := by
  refine congrArg Host.Outcome.next ?_
  simp only [hn, hr, hp, Bool.true_and]

theorem execPagerExchange_room {s : State} {core l : Nat} {c : Cell} (hn : nextIn s core l = some c)
    (hroom : pagerRoom s core l c = true) : exec (.pagerExchange ⟨core, l⟩) s = .next s := by
  refine congrArg Host.Outcome.next ?_
  simp only [hn, hroom, Bool.not_true, Bool.and_false, Bool.false_eq_true, if_false]

theorem execPagerExchange_victim {s : State} {core l : Nat} {c : Cell} (hp : partitionOn s core l = true)
    (hr : (s.co core).resident = true) (hn : nextIn s core l = some c) (hroom : pagerRoom s core l c = false) :
    exec (.pagerExchange ⟨core, l⟩) s = .next (match victim s core l c with
      | some v => if swapReady s v then (s.swapOut v).swapIn c else s
      | none => s) := by
  refine congrArg Host.Outcome.next ?_
  simp only [hn, hr, hp, hroom, Bool.true_and, Bool.not_false, if_true] <;> rfl

theorem touchWrites_only (s : State) : ∀ sites : List (Place × Nat × Nat),
    s.touchWrites sites = { s with errinj := (s.touchWrites sites).errinj, planted := (s.touchWrites sites).planted } := by
  intro sites
  refine foldl_keeps (P := fun s u => u = { s with errinj := u.errinj, planted := u.planted }) (fun _ => rfl)
    (fun s u v h k => by rw [k, h]) (fun s x => ?_) sites s
  split
  · exact s.eccWrite_only _ _ _
  · exact s.eccWrite_only _ _ _

/-- A thread that has a cell is in the table. -/
theorem inRange_of_cell {s : State} {t i : Nat} (h : (s.th t).cell = some i) : t < s.threads.length := by
  by_contra hge
  rw [State.th, List.getD_eq_default _ _ (Nat.not_lt.mp hge)] at h
  cases h

theorem swapIn_clean {s : State} {c : Cell} (h : s.planted = []) :
    s.swapIn c = ((s.modCl ((s.th c.tid).cell.getD 0) fun x => { x with resident := true }).modTh c.tid fun x =>
      { x with slot := freeLane s c.core }).modWp (s.th c.tid).warp fun w =>
        { w with pipe := freeLane s c.core / 64 % 4, col := freeLane s c.core % 64 } := by
  simp only [State.swapIn, State.readsEcc_clean _ _ h, Bool.false_eq_true, if_false]

theorem pager : Claims.Pager := by
  refine ⟨fun s core l c hp hres hnext => ?_, fun s c i hi hlt => ⟨fun hpl => ?_, ?_⟩⟩
  · intro here inPhase upTo room
    have hfill := execPagerFill_eq hp hres hnext
    have hno (h : ¬room) : pagerRoom s core l c = false := Bool.eq_false_iff.mpr fun hr => h (pagerRoom_iff.mp hr)
    refine ⟨nextIn_spec hnext, fun hroom => ?_, fun hroom => ⟨?_, fun hv => ?_, fun v hv => ?_⟩⟩
    · have hr := pagerRoom_iff.mpr hroom
      exact ⟨hfill.trans (by rw [if_pos hr]), execPagerExchange_room hnext hr⟩
    · exact hfill.trans (by rw [hno hroom]; rfl)
    · rw [execPagerExchange_victim hp hres hnext (hno hroom), hv]
    · obtain ⟨hhere, hin, hout⟩ := victim_spec hv
      simp only [blockedInPhase_iff] at hin hout
      refine ⟨hhere, hin, hout, fun hr => ?_, fun hr => ?_⟩
      · rw [execPagerExchange_victim hp hres hnext (hno hroom), hv]
        exact congrArg Host.Outcome.next (if_pos hr)
      · rw [execPagerExchange_victim hp hres hnext (hno hroom), hv]
        exact congrArg Host.Outcome.next (if_neg (by rw [hr]; decide))
  · intro u n
    have ht := inRange_of_cell hi
    have hu := swapIn_clean (c := c) hpl
    rw [hi, Option.getD_some] at hu
    have hth : u.th c.tid = { s.th c.tid with slot := n } := by
      rw [show u = _ from hu]
      exact State.th_modTh_self _ _ _ ht
    refine ⟨?_, fun k hk => ?_, hth, fun k hk => ?_, by rw [show u = _ from hu]; rfl, by rw [show u = _ from hu]; rfl, fun hw => ?_,
      (freeLane_spec s c.core).1, (freeLane_spec s c.core).2⟩
    · rw [show u = _ from hu]
      exact State.cl_modCl_self _ _ _ hlt
    · rw [show u = _ from hu]
      exact (State.cl_modCl s i k _).trans (if_neg fun h => hk h.1.symm)
    · rw [show u = _ from hu]
      exact (State.th_modTh _ _ _ _).trans (if_neg fun h => hk h.1.symm)
    · have hwp : u.wpOf c.tid = { s.wp (s.th c.tid).warp with pipe := n / 64 % 4, col := n % 64 } := by
        rw [State.wpOf, hth, show u = _ from hu]
        exact State.wp_modWp_self _ _ _ hw
      rw [hwp]
      exact ⟨rfl, rfl⟩
  · intro u
    have hu := touchWrites_only (s.modCl ((s.th c.tid).cell.getD 0) fun x => { x with resident := false }) (s.cellarSite c)
    have hcl (k : Nat) : u.cl k = (s.modCl i fun x => { x with resident := false }).cl k := by
      rw [show u = _ from hu, hi]
      rfl
    refine ⟨by rw [hcl, State.cl_modCl_self _ _ _ hlt], fun k hk => ?_, ?_, ?_, ?_, ?_⟩
    · rw [hcl, State.cl_modCl, if_neg fun h => hk h.1.symm]
    · rw [show u = _ from hu]; rfl
    · rw [show u = _ from hu]; rfl
    · rw [show u = _ from hu]; rfl
    · rw [show u = _ from hu]; rfl

/-- Settles O38: which cell the pager brings in, which it gives up, and what a swap leaves. -/
theorem pagerPlacesCells : Obligations.PagerPlacesCells := pager

/-! ### Reductions over a phase (R194, R195) -/

/-- Words of a value of this operator. -/
def leafLength (f : LredOp) : Nat := if f = .mt then 3 else 1

/-- A combination of leaves exists when one of them does, and has the operator's length when they have. -/
theorem combLeaf_some (f : LredOp) (a c : Option (List Word)) :
    ((combLeaf f a c).isSome = (a.isSome || c.isSome)) ∧
    ((∀ ws, a = some ws → ws.length = leafLength f) → (∀ ws, c = some ws → ws.length = leafLength f) →
      ∀ ws, combLeaf f a c = some ws → ws.length = leafLength f) := by
  cases a with
  | none => exact ⟨by simp [combLeaf], fun _ hc => hc⟩
  | some x =>
    cases c with
    | none => exact ⟨by simp [combLeaf], fun ha _ => ha⟩
    | some y =>
      refine ⟨by simp [combLeaf], fun _ _ ws h => ?_⟩
      obtain rfl := Option.some.inj h
      cases f <;> rfl

theorem pairUp_length (f : LredOp) : ∀ l, 2 * (pairUp f l).length ≤ l.length + 1
  | [] => by simp [pairUp]
  | [_] => by simp [pairUp]
  | a :: c :: l => by
    have ih := pairUp_length f l
    rw [pairUp, List.length_cons, List.length_cons, List.length_cons]
    omega

theorem pairUp_any (f : LredOp) : ∀ l, (pairUp f l).any Option.isSome = l.any Option.isSome
  | [] => rfl
  | [_] => rfl
  | a :: c :: l => by
    rw [pairUp, List.any_cons, List.any_cons, List.any_cons, pairUp_any f l, (combLeaf_some f a c).1, Bool.or_assoc]

theorem pairUp_lengths (f : LredOp) : ∀ l, (∀ ws, some ws ∈ l → ws.length = leafLength f) →
    ∀ ws, some ws ∈ pairUp f l → ws.length = leafLength f
  | [], h => h
  | [_], h => h
  | a :: c :: l, h => by
    intro ws hws
    rw [pairUp] at hws
    rcases List.mem_cons.mp hws with hw | hw
    · exact (combLeaf_some f a c).2 (fun ws ha => h ws (ha ▸ List.mem_cons_self))
        (fun ws hc => h ws (hc ▸ List.mem_cons_of_mem _ List.mem_cons_self)) ws hw.symm
    · exact pairUp_lengths f l (fun ws hl => h ws (List.mem_cons_of_mem _ (List.mem_cons_of_mem _ hl))) ws hw

/-- A list of at most one leaf. -/
theorem headD_some {f : LredOp} {l : List (Option (List Word))} (hlen : l.length ≤ 1) (hany : l.any Option.isSome = true)
    (hl : ∀ ws, some ws ∈ l → ws.length = leafLength f) : ∃ r, l.headD none = some r ∧ r.length = leafLength f := by
  match l with
  | [] => cases hany
  | [none] => cases hany
  | [some r] => exact ⟨r, rfl, hl r List.mem_cons_self⟩
  | _ :: _ :: _ => simp at hlen

/-- The tree of leaves, one of which is present, has a value, of the operator's length. -/
theorem treeRed_some (f : LredOp) : ∀ (n : Nat) (l : List (Option (List Word))), l.length ≤ n + 1 → l.any Option.isSome = true →
    (∀ ws, some ws ∈ l → ws.length = leafLength f) → ∃ r, treeRed f n l = some r ∧ r.length = leafLength f
  | 0, _, hlen, hany, hl => headD_some hlen hany hl
  | n + 1, l, hlen, hany, hl => by
    rw [treeRed]
    split
    · next h => exact headD_some h hany hl
    · have hp := pairUp_length f l
      exact treeRed_some f n _ (by omega) (by rw [pairUp_any]; exact hany) (pairUp_lengths f l hl)

theorem reductionTree : Claims.ReductionTree := by
  intro a b c d f hf op
  have hcomb (x y : Word) : combLeaf f (some [x]) (some [y]) = some [op x y] := by
    cases f with
    | mt => exact absurd rfl hf
    | _ => rfl
  have hright (x : Option (List Word)) : combLeaf f x none = x := by cases x <;> rfl
  refine ⟨?_, ?_, ?_⟩
  · simp [treeRed, pairUp, hcomb]
  · simp [treeRed, pairUp, hcomb, hright]
  · simp [treeRed, pairUp, hcomb]

/-- A contributing cell receives the result of phase q. -/
def giveLred (q : Nat) (r : List Word) (s : State) (c : Cell) : State :=
  match (s.th c.tid).lred.find? fun w => w.q = q with
  | some w => (s.fillRegs c.tid w.dst r .raw).modTh c.tid fun x => { x with lred := x.lred.filter fun w => w.q ≠ q }
  | none => s

/-- A change that leaves the warp of a thread. -/
theorem State.modTh_warp {f : Thread → Thread} (hf : ∀ x, (f x).warp = x.warp) (s : State) (t n : Nat) :
    ((s.modTh t f).th n).warp = (s.th n).warp := getD_modify_proj Thread.warp hf s.threads t n _

/-- What giving a cell its result may change: registers of its thread, and its waits. -/
structure LredGiven (s u : State) (t : Nat) : Prop where
  only : u = { s with threads := u.threads, warps := u.warps }
  threads : u.threads.length = s.threads.length
  warps : u.warps.length = s.warps.length
  others : ∀ n, n ≠ t → u.th n = s.th n
  warp : ∀ n, (u.th n).warp = (s.th n).warp
  otherWarps : ∀ k, k ≠ (s.th t).warp → u.wp k = s.wp k

theorem giveLred_given (q : Nat) (r : List Word) (s : State) (c : Cell) : LredGiven s (giveLred q r s c) c.tid := by
  unfold giveLred
  split
  · next w hw =>
    have hr := State.fillRegs_regsOnly c.tid .raw w.dst r s fun _ h => h
    refine ⟨?_, by simpa using hr.threads, hr.warps, fun n hn => ?_, fun n => ?_, hr.otherWarps⟩
    · rw [State.modTh, State.fillRegs_only]
    · rw [State.th_modTh, if_neg fun h => hn h.1.symm, hr.others n hn]
    · refine (State.modTh_warp ?_ _ _ _).trans (hr.thWarps n)
      exact fun _ => rfl
  · exact ⟨rfl, rfl, rfl, fun _ _ => rfl, fun _ => rfl, fun _ _ => rfl⟩

/-- What giving results to cells leaves: all but registers and waits of their threads, and the s registers of their warps. -/
theorem foldl_giveLred (q : Nat) (r : List Word) : ∀ (l : List Cell) (s : State),
    let u := l.foldl (giveLred q r) s
    u = { s with threads := u.threads, warps := u.warps } ∧ u.threads.length = s.threads.length ∧ u.warps.length = s.warps.length ∧
    (∀ n, (∀ b ∈ l, b.tid ≠ n) → u.th n = s.th n) ∧ (∀ n, (u.th n).warp = (s.th n).warp) ∧
    ∀ k, (∀ b ∈ l, (s.th b.tid).warp ≠ k) → u.wp k = s.wp k
  | [], s => ⟨rfl, rfl, rfl, fun _ _ => rfl, fun _ => rfl, fun _ _ => rfl⟩
  | c :: l, s => by
    obtain ⟨honly, hlen, hwlen, hoth, hwarp, hwp⟩ := giveLred_given q r s c
    obtain ⟨h1, h2, h3, h4, h5, h6⟩ := foldl_giveLred q r l (giveLred q r s c)
    refine ⟨?_, h2.trans hlen, h3.trans hwlen, fun n hn => ?_, fun n => (h5 n).trans (hwarp n), fun k hk => ?_⟩
    · rw [List.foldl_cons, h1, honly]
    · exact (h4 n fun b hb => hn b (List.mem_cons_of_mem _ hb)).trans (hoth n fun h => hn c List.mem_cons_self h.symm)
    · refine (h6 k fun b hb => ?_).trans (hwp k fun h => hk c List.mem_cons_self h.symm)
      rw [hwarp]
      exact hk b (List.mem_cons_of_mem _ hb)

/-- A cell that waits has its result in its destination, and waits no longer. -/
theorem giveLred_result {q : Nat} {r : List Word} {s : State} {c : Cell} {w : LredWait} (ht : c.tid < s.threads.length)
    (hw : (s.th c.tid).lred.find? (fun w => w.q = q) = some w) :
    ((giveLred q r s c).th c.tid).lred = (s.th c.tid).lred.filter (fun w => w.q ≠ q) ∧
    (w.dst.Nodup → w.dst.length = r.length → ∀ j g, w.dst[j]? = some g → HasReg s c.tid g →
      (giveLred q r s c).RegIs c.tid g (r.getD j 0) .raw) := by
  have hgive : giveLred q r s c = (s.fillRegs c.tid w.dst r .raw).modTh c.tid fun x =>
      { x with lred := x.lred.filter fun w => w.q ≠ q } := by simp only [giveLred, hw]
  have hregs := State.fillRegs_regsOnly c.tid .raw w.dst r s fun _ h => h
  have hth : (giveLred q r s c).th c.tid = { (s.fillRegs c.tid w.dst r .raw).th c.tid with
      lred := ((s.fillRegs c.tid w.dst r .raw).th c.tid).lred.filter fun w => w.q ≠ q } := by
    rw [hgive, State.th_modTh_self _ _ _ (hregs.threads.symm ▸ ht)]
  refine ⟨?_, fun hnd hlen j g hj hg => ?_⟩
  · obtain ⟨v, hv, -⟩ := hregs.self
    rw [hth, hv]
  · have hjr : j < r.length := hlen ▸ (List.getElem?_eq_some_iff.mp hj).1
    have hrj : r[j]? = some (r.getD j 0) := by rw [List.getD_eq_getElem _ _ hjr, List.getElem?_eq_getElem hjr]
    have hreg := State.fillRegs_regIs .raw hnd ht hj hrj hg
    have hwp : (giveLred q r s c).wp = (s.fillRegs c.tid w.dst r .raw).wp := by rw [hgive]; rfl
    cases g <;> simpa only [State.RegIs, State.regVal, State.regTag, State.regFull, State.wpOf, hth, hwp] using hreg

/-- A register that a later pass does not reach holds its word still. -/
theorem State.RegIs.of_entries {s u : State} {t : Nat} {g : RegRef} {w : Word} {k : Tag} (h : s.RegIs t g w k) (hth : u.th t = s.th t)
    (hwp : ∀ n, g = .s n → u.wp (s.th t).warp = s.wp (s.th t).warp) : u.RegIs t g w k := by
  cases g with
  | v n => simpa only [State.RegIs, State.regVal, State.regTag, State.regFull, hth] using h
  | s n => simpa only [State.RegIs, State.regVal, State.regTag, State.regFull, State.wpOf, hth, hwp n rfl] using h

/-- Each waiting cell of a pass over cells of distinct threads receives the result. -/
theorem foldl_giveLred_result {q : Nat} {r : List Word} {s : State} {l : List Cell} (hnd : (l.map Cell.tid).Nodup) {c : Cell} (hc : c ∈ l)
    (ht : c.tid < s.threads.length) {w : LredWait} (hw : (s.th c.tid).lred.find? (fun w => w.q = q) = some w) :
    ((l.foldl (giveLred q r) s).th c.tid).lred = (s.th c.tid).lred.filter (fun w => w.q ≠ q) ∧
    (w.dst.Nodup → w.dst.length = r.length → ∀ j g, w.dst[j]? = some g → HasReg s c.tid g →
      (∀ n, g = .s n → ∀ b ∈ l, b.tid ≠ c.tid → (s.th b.tid).warp ≠ (s.th c.tid).warp) →
      (l.foldl (giveLred q r) s).RegIs c.tid g (r.getD j 0) .raw) := by
  obtain ⟨before, after, rfl⟩ := List.append_of_mem hc
  rw [List.map_append, List.map_cons, List.nodup_append] at hnd
  obtain ⟨-, hafter, hbefore⟩ := hnd
  have hne : ∀ b ∈ before, b.tid ≠ c.tid := fun b hb => hbefore _ (List.mem_map_of_mem hb) _ List.mem_cons_self
  have hne' : ∀ b ∈ after, b.tid ≠ c.tid := fun b hb h => (List.nodup_cons.mp hafter).1 (h ▸ List.mem_map_of_mem hb)
  rw [List.foldl_append, List.foldl_cons]
  set s1 := before.foldl (giveLred q r) s with hs1
  obtain ⟨-, hlen1, -, hoth1, hwarp1, hwp1⟩ := foldl_giveLred q r before s
  obtain ⟨-, -, -, hoth2, -, hwp2⟩ := foldl_giveLred q r after (giveLred q r s1 c)
  have hth1 : s1.th c.tid = s.th c.tid := hoth1 c.tid hne
  obtain ⟨hl, hr⟩ := giveLred_result (r := r) (hlen1.symm ▸ ht : c.tid < s1.threads.length) (by rw [hth1]; exact hw)
  have hwarp2 := (giveLred_given q r s1 c).warp
  refine ⟨by rw [hoth2 c.tid hne', hl, hth1], fun hnodup hlen j g hj hg hs => ?_⟩
  have hg1 : HasReg s1 c.tid g := by
    cases g with
    | v n => simpa only [HasReg, hth1] using hg
    | s n =>
      have hwp : s1.wp (s.th c.tid).warp = s.wp (s.th c.tid).warp :=
        hwp1 _ fun b hb => hs n rfl b (List.mem_append_left _ hb) (hne b hb)
      have hl1 : s1.warps.length = s.warps.length := (foldl_giveLred q r before s).2.2.1
      simpa only [HasReg, State.wpOf, hth1, hwp, hl1] using hg
  refine (hr hnodup hlen j g hj hg1).of_entries (hoth2 c.tid hne') fun n hn => hwp2 _ fun b hb => ?_
  rw [hwarp2, hwarp2, hwarp1, hwarp1]
  exact hs n hn b (List.mem_append_right _ (List.mem_cons_of_mem _ hb)) (hne' b hb)

/-- A thread none of whose cells waits is as before. -/
theorem foldl_giveLred_idle {q : Nat} {r : List Word} {t : Nat} : ∀ (l : List Cell) (s : State),
    (∀ c ∈ l, c.tid = t → (s.th c.tid).lred.find? (fun w => w.q = q) = none) → (l.foldl (giveLred q r) s).th t = s.th t
  | [], _, _ => rfl
  | c :: l, s, h => by
    have hth : (giveLred q r s c).th t = s.th t := by
      by_cases hc : c.tid = t
      · rw [giveLred, h c List.mem_cons_self hc]
      · exact (giveLred_given q r s c).others t fun h => hc h.symm
    refine (foldl_giveLred_idle l (giveLred q r s c) fun b hb hbt => ?_).trans hth
    rw [hbt, hth, ← hbt]
    exact h b (List.mem_cons_of_mem _ hb) hbt

theorem latticeReductions : Claims.LatticeReductions := by
  intro s l q f hst hq hl hall fs leaves mine wait hf
  have hcond : (s.la l).stage = .started ∧ (phaseLeaves s l q).all Prod.fst = true ∧ ¬((s.la l).lredDone.contains q = true) :=
    ⟨hst, List.all_eq_true.mpr hall, by simpa using hq⟩
  have hexec : exec (.lredResult l q) s = .next (if fs.any fun g => g ≠ f then s.endGrid l 4 0x4B4C0001
      else ((mine.foldl (giveLred q ((treeRed f leaves.length leaves).getD (lredIdentity f))) s).modLa l fun x =>
        { x with lredDone := q :: x.lredDone })) := by
    refine congrArg Host.Outcome.next ((if_pos hcond).trans ?_)
    simp only [show (phaseLeaves s l q).filterMap (fun x => x.2.map Prod.fst) = fs from rfl, hf, List.length_map, leaves]
    rfl
  refine ⟨fun hsame hlens hnd hin => ?_, fun ⟨g, hg, hne⟩ => ?_⟩
  · have hany : leaves.any Option.isSome = true := by
      obtain ⟨x, hx, hxf⟩ := List.mem_filterMap.mp (List.mem_of_head? hf)
      refine List.any_eq_true.mpr ⟨_, List.mem_map_of_mem hx, ?_⟩
      cases hx2 : x.2 with
      | none => rw [hx2] at hxf; cases hxf
      | some y => rfl
    obtain ⟨r, hr, hrlen⟩ := treeRed_some f leaves.length leaves (Nat.le_succ _) hany hlens
    have hno : fs.any (fun g => g ≠ f) = false := by
      rw [List.any_eq_false]
      exact fun g hg => by simp [hsame g hg]
    obtain ⟨honly, -, -, hoth, -, -⟩ := foldl_giveLred q r mine s
    have hout : exec (.lredResult l q) s = .next ((mine.foldl (giveLred q r) s).modLa l fun x =>
        { x with lredDone := q :: x.lredDone }) := by
      rw [hexec, hno, hr]
      rfl
    refine ⟨_, r, hout, hr, hrlen, fun c hc w hw => ?_, fun t ht => ?_, ?_, ?_, ?_, ?_⟩
    · obtain ⟨hl, hreg⟩ := foldl_giveLred_result (r := r) hnd hc (hin c hc) hw
      exact ⟨hl, fun hnodup hlen j g hj hg hs => (hreg hnodup hlen j g hj hg hs).raw⟩
    · exact foldl_giveLred_idle mine s fun c hc hct => ht c hc hct
    · rw [State.la_modLa_self _ _ _ (by rw [honly]; exact hl)]
      exact List.mem_cons_self
    · show (mine.foldl (giveLred q r) s).dies = s.dies
      rw [honly]
    · show (mine.foldl (giveLred q r) s).cores = s.cores
      rw [honly]
    · show (mine.foldl (giveLred q r) s).cells = s.cells
      rw [honly]
  · rw [hexec, if_pos]
    exact List.any_eq_true.mpr ⟨g, hg, decide_eq_true hne⟩

/-- Settles O37: the tree of the leaves is the result of a phase's reduction, and reaches every contributing cell. -/
theorem latticeReduction : Obligations.LatticeReduction := ⟨latticeReductions, reductionTree⟩

end Sys2Proof.Machine
end

section
/-! PROOF. Emptied registers, and the cell instructions with the messages of cells (O36). -/

namespace Sys2Proof.Machine

/-! ### Emptied registers (R43) -/

section
variable {s : State} {t : Nat}

theorem State.markEmpty_self (ht : t < s.threads.length) {r : RegRef} (hr : HasReg s t r) : (s.markEmpty t r).regFull t r = false := by
  cases r with
  | v n =>
    have hn : n < (s.th t).v.length := hr
    simp [State.markEmpty, State.regFull, ht, hn]
  | s n =>
    obtain ⟨hw, hn⟩ := hr
    have hn' : n < (s.wp (s.th t).warp).s.length := hn
    simp [State.markEmpty, State.regFull, State.wpOf, hw, hn']

theorem getElem?_modify_full {α : Type} {full : α → Bool} {e : α → α} (he : ∀ x, full (e x) = false) {l : List α} {k n : Nat}
    (h : (l[n]?.map full).getD true = false) : ((l.modify k e)[n]?.map full).getD true = false := by
  rw [List.getElem?_modify]
  cases hl : l[n]? with
  | none => rw [hl] at h; cases h
  | some x =>
    rw [hl] at h
    simp only [Option.map_some, Option.getD_some] at h ⊢
    split
    · exact he x
    · exact h

/-- An empty register stays empty while others are emptied. -/
theorem State.markEmpty_keeps {r : RegRef} (h : s.regFull t r = false) (k : RegRef) : (s.markEmpty t k).regFull t r = false := by
  have hself {n : Nat} (h : s.regFull t (.v n) = false) : t < s.threads.length := by
    by_contra hge
    rw [State.regFull, State.th, List.getD_eq_default _ _ (Nat.not_lt.mp hge)] at h
    simp [Thread.blank] at h
  have hwself {n : Nat} (h : s.regFull t (.s n) = false) : (s.th t).warp < s.warps.length := by
    by_contra hge
    rw [State.regFull, State.wpOf, State.wp, List.getD_eq_default _ _ (Nat.not_lt.mp hge)] at h
    rw [show Warp.blank.s = List.replicate 16 ⟨0, true⟩ from rfl, List.getElem?_replicate] at h
    split at h <;> cases h
  cases k with
  | v k =>
    cases r with
    | v n =>
      have hth : (s.markEmpty t (.v k)).th t = { s.th t with v := (s.th t).v.modify k fun y => { y with full := false } } :=
        State.th_modTh_self _ _ _ (hself h)
      rw [State.regFull, hth]
      exact getElem?_modify_full (fun _ => rfl) h
    | s n =>
      have hw : ((s.markEmpty t (.v k)).th t).warp = (s.th t).warp :=
        (s.markEmpty_regsOnly t (.v k) (dst := [.v k]) (List.mem_singleton.mpr rfl)).thWarp
      rw [State.regFull, State.wpOf, hw]
      exact h
  | s k =>
    cases r with
    | v n => exact h
    | s n =>
      have hwp : (s.markEmpty t (.s k)).wpOf t = { s.wpOf t with s := (s.wpOf t).s.modify k fun y => { y with full := false } } :=
        State.wp_modWp_self _ _ _ (hwself h)
      rw [State.regFull, hwp]
      exact getElem?_modify_full (fun _ => rfl) h

theorem State.markAll_keeps {r : RegRef} : ∀ (rs : List RegRef) {s : State}, s.regFull t r = false → (s.markAll t rs).regFull t r = false
  | [], _, h => h
  | k :: rs, _, h => State.markAll_keeps rs (State.markEmpty_keeps h k)

theorem State.markAll_empty {r : RegRef} : ∀ {rs : List RegRef} {s : State}, t < s.threads.length → r ∈ rs → HasReg s t r →
    (s.markAll t rs).regFull t r = false
  | [], _, _, h, _ => by cases h
  | k :: rs, s, ht, hmem, hr => by
    have hk := s.markEmpty_regsOnly t k (dst := [k]) (List.mem_singleton.mpr rfl)
    rcases List.mem_cons.mp hmem with rfl | hmem
    · exact State.markAll_keeps rs (State.markEmpty_self ht hr)
    · exact State.markAll_empty (rs := rs) (by rw [hk.threads]; exact ht) hmem ((hk.hasReg r).mpr hr)

end

/-! ### Cell instructions (R192 to R194) -/

section
variable {s : State} {t c : Nat} {x : Option Ext}

theorem cellCheck_given {fields : List Operand} (hc : (s.th t).cell = some c) (hf : ∀ o ∈ fields, opBad s t o = false) (rest : Check) :
    cellCheck s t fields rest = rest := by
  have hfind : fields.find? (opBad s t) = none := List.find?_eq_none.mpr fun o ho => by simp [hf o ho]
  simp [cellCheck, hfind, hc]

theorem cellOf_some (hc : (s.th t).cell = some c) : s.cellOf t = some (s.cl c) := by rw [State.cellOf, hc]; rfl

theorem exec_nbok (hl : Lone s t x) (hc : (s.th t).cell = some c) (p k : BitVec 3) :
    exec (.nbok x p k) s = .next ((s.setP t p (match siteOf (s.la (s.cl c).launch).desc (s.cl c) k.toNat 0 with
      | .cell _ => true
      | _ => false)).retire t (extLen x)) := by
  refine congrArg Host.Outcome.next ((runPlain_lone hl (cellCheck_some hc _)).trans ?_)
  simp only [cellOf_some hc] <;> rfl

theorem exec_lcfg (hl : Lone s t x) (hc : (s.th t).cell = some c) {d : Operand} (hg : Given s t [d] [] (regsOf (s.th t) d 1))
    (w : BitVec 4) : exec (.lcfg x d w) s =
      .next ((s.writeDst t d (regsOf (s.th t) d 1) (outW ((s.la (s.cl c).launch).desc.getD w.toNat 0))).retire t (extLen x)) := by
  refine congrArg Host.Outcome.next ((runPlain_lone hl ((cellCheck_given hc hg.available _).trans (opCheck_given hg))).trans ?_)
  simp only [cellOf_some hc]
  rfl

variable {n : Nat} {d a : Operand} {ea : Bool}

/-- A thread's own `lred` results stand in none of the registers. -/
theorem Given.no_own {srcs : List SrcF} {fs : List Operand} {dst : List RegRef} (hg : Given s t fs srcs dst) :
    (srcRegs (s.th t) srcs ++ dst).any (ownLred s t).contains = false := by
  rw [List.any_eq_false]
  exact fun r hr => by rw [hg.settled r hr]; decide

/-- The check of an `lred` whose operands are given: a leaf that the phase has already. -/
theorem lredCheck_given (hc : (s.th t).cell = some c) (hg : Given s t [d, a] [srcN a n ea] (regsOf (s.th t) d n)) :
    lredCheck n d a ea s t = (if (s.cl c).leaf.isSome then trapHere s t 0x0B 1 else .ok).andThen
      (nbrCheck (allSlots s t 0 [srcN a n ea])) := by
  have hown := hg.no_own
  simp only [lredCheck, cellCheck_given hc hg.available, hown, Bool.false_eq_true, if_false, opFault_given hg, opWait_given hg,
    Check.ok_andThen, cellOf_some hc, Option.bind_some]

theorem exec_lred (hl : Lone s t x) (hg : Given s t [d, a] [srcN a n ea] (regsOf (s.th t) d n)) {f : LredOp}
    (hn : (if f = .mt then 3 else 1) = n) :
    exec (.lred x f d a ea) s = .next (runPlain x d.isS (lredCheck n d a ea) (fun s t =>
      let ws := (allSlots s t 0 [srcN a n ea]).map (slotNow s t)
      let i := (s.th t).cell.getD 0
      let dst := regsOf (s.th t) d n
      (((s.markAll t dst).modCl i fun c => { c with leaf := some (f, ws) }).modTh t fun y => { y with
        lred := y.lred ++ [⟨(s.cl i).q, f, dst⟩] }).retire t (extLen x)) s) := by
  subst hn
  exact congrArg Host.Outcome.next (withReads_lone hl (hg.quiet.imp_right fun h => nbrReads_nil h s t))

end

theorem cellInstructions : Claims.CellInstructions := by
  intro s t c x p k d a w f ea hl hc hlt desc n
  refine ⟨exec_nbok hl hc p k, fun hg => exec_lcfg hl hc hg w, fun hg => ⟨fun xs hleaf hslots => ?_, fun hleaf => ?_⟩⟩
  · have hcheck := lredCheck_given hc hg
    have hok : lredCheck n d a ea s t = .ok := by
      rw [hcheck, hslots, hleaf]
      exact nbrCheck_none (missing_val xs)
    have hws : (allSlots s t 0 [srcN a n ea]).map (slotNow s t) = xs := by
      rw [hslots, List.map_map]
      exact List.map_id _
    have hcell : (s.th t).cell.getD 0 = c := by rw [hc]; rfl
    set m := s.markAll t (regsOf (s.th t) d n) with hm
    have hregs := State.markAll_regsOnly t (regsOf (s.th t) d n) s fun _ h => h
    have honly := State.markAll_only t (regsOf (s.th t) d n) s
    have ht : t < m.threads.length := by rw [hregs.threads]; exact hl.inRange
    let v := m.modCl c fun y => { y with leaf := some (f, xs) }
    let u := v.modTh t fun y => { y with lred := y.lred ++ [⟨(s.cl c).q, f, regsOf (s.th t) d n⟩] }
    have hexec : exec (.lred x f d a ea) s = .next (u.retire t (extLen x)) := by
      rw [exec_lred hl hg rfl, runPlain_lone hl hok]
      simp only [hws, hcell]
      rfl
    have hth : u.th t = { m.th t with lred := (m.th t).lred ++ [⟨(s.cl c).q, f, regsOf (s.th t) d n⟩] } :=
      State.th_modTh_self v t _ ht
    refine ⟨_, hexec, ?_, ?_, fun r hr hreg => ?_, ⟨fun e b => ?_, fun k sp b => ?_⟩, fun k hk => ?_⟩
    · have hcl : u.cl c = { m.cl c with leaf := some (f, xs) } := State.cl_modCl_self m c _ (by rw [hm, honly]; exact hlt)
      show (u.cl c).leaf = _
      rw [hcl]
    · obtain ⟨vs, hv, -⟩ := hregs.self
      rw [State.retire_keeps Thread.lred (fun _ _ => rfl), hth, hm, hv]
    · rw [(State.retire_regs u t (extLen x) t r).2.2]
      have hempty : m.regFull t r = false := State.markAll_empty hl.inRange hr hreg
      cases r with
      | v j => simpa only [State.regFull, hth] using hempty
      | s j =>
        rw [State.regFull, State.wpOf, hth]
        exact hempty
    · show Memory.read1 (m.die e).mem b = _
      rw [hm, honly]
      rfl
    · show Memory.read1 ((m.co k).buf sp) b = _
      rw [hm, honly]
      rfl
    · rw [State.th_retire_other _ _ _ _ hk]
      exact ((State.th_modTh v t k _).trans (if_neg fun h => hk h.1.symm)).trans (hregs.others k hk)
  · have hcheck := lredCheck_given hc hg
    rw [if_pos (Option.isSome_iff_ne_none.mpr hleaf)] at hcheck
    rw [exec_lred hl hg rfl]
    exact congrArg Host.Outcome.next (runLanes_lone_trap hl hcheck)

/-! ### What error protection leaves of the face tables and of memory -/

/-- No grid arrives on DONE. -/
def NoArrivals (s : State) : Prop := ∀ k, k < s.launches.length → (lDone (s.la k).words).en = false

/-- No error is met, or a context that one ends arrives nowhere. -/
def EndsQuietly (s : State) : Prop := s.planted = [] ∨ NoArrivals s

/-- Face tables and buffers are as before, and near memory too where a context would end quietly. -/
structure FacesKept (s u : State) : Prop where
  faces : ∀ c, (u.co c).faces = (s.co c).faces
  bufs : ∀ c sp, (u.co c).buf sp = (s.co c).buf sp
  mem : EndsQuietly s → EndsQuietly u ∧ ∀ d, (u.die d).mem = (s.die d).mem

namespace FacesKept

variable {s u v : State}

theorem refl (s : State) : FacesKept s s := ⟨fun _ => rfl, fun _ _ => rfl, fun h => ⟨h, fun _ => rfl⟩⟩

theorem trans (h : FacesKept s u) (k : FacesKept u v) : FacesKept s v :=
  ⟨fun c => (k.faces c).trans (h.faces c), fun c sp => (k.bufs c sp).trans (h.bufs c sp), fun hq => by
    obtain ⟨hu, hd⟩ := h.mem hq
    obtain ⟨hv, hd'⟩ := k.mem hu
    exact ⟨hv, fun d => (hd' d).trans (hd d)⟩⟩

/-- A change of other fields. -/
theorem of_same (hc : u.cores = s.cores) (hl : u.launches = s.launches) (hp : u.planted = s.planted) (hd : u.dies = s.dies) :
    FacesKept s u := by
  refine ⟨fun c => by rw [State.co, hc]; rfl, fun c sp => by rw [State.co, hc]; rfl, fun hq => ⟨?_, fun d => by rw [State.die, hd]; rfl⟩⟩
  unfold EndsQuietly NoArrivals State.la at hq ⊢
  rw [hp, hl]
  exact hq

end FacesKept

theorem NoArrivals.of_launches {s u : State} (h : NoArrivals s) (hl : u.launches = s.launches) : NoArrivals u := by
  unfold NoArrivals State.la at h ⊢
  rw [hl]
  exact h

/-- A change of a launch that keeps its record. -/
theorem NoArrivals.of_modLa {s : State} (h : NoArrivals s) (l : Nat) {f : Launch → Launch} (hf : ∀ y, (f y).words = y.words) :
    NoArrivals (s.modLa l f) := by
  intro k hk
  have hw : ((s.modLa l f).la k).words = (s.la k).words := getD_modify_proj Launch.words hf s.launches l k _
  rw [hw]
  exact h k (by simpa [State.modLa] using hk)

/-- What an ending context leaves, where its grids do not arrive. -/
structure EndKept (s u : State) : Prop where
  faces : ∀ c, (u.co c).faces = (s.co c).faces
  bufs : ∀ c sp, (u.co c).buf sp = (s.co c).buf sp
  mem : NoArrivals s → NoArrivals u ∧ ∀ d, (u.die d).mem = (s.die d).mem

namespace EndKept

variable {s u v : State}

theorem refl (s : State) : EndKept s s := ⟨fun _ => rfl, fun _ _ => rfl, fun h => ⟨h, fun _ => rfl⟩⟩

theorem trans (s u v : State) (h : EndKept s u) (k : EndKept u v) : EndKept s v :=
  ⟨fun c => (k.faces c).trans (h.faces c), fun c sp => (k.bufs c sp).trans (h.bufs c sp), fun hq => by
    obtain ⟨hu, hd⟩ := h.mem hq
    obtain ⟨hv, hd'⟩ := k.mem hu
    exact ⟨hv, fun d => (hd' d).trans (hd d)⟩⟩

end EndKept

theorem addRecord_faces (k : CoreSt) (e : BitVec 4) (r : Record) : (k.addRecord e r).faces = k.faces := by
  unfold CoreSt.addRecord
  split
  · rfl
  · split <;> rfl

theorem State.completeOp_endKept (s : State) (i : Nat) (st : BitVec 16) (de : Word) : EndKept s (s.completeOp i st de) := by
  have hmem : NoArrivals s → NoArrivals (s.completeOp i st de) ∧ ∀ d, ((s.completeOp i st de).die d).mem = (s.die d).mem := fun h =>
    ⟨h.of_launches (by rw [State.completeOp_only]), fun d => by rw [State.completeOp_only]; rfl⟩
  by_cases hs : (s.op i).stage = .done
  · rw [State.completeOp, if_pos hs]
    exact .refl s
  · cases hc : (s.op i).core with
    | none =>
      have hring : s.completeOp i st de = (s.modOp i fun o => { o with stage := .done, status := st, detail := de }).ringRecord
          (s.op i).port ⟨(s.op i).handle, st, (s.op i).warp, de, BitVec.ofNat 32 s.time.toNat⟩ := by
        simp only [State.completeOp, if_neg hs, hc]
      have hcores : (s.completeOp i st de).cores = s.cores := by
        rw [hring, State.ringRecord_only]
        rfl
      exact ⟨fun c => by rw [State.co, hcores]; rfl, fun c sp => by rw [State.co, hcores]; rfl, hmem⟩
    | some k =>
      have hco (c : Nat) : (s.completeOp i st de).co c = if k = c ∧ k < s.cores.length then
          (s.co k).addRecord (s.op i).engine ⟨(s.op i).handle, st, (s.op i).warp, de, BitVec.ofNat 32 s.time.toNat⟩ else s.co c := by
        rw [State.completeOp_eq st de hs hc, State.fillRegs_only]
        exact State.co_modCo _ _ _ _
      refine ⟨fun c => ?_, fun c sp => ?_, hmem⟩
      · rw [hco]
        split
        · next h => rw [addRecord_faces, h.1]
        · rfl
      · rw [hco]
        split
        · next h => rw [addRecord_buf, h.1]
        · rfl

theorem EndKept.of_cores {s u : State} (hc : u.cores = s.cores) (hm : NoArrivals s → NoArrivals u ∧ ∀ d, (u.die d).mem = (s.die d).mem) :
    EndKept s u := ⟨fun c => by rw [State.co, hc]; rfl, fun c sp => by rw [State.co, hc]; rfl, hm⟩

theorem State.lastArrival_endKept (s : State) (l : Nat) : EndKept s (s.lastArrival l).1 := by
  refine .of_cores (by rw [State.lastArrival_only]) fun h => ?_
  have hen : (lDone (s.la l).words).en = false := by
    rcases Nat.lt_or_ge l s.launches.length with hl | hl
    · exact h l hl
    · rw [State.la, List.getD_eq_default _ _ hl]
      rfl
  rw [State.lastArrival_none s l hen]
  exact ⟨h, fun _ => rfl⟩

theorem State.endLaunches_endKept (s : State) (c : Word) (st : BitVec 16) (de : Word) : EndKept s (s.endLaunches c st de) := by
  refine foldl_keeps (P := EndKept) .refl EndKept.trans (fun s l => ?_) _ s
  have complete (v : State) (x : Launch) (a : BitVec 16) (b : Word) :
      EndKept v ((v.modLa l fun y => { y with stage := .complete }).completeOp x.op a b) := by
    have hmod : EndKept v (v.modLa l fun y => { y with stage := .complete }) := by
      refine .of_cores rfl fun h => ⟨h.of_modLa l ?_, fun _ => rfl⟩
      exact fun _ => rfl
    exact EndKept.trans _ _ _ hmod (State.completeOp_endKept _ _ _ _)
  dsimp only
  split
  · exact complete _ _ _ _
  · split
    · exact EndKept.trans _ _ _ (s.lastArrival_endKept l) (complete _ _ _ _)
    · exact EndKept.trans _ _ _ (s.lastArrival_endKept l) (complete _ _ _ _)
  · exact .refl s

/-- A property that a map over a table leaves alone. -/
theorem getD_map_proj {α β : Type} {g : α → β} {f : α → α} (hg : ∀ x, g (f x) = g x) (l : List α) (n : Nat) (d : α) :
    g ((l.map f).getD n d) = g (l.getD n d) := by
  rw [List.getD_eq_getElem?_getD, List.getD_eq_getElem?_getD, List.getElem?_map]
  cases l[n]? with
  | none => rfl
  | some x => exact hg x

/-- What a context's end does after its grids and operations have ended keeps face tables, buffers and memory. -/
theorem State.endCtx_endKept (s : State) (c : Word) (st : BitVec 16) (de : Word) : EndKept s (s.endCtx c st de) := by
  refine EndKept.trans _ _ _ (s.endLaunches_endKept c st de) ?_
  unfold State.endCtx
  extract_lets v mine endTh endWp endCl endCo endRec endItem endDie w
  have hv : v = { s.endLaunches c st de with ops := v.ops } := State.endOps_only _ c
  have hfaces : ∀ k, (endCo k).faces = k.faces := fun k => by simp only [endCo]; split <;> rfl
  have hbuf (sp : Space) : ∀ k, (endCo k).buf sp = k.buf sp := fun k => by simp only [endCo]; split <;> cases sp <;> rfl
  have hcores : v.cores = (s.endLaunches c st de).cores := by rw [hv]
  have hdies : v.dies = (s.endLaunches c st de).dies := by rw [hv]
  have hlaunches : v.launches = (s.endLaunches c st de).launches := by rw [hv]
  refine ⟨fun k => ?_, fun k sp => ?_, fun h => ⟨h.of_launches hlaunches, fun d => ?_⟩⟩
  · refine (getD_map_proj hfaces v.cores k CoreSt.blank).trans ?_
    rw [hcores]
    rfl
  · refine (getD_map_proj (g := fun x : CoreSt => x.buf sp) (hbuf sp) v.cores k CoreSt.blank).trans ?_
    rw [hcores]
    rfl
  · refine (getD_map_proj (g := Die.mem) (f := endDie) (fun _ => rfl) v.dies d Die.blank).trans ?_
    rw [hdies]
    rfl

theorem NoArrivals.facesKept {s u : State} (h : EndKept s u) (hp : s.planted = [] → u = s) : FacesKept s u := by
  refine ⟨h.faces, h.bufs, fun hq => ?_⟩
  rcases hq with hq | hq
  · rw [hp hq]
    exact ⟨.inl hq, fun _ => rfl⟩
  · exact ⟨.inr (h.mem hq).1, (h.mem hq).2⟩

theorem State.eccGuard_facesKept (s : State) (arr : BitVec 16) (a n : Nat) (c : Word) (d : Nat) :
    FacesKept s (s.eccGuard arr a n c d).1 := by
  refine NoArrivals.facesKept ?_ fun h => by rw [State.eccGuard_clean _ _ _ _ _ _ h]
  have hread : EndKept s (s.eccRead arr a n c d).1 :=
    .of_cores (by rw [State.eccRead_only]) fun h => ⟨h.of_launches (by rw [State.eccRead_only]), (s.eccRead_near arr a n c d).die⟩
  unfold State.eccGuard
  dsimp only
  split
  · exact EndKept.trans _ _ _ hread (State.endCtx_endKept _ _ _ _)
  · exact hread

theorem State.placeEcc_facesKept (s : State) (p : Place) (a n : Nat) (c : Word) : FacesKept s (s.placeEcc p a n c).1 := by
  unfold State.placeEcc
  split <;> exact State.eccGuard_facesKept _ _ _ _ _ _

theorem State.readsEcc_facesKept (c : Word) (sites : List (Place × Nat × Nat)) (s : State) : FacesKept s (s.readsEcc c sites).1 := by
  have h : ∀ (l : List (Place × Nat × Nat)) (r : State × Bool),
      FacesKept r.1 (l.foldl (fun r x => if r.2 then r else r.1.placeEcc x.1 x.2.1 x.2.2 c) r).1 := by
    intro l
    induction l with
    | nil => exact fun r => .refl _
    | cons x l ih =>
      intro r
      refine FacesKept.trans ?_ (ih _)
      dsimp only
      split
      · exact .refl _
      · exact State.placeEcc_facesKept _ _ _ _ _
  exact h sites (s, false)

theorem State.completeDeferred_facesKept (s : State) (t i : Nat) : FacesKept s (s.completeDeferred t i) := by
  unfold State.completeDeferred
  split
  · exact .refl s
  · extract_lets vals e v out a w
    have he : FacesKept s e.1 := s.readsEcc_facesKept _ _
    split
    · exact he
    · split
      · refine he.trans (.of_same ?_ ?_ ?_ ?_)
        · show (State.fillRegs w _ _ _ _).cores = _
          rw [State.fillRegs_only]
          rfl
        · show (State.fillRegs w _ _ _ _).launches = _
          rw [State.fillRegs_only]
          rfl
        · show (State.fillRegs w _ _ _ _).planted = _
          rw [State.fillRegs_only]
          rfl
        · show (State.fillRegs w _ _ _ _).dies = _
          rw [State.fillRegs_only]
          rfl
      · exact .refl s

theorem State.settle_facesKept (t : Nat) : ∀ (n : Nat) (s : State), FacesKept s (s.settle t n)
  | 0, s => .refl s
  | n + 1, s => by
    rw [State.settle]
    split
    · exact (s.completeDeferred_facesKept t _).trans (State.settle_facesKept t n _)
    · exact .refl s

/-! ### Face deliveries and phase reports (R189, R197, R198) -/

/-- Where no error is planted, deferred instructions change only the thread that has them. -/
theorem State.completeDeferred_others {s : State} (h : s.planted = []) (t i : Nat) :
    (s.completeDeferred t i).planted = [] ∧ OthersSame s (s.completeDeferred t i) t := by
  unfold State.completeDeferred
  split
  · exact ⟨h, fun _ _ => rfl⟩
  · next d hd =>
    dsimp only
    rw [State.readsEcc_clean _ _ h]
    simp only [Bool.and_false, Bool.false_eq_true, if_false]
    split
    · refine ⟨?_, fun n hn => ?_⟩
      · rw [State.addFlags, State.modWp, State.fillRegs_only]
        exact h
      · refine ((State.fillRegs_regsOnly t _ d.dst _ _ fun _ h => h).others n hn).trans ?_
        exact (State.th_modTh s t n _).trans (if_neg fun h => hn h.1.symm)
    · exact ⟨h, fun _ _ => rfl⟩

theorem State.settle_others (t : Nat) : ∀ (n : Nat) {s : State}, s.planted = [] →
    (s.settle t n).planted = [] ∧ OthersSame s (s.settle t n) t
  | 0, _, h => ⟨h, fun _ _ => rfl⟩
  | n + 1, s, h => by
    rw [State.settle]
    split
    · next i _ =>
      obtain ⟨hp, ho⟩ := State.completeDeferred_others h t i
      obtain ⟨hp', ho'⟩ := State.settle_others t n hp
      exact ⟨hp', fun k hk => (ho' k hk).trans (ho k hk)⟩
    · exact ⟨h, fun _ _ => rfl⟩

/-- Only threads with deferred instructions change when the deferred instructions of cells are looked through. -/
theorem settleCells_idle : ∀ (l : List Cell) {s : State}, s.planted = [] → ∀ n, (s.th n).deferred = [] →
    (l.foldl (fun s c => s.settle c.tid (s.th c.tid).deferred.length) s).th n = s.th n
  | [], _, _, _, _ => rfl
  | c :: l, s, h, n, hn => by
    obtain ⟨hp, ho⟩ := State.settle_others c.tid (s.th c.tid).deferred.length h
    have hth : (s.settle c.tid (s.th c.tid).deferred.length).th n = s.th n := by
      by_cases hc : n = c.tid
      · rw [← hc, hn]
        rfl
      · exact ho n hc
    exact (settleCells_idle l hp n (by rw [hth]; exact hn)).trans hth

theorem settleCells_facesKept (l : List Cell) (s : State) :
    FacesKept s (l.foldl (fun s c => s.settle c.tid (s.th c.tid).deferred.length) s) :=
  foldl_keeps (P := FacesKept) .refl (fun _ _ _ h k => h.trans k) (fun s c => s.settle_facesKept c.tid _) l s

/-- A face delivery that is in order, from a cell of another device. -/
theorem execFaceDelivery_remote {s : State} {core ell l : Nat} {m : FaceMsg} (hl : m.launch = l) (hp : partitionOn s core l = true)
    (hc : s.cellAt l ell = none) (hr : m.remote = true) (ho : faceInOrder (s.co core).faces l ell m.idx1 m.retired = true) :
    exec (.faceDelivery core ell m) s = .next (s.takeFace core ⟨l, ell, m.idx1, m.xs, m.retired⟩) := by
  subst hl
  refine congrArg Host.Outcome.next ?_
  simp only [hp, hc, hr, ho, Option.map_none, Option.isNone_none, if_true]

/-- The state once a publication stands in the face table. -/
theorem setFace_eq (s : State) (core : Nat) (f : Face) :
    s.setFace core f = { s.modCo core (fun k => { k with faces := putFace k.faces f }) with
      errinj := (s.setFace core f).errinj, planted := (s.setFace core f).planted } := touchWrites_only _ _

/-- With no injection armed, a write plants nothing. -/
theorem touchWrites_unarmed {s : State} (h : bit s.errinj 31 = false) : ∀ sites, s.touchWrites sites = s := by
  have hw (arr : BitVec 16) (a n : Nat) : s.eccWrite arr a n = s := by
    rw [State.eccWrite]
    exact if_neg fun hk => by rw [h] at hk; cases hk.1
  intro sites
  induction sites with
  | nil => rfl
  | cons x l ih =>
    obtain ⟨p, a, n⟩ := x
    cases p with
    | near d => exact (congrArg (fun u : State => u.touchWrites l) (hw (arrNear d) a n)).trans ih
    | buf c sp => exact (congrArg (fun u : State => u.touchWrites l) (hw (arrBuf c sp) a n)).trans ih

theorem facesAndReports : Claims.FacesAndReports := by
  intro s core ell l m hl hp hc hr hcore
  refine ⟨fun ho => ?_, fun he => ?_, fun w hw hs => ?_⟩
  · obtain ⟨f, hf⟩ : ∃ f : Face, f = ⟨l, ell, m.idx1, m.xs, m.retired⟩ := ⟨_, rfl⟩
    have hexec := execFaceDelivery_remote hl hp hc hr ho
    rw [← hf] at hexec
    have hset := setFace_eq s core f
    have hkept : FacesKept (s.setFace core f) (s.takeFace core f) := settleCells_facesKept _ _
    have hco (k : Nat) : (s.setFace core f).co k = (s.modCo core fun k => { k with faces := putFace k.faces f }).co k := by
      rw [hset]
      rfl
    refine ⟨_, hexec, ?_, fun hpl harm n hn => ?_, fun hq => ?_⟩
    · have hface : ((s.setFace core f).co core).faces = putFace (s.co core).faces f := by
        rw [hco, State.co_modCo_self _ _ _ hcore]
      rw [faceValue, (hkept.faces core).trans hface]
      simp [putFace, hf]
    · have hunarmed : s.setFace core f = s.modCo core fun k => { k with faces := putFace k.faces f } :=
        touchWrites_unarmed (s := s.modCo core fun k => { k with faces := putFace k.faces f }) harm _
      rw [State.takeFace]
      rw [hunarmed]
      exact settleCells_idle _ (s := s.modCo core fun k => { k with faces := putFace k.faces f }) hpl n hn
    · have hquiet : EndsQuietly (s.setFace core f) := by
        rcases hq with ⟨hpl, harm⟩ | hno
        · refine .inl ?_
          rw [show s.setFace core f = s.modCo core fun k => { k with faces := putFace k.faces f } from
            touchWrites_unarmed (s := s.modCo core fun k => { k with faces := putFace k.faces f }) harm _]
          exact hpl
        · exact .inr (NoArrivals.of_launches hno (by rw [hset]; rfl))
      refine ⟨fun d a => ?_, fun k sp a => ?_⟩
      · rw [(hkept.mem hquiet).2 d, hset]
        rfl
      · rw [hkept.bufs k sp, hco, State.co_modCo]
        split
        · next h =>
          rw [← h.1]
          cases sp <;> rfl
        · rfl
  · subst hl
    have hexec : exec (.phaseReport core ell m) s = .next ((s.modLa m.launch fun x => { x with remote := noteRemote x.remote ell m }).modCo
        core fun k => { k with reports := ⟨m.launch, ell, m.idx1, m.retired⟩ ::
          (k.reports.filter fun r => !(r.launch = m.launch && r.ell = ell)) }) := by
      refine congrArg Host.Outcome.next ?_
      simp only [hp, hc, hr, he, Option.map_none, if_true]
    refine ⟨_, hexec, ?_, rfl, fun _ _ => rfl, fun k sp a => ?_⟩
    · exact congrArg (fun k : CoreSt => k.reports.head?) (State.co_modCo_self _ _ _ hcore)
    · rw [State.co_modCo]
      split
      · next h =>
        rw [← h.1]
        cases sp <;> rfl
      · rfl
  · subst hl
    refine congrArg Host.Outcome.next ?_
    simp only [hp, hw, hr, hs, Bool.and_self, if_true]

/-- Settles O36: the cell instructions, face deliveries and phase reports. -/
theorem cellsAndTheirMessages : Obligations.CellsAndTheirMessages := ⟨cellInstructions, facesAndReports⟩

end Sys2Proof.Machine
end

section
/-! PROOF. Commands of engines: issue with a record (O39), the reservation and the matrix commands (O40). -/

namespace Sys2Proof.Machine

/-! ### Issuing a command (R18, R51) -/

section
variable {s : State} {t : Nat}

/-- The registers after a command is issued: the handle in the first, and all of its destination empty. -/
def State.handRegs (s : State) (t : Nat) (o : Op) : State :=
  ((s.modCo (s.coreOf t) fun k => { k with gens := bumpGen k.gens o.engine o.slot }).fillRegs t (o.dst.take 1) [o.handle] .raw).markAll
    t o.dst

theorem State.handRegs_regsOnly (s : State) (t : Nat) (o : Op) : RegsOnly s (s.handRegs t o) t o.dst := by
  have h1 : RegsOnly s (s.modCo (s.coreOf t) fun k => { k with gens := bumpGen k.gens o.engine o.slot }) t o.dst :=
    ⟨rfl, rfl, fun _ _ => rfl, ⟨_, rfl, rfl, fun _ _ => rfl⟩, fun _ _ => rfl, ⟨_, rfl, rfl, fun _ _ => rfl⟩⟩
  exact (h1.trans (State.fillRegs_regsOnly t .raw _ _ _ fun r hr => List.mem_of_mem_take hr)).trans
    (State.markAll_regsOnly t o.dst _ fun _ h => h)

theorem State.handRegs_only (s : State) (t : Nat) (o : Op) : s.handRegs t o =
    { s.modCo (s.coreOf t) (fun k => { k with gens := bumpGen k.gens o.engine o.slot }) with
      threads := (s.handRegs t o).threads, warps := (s.handRegs t o).warps } := by
  rw [State.handRegs, State.markAll_only, State.fillRegs_only]

theorem State.handRegs_empty (ht : t < s.threads.length) (o : Op) {n : Nat} (hn : RegRef.v n ∈ o.dst) (hv : n < (s.th t).v.length) :
    (s.handRegs t o).regFull t (.v n) = false := by
  have hr : RegsOnly _ _ t o.dst := State.fillRegs_regsOnly t .raw (o.dst.take 1) [o.handle]
    (s.modCo (s.coreOf t) fun k => { k with gens := bumpGen k.gens o.engine o.slot }) fun _ hr => List.mem_of_mem_take hr
  exact State.markAll_empty (by rw [hr.threads]; exact ht) hn ((hr.hasReg _).mpr hv)

theorem State.handRegs_handle (ht : t < s.threads.length) (o : Op) {n : Nat} (hn : o.dst = [.v n]) (hv : n < (s.th t).v.length) :
    (s.handRegs t o).regVal t (.v n) = o.handle := by
  simp [State.handRegs, hn, State.markAll, State.markEmpty, State.fillReg, State.regVal, ht, hv]

theorem State.handRegs_sameMemory (s : State) (t : Nat) (o : Op) : SameMemory s (s.handRegs t o) := by
  rw [s.handRegs_only t o]
  refine ⟨fun _ _ => rfl, fun c sp a => ?_⟩
  show Memory.read1 (((s.cores.modify _ _).getD c _).buf sp) a = _
  rw [getD_modify_proj (fun k : CoreSt => k.buf sp) fun k => by cases sp <;> rfl]
  rfl

theorem State.issueOp_handRegs (s : State) (t : Nat) (o : Op) : s.issueOp t o = { s.handRegs t o with ops := s.ops ++ [o] } := by
  have hops : (State.fillRegs (s.modCo (s.coreOf t) fun k => { k with gens := bumpGen k.gens o.engine o.slot }) t
      (o.dst.take 1) [o.handle] .raw).ops = s.ops := by rw [State.fillRegs_only]; rfl
  exact congrArg (fun l => ({ s.handRegs t o with ops := l ++ [o] } : State)) hops

theorem issueCmd_issued {x : Option Ext} (hl : Lone s t x) (hw : (s.th t).warp < s.warps.length) {o : Op} (hst : o.stage = .inFifo)
    (htid : o.tid = t) (hcore : o.core = some (s.coreOf t)) (len : Nat) :
    CommandIssued s ((s.issueCmd t o).retire t len) t len o := by
  have hregs := s.handRegs_regsOnly t o
  have honly := s.handRegs_only t o
  obtain ⟨v, hv, -⟩ := hregs.self
  have hiss := s.issueOp_handRegs t o
  have hth (n : Nat) : (s.issueOp t o).th n = (s.handRegs t o).th n := by rw [hiss]; rfl
  have hwarp : ((s.issueOp t o).th t).warp = (s.th t).warp := by rw [hth, hregs.thWarp]
  have hcmd (r : RegRef) : ((s.issueCmd t o).retire t len).regVal t r = (s.issueCmd t o).regVal t r ∧
      ((s.issueCmd t o).retire t len).regFull t r = (s.issueCmd t o).regFull t r :=
    ⟨(State.retire_regs _ t len t r).1, (State.retire_regs _ t len t r).2.2⟩
  have hret : ((s.issueCmd t o).retire t len).th t = Thread.advance len { s.th t with v := v } := by
    have hin : t < (s.issueOp t o).threads.length := by
      rw [hiss]
      exact hregs.threads.symm ▸ hl.inRange
    exact (State.th_modTh_self _ _ _ hin).trans (congrArg _ ((hth t).trans hv))
  have hwp : ((s.issueOp t o).wp (s.th t).warp).fifo = (s.wp (s.th t).warp).fifo := by
    obtain ⟨r, hr, -⟩ := hregs.warp
    rw [hiss]
    show ((s.handRegs t o).wp (s.th t).warp).fifo = _
    rw [hr]
  have hin : (s.th t).warp < (s.issueOp t o).warps.length := by
    rw [hiss]
    exact hregs.warps.symm ▸ hw
  have hfifo := State.toFifo_fifo (s.issueOp t o) t ((s.issueOp t o).entry t .a 0 (.cmd s.ops.length)) (hwarp.symm ▸ hin)
  rw [hwarp, hwp] at hfifo
  refine ⟨hst, htid, hcore, congrArg State.ops hiss, ⟨_, hfifo, rfl, rfl⟩, fun n hn hnv => ?_, fun n hn hnv => ?_,
    fun n hn => ?_, ?_, ?_, ?_, fun n hn => ?_, ?_⟩
  · rw [(hcmd _).2]
    exact s.handRegs_empty hl.inRange o hn hnv
  · rw [(hcmd _).1]
    exact s.handRegs_handle hl.inRange o hn hnv
  · rw [(hcmd _).1, (hcmd _).2]
    exact ⟨(hregs.reads hn).1, (hregs.reads hn).2.2⟩
  · rw [hret, State.th_retire, if_pos ⟨rfl, hl.inRange⟩]
    rfl
  · rw [hret]
    rfl
  · show SameMemory s (s.issueOp t o)
    rw [hiss]
    exact s.handRegs_sameMemory t o
  · rw [State.th_retire_other _ _ _ _ hn]
    refine (hth n).trans ?_
    exact hregs.others n hn
  · rw [hret]
    repeat' constructor

end

/-! ### Commands with a record (R231, R243, R248, R261) -/

section
variable {s : State} {t n : Nat} {e : BitVec 4} {x : Option Ext} {d a : Operand} {ea : Bool}

theorem recCheck_given (h : Given s t [d, a] [src a ea] (regsOf (s.th t) d 1)) : recCheck e n d a ea s t =
    if recAddr s t a % 16 ≠ 0 then .trap 6 0 (pcAddr (addrReg s t a))
    else if bufSize .a < recAddr s t a + n then .trap 7 0 (pcAddr (addrReg s t a))
    else if cmdRoom s (s.coreOf t) e then .ok else .wait .retry := by
  rw [recCheck, opCheck_given h, Check.ok_andThen]

theorem recCheck_good (h : Given s t [d, a] [src a ea] (regsOf (s.th t) d 1)) (hal : recAddr s t a % 16 = 0)
    (hend : recAddr s t a + n ≤ bufSize .a) :
    recCheck e n d a ea s t = if cmdRoom s (s.coreOf t) e then .ok else .wait .retry := by
  rw [recCheck_given h, if_neg (not_not_intro hal), if_neg (Nat.not_lt.mpr hend)]

/-- What a command with a record does, given its operands: it issues, waits or traps. -/
theorem recordCommand_run (hl : Lone s t x) (hw : (s.th t).warp < s.warps.length)
    (h : Given s t [d, a] [src a ea] (regsOf (s.th t) d 1)) :
    let run := runPlain x d.isS (recCheck e n d a ea) (recAct e x d a) s
    (recAddr s t a % 16 = 0 → recAddr s t a + n ≤ bufSize .a → cmdRoom s (s.coreOf t) e = true →
      ∃ o, o.engine = e ∧ o.arg = recAddr s t a ∧ o.dst = regsOf (s.th t) d 1 ∧
        o.acq = ordAcq x ∧ o.rel = ordRel x ∧ CommandIssued s run t (extLen x) o) ∧
    (recAddr s t a % 16 = 0 → recAddr s t a + n ≤ bufSize .a → cmdRoom s (s.coreOf t) e = false →
      run = s.setStatus t (.blocked .retry)) ∧
    (recAddr s t a % 16 ≠ 0 → run = s.faultTrap t 6 0 (pcAddr (addrReg s t a))) ∧
    (recAddr s t a % 16 = 0 → bufSize .a < recAddr s t a + n → run = s.faultTrap t 7 0 (pcAddr (addrReg s t a))) := by
  refine ⟨fun hal hend hroom => ?_, fun hal hend hroom => ?_, fun hal => runLanes_lone_trap hl ?_,
    fun hal hend => runLanes_lone_trap hl ?_⟩
  · refine ⟨{ newOp s t e (regsOf (s.th t) d 1) with
      arg := recAddr s t a, acq := ordAcq x, rel := ordRel x, scope := scopeOf x }, rfl, rfl, rfl, rfl, rfl, ?_⟩
    rw [runPlain_lone hl (by rw [recCheck_good h hal hend, hroom]; rfl), recAct, hroom]
    exact issueCmd_issued hl hw rfl rfl rfl _
  · have hc : recCheck e n d a ea s t = .wait .retry := by rw [recCheck_good h hal hend, hroom]; rfl
    rw [runPlain, runLanes_lone_step hl (by simp [hc]), hc]
    rfl
  · rw [recCheck_given h, if_pos hal]
  · rw [recCheck_given h, if_neg (not_not_intro hal), if_pos hend]

end

theorem recordCommands : Claims.RecordCommands := by
  intro s t i e x d a ea n hi hl hw h
  have hrun := recordCommand_run (e := e) (n := n) hl hw h
  have hexec : exec i s = .next (runPlain x d.isS (recCheck e n d a ea) (recAct e x d a) s) := by
    cases i with
    | xcp | xsort | xcol | launch =>
      obtain ⟨rfl, rfl, rfl, rfl, rfl, rfl⟩ := by simpa [recordCmd] using hi
      rfl
    | _ => exact absurd hi (by simp [recordCmd])
  obtain ⟨hissue, hwait, halign, hend⟩ := hrun
  rw [hexec]
  exact ⟨fun h1 h2 h3 => (hissue h1 h2 h3).elim fun o ho => ⟨_, o, rfl, ho⟩, fun h1 h2 h3 => congrArg _ (hwait h1 h2 h3),
    fun h1 => congrArg _ (halign h1), fun h1 h2 => congrArg _ (hend h1 h2)⟩

/-- Settles O39: given its operands, each of the four instructions is its record check and then the issue of its command. -/
theorem recordCommandsIssue : Obligations.RecordCommandsIssue := recordCommands

/-! ### The reservation (R207, R208) -/

theorem notCollie_ok {s : State} {t : Nat} (h : (s.th t).collie = false) : notCollie s t = .ok := by
  rw [notCollie, h]; rfl

/-- Writing the holder that a core has changes nothing. -/
theorem State.setHolder_same (s : State) (c : Nat) {h : Option Nat} (hk : (s.co c).holder = h) : s.setHolder c h = s := by
  have hlist : s.cores.modify c (fun k => { k with holder := h }) = s.cores := by
    refine List.ext_getElem? fun j => ?_
    rw [List.getElem?_modify]
    split
    · next hj =>
      subst hj
      cases hg : s.cores[c]? with
      | none => rfl
      | some k =>
        have : s.co c = k := by simp [State.co, List.getD_eq_getElem?_getD, hg]
        rw [this] at hk
        simp [← hk]
    · simp
  show { s with cores := s.cores.modify c _ } = s
  rw [hlist]

theorem reservation : Claims.Reservation := by
  intro s t x p hl
  dsimp only
  have hrun (act : State → Nat → State) (h : (s.th t).collie = false) : runPlain x false notCollie act s = act s t :=
    runPlain_lone hl (notCollie_ok h)
  refine ⟨fun hc i hi => ?_, fun hc hk => ⟨?_, ?_, ?_⟩, fun hc hk hws => ?_, fun hc hk hws => ?_, fun hc hk hne => ⟨?_, ?_, ?_⟩⟩
  · have hchk : notCollie s t = .trap 2 0x100 (pcAddr (s.th t).pc) := by rw [notCollie, hc]; rfl
    rcases hi with rfl | rfl | rfl
    all_goals exact congrArg Host.Outcome.next (runLanes_lone_trap hl hchk)
  · refine congrArg Host.Outcome.next ((hrun _ hc).trans ?_)
    simp [hk, State.setHolder_same]
  · refine congrArg Host.Outcome.next ((hrun _ hc).trans ?_)
    simp [hk]
  · refine congrArg Host.Outcome.next ((hrun _ hc).trans ?_)
    simp [hk]
  · refine congrArg Host.Outcome.next ((hrun _ hc).trans ?_)
    simp [hk, hws]
  · refine congrArg Host.Outcome.next ((hrun _ hc).trans ?_)
    simp [hk, hws]
  · refine congrArg Host.Outcome.next ((hrun _ hc).trans ?_)
    simp [hne, Option.isNone_eq_false_iff.mpr (Option.isSome_iff_ne_none.mpr hk)]
  · refine congrArg Host.Outcome.next ((hrun _ hc).trans ?_)
    simp [hne]
  · refine ⟨_, congrArg Host.Outcome.next ((hrun _ hc).trans ((if_neg hne).trans (if_neg (by simp [hk])))), ?_,
      fun hin => ?_⟩
    · exact State.setStatus_status hl.inRange hl.live _
    · show teamOf s t ∈ ((s.modCo _ _).co _).waiters ∧ ((s.modCo _ _).co _).holder = _
      rw [State.co_modCo_self _ _ _ hin]
      refine ⟨?_, rfl⟩
      split
      · next hc => exact List.contains_iff_mem.mp hc
      · exact List.mem_append_right _ (List.mem_singleton_self _)

/-! ### The matrix commands (R212 to R225) -/

section
variable {s : State} {t : Nat} {x : Option Ext} {d a b : Operand} {k ea eb : Bool}

theorem holdsEngine_ok {m : Bool} (hc : (s.th t).collie = false) (hk : (s.co (s.coreOf t)).holder = some (teamOf s t)) :
    holdsEngine s t m = .ok := by simp [holdsEngine, hc, hk]

theorem holdsEngine_trap {m : Bool} (hc : (s.th t).collie = false) (hk : (s.co (s.coreOf t)).holder ≠ some (teamOf s t)) :
    holdsEngine s t m = .trap 2 0x100 (pcAddr (s.th t).pc) := by simp [holdsEngine, hc, hk, trapHere]

theorem mmaFirst_good (hc : (s.th t).collie = false) (hk : (s.co (s.coreOf t)).holder = some (teamOf s t))
    (h : Given s t [d, a, b] [src b eb] (regsOf (s.th t) d 1)) (hal : recAddr s t b % 16 = 0)
    (hend : recAddr s t b + 32 ≤ bufSize .a) {bl : List Word} (hb : mmaBlock s t b = some bl) : mmaFirst d a b eb s t = .ok := by
  rw [mmaFirst, holdsEngine_ok hc hk, opCheck_given h, Check.ok_andThen, Check.ok_andThen, if_neg (not_not_intro hal),
    if_neg (Nat.not_lt.mpr hend), hb]
  rfl

theorem mem_emptyRows {n : Nat} {bl : List Word} {r : Nat × RegRef} (h : r ∈ emptyRows s t n bl) : s.regFull r.1 r.2 = false := by
  simpa using (List.mem_filter.mp h).2

/-- Without a first register no row has one. -/
theorem allRows_nil {n e : Nat} {bl : List Word} (h : firstReg s t n bl = none) : allRows s t n bl e = [] := by
  rw [allRows, List.flatMap_eq_nil_iff]
  intro r hr
  obtain ⟨i, hi, hrow⟩ := List.mem_filterMap.mp hr
  obtain ⟨u, hu, rfl⟩ := Option.map_eq_some_iff.mp hrow
  by_cases hz : bKe bl = 0
  · simp [hz]
  · rw [firstReg, if_neg hz, Option.map_eq_none_iff, List.head?_eq_none_iff, List.filterMap_eq_nil_iff] at h
    exact absurd (h i hi) (by simp [hu])

/-- The A registers are all full exactly when `mma` waits for none. -/
theorem emptyRows_eq_nil {n : Nat} {bl : List Word} : emptyRows s t n bl = [] ↔
    (∀ r, firstReg s t n bl = some r → s.regFull r.1 r.2 = true) ∧
      ∀ r ∈ allRows s t n bl (elemBits (aTag s t n bl)), s.regFull r.1 r.2 = true := by
  unfold emptyRows
  cases hf : firstReg s t n bl with
  | none => simp [allRows_nil hf]
  | some r =>
    by_cases hr : s.regFull r.1 r.2 = true
    · simp [hr]
    · simp [hr]

theorem matrix_unreserved (hl : Lone s t x) (hc : (s.th t).collie = false) (hk : (s.co (s.coreOf t)).holder ≠ some (teamOf s t))
    {i : Instr} (hi : i = .mma x d a b k eb ∨ i = .mdr x d a k ea eb ∨ i = .mzero x d a) :
    exec i s = .next (s.faultTrap t 2 0x100 (pcAddr (s.th t).pc)) := by
  have hh {m : Bool} (c : Check) : (holdsEngine s t m).andThen c = .trap 2 0x100 (pcAddr (s.th t).pc) := by
    rw [holdsEngine_trap hc hk]; rfl
  rcases hi with rfl | rfl | rfl
  · refine congrArg Host.Outcome.next ((withReads_lone hl (.inr ?_)).trans (runLanes_lone_trap hl ?_))
    · rw [mmaFirst, hh]; rfl
    · rw [mmaCheck, mmaFirst, hh]; rfl
  · exact congrArg Host.Outcome.next (runLanes_lone_trap hl (hh _))
  · exact congrArg Host.Outcome.next (runLanes_lone_trap hl (hh _))

/-- `mma` with operands, a block and its reads in order: its checks and its action. -/
theorem mma_run (hl : Lone s t x) (hw : (s.th t).warp < s.warps.length) (hc : (s.th t).collie = false)
    (hk : (s.co (s.coreOf t)).holder = some (teamOf s t)) (h : Given s t [d, a, b] [src b eb] (regsOf (s.th t) d 1))
    (hal : recAddr s t b % 16 = 0) (hend : recAddr s t b + 32 ≤ bufSize .a) {bl : List Word} (hb : mmaBlock s t b = some bl)
    (hp : s.planted = [])
    (hown : ∀ r ∈ allRows s t (aReg a) bl (elemBits (aTag s t (aReg a) bl)), (ownLred s r.1).contains r.2 = false) :
    (emptyRows s t (aReg a) bl ≠ [] →
      exec (.mma x d a b k eb) s = .next (s.setStatus t (.blocked (.rows (emptyRows s t (aReg a) bl))))) ∧
    (emptyRows s t (aReg a) bl = [] → mmaCode s t (aReg a) bl ≠ 0 → exec (.mma x d a b k eb) s =
      .next (s.faultTrap t 0x0A (mmaCode s t (aReg a) bl) (pcAddr (s.th t).pc))) ∧
    (emptyRows s t (aReg a) bl = [] → mmaCode s t (aReg a) bl = 0 → ownCbLoad s t = false → cmdRoom s (s.coreOf t) 1 = true →
      ∃ u o, exec (.mma x d a b k eb) s = .next u ∧ o.engine = 1 ∧ o.fn = 0 ∧ o.record = bl ∧
        o.dst = regsOf (s.th t) d 1 ∧ o.rows = (List.range (bMe bl)).map (fun i =>
          (rowRegs s t (aReg a) bl (elemBits (aTag s t (aReg a) bl)) i).map (rowBytes s)) ∧
        CommandIssued s u t (extLen x) o) := by
  have hany : ((allRows s t (aReg a) bl (elemBits (aTag s t (aReg a) bl))).any fun r => (ownLred s r.1).contains r.2) = false :=
    List.any_eq_false.mpr fun r hr => Bool.eq_false_iff.mp (hown r hr)
  have hchk : mmaCheck d a b eb s t =
      if !(emptyRows s t (aReg a) bl).isEmpty then .wait (.rows (emptyRows s t (aReg a) bl))
      else if mmaCode s t (aReg a) bl ≠ 0 then trapHere s t 0x0A (mmaCode s t (aReg a) bl)
      else if (decide (aTag s t (aReg a) bl = .cb4) || decide (bTag s (s.coreOf t) bl = .cb4)) && ownCbLoad s t then .wait .retry
      else if cmdRoom s (s.coreOf t) 1 then .ok else .wait .retry := by
    simp only [mmaCheck, mmaFirst_good hc hk h hal hend hb, Check.ok_andThen, hb, Option.getD_some, hany, Bool.false_eq_true,
      if_false]
  refine ⟨fun he => ?_, fun he hcode => ?_, fun he hcode hcb hroom => ?_⟩
  · have hwait : mmaCheck d a b eb s t = .wait (.rows (emptyRows s t (aReg a) bl)) := by
      rw [hchk, if_pos (by simpa using he)]
    refine congrArg Host.Outcome.next ((withReads_lone hl (.inl hp)).trans ((runLanes_lone_step hl (by simp [hwait])).trans ?_))
    rw [hwait]
    rfl
  · refine congrArg Host.Outcome.next ((withReads_lone hl (.inl hp)).trans (runLanes_lone_trap hl ?_))
    rw [hchk, he, if_neg (by simp), if_pos hcode]
    rfl
  · have hok : mmaCheck d a b eb s t = .ok := by
      rw [hchk, he, if_neg (by simp), if_neg (not_not_intro hcode), hcb, Bool.and_false, if_neg (by simp), if_pos hroom]
    refine ⟨_, { newOp s t 1 (regsOf (s.th t) d 1) with
      fn := 0, record := bl, acq := ordAcq x, rel := ordRel x, scope := scopeOf x, atag := aTag s t (aReg a) bl
      btag := bTag s (s.coreOf t) bl
      rows := (List.range (bMe bl)).map fun i =>
        (rowRegs s t (aReg a) bl (elemBits (aTag s t (aReg a) bl)) i).map (rowBytes s)
      acb := if aTag s t (aReg a) bl = .cb4 then some (captureCb s t) else none
      bcb := if bTag s (s.coreOf t) bl = .cb4 then some ⟨bCbb bl, ((s.co (s.coreOf t)).book (bCbb bl)).gen,
        ((s.co (s.coreOf t)).book (bCbb bl)).cur⟩ else none },
      congrArg Host.Outcome.next ((withReads_lone hl (.inl hp)).trans (runPlain_lone hl hok)), rfl, rfl, rfl, rfl, rfl, ?_⟩
    simp only [hb, Option.getD_some, hroom, he, List.isEmpty_nil, Bool.true_and, orWait, if_true]
    exact issueCmd_issued hl hw rfl rfl rfl _

theorem mdr_run (hl : Lone s t x) (hw : (s.th t).warp < s.warps.length) (hc : (s.th t).collie = false)
    (hk : (s.co (s.coreOf t)).holder = some (teamOf s t)) (h : Given s t [d, a] [src a ea] (regsOf (s.th t) d 1))
    (hal : recAddr s t a % 16 = 0) (hend : recAddr s t a + 32 ≤ bufSize .a) (hroom : cmdRoom s (s.coreOf t) 1 = true) :
    ∃ u o, exec (.mdr x d a k ea eb) s = .next u ∧ o.engine = 1 ∧ o.fn = 1 ∧ o.arg = recAddr s t a ∧
      o.dst = regsOf (s.th t) d 1 ∧ CommandIssued s u t (extLen x) o := by
  have hok : (holdsEngine s t false).andThen (recCheck 1 32 d a ea s t) = .ok := by
    rw [holdsEngine_ok hc hk, Check.ok_andThen, recCheck_good h hal hend, hroom]; rfl
  refine ⟨_, { newOp s t 1 (regsOf (s.th t) d 1) with
    fn := 1, arg := recAddr s t a, acq := ordAcq x, rel := ordRel x, scope := scopeOf x },
    congrArg Host.Outcome.next (runPlain_lone hl hok), rfl, rfl, rfl, rfl, ?_⟩
  rw [hroom]
  exact issueCmd_issued hl hw rfl rfl rfl _

theorem mzero_run {m : BitVec 6} (hl : Lone s t x) (hw : (s.th t).warp < s.warps.length) (hc : (s.th t).collie = false)
    (hk : (s.co (s.coreOf t)).holder = some (teamOf s t)) (h : Given s t [d, .v m] [srcN (.v m) 2] (regsOf (s.th t) d 1)) :
    let off := s.regVal t (.v ((s.th t).wbase + m.toNat))
    let len := s.regVal t (.v ((s.th t).wbase + m.toNat + 1))
    (off.toNat % 64 = 0 ∧ len.toNat % 64 = 0 ∧ len ≠ 0 ∧ off.toNat + len.toNat ≤ bufSize .c → cmdRoom s (s.coreOf t) 1 = true →
      ∃ u o, exec (.mzero x d (.v m)) s = .next u ∧ o.engine = 1 ∧ o.fn = 2 ∧ o.record = [off, len] ∧
        o.dst = regsOf (s.th t) d 1 ∧ CommandIssued s u t (extLen x) o) ∧
    (¬(off.toNat % 64 = 0 ∧ len.toNat % 64 = 0 ∧ len ≠ 0 ∧ off.toNat + len.toNat ≤ bufSize .c) →
      exec (.mzero x d (.v m)) s = .next (s.faultTrap t 0x0A 8 (pcAddr (s.th t).pc))) := by
  intro off len
  have hlen : (len.toNat = 0) ↔ len = 0 := by
    rw [← BitVec.toNat_inj]; rfl
  refine ⟨fun hgood hroom => ?_, fun hbad => congrArg Host.Outcome.next (runLanes_lone_trap hl ?_)⟩
  · obtain ⟨ho, hn, hz, he⟩ := hgood
    refine ⟨_, { newOp s t 1 (regsOf (s.th t) d 1) with fn := 2, record := [BitVec.ofNat 32 off.toNat, BitVec.ofNat 32 len.toNat] },
      congrArg Host.Outcome.next (runPlain_lone hl ?_), rfl, rfl, by simp, rfl, ?_⟩
    · rw [holdsEngine_ok hc hk, Check.ok_andThen, opCheck_given h, Check.ok_andThen]
      have hno : ¬((decide (off.toNat % 64 ≠ 0) || decide (len.toNat % 64 ≠ 0) || decide (len.toNat = 0) ||
          decide (bufSize .c < off.toNat + len.toNat)) = true) := by
        have hz' : len.toNat ≠ 0 := fun h0 => hz (hlen.mp h0)
        simp [ho, hn, hz', he]
      exact (if_neg hno).trans (if_pos hroom)
    · rw [hroom]
      exact issueCmd_issued hl hw rfl rfl rfl _
  · rw [holdsEngine_ok hc hk, Check.ok_andThen, opCheck_given h, Check.ok_andThen]
    refine if_pos (?_ : (decide (off.toNat % 64 ≠ 0) || decide (len.toNat % 64 ≠ 0) || decide (len.toNat = 0) ||
      decide (bufSize .c < off.toNat + len.toNat)) = true)
    by_contra hno
    simp [hlen] at hno
    exact hbad (by tauto)

end

theorem matrixCommands : Claims.MatrixCommands := by
  intro s t x d a b k ea eb hl hw
  refine ⟨fun hc hk i hi => matrix_unreserved hl hc hk hi, fun hc hk => ⟨fun h hal hend bl hb hp hown => ?_,
    fun h hal hend hroom => mdr_run hl hw hc hk h hal hend hroom, fun m hm h => ?_⟩⟩
  · obtain ⟨hempty, hbad, hissue⟩ := mma_run (k := k) hl hw hc hk h hal hend hb hp hown
    exact ⟨fun hf => ⟨_, fun hn => hf (emptyRows_eq_nil.mp hn), fun r hr => mem_emptyRows hr,
      hempty fun hn => hf (emptyRows_eq_nil.mp hn)⟩, fun hf => hbad (emptyRows_eq_nil.mpr hf),
      fun hf => hissue (emptyRows_eq_nil.mpr hf)⟩
  · subst hm
    exact mzero_run hl hw hc hk h

/-- Settles O40: the reservation case by case over holder and waiters; each command's check is its reservation, its operands, and
its block, register rows or pair. -/
theorem matrixReservationAndCommands : Obligations.MatrixReservationAndCommands := ⟨reservation, matrixCommands⟩

end Sys2Proof.Machine
end

section
/-! PROOF. Privileged operations (O33), saving and restoring cores (O34). -/

namespace Sys2Proof.Machine

/-! ### Privileged operations (R47, R151, R283) -/

section
variable {s : State} {t : Nat} {x : Option Ext} {a : Operand} {chk : State → Nat → Check} {act start : State → Nat → State}
  {once : Bool}

theorem runPriv_without (hl : Lone s t x) (hp : privileged s t = false) : runPriv x once chk act start s = s.illegal t := by
  simp [runPriv, hl.issuing, hp]

theorem runPriv_with (hl : Lone s t x) (hp : privileged s t = true) : runPriv x once chk act start s = runLanes x once chk act start s := by
  simp [runPriv, hl.issuing, hp]

/-- Without privilege no CTXID is read. -/
theorem sysReads_without (hl : Lone s t x) (hp : privileged s t = false) : sysReads chk a s t = [] := by
  simp [sysReads, hl.issuing, hp]

theorem sysReads_quiet {fields : List Operand} {dst : List RegRef} (h : Given s t fields [src a] dst) :
    s.planted = [] ∨ sysReads chk a s t = [] := by
  refine h.quiet.imp_right fun hq => ?_
  unfold sysReads
  split
  · exact nbrReads_nil hq s t
  · rfl

theorem privilegeRequired : Claims.PrivilegeRequired := by
  intro s t x d a i hl hp hi
  have hill : s.illegal t = s.faultTrap t 1 0 (pcAddr (s.th t).pc) := rfl
  rcases hi with rfl | rfl | rfl | rfl | rfl
  · exact congrArg Host.Outcome.next (runPriv_without hl hp)
  · exact congrArg Host.Outcome.next ((withReads_lone hl (.inr (sysReads_without hl hp))).trans (runPriv_without hl hp))
  · exact congrArg Host.Outcome.next ((withReads_lone hl (.inr (sysReads_without hl hp))).trans (runPriv_without hl hp))
  · exact congrArg Host.Outcome.next (runPriv_without hl hp)
  · have hnames : haltNames x a s = [] := by simp [haltNames, hl.issuing, hp]
    refine congrArg Host.Outcome.next ((withReads_lone hl (.inr (sysReads_without hl hp))).trans ?_)
    rw [hnames, List.foldl_nil, runPriv_without hl hp, hill]

/-- The CTXID is at hand: as a value, or as a word that a queue has brought. -/
def CtxGiven (s : State) (t : Nat) (a : Operand) (id : Word) : Prop :=
  ((s.th t).popped = [] ∧ allSlots s t 0 [src a] = [.val id]) ∨ ∃ q k, a = .q q ∧ (s.th t).popped = [(k, some id)]

theorem queuesOf_none (ha : ∀ q, a ≠ .q q) : queuesOf [src a] = [] := by
  rw [queuesOf, List.filterMap_eq_nil_iff]
  intro f hf
  obtain rfl := List.mem_singleton.mp hf
  split
  · next n hn => exact absurd hn (ha n)
  · rfl

theorem sysCtx_given {id : Word} (h : CtxGiven s t a id) : sysCtx s t a = id := by
  rcases h with ⟨hp, hs⟩ | ⟨q, k, rfl, hp⟩
  · simp [sysCtx, wordsNow, hp, hs, slotNow]
  · simp [sysCtx, wordsNow, hp, allSlots, slotsOf, src, slotNow]

theorem sysCheck_given {fields : List Operand} {dst : List RegRef} {id : Word} (hg : Given s t fields [src a] dst)
    (h : CtxGiven s t a id) (busy : Word → Bool) :
    sysCheck s t fields a dst busy = if busy id then .wait .retry else .ok := by
  have hctx : (wordsNow s t [src a]).getD 0 0 = id := sysCtx_given h
  have hpops : withPops s t [src a] ((opFault s t fields [src a] dst .ok).andThen (chanCheck s t (queuesOf [src a])))
      ((opWait s t [src a] dst).andThen (nbrCheck (allSlots s t 0 [src a]))) .ok = .ok := by
    rw [opFault_given hg, opWait_given hg, Check.ok_andThen, Check.ok_andThen, Check.ok_andThen]
    rcases h with ⟨hp, hs⟩ | ⟨q, k, rfl, hp⟩
    · have ha : ∀ q, a ≠ .q q := by
        rintro q rfl
        simp [allSlots, slotsOf, src] at hs
      rw [hs, nbrCheck_none (show missing [Slot.val id] = [] from rfl), queuesOf_none ha]
      simp [withPops, hp, chanCheck, Check.ok_andThen, queuesOf_none ha]
    · have hm : missing (allSlots s t 0 [src (.q q)]) = [] := rfl
      rw [nbrCheck_none hm]
      simp [withPops, hp, Check.ok_andThen]
  rw [sysCheck, hpops, Check.ok_andThen, hctx]

/-- What `tlbinv` leaves of a TLB. -/
theorem mem_dropXlate {ctx : Word} {all any : Bool} {die va : Nat} {ts : List TlbEntry} {e : TlbEntry} :
    e ∈ dropXlate ctx all (if any then none else some die) va ts ↔
      e ∈ ts ∧ ¬(e.ctx = ctx ∧ (any = true ∨ e.die = die) ∧ (all = true ∨ e.va = va / 2 ^ e.bits)) := by
  rw [dropXlate, List.mem_filter]
  refine and_congr_right fun _ => ?_
  cases any <;> simp [eq_comm (a := die)] <;> tauto

theorem getD_map_lt {α β : Type} (f : α → β) (l : List α) {i : Nat} (hi : i < l.length) (d : α) (e : β) :
    (l.map f).getD i e = f (l.getD i d) := by
  simp [List.getD_eq_getElem?_getD, hi]

theorem privilegedOperations : Claims.PrivilegedOperations := by
  intro s t x a hl hp
  dsimp only
  refine ⟨fun hg => ?_, ?_, fun id hg hid => ?_⟩
  · refine ⟨_, congrArg Host.Outcome.next ((runPriv_with hl hp).trans (runLanes_lone hl (opCheck_given hg))), fun d e hd => ?_,
      fun c e hc => ?_, ?_, ?_, ⟨fun d b => ?_, fun c sp b => ?_⟩, fun n hn => State.th_retire_other _ _ _ _ hn⟩
    · show e ∈ Die.tlb ((s.dies.map _).getD d _) ↔ _
      rw [getD_map_lt _ _ hd]
      exact mem_dropXlate
    · show e ∈ CoreSt.tlb ((s.cores.map _).getD c _) ↔ _
      rw [getD_map_lt _ _ hc]
      exact mem_dropXlate
    · exact congrArg Thread.pc ((State.th_modTh_self _ _ _ hl.inRange).trans (State.th_modTh_self s _ _ hl.inRange).symm)
    · exact State.retire_keeps Thread.v (fun _ _ => rfl) _ t _ t
    · show Memory.read1 (Die.mem ((s.dies.map _).getD d _)) b = _
      rw [getD_map_proj (g := Die.mem)]
      · rfl
      · exact fun _ => rfl
    · show Memory.read1 (CoreSt.buf ((s.cores.map _).getD c _) sp) b = _
      rw [getD_map_proj (g := (CoreSt.buf · sp))]
      · rfl
      · exact fun _ => by cases sp <;> rfl
  · exact congrArg Host.Outcome.next ((runPriv_with hl hp).trans (runLanes_lone hl rfl))
  · have hchk : haltCheck a s t = .ok := by
      rw [haltCheck, sysCheck_given hg hid]; rfl
    have hnames : haltNames x a s = [id] := by
      simp [haltNames, hl.issuing, hl.guard, hp, hchk, sysCtx_given hid]
    refine congrArg Host.Outcome.next ((withReads_lone hl (sysReads_quiet hg)).trans ?_)
    rw [hnames, runPriv_with hl hp, runLanes_lone hl hchk]
    show State.haltCtx _ id = _
    have hctx : ((s.usePops t).retire t (extLen x)).ctx id = s.ctx id := by
      unfold State.usePops; split <;> rfl
    rw [State.haltCtx, hctx]

end

/-- Settles O33: without privilege every operation is the trap; with it, each acts as its one lane does. -/
theorem privilegedInstructions : Obligations.PrivilegedInstructions := ⟨privilegeRequired, privilegedOperations⟩

/-! ### Saving and restoring (R276, R277, R283) -/

section
variable {s : State} {t : Nat} {x : Option Ext} {d a : BitVec 6}

theorem sysDone_given (hpop : (s.th t).popped = []) (r : Word) :
    sysDone x (.v d) s t r = (s.fillReg t (.v ((s.th t).wbase + d.toNat)) r .raw).retire t (extLen x) := by
  have hk : ((s.fillReg t (.v ((s.th t).wbase + d.toNat)) r .raw).th t).popped = (s.th t).popped :=
    getD_modify_proj Thread.popped (by intro _; rfl) s.threads t t _
  show (State.usePops (s.fillReg t (.v ((s.th t).wbase + d.toNat)) r .raw) t).retire t (extLen x) = _
  rw [State.usePops, hk, hpop]
  rfl

theorem exec_ctxsave {c : Word} (hl : Lone s t x) (hp : privileged s t = true) (hpop : (s.th t).popped = [])
    (hg : Given s t [.v d, .v a] [src (.v a)] [.v ((s.th t).wbase + d.toNat)]) (hc : CtxGiven s t (.v a) c)
    (hq : (s.ctx c).live = true → ∀ k ∈ residentCores s c, quietCore s k = true) :
    let give (r : Word) : State := (s.fillReg t (.v ((s.th t).wbase + d.toNat)) r .raw).retire t (extLen x)
    exec (.ctxsave x (.v d) (.v a)) s = .next (if sysAnswer s c (residentCores s c) = 0 then
      ((give 0).saveCores (residentCores s c)).modCtx c fun y => { y with saved := true }
      else give (sysAnswer s c (residentCores s c))) := by
  intro give
  have hbusy : ((s.ctx c).live && !(residentCores s c).all (quietCore s)) = false := by
    cases hlive : (s.ctx c).live with
    | false => rfl
    | true => simpa using hq hlive
  refine congrArg Host.Outcome.next ((withReads_lone hl (sysReads_quiet hg)).trans ((runPriv_with hl hp).trans
    ((runLanes_lone hl ((sysCheck_given hg hc _).trans (by rw [hbusy]; rfl))).trans ?_)))
  simp only [sysCtx_given hc, sysDone_given hpop]
  split
  · next h => rw [h]
  · rfl

theorem exec_ctxload {c : Word} (hl : Lone s t x) (hp : privileged s t = true) (hpop : (s.th t).popped = [])
    (hg : Given s t [.v d, .v a] [src (.v a)] [.v ((s.th t).wbase + d.toNat)]) (hc : CtxGiven s t (.v a) c)
    (hq : (s.ctx c).live = true → restoreReady s (savedCores s c) = true) :
    let give (r : Word) : State := (s.fillReg t (.v ((s.th t).wbase + d.toNat)) r .raw).retire t (extLen x)
    exec (.ctxload x (.v d) (.v a)) s = .next (if sysAnswer s c (savedCores s c) = 0 then
      ((give 0).restoreCores (savedCores s c)).modCtx c fun y => { y with saved := false }
      else give (sysAnswer s c (savedCores s c))) := by
  intro give
  have hbusy : ((s.ctx c).live && !restoreReady s (savedCores s c)) = false := by
    cases hlive : (s.ctx c).live with
    | false => rfl
    | true => simpa using hq hlive
  refine congrArg Host.Outcome.next ((withReads_lone hl (sysReads_quiet hg)).trans ((runPriv_with hl hp).trans
    ((runLanes_lone hl ((sysCheck_given hg hc _).trans (by rw [hbusy]; rfl))).trans ?_)))
  simp only [sysCtx_given hc, sysDone_given hpop]
  split
  · next h => rw [h]
  · rfl

theorem sysAnswer_ended {c : Word} {cs : List Nat} (h : (s.ctx c).live = false) : sysAnswer s c cs = 2 := by simp [sysAnswer, h]

theorem sysAnswer_nothing {c : Word} (h : (s.ctx c).live = true) : sysAnswer s c [] = 1 := by simp [sysAnswer, h]

theorem sysAnswer_done {c : Word} {cs : List Nat} (h : (s.ctx c).live = true) (hcs : cs ≠ []) : sysAnswer s c cs = 0 := by
  simp [sysAnswer, h, hcs]

end

theorem savingAndRestoring : Claims.SavingAndRestoring := by
  refine ⟨fun s t x d a hl hp hpop hg => ?_, fun s ctx cs => ⟨fun hlive hpre hne hcl hcs => ?_, fun hlive hsv hnd hcl hr hcs => ?_⟩⟩
  · intro c give
    have hc : CtxGiven s t (.v a) c := .inl ⟨hpop, rfl⟩
    have hsave := exec_ctxsave hl hp hpop hg hc
    have hload := exec_ctxload hl hp hpop hg hc
    refine ⟨fun h => ⟨?_, ?_⟩, fun h => ⟨fun he => ?_, fun he hr => ?_, fun hne hq => ?_, fun hne hr => ?_⟩⟩
    · exact (hsave (by simp [h])).trans (by rw [sysAnswer_ended h]; rfl)
    · exact (hload (by simp [h])).trans (by rw [sysAnswer_ended h]; rfl)
    · exact (hsave (by simp [he])).trans (by rw [he, sysAnswer_nothing h]; rfl)
    · exact (hload (by simp [he, hr])).trans (by rw [he, sysAnswer_nothing h]; rfl)
    · exact (hsave fun _ => hq).trans (by rw [sysAnswer_done h hne]; rfl)
    · exact (hload fun _ => hr).trans (by rw [sysAnswer_done h hne]; rfl)
  · refine congrArg Host.Outcome.next (if_pos ⟨hlive, hpre, hne, ?_, hcl, rfl⟩)
    exact List.all_eq_true.mpr fun c hc => by simpa using hcs c hc
  · refine congrArg Host.Outcome.next (if_pos ⟨hlive, by simp [hsv], ?_, hnd, hcl, hr⟩)
    exact List.all_eq_true.mpr fun c hc => by simpa using hcs c hc

/-! ### What saving and restoring leave (R276, R277) -/

/-- The cores named take a change; the others are as before. -/
theorem foldl_modCo (f : CoreSt → CoreSt) (hf : ∀ k, f (f k) = f k) : ∀ (cs : List Nat) (s : State),
    let u := cs.foldl (fun s c => s.modCo c f) s
    u = { s with cores := u.cores } ∧ u.cores.length = s.cores.length ∧
      ∀ j, u.co j = if j ∈ cs ∧ j < s.cores.length then f (s.co j) else s.co j
  | [], s => ⟨rfl, rfl, fun j => by simp⟩
  | c :: cs, s => by
    obtain ⟨honly, hlen, hco⟩ := foldl_modCo f hf cs (s.modCo c f)
    have hlen0 : (s.modCo c f).cores.length = s.cores.length := List.length_modify ..
    refine ⟨honly, hlen.trans hlen0, fun j => ?_⟩
    rw [List.foldl_cons, hco, hlen0, State.co_modCo]
    by_cases hj : j < s.cores.length
    · by_cases hc : c = j
      · subst hc
        simp [hj, hf]
      · simp [hj, hc, Ne.symm hc]
    · have hcj : ¬(c = j ∧ c < s.cores.length) := fun h => hj (h.1 ▸ h.2)
      simp [hj, hcj]

/-- Nothing but the dies, and the errors that writing meets, may differ. -/
def DiesOnly (s u : State) : Prop := u = { s with dies := u.dies, errinj := u.errinj, planted := u.planted }

theorem DiesOnly.trans {s u v : State} (h : DiesOnly s u) (k : DiesOnly u v) : DiesOnly s v := by
  rw [DiesOnly, k, h]

theorem foldl_touchWrites_only {α : Type} (sites : State → α → List (Place × Nat × Nat)) (l : List α) (s : State) :
    let u := l.foldl (fun s x => s.touchWrites (sites s x)) s
    u = { s with errinj := u.errinj, planted := u.planted } :=
  foldl_keeps (P := fun s u => u = { s with errinj := u.errinj, planted := u.planted }) (fun _ => rfl)
    (fun s u v h k => by rw [k, h]) (fun s x => touchWrites_only s (sites s x)) l s

theorem foldl_setNear_only (l : List (Nat × Nat × Byte)) (s : State) :
    DiesOnly s (l.foldl (fun s x => s.setNear x.1 x.2.1 [x.2.2]) s) :=
  foldl_keeps (P := DiesOnly) (fun _ => rfl) (fun _ _ _ => DiesOnly.trans)
    (fun s x => by rw [State.setNear_only]; rfl) l s

theorem State.setNear_mem (s : State) (d a : Nat) (bs : List Byte) (n : Nat) : ((s.setNear d a bs).die n).mem =
    if d = n ∧ d < s.dies.length then Memory.write (s.die n).mem a bs else (s.die n).mem := by
  rw [State.setNear_only]
  show Die.mem ((s.dies.modify d _).getD n _) = _
  rw [getD_modify]
  split
  · next h => rw [← h.1]; rfl
  · rfl

/-- A byte that none of the writes goes to is as before. -/
theorem foldl_setNear_read1 {d a : Nat} : ∀ (l : List (Nat × Nat × Byte)) (s : State), Memory.wf (s.die d).mem = true →
    (∀ x ∈ l, x.1 ≠ d ∨ x.2.1 ≠ a) →
    Memory.read1 ((l.foldl (fun s x => s.setNear x.1 x.2.1 [x.2.2]) s).die d).mem a = Memory.read1 (s.die d).mem a
  | [], _, _, _ => rfl
  | x :: l, s, hwf, hx => by
    have hmem := s.setNear_mem x.1 x.2.1 [x.2.2] d
    have hwf' : Memory.wf ((s.setNear x.1 x.2.1 [x.2.2]).die d).mem = true := by
      rw [hmem]
      split
      · exact Memory.wf_write _ _ hwf
      · exact hwf
    rw [List.foldl_cons, foldl_setNear_read1 l _ hwf' fun y hy => hx y (List.mem_cons_of_mem _ hy), hmem]
    split
    · next h =>
      have ha : x.2.1 ≠ a := (hx x List.mem_cons_self).resolve_left fun hne => hne h.1
      rw [Memory.read1_write _ _ _ hwf, if_neg]
      simp only [List.length_singleton]
      omega
    · rfl

/-- What saving changes of a core. -/
def CoreSt.unplaced (k : CoreSt) : CoreSt := { k with resident := false, bundles := [] }

/-- What restoring changes of a core. -/
def CoreSt.placed (k : CoreSt) : CoreSt := { k with resident := true, copies := [] }

/-- The cores and cells as saving leaves them, before it writes. -/
def unplacedState (s : State) (cs : List Nat) : State :=
  let s1 := cs.foldl (fun s c => s.modCo c CoreSt.unplaced) s
  { s1 with cells := s1.cells.map fun x => if cs.contains x.core then { x with resident := false } else x }

theorem unplacedState_only (s : State) (cs : List Nat) :
    unplacedState s cs = { s with cores := (unplacedState s cs).cores, cells := (unplacedState s cs).cells } := by
  have h := (foldl_modCo CoreSt.unplaced (fun _ => rfl) cs s).1
  rw [unplacedState, h]

/-- The records of the resident cells are written. -/
def cellarTouched (s : State) (cs : List Nat) : State :=
  (s.cells.filter fun x => x.resident && cs.contains x.core).foldl (fun s x => s.touchWrites (s.cellarSite x)) (unplacedState s cs)

theorem cellarTouched_only (s : State) (cs : List Nat) : cellarTouched s cs = { unplacedState s cs with
    errinj := (cellarTouched s cs).errinj, planted := (cellarTouched s cs).planted } :=
  foldl_touchWrites_only State.cellarSite _ _

theorem saveCores_diesOnly (s : State) (cs : List Nat) : ∃ w, DiesOnly (unplacedState s cs) w ∧ w.dies = s.dies ∧
    s.saveCores cs = (s.saveWrites cs).foldl (fun s x => s.setNear x.1 x.2.1 [x.2.2]) w := by
  refine ⟨cellarTouched s cs, ?_, ?_, rfl⟩
  · rw [cellarTouched_only]
    rfl
  · rw [cellarTouched_only]
    show (unplacedState s cs).dies = _
    rw [unplacedState_only]

theorem saveCores_kept (s : State) (cs : List Nat) :
    (s.saveCores cs).threads = s.threads ∧ (s.saveCores cs).warps = s.warps ∧
      (s.saveCores cs).cores = (unplacedState s cs).cores := by
  obtain ⟨w, hw, -, hu⟩ := saveCores_diesOnly s cs
  have hall := hw.trans (foldl_setNear_only (s.saveWrites cs) w)
  rw [hu]
  refine ⟨?_, ?_, by rw [hall]⟩
  · rw [hall]
    show (unplacedState s cs).threads = _
    rw [unplacedState_only]
  · rw [hall]
    show (unplacedState s cs).warps = _
    rw [unplacedState_only]

theorem unplacedState_co (s : State) (cs : List Nat) (j : Nat) :
    (unplacedState s cs).co j = if j ∈ cs ∧ j < s.cores.length then (s.co j).unplaced else s.co j :=
  (foldl_modCo CoreSt.unplaced (fun _ => rfl) cs s).2.2 j

/-- A thread of the saved cores whose wait for device time has ended is marked so. -/
def dueMark (s : State) (cs : List Nat) (x : Thread) : Thread :=
  match x.status with
  | .blocked (.time n len) =>
    if cs.contains (s.wp x.warp).core && decide (n ≤ s.time.toNat) then { x with status := .blocked (.time 0 len) } else x
  | _ => x

theorem restoreCores_only (s : State) (cs : List Nat) :
    s.restoreCores cs = { s with threads := s.threads.map (dueMark s cs), cores := (s.restoreCores cs).cores } :=
  (foldl_modCo CoreSt.placed (fun _ => rfl) cs _).1

theorem restoreCores_co (s : State) (cs : List Nat) (j : Nat) :
    (s.restoreCores cs).co j = if j ∈ cs ∧ j < s.cores.length then (s.co j).placed else s.co j :=
  (foldl_modCo CoreSt.placed (fun _ => rfl) cs { s with threads := s.threads.map (dueMark s cs) }).2.2 j

theorem restoreCores_th (s : State) (cs : List Nat) (t : Nat) : (s.restoreCores cs).th t = dueMark s cs (s.th t) := by
  rw [restoreCores_only]
  show (s.threads.map (dueMark s cs)).getD t Thread.blank = dueMark s cs (s.threads.getD t Thread.blank)
  by_cases ht : t < s.threads.length
  · rw [getD_map_lt _ _ ht]
  · rw [List.getD_eq_default _ _ (by simpa using ht), List.getD_eq_default _ _ (by simpa using ht)]
    rfl

theorem savedStateIsKept : Claims.SavedStateIsKept := by
  intro s cs hcs u v
  obtain ⟨hth, hwp, hco⟩ := saveCores_kept s cs
  have huco (j : Nat) : u.co j = if j ∈ cs ∧ j < s.cores.length then (s.co j).unplaced else s.co j := by
    rw [show u.co j = (unplacedState s cs).co j from congrArg (·.getD j CoreSt.blank) hco]
    exact unplacedState_co s cs j
  refine ⟨hth, hwp, fun c sp => ?_, fun d a hwf hx => ?_, fun c hc => ?_, fun c hc => ?_, ?_,
    ⟨fun d a => ?_, fun c sp a => ?_⟩, fun t => ⟨fun n len hst hn hc => ?_, fun h => ?_⟩⟩
  · rw [huco]
    split
    · cases sp <;> rfl
    · rfl
  · obtain ⟨w, -, hdies, hu⟩ := saveCores_diesOnly s cs
    have hdie : w.die d = s.die d := congrArg (·.getD d Die.blank) hdies
    rw [show u = _ from hu, foldl_setNear_read1 _ w (hdie ▸ hwf) hx, hdie]
  · rw [huco, if_pos ⟨hc, hcs c hc⟩]
    rfl
  · rw [show v.co c = _ from restoreCores_co s cs c, if_pos ⟨hc, hcs c hc⟩]
    exact ⟨rfl, rfl⟩
  · rw [show v = _ from restoreCores_only s cs]
  · rw [show v = _ from restoreCores_only s cs]
    rfl
  · rw [show v.co c = _ from restoreCores_co s cs c]
    split
    · cases sp <;> rfl
    · rfl
  · rw [show v.th t = _ from restoreCores_th s cs t, dueMark, hst]
    have hc' : cs.contains (s.wp (s.th t).warp).core = true := List.contains_iff_mem.mpr hc
    exact if_pos (by rw [hc', decide_eq_true hn]; rfl)
  · rw [show v.th t = _ from restoreCores_th s cs t, dueMark]
    split
    · next n len hst =>
      exact if_neg fun hc => by
        simp only [Bool.and_eq_true, decide_eq_true_eq, List.contains_iff_mem] at hc
        exact h n len hst hc.2 hc.1
    · rfl

/-- Settles O34: the instructions by their check and answer; saving by a fold over cores and one over the bytes written, restoring by
a fold over cores. -/
theorem contextSaveAndRestore : Obligations.ContextSaveAndRestore := ⟨savingAndRestoring, savedStateIsKept⟩

end Sys2Proof.Machine
end

section
/-! PROOF. Special registers and device time (O32). -/

namespace Sys2Proof.Machine

/-! ### `gets` and `sets` (R112, R279) -/

section
variable {s : State} {t : Nat} {x : Option Ext}

theorem flagsDue_iff : flagsDue s t = true ↔ ∃ u ∈ (s.wpOf t).threads, (s.th u).deferred ≠ [] ∨ (s.th u).popJob = true := by
  simp [flagsDue]

theorem sregWait_deferred {n : Nat} (hn : n = 0x020) (h : flagsDue s t = true) : sregWait s t n = .wait (.deferred false) := by
  rw [sregWait, hn, h]; rfl

theorem sregWait_window {n : Nat} (hn : n = 0x012) (h : windowBusy s t = true) : sregWait s t n = .wait (.deferred true) := by
  rw [sregWait, hn, windowWait, h]; rfl

theorem sregWait_ok {n : Nat} (h1 : ¬(n = 0x020 ∧ flagsDue s t = true)) (h2 : ¬(n = 0x012 ∧ windowBusy s t = true)) :
    sregWait s t n = .ok := by
  have hf : (decide (n = 0x020) && flagsDue s t) = false := Bool.eq_false_iff.mpr fun h => h1 (by simpa using h)
  rw [sregWait, if_neg (by simp [hf])]
  split
  · next hn =>
    rw [windowWait, if_neg fun h => h2 ⟨hn, h⟩]
  · rfl

end

theorem sregReadable_iff (n : BitVec 11) : sregReadable n = true ↔ n.toNat ∈ [0, 1, 2, 3, 4, 5, 6, 7, 8, 9, 0xA, 0xB, 0xC, 0xD,
    0x10, 0x11, 0x12, 0x13, 0x14, 0x15, 0x16, 0x18, 0x19, 0x1A, 0x1B, 0x20, 0x21, 0x22, 0x23, 0x24, 0x25, 0x28, 0x29, 0x2A, 0x2B] := by
  simp only [sregReadable, Bool.or_eq_true, Bool.and_eq_true, decide_eq_true_eq, List.mem_cons, List.not_mem_nil, or_false]
  omega

theorem sregWritable_iff (n : BitVec 11) :
    sregWritable n = true ↔ n.toNat ∈ [0x10, 0x11, 0x12, 0x14, 0x15, 0x16, 0x20, 0x24, 0x28] :=
  List.contains_iff_mem

theorem specialRegisterAccess : Claims.SpecialRegisterAccess := by
  refine ⟨fun s t x d a n hl => ?_, fun n x d a => ⟨sregReadable_iff n, sregWritable_iff n, fun h => ?_, fun h => ?_⟩⟩
  · intro deferred window waits
    have hwait {chk : State → Nat → Check} {act : State → Nat → State} {once : Bool} (hchk : chk s t = sregWait s t n.toNat) :
        (¬deferred → ¬window → runPlain x once chk act s = act s t) ∧
        (deferred → runPlain x once chk act s = s.setStatus t (.blocked (.deferred false))) ∧
        (window → runPlain x once chk act s = s.setStatus t (.blocked (.deferred true))) := by
      refine ⟨fun h1 h2 => runPlain_lone hl (hchk.trans (sregWait_ok (fun h => h1 ⟨h.1, flagsDue_iff.mp h.2⟩) h2)), fun h => ?_, fun h => ?_⟩
      · have hw := hchk.trans (sregWait_deferred h.1 (flagsDue_iff.mpr h.2))
        exact (runLanes_lone_step hl (by simp [hw])).trans (by rw [hw]; rfl)
      · have hw := hchk.trans (sregWait_window h.1 h.2)
        exact (runLanes_lone_step hl (by simp [hw])).trans (by rw [hw]; rfl)
    refine ⟨fun _ hg => ?_, fun _ hg => ?_⟩
    · obtain ⟨h1, h2, h3⟩ := hwait (once := d.isS)
        (chk := fun s t => (opCheck s t [d] [] (regsOf (s.th t) d 1)).andThen (sregWait s t n.toNat))
        (act := fun s t => ((latchTime s t n.toNat).writeDst t d (regsOf (s.th t) d 1) (outW (sregVal s t n.toNat))).retire t (extLen x))
        (by rw [opCheck_given hg, Check.ok_andThen])
      exact ⟨fun a b => congrArg _ (h1 a b), fun a => congrArg _ (h2 a), fun a => congrArg _ (h3 a)⟩
    · obtain ⟨h1, h2, h3⟩ := hwait (once := false)
        (chk := fun s t => (opCheck s t [a] [src a] []).andThen (sregWait s t n.toNat))
        (act := fun s t => (setSreg s t n.toNat (addrReg s t a)).retire t (extLen x))
        (by rw [opCheck_given hg, Check.ok_andThen])
      exact ⟨fun a b => congrArg _ (h1 a b), fun a => congrArg _ (h2 a), fun a => congrArg _ (h3 a)⟩
  · simp [Instr.legal, h]
  · simp [Instr.legal, h]

/-! ### What the registers hold (R112) -/

theorem launchWords_some {s : State} {t l : Nat} (h : s.launchOf t = some l) : launchWords s t = (s.la l).words := by
  simp [launchWords, h]

theorem specialRegisterValues : Claims.SpecialRegisterValues := by
  intro s t x k n
  refine ⟨⟨rfl, fun h => ?_, fun h => ?_, rfl, rfl, rfl, rfl, rfl, rfl, rfl⟩, ⟨fun l i hl hi => ?_, fun l hl hc => ?_, fun hc => ?_,
    fun hc => ⟨?_, ?_, ?_⟩, fun c hc => ⟨?_, ?_, ?_⟩⟩, ⟨rfl, rfl, rfl, rfl, fun i hi r hr => ?_, rfl, rfl, rfl, rfl, ?_⟩, rfl, ?_, rfl, rfl, rfl,
    rfl⟩
  · exact if_pos h
  · exact if_neg (Bool.eq_false_iff.mp h)
  · have hw := launchWords_some hl
    interval_cases i
    all_goals
      show (launchWords s t).getD _ 0 = _
      rw [hw]
      rfl
  · show BitVec.ofNat 32 (widthOf s t) = _
    rw [widthOf, if_neg (Bool.eq_false_iff.mp hc), launchWords_some hl]
    rfl
  · show BitVec.ofNat 32 (widthOf s t) = _
    rw [widthOf, if_pos hc]
    rfl
  · show BitVec.ofNat 32 (teamWarps s t) = _
    rw [teamWarps, State.cellOf, hc] <;> rfl
  · show BitVec.ofNat 32 (((s.cellOf t).map Cell.q).getD 0 / _) = _
    rw [State.cellOf, hc]
    simp
  · show BitVec.ofNat 32 (((s.cellOf t).map Cell.q).getD 0 % _) = _
    rw [State.cellOf, hc]
    simp
  · show BitVec.ofNat 32 (teamWarps s t) = _
    rw [teamWarps, cellOf_some hc] <;> rfl
  · show BitVec.ofNat 32 (((s.cellOf t).map Cell.q).getD 0 / ((s.cellOf t).map fun c => phasesOf (s.la c.launch).desc).getD 1) = _
    rw [cellOf_some hc]
    rfl
  · show BitVec.ofNat 32 (((s.cellOf t).map Cell.q).getD 0 % ((s.cellOf t).map fun c => phasesOf (s.la c.launch).desc).getD 1) = _
    rw [cellOf_some hc]
    rfl
  · have hx (j : Nat) (hj : (s.th t).lc[j]? = some r) : ((s.th t).lc.getD j ⟨0, none, 0⟩).n = r.n := by
      rw [List.getD_eq_getElem?_getD, hj]
      rfl
    interval_cases i
    all_goals exact hx _ hr
  · show (x.faultAddr.extractLsb' 32 32 ++ x.faultAddr.extractLsb' 0 32 : BitVec 64) = _
    ext i hi
    rw [BitVec.getElem_append]
    split
    · simp [BitVec.getLsbD_eq_getElem hi]
    · next h => simp [Nat.add_sub_cancel' (Nat.le_of_not_lt h), BitVec.getLsbD_eq_getElem hi]
  · show ((k.book x.cbsel.toNat).gen.zeroExtend 32 : Word) = _
    rw [CoreSt.book]
    cases k.books.find? fun b => b.table = x.cbsel.toNat with
    | none => rfl
    | some b => rfl

/-! ### What `sets` leaves (R92, R112, R113) -/

/-- The thread's registers after a write of special register n. -/
theorem setSreg_th {s : State} {t n : Nat} {w : Word} (ht : t < s.threads.length) : (setSreg s t n w).th t = { s.th t with
    lnk := if n = 0x010 then w &&& 0xFFFFFFFC else (s.th t).lnk
    meet := if n = 0x011 then if w = 0xFFFFFFFF then none else some (w &&& 0xFFFFFFFC) else (s.th t).meet
    bc := if n = 0x012 then w.setWidth 6 else (s.th t).bc
    lc := if 0x014 ≤ n ∧ n ≤ 0x016 then (s.th t).lc.modify (n - 0x014) fun r => { r with n := w } else (s.th t).lc
    cbsel := if n = 0x024 then w.setWidth 6 else (s.th t).cbsel
    iptidx := if n = 0x028 then w.setWidth 16 else (s.th t).iptidx } := by
  unfold setSreg
  split
  case h_10 h1 h2 h3 h4 h5 h6 h7 h8 h9 =>
    have hlc : ¬(0x014 ≤ n ∧ n ≤ 0x016) := by
      have h4' : n ≠ 0x014 := h4
      have h5' : n ≠ 0x015 := h5
      have h6' : n ≠ 0x016 := h6
      omega
    rw [if_neg h1, if_neg h2, if_neg h3, if_neg hlc, if_neg h8, if_neg h9]
  case h_7 => rfl
  all_goals exact (State.th_modTh_self s t _ ht).trans (by simp)

theorem setSreg_only (s : State) (t n : Nat) (w : Word) :
    setSreg s t n w = { s with threads := (setSreg s t n w).threads, warps := (setSreg s t n w).warps } := by
  unfold setSreg
  split <;> rfl

theorem setSreg_others (s : State) (t n : Nat) (w : Word) : OthersSame s (setSreg s t n w) t := by
  intro k hk
  unfold setSreg
  split
  case h_10 | h_7 => rfl
  all_goals exact (State.th_modTh s t k _).trans (if_neg fun h => hk h.1.symm)

/-- Nothing of a warp but FPSTAT changes, and that by FPSTAT's own number. -/
theorem setSreg_wp (s : State) (t n : Nat) (w : Word) : ∃ f, (setSreg s t n w).wp (s.th t).warp = { s.wp (s.th t).warp with fp := f } ∧
    (n ≠ 0x020 → f = (s.wp (s.th t).warp).fp) ∧ (n = 0x020 → (s.th t).warp < s.warps.length → f = w.setWidth 5) := by
  by_cases hn : n = 0x020
  · subst hn
    have h : (setSreg s t 0x020 w).wp (s.th t).warp = _ := State.wp_modWp s (s.th t).warp (s.th t).warp _
    by_cases hw : (s.th t).warp < s.warps.length
    · exact ⟨_, h.trans (if_pos ⟨rfl, hw⟩), fun h => absurd rfl h, fun _ _ => rfl⟩
    · exact ⟨_, h.trans (if_neg fun h => hw h.2), fun h => absurd rfl h, fun _ h => absurd h hw⟩
  · refine ⟨_, ?_, fun _ => rfl, fun h => absurd h hn⟩
    unfold setSreg
    split
    case h_7 => exact absurd rfl hn
    all_goals rfl

section
variable {s : State} {t n : Nat} {w : Word}

theorem setSreg_wpOf (ht : t < s.threads.length) : ∃ f, (setSreg s t n w).wpOf t = { s.wpOf t with fp := f } ∧
    (n ≠ 0x020 → f = (s.wpOf t).fp) ∧ (n = 0x020 → (s.th t).warp < s.warps.length → f = w.setWidth 5) := by
  obtain ⟨f, hf, h⟩ := setSreg_wp s t n w
  refine ⟨f, ?_, h⟩
  rw [State.wpOf, setSreg_th ht]
  exact hf

/-- The thread's place is as before: its core, team, launch, cell and context. -/
theorem setSreg_place (ht : t < s.threads.length) : let u := setSreg s t n w
    u.coreOf t = s.coreOf t ∧ u.tmOf t = s.tmOf t ∧ u.launchOf t = s.launchOf t ∧ u.cellOf t = s.cellOf t ∧
      u.ctxOf t = s.ctxOf t := by
  intro u
  obtain ⟨f, hf, -⟩ := setSreg_wpOf (n := n) (w := w) ht
  have honly : u = _ := setSreg_only s t n w
  have hco : u.coreOf t = s.coreOf t := by rw [State.coreOf, hf]; rfl
  have htm : u.tmOf t = s.tmOf t := by
    rw [State.tmOf, hf, honly]
    rfl
  refine ⟨hco, htm, by rw [State.launchOf, htm]; rfl, ?_, ?_⟩
  · have hcell : (u.th t).cell = (s.th t).cell := by rw [show u.th t = _ from setSreg_th ht]
    rw [State.cellOf, hcell, honly]
    rfl
  · rw [State.ctxOf, hco, honly]
    rfl

/-- A write of another register leaves a loop counter as it was. -/
theorem loopWrite_other {l : List LoopReg} {i : Nat} (hn : n ≠ 0x014 + i) (d : LoopReg) :
    (if 0x014 ≤ n ∧ n ≤ 0x016 then l.modify (n - 0x014) fun r => { r with n := w } else l).getD i d = l.getD i d := by
  split
  · rw [getD_modify, if_neg (by omega)]
  · rfl

/-- A register reads as before a write of another, but for CBGEN and IPTVAL, which follow CBSEL and IPTIDX. -/
theorem sregVal_setSreg_other (ht : t < s.threads.length) {m : Nat} (hm : m ≠ n) (hcb : ¬(n = 0x024 ∧ m = 0x025))
    (hipt : ¬(n = 0x028 ∧ m = 0x029)) : sregVal (setSreg s t n w) t m = sregVal s t m := by
  obtain ⟨f, hf, hfp, -⟩ := setSreg_wpOf (n := n) (w := w) ht
  obtain ⟨hco, htm, hla, hcell, hctx⟩ := setSreg_place (n := n) (w := w) ht
  have hth := setSreg_th (n := n) (w := w) ht
  have honly := setSreg_only s t n w
  generalize setSreg s t n w = u at *
  have hlw : launchWords u t = launchWords s t := by rw [launchWords, hla, honly]; rfl
  have hteam : teamWarps u t = teamWarps s t := by
    have hpart (c : Cell) : partitionSize u c = partitionSize s c := by rw [partitionSize, honly]; rfl
    rw [teamWarps, hcell, htm, hth]
    simp only [hpart]
    rfl
  have hwidth : widthOf u t = widthOf s t := by rw [widthOf, hlw, hth]; rfl
  have hk : u.co (s.coreOf t) = s.co (s.coreOf t) := by rw [honly]; rfl
  have hndie : u.ndie = s.ndie := by rw [honly]; rfl
  have htime : u.time = s.time := by rw [honly]
  have hdesc (c : Cell) : (u.la c.launch).desc = (s.la c.launch).desc := by rw [honly]; rfl
  have hiptv (i : Nat) (img : Word) : u.ipt i img = s.ipt i img := by rw [honly]; rfl
  unfold sregVal
  simp only [hco, htm, hcell, hctx, hf, hlw, hteam, hwidth, hk, hndie, htime, hdesc, hiptv, hth]
  split
  case h_15 | h_16 => rw [if_neg hm.symm]
  case h_17 => rw [if_neg hm.symm]
  case h_19 => rw [loopWrite_other (i := 0) hm.symm]
  case h_20 => rw [loopWrite_other (i := 1) hm.symm]
  case h_21 => rw [loopWrite_other (i := 2) hm.symm]
  case h_26 => rw [hfp hm.symm]
  case h_30 | h_32 => rw [if_neg hm.symm]
  case h_31 => rw [if_neg fun h => hcb ⟨h, rfl⟩]
  case h_33 => rw [if_neg fun h => hipt ⟨h, rfl⟩]
  all_goals rfl

end

/-- The low k bits of a word, and no others. -/
theorem setWidth_zeroExtend_eq_and (w : Word) {k : Nat} (hk : k ≤ 32) :
    ((w.setWidth k).zeroExtend 32 : Word) = w &&& BitVec.ofNat 32 (2 ^ k - 1) := by
  refine BitVec.eq_of_toNat_eq ?_
  have h1 : 2 ^ k ≤ 2 ^ 32 := Nat.pow_le_pow_right (by decide) hk
  have h2 : 0 < 2 ^ k := Nat.two_pow_pos k
  rw [BitVec.toNat_and, BitVec.toNat_ofNat, Nat.mod_eq_of_lt (by omega : 2 ^ k - 1 < 2 ^ 32), Nat.and_two_pow_sub_one_eq_mod,
    BitVec.zeroExtend, BitVec.toNat_setWidth, BitVec.toNat_setWidth,
    Nat.mod_eq_of_lt (Nat.lt_of_lt_of_le (Nat.mod_lt _ h2) h1)]

theorem specialRegisterWrites : Claims.SpecialRegisterWrites := by
  intro s t n w ht back
  have hth (k : Nat) := setSreg_th (n := k) (w := w) ht
  refine ⟨?_, ?_, ?_, fun i hi hlc => ?_, ?_, ?_, fun hw => ?_, fun m hm hcb hipt => sregVal_setSreg_other ht hm hcb hipt, ?_, ?_,
    setSreg_others s t n w⟩
  · exact congrArg Thread.lnk (hth 0x010)
  · refine (congrArg (fun x : Thread => x.meet.getD 0xFFFFFFFF) (hth 0x011)).trans ?_
    show (if w = 0xFFFFFFFF then none else some (w &&& 0xFFFFFFFC) : Option Word).getD 0xFFFFFFFF = _
    split
    · next h => exact h.symm
    · rfl
  · exact (congrArg (fun x : Thread => (x.bc.zeroExtend 32 : Word)) (hth 0x012)).trans (setWidth_zeroExtend_eq_and w (by decide))
  · have hback : back (0x014 + i) = (((setSreg s t (0x014 + i) w).th t).lc.getD i ⟨0, none, 0⟩).n := by
      interval_cases i <;> rfl
    have hmod := (congrArg Thread.lc (hth (0x014 + i))).trans (if_pos ⟨Nat.le_add_right _ _, by omega⟩)
    rw [hback, hmod, Nat.add_sub_cancel_left, getD_modify, if_pos ⟨rfl, hlc⟩]
  · exact (congrArg (fun x : Thread => (x.cbsel.zeroExtend 32 : Word)) (hth 0x024)).trans (setWidth_zeroExtend_eq_and w (by decide))
  · exact (congrArg (fun x : Thread => (x.iptidx.zeroExtend 32 : Word)) (hth 0x028)).trans (setWidth_zeroExtend_eq_and w (by decide))
  · obtain ⟨f, hf, -, hfp⟩ := setSreg_wpOf (n := 0x020) (w := w) ht
    refine (congrArg (fun x : Warp => (x.fp.zeroExtend 32 : Word)) hf).trans ?_
    show (f.zeroExtend 32 : Word) = _
    rw [hfp rfl hw]
    exact setWidth_zeroExtend_eq_and w (by decide)
  · rw [setSreg_only]
  · rw [setSreg_only]

/-! ### Device time (R277, R281) -/

theorem timedWaitIssue {s : State} {t : Nat} {x : Option Ext} (hl : Lone s t x) {chk : State → Nat → Check} {n : Nat}
    (hc : chk s t = if n ≤ s.time.toNat then .ok else .wait (.time n (extLen x))) :
    let run := runPlain x false chk (fun s t => s.retire t (extLen x)) s
    (n ≤ s.time.toNat → run = s.retire t (extLen x)) ∧
      (s.time.toNat < n → run = s.setStatus t (.blocked (.time n (extLen x)))) := by
  refine ⟨fun h => runPlain_lone hl (hc.trans (if_pos h)), fun h => ?_⟩
  have hw := hc.trans (if_neg (Nat.not_le.mpr h))
  exact (runLanes_lone_step hl (by simp [hw])).trans (by rw [hw]; rfl)

theorem expire_of_time {s : State} {t n len : Nat} (h : (s.th t).status = .blocked (.time n len)) :
    s.expire t = if n ≤ s.time.toNat ∧ (s.co (s.coreOf t)).resident = true then s.retire t len else s := by
  rw [State.expire, h]

theorem expiredSaved_of_time {s : State} {t n len : Nat} (h : (s.th t).status = .blocked (.time n len)) :
    expiredSaved s t = (decide (n = 0) && (s.co (s.coreOf t)).resident) := by
  unfold expiredSaved
  rw [h]
  cases n with
  | zero => rfl
  | succ n => rfl

/-- Nothing but the threads differs, and of them those that the list does not name are as before. -/
structure Expired (s u : State) (ts : List Nat) : Prop where
  frame : u = { s with threads := u.threads }
  done : ∀ t ∈ ts, ∀ l, (s.th t).status = .blocked (.time 0 l) → (s.co (s.coreOf t)).resident = true → u.th t = Thread.advance l (s.th t)
  others : ∀ t, t ∉ ts → u.th t = s.th t

theorem expire_others (s : State) (t k : Nat) (hk : k ≠ t) : (s.expire t).th k = s.th k := by
  unfold State.expire
  split
  · split
    · exact State.th_retire_other _ _ _ _ hk
    · rfl
  · rfl

theorem expire_frame (s : State) (t : Nat) : s.expire t = { s with threads := (s.expire t).threads } := by
  unfold State.expire
  split
  · split <;> rfl
  · rfl

/-- A thread that waits exists. -/
theorem inRange_of_blocked {s : State} {t : Nat} {b : Block} (h : (s.th t).status = .blocked b) : t < s.threads.length := by
  by_contra hout
  rw [State.th, List.getD_eq_default _ _ (Nat.not_lt.mp hout)] at h
  exact nomatch h

theorem foldl_expire : ∀ (ts : List Nat) (s : State), ts.Nodup → Expired s (ts.foldl State.expire s) ts
  | [], s, _ => ⟨rfl, nofun, fun _ _ => rfl⟩
  | a :: ts, s, hnd => by
    obtain ⟨hnot, hnd⟩ := List.nodup_cons.mp hnd
    obtain ⟨hframe, hdone, hothers⟩ := foldl_expire ts (s.expire a) hnd
    have hf := expire_frame s a
    refine ⟨?_, fun t ht l hst hres => ?_, fun t ht => ?_⟩
    · rw [List.foldl_cons, hframe, hf]
    · by_cases hta : t = a
      · subst hta
        have hin := inRange_of_blocked hst
        refine (hothers t hnot).trans ?_
        rw [expire_of_time hst, if_pos ⟨Nat.zero_le _, hres⟩]
        exact State.th_modTh_self s t _ hin
      · have hmem : t ∈ ts := (List.mem_cons.mp ht).resolve_left hta
        have hth := expire_others s a t hta
        have hco : (s.expire a).coreOf t = s.coreOf t := by rw [State.coreOf, State.wpOf, hth, hf]; rfl
        refine (hdone t hmem l (by rw [hth, hst]) ?_).trans (by rw [hth])
        rw [hco, hf]
        exact hres
    · exact (hothers t (List.not_mem_of_not_mem_cons ht)).trans (expire_others s a t (List.ne_of_not_mem_cons ht))

/-- The check of `twait`: a thread that waits looks at the time it waits for, another reads it from its operand. -/
def twaitCheck (x : Option Ext) (a : Operand) (ea : Bool) (s : State) (t : Nat) : Check :=
  let due (s : State) (n : Nat) : Check := if n ≤ s.time.toNat then .ok else .wait (.time n (extLen x))
  match (s.th t).status with
  | .blocked (.time n _) => due s n
  | _ => (opCheck s t [a] [srcN a 2 ea] []).andThen (due s (waitTime s t a))

theorem exec_twait (s : State) (x : Option Ext) (a : Operand) (ea : Bool) :
    exec (.twait x a ea) s = .next (runPlain x false (twaitCheck x a ea) (fun s t => s.retire t (extLen x)) s) := rfl

theorem twaitCheck_waiting {s : State} {t n l : Nat} {x : Option Ext} {a : Operand} {ea : Bool}
    (h : (s.th t).status = .blocked (.time n l)) :
    twaitCheck x a ea s t = if n ≤ s.time.toNat then .ok else .wait (.time n (extLen x)) := by
  rw [twaitCheck, h]

theorem twaitCheck_given {s : State} {t : Nat} {x : Option Ext} {a : Operand} {ea : Bool}
    (h : ∀ n l, (s.th t).status ≠ .blocked (.time n l)) (hg : Given s t [a] [srcN a 2 ea] []) :
    twaitCheck x a ea s t = if waitTime s t a ≤ s.time.toNat then .ok else .wait (.time (waitTime s t a) (extLen x)) := by
  unfold twaitCheck
  split
  · next n l hn => exact absurd hn (h n l)
  · rw [opCheck_given hg, Check.ok_andThen]

theorem exec_twaitExpiry_single {s : State} {t : Nat} (h : expiredSaved s t = false) :
    exec (.twaitExpiry t) s = .next (s.expire t) := congrArg Host.Outcome.next (if_neg (Bool.eq_false_iff.mp h))

theorem timedWait : Claims.TimedWait := by
  refine ⟨fun s t x a ea hl => ?_, fun s t n len hst => ?_⟩
  · intro due ws
    refine ⟨fun hst hg => ?_, fun n l hst => ?_⟩
    · obtain ⟨h1, h2⟩ := timedWaitIssue hl (twaitCheck_given hst hg)
      exact ⟨fun h => congrArg _ (h1 h), fun h => congrArg _ (h2 h)⟩
    · obtain ⟨h1, h2⟩ := timedWaitIssue hl (twaitCheck_waiting (a := a) (ea := ea) hst)
      exact ⟨fun h => congrArg _ (h1 h), fun h => congrArg _ (h2 h)⟩
  · intro here
    have hexp := expiredSaved_of_time hst
    refine ⟨fun hn hle hh => ?_, fun hn hh => ?_, fun h => ?_⟩
    · have hno : expiredSaved s t = false := by rw [hexp, decide_eq_false (Nat.pos_iff_ne_zero.mp hn)]; rfl
      rw [exec_twaitExpiry_single hno, expire_of_time hst, if_pos ⟨hle, hh⟩]
    · have hyes : expiredSaved s t = true := by rw [hexp, decide_eq_true hn]; exact hh
      obtain ⟨hframe, hdone, hothers⟩ := foldl_expire ((List.range s.threads.length).filter (expiredSaved s)) s
        (List.nodup_range.filter _)
      refine ⟨_, congrArg Host.Outcome.next (if_pos hyes), fun v l hv hres => hdone v ?_ l hv hres, fun v hv => hothers v ?_, ?_⟩
      · exact List.mem_filter.mpr ⟨List.mem_range.mpr (inRange_of_blocked hv), by rw [expiredSaved_of_time hv]; exact hres⟩
      · exact fun hm => Bool.eq_false_iff.mp hv (List.mem_filter.mp hm).2
      · rw [hframe]
        exact ⟨fun _ _ => rfl, fun _ _ _ => rfl⟩
    · have hbad : ¬(n ≤ s.time.toNat ∧ (s.co (s.coreOf t)).resident = true) := fun ⟨hle, hres⟩ =>
        h.elim (fun hlt => Nat.not_lt.mpr hle hlt) fun hh => Bool.eq_false_iff.mp hh hres
      have hno : expiredSaved s t = false := by
        rw [hexp, Bool.and_eq_false_imp]
        intro hz
        obtain rfl : n = 0 := by simpa using hz
        exact Bool.eq_false_iff.mpr fun hres => hbad ⟨Nat.zero_le _, hres⟩
      rw [exec_twaitExpiry_single hno, expire_of_time hst, if_neg hbad]

/-- Settles O32: an access by its check; the values by the table; a write by the fields it leaves; `twait` by device time. -/
theorem specialRegistersAndTime : Obligations.SpecialRegistersAndTime :=
  ⟨specialRegisterAccess, specialRegisterValues, specialRegisterWrites, timedWait⟩

end Sys2Proof.Machine
end

section
/-! PROOF. Taking a trap (O30), its end and the return from it (O31). -/

namespace Sys2Proof.Machine

/-! ### Delivery (R64, R271, R273) -/

section
variable {s : State} {t : Nat} {i : TrapInfo}

/-- Where the thread's frame is (R271). -/
def frameAt (s : State) (t : Nat) : Nat :=
  (s.ctxOf t).addr48 4 + 16 * (2049 * (s.co (s.coreOf t)).core + (if (s.th t).collie then 2048 else (s.th t).slot))

/-- The entry that carries the frame. -/
def frameEntry (s : State) (t : Nat) (i : TrapInfo) (pa : Nat) : Entry :=
  s.entry t .n pa (.store ([(s.th t).pc, i.rpc, i.code, (s.th t).meet.getD 0xFFFFFFFF].flatMap wBytes))

theorem deliverTrap_unhandled (h : (s.ctxOf t).addr48 2 = 0 ∨ (s.th t).inHandler = true) :
    s.deliverTrap t i = s.endCtx (s.ctxOf t).id 4 i.code := if_pos h

theorem deliverTrap_handled {p : Pte} {pa : Nat} (hh : (s.ctxOf t).addr48 2 ≠ 0) (hi : (s.th t).inHandler = false)
    (htr : s.translate (some (s.coreOf t)) (s.ctxOf t).id (s.co (s.coreOf t)).ldie (frameAt s t) .store = .ok (p, pa)) :
    s.deliverTrap t i = (s.useXlate (some (s.coreOf t)) (s.ctxOf t).id (s.co (s.coreOf t)).ldie (frameAt s t) p).enterHandler t
      (frameEntry s t i pa) i (frameAt s t) (BitVec.ofNat 32 ((s.ctxOf t).addr48 2)) := by
  have hno : ¬((s.ctxOf t).addr48 2 = 0 ∨ (s.th t).inHandler = true) := by simp [hh, hi]
  refine (if_neg hno).trans ?_
  unfold frameAt at htr
  rw [htr] <;> rfl

theorem deliverTrap_unmapped {e : BitVec 4} (hh : (s.ctxOf t).addr48 2 ≠ 0) (hi : (s.th t).inHandler = false)
    (htr : s.translate (some (s.coreOf t)) (s.ctxOf t).id (s.co (s.coreOf t)).ldie (frameAt s t) .store = .error e) :
    s.deliverTrap t i = (s.walkEcc (some (s.coreOf t)) (s.ctxOf t).id (s.co (s.coreOf t)).ldie (frameAt s t)).endCtx
      (s.ctxOf t).id 4 i.code := by
  have hno : ¬((s.ctxOf t).addr48 2 = 0 ∨ (s.th t).inHandler = true) := by simp [hh, hi]
  refine (if_neg hno).trans ?_
  unfold frameAt at htr
  rw [htr] <;> rfl

/-- What entering the handler leaves of a live thread and of everything else. -/
theorem enterHandler_spec {u : State} (ht : t < u.threads.length) (hl : u.live t = true) (e : Entry) (frame : Nat) (handler : Word) :
    let v := u.enterHandler t e i frame handler
    v.th t = { u.th t with
      status := .ready, faultCode := i.code, faultAddr := i.addr, meet := none, inHandler := true, frame := frame
      pc := handler &&& 0xFFFFFFFC } ∧ OthersSame u v t ∧ SameMemory u v ∧
      (u.coreOf t < u.cores.length → (v.co (u.coreOf t)).wq = (u.co (u.coreOf t)).wq ++ [e]) := by
  have hv : u.enterHandler t e i frame handler = (u.modCo (u.coreOf t) fun k => { k with wq := k.wq ++ [e] }).bump.modTh t fun x => { x with
      status := .ready, faultCode := i.code, faultAddr := i.addr, meet := none, inHandler := true, frame := frame
      pc := handler &&& 0xFFFFFFFC } := if_neg (by simp [hl])
  rw [hv]
  refine ⟨State.th_modTh_self _ _ _ ht, fun n hn => (State.th_modTh _ _ _ _).trans (if_neg fun h => hn h.1.symm),
    ⟨fun _ _ => rfl, fun c sp a => ?_⟩, fun hc => ?_⟩
  · show Memory.read1 (((u.cores.modify _ _).getD c _).buf sp) a = _
    rw [getD_modify_proj fun k : CoreSt => k.buf sp]
    · rfl
    · exact fun k => by cases sp <;> rfl
  · exact congrArg CoreSt.wq (State.co_modCo_self u _ _ hc)

end

theorem trapDelivery : Claims.TrapDelivery := by
  intro s t i p pa ht hlive hcore x c frame hh hi hp htr u
  have hu : u = (s.tlbFill (some (s.coreOf t)) c.id (s.co (s.coreOf t)).ldie frame p).enterHandler t (frameEntry s t i pa) i frame
      (BitVec.ofNat 32 (c.addr48 2)) :=
    (deliverTrap_handled hh hi htr).trans (by rw [State.useXlate_clean _ _ _ _ _ _ hp]; rfl)
  have hc : CachesOnly s _ := s.tlbFill_caches (some (s.coreOf t)) c.id (s.co (s.coreOf t)).ldie frame p
  obtain ⟨hth, hothers, hmem, hwq⟩ := enterHandler_spec (u := s.tlbFill (some (s.coreOf t)) c.id (s.co (s.coreOf t)).ldie frame p)
    (i := i) (hc.threads ▸ ht) ((hc.live t).trans hlive) (frameEntry s t i pa) frame (BitVec.ofNat 32 (c.addr48 2))
  rw [hc.th] at hth
  have hco : (s.tlbFill (some (s.coreOf t)) c.id (s.co (s.coreOf t)).ldie frame p).coreOf t = s.coreOf t := by
    rw [State.coreOf, State.wpOf, hc.th, hc.wp]; rfl
  rw [hco, hc.cores] at hwq
  obtain ⟨tlb, ic, hk⟩ := hc.core (s.coreOf t)
  have hmem' : SameMemory s _ := ⟨fun d a => (hmem.1 d a).trans (hc.sameMemory.1 d a), fun c sp a =>
    (hmem.2 c sp a).trans (hc.sameMemory.2 c sp a)⟩
  have hothers' : OthersSame s _ t := fun n hn => (hothers n hn).trans (hc.th n)
  rw [← hu] at hth hwq hmem' hothers'
  refine ⟨?_, ?_, ?_, ?_, ?_, ?_, ?_, ?_, ?_, ?_, ?_, ⟨frameEntry s t i pa, ?_, rfl, rfl, rfl⟩, hmem', hothers'⟩
  case refine_12 => exact (hwq hcore).trans (by rw [hk])
  all_goals rw [hth]

theorem trapsWaitForStores : Claims.TrapsWaitForStores := by
  intro s t code rpc addr hl
  have hn : ¬((!s.live t) = true) := by simp [hl]
  refine ⟨fun h => ?_, fun h => ?_, fun i hst h => ?_, fun i hst h => ?_⟩
  · exact (if_neg hn).trans (if_pos h)
  · exact (if_neg hn).trans (if_neg (Bool.eq_false_iff.mp h))
  · refine congrArg Host.Outcome.next ?_
    rw [hst] <;> exact if_pos h
  · refine congrArg Host.Outcome.next ?_
    rw [hst] <;> exact if_neg (Bool.eq_false_iff.mp h)

/-- Settles O30: delivery is the entry of the handler with the frame's store, once nothing of the thread's warp is on its way. -/
theorem trapEntry : Obligations.TrapEntry := ⟨trapDelivery, trapsWaitForStores⟩

/-! ### The end of a context by a trap (R272) -/

/-- The match of `rte` on what the frame's read gives, as its check. -/
theorem exec_rte_inside {s : State} {t : Nat} {x : Option Ext} (hl : Lone s t x) (hi : (s.th t).inHandler = true) :
    (∀ u, s.readFrame t = .ended u → exec (.rte x) s = .next u) ∧
    ∀ u rpc meet, s.readFrame t = .ok u rpc meet → exec (.rte x) s = .next (u.returnTrap t rpc meet (extLen x)) := by
  have hall : s.issuing.all (fun t => (s.th t).inHandler) = true := by simp [hl.issuing, hi]
  refine ⟨fun u hu => ?_, fun u rpc meet hu => ?_⟩
  · refine congrArg Host.Outcome.next ((if_pos hall).trans ((runPlain_lone hl ?_).trans ?_))
    · rw [hu] <;> rfl
    · rw [hu] <;> rfl
  · refine congrArg Host.Outcome.next ((if_pos hall).trans ((runPlain_lone hl ?_).trans ?_))
    · rw [hu] <;> rfl
    · rw [hu] <;> rfl

theorem readFrame_unmapped {s : State} {t : Nat} {e : BitVec 4} (hp : s.planted = [])
    (htr : s.translate (some (s.coreOf t)) (s.ctxIdOf t) (s.ldieOf t) (s.th t).frame .load = .error e) :
    s.readFrame t = .ended (s.endCtx (s.ctxIdOf t) 4 (s.th t).faultCode) := by
  unfold State.readFrame
  dsimp only
  rw [htr]
  simp only [State.walkEcc_clean _ _ _ _ _ hp]

theorem unhandledTrapEndsContext : Claims.UnhandledTrapEndsContext := by
  refine ⟨fun s t i => ?_, fun s t x hl hi hp htr => ?_⟩
  · intro c frame h
    by_cases hend : c.addr48 2 = 0 ∨ (s.th t).inHandler = true
    · rw [deliverTrap_unhandled hend]
      exact State.endCtx_ended _ _ _ _
    · obtain ⟨hh, hi⟩ := not_or.mp hend
      obtain ⟨hp, e, htr⟩ := (h.resolve_left hh).resolve_left hi
      rw [deliverTrap_unmapped hh (Bool.eq_false_iff.mpr hi) htr, State.walkEcc_clean _ _ _ _ _ hp]
      exact State.endCtx_ended _ _ _ _
  · obtain ⟨e, htr⟩ := htr
    exact ⟨_, (exec_rte_inside hl hi).1 _ (readFrame_unmapped hp htr), State.endCtx_ended _ _ _ _⟩

/-! ### Loads of near memory with nothing on the way (R52) -/

/-- Where no entry covers the bytes, the location itself is seen. -/
theorem viewBytes_of_none {own wq : List Entry} {sp : Space} {die a : Nat} {base : List Byte}
    (h : ∀ i, i < base.length → viewByte own wq sp die (a + i) = .none) : viewBytes own wq sp die a base = some base := by
  have hseen : (List.range base.length).map (fun i => viewByte own wq sp die (a + i)) = List.replicate base.length .none :=
    List.ext_getElem (by simp) fun i h1 h2 => by simp [h i (by simpa using h1)]
  have hzip : ∀ base : List Byte, ((List.replicate base.length Seen.none).zip base).map (fun x => match x.1 with | .byte b => b | _ => x.2) =
      base := fun base => by
    refine List.ext_getElem (by simp) fun i h1 h2 => ?_
    simp
  have hw : (List.replicate base.length Seen.none).contains .wait = false := by simp
  unfold viewBytes
  rw [hseen]
  exact (if_neg (Bool.eq_false_iff.mp hw)).trans (congrArg some (hzip base))

theorem viewBytes_nil (sp : Space) (die a : Nat) (base : List Byte) : viewBytes [] [] sp die a base = some base :=
  viewBytes_of_none fun _ _ => rfl

theorem Memory.read_drop_take (m : Memory) (a n k j : Nat) (h : k + j ≤ n) :
    ((Memory.read m a n).drop k).take j = Memory.read m (a + k) j := by
  refine List.ext_getElem ?_ fun i h1 h2 => ?_
  · simp [Memory.read_length]
    omega
  · rw [Memory.read_length] at h2
    have hl := Memory.read_getD m a n (k + i) (by omega)
    have hr := Memory.read_getD m (a + k) j i h2
    rw [List.getD_eq_getElem _ _ (by rw [Memory.read_length]; omega)] at hl hr
    rw [List.getElem_take, List.getElem_drop, hl, hr, Nat.add_assoc]

/-- A load of near memory, with nothing of the thread on its way and no planted error, takes near memory's bytes, from the core's copy
or from the memory, whose line is then the core's copy. -/
theorem nearLoad_quiet {s : State} {t : Nat} {l : Load} {use : Bool} (hp : s.planted = []) (hown : (s.wpOf t).fifo = [])
    (hq : s.queuedFor (s.coreOf t) l.core = [])
    (hcopy : ∀ c, (s.co l.core).copyOf l.die (l.addr / 64) = some c →
      (c.bytes.drop (l.addr % 64)).take (szBytes l.sz) = s.near l.die l.addr (szBytes l.sz)) :
    ∃ v, s.nearLoad t l use = .ok v (s.near l.die l.addr (szBytes l.sz)) ∧ (v = s ∨ v = s.fillLine l.core l.die (l.addr / 64)) := by
  have hview (base : List Byte) : loadView s t l base = some base := by
    rw [loadView, hown, hq]
    exact viewBytes_nil _ _ _ _
  unfold State.nearLoad
  dsimp only
  cases hc : ((s.co l.core).copyOf l.die (l.addr / 64)).filter fun c => use && copyServes (s.th t) l.acq c with
  | some c =>
    have hb := hcopy c (Option.filter_eq_some_iff.mp hc).1
    simp only [hb, hview]
    exact ⟨s, rfl, .inl rfl⟩
  | none =>
    simp only [hview, State.eccGuard_clean _ _ _ _ _ _ hp]
    split
    · exact ⟨s, rfl, .inl rfl⟩
    · exact ⟨_, rfl, .inr rfl⟩

/-! ### The return (R275) -/

theorem finishLoad_bare {s : State} {t : Nat} {l : Load} (hd : l.dst = []) (ha : l.acq = false) (ws : List Word) :
    finishLoad s t l ws = s.modTh t fun x => { x with loads := x.loads.filter fun p => p.ord ≠ l.ord, lastLoad := s.tick } := by
  rw [finishLoad, ha, hd]
  cases ws <;> rfl

/-- What two loads without destinations leave: TLBs, instruction caches and copies, and the thread's record of its loads. -/
structure LookedOnly (s u : State) (t : Nat) : Prop where
  planted : u.planted = s.planted
  warps : u.warps = s.warps
  threads : u.threads.length = s.threads.length
  self : ∃ ls k, u.th t = { s.th t with loads := ls, lastLoad := k }
  others : OthersSame s u t
  mem : ∀ d, (u.die d).mem = (s.die d).mem
  core : ∀ c, ∃ tlb ic cs, u.co c = { s.co c with tlb := tlb, icache := ic, copies := cs }
  place : u.place = s.place

namespace LookedOnly

variable {s u v : State} {t : Nat}

theorem trans (h : LookedOnly s u t) (k : LookedOnly u v t) : LookedOnly s v t := by
  refine ⟨k.planted.trans h.planted, k.warps.trans h.warps, k.threads.trans h.threads, ?_,
    fun n hn => (k.others n hn).trans (h.others n hn), fun d => (k.mem d).trans (h.mem d), fun c => ?_, k.place.trans h.place⟩
  · obtain ⟨a, b, hu⟩ := h.self
    obtain ⟨c, d, hv⟩ := k.self
    exact ⟨c, d, by rw [hv, hu]⟩
  · obtain ⟨a, b, c1, hu⟩ := h.core c
    obtain ⟨d, e, f, hv⟩ := k.core c
    exact ⟨d, e, f, by rw [hv, hu]⟩

theorem of_caches (h : CachesOnly s u) : LookedOnly s u t :=
  ⟨h.planted, h.warps, by rw [h.threads], ⟨_, _, h.th t⟩, fun n _ => h.th n, h.mem, fun c => by
    obtain ⟨a, b, hc⟩ := h.core c
    exact ⟨a, b, _, hc⟩, by rw [h.only]⟩

theorem of_fillLine (s : State) (c d l : Nat) : LookedOnly s (s.fillLine c d l) t := by
  refine ⟨rfl, rfl, rfl, ⟨_, _, rfl⟩, fun _ _ => rfl, fun _ => rfl, fun k => ?_, rfl⟩
  rw [State.fillLine, State.co_modCo]
  split
  · next h =>
    obtain ⟨rfl, -⟩ := h
    exact ⟨_, _, _, rfl⟩
  · exact ⟨_, _, _, rfl⟩

theorem of_finishLoad {l : Load} (hd : l.dst = []) (ha : l.acq = false) (ws : List Word) : LookedOnly s (finishLoad s t l ws) t := by
  rw [finishLoad_bare hd ha]
  refine ⟨rfl, rfl, List.length_modify .., ?_, fun n hn => ?_, fun _ => rfl, fun _ => ⟨_, _, _, rfl⟩, rfl⟩
  · rw [State.th_modTh]
    split
    · exact ⟨_, _, rfl⟩
    · exact ⟨_, _, rfl⟩
  · exact (State.th_modTh _ _ _ _).trans (if_neg fun h => hn h.1.symm)

theorem sameMemory (h : LookedOnly s u t) : SameMemory s u := by
  refine ⟨fun d a => by rw [h.mem], fun c sp a => ?_⟩
  obtain ⟨_, _, _, hc⟩ := h.core c
  rw [hc]
  cases sp <;> rfl

theorem near (h : LookedOnly s u t) (d a n : Nat) : u.near d a n = s.near d a n := by rw [State.near, h.mem]; rfl

theorem wpOf (h : LookedOnly s u t) : u.wpOf t = s.wpOf t := by
  obtain ⟨_, _, hu⟩ := h.self
  rw [State.wpOf, hu, State.wp, h.warps]
  rfl

theorem wq (h : LookedOnly s u t) (c : Nat) : (u.co c).wq = (s.co c).wq := by
  obtain ⟨_, _, _, hc⟩ := h.core c
  rw [hc]

end LookedOnly

/-- The copies of a core after a line was filled, when it had none. -/
theorem copyOf_fillLine {s : State} {c d line d' line' : Nat} (h : (s.co c).copies = []) {k : Copy}
    (hk : ((s.fillLine c d line).co c).copyOf d' line' = some k) :
    d' = d ∧ line' = line ∧ k.bytes = s.near d (64 * line) 64 := by
  have hc : ((s.fillLine c d line).co c).copies = [] ∨
      ((s.fillLine c d line).co c).copies = [⟨d, line, s.near d (64 * line) 64, s.tick, false⟩] := by
    rw [State.fillLine, State.co_modCo]
    split
    · exact .inr (by rw [h]; rfl)
    · exact .inl h
  rcases hc with hc | hc
  · rw [CoreSt.copyOf, hc] at hk
    exact absurd hk (by simp)
  · rw [CoreSt.copyOf, hc] at hk
    obtain rfl := List.mem_singleton.mp (List.mem_of_find?_eq_some hk)
    obtain ⟨h1, h2⟩ : d = d' ∧ line = line' := by simpa using List.find?_some hk
    exact ⟨h1.symm, h2.symm, rfl⟩

theorem LookedOnly.queued {s u : State} {t : Nat} (h : LookedOnly s u t) (hwq : (s.co (s.coreOf t)).wq = []) :
    u.queuedFor (u.coreOf t) (s.coreOf t) = [] := by
  have hco : u.coreOf t = s.coreOf t := by rw [State.coreOf, h.wpOf]; rfl
  rw [State.queuedFor, hco, h.wq, hwq, if_pos rfl]
  rfl

/-- The frame of a thread with nothing on its way is read from near memory. -/
theorem readFrame_quiet {s : State} {t : Nat} {p : Pte} {pa : Nat} (hlive : s.live t = true) (hp : s.planted = [])
    (hf : (s.wpOf t).fifo = []) (hl : (s.th t).loads = []) (hwq : (s.co (s.coreOf t)).wq = []) (hcp : (s.co (s.coreOf t)).copies = [])
    (htr : s.translate (some (s.coreOf t)) (s.ctxIdOf t) (s.ldieOf t) (s.th t).frame .load = .ok (p, pa)) (hal : pa % 16 = 0) :
    ∃ u, s.readFrame t = .ok u (wOf (s.near (s.pdie (s.ldieOf t)) (pa + 4) 4)) (wOf (s.near (s.pdie (s.ldieOf t)) (pa + 12) 4)) ∧
      LookedOnly s u t := by
  have hwait : (!(s.th t).memLoads.isEmpty || loadHeld (s.th t) (s.frameLoad t (pa + 4))) = false := by
    simp [Thread.memLoads, loadHeld, hl]
  let s1 := s.tlbFill (some (s.coreOf t)) (s.ctxIdOf t) (s.ldieOf t) (s.th t).frame p
  have hc : CachesOnly s s1 := s.tlbFill_caches _ _ _ _ _
  have h1 : LookedOnly s s1 t := .of_caches hc
  have hcp1 : (s1.co (s.coreOf t)).copies = [] := by
    obtain ⟨_, _, hk⟩ := hc.core (s.coreOf t)
    rw [hk, hcp]
  -- the word RPC
  obtain ⟨s2, hr, hs2⟩ := nearLoad_quiet (s := s1) (t := t) (l := s.frameLoad t (pa + 4)) (use := Config.freeBit s.tick (2 * t + 1))
    (h1.planted.trans hp) (h1.wpOf ▸ hf) (h1.queued hwq) fun c h => by simp [CoreSt.copyOf, State.frameLoad, hcp1] at h
  have h2 : LookedOnly s s2 t := by
    rcases hs2 with rfl | rfl
    · exact h1
    · exact h1.trans (.of_fillLine _ _ _ _)
  have h3 : LookedOnly s (finishLoad s2 t (s.frameLoad t (pa + 4)) []) t := h2.trans (.of_finishLoad rfl rfl _)
  -- the word MEET, of the same line
  obtain ⟨s4, hm, hs4⟩ := nearLoad_quiet (s := finishLoad s2 t (s.frameLoad t (pa + 4)) []) (t := t) (l := s.frameLoad t (pa + 12))
    (use := Config.freeBit s.tick (2 * t + 2)) (h3.planted.trans hp) (h3.wpOf ▸ hf) (h3.queued hwq) fun c h => by
      rw [finishLoad_bare rfl rfl] at h
      rcases hs2 with rfl | rfl
      · exact absurd h (by simp [CoreSt.copyOf, State.frameLoad, hcp1])
      · obtain ⟨-, hline, hb⟩ := copyOf_fillLine hcp1 h
        rw [hb, h3.near, h1.near]
        show ((s.near _ _ 64).drop ((pa + 12) % 64)).take 4 = s.near _ (pa + 12) 4
        have hline' : (pa + 12) / 64 = (pa + 4) / 64 := hline
        rw [State.near, State.near, Memory.read_drop_take _ _ _ _ _ (by omega), State.frameLoad, ← hline']
        exact congrArg (Memory.read _ · 4) (by omega)
  have h4 : LookedOnly s (finishLoad s4 t (s.frameLoad t (pa + 12)) []) t := by
    refine LookedOnly.trans ?_ (.of_finishLoad rfl rfl _)
    rcases hs4 with rfl | rfl
    · exact h3
    · exact h3.trans (.of_fillLine _ _ _ _)
  refine ⟨_, ?_, h4⟩
  have hlive1 : s1.live t = true := (hc.live t).trans hlive
  unfold State.readFrame
  dsimp only
  rw [htr]
  dsimp only
  rw [h1.near] at hr
  rw [h3.near] at hm
  simp only [hwait, State.useXlate_clean _ _ _ _ _ _ hp, show s.tlbFill _ _ _ _ _ = s1 from rfl, hlive1, hr, hm, Bool.false_eq_true,
    Bool.not_true, if_false]
  rfl

theorem returnTrap_spec {s : State} {t : Nat} (ht : t < s.threads.length) (hl : s.live t = true) (rpc meet : Word) (len : Nat) :
    let u := s.returnTrap t rpc meet len
    (u.th t).inHandler = false ∧ (u.th t).status = .ready ∧
      (u.th t).meet = (if meet = 0xFFFFFFFF then none else some (meet &&& 0xFFFFFFFC)) ∧
      (rpc &&& 0xFFFFFFFC ≠ (s.th t).pc + BitVec.ofNat 32 len → (u.th t).pc = rpc &&& 0xFFFFFFFC) ∧
      (u.th t).v = (s.th t).v ∧ (u.th t).p = (s.th t).p ∧ (u.th t).lnk = (s.th t).lnk ∧ SameMemory s u ∧ OthersSame s u t := by
  intro u
  let m : Option Word := if meet = 0xFFFFFFFF then none else some (meet &&& 0xFFFFFFFC)
  let s1 := s.modTh t fun x => { x with meet := m, inHandler := false }
  have hne : (s.th t).status ≠ .exited := by simpa [State.live] using hl
  have h1 : s1.th t = { s.th t with meet := m, inHandler := false } := State.th_modTh_self _ _ _ ht
  have ht1 : t < s1.threads.length := (List.length_modify ..).symm ▸ ht
  have hoth1 (n : Nat) (hn : n ≠ t) : s1.th n = s.th n := (State.th_modTh _ _ _ _).trans (if_neg fun h => hn h.1.symm)
  have hready : (s.th t).status.to .ready = .ready := if_neg hne
  by_cases hj : rpc &&& 0xFFFFFFFC = (s.th t).pc + BitVec.ofNat 32 len
  · have hu : u = s1.retire t len := if_pos (by rw [h1]; exact hj)
    have hth : u.th t = Thread.advance len { s.th t with meet := m, inHandler := false } := by
      rw [hu, State.th_retire, if_pos ⟨rfl, ht1⟩, h1]
    rw [hth, Thread.advance_only]
    refine ⟨rfl, hready, rfl, fun h => absurd hj h, rfl, rfl, rfl, ?_, fun n hn => ?_⟩
    · rw [hu]
      exact ⟨fun _ _ => rfl, fun _ _ _ => rfl⟩
    · rw [hu, State.th_retire_other _ _ _ _ hn, hoth1 n hn]
  · have hu : u = s1.modTh t fun x => { x with pc := rpc &&& 0xFFFFFFFC, status := x.status.to .ready } :=
      if_neg (by rw [h1]; exact hj)
    have hth : u.th t = { s.th t with meet := m, inHandler := false, pc := rpc &&& 0xFFFFFFFC, status := .ready } := by
      rw [hu, State.th_modTh_self _ _ _ ht1, h1]
      simp only [hready]
    rw [hth]
    refine ⟨rfl, rfl, rfl, fun _ => rfl, rfl, rfl, rfl, ?_, fun n hn => ?_⟩
    · rw [hu]
      exact ⟨fun _ _ => rfl, fun _ _ _ => rfl⟩
    · rw [hu]
      exact ((State.th_modTh _ _ _ _).trans (if_neg fun h => hn h.1.symm)).trans (hoth1 n hn)

theorem returnFromTrap : Claims.ReturnFromTrap := by
  intro s t x hi
  refine ⟨fun hh => ?_, fun u rpc meet hl hh hr => (exec_rte_inside hl hh).2 u rpc meet hr, fun p pa hl hh hp hf hlo hwq hcp htr hal => ?_⟩
  · have hall : ¬(s.issuing.all (fun t => (s.th t).inHandler) = true) := by simp [hi, hh]
    refine congrArg Host.Outcome.next ((if_neg hall).trans ?_)
    rw [hi]
    exact if_pos (by rw [hh]; rfl)
  · intro rpc meet
    obtain ⟨u, hu, hlook⟩ := readFrame_quiet hl.live hp hf hlo hwq hcp htr hal
    obtain ⟨ls, k, hself⟩ := hlook.self
    have hin : t < u.threads.length := hlook.threads.symm ▸ hl.inRange
    obtain ⟨h1, h2, h3, h4, h5, h6, h7, hmem, hoth⟩ := returnTrap_spec hin (by rw [State.live, hself]; exact hl.live) rpc meet (extLen x)
    rw [hself] at h4 h5 h6 h7
    exact ⟨_, (exec_rte_inside hl hh).2 u _ _ hu, h1, h2, h3, h4, h5, h6, h7,
      ⟨fun d a => (hmem.1 d a).trans (hlook.sameMemory.1 d a), fun c sp a => (hmem.2 c sp a).trans (hlook.sameMemory.2 c sp a)⟩,
      fun n hn => (hoth n hn).trans (hlook.others n hn)⟩

/-- Settles O31: the end of a context is `State.endCtx_ended`; the return reads the frame as two loads of one line. -/
theorem trapEndAndReturn : Obligations.TrapEndAndReturn := ⟨unhandledTrapEndsContext, returnFromTrap⟩

end Sys2Proof.Machine
end

section
/-! PROOF. The registers of control space (O50). -/

namespace Sys2Proof.Machine

/-! ### Ports -/

theorem State.port_modPort (s : State) (p q : BitVec 1) (f : Port → Port) :
    (s.modPort p f).port q = if p = q ∧ p.toNat < s.ports.length then f (s.port p) else s.port q := by
  have h : (s.modPort p f).port q = _ := getD_modify s.ports p.toNat q.toNat f Port.reset
  rw [h]
  by_cases hpq : p = q
  · simp [hpq, State.port]
  · have hne : p.toNat ≠ q.toNat := fun h => hpq (BitVec.eq_of_toNat_eq h)
    simp [hpq, hne, State.port]

theorem State.port_modPort_self {s : State} (h : s.ports.length = 2) (p : BitVec 1) (f : Port → Port) :
    (s.modPort p f).port p = f (s.port p) := by
  rw [State.port_modPort, if_pos ⟨rfl, by omega⟩]

/-- The registers of a completion ring that the host writes are as before. -/
def RingKept (s u : State) : Prop := ∀ q, (u.port q).hcqlo = (s.port q).hcqlo ∧ (u.port q).hcqhi = (s.port q).hcqhi ∧
  (u.port q).hcqsize = (s.port q).hcqsize ∧ (u.port q).hcqhead = (s.port q).hcqhead ∧ (u.port q).hcqvec = (s.port q).hcqvec

theorem RingKept.refl (s : State) : RingKept s s := fun _ => ⟨rfl, rfl, rfl, rfl, rfl⟩

theorem RingKept.trans {s u v : State} (h : RingKept s u) (k : RingKept u v) : RingKept s v := fun q => by
  obtain ⟨a, b, c, d, e⟩ := h q
  obtain ⟨a', b', c', d', e'⟩ := k q
  exact ⟨a'.trans a, b'.trans b, c'.trans c, d'.trans d, e'.trans e⟩

theorem RingKept.of_modPort (s : State) (p : BitVec 1) {f : Port → Port} (hf : ∀ x, (f x).hcqlo = x.hcqlo ∧ (f x).hcqhi = x.hcqhi ∧
    (f x).hcqsize = x.hcqsize ∧ (f x).hcqhead = x.hcqhead ∧ (f x).hcqvec = x.hcqvec) : RingKept s (s.modPort p f) := fun q => by
  rw [State.port_modPort]
  split
  · next h =>
    rw [← h.1]
    exact hf _
  · exact ⟨rfl, rfl, rfl, rfl, rfl⟩

theorem raiseVec_ringKept (s : State) (p : BitVec 1) (v : Word) : RingKept s (s.raiseVec p v) := by
  unfold State.raiseVec
  dsimp only
  split
  · exact .refl s
  · split
    · exact .of_modPort s p fun _ => ⟨rfl, rfl, rfl, rfl, rfl⟩
    · exact .refl s

theorem ringRecord_ringKept (s : State) (p : BitVec 1) (r : Record) : RingKept s (s.ringRecord p r) := by
  unfold State.ringRecord
  dsimp only
  split
  · refine RingKept.trans ?_ (raiseVec_ringKept _ p _)
    show RingKept s (s.modPort p fun y => { y with hcqtail := y.hcqtail + 1 })
    exact .of_modPort s p fun _ => ⟨rfl, rfl, rfl, rfl, rfl⟩
  · exact .of_modPort s p fun _ => ⟨rfl, rfl, rfl, rfl, rfl⟩

theorem admitRing_ringKept (p : BitVec 1) : ∀ (n : Nat) (s : State), RingKept s (s.admitRing n p)
  | 0, s => .refl s
  | n + 1, s => by
    unfold State.admitRing
    split
    · exact .refl s
    · next r rs _ =>
      split
      · let s1 := s.modPort p fun y => { y with held := [] }
        have h1 : RingKept s s1 := .of_modPort s p fun _ => ⟨rfl, rfl, rfl, rfl, rfl⟩
        have h2 : RingKept s1 (s1.ringRecord p r) := ringRecord_ringKept s1 p r
        have h3 : RingKept (s1.ringRecord p r) ((s1.ringRecord p r).modPort p fun y => { y with held := rs }) :=
          .of_modPort _ p fun _ => ⟨rfl, rfl, rfl, rfl, rfl⟩
        exact ((h1.trans h2).trans h3).trans (admitRing_ringKept p n _)
      · exact .refl s

/-! ### Events of single registers (R307, R308, R314, R316) -/

theorem controlEvents : Claims.ControlEvents := by
  intro s v req n port
  refine ⟨rfl, rfl, rfl, ⟨_, rfl, ?_, rfl, fun _ _ => rfl, fun _ _ _ => rfl⟩, ⟨_, rfl, fun hn => ?_, rfl, fun _ _ => rfl, fun _ _ _ => rfl⟩⟩
  · show (((⟨req, s.time.extractLsb' 32 32⟩ :: s.requesters.filter _ : List Requester).find? fun r => r.req = req).map
      Requester.latch).getD 0 = _
    rw [List.find?_cons_of_pos (by simp)]
    rfl
  · have h : (s.modLink n fun l => { l with retried := false }).links.getD n Link.reset = _ := getD_modify s.links n n _ Link.reset
    rw [h, if_pos ⟨rfl, hn⟩]
    exact ⟨rfl, rfl⟩

/-! ### Writes (R303, R306, R307) -/

section
variable {s : State} {v : Word} {req : Nat} {port : BitVec 1}

/-- An access of the host to BAR0. -/
abbrev hostAccess (port : BitVec 1) (req off len : Nat) : ControlAccess := ⟨port, req, off, len, .bar0, false⟩

theorem hostWrite_down (h : (s.port port).up = false) (off len : Nat) : exec (.controlRegisterWrite (hostAccess port req off len) v) s = .next s :=
  congrArg Host.Outcome.next (if_pos (by rw [h]; rfl))

theorem hostWrite_up (h : (s.port port).up = true) (off len : Nat) : exec (.controlRegisterWrite (hostAccess port req off len) v) s = .next (
    if off = 0x20040 ∧ len = 4 then s.writeLgo 0 req v
    else if off = 0x21040 ∧ len = 4 then s.writeLgo 1 req v
    else if lgoWaits s req then s
    else if controlOk off len then controlWrite s off v
    else s.unsupported port req) :=
  congrArg Host.Outcome.next ((if_neg (by rw [h]; decide)).trans ((if_neg nofun).trans (if_neg (not_not_intro rfl))))

/-- A good write to a register that is no LGO. -/
theorem hostWrite_good (h : (s.port port).up = true) (hw : lgoWaits s req = false) {off : Nat} (h4 : off % 4 = 0) (hlt : off < 2 ^ 26)
    (h0 : off ≠ 0x20040) (h1 : off ≠ 0x21040) : exec (.controlRegisterWrite (hostAccess port req off 4) v) s = .next (controlWrite s off v) := by
  have hok : controlOk off 4 = true := by simpa [controlOk, h4] using hlt
  rw [hostWrite_up h, if_neg fun hc => h0 hc.1, if_neg fun hc => h1 hc.1, if_neg (Bool.eq_false_iff.mp hw), if_pos hok]

end

theorem bit_cases (p : BitVec 1) : p = 0 ∨ p = 1 := by
  revert p
  decide

/-! ### Reading back (R307) -/

/-- A write leaves this register at a value, and no more than a write of control space changes. -/
structure ReadsBack (s : State) (port : BitVec 1) (req : Nat) (v : Word) (off : Nat) (w : Word) : Prop where
  reads : controlRead (controlWrite s off v) port req off = w
  threads : (controlWrite s off v).threads = s.threads
  ops : (controlWrite s off v).ops = s.ops
  memory : SameMemory s (controlWrite s off v)

/-- The registers that the host writes, with the bits that each keeps. -/
def keptRegisters : List (Nat × Word) :=
  [(0x10000, 0xFFFFFFFF), (0x10004, 0xFFFFFFFF), (0x30000, 0xFFFFFFF0), (0x30004, 0xFFFFFFFF), (0x3000C, 0xFFFFFFFF), (0x30014, 0x3F),
    (0x31000, 0xFFFFFFF0), (0x31004, 0xFFFFFFFF), (0x3100C, 0xFFFFFFFF), (0x31014, 0x3F), (0x50000, 0xE000FFFF),
    (0x50004, 0xFFFFFFFF), (0x50008, 0xFFFF), (0x50100, 0xFFFF), (0x50104, 0x3F), (0x60118, 0x3F), (0x70004, 0x3F), (0x80010, 0x3FF),
    (0x80014, 0xFFFFFFFF), (0x80018, 0x3FF), (0x8001C, 0xFFFFFFFF)]

theorem and_allOnes (v : Word) : v &&& 0xFFFFFFFF = v := BitVec.and_allOnes

section
variable {s : State} {v : Word} {req : Nat} {port : BitVec 1}

theorem ReadsBack.of_modPort (hl : s.ports.length = 2) (p : BitVec 1) (f : Port → Port) {off : Nat} {w : Word}
    (hw : controlWrite s off v = s.modPort p f) (g : Port → Word) (hr : ∀ u, controlRead u port req off = g (u.port p))
    (hg : g (f (s.port p)) = w) : ReadsBack s port req v off w := by
  constructor
  · rw [hr, hw, State.port_modPort_self hl, hg]
  · rw [hw]; rfl
  · rw [hw]; rfl
  · rw [hw]; exact ⟨fun _ _ => rfl, fun _ _ _ => rfl⟩

/-- A write that lets held records into a port's ring. -/
theorem ReadsBack.of_admit (hl : s.ports.length = 2) (p : BitVec 1) (f : Port → Port) (n : Nat) {off : Nat} {w : Word}
    (hw : controlWrite s off v = (s.modPort p f).admitRing n p) (g : Port → Word)
    (hr : ∀ u, controlRead u port req off = g (u.port p)) (hk : ∀ s u : State, RingKept s u → g (u.port p) = g (s.port p))
    (hg : g (f (s.port p)) = w) : ReadsBack s port req v off w := by
  have honly := State.admitRing_only p n (s.modPort p f)
  constructor
  · rw [hr, hw, hk _ _ (admitRing_ringKept p n _), State.port_modPort_self hl, hg]
  · rw [hw, honly]; rfl
  · rw [hw, honly]; rfl
  · rw [hw, honly]; exact ⟨fun _ _ => rfl, fun _ _ _ => rfl⟩

theorem ReadsBack.plain {off : Nat} {w : Word} {u : State} (hw : controlWrite s off v = u) (hr : controlRead u port req off = w)
    (ht : u.threads = s.threads) (ho : u.ops = s.ops) (hm : SameMemory s u) : ReadsBack s port req v off w := by
  subst hw
  exact ⟨hr, ht, ho, hm⟩

theorem keptRegisters_readBack (hl : s.ports.length = 2) : ∀ r ∈ keptRegisters, ReadsBack s port req v r.1 (v &&& r.2) := by
  have hm {u : State} (hd : u.dies = s.dies) (hc : u.cores = s.cores) : SameMemory s u :=
    ⟨fun d a => by rw [State.die, State.die, hd], fun c sp a => by rw [State.co, State.co, hc]⟩
  simp only [keptRegisters, List.forall_mem_cons, List.not_mem_nil, false_imp_iff, implies_true, and_true]
  refine ⟨?_, ?_, ?_, ?_, ?_, ?_, ?_, ?_, ?_, ?_, ?_, ?_, ?_, ?_, ?_, ?_, ?_, ?_, ?_, ?_, ?_⟩
  · exact .plain rfl (and_allOnes v).symm rfl rfl (hm rfl rfl)
  · exact .plain rfl (and_allOnes v).symm rfl rfl (hm rfl rfl)
  · exact .of_modPort hl 0 _ rfl Port.hcqlo (fun _ => rfl) rfl
  · exact .of_modPort hl 0 _ rfl Port.hcqhi (fun _ => rfl) (and_allOnes v).symm
  · exact .of_admit hl 0 _ _ rfl Port.hcqhead (fun _ => rfl) (fun _ _ h => (h 0).2.2.2.1) (and_allOnes v).symm
  · exact .of_modPort hl 0 _ rfl Port.hcqvec (fun _ => rfl) rfl
  · exact .of_modPort hl 1 _ rfl Port.hcqlo (fun _ => rfl) rfl
  · exact .of_modPort hl 1 _ rfl Port.hcqhi (fun _ => rfl) (and_allOnes v).symm
  · exact .of_admit hl 1 _ _ rfl Port.hcqhead (fun _ => rfl) (fun _ _ h => (h 1).2.2.2.1) (and_allOnes v).symm
  · exact .of_modPort hl 1 _ rfl Port.hcqvec (fun _ => rfl) rfl
  · exact .plain rfl rfl rfl rfl (hm rfl rfl)
  · exact .plain rfl (and_allOnes v).symm rfl rfl (hm rfl rfl)
  · exact .plain rfl rfl rfl rfl (hm rfl rfl)
  · exact .plain rfl rfl rfl rfl (hm rfl rfl)
  · exact .plain rfl rfl rfl rfl (hm rfl rfl)
  · exact .plain rfl rfl rfl rfl (hm rfl rfl)
  · exact .plain rfl rfl rfl rfl (hm rfl rfl)
  · exact .of_modPort hl 0 _ rfl Port.hwin (fun _ => rfl) rfl
  · exact .of_modPort hl 0 _ rfl Port.hctx (fun _ => rfl) (and_allOnes v).symm
  · exact .of_modPort hl 1 _ rfl Port.hwin (fun _ => rfl) rfl
  · exact .of_modPort hl 1 _ rfl Port.hctx (fun _ => rfl) (and_allOnes v).symm

end

section
variable {s : State} {v : Word} {req : Nat} {port : BitVec 1}

/-- A write that no register takes. -/
theorem hostWrite_bad (h : (s.port port).up = true) (hw : lgoWaits s req = false) {off len : Nat}
    (hbad : off % 4 ≠ 0 ∨ len ≠ 4 ∨ 2 ^ 26 ≤ off) :
    exec (.controlRegisterWrite (hostAccess port req off len) v) s = .next (s.unsupported port req) ∧
      controlAnswer s port req off len = .unsupported := by
  have hok : controlOk off len = false := by
    simp only [controlOk, Bool.and_eq_false_imp, Bool.and_eq_true, decide_eq_true_eq, decide_eq_false_iff_not]
    omega
  have h0 : ¬(off = 0x20040 ∧ len = 4) := by omega
  have h1 : ¬(off = 0x21040 ∧ len = 4) := by omega
  refine ⟨?_, ?_⟩
  · rw [hostWrite_up h, if_neg h0, if_neg h1, if_neg (Bool.eq_false_iff.mp hw), if_neg (Bool.eq_false_iff.mp hok)]
  · exact if_pos (by rw [hok]; rfl)

theorem lhandleWaits_iff {off : Nat} : lhandleWaits s off = true ↔
    off = 0x20044 ∧ (s.port 0).lgos ≠ [] ∨ off = 0x21044 ∧ (s.port 1).lgos ≠ [] := by
  simp [lhandleWaits]

theorem controlAnswer_good {off : Nat} (h4 : off % 4 = 0) (hlt : off < 2 ^ 26) : controlAnswer s port req off 4 =
    if off = 0x20044 ∧ (s.port 0).lgos ≠ [] ∨ off = 0x21044 ∧ (s.port 1).lgos ≠ [] then .wait
    else .word (controlRead s port req off) := by
  have hok : controlOk off 4 = true := by simpa [controlOk, h4] using hlt
  refine (if_neg (by rw [hok]; decide)).trans ?_
  simp only [lhandleWaits_iff]

theorem isPow2Upto_iff {n : Nat} : isPow2Upto n 65536 = true ∧ 16 ≤ n ↔ ∃ k, 4 ≤ k ∧ k ≤ 16 ∧ n = 2 ^ k := by
  constructor
  · rintro ⟨h, h16⟩
    simp only [isPow2Upto, Bool.and_eq_true, decide_eq_true_eq] at h
    obtain ⟨⟨hn, -⟩, hle⟩ := h
    rw [hn] at h16 hle
    exact ⟨bitLen n - 1, (Nat.pow_le_pow_iff_right (a := 2) (n := 4) (by decide)).mp h16,
      (Nat.pow_le_pow_iff_right (a := 2) (m := 16) (by decide)).mp hle, hn⟩
  · rintro ⟨k, h4, h16, rfl⟩
    interval_cases k <;> decide

/-- The size of a port's ring (R307). -/
theorem ringSize_write (hl : s.ports.length = 2) (p : BitVec 1) :
    (∀ k, 4 ≤ k → k ≤ 16 → v = BitVec.ofNat 32 (2 ^ k) → ReadsBack s port req v (0x30008 + 0x1000 * p.toNat) v) ∧
    ((∀ k, 4 ≤ k → k ≤ 16 → v.toNat ≠ 2 ^ k) → controlWrite s (0x30008 + 0x1000 * p.toNat) v = s) := by
  have hwrite : controlWrite s (0x30008 + 0x1000 * p.toNat) v = if isPow2Upto v.toNat 65536 = true ∧ 16 ≤ v.toNat then
      (s.modPort p fun x => { x with hcqsize := v }).admitRing
        ((s.modPort p fun x => { x with hcqsize := v }).port p).held.length p else s := by
    rcases bit_cases p with rfl | rfl <;> rfl
  have hread (u : State) : controlRead u port req (0x30008 + 0x1000 * p.toNat) = (u.port p).hcqsize := by
    rcases bit_cases p with rfl | rfl <;> rfl
  refine ⟨fun k h4 h16 hv => ?_, fun h => ?_⟩
  · have hgood : isPow2Upto v.toNat 65536 = true ∧ 16 ≤ v.toNat :=
      isPow2Upto_iff.mpr ⟨k, h4, h16, by
        rw [hv, BitVec.toNat_ofNat, Nat.mod_eq_of_lt (Nat.pow_lt_pow_right (by decide) (by omega))]⟩
    exact .of_admit hl p _ _ (hwrite.trans (if_pos hgood)) Port.hcqsize hread (fun _ _ h => (h p).2.2.1) rfl
  · refine hwrite.trans (if_neg fun hc => ?_)
    obtain ⟨k, h4, h16, hk⟩ := isPow2Upto_iff.mp hc
    exact h k h4 h16 hk

theorem controlWrite_window {off : Nat} (h : 0x20000 ≤ off ∧ off < 0x22000) : controlWrite s off v =
    writePort s (BitVec.ofNat 1 ((off - 0x20000) / 0x1000)) 2 (off % 0x1000) v := by
  unfold controlWrite
  dsimp only
  rw [if_neg (by omega), if_neg (by omega), if_neg (by omega), if_pos h]

theorem controlRead_window {off : Nat} (h : 0x20000 ≤ off ∧ off < 0x22000) (hw : off % 0x1000 < 0x40) (u : State) :
    controlRead u port req off = (u.port (BitVec.ofNat 1 ((off - 0x20000) / 0x1000))).lrec.getD (off % 0x1000 / 4) 0 := by
  unfold controlRead
  dsimp only
  rw [if_neg (by omega), if_neg (by omega), if_neg (by omega), if_neg (by omega), if_pos h, if_pos hw]

/-- A word of a port's launch record (R307). -/
theorem recordWord_write (hl : s.ports.length = 2) (p : BitVec 1) {j : Nat} (hj : j < 16) (hlen : j < (s.port p).lrec.length) :
    ReadsBack s port req v (0x20000 + 0x1000 * p.toNat + 4 * j) v := by
  have hp := p.isLt
  have hin : 0x20000 ≤ 0x20000 + 0x1000 * p.toNat + 4 * j ∧ 0x20000 + 0x1000 * p.toNat + 4 * j < 0x22000 := by omega
  have hmod : (0x20000 + 0x1000 * p.toNat + 4 * j) % 0x1000 = 4 * j := by omega
  have hport : BitVec.ofNat 1 ((0x20000 + 0x1000 * p.toNat + 4 * j - 0x20000) / 0x1000) = p := by
    rw [show (0x20000 + 0x1000 * p.toNat + 4 * j - 0x20000) / 0x1000 = p.toNat by omega, BitVec.ofNat_toNat, BitVec.setWidth_eq]
  have hword : 4 * j / 4 = j := by omega
  refine .of_modPort hl p (fun x => { x with lrec := setWord x.lrec j v }) ?_ (fun x => x.lrec.getD j 0) (fun u => ?_) ?_
  · rw [controlWrite_window hin, hport, hmod]
    exact (if_pos rfl).trans ((if_pos (by omega)).trans (by rw [hword]))
  · rw [controlRead_window hin (by omega), hport, hmod, hword]
  · rw [setWord, List.getD_eq_getElem _ _ (by simpa using hlen), List.getElem_set_self]

end

/-- The registers of control space that the host only reads. -/
def readOnlyRegisters : List Nat := [0x0, 0x1000C, 0x20044, 0x30010, 0x31010, 0x40000, 0x40010, 0x50110, 0x60010, 0x60100, 0x60110,
  0x70000, 0x70008, 0x7000C, 0x70100, 0x70200, 0x80000, 0x90000]

theorem readOnlyRegisters_good : ∀ off ∈ readOnlyRegisters, off % 4 = 0 ∧ off < 2 ^ 26 ∧ off ≠ 0x20040 ∧ off ≠ 0x21040 := by
  decide

theorem readOnlyRegisters_kept (s : State) (v : Word) : ∀ off ∈ readOnlyRegisters, controlWrite s off v = s := by
  simp only [readOnlyRegisters, List.forall_mem_cons, List.not_mem_nil, false_imp_iff, implies_true, and_true]
  exact ⟨rfl, rfl, rfl, rfl, rfl, rfl, rfl, rfl, rfl, rfl, rfl, rfl, rfl, rfl, rfl, rfl, rfl, rfl⟩

/-- A die's counters of stale and of latched records clear (R307). -/
theorem dieCounters_clear {s : State} {v : Word} {req k : Nat} {port : BitVec 1} (hk : k < 8) (hlen : k < s.dies.length) :
    controlRead (controlWrite s (0x60030 + 4 * k) v) port req (0x60030 + 4 * k) = 0 ∧
      controlRead (controlWrite s (0x60060 + 4 * k) v) port req (0x60060 + 4 * k) = 0 := by
  have hstale : controlWrite s (0x60030 + 4 * k) v = s.modDie k fun x => { x with stalecnt := 0 } := by interval_cases k <;> rfl
  have hlatch : controlWrite s (0x60060 + 4 * k) v = s.modDie k fun x => { x with latchovf := 0 } := by interval_cases k <;> rfl
  have rstale (u : State) : controlRead u port req (0x60030 + 4 * k) = (u.die k).stalecnt := by interval_cases k <;> rfl
  have rlatch (u : State) : controlRead u port req (0x60060 + 4 * k) = (u.die k).latchovf := by interval_cases k <;> rfl
  rw [hstale, hlatch, rstale, rlatch, State.die_modDie, State.die_modDie, if_pos ⟨rfl, hlen⟩, if_pos ⟨rfl, hlen⟩]
  exact ⟨rfl, rfl⟩

theorem keptRegisters_good : ∀ r ∈ keptRegisters, r.1 % 4 = 0 ∧ r.1 < 2 ^ 26 ∧ r.1 ≠ 0x20040 ∧ r.1 ≠ 0x21040 := by
  decide

theorem controlRegisters : Claims.ControlRegisters := by
  intro s v req port write
  have hgood (h : (s.port port).up = true) (hw : lgoWaits s req = false) {off : Nat} (h4 : off % 4 = 0) (hlt : off < 2 ^ 26)
      (h0 : off ≠ 0x20040) (h1 : off ≠ 0x21040) : write off 4 = .next (controlWrite s off v) := hostWrite_good h hw h4 hlt h0 h1
  refine ⟨fun h off len => hostWrite_down h off len, fun h off len sp => ?_, fun h => ⟨?_, ?_, fun p hp => ?_⟩, fun off len hw h0 h1 => ?_,
    fun h hw => ⟨fun off len hbad => ?_, fun off h4 hlt => controlAnswer_good h4 hlt, fun hl p => ?_, fun hl => ⟨fun r hr => ?_,
      fun p j hj hlen => ?_⟩, ?_, fun k hk hlen => ?_, ?_, ?_, ?_, fun hv hb => ?_, fun hv => ?_, fun off hoff => ?_⟩⟩
  · exact congrArg Host.Outcome.next ((if_neg (by rw [h]; decide)).trans (if_pos rfl))
  · exact (hostWrite_up h _ _).trans (congrArg _ (if_pos ⟨rfl, rfl⟩))
  · exact (hostWrite_up h _ _).trans (congrArg _ ((if_neg (by decide)).trans (if_pos ⟨rfl, rfl⟩)))
  · exact congrArg Host.Outcome.next (if_pos hp)
  · cases hup : (s.port port).up with
    | false => exact hostWrite_down hup off len
    | true =>
      refine (hostWrite_up hup off len).trans ?_
      rw [if_neg fun h => h0 h.1, if_neg fun h => h1 h.1, if_pos hw]
  · obtain ⟨hwr, hans⟩ := hostWrite_bad (v := v) h hw hbad
    exact ⟨⟨_, hwr, rfl, rfl, fun _ _ => rfl, fun _ _ _ => rfl⟩, hans⟩
  · obtain ⟨hset, hkeep⟩ := ringSize_write (v := v) (req := req) (port := port) hl p
    have hp := p.isLt
    have hwr := hgood h hw (off := 0x30008 + 0x1000 * p.toNat) (by omega) (by omega) (by omega) (by omega)
    exact ⟨fun k h4 h16 hv => have hb := hset k h4 h16 hv; ⟨_, hwr, hb.reads, hb.threads, hb.memory⟩,
      fun hv => hwr.trans (congrArg _ (hkeep hv))⟩
  · obtain ⟨h4, hlt, h0, h1⟩ := keptRegisters_good r hr
    have hb := keptRegisters_readBack (v := v) (req := req) (port := port) hl r hr
    exact ⟨_, hgood h hw h4 hlt h0 h1, hb.reads, hb.threads, hb.ops, hb.memory⟩
  · have hp := p.isLt
    exact ⟨_, hgood h hw (by omega) (by omega) (by omega) (by omega), (recordWord_write hl p hj hlen).reads⟩
  · simp only [List.forall_mem_cons, List.not_mem_nil, false_imp_iff, implies_true, and_true]
    exact ⟨⟨_, hgood h hw rfl (by decide) (by decide) (by decide), rfl⟩,
      ⟨_, hgood h hw rfl (by decide) (by decide) (by decide), rfl⟩⟩
  · obtain ⟨h1, h2⟩ := dieCounters_clear (v := v) (req := req) (port := port) hk hlen
    exact ⟨⟨_, hgood h hw (by omega) (by omega) (by omega) (by omega), h1⟩,
      ⟨_, hgood h hw (by omega) (by omega) (by omega) (by omega), h2⟩⟩
  · exact hgood h hw rfl (by decide) (by decide) (by decide)
  · exact hgood h hw rfl (by decide) (by decide) (by decide)
  · exact hgood h hw rfl (by decide) (by decide) (by decide)
  · have hwr := hgood h hw (off := 0x10008) rfl (by decide) (by decide) (by decide)
    have hst : controlWrite s 0x10008 v = { s with mgmt := { s.mgmt with
        busy := true, addr := s.mgmt.mcmdhi ++ s.mgmt.mcmdlo
        result := if fld s.mgmt.mcmdlo 0 6 = 0 then (0, 0) else (3, 3) } } := if_neg (by simp [hv, hb])
    exact ⟨_, hwr.trans (congrArg _ hst), rfl, rfl, rfl, rfl⟩
  · exact (hgood h hw (off := 0x10008) rfl (by decide) (by decide) (by decide)).trans (congrArg Host.Outcome.next (if_pos hv))
  · obtain ⟨h4, hlt, h0, h1⟩ := readOnlyRegisters_good off hoff
    exact (hgood h hw h4 hlt h0 h1).trans (congrArg _ (readOnlyRegisters_kept s v off hoff))

/-- Settles O50: each register's write and read by its branch of control space; the rings by what admitting records keeps. -/
theorem controlSpace : Obligations.ControlSpace := ⟨controlEvents, controlRegisters⟩

end Sys2Proof.Machine
end

section
/-! PROOF. The events of the links and of the time lock (O51). -/

namespace Sys2Proof.Machine

/-- A record that the I/O die makes where there is room: nothing but the event queue, its signals and the output differ. -/
theorem ioEvent_room {s : State} (h : s.ioeq < Config.ioeqDepth) (k so : BitVec 8) (d : BitVec 16) :
    s.ioEvent k so d = { s with
      eventq := s.eventq ++ [s.mkEvent k so d 0 0], ports := (s.ioEvent k so d).ports, out := (s.ioEvent k so d).out } := by
  have hp : s.ioEvent k so d = s.pushEvent (s.mkEvent k so d 0 0) := if_neg (Nat.not_le.mpr h)
  rw [hp, State.pushEvent_only]

theorem ioEvent_quiet (s : State) (k so : BitVec 8) (d : BitVec 16) :
    (s.ioEvent k so d).links = s.links ∧ (s.ioEvent k so d).routes = s.routes ∧ (s.ioEvent k so d).ops = s.ops ∧
      (s.ioEvent k so d).rank = s.rank ∧ SameMemory s (s.ioEvent k so d) := by
  rw [State.ioEvent_only]
  exact ⟨rfl, rfl, rfl, rfl, fun _ _ => rfl, fun _ _ _ => rfl⟩

theorem dropMember_only (s : State) (r : Option (BitVec 8)) : s.dropMember r = { s with domain := (s.dropMember r).domain } := by
  unfold State.dropMember
  split
  · split <;> rfl
  · rfl

theorem loseAll_nil (s : State) : s.loseAll [] = s := by
  simp [State.loseAll]

theorem setMember_spec {s : State} {rank : BitVec 8} (h : rank ≠ s.rank) (ndie : Nat) :
    domNdie (s.setMember rank ndie) rank = ndie ∧ s.setMember rank ndie = { s with domain := (s.setMember rank ndie).domain } := by
  have hs : s.setMember rank ndie = { s with domain := (rank, ndie) :: s.domain.filter fun (e : BitVec 8 × Nat) => e.1 ≠ rank } :=
    if_neg h
  rw [hs]
  refine ⟨?_, rfl⟩
  show (((_ :: _ : List (BitVec 8 × Nat)).find? _).map Prod.snd).getD 0 = _
  rw [List.find?_cons_of_pos (by simp)]
  rfl

section
variable {s : State} {n : Nat} {l : Link}

theorem modLink_at (h : s.links[n]? = some l) (f : Link → Link) : (s.modLink n f).links[n]? = some (f l) := by
  show (s.links.modify n f)[n]? = _
  rw [List.getElem?_modify_eq, h]
  rfl

/-- Only the link's own record matters to a change of it. -/
theorem modLink_congr (h : s.links[n]? = some l) {f g : Link → Link} (hfg : f l = g l) : s.modLink n f = s.modLink n g := by
  have hl : s.links.modify n f = s.links.modify n g := by
    refine List.ext_getElem? fun j => ?_
    rw [List.getElem?_modify, List.getElem?_modify]
    by_cases hj : n = j
    · subst hj
      rw [h]
      simp [hfg]
    · simp [hj]
  rw [State.modLink, hl]
  rfl

/-- A link that has used up its retries goes down, with a record where there is room. -/
theorem exec_retriesExhausted (h : s.links[n]? = some l) (hup : l.up = true) (hr : Config.linkRetries ≤ l.retries) :
    let s1 := s.modLink n fun l => { l with up := false, retries := 0, failtime := s.time.extractLsb' 24 24 }
    exec (.linkRetriesExhausted n []) s = .next ((s1.ioEvent 3 (portSocket n) (BitVec.ofNat 16 n)).dropMember l.rank) := by
  intro s1
  refine congrArg Host.Outcome.next ?_
  rw [h]
  exact (if_pos ⟨hup, hr⟩).trans (congrArg (·.dropMember l.rank) (loseAll_nil _))

theorem exec_linkUp (h : s.links[n]? = some l) (rank : BitVec 8) (ndie : Nat) : exec (.linkUp n rank ndie) s = .next (
    if l.oos then s
    else if n < 64 then (s.modLink n fun l => { l with up := true, retries := 0, rank := some rank }).setMember rank ndie
    else s.modLink n fun l => { l with up := true, retries := 0 }) := by
  refine congrArg Host.Outcome.next ?_
  rw [h]

end

theorem links : Claims.Links := by
  intro s n l port rank ndie h
  refine ⟨⟨_, rfl, fun hp => ?_, rfl, fun _ _ => rfl, fun _ _ _ => rfl⟩, fun hup => ?_, fun hup hr => ?_, fun ho => ?_,
    fun ho hn hrank => ?_, fun hrank => ?_⟩
  · rw [State.port_modPort, if_pos ⟨rfl, hp⟩]
  · exact congrArg Host.Outcome.next (modLink_congr h (if_pos hup))
  · refine ⟨_, exec_retriesExhausted h hup hr, ?_, fun hroom => ?_, ?_⟩
    · rw [dropMember_only]
      refine ⟨{ l with up := false, retries := 0, failtime := s.time.extractLsb' 24 24 }, ?_, rfl, rfl, rfl⟩
      exact (congrArg (·[n]?) (ioEvent_quiet _ _ _ _).1).trans (modLink_at h _)
    · rw [dropMember_only]
      exact ⟨_, congrArg State.eventq (ioEvent_room (s := s.modLink n _) hroom _ _ _), rfl, rfl⟩
    · rw [dropMember_only]
      exact (ioEvent_quiet _ _ _ _).2.2.2.2
  · exact (exec_linkUp h rank ndie).trans (congrArg _ (if_pos ho))
  · obtain ⟨hdom, honly⟩ := setMember_spec (s := s.modLink n fun l => { l with up := true, retries := 0, rank := some rank }) hrank ndie
    refine ⟨_, (exec_linkUp h rank ndie).trans (congrArg _ ((if_neg (Bool.eq_false_iff.mp ho)).trans (if_pos hn))), ?_, hdom, ?_⟩
    · rw [honly]
      exact ⟨_, modLink_at h _, rfl, rfl⟩
    · rw [honly]
      exact ⟨fun _ _ => rfl, fun _ _ _ => rfl⟩
  · obtain ⟨hdom, honly⟩ := setMember_spec hrank ndie
    refine ⟨_, rfl, hdom, ?_, ?_⟩
    · rw [honly]
      exact ⟨fun _ _ => rfl, fun _ _ _ => rfl⟩
    · rw [honly]

/-- The end of a step never takes device time back. -/
theorem finishStep_time (s : State) : s.time.toNat ≤ s.finishStep.time.toNat := by
  show _ ≤ (BitVec.ofNat 64 (min (s.time.toNat + Config.elapsed s.tick) (2 ^ 64 - 1))).toNat
  have h := s.time.isLt
  rw [BitVec.toNat_ofNat, Nat.mod_eq_of_lt (by omega)]
  omega

theorem raiseBoth_sameMemory (s : State) (v : Word) : SameMemory s (s.raiseBoth v) := by
  rw [State.raiseBoth_only]
  exact ⟨fun _ _ => rfl, fun _ _ _ => rfl⟩

theorem timeLock : Claims.TimeLock := by
  refine ⟨finishStep_time, fun s g hroom => ⟨fun hl => ?_, fun hl => ?_, fun hl => ?_, fun hl => ?_⟩⟩
  · refine ⟨_, congrArg Host.Outcome.next (if_pos hl), ?_⟩
    rw [State.raiseBoth_only, ioEvent_room (by exact hroom)]
    exact ⟨rfl, rfl, ⟨_, rfl, rfl⟩, ⟨fun _ _ => rfl, fun _ _ _ => rfl⟩, rfl⟩
  · exact congrArg Host.Outcome.next (if_neg (Bool.eq_false_iff.mp hl))
  · refine ⟨_, congrArg Host.Outcome.next (if_neg (Bool.eq_false_iff.mp hl)), ?_⟩
    rw [State.raiseBoth_only, ioEvent_room (by exact hroom)]
    exact ⟨rfl, rfl, rfl, ⟨_, rfl, rfl⟩, ⟨fun _ _ => rfl, fun _ _ _ => rfl⟩, rfl⟩
  · exact congrArg Host.Outcome.next (if_pos hl)

/-- Settles O51: each event of a link changes its record, the event queue and the domain table; device time is a minimum that is not
below what it was. -/
theorem linksAndTimeLock : Obligations.LinksAndTimeLock := ⟨links, timeLock⟩

end Sys2Proof.Machine
end

section
/-! PROOF. Accesses of the host: posted writes, reads and launches (O49). -/

namespace Sys2Proof.Machine

/-! ### Posted writes and reads (R303, R304) -/

section
variable {s : State} {port : BitVec 1} {req off : Nat}

theorem outside_iff {off : Nat} : outside off = true ↔ 2 ^ 41 ≤ off := decide_eq_true_iff

/-- A port whose link is up, for a requester that no write to LGO holds, takes an access of a length that a TLP may have. -/
theorem access_taken (hup : (s.port port).up = true) (hw : lgoWaits s req = false) {n m : Nat} (hn : n ≤ m) :
    ¬((!(s.port port).up || lgoWaits s req || decide (m < n)) = true) := by
  simp [hup, hw, Nat.not_lt.mpr hn]

theorem unsupported_only (s : State) (port : BitVec 1) (req : Nat) : s.unsupported port req =
    { s with out := s.out ++ [.unsupported port req], ports := (s.unsupported port req).ports } := rfl

theorem inboundWrites : Claims.InboundWrites := by
  intro s port req off bytes b
  refine ⟨fun h => ?_, fun hup hw hn => ?_⟩
  · refine congrArg Host.Outcome.next (if_pos ?_)
    rcases h with h | h
    · rw [h]; rfl
    · rw [h, Bool.or_true]; rfl
  · refine ⟨fun ho => ?_, fun ho => ⟨?_, ?_⟩⟩
    · exact ⟨_, congrArg Host.Outcome.next ((if_neg (access_taken hup hw hn)).trans (if_pos (outside_iff.mpr ho))), rfl, rfl, rfl,
        fun _ _ => rfl, fun _ _ _ => rfl⟩
    · refine ⟨_, congrArg Host.Outcome.next ((if_neg (access_taken hup hw hn)).trans ((if_neg fun h =>
        Nat.not_le.mpr ho (outside_iff.mp h)).trans (if_pos rfl))), fun hp => ?_, rfl, rfl, fun _ _ => rfl, fun _ _ _ => rfl⟩
      rw [State.aer, State.port_modPort, if_pos ⟨rfl, by simpa [State.hostError, State.modPort] using hp⟩, State.hostError,
        State.port_modPort, if_pos ⟨rfl, hp⟩]
    · exact ⟨_, _, congrArg Host.Outcome.next ((if_neg (access_taken hup hw hn)).trans ((if_neg fun h =>
        Nat.not_le.mpr ho (outside_iff.mp h)).trans (if_neg nofun))), rfl, rfl, rfl, rfl, rfl, rfl, fun _ _ => rfl, fun _ _ _ => rfl⟩

theorem inboundReads : Claims.InboundReads := by
  intro s port req off len hup hw hn p x
  have htaken := access_taken hup hw hn
  refine ⟨fun ho => ⟨_, congrArg Host.Outcome.next ((if_neg htaken).trans (if_pos (outside_iff.mpr ho))), rfl, rfl,
    fun _ _ => rfl, fun _ _ _ => rfl⟩, fun ho => ?_⟩
  have hin : ¬(outside off = true) := fun h => Nat.not_le.mpr ho (outside_iff.mp h)
  refine ⟨fun hpend => congrArg Host.Outcome.next ((if_neg htaken).trans ((if_neg hin).trans (if_pos hpend))), fun hpend hp =>
    ⟨fun d a hs => ?_, fun hs => ?_⟩⟩
  · refine congrArg Host.Outcome.next ((if_neg htaken).trans ((if_neg hin).trans ((if_neg (Bool.eq_false_iff.mp hpend)).trans ?_)))
    simp only [State.walkEcc_clean _ _ _ _ _ hp]
    rw [show ownSite s (s.port port).hctx (apertureSite (s.port port) off).1 (apertureSite (s.port port) off).2 .load = some (d, a) from hs]
    simp only [State.eccGuard_clean _ _ _ _ _ _ hp]
    rfl
  · refine ⟨_, congrArg Host.Outcome.next ((if_neg htaken).trans ((if_neg hin).trans (if_neg (Bool.eq_false_iff.mp hpend)))), ?_⟩
    simp only [State.walkEcc_clean _ _ _ _ _ hp]
    rw [show ownSite s (s.port port).hctx (apertureSite (s.port port) off).1 (apertureSite (s.port port) off).2 .load = none from hs]
    exact ⟨rfl, ⟨fun _ _ => rfl, fun _ _ _ => rfl⟩, rfl⟩

end

/-! ### Launches (R262, R263, R308) -/

/-- What a launch that reaches its queue leaves. -/
structure LaunchQueued (s u : State) (i : Nat) (w : List Word) : Prop where
  op : ∃ n there, u.op i = { s.op i with record := w, stage := .queued, order := n, mark := there }
  ops : u.ops.length = s.ops.length
  launches : ∃ l : Launch, u.launches = s.launches ++ [l] ∧ l.stage = .queued ∧ l.words = w ∧ l.op = i
  threads : u.threads = s.threads
  ports : u.ports = s.ports
  memory : SameMemory s u

theorem enterQueue_op (s : State) (i : Nat) (hi : i < s.ops.length) : (s.enterQueue i).op i =
    { s.op i with stage := .queued, order := s.seq, mark := (s.sentEntries (s.op i)).map Entry.seq } :=
  State.op_modOp_self s i _ hi

theorem enterLaunch_queued {s : State} {i : Nat} {w : List Word} (hi : i < s.ops.length) (hc : launchCode s (s.op i).ctx w = 0) :
    LaunchQueued s (s.enterLaunch i w) i w := by
  have hu : s.enterLaunch i w = _ := if_neg (not_not_intro hc)
  rw [hu]
  refine ⟨?_, ?_, ⟨_, rfl, rfl, rfl, rfl⟩, rfl, rfl, fun _ _ => rfl, fun _ _ _ => rfl⟩
  · have hrec := (enterQueue_op _ i (by simpa [State.modOp] using hi)).trans (congrArg (fun o : Op => ({ o with
      stage := .queued, order := _, mark := _ } : Op)) (State.op_modOp_self { s with launches := _ } i (fun o => { o with record := w }) hi))
    exact ⟨_, _, hrec⟩
  · simp [State.enterQueue, State.modOp, State.bump]

theorem enterLaunch_refused {s : State} {i : Nat} {w : List Word} (hc : launchCode s (s.op i).ctx w ≠ 0) :
    s.enterLaunch i w = s.completeOp i 4 (BitVec.ofNat 32 (0x4C520000 + launchCode s (s.op i).ctx w)) := if_pos hc

/-- A walk reads the memory of its die only. -/
theorem walk_congr {s u : State} (hd : u.dies = s.dies) (d va : Nat) : ∀ n tbl, walk u d va n tbl = walk s d va n tbl
  | 0, _ => rfl
  | n + 1, tbl => by
    have hdie : u.die d = s.die d := by simp only [State.die, hd]
    unfold walk
    simp only [State.near, hdie, walk_congr hd d va n]

/-- A translation reads the contexts, the dies, the TLBs and the step's free choices. -/
theorem translate_congr {s u : State} (hd : u.dies = s.dies) (hc : u.ctxs = s.ctxs) (hk : u.cores = s.cores)
    (hp : ∀ l, u.pdie l = s.pdie l) (ht : u.tick = s.tick) (core : Option Nat) (ctx : Word) (l va : Nat) (acc : Access) :
    u.translate core ctx l va acc = s.translate core ctx l va acc := by
  have hctx : u.ctx ctx = s.ctx ctx := by simp only [State.ctx, hc]
  have htlb : u.inTlbs core ctx l va = s.inTlbs core ctx l va := by simp only [State.inTlbs, State.co, State.die, hk, hd, hp]
  have hleaf : u.leaf core ctx l va = s.leaf core ctx l va := by
    unfold State.leaf
    dsimp only
    rw [htlb, hctx, ht, hp, walk_congr hd]
  unfold State.translate
  rw [hleaf]

/-- The check of a launch record reads the contexts and what its objects' translations read. -/
theorem launchCode_congr {s u : State} (hd : u.dies = s.dies) (hc : u.ctxs = s.ctxs) (hk : u.cores = s.cores)
    (hp : ∀ l, u.pdie l = s.pdie l) (hn : u.ndie = s.ndie) (ht : u.tick = s.tick) (ctx : Word) (w : List Word) :
    launchCode u ctx w = launchCode s ctx w := by
  have hctx : u.ctx ctx = s.ctx ctx := by simp only [State.ctx, hc]
  have haddr : lAddrBad u (s.ctx ctx) w = lAddrBad s (s.ctx ctx) w := by unfold lAddrBad; rw [hn]
  have hobj : lObjBad u ctx w = lObjBad s ctx w := by
    simp only [lObjBad, State.objXlate, translate_congr hd hc hk hp ht]
  unfold launchCode
  dsimp only
  rw [hctx, haddr, hobj]

/-- The operation that a write to LGO makes. -/
def lgoOp (s : State) (port : BitVec 1) (w : LgoWrite) (k : BitVec 8) : Op :=
  { Op.blank with
    engine := 5, slot := k, gen := genOf (s.port port).gens 5 k, ctx := w.ctxid, port := port, record := w.record, stage := .inFifo
    warp := (Config.freeWord s.tick 1).setWidth 16 }

/-- The state in which that operation reaches its queue. -/
def lgoMade (s : State) (port : BitVec 1) (w : LgoWrite) (k : BitVec 8) : State :=
  { s with ops := s.ops ++ [lgoOp s port w k] }.modPort port fun x => { x with
    lhandle := (lgoOp s port w k).handle, gens := bumpGen x.gens 5 k }

section
variable {s : State} {port : BitVec 1} {req : Nat} {ctx : Word} {w : LgoWrite}

theorem performLgo_ended (h : (s.ctx w.ctxid).live = false) : s.performLgo port w = s.modPort port fun x => { x with lhandle := 0 } :=
  if_pos (by rw [h]; rfl)

theorem performLgo_live {k : BitVec 8} (h : (s.ctx w.ctxid).live = true) (hk : freeSlot (s.usedSlots none port 5) = some k) :
    s.performLgo port w = (lgoMade s port w k).enterLaunch s.ops.length w.record := by
  refine (if_neg (by rw [h]; decide)).trans ?_
  rw [hk]
  rfl

theorem lgoMade_op (k : BitVec 8) : (lgoMade s port w k).op s.ops.length = lgoOp s port w k := by
  show (s.ops ++ [lgoOp s port w k]).getD s.ops.length Op.blank = _
  simp

theorem lgoMade_ops (k : BitVec 8) : (lgoMade s port w k).ops.length = s.ops.length + 1 := by
  show (s.ops ++ [lgoOp s port w k]).length = _
  simp

theorem launchCode_lgoMade (k : BitVec 8) (c : Word) (ws : List Word) : launchCode (lgoMade s port w k) c ws = launchCode s c ws :=
  launchCode_congr (s := s) (u := lgoMade s port w k) rfl rfl rfl (fun _ => rfl) rfl rfl c ws

theorem lgoMade_queued {k : BitVec 8} (hc : launchCode s w.ctxid w.record = 0) :
    LaunchQueued (lgoMade s port w k) ((lgoMade s port w k).enterLaunch s.ops.length w.record) s.ops.length w.record := by
  refine enterLaunch_queued (by rw [lgoMade_ops]; exact Nat.lt_succ_self _) ?_
  have hctx : ((lgoMade s port w k).op s.ops.length).ctx = w.ctxid := congrArg Op.ctx (lgoMade_op k)
  rw [hctx, launchCode_lgoMade, hc]


/-- A launch that the host makes is queued, and the port's handle is its own. -/
theorem performLgo_queued {k : BitVec 8} (hl : s.ports.length = 2) (h : (s.ctx w.ctxid).live = true)
    (hk : freeSlot (s.usedSlots none port 5) = some k) (hc : launchCode s w.ctxid w.record = 0) :
    let u := s.performLgo port w
    u.ops.length = s.ops.length + 1 ∧ (u.op s.ops.length).stage = .queued ∧ (u.port port).lhandle = (u.op s.ops.length).handle ∧
      (u.op s.ops.length).slot = k ∧ (u.op s.ops.length).record = w.record ∧ u.threads = s.threads ∧ SameMemory s u := by
  intro u
  obtain ⟨⟨n, there, hq⟩, hlen, -, hth, hports, hmem⟩ := lgoMade_queued (k := k) (port := port) hc
  rw [← performLgo_live h hk] at hq hlen hth hports hmem
  rw [lgoMade_op] at hq
  refine ⟨hlen.trans (lgoMade_ops k), by rw [hq], ?_, by rw [hq]; rfl, by rw [hq], hth, hmem⟩
  have hport : u.port port = (lgoMade s port w k).port port := congrArg (·.getD port.toNat Port.reset) hports
  rw [hport, hq]
  exact congrArg Port.lhandle (State.port_modPort_self (s := { s with ops := s.ops ++ [lgoOp s port w k] }) hl port _)

/-- No write of this requester waits at the window. -/
theorem lgos_find_none (hl : s.ports.length = 2) (hw : lgoWaits s req = false) :
    ((s.port port).lgos.find? fun w => w.req = req) = none := by
  rw [List.find?_eq_none]
  intro w hmem hreq
  have hin : port.toNat < s.ports.length := by omega
  have hport : s.port port ∈ s.ports := by
    rw [State.port, List.getD_eq_getElem _ _ hin]
    exact List.getElem_mem hin
  refine Bool.eq_false_iff.mp hw (List.any_eq_true.mpr ⟨_, hport, List.any_eq_true.mpr ⟨w, hmem, hreq⟩⟩)

/-- Only the port's own record matters to a change of it. -/
theorem modPort_congr {f g : Port → Port} (h : f (s.port port) = g (s.port port)) : s.modPort port f = s.modPort port g := by
  have hl : s.ports.modify port.toNat f = s.ports.modify port.toNat g := by
    refine List.ext_getElem? fun j => ?_
    rw [List.getElem?_modify, List.getElem?_modify]
    by_cases hj : port.toNat = j
    · subst hj
      cases hp : s.ports[port.toNat]? with
      | none => rfl
      | some x =>
        have hx : s.port port = x := by rw [State.port, List.getD_eq_getElem?_getD, hp]; rfl
        rw [hx] at h
        simp [h]
    · simp [hj]
  show { s with ports := s.ports.modify port.toNat f } = _
  rw [hl]
  rfl

theorem exec_hostLaunch_new (hup : (s.port port).up = true) (hl : s.ports.length = 2) (hw : lgoWaits s req = false) :
    exec (.hostLaunch port req ctx) s = .next (if lgoReady s port ⟨req, ctx, (s.port port).lrec⟩ then
      s.performLgo port ⟨req, ctx, (s.port port).lrec⟩
      else s.modPort port fun x => { x with lgos := x.lgos ++ [⟨req, ctx, (s.port port).lrec⟩] }) := by
  refine congrArg Host.Outcome.next ((if_pos hup).trans ?_)
  unfold State.writeLgo
  dsimp only
  rw [lgos_find_none hl hw]
  exact if_neg (Bool.eq_false_iff.mp hw)

theorem exec_hostLaunch_waiting (hup : (s.port port).up = true) (hf : (s.port port).lgos.find? (fun w => w.req = req) = some w) :
    exec (.hostLaunch port req ctx) s = .next (if lgoReady s port w then
      (s.modPort port fun x => { x with lgos := x.lgos.eraseP fun w => w.req = req }).performLgo port w else s) := by
  refine congrArg Host.Outcome.next ((if_pos hup).trans ?_)
  unfold State.writeLgo
  dsimp only
  rw [hf]

/-- A write to LGO waits for posted writes, and where it makes a launch for a slot and for room among the records held. -/
theorem lgoReady_iff : lgoReady s port w = true ↔ postedPending s w.req = false ∧ ((s.ctx w.ctxid).live = true →
    freeSlot (s.usedSlots none port 5) ≠ none ∧ (s.port port).held.length < Config.eventHold) := by
  rw [lgoReady, Bool.and_eq_true, Bool.not_eq_true', Bool.or_eq_true, Bool.not_eq_true', Bool.and_eq_true, decide_eq_true_eq,
    Option.isSome_iff_ne_none]
  refine and_congr_right fun _ => ?_
  cases (s.ctx w.ctxid).live <;> simp

end

theorem hostLaunches : Claims.HostLaunches := by
  intro s port req ctx hup hl p
  refine ⟨fun hw => ⟨fun hpend => ⟨fun hdead => ?_, fun k hlive hk hheld hcode => ?_⟩, fun h => ?_⟩, fun w hf => ⟨fun hr => ?_, fun hr => ?_⟩⟩
  · have hr : lgoReady s port ⟨req, ctx, p.lrec⟩ = true := lgoReady_iff.mpr ⟨hpend, fun h => absurd (hdead.symm.trans h) nofun⟩
    exact (exec_hostLaunch_new hup hl hw).trans (congrArg _ ((if_pos hr).trans (performLgo_ended hdead)))
  · have hr : lgoReady s port ⟨req, ctx, p.lrec⟩ = true := lgoReady_iff.mpr ⟨hpend, fun _ => ⟨by rw [hk]; nofun, hheld⟩⟩
    exact ⟨_, (exec_hostLaunch_new hup hl hw).trans (congrArg _ (if_pos hr)), performLgo_queued hl hlive hk hcode⟩
  · have hr : ¬(lgoReady s port ⟨req, ctx, p.lrec⟩ = true) := fun hr => by
      obtain ⟨h1, h2⟩ := lgoReady_iff.mp hr
      rcases h with h | ⟨hlive, h | h⟩
      · exact absurd (h1.symm.trans h) nofun
      · exact (h2 hlive).1 h
      · exact Nat.not_lt.mpr h (h2 hlive).2
    exact (exec_hostLaunch_new hup hl hw).trans (congrArg _ ((if_neg hr).trans (modPort_congr rfl)))
  · exact (exec_hostLaunch_waiting hup hf).trans (congrArg _ (if_pos hr))
  · exact (exec_hostLaunch_waiting hup hf).trans (congrArg _ (if_neg (Bool.eq_false_iff.mp hr)))

/-- Settles O49: an access by the branches of its event; a launch of the host as a launch that reaches its queue. -/
theorem hostAccesses : Obligations.HostAccesses := ⟨inboundWrites, inboundReads, hostLaunches⟩

end Sys2Proof.Machine
end

section
/-! PROOF. Launches: what a head that is examined, refused or started leaves, and the completion of a grid (R181, R262 to R265). -/

namespace Sys2Proof.Machine

/-! ### Reads without planted errors -/

theorem State.nearEcc_clean {s : State} (h : s.planted = []) (ctx : Word) (ldie va : Nat) : s.nearEcc ctx ldie va = (s, false) := by
  unfold State.nearEcc
  dsimp only
  rw [State.walkEcc_clean s none ctx ldie va h]
  split
  · simp
  · rw [State.eccGuard_clean _ _ _ _ _ _ h]
    simp

theorem eccReads_clean {s : State} (h : s.planted = []) (arr : BitVec 16) (ctx : Word) (d : Nat) (l : List (Nat × Nat)) :
    l.foldl (fun (r : State × Bool) (a : Nat × Nat) => let e := r.1.eccRead arr a.1 a.2 ctx d; (e.1, r.2 || e.2)) (s, false) = (s, false) := by
  induction l with
  | nil => rfl
  | cons a l ih =>
    rw [List.foldl_cons, State.eccRead_clean _ _ _ _ _ _ h]
    exact ih

theorem State.eccDeps_clean {s : State} (h : s.planted = []) (l : Nat) : s.eccDeps l = s := by
  unfold State.eccDeps
  dsimp only
  rw [State.nearEcc_clean h, ite_self, State.nearEcc_clean h, ite_self]

/-! ### A completion (R19, R265) -/

theorem completeOp_sameMemory (s : State) (i : Nat) (st : BitVec 16) (de : Word) : SameMemory s (s.completeOp i st de) :=
  ⟨fun d a => by rw [(s.completeOp_near i st de []).die], fun c sp a => by rw [(s.completeOp_endKept i st de).bufs]⟩

theorem completeOp_done {s : State} {i : Nat} (st : BitVec 16) (de : Word) (h : (s.op i).stage ≠ .done) :
    (s.completeOp i st de).op i = { s.op i with stage := .done, status := st, detail := de } := by
  rw [State.completeOp_op, if_pos ⟨rfl, h⟩]

/-- What the completion of a launch leaves. -/
structure LaunchCompleted (s u : State) (l : Nat) (st : BitVec 16) (de : Word) : Prop where
  launch : (u.la l).stage = .complete
  op : u.op (s.la l).op = { s.op (s.la l).op with stage := .done, status := st, detail := de }
  memory : SameMemory s u

theorem complete_launchCompleted {s : State} {l : Nat} (st : BitVec 16) (de : Word) (h : (s.op (s.la l).op).stage ≠ .done) :
    LaunchCompleted s ((s.modLa l fun y => { y with stage := .complete }).completeOp (s.la l).op st de) l st de :=
  ⟨State.complete_la_stage s l _ l st de (.inl rfl), completeOp_done (s := s.modLa l _) st de h, completeOp_sameMemory _ _ _ _⟩

theorem refuseLaunch_completed {s : State} {l : Nat} (de : Word) (h : (s.op (s.la l).op).stage ≠ .done) :
    LaunchCompleted s (s.refuseLaunch l de) l 4 de := complete_launchCompleted 4 de h

/-! ### LAUNCH_START (R263, R264) -/

section
variable {s : State} {l : Nat} {place : LaunchPlace}

theorem execLaunchStart_waits (h : isHead s l = false) : exec (.launchStart l place) s = .next s :=
  congrArg Host.Outcome.next (if_pos (by rw [h]; rfl))

theorem execLaunchStart_bad (h : isHead s l = true) (hb : depBad s l = true) :
    exec (.launchStart l place) s = .next (s.refuseLaunch l 0x4C520006) :=
  congrArg Host.Outcome.next ((if_neg (by rw [h]; decide)).trans (if_pos hb))

theorem execLaunchStart_good (h : isHead s l = true) (hb : depBad s l = false) (hp : s.planted = []) :
    exec (.launchStart l place) s = .next (s.startHead l place) := by
  refine congrArg Host.Outcome.next ((if_neg (by rw [h]; decide)).trans ((if_neg (Bool.eq_false_iff.mp hb)).trans ?_))
  rw [State.eccDeps_clean hp]

theorem headReady_isHead (h : headReady s l = true) : isHead s l = true := by
  rw [headReady, Bool.and_eq_true, Bool.and_eq_true] at h
  exact h.1.1

theorem startHead_pool (hr : headReady s l = true) (hf : firstHead s l = true) (hk : lLattice (s.la l).words = false) :
    s.startHead l place = { s.startPool l place.init with rr := (lQueue (s.la l).words + 1) % 64 } :=
  (if_pos (by rw [hr, hf]; rfl)).trans (if_neg (Bool.eq_false_iff.mp hk))

theorem startHead_lattice {u : State} (hr : headReady s l = true) (hf : firstHead s l = true) (hk : lLattice (s.la l).words = true)
    (hu : s.startLattice l place.cells place.peer place.init = some u) :
    s.startHead l place = { u with rr := (lQueue (s.la l).words + 1) % 64 } := by
  refine (if_pos (by rw [hr, hf]; rfl)).trans ((if_pos hk).trans ?_)
  rw [hu]
  rfl

theorem startHead_waits (h : headReady s l = false ∨ firstHead s l = false) : s.startHead l place = s := by
  refine if_neg ?_
  rcases h with h | h <;> simp [h]

/-- The started launch. -/
def startedLaunch (s : State) (l : Nat) (init : LaunchInit) : Launch := { s.la l with
  stage := .started, started := s.seq, init := init, next := (List.range s.ndie).map fun k => (dieShare (s.la l).words s.ndie k).1 }

theorem startPool_la (hl : l < s.launches.length) (init : LaunchInit) (m : Nat) :
    (s.startPool l init).la m = if m = l then startedLaunch s l init else s.la m := by
  have hmark (m : Nat) : (s.markStarted l init).la m = if l = m ∧ l < s.launches.length then
      { s.la l with stage := .started, started := s.seq, init := init } else s.la m := s.la_modLa l m _
  have hlen : (s.markStarted l init).launches.length = s.launches.length := by simp [State.markStarted, State.modLa, State.modOp, State.bump]
  rw [State.startPool, State.la_modLa, hlen, hmark, hmark]
  by_cases h : l = m
  · subst h
    rw [if_pos ⟨rfl, hl⟩, if_pos ⟨rfl, hl⟩, if_pos rfl]
    rfl
  · rw [if_neg fun c => h c.1, if_neg fun c => h c.1, if_neg fun c => h c.symm]

theorem startPool_op (hi : (s.la l).op < s.ops.length) (init : LaunchInit) :
    (s.startPool l init).op (s.la l).op = { s.op (s.la l).op with stage := .started } := State.op_modOp_self s _ _ hi

/-- A malformed descriptor is answered with the number of its first malformed word. -/
theorem startLattice_malformed {db : List Byte} {k : Nat} {cells : List (Nat × Nat × List Nat)} {peer : List Word} {init : LaunchInit}
    (hd : readPieces s (s.la l).ctx (lNwin (s.la l).words + (lw (s.la l).words 12).toNat) 4 = some db)
    (hk : descBad s (wordsOf 16 db) = some k) :
    s.startLattice l cells peer init = some (s.refuseLaunch l (BitVec.ofNat 32 (0x4C440000 + k))) := by
  unfold State.startLattice
  dsimp only
  rw [hd]
  dsimp only
  rw [hk]

end

theorem launchStarts : Claims.LaunchStarts := by
  intro s l place hl w
  refine ⟨fun hh hb _ hs => ?_, fun hb hr hf hk hp => ?_, fun h => ?_⟩
  · obtain ⟨hla, hop, hmem⟩ := refuseLaunch_completed (s := s) (l := l) 0x4C520006 hs
    exact ⟨_, execLaunchStart_bad hh hb, hla, by rw [hop], by rw [hop], hmem⟩
  · refine ⟨_, execLaunchStart_good (headReady_isHead hr) hb hp, ?_⟩
    rw [startHead_pool hr hf hk]
    have hla := startPool_la hl place.init
    refine ⟨(congrArg Launch.stage ((hla l).trans (if_pos rfl))), rfl, fun hi => congrArg Op.stage (startPool_op hi place.init),
      congrArg Launch.init ((hla l).trans (if_pos rfl)), fun k hk => ?_, fun m hm => (hla m).trans (if_neg hm), rfl, rfl, rfl⟩
    refine (congrArg (fun x : Launch => x.next.getD k 0) ((hla l).trans (if_pos rfl))).trans ?_
    simp [startedLaunch, hk, w]
  · rcases h with h | ⟨hb, hp, h⟩
    · exact execLaunchStart_waits h
    · cases hh : isHead s l with
      | false => exact execLaunchStart_waits hh
      | true => rw [execLaunchStart_good hh hb hp, startHead_waits h]

theorem latticeDescriptors : Claims.LatticeDescriptors := by
  intro s l k place db _ hp x hb hr hf hk hd hbad _ hs
  obtain ⟨hla, hop, hmem⟩ := refuseLaunch_completed (s := s) (l := l) (BitVec.ofNat 32 (0x4C440000 + k)) hs
  refine ⟨_, execLaunchStart_good (headReady_isHead hr) hb hp, ?_⟩
  rw [startHead_lattice hr hf hk (startLattice_malformed hd hbad)]
  exact ⟨hla, congrArg Op.status hop, congrArg Op.detail hop, hmem⟩

theorem launchesQueue : Claims.LaunchesQueue := by
  intro s i w hi code
  refine ⟨enterLaunch_refused, fun hc => ?_⟩
  obtain ⟨⟨n, there, hop⟩, -, ⟨lx, hls, hstage, hwords, hlop⟩, hth, -, hmem⟩ := enterLaunch_queued hi hc
  have hla : (s.enterLaunch i w).la s.launches.length = lx := by rw [State.la, hls]; simp
  exact ⟨by rw [hop], by rw [hop], by rw [hls]; simp, by rw [hla, hstage], by rw [hla, hwords], by rw [hla, hlop], hth, hmem⟩

/-! ### GRID_COMPLETE (R265) -/

/-- With no error planted, a last arrival is an arrival. -/
theorem lastArrival_eq_arriveDone {s : State} (h : s.planted = []) (l : Nat) :
    s.lastArrival l = match s.arriveDone l with | some v => (v, false) | none => (s, true) := by
  unfold State.lastArrival State.arriveDone State.objXlate
  dsimp only
  by_cases hen : (lDone (s.la l).words).en = true
  · simp only [hen, Bool.not_true, Bool.false_eq_true, if_false]
    cases s.translate none (s.la l).ctx (lDone (s.la l).words).die (lNwin (s.la l).words + (lDone (s.la l).words).off) .load with
    | error k => rfl
    | ok q => cases s.translate none (s.la l).ctx (lDone (s.la l).words).die (lNwin (s.la l).words + (lDone (s.la l).words).off) .store with
      | error k => rfl
      | ok r =>
        dsimp only
        rw [State.nearEcc_clean h, eccReads_clean h]
  · simp [hen]

/-- Where a fold does nothing for these numbers, it changes nothing. -/
theorem foldl_idle {P : State → Prop} {f : State → Nat → State} {l : Nat} (hf : ∀ u m, P u → m ≠ l → f u m = u) {s : State}
    (hs : P s) : ∀ ls : List Nat, l ∉ ls → ls.foldl f s = s
  | [], _ => rfl
  | m :: ls, h => by
    rw [List.mem_cons, not_or] at h
    rw [List.foldl_cons, hf s m hs fun e => h.1 e.symm, foldl_idle hf hs ls h.2]

/-- Where a fold does something for one number only, it does that. -/
theorem foldl_one {P : State → Prop} {f : State → Nat → State} {l : Nat} (hf : ∀ u m, P u → m ≠ l → f u m = u) {s : State}
    {ls : List Nat} (hnd : ls.Nodup) (hl : l ∈ ls) (hs : P s) (hfs : P (f s l)) : ls.foldl f s = f s l := by
  obtain ⟨a, b, rfl⟩ := List.append_of_mem hl
  have hnot := (List.nodup_append.mp hnd).2.2
  have hb : l ∉ b := (List.nodup_cons.mp (List.nodup_append.mp hnd).2.1).1
  have ha : l ∉ a := fun h => hnot l h l List.mem_cons_self rfl
  rw [List.foldl_append, foldl_idle hf hs a ha, List.foldl_cons, foldl_idle hf hfs b hb]

/-- The end of one started grid: after its last arrival it completes. -/
def endGrid (s : State) (l : Nat) (st : BitVec 16) (de : Word) : State :=
  let r := s.lastArrival l
  if r.2 then (r.1.modLa l fun y => { y with stage := .complete }).completeOp (s.la l).op 4 0x4C520006
  else (r.1.modLa l fun y => { y with stage := .complete }).completeOp (s.la l).op st de

theorem endGrid_arrives {s s1 : State} {l : Nat} (st : BitVec 16) (de : Word) (hp : s.planted = []) (h : s.arriveDone l = some s1) :
    endGrid s l st de = (s1.modLa l fun y => { y with stage := .complete }).completeOp (s.la l).op st de := by
  unfold endGrid
  rw [lastArrival_eq_arriveDone hp, h]
  rfl

theorem endGrid_fails {s : State} {l : Nat} (st : BitVec 16) (de : Word) (hp : s.planted = []) (h : s.arriveDone l = none) :
    endGrid s l st de = (s.modLa l fun y => { y with stage := .complete }).completeOp (s.la l).op 4 0x4C520006 := by
  unfold endGrid
  rw [lastArrival_eq_arriveDone hp, h]
  rfl

theorem endGrid_la (s : State) (l : Nat) (st : BitVec 16) (de : Word) (m : Nat) (h : m ≠ l) : (endGrid s l st de).la m = s.la m := by
  have hla : (s.lastArrival l).1.la m = s.la m := by rw [State.lastArrival_only]; rfl
  unfold endGrid
  dsimp only
  split
  · rw [State.completeOp_la, State.la_modLa, if_neg fun c => h c.1.symm, hla]
  · rw [State.completeOp_la, State.la_modLa, if_neg fun c => h c.1.symm, hla]

/-- The last grid of a context that is not complete is the one whose end the context's end makes. -/
theorem endLaunches_last {s : State} {l : Nat} (hl : l < s.launches.length) (hs : (s.la l).stage = .started) (st : BitVec 16) (de : Word)
    (hm : ∀ m, m ≠ l → (s.la m).ctx = (s.la l).ctx → (s.la m).stage = .complete) :
    s.endLaunches (s.la l).ctx st de = endGrid s l st de := by
  have own (f : State → Nat → State) (h : f = fun (u : State) m => match decide ((u.la m).ctx = (s.la l).ctx), (u.la m).stage with
      | true, .queued => (u.modLa m fun y => { y with stage := .complete }).completeOp (u.la m).op st de
      | true, .started => endGrid u m st de
      | _, _ => u) : (List.range s.launches.length).foldl f s = endGrid s l st de := by
    have hf : f s l = endGrid s l st de := by
      rw [h]
      dsimp only
      rw [hs, decide_eq_true rfl]
    rw [← hf]
    refine foldl_one (P := fun u => ∀ m, m ≠ l → u.la m = s.la m) (fun u m hu hne => ?_) List.nodup_range (List.mem_range.mpr hl)
      (fun _ _ => rfl) fun m hne => hf ▸ endGrid_la s l st de m hne
    rw [h]
    dsimp only
    rw [hu m hne]
    by_cases hc : (s.la m).ctx = (s.la l).ctx
    · rw [hm m hne hc]
      cases decide ((s.la m).ctx = (s.la l).ctx) <;> rfl
    · rw [decide_eq_false hc]
  exact own _ rfl

/-- The rest of a context's end keeps near memory. -/
theorem endCtx_near (s : State) (c : Word) (st : BitVec 16) (de : Word) (d : Nat) :
    ((s.endCtx c st de).die d).mem = ((s.endLaunches c st de).die d).mem := by
  unfold State.endCtx
  extract_lets v mine endTh endWp endCl endCo endRec endItem endDie w
  have hdies : v.dies = (s.endLaunches c st de).dies := by rw [show v = _ from State.endOps_only _ c]
  refine (getD_map_proj (g := Die.mem) (f := endDie) (fun _ => rfl) v.dies d Die.blank).trans ?_
  rw [hdies]
  rfl

/-- What the end of the last grid of a context leaves of it and of near memory. -/
theorem endCtx_last {s u : State} {l : Nat} {st st' : BitVec 16} {de de' : Word} (hl : l < s.launches.length) (hs : (s.la l).stage = .started)
    (hm : ∀ m, m ≠ l → (s.la m).ctx = (s.la l).ctx → (s.la m).stage = .complete)
    (hu : endGrid s l st de = (u.modLa l fun y => { y with stage := .complete }).completeOp (s.la l).op st' de')
    (hop : (u.op (s.la l).op).stage ≠ .done) :
    (∀ d a, Memory.read1 ((s.endCtx (s.la l).ctx st de).die d).mem a = Memory.read1 (u.die d).mem a) ∧
      ((s.endCtx (s.la l).ctx st de).op (s.la l).op).status = st' ∧ ((s.endCtx (s.la l).ctx st de).op (s.la l).op).detail = de' := by
  have hend := (endLaunches_last hl hs st de hm).trans hu
  have hdone : (s.endLaunches (s.la l).ctx st de).op (s.la l).op = { u.op (s.la l).op with stage := .done, status := st', detail := de' } := by
    rw [hend]
    exact completeOp_done (s := u.modLa l _) st' de' hop
  have hfinal : (s.endCtx (s.la l).ctx st de).op (s.la l).op = { u.op (s.la l).op with stage := .done, status := st', detail := de' } := by
    rw [State.endCtx_op, State.endOps_op_done _ _ (by rw [hdone]), hdone]
  refine ⟨fun d a => ?_, by rw [hfinal], by rw [hfinal]⟩
  rw [endCtx_near, hend, (State.completeOp_near _ _ _ _ _).die]
  rfl

theorem arriveDone_kept {s s1 : State} {l : Nat} (hp : s.planted = []) (h : s.arriveDone l = some s1) : s1.ops = s.ops := by
  have hlast : (s.lastArrival l).1 = s1 := by rw [lastArrival_eq_arriveDone hp, h]
  rw [← hlast, State.lastArrival_only]

theorem execGridComplete_waits {s : State} {l : Nat} (h : ¬((s.la l).stage = .started ∧ gridQuiet s l = true)) :
    exec (.gridComplete l) s = .next s := congrArg Host.Outcome.next (if_neg (by simpa using h))

theorem execGridComplete_quiet {s : State} {l : Nat} (hs : (s.la l).stage = .started) (hq : gridQuiet s l = true) :
    exec (.gridComplete l) s = .next (s.completeGrid l (if (s.la l).peerLost then 2 else 0) s.openDetail) :=
  congrArg Host.Outcome.next (if_pos (by rw [hs, hq]; rfl))

theorem completeGrid_arrives {s s1 : State} {l : Nat} {st : BitVec 16} {de : Word} (h : s.arriveDone l = some s1) :
    s.completeGrid l st de = (s1.modLa l fun y => { y with stage := .complete }).completeOp (s1.la l).op st de := by
  unfold State.completeGrid
  dsimp only
  rw [h]

theorem completeGrid_fails {s : State} {l : Nat} {st : BitVec 16} {de : Word} (h : s.arriveDone l = none) :
    s.completeGrid l st de = (s.modLa l fun y => { y with stage := .complete }).completeOp (s.la l).op 4 0x4C520006 := by
  unfold State.completeGrid
  dsimp only
  rw [h]

theorem gridCompletes : Claims.GridCompletes := by
  intro s s1 l hl x
  refine ⟨?_, execGridComplete_waits, fun hs hq h1 hlaunches hops _ hop => ?_, fun hs hq h1 _ hop => ?_⟩
  · intro hs hp _ hop hothers st de u near
    have hm (m : Nat) (hne : m ≠ l) (hc : (s.la m).ctx = (s.la l).ctx) : (s.la m).stage = .complete := by
      rcases Nat.lt_or_ge m s.launches.length with hin | hout
      · exact hothers m hin hne hc
      · rw [State.la, List.getD_eq_default _ _ hout]
        rfl
    refine ⟨?_, fun h => ?_, fun h => ?_⟩
    · exact ((congrArg Launch.stage (State.endCtx_la s x.ctx st de l)).trans ((s.endLaunches_grids x.ctx st de).2 l hl rfl))
    · exact endCtx_last hl hs hm (endGrid_arrives st de hp h) (by rwa [State.op, arriveDone_kept hp h])
    · exact endCtx_last hl hs hm (endGrid_fails st de hp h) hop
  · have hla : s1.la l = s.la l := by rw [State.la, hlaunches]; rfl
    have hop1 : (s1.op (s1.la l).op).stage ≠ .done := by rwa [hla, State.op, hops]
    have hend := complete_launchCompleted (s := s1) (l := l) (if x.peerLost then 2 else 0) s.openDetail hop1
    obtain ⟨hstage, hdone, hmem⟩ := hend
    refine ⟨_, execGridComplete_quiet hs hq, ?_⟩
    rw [completeGrid_arrives h1]
    rw [hla] at hstage hdone hmem ⊢
    exact ⟨hstage, congrArg Op.stage hdone, congrArg Op.status hdone, hmem⟩
  · obtain ⟨-, hdone, -⟩ := complete_launchCompleted (s := s) (l := l) 4 0x4C520006 hop
    refine ⟨_, execGridComplete_quiet hs hq, ?_⟩
    rw [completeGrid_fails h1]
    exact ⟨congrArg Op.status hdone, congrArg Op.detail hdone⟩

/-- Settles O45: a launch by the branches of its events; the last grid of a context by the one step of the fold that is its own. -/
theorem launchLifeCycle : Obligations.LaunchLifeCycle := ⟨launchStarts, latticeDescriptors, launchesQueue, gridCompletes⟩

end Sys2Proof.Machine
end

section
/-! PROOF. Teams and packs: the shares of the dies, the launch state of a warp's threads, and where the teams that a claim or a pack
starts stand (R85, R267, R268). -/

namespace Sys2Proof.Machine

/-! ### The shares of the dies (R267, R268) -/

section
variable (w : List Word) (n : Nat)

theorem dieShare_next (k : Nat) : (dieShare w n k).2 = (dieShare w n (k + 1)).1 := rfl

theorem dieShare_mono {j k : Nat} (h : j ≤ k) : (dieShare w n j).1 ≤ (dieShare w n k).1 :=
  Nat.mul_le_mul_left _ (Nat.div_le_div_right (Nat.mul_le_mul_right _ h))

theorem dieShare_le (k : Nat) : (dieShare w n k).1 ≤ (dieShare w n k).2 := dieShare_mono w n k.le_succ

/-- An index lies in the share of one die only. -/
theorem dieShare_unique {j k t : Nat} (hk : (dieShare w n k).1 ≤ t) (hk' : t < (dieShare w n k).2) (hj : (dieShare w n j).1 ≤ t)
    (hj' : t < (dieShare w n j).2) : j = k := by
  rcases Nat.lt_trichotomy j k with h | h | h
  · exact absurd (hj'.trans_le ((dieShare_mono w n (Nat.succ_le_of_lt h)).trans hk)) (Nat.lt_irrefl t)
  · exact h
  · exact absurd (hk'.trans_le ((dieShare_mono w n (Nat.succ_le_of_lt h)).trans hj)) (Nat.lt_irrefl t)

theorem dieShare_last {n : Nat} (hn : 0 < n) (h : lTeams w % max 1 (lPack w) = 0) : (dieShare w n (n - 1)).2 = lTeams w := by
  show max 1 (lPack w) * ((n - 1 + 1) * (lTeams w / max 1 (lPack w)) / n) = _
  rw [Nat.sub_add_cancel hn, Nat.mul_div_cancel_left _ hn, Nat.mul_div_cancel' (Nat.dvd_of_mod_eq_zero h)]

end

theorem teamShares : Claims.TeamShares := by
  intro w n hn
  refine ⟨by simp [dieShare], dieShare_last w hn, fun h k => by simp [dieShare, h], fun k => ?_, dieShare_next w n, dieShare_le w n,
    fun k t hk hk' j hj hj' => dieShare_unique w n hk hk' hj hj'⟩
  rcases Nat.eq_zero_or_pos (lPack w) with h | h
  · exact .inr h
  · refine .inl ?_
    show lPack w ∣ max 1 (lPack w) * _
    rw [Nat.max_eq_right h]
    exact Nat.dvd_mul_right _ _

/-! ### Warps (R85, R86) -/

/-- What a warp that finds its slots adds. -/
theorem tryWarp_some {s u : State} {team c : Nat} {w : List Word} (h : s.tryWarp team c w = some u) :
    ∃ base, u = { s with
      warps := s.warps ++ [{ Warp.blank with
        team := team, core := c, idx := warpIdx s c, width := lWidth w, pipe := base / 64 % 4, col := base % 64
        threads := (List.range (lWidth w)).map fun k => s.threads.length + k }]
      threads := s.threads ++ (List.range (lWidth w)).map fun k =>
        { Thread.fresh s.warps.length k (base + k) (lAlloc w) (lw w 1) with qb := launchQueues w } } := by
  unfold State.tryWarp at h
  dsimp only at h
  split at h
  · obtain ⟨base, -, rfl⟩ := Option.map_eq_some_iff.mp h
    exact ⟨base, rfl⟩
  · cases h

section
variable {s u : State} {team c k : Nat} {w : List Word}

theorem tryWarp_th (h : s.tryWarp team c w = some u) (hk : k < lWidth w) :
    ∃ slot, u.th (s.threads.length + k) = { Thread.fresh s.warps.length k slot (lAlloc w) (lw w 1) with qb := launchQueues w } := by
  obtain ⟨base, rfl⟩ := tryWarp_some h
  refine ⟨base + k, ?_⟩
  simp [State.th, List.getD_eq_getElem?_getD, hk]

theorem tryWarp_threads (h : s.tryWarp team c w = some u) : u.threads.length = s.threads.length + lWidth w := by
  obtain ⟨base, rfl⟩ := tryWarp_some h
  simp

end

/-! ### What starting threads leaves as it was -/

/-- Where a core belongs. -/
def homeOfCore (k : CoreSt) : Word × Nat × Nat := (k.ctx, k.ldie, k.core)

/-- Threads, warps, teams and cores have been added; what was there, and where its cores belong, is as before. -/
structure Grown (s u : State) : Prop where
  teams : s.teams <+: u.teams
  warps : s.warps <+: u.warps
  threads : s.threads <+: u.threads
  cores : s.cores.length ≤ u.cores.length
  sites : ∀ c, c < s.cores.length → homeOfCore (u.co c) = homeOfCore (s.co c)
  launches : u.launches = s.launches
  ops : u.ops = s.ops
  dies : u.dies = s.dies

namespace Grown

variable {s u v : State}

theorem refl (s : State) : Grown s s :=
  ⟨List.prefix_rfl, List.prefix_rfl, List.prefix_rfl, Nat.le_refl _, fun _ _ => rfl, rfl, rfl, rfl⟩

theorem trans (h : Grown s u) (k : Grown u v) : Grown s v :=
  ⟨h.teams.trans k.teams, h.warps.trans k.warps, h.threads.trans k.threads, h.cores.trans k.cores,
    fun c hc => (k.sites c (hc.trans_le h.cores)).trans (h.sites c hc), k.launches.trans h.launches, k.ops.trans h.ops,
    k.dies.trans h.dies⟩

theorem getD_prefix {α : Type} {a b : List α} (h : a <+: b) {n : Nat} (hn : n < a.length) (d : α) : b.getD n d = a.getD n d := by
  obtain ⟨c, rfl⟩ := h
  exact List.getD_append _ _ _ _ hn

theorem th (h : Grown s u) {t : Nat} (ht : t < s.threads.length) : u.th t = s.th t := getD_prefix h.threads ht _
theorem wp (h : Grown s u) {n : Nat} (hn : n < s.warps.length) : u.wp n = s.wp n := getD_prefix h.warps hn _
theorem tm (h : Grown s u) {m : Nat} (hm : m < s.teams.length) : u.tm m = s.tm m := getD_prefix h.teams hm _
theorem la (h : Grown s u) (l : Nat) : u.la l = s.la l := by rw [State.la, h.launches]; rfl

theorem of_modCo {f : CoreSt → CoreSt} (hf : ∀ k, homeOfCore (f k) = homeOfCore k) (s : State) (c : Nat) : Grown s (s.modCo c f) :=
  ⟨List.prefix_rfl, List.prefix_rfl, List.prefix_rfl, by simp [State.modCo], fun n _ => getD_modify_proj homeOfCore hf s.cores c n _, rfl, rfl, rfl⟩

theorem of_bufWrite (s : State) (c : Nat) (sp : Space) (a : Nat) (bs : List Byte) : Grown s (s.bufWrite c sp a bs) := by
  rw [State.bufWrite_only]
  have h := of_modCo (f := fun k => k.setBuf sp (Memory.write (k.buf sp) a bs)) (fun k => by cases sp <;> rfl) s c
  exact ⟨h.teams, h.warps, h.threads, h.cores, h.sites, rfl, rfl, rfl⟩

theorem of_tryWarp {team c : Nat} {w : List Word} (h : s.tryWarp team c w = some u) : Grown s u := by
  obtain ⟨base, rfl⟩ := tryWarp_some h
  exact ⟨List.prefix_rfl, List.prefix_append _ _, List.prefix_append _ _, Nat.le_refl _, fun _ _ => rfl, rfl, rfl, rfl⟩

theorem startCollie (s : State) (c : Nat) : Grown s (s.startCollie c) := by
  unfold State.startCollie
  dsimp only
  split
  · exact refl s
  · refine trans (u := { s with teams := _, warps := _, threads := _ }) ?_ (of_modCo (by exact fun _ => rfl) _ c)
    exact ⟨List.prefix_append _ _, List.prefix_append _ _, List.prefix_append _ _, Nat.le_refl _, fun _ _ => rfl, rfl, rfl, rfl⟩

theorem initBuffers (s : State) (l c : Nat) : Grown s (s.initBuffers l c) := by
  have put (s : State) (sp : Space) (bs : List Byte) : Grown s (if bs.isEmpty then s else s.bufWrite c sp 0 (bs.take (bufSize sp))) := by
    split
    · exact refl s
    · exact of_bufWrite s c sp 0 _
  exact (((put s _ _).trans (put _ _ _)).trans (put _ _ _)).trans (of_modCo (by exact fun _ => rfl) _ c)

end Grown

theorem launchState : Claims.LaunchState := by
  intro s u team c k w h hk t
  obtain ⟨slot, hth⟩ := tryWarp_th h hk
  have hfresh (f : Thread → Prop) (hf : f { Thread.fresh s.warps.length k slot (lAlloc w) (lw w 1) with qb := launchQueues w }) :
      f (u.th t) := by rw [show u.th t = _ from hth]; exact hf
  refine ⟨tryWarp_threads h, hfresh (·.warp = _) rfl, hfresh (·.lane = _) rfl, hfresh (·.pc = _) rfl, hfresh (·.status = _) rfl,
    hfresh (·.v = _) rfl, hfresh (·.p = _) rfl, hfresh (·.lnk = _) rfl, hfresh (·.meet = _) rfl, hfresh (·.wbase = _) rfl,
    hfresh (·.depth = _) rfl, hfresh (fun x => ∀ r ∈ x.lc, r.desc = none) (by simp [Thread.fresh, Thread.blank]), hfresh (·.inHandler = _) rfl, fun _ hn => (Grown.of_tryWarp h).th hn⟩

/-! ### A core receives a team -/

theorem coreOn_some {s : State} {ctx : Word} {ldie core c : Nat} (h : coreOn s ctx ldie core = some c) :
    c < s.cores.length ∧ homeOfCore (s.co c) = (ctx, ldie, core) := by
  obtain ⟨hc, hk, -⟩ := List.findIdx?_eq_some_iff_getElem.mp h
  refine ⟨hc, ?_⟩
  rw [State.co, List.getD_eq_getElem _ _ hc]
  simp only [Bool.and_eq_true, decide_eq_true_eq] at hk
  obtain ⟨⟨hctx, hdie⟩, hcore⟩ := hk
  rw [homeOfCore, hctx, hdie, hcore]

/-- The core that receives the team, before launch initialisation. -/
theorem readyCore_site (s : State) (l : Nat) (ctx : Word) (ldie core : Nat) :
    Grown s (s.readyCore l ctx ldie core).1 ∧ (s.readyCore l ctx ldie core).2 < (s.readyCore l ctx ldie core).1.cores.length ∧
      homeOfCore ((s.readyCore l ctx ldie core).1.co (s.readyCore l ctx ldie core).2) = (ctx, ldie, core) := by
  unfold State.readyCore
  extract_lets free blank r again s1
  have hr : Grown s r.1 ∧ r.2 < r.1.cores.length ∧ homeOfCore (r.1.co r.2) = (ctx, ldie, core) := by
    simp only [r]
    split
    · next c hc =>
      obtain ⟨hin, hsite⟩ := coreOn_some hc
      have hg := Grown.of_modCo (f := fun k => { k with resident := if holdsThreads s c then k.resident else free, copies := [] })
        (fun _ => rfl) s c
      exact ⟨hg, hin.trans_le hg.cores, (hg.sites c hin).trans hsite⟩
    · refine ⟨⟨List.prefix_rfl, List.prefix_rfl, List.prefix_rfl, by simp, fun c hc => ?_, rfl, rfl, rfl⟩, by simp, ?_⟩
      · exact congrArg homeOfCore (List.getD_append _ _ _ _ hc)
      · simp [State.co, homeOfCore]
  have hs1 : Grown r.1 s1 := by
    simp only [s1]
    split
    · exact .refl _
    · exact .initBuffers _ _ _
  obtain ⟨hg, hin, hsite⟩ := hr
  have hall := hs1.trans (Grown.startCollie s1 r.2)
  exact ⟨hg.trans hall, hin.trans_le hall.cores, (hall.sites r.2 hin).trans hsite⟩

/-! ### A team stands on its cores -/

/-- Thread q is lane k of warp v, of team m, of a launch x: it is new, on the logical core `core` of the die. -/
structure LanePlaced (u : State) (x : Launch) (die core m v k q : Nat) : Prop where
  inThreads : q < u.threads.length
  inWarps : v < u.warps.length
  inCores : (u.wp v).core < u.cores.length
  thread : (u.th q).warp = v ∧ (u.th q).lane = k ∧ (u.th q).pc = lw x.words 1 ∧ (u.th q).status = .ready
  warp : (u.wp v).team = m ∧ (u.wp v).threads[k]? = some q
  site : homeOfCore (u.co (u.wp v).core) = (x.ctx, die, core)

theorem LanePlaced.mono {u v : State} {x : Launch} {die core m w k q : Nat} (h : LanePlaced u x die core m w k q) (g : Grown u v) :
    LanePlaced v x die core m w k q := by
  obtain ⟨hq, hw, hc, hth, hwp, hs⟩ := h
  have hwarp := g.wp hw
  exact ⟨hq.trans_le g.threads.length_le, hw.trans_le g.warps.length_le, hwarp ▸ hc.trans_le g.cores, by rw [g.th hq]; exact hth,
    by rw [hwarp]; exact hwp, by rw [hwarp, g.sites _ hc]; exact hs⟩

/-- The team of a launch with this index, its warps from v on and their threads from t on. -/
structure TeamPlaced (u : State) (x : Launch) (l die core n : Nat) (pack : Option Nat) (m v t : Nat) : Prop where
  inTeams : m < u.teams.length
  team : ∃ c odd, u.tm m = { launch := some l, x := BitVec.ofNat 32 (n % (lw x.words 4).toNat)
                             y := BitVec.ofNat 32 (n / (lw x.words 4).toNat % (lw x.words 5).toNat)
                             z := BitVec.ofNat 32 (n / ((lw x.words 4).toNat * (lw x.words 5).toNat))
                             core := c, odd := odd, warps := lWarps x.words, pack := pack }
  lanes : ∀ j k, j < lWarps x.words → k < lWidth x.words →
    LanePlaced u x die (core + if j < evenWarps x.words then 0 else 1) m (v + j) k (t + j * lWidth x.words + k)

theorem TeamPlaced.mono {u v : State} {x : Launch} {l die core n m w t : Nat} {pack : Option Nat}
    (h : TeamPlaced u x l die core n pack m w t) (g : Grown u v) : TeamPlaced v x l die core n pack m w t :=
  ⟨h.inTeams.trans_le g.teams.length_le, by rw [g.tm h.inTeams]; exact h.team, fun j k hj hk => (h.lanes j k hj hk).mono g⟩

/-- The warps of a team that have been placed: one after another, and their threads. -/
structure WarpsPlaced (s u : State) (x : Launch) (die m : Nat) (core : Nat → Nat) (n : Nat) : Prop where
  grown : Grown s u
  warps : u.warps.length = s.warps.length + n
  threads : u.threads.length = s.threads.length + n * lWidth x.words
  lanes : ∀ j k, j < n → k < lWidth x.words →
    LanePlaced u x die (core j) m (s.warps.length + j) k (s.threads.length + j * lWidth x.words + k)

/-- Steps that may fail, one for each number below n. -/
theorem foldl_bind_range {f : State → Nat → Option State} {P : Nat → State → Prop} {s : State} (h0 : P 0 s)
    (step : ∀ n v u, P n v → f v n = some u → P (n + 1) u) :
    ∀ (n : Nat) {u : State}, (List.range n).foldl (fun (a : Option State) i => a.bind fun s => f s i) (some s) = some u → P n u
  | 0, _, h => by cases h; exact h0
  | n + 1, u, h => by
    rw [List.range_succ, List.foldl_append, List.foldl_cons, List.foldl_nil] at h
    obtain ⟨v, hv, hu⟩ := Option.bind_eq_some_iff.mp h
    exact step n v u (foldl_bind_range h0 step n hv) hu

theorem tryWarp_placed {s u : State} {x : Launch} {die m c core k : Nat} (h : s.tryWarp m c x.words = some u) (hc : c < s.cores.length)
    (hs : homeOfCore (s.co c) = (x.ctx, die, core)) (hk : k < lWidth x.words) :
    LanePlaced u x die core m s.warps.length k (s.threads.length + k) := by
  have hlen := tryWarp_threads h
  obtain ⟨slot, hth⟩ := tryWarp_th h hk
  have hwp : ∃ w : Warp, u.warps = s.warps ++ [w] ∧ u.cores = s.cores ∧ w.team = m ∧ w.core = c ∧ w.threads[k]? = some (s.threads.length + k) := by
    obtain ⟨base, rfl⟩ := tryWarp_some h
    exact ⟨_, rfl, rfl, rfl, rfl, by simp [hk]⟩
  obtain ⟨w, hws, hcores, hteam, hcore, hthreads⟩ := hwp
  have hw : u.wp s.warps.length = w := by rw [State.wp, hws]; simp
  refine ⟨by omega, by rw [hws]; simp, by rw [hw, hcore, hcores]; exact hc, ?_, by rw [hw]; exact ⟨hteam, hthreads⟩, ?_⟩
  · rw [hth]
    exact ⟨rfl, rfl, rfl, rfl⟩
  · rw [hw, hcore, State.co, hcores]
    exact hs

/-- The warps of a team, each on a core of the context. -/
theorem tryWarps_placed {s u : State} {x : Launch} {die m n : Nat} {c core : Nat → Nat} (hc : ∀ j, c j < s.cores.length)
    (hs : ∀ j, homeOfCore (s.co (c j)) = (x.ctx, die, core j))
    (h : (List.range n).foldl (fun (a : Option State) i => a.bind fun s => s.tryWarp m (c i) x.words) (some s) = some u) :
    WarpsPlaced s u x die m core n := by
  refine foldl_bind_range (P := fun n u => WarpsPlaced s u x die m core n) ⟨.refl s, rfl, by simp, fun j k hj => by omega⟩ (fun n v u hv hu => ?_) n h
  obtain ⟨hg, hw, ht, hl⟩ := hv
  have hgu := Grown.of_tryWarp hu
  refine ⟨hg.trans hgu, ?_, ?_, fun j k hj hk => ?_⟩
  · obtain ⟨base, rfl⟩ := tryWarp_some hu
    simp [hw, Nat.add_assoc]
  · rw [tryWarp_threads hu, ht, Nat.succ_mul, Nat.add_assoc]
  · rcases Nat.lt_succ_iff_lt_or_eq.mp hj with hj | rfl
    · exact (hl j k hj hk).mono hgu
    · have hlast := tryWarp_placed hu ((hc j).trans_le hg.cores) ((hg.sites _ (hc j)).trans (hs j)) hk
      rwa [hw, ht] at hlast

/-- The cores of a team, once they have received it. -/
theorem teamCores_ready (s : State) (l die core : Nat) (ctx : Word) (pair : Bool) :
    let e := s.readyCore l ctx die core
    let o : State × Option Nat := if pair then
      ((e.1.readyCore l ctx die (core + 1)).1, some (e.1.readyCore l ctx die (core + 1)).2) else (e.1, none)
    Grown s o.1 ∧ ∀ j even : Nat, (if j < even then e.2 else o.2.getD e.2) < o.1.cores.length ∧
      homeOfCore (o.1.co (if j < even then e.2 else o.2.getD e.2)) = (ctx, die, core + if pair = false ∨ j < even then 0 else 1) := by
  intro e o
  obtain ⟨hg, hin, hsite⟩ := readyCore_site s l ctx die core
  cases hp : pair with
  | false =>
    simp only [o, hp]
    exact ⟨hg, fun j even => by simpa using ⟨hin, hsite⟩⟩
  | true =>
    simp only [o, hp]
    obtain ⟨hg2, hin2, hsite2⟩ := readyCore_site e.1 l ctx die (core + 1)
    refine ⟨hg.trans hg2, fun j even => ?_⟩
    by_cases hj : j < even
    · simpa [hj] using And.intro (hin.trans_le hg2.cores) ((hg2.sites _ hin).trans hsite)
    · simpa [hj] using And.intro hin2 hsite2

/-- What a team that finds its place adds. -/
theorem tryTeam_placed {s u : State} {l die core n : Nat} {pack : Option Nat} (h : s.tryTeam l die core n pack = some u) :
    Grown s u ∧ ∃ m v t, s.teams.length ≤ m ∧ s.warps.length ≤ v ∧ s.threads.length ≤ t ∧ TeamPlaced u (s.la l) l die core n pack m v t := by
  unfold State.tryTeam at h
  extract_lets x w pair e r o gx gy m team at h
  obtain ⟨-, h⟩ := Option.ite_none_right_eq_some.mp h
  obtain ⟨hg, hcores⟩ := teamCores_ready s l die core x.ctx pair
  have hadd : Grown o.1 { o.1 with teams := o.1.teams ++ [m] } :=
    ⟨List.prefix_append _ _, List.prefix_rfl, List.prefix_rfl, Nat.le_refl _, fun _ _ => rfl, rfl, rfl, rfl⟩
  obtain ⟨hwarps, -, -, hlanes⟩ := tryWarps_placed (s := { o.1 with teams := o.1.teams ++ [m] }) (x := x) (die := die)
    (c := fun j => if j < evenWarps w then e.2 else o.2.getD e.2) (core := fun j => core + if pair = false ∨ j < evenWarps w then 0 else 1)
    (fun j => (hcores j (evenWarps w)).1) (fun j => (hcores j (evenWarps w)).2) h
  refine ⟨(hg.trans hadd).trans hwarps, o.1.teams.length, o.1.warps.length, o.1.threads.length, hg.teams.length_le, hg.warps.length_le,
    hg.threads.length_le, ?_, ⟨e.2, o.2, ?_⟩, fun j k hj hk => ?_⟩
  · exact lt_of_lt_of_le (by simp) hwarps.teams.length_le
  · rw [hwarps.tm (by simp)]
    exact show (o.1.teams ++ [m]).getD o.1.teams.length Team.blank = m by simp
  · have hlane := hlanes j k hj hk
    have hhalf : (pair = false ∨ j < evenWarps w) ↔ j < evenWarps w := by
      refine ⟨fun h => h.elim (fun hp => ?_) id, .inr⟩
      rwa [evenWarps, if_neg (by simpa [pair] using hp)]
    simp only [hhalf] at hlane
    exact hlane

/-- What starting n teams adds. -/
theorem startTeams_placed {s u : State} {l die lo n : Nat} {pack : Option Nat} {at_ : Nat → Nat}
    (h : s.startTeams l die lo n pack at_ = some u) :
    Grown s u ∧ ∀ i, i < n → ∃ m v t, s.teams.length ≤ m ∧ s.warps.length ≤ v ∧ s.threads.length ≤ t ∧
      TeamPlaced u (s.la l) l die (at_ i) (lo + i) pack m v t := by
  refine foldl_bind_range (P := fun n u => Grown s u ∧ ∀ i, i < n → ∃ m v t, s.teams.length ≤ m ∧ s.warps.length ≤ v ∧ s.threads.length ≤ t ∧
      TeamPlaced u (s.la l) l die (at_ i) (lo + i) pack m v t) ⟨.refl s, nofun⟩ (fun n v u hv hu => ?_) n h
  obtain ⟨hg, hall⟩ := hv
  obtain ⟨hgu, m, w, t, hm, hw, ht, hplaced⟩ := tryTeam_placed hu
  refine ⟨hg.trans hgu, fun i hi => ?_⟩
  rcases Nat.lt_succ_iff_lt_or_eq.mp hi with hi | rfl
  · obtain ⟨m, w, t, hm, hw, ht, hplaced⟩ := hall i hi
    exact ⟨m, w, t, hm, hw, ht, hplaced.mono hgu⟩
  · rw [hg.la] at hplaced
    exact ⟨m, w, t, hg.teams.length_le.trans hm, hg.warps.length_le.trans hw, hg.threads.length_le.trans ht, hplaced⟩

/-- Teams that are placed stand. -/
theorem teamsStand_of_placed {s u v : State} {l die lo n : Nat} {pack : Option Nat} {at_ : Nat → Nat}
    (h : s.startTeams l die lo n pack at_ = some u) (ht : v.teams = u.teams) (hw : v.warps = u.warps) (hth : v.threads = u.threads)
    (hc : v.cores = u.cores) : TeamsStand s v l die lo n pack at_ := by
  intro i hi
  obtain ⟨m, wv, t, hm, hwv, htv, hin, ⟨c, odd, hteam⟩, hlanes⟩ := (startTeams_placed h).2 i hi
  have htm : v.tm m = u.tm m := by rw [State.tm, ht]; rfl
  have hwp (n : Nat) : v.wp n = u.wp n := by rw [State.wp, hw]; rfl
  have hthr (n : Nat) : v.th n = u.th n := by rw [State.th, hth]; rfl
  have hco (n : Nat) : v.co n = u.co n := by rw [State.co, hc]; rfl
  refine ⟨m, wv, t, hm, hwv, htv, ?_⟩
  rw [htm, hteam]
  refine ⟨rfl, rfl, rfl, rfl, rfl, rfl, fun j k hj hk => ?_⟩
  obtain ⟨hq, -, -, ⟨h1, h2, h3, h4⟩, ⟨h5, h6⟩, hsite⟩ := hlanes j k hj hk
  simp only [hwp, hthr, hco, hth]
  rw [homeOfCore, Prod.mk.injEq, Prod.mk.injEq] at hsite
  obtain ⟨hctx, hdie, hcore⟩ := hsite
  exact ⟨hq, h1, h2, h3, h4, h5, h6, hctx, hdie, hcore⟩

/-! ### Claims (R267) -/

section
variable {s u : State} {l die core : Nat}

theorem execTeamClaim_eq : exec (.teamClaim l die core) s =
    .next (if outranked s l die [core] then s else (claimed s l die core).getD s) := rfl

theorem execTeamClaim_none (h : claimed s l die core = none) : exec (.teamClaim l die core) s = .next s := by
  rw [execTeamClaim_eq, h]
  exact congrArg _ (ite_self _)

theorem execTeamClaim_some (ho : outranked s l die [core] = false) (h : claimed s l die core = some u) :
    exec (.teamClaim l die core) s = .next u := by
  rw [execTeamClaim_eq, h, ho]
  rfl

theorem leftOn_ne_zero (h : leftOn s l die ≠ 0) : l < s.launches.length ∧ die < s.ndie := by
  unfold leftOn at h
  dsimp only at h
  have hc := (ite_ne_right_iff.mp h).1
  rw [Bool.and_eq_true, Bool.and_eq_true, decide_eq_true_eq, decide_eq_true_eq] at hc
  obtain ⟨⟨hs, -⟩, hd⟩ := hc
  refine ⟨Nat.lt_of_not_le fun hout => ?_, hd⟩
  rw [State.la, List.getD_eq_default _ _ hout] at hs
  cases hs

theorem claimSize_pos (h : leftOn s l die ≠ 0) : 0 < claimSize s l die :=
  Nat.lt_min.mpr ⟨Nat.succ_pos _, Nat.pos_of_ne_zero h⟩

theorem claimed_none (h : leftOn s l die = 0) : claimed s l die core = none :=
  if_pos (by rw [claimSize, h, Nat.min_zero])

theorem claimed_teams (hk : lPack (s.la l).words = 0) (h : claimed s l die core = some u) : leftOn s l die ≠ 0 ∧
    ∃ v, s.startTeams l die ((s.la l).next.getD die 0) (claimSize s l die) none (fun _ => core) = some v ∧
      u = v.takeTeams l die (claimSize s l die) := by
  refine ⟨fun h0 => Option.some_ne_none u (h.symm.trans (claimed_none h0)), ?_⟩
  unfold claimed at h
  dsimp only at h
  rw [Option.ite_none_left_eq_some, if_pos hk] at h
  obtain ⟨-, h⟩ := h
  obtain ⟨v, hv, rfl⟩ := Option.map_eq_some_iff.mp h
  exact ⟨v, hv, rfl⟩

theorem claimed_packs (hk : lPack (s.la l).words ≠ 0) (hleft : leftOn s l die ≠ 0) (hc : core < 72) : claimed s l die core =
    some ((s.takeTeams l die (claimSize s l die)).modLa l fun y => { y with
      packs := y.packs ++ (List.range (claimSize s l die / lPack (s.la l).words)).map fun j =>
        (die, (s.la l).next.getD die 0 + lPack (s.la l).words * j) }) :=
  (if_neg (claimSize_pos hleft).ne').trans ((if_neg hk).trans (if_neg (Nat.not_le.mpr hc)))

/-- The range counter of a die after it has handed out indices. -/
theorem takeTeams_la (hl : l < s.launches.length) (n : Nat) : (s.takeTeams l die n).la l =
    { s.la l with next := (s.la l).next.set die ((s.la l).next.getD die 0 + n) } := by
  rw [State.takeTeams, State.la_modLa, if_pos ⟨rfl, hl⟩]

theorem getD_set_self {xs : List Nat} {n : Nat} (h : n < xs.length) (x : Nat) : (xs.set n x).getD n 0 = x := by
  simp [List.getD_eq_getElem?_getD, h]

end

theorem teamClaims : Claims.TeamClaims := by
  intro s u l die core n lo k
  refine ⟨fun h => congrArg Host.Outcome.next (if_pos h), execTeamClaim_none, fun h => execTeamClaim_none (claimed_none h),
    fun ho hk h => ?_, fun ho hk hleft hc hl => ?_⟩
  · obtain ⟨hleft, v, hv, rfl⟩ := claimed_teams hk h
    obtain ⟨hl, hdie⟩ := leftOn_ne_zero hleft
    have hg := (startTeams_placed hv).1
    refine ⟨execTeamClaim_some ho h, claimSize_pos hleft, teamsStand_of_placed hv rfl rfl rfl rfl, fun hlen => ?_, fun t ht => hg.th ht, hg.dies, hg.ops⟩
    rw [takeTeams_la (by rw [hg.launches]; exact hl), hg.la]
    exact getD_set_self (hlen ▸ hdie) _
  · have hclaim := claimed_packs (s := s) (l := l) (die := die) (core := core) hk hleft hc
    refine ⟨_, execTeamClaim_some ho hclaim, ?_⟩
    have hla := State.la_modLa (s.takeTeams l die (claimSize s l die)) l l fun y => { y with
      packs := y.packs ++ (List.range (claimSize s l die / lPack (s.la l).words)).map fun j =>
        (die, (s.la l).next.getD die 0 + lPack (s.la l).words * j) }
    rw [if_pos ⟨rfl, by simpa [State.takeTeams, State.modLa] using hl⟩, takeTeams_la hl] at hla
    rw [hla]
    exact ⟨fun hlen => getD_set_self (hlen ▸ (leftOn_ne_zero hleft).2) _, rfl, rfl, rfl, rfl, rfl, rfl⟩

/-! ### Packs (R268) -/

section
variable {s u : State} {l die : Nat} {cores : List Nat}

theorem execPackStart_eq : exec (.packStart l die cores) s =
    .next (if outranked s l die cores then s else (packed s l die cores).getD s) := rfl

theorem execPackStart_none (h : packed s l die cores = none) : exec (.packStart l die cores) s = .next s := by
  rw [execPackStart_eq, h]
  exact congrArg _ (ite_self _)

theorem packAt_some {lo : Nat} (h : packAt s l die lo cores = some u) : 0 < lPack (s.la l).words ∧ (s.la l).stage = .started ∧
    s.startTeams l die lo (lPack (s.la l).words) (some lo) (fun i => cores.getD i 0) = some u := by
  unfold packAt at h
  dsimp only at h
  rw [Option.ite_none_left_eq_some] at h
  obtain ⟨hc, h⟩ := h
  simp only [not_or] at hc
  exact ⟨Nat.pos_of_ne_zero hc.1, not_not.mp hc.2.1, h⟩

theorem packed_some (h : packed s l die cores = some u) : ∃ lo rest v, packsOn s l die = lo :: rest ∧ packAt s l die lo cores = some v ∧
    u = v.modLa l fun y => { y with packs := y.packs.erase (die, lo) } := by
  unfold packed at h
  split at h
  · cases h
  · next lo rest hp =>
    obtain ⟨v, hv, rfl⟩ := Option.map_eq_some_iff.mp h
    exact ⟨lo, rest, v, hp, hv, rfl⟩

theorem packed_none {w : List Word} (hw : w = (s.la l).words)
    (h : lPack w = 0 ∨ packsOn s l die = [] ∨ cores.length ≠ lPack w ∨
      meshConnected (if lPair w then cores.flatMap fun c => [c, c + 1] else cores) = false) : packed s l die cores = none := by
  subst hw
  unfold packed
  split
  · rfl
  · next lo rest hp =>
    refine Option.map_eq_none_iff.mpr (if_pos ?_)
    rcases h with h | h | h | h
    · exact .inl h
    · rw [hp] at h
      cases h
    · exact .inr (.inr (.inl h))
    · exact .inr (.inr (.inr (by rw [h]; rfl)))

/-- The packs of a die without the one that begins first. -/
theorem erase_first_pack {ps : List (Nat × Nat)} {lo : Nat} {rest : List Nat}
    (h : (ps.filter fun p => p.1 = die).map Prod.snd = lo :: rest) :
    ((ps.erase (die, lo)).filter fun p => p.1 = die).map Prod.snd = rest := by
  induction ps with
  | nil => cases h
  | cons p ps ih =>
    by_cases hd : p.1 = die
    · rw [List.filter_cons_of_pos (by simpa using hd), List.map_cons, List.cons.injEq] at h
      have hp : p = (die, lo) := Prod.ext hd h.1
      rw [hp, List.erase_cons_head]
      exact h.2
    · rw [List.filter_cons_of_neg (by simpa using hd)] at h
      have hp : ¬(p == (die, lo)) = true := fun e => hd (congrArg Prod.fst (eq_of_beq e))
      rw [List.erase_cons_tail hp, List.filter_cons_of_neg (by simpa using hd)]
      exact ih h

end

theorem packStarts : Claims.PackStarts := by
  intro s u l die cores w n set
  refine ⟨fun h => ?_, fun h => execPackStart_none (packed_none rfl h), fun ho h => ?_⟩
  · rcases h with h | h
    · exact congrArg Host.Outcome.next (if_pos h)
    · exact execPackStart_none h
  · obtain ⟨lo, rest, v, hp, hv, hu⟩ := packed_some h
    obtain ⟨hn, hstage, hstart⟩ := packAt_some hv
    have hg := (startTeams_placed hstart).1
    have hl : l < v.launches.length := by
      rw [hg.launches]
      refine Nat.lt_of_not_le fun hout => ?_
      rw [State.la, List.getD_eq_default _ _ hout] at hstage
      cases hstage
    have hla : u.la l = { s.la l with packs := (s.la l).packs.erase (die, lo) } := by
      rw [hu, State.la_modLa, if_pos ⟨rfl, hl⟩, hg.la]
    have hrun : exec (.packStart l die cores) s = .next u := by
      rw [execPackStart_eq, h, ho]
      rfl
    refine ⟨hrun, hn, lo, rest, hp, ?_, ?_, by rw [hla], fun t ht => ?_, ?_, ?_⟩
    · exact teamsStand_of_placed hstart (by rw [hu]; rfl) (by rw [hu]; rfl) (by rw [hu]; rfl) (by rw [hu]; rfl)
    · rw [packsOn, hla]
      exact erase_first_pack hp
    · rw [hu]
      exact hg.th ht
    · rw [hu]
      exact hg.dies
    · rw [hu]
      exact hg.ops

/-- Settles O46: starting a team adds to what there is, and what is added of a team is placed by the fold over its warps. -/
theorem teamsAndPacks : Obligations.TeamsAndPacks := ⟨teamClaims, packStarts, launchState, teamShares⟩

end Sys2Proof.Machine
end

section
/-! PROOF. Die resets (O53). The reset of a die applies the writes on their way of the contexts that it ends. An error that such a write
plants (R316, ERRINJ armed) and the count of bytes at its barrier object reads ends the context first, with the status of R174: this
refutes the statement on the grids that a reset completes. -/

namespace Sys2Proof.Machine

/-- The write of a copy on its way to die 1, whose barrier object is where it writes. -/
def armedRoute : Route :=
  ⟨0, .engine 0 2, .die 1, .write 1 [(0x1000, [0, 0, 0, 0])] (some 0x1000), 1, 0, 0, none, false, false, 0, 0, 0, 0, false⟩

/-- A context on two dies with a launch of the host and a started copy. ERRINJ is armed for an uncorrectable error at the first byte that
the copy writes. -/
def armedWrite : State := { Tests.one with
  dies := [{ Die.reset with mapped := true, inService := true, memBytes := 2 ^ 16 }, { Die.reset with mapped := true, inService := true, memBytes := 2 ^ 16 }]
  place := [0, 1]
  launches := [{ Launch.blank with ctx := 1, op := 0, stage := .queued }]
  ops := [{ Op.blank with engine := 5, ctx := 1, stage := .queued }, { Op.blank with engine := 2, ctx := 1, core := some 0, stage := .started }]
  routes := [armedRoute]
  errinj := 0xC0000001
  errinjlo := 0x1000 }

/-- The launch completes with the status of the uncorrectable error that the count of the copy's bytes reads. -/
theorem dieFatal_armedWrite : ∃ u, exec (.dieFatal 0 0) armedWrite = .next u ∧ (u.op 0).status = 4 ∧ (u.op 0).detail = 0x55450000 :=
  ⟨_, rfl, by decide, by decide⟩

/-- Refutes O53: with no error planted before, ERRINJ can plant one in a write that the reset applies, and the read of the write's barrier
object then ends the context with status 4 and DETAIL 0x55450000 before the reset ends it with status 1. -/
theorem not_resetsTamperAttestation : ¬ Obligations.ResetsTamperAttestation := by
  intro h
  obtain ⟨⟨resets, -⟩, -, -⟩ := h
  obtain ⟨u, hu, -, -, -, -, -, hplaced⟩ := resets armedWrite 0 0 (by decide) (by decide) (by decide) (by decide)
  obtain ⟨-, -, hgrids⟩ := hplaced (by decide)
  have hgrid := hgrids rfl 0 (by decide) ⟨_, List.mem_singleton.mpr rfl, rfl, rfl⟩ (by decide)
  obtain ⟨-, hop⟩ := hgrid
  obtain ⟨-, hend⟩ := hop (by decide) (by decide) (by decide) (fun c hc => nomatch hc)
  obtain ⟨v, hv, hstatus, hdetail⟩ := dieFatal_armedWrite
  obtain rfl : u = v := Host.Outcome.next.inj (hu.symm.trans hv)
  rcases hend with ⟨hs, -⟩ | ⟨-, -, hd⟩
  · exact absurd (hs.symm.trans hstatus) (by decide)
  · exact absurd (hd.symm.trans hdetail) (by decide)

end Sys2Proof.Machine
end

section
/-! PROOF. The management commands (R309, R317, R337, R338): a command of which no cause of refusal holds acts; otherwise its outcome is
the code of the first cause. What a die reset keeps of the dies (R312). -/

namespace Sys2Proof.Machine

/-! ### A command and its outcome -/

section
variable {s : State} {op code : Nat} {blk : List Word} {causes : List (Nat × Bool)} {act : State → State}

theorem cmdResult_outcome (s : State) (code : Nat) : Outcome (s.cmdResult code) code := rfl

theorem runCommand_causes (h : Commanded s op blk) : runCommand s op blk causes act =
    if firstCode causes = 0 then (act s).cmdResult 0 else s.cmdResult (firstCode causes) := by
  obtain ⟨hbusy, hres, hlen, hop, -⟩ := h
  unfold runCommand
  rw [if_neg (by simp [hbusy, hres]), if_neg (by simp [hlen]), if_neg (by simp [hop])]

theorem runCommand_acts (h : Commanded s op blk) (hc : firstCode causes = 0) :
    runCommand s op blk causes act = (act s).cmdResult 0 := by
  rw [runCommand_causes h, if_pos hc]

theorem runCommand_refuses (h : Commanded s op blk) (hc : firstCode causes = code) (h0 : code ≠ 0) :
    runCommand s op blk causes act = s.cmdResult code := by
  rw [runCommand_causes h, hc, if_neg h0]

/-- A cause that does not hold is passed over. -/
theorem firstCode_skip {n : Nat} (rest : List (Nat × Bool)) : firstCode ((n, false) :: rest) = firstCode rest := rfl

theorem firstCode_first {n : Nat} (rest : List (Nat × Bool)) : firstCode ((n, true) :: rest) = n := rfl

theorem firstCode_nil : firstCode [] = 0 := rfl

end

/-! ### Contexts (R260, R309) -/

section
variable {s : State} {blk rec pools : List Word}

theorem contextBad_fresh (h : contextBad s rec = false) : (s.ctx (lw rec 0)).live = false := by
  unfold contextBad at h
  simp only [Bool.or_eq_false_iff] at h
  simp [h]

/-- A live context that is added under a CTXID with none is the one found. -/
theorem ctx_added (s : State) {c : Ctx} {out : List Outbound} (hc : c.live = true) (h : (s.ctx c.id).live = false) :
    State.ctx { s with ctxs := s.ctxs ++ [c], out := out } c.id = c := by
  have hnone : (s.ctxs.find? fun k => k.id = c.id ∧ k.live) = none := by
    rw [List.find?_eq_none]
    intro k hk hid
    rw [decide_eq_true_eq] at hid
    unfold State.ctx at h
    cases hf : s.ctxs.find? fun k => k.id = c.id ∧ k.live with
    | none => exact List.find?_eq_none.mp hf k hk (by simpa using hid)
    | some x =>
      have hx := List.find?_some hf
      rw [decide_eq_true_eq] at hx
      rw [hf] at h
      exact absurd (h.symm.trans hx.2) nofun
  show ((s.ctxs ++ [c]).find? fun k => k.id = c.id ∧ k.live).getD Ctx.blank = c
  rw [List.find?_append, hnone]
  simp [hc]

/-- What CREATE_CONTEXT adds. -/
def createdCtx (s : State) (rec pools : List Word) : Ctx := { Ctx.blank with
  id := lw rec 0, words := rec, pools := poolWords pools
  image := ((imageOf s (fld (lw rec 1) 0 8)).map Image.version).getD 0, live := true }

theorem execCreateContext_eq (room : Bool) : exec (.createContext blk rec pools room) s = .next (runCommand s 1 blk
    [(2, rec.length ≠ 16 || pools.length ≠ 256), (3, !restZero blk 3), (5, !room), (9, contextBad s rec),
     (10, s.sec.fuse), (11, (imageOf s (fld (lw rec 1) 0 8)).isNone)]
    fun v => { v with
      ctxs := v.ctxs ++ [createdCtx s rec pools]
      out := v.out ++ [.write (Config.commandPort v.tick) (s.mgmt.addr + 4) (wBytes (lw rec 0))] }) := rfl

theorem createContext_causes (h : Commanded s 1 blk) (hrec : rec.length = 16) (hpools : pools.length = 256) (hrest : restZero blk 3 = true)
    (hbad : contextBad s rec = false) (himg : (imageOf s (fld (lw rec 1) 0 8)).isSome = true) (room : Bool) :
    firstCode [(2, rec.length ≠ 16 || pools.length ≠ 256), (3, !restZero blk 3), (5, !room), (9, contextBad s rec),
      (10, s.sec.fuse), (11, (imageOf s (fld (lw rec 1) 0 8)).isNone)] = if room then 0 else 5 := by
  obtain ⟨-, -, -, -, hfuse⟩ := h
  have hsome : (imageOf s (fld (lw rec 1) 0 8)).isNone = false := by simpa using himg
  simp only [hrec, hpools, hrest, hbad, hfuse, hsome]
  cases room <;> rfl

theorem execDestroyContext_eq : exec (.destroyContext blk) s = .next (runCommand s 2 blk
    [(3, !restZero blk 2), (6, !(s.ctx (lw blk 1)).live), (10, s.sec.fuse)] fun v => v.haltCtx (lw blk 1)) := rfl

theorem destroyContext_causes (h : Commanded s 2 blk) (hrest : restZero blk 2 = true) :
    firstCode [(3, !restZero blk 2), (6, !(s.ctx (lw blk 1)).live), (10, s.sec.fuse)] = if (s.ctx (lw blk 1)).live then 0 else 6 := by
  obtain ⟨-, -, -, -, hfuse⟩ := h
  simp only [hrest, hfuse]
  cases (s.ctx (lw blk 1)).live <;> rfl

end

/-! ### Images (R247, R317) -/

section
variable {s : State} {op : Nat} {blk : List Word} {before after : List (Nat × Bool)} {ok : Bool} {act : State → State}

/-- The verification of an image counts where the command reaches it. -/
theorem runImage_reached (h : Commanded s op blk) (hb : firstCode before = 0) :
    runImage s op blk before ok after act = (runCommand s op blk (before ++ [(4, !ok)] ++ after) act).verified ok := by
  obtain ⟨hbusy, hres, hlen, hop, -⟩ := h
  exact if_pos (by simp [hbusy, hres, hlen, hop, hb])

/-- Of an image whose block is good the verification is the first cause, before those that come after it. -/
theorem firstCode_image (ok : Bool) (after : List (Nat × Bool)) :
    firstCode ([(2, false), (3, false)] ++ [(4, !ok)] ++ after) = if ok then firstCode after else 4 := by
  cases ok <;> rfl

theorem verified_true (s : State) : s.verified true = { s with sec := { s.sec with fails := 0 } } := rfl

theorem verified_false (h : s.sec.fails < 7) : s.verified false = { s with sec := { s.sec with fails := s.sec.fails + 1 } } :=
  (if_neg nofun).trans (if_neg (by show ¬8 ≤ s.sec.fails + 1; omega))

/-- A command whose image does not verify. -/
theorem unverified_outcome (h : s.sec.fails < 7) : Outcome ((s.cmdResult 4).verified false) 4 ∧
    ((s.cmdResult 4).verified false).sec = { s.sec with fails := s.sec.fails + 1 } := by
  rw [verified_false (s := s.cmdResult 4) h]
  exact ⟨cmdResult_outcome s 4, rfl⟩

/-- A schedule image comes into force. -/
def imageInForce (s : State) (n : Nat) (img : List Byte) : State :=
  { s with sec := { s.sec with
    images := ⟨n, imageVersion img, imageDigest img⟩ :: s.sec.images.filter fun (i : Image) => i.number ≠ n
    inForce := imageDigest img } }

/-- A firmware image is in the slot that is not running. -/
def firmwareLoaded (s : State) (img : List Byte) : State :=
  { s with sec := { s.sec with
    fwVersion := s.sec.fwVersion.set (~~~s.sec.fwSlot).toNat (imageVersion img)
    fwDigest := s.sec.fwDigest.set (~~~s.sec.fwSlot).toNat (imageDigest img)
    fwNext := ~~~s.sec.fwSlot } }

theorem execLoadScheduleImage_eq (body sig : List Byte) (room : Bool) (h : Commanded s 3 blk)
    (hlen : (body ++ sig).length = (lw blk 3).toNat) (hrest : restZero blk 5 = true) (hf : fld (lw blk 4) 8 24 = 0) :
    exec (.loadScheduleImage blk body sig room) s = .next (State.verified
      (if imageOk (body ++ sig) 2 (lw blk 3) then
        if room then (imageInForce s (fld (lw blk 4) 0 8) (body ++ sig)).cmdResult 0 else s.cmdResult 5
        else s.cmdResult 4)
      (imageOk (body ++ sig) 2 (lw blk 3))) := by
  obtain ⟨e1, e2⟩ : decide ((body ++ sig).length ≠ (lw blk 3).toNat) = false ∧
      (!restZero blk 5 || decide (fld (lw blk 4) 8 24 ≠ 0)) = false := ⟨by simpa using hlen, by rw [hrest, hf]; rfl⟩
  refine congrArg Host.Outcome.next ((runImage_reached h (by rw [e1, e2]; rfl)).trans (congrArg (State.verified · _) ?_))
  rw [e1, e2, runCommand_causes h, h.2.2.2.2, firstCode_image]
  cases imageOk (body ++ sig) 2 (lw blk 3) <;> cases room <;> rfl

theorem execLoadFirmware_eq (body sig : List Byte) (h : Commanded s 4 blk) (hlen : (body ++ sig).length = (lw blk 3).toNat)
    (hrest : restZero blk 4 = true) :
    exec (.loadFirmware blk body sig) s = .next (State.verified
      (if imageOk (body ++ sig) 1 (lw blk 3) then (firmwareLoaded s (body ++ sig)).cmdResult 0 else s.cmdResult 4)
      (imageOk (body ++ sig) 1 (lw blk 3))) := by
  obtain ⟨e1, e2⟩ : decide ((body ++ sig).length ≠ (lw blk 3).toNat) = false ∧ (!restZero blk 4) = false :=
    ⟨by simpa using hlen, by rw [hrest]; rfl⟩
  refine congrArg Host.Outcome.next ((runImage_reached h (by rw [e1, e2]; rfl)).trans (congrArg (State.verified · _) ?_))
  rw [e1, e2, runCommand_causes h, h.2.2.2.2, firstCode_image]
  cases imageOk (body ++ sig) 1 (lw blk 3) <;> rfl

theorem getD_set_lt {α : Type} {xs : List α} {n : Nat} (h : n < xs.length) (x d : α) : (xs.set n x).getD n d = x := by
  simp [List.getD_eq_getElem?_getD, h]

theorem imageOf_inForce (s : State) (n : Nat) (img : List Byte) :
    imageOf (imageInForce s n img) n = some ⟨n, imageVersion img, imageDigest img⟩ :=
  List.find?_cons_of_pos (by simp)

end

theorem contextCommands : Claims.ContextCommands := by
  intro s blk rec pools body sig img
  refine ⟨fun h hrec hpools hrest hbad himg => ⟨?_, ?_⟩, fun h hrest => ⟨fun hlive => ?_, fun hdead => ?_⟩, ?_, ?_, fun hbusy hres => ?_, fun h => ?_⟩
  · have hc := createContext_causes h hrec hpools hrest hbad himg true
    rw [execCreateContext_eq, runCommand_acts h hc]
    have hctx := ctx_added s (c := createdCtx s rec pools) (out := s.out ++ [.write (Config.commandPort s.tick) (s.mgmt.addr + 4) (wBytes (lw rec 0))])
      rfl (contextBad_fresh hbad)
    exact ⟨_, rfl, cmdResult_outcome _ 0, congrArg Ctx.live hctx, congrArg Ctx.words hctx, ⟨_, rfl⟩, rfl, fun _ _ => rfl, fun _ _ _ => rfl⟩
  · have hc := createContext_causes h hrec hpools hrest hbad himg false
    rw [execCreateContext_eq, runCommand_refuses h hc (by decide)]
    exact ⟨_, rfl, cmdResult_outcome _ 5, rfl⟩
  · have hc := (destroyContext_causes h hrest).trans (if_pos hlive)
    rw [execDestroyContext_eq, runCommand_acts h hc]
    refine ⟨_, rfl, cmdResult_outcome _ 0, ?_⟩
    show ((s.haltCtx (lw blk 1)).ctx (lw blk 1)).live = false
    rw [State.haltCtx, if_pos hlive]
    exact State.ctx_not_live (State.endCtx_ctxs s _ _ _)
  · have hc := (destroyContext_causes h hrest).trans (if_neg (Bool.eq_false_iff.mp hdead))
    rw [execDestroyContext_eq, runCommand_refuses h hc (by decide)]
    exact ⟨_, rfl, cmdResult_outcome _ 6, rfl⟩
  · intro h hlen hrest hf hfails n room
    refine ⟨_, execLoadScheduleImage_eq body sig room h hlen hrest hf, ?_⟩
    cases hok : imageOk (body ++ sig) 2 (lw blk 3) with
    | false =>
      obtain ⟨hout, hsec⟩ := unverified_outcome hfails
      simp only [img, Bool.false_eq_true, if_false]
      exact ⟨hout, by rw [hsec], by rw [hsec]⟩
    | true =>
      simp only [img, if_true]
      cases room with
      | false => exact ⟨cmdResult_outcome s 5, rfl⟩
      | true => exact ⟨cmdResult_outcome _ 0, imageOf_inForce s n img, rfl, rfl⟩
  · intro h hlen hrest hfails hver hdig slot
    refine ⟨_, execLoadFirmware_eq body sig h hlen hrest, ?_⟩
    have hslot : (~~~s.sec.fwSlot).toNat < 2 := (~~~s.sec.fwSlot).isLt
    cases hok : imageOk (body ++ sig) 1 (lw blk 3) with
    | false =>
      obtain ⟨hout, hsec⟩ := unverified_outcome hfails
      simp only [img, Bool.false_eq_true, if_false]
      exact ⟨by rw [hsec], hout, by rw [hsec], by rw [hsec], by rw [hsec]⟩
    | true =>
      simp only [img, if_true]
      refine ⟨rfl, cmdResult_outcome _ 0, rfl, ?_, ?_, rfl⟩
      · exact getD_set_lt (hver ▸ hslot) _ _
      · exact getD_set_lt (hdig ▸ hslot) _ _
  · exact ⟨_, congrArg Host.Outcome.next (if_pos ⟨hbusy, hres⟩), rfl, rfl, rfl⟩
  · refine congrArg Host.Outcome.next (if_neg ?_)
    rintro ⟨hbusy, hres⟩
    rcases h with h | h
    · exact absurd (h.symm.trans hbusy) nofun
    · exact hres h

/-! ### What a reset keeps of the dies (R312) -/

/-- There are as many dies, and each has the vintage it had. -/
structure VintageKept (s u : State) : Prop where
  length : u.dies.length = s.dies.length
  vintage : ∀ d, (u.die d).vintage = (s.die d).vintage

namespace VintageKept

variable {s u v : State}

theorem refl (s : State) : VintageKept s s := ⟨rfl, fun _ => rfl⟩

theorem trans (h : VintageKept s u) (k : VintageKept u v) : VintageKept s v :=
  ⟨k.length.trans h.length, fun d => (k.vintage d).trans (h.vintage d)⟩

theorem of_dies (h : u.dies = s.dies) : VintageKept s u := ⟨by rw [h], fun d => by rw [State.die, h]; rfl⟩

theorem of_modDie {f : Die → Die} (h : ∀ x, (f x).vintage = x.vintage) (s : State) (d : Nat) : VintageKept s (s.modDie d f) :=
  ⟨by simp [State.modDie], fun n => getD_modify_proj Die.vintage h s.dies d n _⟩

theorem foldl {α : Type} {f : State → α → State} (l : List α) (h : ∀ s, ∀ x ∈ l, VintageKept s (f s x)) (s : State) :
    VintageKept s (l.foldl f s) :=
  List.foldlRecOn (motive := VintageKept s) l f (.refl s) fun _ hu x hx => hu.trans (h _ x hx)

/-- A fold whose steps carry a flag along. -/
theorem foldl_fst {α : Type} {f : State × Bool → α → State × Bool} (h : ∀ r x, VintageKept r.1 (f r x).1) (l : List α)
    (r : State × Bool) : VintageKept r.1 (l.foldl f r).1 :=
  List.foldlRecOn (motive := fun q => VintageKept r.1 q.1) l f (.refl r.1) fun q hq x _ => hq.trans (h q x)

end VintageKept

theorem State.dieEvent_vintages (s : State) (d : Nat) (k : BitVec 8) (de : BitVec 16) (i j : Word) : VintageKept s (s.dieEvent d k de i j) := by
  unfold State.dieEvent
  split
  · rw [State.pushEvent_only]
    exact .of_dies rfl
  · split
    · exact .of_modDie (by exact fun _ => rfl) s d
    · exact .of_modDie (by exact fun _ => rfl) s d

theorem State.eccRead_vintages (s : State) (arr : BitVec 16) (a n : Nat) (c : Word) (d : Nat) : VintageKept s (s.eccRead arr a n c d).1 := by
  unfold State.eccRead
  dsimp only
  refine .trans (u := { s with planted := s.planted.filter fun p => !p.hits arr a n }) (.of_dies rfl) (VintageKept.foldl _ (fun u p _ => ?_) _)
  unfold State.logError
  dsimp only
  split
  · refine VintageKept.trans ?_ (State.dieEvent_vintages _ _ _ _ _ _)
    exact .of_dies rfl
  · exact .of_dies rfl

theorem State.setNear_vintages (s : State) (d a : Nat) (bs : List Byte) : VintageKept s (s.setNear d a bs) := by
  refine .trans (VintageKept.of_modDie (f := fun x => { x with mem := Memory.write x.mem a bs }) (fun _ => rfl) s d) ?_
  rw [State.setNear, State.eccWrite_only]
  exact .of_dies rfl

theorem State.placeWrite_vintages (s : State) (p : Place) (a : Nat) (bs : List Byte) : VintageKept s (s.placeWrite p a bs) := by
  cases p with
  | near d => exact s.setNear_vintages d a bs
  | buf c sp =>
    refine .of_dies ?_
    rw [State.placeWrite, State.bufWrite_only]

theorem State.completeOp_vintages (s : State) (i : Nat) (st : BitVec 16) (de : Word) (vs : List Word) :
    VintageKept s (s.completeOp i st de vs) := .of_dies (by rw [State.completeOp_only])

theorem State.putArrive_vintages (s : State) (d a : Nat) : VintageKept s (s.putArrive d a) := by
  unfold State.putArrive
  dsimp only
  split
  · exact s.setNear_vintages _ _ _
  · exact .refl s

theorem State.lastArrival_vintages (s : State) (l : Nat) : VintageKept s (s.lastArrival l).1 := by
  have reads (arr : BitVec 16) (c : Word) (d : Nat) (l : List (Nat × Nat)) : VintageKept s (l.foldl (fun (r : State × Bool) (a : Nat × Nat) =>
      ((r.1.eccRead arr a.1 a.2 c d).1, r.2 || (r.1.eccRead arr a.1 a.2 c d).2)) (s, false)).1 := by
    refine VintageKept.foldl_fst (fun q a => ?_) l (s, false)
    exact q.1.eccRead_vintages arr a.1 a.2 c d
  unfold State.lastArrival
  dsimp only
  split
  · exact .refl s
  · split
    · dsimp only
      split
      · exact reads _ _ _ _
      · exact (reads _ _ _ _).trans (State.putArrive_vintages _ _ _)
    · exact .refl s

theorem State.endLaunches_vintages (s : State) (c : Word) (st : BitVec 16) (de : Word) : VintageKept s (s.endLaunches c st de) := by
  refine VintageKept.foldl _ (fun u l _ => ?_) s
  have complete (v : State) (i : Nat) (st : BitVec 16) (de : Word) :
      VintageKept v ((v.modLa l fun y => { y with stage := .complete }).completeOp i st de) :=
    .trans (u := v.modLa l _) (.of_dies rfl) (State.completeOp_vintages _ _ _ _ _)
  dsimp only
  split
  · exact complete _ _ _ _
  · split
    · exact (u.lastArrival_vintages l).trans (complete _ _ _ _)
    · exact (u.lastArrival_vintages l).trans (complete _ _ _ _)
  · exact .refl u

theorem State.endCtx_vintages (s : State) (c : Word) (st : BitVec 16) (de : Word) : VintageKept s (s.endCtx c st de) := by
  refine (s.endLaunches_vintages c st de).trans ?_
  unfold State.endCtx
  extract_lets v mine endTh endWp endCl endCo endRec endItem endDie w
  have hdies : v.dies = (s.endLaunches c st de).dies := by rw [show v = _ from State.endOps_only _ c]
  refine ⟨?_, fun d => ?_⟩
  · show (v.dies.map endDie).length = _
    rw [List.length_map, hdies]
  · refine (getD_map_proj (g := Die.vintage) (f := endDie) (fun _ => rfl) v.dies d Die.blank).trans ?_
    rw [hdies]
    rfl

theorem State.eccGuard_vintages (s : State) (arr : BitVec 16) (a n : Nat) (c : Word) (d : Nat) :
    VintageKept s (s.eccGuard arr a n c d).1 := by
  unfold State.eccGuard
  dsimp only
  split
  · exact (s.eccRead_vintages arr a n c d).trans (State.endCtx_vintages _ _ _ _)
  · exact s.eccRead_vintages arr a n c d

theorem State.placeEcc_vintages (s : State) (p : Place) (a n : Nat) (c : Word) : VintageKept s (s.placeEcc p a n c).1 := by
  cases p with
  | near d => exact State.eccGuard_vintages _ _ _ _ _ _
  | buf k sp => exact State.eccGuard_vintages _ _ _ _ _ _

theorem State.partEcc_vintages (s : State) (p : Place) (a n : Nat) (c : Word) : VintageKept s (s.partEcc p a n c).1 := by
  unfold State.partEcc
  extract_lets x
  have hx : VintageKept s x.1 := by
    unfold x
    split
    · exact s.placeEcc_vintages _ _ _ _
    · exact .refl s
  split
  · exact hx
  · exact hx.trans (State.placeEcc_vintages _ _ _ _ _)

theorem State.countBar_vintages (s : State) (p : Place) (a n : Nat) (c : Word) : VintageKept s (s.countBar p a n c).1 := by
  unfold State.countBar
  dsimp only
  split
  · exact s.placeEcc_vintages _ _ _ _
  · exact (s.placeEcc_vintages _ _ _ _).trans (State.placeWrite_vintages _ _ _ _)

theorem State.deliverEffect_write_vintages (s : State) (r : Route) (m : PeerMsg) {i : Nat} {parts : List (Nat × List Byte)}
    {obj : Option Nat} (h : r.body = .write i parts obj) : VintageKept s (s.deliverEffect r m) := by
  unfold State.deliverEffect
  rw [h]
  dsimp -zeta only
  extract_lets d e s1
  have he : VintageKept s e.1 := by
    refine VintageKept.foldl_fst (fun q p => ?_) parts (s, false)
    split
    · exact .refl _
    · exact State.partEcc_vintages _ _ _ _ _
  have h1 : VintageKept s s1 := he.trans (VintageKept.foldl parts (fun u p _ => u.setNear_vintages d p.1 p.2) e.1)
  split
  · exact he
  · split
    · exact h1
    · extract_lets c
      have hc : VintageKept s c.1 := h1.trans (State.countBar_vintages _ _ _ _ _)
      split
      · exact hc.trans (.of_dies rfl)
      · exact hc

theorem State.flushRoutes_vintages (s : State) (i : Nat) : VintageKept s (s.flushRoutes i) := by
  unfold State.flushRoutes
  extract_lets o mine
  refine .trans (u := { s with routes := s.routes.filter fun r => !mine r }) (.of_dies rfl) (VintageKept.foldl _ (fun u r hr => ?_) _)
  have hr : mine r = true := (List.mem_filter.1 hr).2
  cases hb : r.body with
  | write j ps obj => exact u.deliverEffect_write_vintages r _ hb
  | _ => simp [mine, hb] at hr

theorem State.stopOp_vintages (s : State) (i : Nat) (st : BitVec 16) (de : Word) : VintageKept s (s.stopOp i st de) := .of_dies rfl

theorem State.countDown_vintages (s : State) (xs : List (Place × Nat × Nat)) (c : Word) : VintageKept s (s.countDown xs c) :=
  VintageKept.foldl xs (fun u x _ => u.countBar_vintages x.1 x.2.1 x.2.2 c) s

theorem State.failOps_vintages (s : State) (c : Word) (st : BitVec 16) : VintageKept s (s.failOps c st) := by
  refine VintageKept.foldl _ (fun u i _ => ?_) s
  dsimp only
  split
  · split
    · exact (((u.flushRoutes_vintages i).trans (State.stopOp_vintages _ _ _ _)).trans (State.countDown_vintages _ _ _)).trans
        (State.completeOp_vintages _ _ _ _ _)
    · exact State.completeOp_vintages _ _ _ _ _
  · exact .refl u

/-- What a reset leaves of its die. -/
theorem resetDie_die {s : State} {d : Nat} (h : d < s.dies.length) (b : Bool) : ((s.resetDie d b).die d).mem = [] ∧
    ((s.resetDie d b).die d).vintage = (s.die d).vintage + 1 ∧ ((s.resetDie d b).die d).inService = false := by
  unfold State.resetDie
  extract_lets s1 users s2
  have hs2 : VintageKept s1 s2 := VintageKept.foldl users (fun v id _ => (v.failOps_vintages id 1).trans (State.endCtx_vintages _ _ _ _)) s1
  have hs1 : s1.die d = { s.die d with vintage := (s.die d).vintage + 1 } := by simp [s1, State.die, State.modDie, h]
  have hlen : d < s2.dies.length := by
    rw [hs2.length]
    simpa [s1, State.modDie] using h
  have hdie (f : Die → Die) : (s2.modDie d f).die d = f (s2.die d) := by simp [State.die, State.modDie, hlen]
  rw [hdie]
  exact ⟨rfl, (hs2.vintage d).trans (by rw [hs1]), rfl⟩

/-! ### The device (R309, R336) -/

section
variable {s : State} {blk : List Word}

theorem execSetDomainRank_eq : exec (.setDomainRank blk) s = .next (runCommand s 5 blk
    [(3, !restZero blk 2 || fld (lw blk 1) 8 24 ≠ 0), (7, s.ctxs.any fun c => c.live), (10, s.sec.fuse)]
    fun v => { v with
      rank := (lw blk 1).setWidth 8
      domain := ((lw blk 1).setWidth 8, v.ndie) ::
        v.domain.filter fun (e : BitVec 8 × Nat) => e.1 ≠ v.rank && e.1 ≠ (lw blk 1).setWidth 8 }) := rfl

theorem execResetDie_eq : exec (.resetDie blk) s = .next (runCommand s 6 blk
    [(3, !restZero blk 2), (8, 7 < (lw blk 1).toNat || !(s.die (lw blk 1).toNat).mapped), (10, s.sec.fuse)]
    fun v => v.resetDie (lw blk 1).toNat true) := rfl

theorem execClearBootHistory_eq : exec (.clearBootHistory blk) s = .next (runCommand s 7 blk
    [(3, !restZero blk 1), (10, s.sec.fuse)] fun v => { v with sec := { v.sec with clearBoot := true } }) := rfl

theorem execAnswerFault_eq {op : Nat} (h : fld (lw blk 0) 0 8 = op) (hop : op = 0 ∨ 8 ≤ op) :
    exec (.answerFault blk) s = .next (runCommand s op blk [(1, true)] id) := by
  subst h
  exact congrArg Host.Outcome.next (if_pos hop)

/-- The causes of SET_DOMAIN_RANK on a good block. -/
theorem setDomainRank_causes (h : Commanded s 5 blk) (hrest : restZero blk 2 = true) (hf : fld (lw blk 1) 8 24 = 0) :
    firstCode [(3, !restZero blk 2 || fld (lw blk 1) 8 24 ≠ 0), (7, s.ctxs.any fun c => c.live), (10, s.sec.fuse)] =
      if s.ctxs.any fun c => c.live then 7 else 0 := by
  have e : (!restZero blk 2 || decide (fld (lw blk 1) 8 24 ≠ 0)) = false := by rw [hrest, hf]; rfl
  rw [e, h.2.2.2.2]
  cases s.ctxs.any fun c => c.live <;> rfl

/-- The causes of RESET_DIE on a good block. -/
theorem resetDie_causes (h : Commanded s 6 blk) (hrest : restZero blk 2 = true) :
    firstCode [(3, !restZero blk 2), (8, 7 < (lw blk 1).toNat || !(s.die (lw blk 1).toNat).mapped), (10, s.sec.fuse)] =
      if 7 < (lw blk 1).toNat || !(s.die (lw blk 1).toNat).mapped then 8 else 0 := by
  rw [hrest, h.2.2.2.2]
  cases decide (7 < (lw blk 1).toNat) || !(s.die (lw blk 1).toNat).mapped <;> rfl

end

theorem deviceCommands : Claims.DeviceCommands := by
  intro s blk
  refine ⟨fun h hrest hf => ⟨fun hnone => ?_, fun ⟨c, hmem, hlive⟩ => ?_⟩, fun h hrest => ⟨fun hd h7 hmap => ?_, fun h7 => ?_⟩,
    fun h hrest => ?_, fun op h hop => ?_⟩
  · have hany : ¬(s.ctxs.any fun c => c.live) = true := by
      rw [List.any_eq_true]
      rintro ⟨c, hmem, hlive⟩
      exact absurd ((hnone c hmem).symm.trans hlive) nofun
    rw [execSetDomainRank_eq, runCommand_acts h ((setDomainRank_causes h hrest hf).trans (if_neg hany))]
    exact ⟨_, rfl, cmdResult_outcome _ 0, rfl, by simp [domNdie, State.cmdResult]⟩
  · have hany : (s.ctxs.any fun c => c.live) = true := List.any_eq_true.mpr ⟨c, hmem, hlive⟩
    rw [execSetDomainRank_eq, runCommand_refuses h ((setDomainRank_causes h hrest hf).trans (if_pos hany)) (by decide)]
    exact ⟨_, rfl, cmdResult_outcome _ 7, rfl⟩
  · have hgood : ¬(decide (7 < (lw blk 1).toNat) || !(s.die (lw blk 1).toNat).mapped) = true := by
      rw [hmap, decide_eq_false (Nat.not_lt.mpr h7)]
      nofun
    rw [execResetDie_eq, runCommand_acts h ((resetDie_causes h hrest).trans (if_neg hgood))]
    exact ⟨_, rfl, cmdResult_outcome _ 0, resetDie_die hd true⟩
  · have hbad : (decide (7 < (lw blk 1).toNat) || !(s.die (lw blk 1).toNat).mapped) = true := by
      rw [decide_eq_true h7]
      rfl
    rw [execResetDie_eq, runCommand_refuses h ((resetDie_causes h hrest).trans (if_pos hbad)) (by decide)]
    exact ⟨_, rfl, cmdResult_outcome _ 8, rfl⟩
  · have hc : firstCode [(3, !restZero blk 1), (10, s.sec.fuse)] = 0 := by
      rw [hrest, h.2.2.2.2]
      rfl
    rw [execClearBootHistory_eq, runCommand_acts h hc]
    exact ⟨_, rfl, cmdResult_outcome _ 0, rfl⟩
  · rw [execAnswerFault_eq h.2.2.2.1 hop, runCommand_refuses h (firstCode_first []) (by decide)]
    exact ⟨_, rfl, cmdResult_outcome _ 1⟩

/-- Settles O52: each command by its causes; a die reset keeps the vintages of the dies but the one that it raises. -/
theorem managementCommands : Obligations.ManagementCommands := ⟨contextCommands, deviceCommands⟩

end Sys2Proof.Machine
end

section
/-! PROOF. Starts of the device (R312, R317 to R320): how the steps of a start come out, by the recursion that runs them; what the count of
the verifications changes of the state that a start leaves; what a start leaves out. -/

namespace Sys2Proof.Machine

/-! ### The steps of a start (R320) -/

/-- An outcome that says that the step passed. -/
def Passes (o : BitVec 4) : Prop := o = 1 ∨ o = 2

/-- The entries of a start. -/
abbrev StepEntries := List (BitVec 4 × BitVec 8 × Word)

/-- Of the entries from step i on, the k-th is reached: those before it passed, and the fuse does not stop the start before it. -/
def Reached (s : State) (es : StepEntries) (i k : Nat) : Prop :=
  (∀ j, j < k → Passes (es.getD j (0, 0, 0)).1) ∧ (i ≤ 5 → 5 < i + k → s.sec.fuse = false)

/-- How step i comes out. -/
def StepIs (s : State) (f : StartFacts) (i : Nat) (reached : Prop) (out : BitVec 4 × BitVec 8) : Prop :=
  let a := altOf s i
  let last := altCount.getD i 0
  (reached →
    (last < a → out = (3, BitVec.ofNat 8 last)) ∧
    (a ≤ last → f.cut = some i → out = (5, BitVec.ofNat 8 a)) ∧
    (a ≤ last → f.cut ≠ some i → out = (if stepOk s f i a then if a = 0 then 1 else 2 else 3, BitVec.ofNat 8 a))) ∧
  (¬reached → out = (0, BitVec.ofNat 8 a))

/-- Outcome and alternative of an entry. -/
def entryOut (es : StepEntries) (k : Nat) : BitVec 4 × BitVec 8 := ((es.getD k (0, 0, 0)).1, (es.getD k (0, 0, 0)).2.1)

/-- The entries of n steps from step i on, and whether the device halts at one of them. -/
structure StepsFrom (s : State) (f : StartFacts) (n i : Nat) (r : StepEntries × Bool) : Prop where
  length : r.1.length = n
  steps : ∀ k, k < n → StepIs s f (i + k) (Reached s r.1 i k) (entryOut r.1 k)
  halts : r.2 = true ↔ ∃ k, k < n ∧ altCount.getD (i + k) 0 < altOf s (i + k) ∧ Reached s r.1 i k

section
variable {s : State} {f : StartFacts} {n i k : Nat} {e : BitVec 4 × BitVec 8 × Word} {es : StepEntries}

theorem reached_zero (s : State) (es : StepEntries) (i : Nat) : Reached s es i 0 := ⟨nofun, fun h h' => by omega⟩

/-- A step is reached when the first has passed, the fuse does not stop the start after it, and the rest reaches it. -/
theorem reached_succ : Reached s (e :: es) i (k + 1) ↔ Passes e.1 ∧ (i = 5 → s.sec.fuse = false) ∧ Reached s es (i + 1) k := by
  constructor
  · rintro ⟨hpass, hfuse⟩
    refine ⟨hpass 0 (Nat.succ_pos k), fun h => hfuse h.le (by omega), fun j hj => hpass (j + 1) (Nat.succ_lt_succ hj), fun h h' => hfuse (by omega) (by omega)⟩
  · rintro ⟨he, hfive, hpass, hfuse⟩
    refine ⟨fun j hj => ?_, fun h h' => ?_⟩
    · cases j with
      | zero => exact he
      | succ j => exact hpass j (Nat.lt_of_succ_lt_succ hj)
    · rcases Nat.lt_or_eq_of_le h with h | h
      · exact hfuse (by omega) (by omega)
      · exact hfive h

/-- The entries of steps that are not reached. -/
def unreached (s : State) (n i : Nat) : StepEntries := (List.range n).map fun k => (0, BitVec.ofNat 8 (altOf s (i + 1 + k)), 0)

/-- A start that ends with step i. -/
theorem stepsFrom_end (hs : StepIs s f i True (e.1, e.2.1)) (he : ¬Passes e.1 ∨ i = 5 ∧ s.sec.fuse = true) :
    StepsFrom s f (n + 1) i (e :: unreached s n i, decide (altCount.getD i 0 < altOf s i)) := by
  have hnot (k : Nat) : ¬Reached s (e :: unreached s n i) i (k + 1) := by
    rw [reached_succ]
    rintro ⟨hp, hf, -⟩
    rcases he with he | ⟨h5, hfuse⟩
    · exact he hp
    · exact absurd ((hf h5).symm.trans hfuse) nofun
  refine ⟨by simp [unreached], fun k hk => ?_, ?_⟩
  · cases k with
    | zero => exact ⟨fun _ => hs.1 trivial, fun h => absurd (reached_zero _ _ _) h⟩
    | succ k =>
      refine ⟨fun h => absurd h (hnot k), fun _ => ?_⟩
      have hk' : k < n := Nat.lt_of_succ_lt_succ hk
      have hget : (unreached s n i).getD k (0, 0, 0) = (0, BitVec.ofNat 8 (altOf s (i + 1 + k)), 0) := by
        simp [unreached, hk']
      show (((unreached s n i).getD k (0, 0, 0)).1, ((unreached s n i).getD k (0, 0, 0)).2.1) = _
      rw [hget, Nat.add_right_comm, Nat.add_assoc]
  · rw [decide_eq_true_eq]
    constructor
    · exact fun h => ⟨0, Nat.succ_pos n, h, reached_zero _ _ _⟩
    · rintro ⟨k, -, hlt, hr⟩
      cases k with
      | zero => exact hlt
      | succ k => exact absurd hr (hnot k)

/-- A start that goes on after step i. -/
theorem stepsFrom_on {r : StepEntries × Bool} (hs : StepIs s f i True (e.1, e.2.1)) (he : Passes e.1) (hf : i = 5 → s.sec.fuse = false)
    (ha : altOf s i ≤ altCount.getD i 0) (hr : StepsFrom s f n (i + 1) r) : StepsFrom s f (n + 1) i (e :: r.1, r.2) := by
  have hiff (k : Nat) : Reached s (e :: r.1) i (k + 1) ↔ Reached s r.1 (i + 1) k := by
    rw [reached_succ]
    exact ⟨fun h => h.2.2, fun h => ⟨he, hf, h⟩⟩
  refine ⟨by simp [hr.length], fun k hk => ?_, hr.halts.trans ?_⟩
  · cases k with
    | zero => exact ⟨fun _ => hs.1 trivial, fun h => absurd (reached_zero _ _ _) h⟩
    | succ k =>
      have hk' := hr.steps k (Nat.lt_of_succ_lt_succ hk)
      rw [Nat.add_right_comm, Nat.add_assoc] at hk'
      show StepIs s f (i + (k + 1)) (Reached s (e :: r.1) i (k + 1)) (entryOut r.1 k)
      rwa [hiff]
  · constructor
    · rintro ⟨k, hk, hlt, h⟩
      exact ⟨k + 1, Nat.succ_lt_succ hk, by rwa [← Nat.add_assoc, Nat.add_right_comm], (hiff k).mpr h⟩
    · rintro ⟨k, hk, hlt, h⟩
      cases k with
      | zero => exact absurd hlt (Nat.not_lt.mpr ha)
      | succ k => exact ⟨k, Nat.lt_of_succ_lt_succ hk, by rwa [← Nat.add_assoc, Nat.add_right_comm] at hlt, (hiff k).mp h⟩

end

theorem runSteps_from (s : State) (f : StartFacts) : ∀ n i, StepsFrom s f n i (runSteps s f n i)
  | 0, i => ⟨rfl, fun k hk => absurd hk (Nat.not_lt_zero k), ⟨nofun, fun ⟨k, hk, _⟩ => absurd hk (Nat.not_lt_zero k)⟩⟩
  | n + 1, i => by
    rw [runSteps]
    extract_lets e r
    split
    · next hlast =>
      have h := stepsFrom_end (s := s) (f := f) (n := n) (i := i) (e := (3, BitVec.ofNat 8 (altCount.getD i 0), f.detail.getD i 0))
        ⟨fun _ => ⟨fun _ => rfl, fun h => absurd hlast (Nat.not_lt.mpr h), fun h => absurd hlast (Nat.not_lt.mpr h)⟩, fun h => absurd trivial h⟩ (.inl (by simp [Passes]))
      rwa [decide_eq_true hlast] at h
    · next hlast =>
      have hle : altOf s i ≤ altCount.getD i 0 := Nat.le_of_not_lt hlast
      split
      · next hcut =>
        have h := stepsFrom_end (s := s) (f := f) (n := n) (i := i) (e := (5, BitVec.ofNat 8 (altOf s i), f.detail.getD i 0))
          ⟨fun _ => ⟨fun h => absurd h hlast, fun _ _ => rfl, fun _ h => absurd hcut h⟩, fun h => absurd trivial h⟩ (.inl (by simp [Passes]))
        rwa [decide_eq_false hlast] at h
      · next hcut =>
        split
        · next hok =>
          have hok' : stepOk s f i (altOf s i) = false := by simpa using hok
          have h := stepsFrom_end (s := s) (f := f) (n := n) (i := i) (e := (3, BitVec.ofNat 8 (altOf s i), f.detail.getD i 0))
            ⟨fun _ => ⟨fun h => absurd h hlast, fun _ h => absurd h hcut, fun _ _ => by rw [hok']; rfl⟩, fun h => absurd trivial h⟩ (.inl (by simp [Passes]))
          rwa [decide_eq_false hlast] at h
        · next hok =>
          have hok' : stepOk s f i (altOf s i) = true := by simpa using hok
          have hstep : StepIs s f i True (e.1, e.2.1) :=
            ⟨fun _ => ⟨fun h => absurd h hlast, fun _ h => absurd h hcut, fun _ _ => by rw [hok']; rfl⟩, fun h => absurd trivial h⟩
          have hpass : Passes e.1 := by
            show Passes (if altOf s i = 0 then 1 else 2)
            split
            · exact .inl rfl
            · exact .inr rfl
          split
          · next h5 =>
            have h := stepsFrom_end (n := n) hstep (.inr h5)
            rwa [decide_eq_false hlast] at h
          · next h5 =>
            exact stepsFrom_on hstep hpass (fun h => by simpa [h] using h5) hle (runSteps_from s f n (i + 1))

/-- The record that a start makes. -/
def startRec (s : State) (f : StartFacts) : StartRec := ⟨s.sec.startNumber + 1, (runSteps s f 10 0).1⟩

theorem reached_from_first {s : State} {es : StepEntries} {k : Nat} : Reached s es 0 k ↔
    (∀ j, j < k → (es.getD j (0, 0, 0)).1 = 1 ∨ (es.getD j (0, 0, 0)).1 = 2) ∧ (5 < k → s.sec.fuse = false) := by
  rw [Reached, Nat.zero_add]
  exact and_congr_right fun _ => ⟨fun h => h (Nat.zero_le 5), fun h _ => h⟩

theorem stepsAre_startRec (s : State) (f : StartFacts) : StepsAre s f (startRec s f).steps := by
  intro i hi
  have h := (runSteps_from s f 10 0).steps i hi
  rw [Nat.zero_add, reached_from_first] at h
  exact h

theorem startRec_halts (s : State) (f : StartFacts) : (runSteps s f 10 0).2 = true ↔ ∃ i, i < 10 ∧ altCount.getD i 0 < altOf s i ∧
    (∀ j, j < i → (startRec s f).outcome j = 1 ∨ (startRec s f).outcome j = 2) ∧ (5 < i → s.sec.fuse = false) := by
  refine (runSteps_from s f 10 0).halts.trans (exists_congr fun i => ?_)
  rw [Nat.zero_add, reached_from_first]
  exact Iff.rfl

/-- Step 7 is not reached where step 6 has not passed. -/
theorem startRec_six {s : State} {f : StartFacts} (h : ¬Passes ((startRec s f).outcome 5)) : (startRec s f).outcome 6 = 0 := by
  obtain ⟨-, hout⟩ := stepsAre_startRec s f 6 (by decide)
  exact congrArg Prod.fst (hout fun hr => h (hr.1 5 (by decide)))

/-! ### The count of verifications (R317, R318) -/

/-- The count of verifications changes keys, fuse, TAMPERSTAT, the count and what was re-provisioned, and nothing else. -/
def Counted (s u : State) : Prop :=
  u = { s with sec := { s.sec with
    keys := u.sec.keys, fuse := u.sec.fuse, tamperstat := u.sec.tamperstat, fails := u.sec.fails, reprovisioned := u.sec.reprovisioned } }

theorem Counted.refl (s : State) : Counted s s := rfl

theorem Counted.trans {s u v : State} (h : Counted s u) (k : Counted u v) : Counted s v := by
  unfold Counted at *
  rw [k, h]

theorem verified_counted {s : State} (h : s.ctxs = []) (ok : Bool) : Counted s (s.verified ok) := by
  cases ok with
  | true => rfl
  | false =>
    have htamper (v : State) (hv : v.ctxs = []) : Counted v (v.tamper 5) := by
      unfold State.tamper
      rw [if_neg (by decide), hv]
      rfl
    unfold State.verified
    dsimp only
    split
    · rfl
    · split
      · exact Counted.trans (u := { s with sec := { s.sec with fails := s.sec.fails + 1 } }) rfl (htamper _ h)
      · rfl

theorem Counted.ctxs {s u : State} (h : Counted s u) : u.ctxs = s.ctxs := by
  unfold Counted at h
  rw [h]

theorem countStep_counted {s : State} (h : s.ctxs = []) (r : StartRec) (b : Bool) (i : Nat) : Counted s (s.countStep r b i) := by
  unfold State.countStep
  split
  · exact verified_counted h true
  · split
    · exact verified_counted h false
    · exact .refl s

/-- Keys and fuse stand, and at most one failed verification more is counted. -/
structure KeysKept (s u : State) : Prop where
  keys : u.sec.keys = s.sec.keys
  fuse : u.sec.fuse = s.sec.fuse
  fails : u.sec.fails ≤ s.sec.fails + 1

theorem KeysKept.refl (s : State) : KeysKept s s := ⟨rfl, rfl, Nat.le_succ _⟩

theorem verified_keys {s : State} (h : s.sec.fails < 7) (ok : Bool) : KeysKept s (s.verified ok) := by
  cases ok with
  | true => exact ⟨rfl, rfl, Nat.zero_le _⟩
  | false =>
    rw [verified_false h]
    exact ⟨rfl, rfl, Nat.le_refl _⟩

theorem countStep_keys {s : State} (h : s.sec.fails < 7) (r : StartRec) (b : Bool) (i : Nat) : KeysKept s (s.countStep r b i) := by
  unfold State.countStep
  split
  · exact verified_keys h true
  · split
    · exact verified_keys h false
    · exact .refl s

/-- A device that stops after step 6 verifies the re-provisioning image that it is given. -/
def reprovisioned (s : State) (f : StartFacts) : State :=
  if s.sec.stopped ∧ !f.reprovision.isEmpty then
    let ok := imageOk f.reprovision 3 (BitVec.ofNat 32 f.reprovision.length)
    let v := s.verified ok
    if ok then { v with sec := { v.sec with reprovisioned := some (imageDigest f.reprovision) } } else v
  else s

theorem reprovisioned_counted {s : State} (h : s.ctxs = []) (f : StartFacts) : Counted s (reprovisioned s f) := by
  unfold reprovisioned
  split
  · dsimp only
    split
    · exact (verified_counted h _).trans rfl
    · exact verified_counted h _
  · exact .refl s

theorem reprovisioned_keys {s : State} (h : s.sec.fails < 7) (f : StartFacts) : KeysKept s (reprovisioned s f) := by
  unfold reprovisioned
  split
  · dsimp only
    obtain ⟨h1, h2, h3⟩ := verified_keys h (imageOk f.reprovision 3 (BitVec.ofNat 32 f.reprovision.length))
    split
    · exact ⟨h1, h2, h3⟩
    · exact ⟨h1, h2, h3⟩
  · exact .refl s

section
variable (s : State) (f : StartFacts) (n : Nat)

/-- The state once the verification of step 6 has been counted, and that of step 7. -/
def counted5 : State := (s.bootState f n).countStep (startRec s f) (runSteps s f 10 0).2 5
def counted6 : State := if altOf s 6 = 2 then counted5 s f n else (counted5 s f n).countStep (startRec s f) (runSteps s f 10 0).2 6

theorem boot_eq : s.boot f n = reprovisioned (counted6 s f n) f := rfl

theorem counted6_counted : Counted (s.bootState f n) (counted6 s f n) := by
  have h5 : Counted (s.bootState f n) (counted5 s f n) := countStep_counted rfl _ _ _
  unfold counted6
  split
  · exact h5
  · exact h5.trans (countStep_counted h5.ctxs _ _ _)

theorem boot_counted : Counted (s.bootState f n) (s.boot f n) := by
  have h6 := counted6_counted s f n
  rw [boot_eq]
  exact h6.trans (reprovisioned_counted h6.ctxs f)

/-- With fewer than seven failed verifications before, a start leaves keys and fuse. -/
theorem boot_keys (h : s.sec.fails < 7) : (s.boot f n).sec.keys = true ∧ (s.boot f n).sec.fuse = s.sec.fuse := by
  have h5 : KeysKept (s.bootState f n) (counted5 s f n) := countStep_keys (s := s.bootState f n) h _ _ _
  have hstopped : (counted6 s f n).sec.stopped = (s.sec.fuse && ((startRec s f).outcome 5 = 1 || (startRec s f).outcome 5 = 2)) :=
    congrArg (fun v : State => v.sec.stopped) (show counted6 s f n = _ from counted6_counted s f n)
  by_cases hp : Passes ((startRec s f).outcome 5)
  · have hzero : (counted5 s f n).sec.fails = 0 := by
      exact congrArg (fun v : State => v.sec.fails) (if_pos hp)
    have h6 : KeysKept (counted5 s f n) (counted6 s f n) := by
      unfold counted6
      split
      · exact .refl _
      · exact countStep_keys (by omega) _ _ _
    have h7 : KeysKept (counted6 s f n) (s.boot f n) := reprovisioned_keys (by have := h6.fails; omega) f
    exact ⟨(h7.keys.trans h6.keys).trans h5.keys, (h7.fuse.trans h6.fuse).trans h5.fuse⟩
  · have hsix := startRec_six hp
    have h6 : counted6 s f n = counted5 s f n := by
      unfold counted6
      split
      · rfl
      · rw [State.countStep, hsix, if_neg (by decide), if_neg (by rintro ⟨h, -⟩; exact absurd h (by decide))]
    have hno : (counted6 s f n).sec.stopped = false := by
      rw [hstopped]
      rw [Passes, not_or] at hp
      rw [decide_eq_false hp.1, decide_eq_false hp.2]
      exact Bool.and_false _
    rw [boot_eq, reprovisioned, if_neg (by rw [hno]; simp), h6]
    exact ⟨h5.keys, h5.fuse⟩

end

/-! ### What a start leaves out (R320) -/

/-- What an alternative takes stays left out. -/
theorem take_gone (d : Degraded) (i a : Nat) (w : Word) (k : Nat) (h : d.gone.getLsbD k = true) : (d.take i a w).gone.getLsbD k = true := by
  unfold Degraded.take
  split <;> simp [h]

theorem foldl_take_gone (k : Nat) : ∀ (es : List (Nat × BitVec 4 × BitVec 8 × Word)) (d : Degraded), d.gone.getLsbD k = true →
    ((es.foldl (fun d e => d.take e.1 (e.2.2.1.toNat + 1) e.2.2.2) d).gone.getLsbD k) = true
  | [], _, h => h
  | e :: es, d, h => foldl_take_gone k es _ (take_gone d e.1 _ e.2.2.2 k h)

/-- A die that step 5 failed with alternative 1 is left out. -/
theorem foldl_take_step5 {w : Word} (hw : w.toNat < 8) : ∀ (es : List (Nat × BitVec 4 × BitVec 8 × Word)) (d : Degraded),
    (4, 3, 1, w) ∈ es → ((es.foldl (fun d e => d.take e.1 (e.2.2.1.toNat + 1) e.2.2.2) d).gone.getLsbD w.toNat) = true
  | e :: es, d, h => by
    rcases List.mem_cons.mp h with rfl | h
    · refine foldl_take_gone _ es _ ?_
      show ((d.gone ||| (1#32 <<< (w.toNat % 32))).getLsbD w.toNat) = true
      have hm : w.toNat % 32 = w.toNat := Nat.mod_eq_of_lt (by omega)
      have hb : ((1#32 <<< w.toNat).getLsbD w.toNat) = true := by
        simp [BitVec.getLsbD_shiftLeft]
        omega
      rw [hm, BitVec.getLsbD_or, hb, Bool.or_true]
    · exact foldl_take_step5 hw es _ h

theorem degradedNow_clear {s : State} (h : s.sec.clearBoot = true) (f : StartFacts) : degradedNow s f = Degraded.none := by
  have halt : altOf s 2 ≠ 1 := by
    rw [altOf, if_pos h]
    decide
  unfold degradedNow
  simp only [h, if_true, if_neg halt]
  rfl

theorem degradedNow_step5 {s : State} {f : StartFacts} {old : StartRec} {w : Word} (hc : s.sec.clearBoot = false)
    (hold : s.sec.history.getLast? = some old) (he : old.steps[4]? = some (3, 1, w)) (hw : w.toNat < 8) :
    (degradedNow s f).gone.getLsbD w.toNat = true := by
  have hmem : ((4, 3, 1, w) : Nat × BitVec 4 × BitVec 8 × Word) ∈ ((List.range old.steps.length).zip old.steps).filter fun e => e.2.1 = 3 || e.2.1 = 5 := by
    refine List.mem_filter.mpr ⟨List.mem_iff_getElem?.mpr ⟨4, ?_⟩, rfl⟩
    obtain ⟨h4, -⟩ := List.getElem?_eq_some_iff.mp he
    exact List.getElem?_zip_eq_some.mpr ⟨List.getElem?_range h4, he⟩
  unfold degradedNow
  extract_lets old' failed es d
  have hd : d.gone.getLsbD w.toNat = true := by
    have hes : es = old.steps := by simp [es, hc, hold]
    simp only [d, hes]
    exact foldl_take_step5 hw _ _ hmem
  split
  · rw [BitVec.getLsbD_or, hd, Bool.true_or]
  · exact hd

/-! ### What a start leaves -/

section
variable (s : State) (f : StartFacts) (n : Nat)

/-- A die as the start leaves it. -/
def bootDie (k : Nat) : Die :=
  let x := placedDie (degradedNow s f).gone (s.die k).vintage k
  if (startRec s f).complete then x else { x with mapped := false, inService := false, memBytes := 0 }

theorem bootState_dies : (s.bootState f n).dies = (List.range 8).map (bootDie s f) := rfl

theorem bootDie_spec (k : Nat) : (bootDie s f k).mem = [] ∧ (bootDie s f k).vintage = (s.die k).vintage + 1 ∧
    (bootDie s f k).mapped = ((startRec s f).complete && dieKept (degradedNow s f).gone k) := by
  unfold bootDie
  dsimp only
  cases (startRec s f).complete with
  | true => exact ⟨rfl, rfl, (Bool.true_and _).symm⟩
  | false => exact ⟨rfl, rfl, rfl⟩

theorem bootState_die {k : Nat} (hk : k < 8) (d : Die) : (s.bootState f n).dies.getD k d = bootDie s f k := by
  rw [bootState_dies]
  simp [List.getD_eq_getElem?_getD, hk]

theorem mem_bootState_place {k : Nat} (hk : k < 8) : k ∈ (s.bootState f n).place ↔
    (startRec s f).complete = true ∧ dieKept (degradedNow s f).gone k = true := by
  show k ∈ (List.range 8).filter (fun k => ((s.bootState f n).dies.getD k Die.reset).mapped) ↔ _
  rw [List.mem_filter, List.mem_range, bootState_die s f n hk, (bootDie_spec s f k).2.2, Bool.and_eq_true]
  exact and_iff_right hk

theorem bootState_place_none (h : (startRec s f).complete = false) : (s.bootState f n).place = [] := by
  refine List.eq_nil_iff_forall_not_mem.mpr fun k hk => ?_
  have hk8 : k < 8 := List.mem_range.mp (List.mem_filter.mp hk).1
  rw [mem_bootState_place s f n hk8, h] at hk
  exact absurd hk.1 nofun

theorem bootState_history : (s.bootState f n).sec.history =
    (s.sec.history ++ [startRec s f]).drop ((s.sec.history ++ [startRec s f]).length - 256) := by
  simp only [State.bootState, startRec]

theorem bootState_last : (s.bootState f n).sec.history.getLast? = some (startRec s f) := by
  rw [bootState_history, List.getLast?_drop, if_neg (by simp)]
  simp

theorem startRec_word {r : StartRec} {i : Nat} {e : BitVec 4 × BitVec 8 × Word} (h : r.steps[i]? = some e) :
    r.word (4 * (i + 1)) = if e.1 = 0 then 0 else BitVec.ofNat 4 (i + 1) ++ e.1 ++ e.2.1 ++ (0#16) := by
  have hdiv : 4 * (i + 1) / 4 = i + 1 := Nat.mul_div_cancel_left _ (by decide)
  have hmod : 4 * (i + 1) % 4 = 0 := Nat.mul_mod_right 4 _
  have hnot : ¬4 * (i + 1) < 4 := by omega
  rw [StartRec.word, if_neg (by omega), hdiv, hmod, Nat.add_sub_cancel, h]
  simp only [hnot, false_or]

theorem altOf_clear (h : s.sec.clearBoot = true) (i : Nat) : altOf s i = 0 := if_pos h

theorem altOf_entry {i : Nat} {old : StartRec} {e : BitVec 4 × BitVec 8 × Word} (hc : s.sec.clearBoot = false)
    (hold : s.sec.history.getLast? = some old) (he : old.steps[i]? = some e) :
    altOf s i = e.2.1.toNat + if e.1 = 3 ∨ e.1 = 5 then 1 else 0 := by
  rw [altOf, if_neg (by rw [hc]; nofun), hold]
  simp only [Option.map_some, Option.bind_some, he]
  split <;> rfl

/-- A die stays on the map when it and one of its stacks are not left out. -/
theorem dieKept_iff (gone : Word) (k : Nat) : dieKept gone k = true ↔
    gone.getLsbD k = false ∧ (gone.getLsbD (12 + 2 * k) = false ∨ gone.getLsbD (13 + 2 * k) = false) := by
  simp [dieKept]

end

theorem startUp : Claims.StartUp := by
  intro s f
  obtain ⟨u, hu, hrun⟩ : ∃ u, u = s.boot f 0 ∧ exec (.deviceStart f) s = .next u := ⟨_, rfl, rfl⟩
  have hkeys := boot_keys s f 0
  rw [← hu] at hkeys
  have hb : Counted (s.bootState f 0) u := hu ▸ boot_counted s f 0
  unfold Counted at hb
  have hlen : (startRec s f).steps.length = 10 := (runSteps_from s f 10 0).length
  have hplace (hcomplete : (startRec s f).complete = true) (k : Nat) (hk : k < 8) : k ∈ (s.bootState f 0).place ↔
      dieKept (degradedNow s f).gone k = true := by
    rw [mem_bootState_place s f 0 hk]
    exact and_iff_right hcomplete
  refine ⟨u, startRec s f, hrun, ?_⟩
  rw [hb]
  dsimp only
  refine ⟨bootState_last s f 0, rfl, rfl, hlen, stepsAre_startRec s f, ?_, rfl, rfl, rfl, rfl, rfl, rfl, rfl, rfl, rfl, rfl, ?_, fun k hk => ?_,
    hkeys, altOf_clear s, fun old i e hc hold he => altOf_entry s hc hold he, startRec_halts s f, fun hcomplete k hk => ?_,
    fun hc => degradedNow_clear hc f, fun old w hc hold he hw hcomplete => ?_, bootState_place_none s f 0, rfl, fun i hi e he => startRec_word he⟩
  · rw [bootState_history, List.length_drop]
    omega
  · intro d hd
    obtain ⟨k, -, rfl⟩ := List.mem_map.mp (show d ∈ (List.range 8).map (bootDie s f) from hd)
    exact (bootDie_spec s f k).1
  · show ((s.bootState f 0).dies.getD k Die.blank).vintage = _
    rw [bootState_die s f 0 hk]
    exact (bootDie_spec s f k).2.1
  · exact (hplace hcomplete k hk).trans (dieKept_iff _ k)
  · show w.toNat ∉ (s.bootState f 0).place
    rw [hplace hcomplete _ hw, dieKept_iff, degradedNow_step5 hc hold he hw]
    rintro ⟨h, -⟩
    cases h

theorem restarts : Claims.Restarts := by
  refine ⟨fun s f r hr => ⟨fun hc hh hs hn => ?_, fun h => ?_⟩, fun s hh ht => ?_⟩
  · refine ⟨s.boot f (s.sec.restarts + 1), congrArg Host.Outcome.next (if_neg ?_), ?_⟩
    · rw [hr]
      simp [hc, hh, hs, hn]
    · have hb : Counted (s.bootState f (s.sec.restarts + 1)) (s.boot f (s.sec.restarts + 1)) := boot_counted s f _
      unfold Counted at hb
      rw [hb]
      exact ⟨rfl, rfl⟩
  · refine congrArg Host.Outcome.next (if_pos ?_)
    rw [hr]
    exact h
  · refine if_pos ?_
    rw [stopped, hh, Bool.true_and]
    split
    · next f he => exact absurd he (ht f)
    · rfl

/-- Settles O54: a start by the recursion that runs its steps, whose entries say which steps were reached; the count of its verifications
changes keys, fuse and the count only. -/
theorem deviceStartAndRestart : Obligations.DeviceStartAndRestart := ⟨startUp, restarts⟩

end Sys2Proof.Machine
end

section
/-! PROOF. Futures and queue instructions (R105, R106, R108): what their checks find, and what each then does in its one lane. -/

namespace Sys2Proof.Machine

/-! ### A lane that issues alone and does not execute -/

section
variable {s : State} {t : Nat} {x : Option Ext} {once : Bool} {chk : State → Nat → Check} {act : State → Nat → State}

theorem runPlain_lone_trap {c e : Nat} {v : BitVec 64} (h : Lone s t x) (hc : chk s t = .trap c e v) :
    runPlain x once chk act s = s.faultTrap t c e v := runLanes_lone_trap h hc

theorem runPlain_lone_wait {b : Block} (h : Lone s t x) (hc : chk s t = .wait b) :
    runPlain x once chk act s = s.setStatus t (.blocked b) := by
  refine (runLanes_lone_step h fun c d a hq => ?_).trans ?_
  · rw [hc] at hq
    cases hq
  · rw [hc]
    rfl

theorem runPlain_lone_park {k : BitVec 4} {va : Nat} {acc : Access} {dst : List RegRef} (h : Lone s t x) (hc : chk s t = .park k va acc dst) :
    runPlain x once chk act s = s.parkOwing t (s.faultRec t va k acc) dst := by
  refine (runLanes_lone_step h fun c d a hq => ?_).trans ?_
  · rw [hc] at hq
    cases hq
  · rw [hc]
    rfl

end

section
variable {s : State} {t : Nat} {x : Option Ext} {d a : Operand} {p : BitVec 3} {fields : List Operand} {dst : List RegRef}

/-! ### Futures (R105) -/

/-- A register that holds no handle is the illegal operand. -/
theorem futCheck_noHandle (hf : ∀ o ∈ fields, opBad s t o = false) (hh : handleOk (addrReg s t a) = false) :
    futCheck fields a dst s t = .trap 2 a.code.toNat (pcAddr (s.th t).pc) := by
  have hnone : fields.find? (opBad s t) = none := List.find?_eq_none.mpr fun o ho => by simp [hf o ho]
  rw [futCheck, opFault, hnone, hh]
  rfl

/-- A future's check of a register that holds a handle, whether or not it is full. -/
theorem futCheck_handle (hg : Given s t fields [] dst) (hh : handleOk (addrReg s t a) = true)
    (hl : ∀ r ∈ regsOf (s.th t) a 1, (ownLred s t).contains r = false) : futCheck fields a dst s t = .ok := by
  have hnone : fields.find? (opBad s t) = none := List.find?_eq_none.mpr fun o ho => by simp [hg.available o ho]
  have hown : (srcRegs (s.th t) [src a] ++ dst).any (ownLred s t).contains = false := by
    rw [List.any_eq_false]
    intro r hr
    rcases List.mem_append.mp hr with hr | hr
    · rw [hl r (by simpa [srcRegs, src] using hr)]
      nofun
    · rw [hg.settled r (by simpa using hr)]
      nofun
  have hfault : opFault s t fields [src a] dst .ok = .ok := by
    rw [opFault, hnone, Check.ok_andThen, if_neg (by rw [hown]; nofun)]
    rfl
  have hwait : opWait s t [] dst = .ok := opWait_given (fields := fields) (srcs := []) hg
  rw [futCheck, hh, if_pos rfl, hfault, hwait]
  rfl

/-- What the future reads of its register. -/
theorem regOf_all_full (h : a.isV = true ∨ a.isS = true) :
    (regOf (s.th t) a).all (s.regFull t) = (regsOf (s.th t) a 1).all (s.regFull t) := by
  cases a with
  | v n => simp [regOf, regsOf]
  | s n => simp [regOf, regsOf]
  | _ => simp [Operand.isV, Operand.isS] at h

theorem exec_ftest (hl : Lone s t x) (hc : futCheck [a] a [] s t = .ok) : exec (.ftest x p a) s = .next
    (((if (regOf (s.th t) a).all (s.regFull t) then s.discardCopies (s.coreOf t) else s).setP t p
      ((regOf (s.th t) a).all (s.regFull t))).retire t (extLen x)) :=
  congrArg Host.Outcome.next (runPlain_lone hl hc)

theorem exec_fcancel (hl : Lone s t x) (hc : futCheck [a] a [] s t = .ok) : exec (.fcancel x a) s = .next
    ((match latestOp s t (addrReg s t a) with
      | some i => s.modOp i fun o => { o with cancel := o.stage != OpStage.done }
      | none => s).retire t (extLen x)) :=
  congrArg Host.Outcome.next (runPlain_lone hl hc)

/-- What `fwait` checks. -/
def fwaitCheck (d a : Operand) (s : State) (t : Nat) : Check :=
  (futCheck [d, a] a ((regsOf (s.th t) d 1).filter fun r => some r ≠ regOf (s.th t) a) s t).andThen
    (if futDone s t a then .ok else .wait (.fut a))

theorem exec_fwait_done (hl : Lone s t x) (hc : fwaitCheck d a s t = .ok) : exec (.fwait x d a) s = .next
    (((s.writeDst t d (regsOf (s.th t) d 1) (outW (match latestOp s t (addrReg s t a) with
      | some i => (s.op i).status.zeroExtend 32
      | none => 0xFFFF))).discardCopies (s.coreOf t)).retire t (extLen x)) :=
  congrArg Host.Outcome.next (runPlain_lone hl hc)

theorem exec_fwait_waits (hl : Lone s t x) (hc : fwaitCheck d a s t = .wait (.fut a)) :
    exec (.fwait x d a) s = .next (s.setStatus t (.blocked (.fut a))) := congrArg Host.Outcome.next (runPlain_lone_wait hl hc)

theorem exec_fwait_trap {c e : Nat} {v : BitVec 64} (hl : Lone s t x) (hc : fwaitCheck d a s t = .trap c e v) :
    exec (.fwait x d a) s = .next (s.faultTrap t c e v) := congrArg Host.Outcome.next (runPlain_lone_trap hl hc)

theorem fwaitCheck_handle (hg : Given s t [d, a] [] ((regsOf (s.th t) d 1).filter fun r => some r ≠ regOf (s.th t) a))
    (hh : handleOk (addrReg s t a) = true) (hl : ∀ r ∈ regsOf (s.th t) a 1, (ownLred s t).contains r = false) :
    fwaitCheck d a s t = if futDone s t a then .ok else .wait (.fut a) := by
  rw [fwaitCheck, futCheck_handle hg hh hl, Check.ok_andThen]

end

theorem futures : Claims.Futures := by
  intro s t x d a p hl ha h full bad
  have hself : ∀ o ∈ [a], opBad s t o = false := List.forall_mem_singleton.mpr ha
  refine ⟨fun hh => ⟨fun hd => ?_, ?_, ?_⟩, fun hh hlred hreg => ?_⟩
  · have hfut := futCheck_noHandle (fields := [d, a]) (dst := (regsOf (s.th t) d 1).filter fun r => some r ≠ regOf (s.th t) a)
      (List.forall_mem_cons.mpr ⟨hd, hself⟩) hh
    exact exec_fwait_trap hl (by rw [fwaitCheck, hfut]; rfl)
  · exact congrArg Host.Outcome.next (runPlain_lone_trap hl (futCheck_noHandle hself hh))
  · exact congrArg Host.Outcome.next (runPlain_lone_trap hl (futCheck_noHandle hself hh))
  · have hfull : (regOf (s.th t) a).all (s.regFull t) = full := regOf_all_full hreg
    have hfut : futCheck [a] a [] s t = .ok := futCheck_handle ⟨hself, nofun, nofun, .inr nofun⟩ hh hlred
    refine ⟨?_, ?_, fun i hi => ?_, fun hnone => ?_⟩
    · intro hg done waits
      have hcheck := fwaitCheck_handle hg hh hlred
      have hwait (hdone : futDone s t a = false) : waits := exec_fwait_waits hl (by rw [hcheck, hdone]; rfl)
      have hgo (hdone : futDone s t a = true) := exec_fwait_done hl (hcheck.trans (if_pos hdone))
      refine ⟨fun hf => hwait (by rw [futDone, hfull, hf]; rfl), fun hf => ⟨fun i hi => ⟨fun hst => ?_, fun hst => ?_⟩, fun hnone => ?_⟩⟩
      · have hrun := hgo (by rw [futDone, hfull, hf, hi]; exact decide_eq_true hst)
        rwa [hi] at hrun
      · exact hwait (by rw [futDone, hfull, hf, hi]; exact decide_eq_false hst)
      · have hrun := hgo (by rw [futDone, hfull, hf, hnone]; rfl)
        rwa [hnone] at hrun
    · rw [exec_ftest hl hfut, hfull]
    · rw [exec_fcancel hl hfut, hi]
    · rw [exec_fcancel hl hfut, hnone]

/-! ### Queues (R106, R108) -/

section
variable {s : State} {t : Nat} {x : Option Ext} {d a : Operand} {q : BitVec 2}

/-- What `qlen` checks. -/
def qlenCheck (d : Operand) (q : BitVec 2) (s : State) (t : Nat) : Check :=
  (opCheck s t [d, .q q] [] (regsOf (s.th t) d 1)).andThen (chanCheck s t [q.toNat])

theorem qlenCheck_given (hg : Given s t [d, .q q] [] (regsOf (s.th t) d 1)) : qlenCheck d q s t = (queueCheck s t q.toNat).andThen .ok := by
  rw [qlenCheck, opCheck_given hg]
  rfl

/-- The instruction, once its reads have met the error protection. -/
theorem exec_qlen (hl : Lone s t x) (hq : s.planted = [] ∨ chanSites s t [q.toNat] [] [] = []) : exec (.qlen x d (.q q)) s = .next
    (runPlain x d.isS (qlenCheck d q) (fun s t => (s.writeDst t d (regsOf (s.th t) d 1)
      (outW (BitVec.ofNat 32 (queueLen s t q.toNat)))).retire t (extLen x)) s) := by
  refine congrArg Host.Outcome.next (withReads_lone hl (hq.imp_right fun hs => ?_))
  dsimp only
  split
  · exact hs
  · rfl

theorem exec_qlen_gives (hl : Lone s t x) (hq : s.planted = [] ∨ chanSites s t [q.toNat] [] [] = []) (hc : qlenCheck d q s t = .ok) :
    exec (.qlen x d (.q q)) s = .next ((s.writeDst t d (regsOf (s.th t) d 1)
      (outW (BitVec.ofNat 32 (queueLen s t q.toNat)))).retire t (extLen x)) := by
  rw [exec_qlen hl hq]
  exact congrArg Host.Outcome.next (runPlain_lone hl hc)

theorem queueCheck_bound {off : Nat} (hq : q ≠ 0) (hb : boundChan (s.th t) q.toNat = some off) : queueCheck s t q.toNat =
    match chanGood s t off with
    | some true => .ok
    | some false => trapHere s t 9 q.toNat
    | none => .wait .retry := by
  have h0 : q.toNat ≠ 0 := fun h => hq (BitVec.eq_of_toNat_eq h)
  rw [queueCheck, hb]
  simp only [if_neg h0] <;> rfl

theorem queueCheck_zero : queueCheck s t 0 = .ok := by
  unfold queueCheck
  split
  · rfl
  · rfl

end

theorem queueOperations : Claims.QueueOperations := by
  intro s t x a d q hl
  refine ⟨?_, ?_⟩
  · intro hg ea
    refine ⟨fun hal => ?_, fun hal => ?_⟩
    · refine congrArg Host.Outcome.next (runPlain_lone hl ?_)
      rw [opCheck_given hg, Check.ok_andThen, if_pos hal]
    · refine congrArg Host.Outcome.next (runPlain_lone_trap hl ?_)
      rw [opCheck_given hg, Check.ok_andThen, if_neg hal]
  · intro hg gives
    refine ⟨fun hq => ?_, fun hq hp off hb => ⟨fun hgood ch hch => ?_, fun hbad => ?_, fun hwait => ?_⟩⟩
    · subst hq
      exact exec_qlen_gives (x := x) (d := d) (q := 0) hl (.inr rfl)
        (by rw [qlenCheck_given hg]; exact congrArg (Check.andThen · .ok) queueCheck_zero)
    · have hrun := exec_qlen_gives (x := x) (d := d) (q := q) hl (.inl hp)
        (by rw [qlenCheck_given hg, queueCheck_bound hq hb, hgood]; rfl)
      have hlen : queueLen s t q.toNat = (ch.tail - ch.head).toNat := by
        have h0 : ¬q.toNat = 0 := fun h => hq (BitVec.eq_of_toNat_eq h)
        rw [queueLen, if_neg h0, hb]
        simp only [hch]
        rfl
      rwa [hlen] at hrun
    · rw [exec_qlen hl (.inl hp)]
      exact congrArg Host.Outcome.next (runPlain_lone_trap hl (by rw [qlenCheck_given hg, queueCheck_bound hq hb, hbad]; rfl))
    · rw [exec_qlen hl (.inl hp)]
      exact congrArg Host.Outcome.next (runPlain_lone_wait hl (by rw [qlenCheck_given hg, queueCheck_bound hq hb, hwait]; rfl))

/-- Settles O25: each instruction by what its check finds; of a channel `qlen` reads what the A-buffer holds (log entry 75). -/
theorem futuresAndQueues : Obligations.FuturesAndQueues := ⟨futures, queueOperations⟩

end Sys2Proof.Machine
end

section
/-! PROOF. The memory port at issue (R146 to R171): where a checked access lands, which faults it takes, and what every instruction
that puts an access under way leaves alone (`UnderWay`); the loads and stores of O15 and O16 follow. -/

namespace Sys2Proof.Machine

section
variable {s u v : State} {t : Nat}

/-! ### Where an access lands -/

section
variable {sp : Space} {ea : Word} {n at_ : Nat} {acc : Access}

theorem accessCheck_reaches (h : Reaches s t sp ea n acc at_) (dst : List RegRef) : accessCheck s t sp ea n acc dst = .ok := by
  obtain ⟨hal, hpl⟩ := h
  unfold accessCheck
  rw [if_neg (not_not.mpr hal)]
  cases sp with
  | n =>
    obtain ⟨p, hp⟩ := hpl
    simp only [hp]
  | _ => exact if_neg (Nat.not_lt.mpr hpl.1)

theorem accessCheck_misaligned (h : ea.toNat % n ≠ 0) (dst : List RegRef) :
    accessCheck s t sp ea n acc dst = .trap 6 0 (pcAddr ea) := if_pos h

theorem accessCheck_pastEnd (h : ea.toNat % n = 0) (hsp : sp ≠ .n) (hend : bufSize sp < ea.toNat + n) (dst : List RegRef) :
    accessCheck s t sp ea n acc dst = .trap 7 0 (pcAddr ea) := by
  unfold accessCheck
  rw [if_neg (not_not.mpr h)]
  cases sp with
  | n => exact absurd rfl hsp
  | _ => exact if_pos hend

theorem accessCheck_untranslated {k : BitVec 4} (h : ea.toNat % n = 0) (hk : s.laneXlate t (nVa s t ea) acc = .error k) (dst : List RegRef) :
    accessCheck s t .n ea n acc dst = .park k (nVa s t ea) acc dst := by
  unfold accessCheck
  rw [if_neg (not_not.mpr h)]
  simp only [hk]

/-- A place of a checked access, and the page that its translation found. -/
theorem locate_reaches (h : Reaches s t sp ea n acc at_) : (locate s t sp ea acc).1 = at_ := by
  obtain ⟨-, hpl⟩ := h
  cases sp with
  | n =>
    obtain ⟨p, hp⟩ := hpl
    simp only [locate, hp]
  | _ => exact hpl.2.symm

theorem locate_page {p : Pte} {pa : Nat} (h : s.laneXlate t (nVa s t ea) acc = .ok (p, pa)) : locate s t .n ea acc = (pa, some p) := by
  simp only [locate, h]

theorem locate_buffer (hsp : sp ≠ .n) : locate s t sp ea acc = (ea.toNat, none) := by
  cases sp with
  | n => exact absurd rfl hsp
  | _ => rfl

end

/-! ### What an access under way leaves alone -/

/-- An access has been put under way: memory, the other threads, the values of registers, and what of the thread its own instructions
write are as before; where the PC advances to has not changed either. -/
structure UnderWay (s u : State) (t : Nat) : Prop where
  threads : u.threads.length = s.threads.length
  memory : SameMemory s u
  others : OthersSame s u t
  specials : SpecialsSame (u.th t) (s.th t)
  values : ∀ r, u.regVal t r = s.regVal t r
  advance : ∀ len, (Thread.advance len (u.th t)).pc = (Thread.advance len (s.th t)).pc
  pc : (u.th t).pc = (s.th t).pc
  status : (u.th t).status = (s.th t).status

namespace UnderWay

theorem refl (s : State) (t : Nat) : UnderWay s s t where
  threads := rfl
  memory := ⟨fun _ _ => rfl, fun _ _ _ => rfl⟩
  others := fun _ _ => rfl
  specials := by simp [SpecialsSame]
  values := fun _ => rfl
  advance := fun _ => rfl
  pc := rfl
  status := rfl

theorem trans (h : UnderWay s u t) (k : UnderWay u v t) : UnderWay s v t where
  threads := k.threads.trans h.threads
  memory := ⟨fun d a => (k.memory.1 d a).trans (h.memory.1 d a), fun c sp a => (k.memory.2 c sp a).trans (h.memory.2 c sp a)⟩
  others := fun n hn => (k.others n hn).trans (h.others n hn)
  specials := by
    have h1 := h.specials
    have h2 := k.specials
    simp only [SpecialsSame] at h1 h2 ⊢
    simp only [h2, h1, and_self]
  values := fun r => (k.values r).trans (h.values r)
  advance := fun len => (k.advance len).trans (h.advance len)
  pc := k.pc.trans h.pc
  status := k.status.trans h.status

theorem of_caches (h : CachesOnly s u) : UnderWay s u t where
  threads := by rw [h.threads]
  memory := h.sameMemory
  others := fun n _ => h.th n
  specials := by simp [SpecialsSame, h.th]
  values := h.regVal t
  advance := fun len => by rw [h.th]
  pc := by rw [h.th]
  status := by rw [h.th]

/-- Registers made empty keep their values. -/
theorem markEmpty (s : State) (t : Nat) (r : RegRef) : UnderWay s (s.markEmpty t r) t := by
  have hr := s.markEmpty_regsOnly t r (dst := [r]) (List.mem_singleton.mpr rfl)
  obtain ⟨x, hx, -, -⟩ := hr.self
  have hmem : (s.markEmpty t r).dies = s.dies ∧ (s.markEmpty t r).cores = s.cores := by cases r <;> exact ⟨rfl, rfl⟩
  refine ⟨hr.threads, ?_, hr.others, by simp [SpecialsSame, hx], fun k => ?_, fun len => by rw [hx]; rfl, by rw [hx], by rw [hx]⟩
  · exact ⟨fun d a => by rw [State.die, State.die, hmem.1], fun c sp a => by rw [State.co, State.co, hmem.2]⟩
  · cases r with
    | v j =>
      have hv (y : Thread) (m : Nat) : ((y.v.modify j fun z => { z with full := false })[m]?.map VReg.val) = y.v[m]?.map VReg.val := by
        rw [List.getElem?_modify]
        cases y.v[m]? with
        | none => rfl
        | some z => by_cases hm : j = m <;> simp [hm]
      cases k with
      | v m =>
        simp only [State.regVal, State.markEmpty, State.th_modTh]
        split
        · rw [hv]
        · rfl
      | s m =>
        simp only [State.regVal, State.markEmpty, State.wpOf, State.th_modTh, State.modTh_entries]
        split <;> rfl
    | s j =>
      have hv (y : Warp) (m : Nat) : ((y.s.modify j fun z => { z with full := false })[m]?.map SReg.val) = y.s[m]?.map SReg.val := by
        rw [List.getElem?_modify]
        cases y.s[m]? with
        | none => rfl
        | some z => by_cases hm : j = m <;> simp [hm]
      cases k with
      | v m => rfl
      | s m =>
        simp only [State.regVal, State.markEmpty, State.wpOf, State.modWp_entries, State.wp_modWp]
        split
        · next hc => rw [hv]
        · rfl

theorem markAll (t : Nat) : ∀ (rs : List RegRef) (s : State), UnderWay s (s.markAll t rs) t
  | [], s => refl s t
  | r :: rs, s => (markEmpty s t r).trans (markAll t rs _)

/-- Change of fields of the thread that the frame does not name. -/
theorem of_modTh (s : State) (t : Nat) {f : Thread → Thread} (hs : ∀ x, SpecialsSame (f x) x)
    (hf : ∀ x, (f x).v = x.v ∧ (f x).pc = x.pc ∧ (f x).lc = x.lc ∧ (f x).status = x.status) : UnderWay s (s.modTh t f) t := by
  have hth : (s.modTh t f).th t = f (s.th t) ∨ (s.modTh t f).th t = s.th t := by
    rw [State.th_modTh]
    split
    · exact .inl rfl
    · exact .inr rfl
  have hsp : SpecialsSame ((s.modTh t f).th t) (s.th t) := by
    rcases hth with h | h
    · rw [h]; exact hs _
    · rw [h]; simp [SpecialsSame]
  have hkeep : ((s.modTh t f).th t).v = (s.th t).v ∧ ((s.modTh t f).th t).pc = (s.th t).pc ∧ ((s.modTh t f).th t).lc = (s.th t).lc ∧
      ((s.modTh t f).th t).status = (s.th t).status := by
    rcases hth with h | h
    · rw [h]; exact hf _
    · rw [h]; exact ⟨rfl, rfl, rfl, rfl⟩
  obtain ⟨hv, hpc, hlc, hst⟩ := hkeep
  have hw : ((s.modTh t f).th t).warp = (s.th t).warp := by
    simp only [SpecialsSame] at hsp
    exact hsp.2.2.2.2.2.2.2.2.2.2.2.2.2.2.2.2.2.1
  refine ⟨by simp, ⟨fun _ _ => rfl, fun _ _ _ => rfl⟩, fun n hn => ?_, hsp, fun r => ?_, fun len => ?_, hpc, hst⟩
  · rw [State.th_modTh, if_neg fun h => hn h.1.symm]
  · cases r <;> simp [State.regVal, State.wpOf, hv, hw]
  · simp only [Thread.advance, hpc, hlc]

/-- An entry joins the FIFO of the thread's warp. -/
theorem toFifo (s : State) (t : Nat) (e : Entry) : UnderWay s (s.toFifo t e) t where
  threads := rfl
  memory := ⟨fun _ _ => rfl, fun _ _ _ => rfl⟩
  others := fun _ _ => rfl
  specials := by rw [show (s.toFifo t e).th t = s.th t from rfl]; simp [SpecialsSame]
  values := fun r => by
    cases r with
    | v n => rfl
    | s n =>
      show (((s.modWp (s.th t).warp _).wp (s.th t).warp).s[n]?.map SReg.val).getD 0 = _
      rw [State.wp_modWp]
      split <;> rfl
  advance := fun _ => rfl
  pc := rfl
  status := rfl

/-- The access has retired: its PC is the one that the instruction advances to. -/
theorem retired (h : UnderWay s u t) (ht : t < s.threads.length) (len : Nat) :
    (∀ r, (u.retire t len).regVal t r = s.regVal t r) ∧ ((u.retire t len).th t).pc = ((s.retire t len).th t).pc ∧
    SameMemory s (u.retire t len) ∧ OthersSame s (u.retire t len) t ∧ SpecialsSame ((u.retire t len).th t) (s.th t) := by
  have hu : t < u.threads.length := by rw [h.threads]; exact ht
  refine ⟨fun r => ((State.retire_regs u t len t r).1).trans (h.values r), ?_, h.memory, fun n hn => ?_, ?_⟩
  · rw [State.th_retire, State.th_retire, if_pos ⟨rfl, hu⟩, if_pos ⟨rfl, ht⟩, h.advance]
  · rw [State.th_retire_other _ _ _ _ hn, h.others n hn]
  · rw [State.th_retire, if_pos ⟨rfl, hu⟩]
    exact h.specials

end UnderWay

/-! ### Translations that an access uses -/

theorem keepXlate_caches (h : s.planted = []) (t : Nat) (ea : Word) (p : Option Pte) : CachesOnly s (s.keepXlate t ea p) := by
  cases p with
  | none => exact .refl s
  | some p =>
    rw [State.keepXlate, State.useXlate_clean _ _ _ _ _ _ h]
    exact s.tlbFill_caches _ _ _ _ _

/-- The access keeps its translation; a buffer access has none. -/
theorem keepXlate_located {sp : Space} {ea : Word} {acc : Access} (h : sp = .n → u.planted = []) (t : Nat) (ea' : Word) :
    CachesOnly u (u.keepXlate t ea' (locate s t sp ea acc).2) := by
  by_cases hsp : sp = .n
  · exact keepXlate_caches (h hsp) t ea' _
  · rw [locate_buffer hsp]
    exact .refl u

/-! ### Pending loads -/

theorem pushLoad_underWay (s : State) (t : Nat) (l : Load) : UnderWay s (pushLoad s t l) t :=
  (UnderWay.markAll t l.dst s).trans (.of_modTh _ t (fun x => by simp [SpecialsSame]) fun _ => ⟨rfl, rfl, rfl, rfl⟩)

theorem pushLoad_planted (s : State) (t : Nat) (l : Load) : (pushLoad s t l).planted = s.planted := by
  rw [pushLoad, State.markAll_only]
  rfl

theorem pushLoad_loads (ht : t < s.threads.length) (l : Load) : ((pushLoad s t l).th t).loads = (s.th t).loads ++ [l] := by
  have hr := State.markAll_regsOnly t l.dst s fun _ h => h
  obtain ⟨x, hx, -, -⟩ := hr.self
  rw [pushLoad, State.th_modTh, if_pos ⟨rfl, by rw [hr.threads]; exact ht⟩, hx]

theorem pushLoad_full (s : State) (t : Nat) (l : Load) (r : RegRef) : (pushLoad s t l).regFull t r = (s.markAll t l.dst).regFull t r := by
  cases r with
  | v n =>
    simp only [State.regFull, pushLoad, State.th_modTh]
    split <;> rfl
  | s n =>
    simp only [State.regFull, pushLoad, State.wpOf, State.th_modTh]
    split <;> rfl

theorem pushLoad_empty (ht : t < s.threads.length) (l : Load) {n : Nat} (hn : RegRef.v n ∈ l.dst) (hv : n < (s.th t).v.length) :
    (pushLoad s t l).regFull t (.v n) = false := by
  rw [pushLoad_full]
  exact State.markAll_empty ht hn hv

theorem pushLoad_others (s : State) (t : Nat) (l : Load) {r : RegRef} (hr : r ∉ l.dst) :
    (pushLoad s t l).regFull t r = s.regFull t r := by
  rw [pushLoad_full]
  exact ((State.markAll_regsOnly t l.dst s fun _ h => h).reads hr).2.2

end

/-! ### Loads (R156) -/

section
variable {s : State} {t : Nat} {i : Instr} {w : MW} {sp : Space}

theorem exec_load (h : loadOf i = some (w, sp)) (s : State) : exec i s = runLoad w sp s := by
  cases i <;> simp only [loadOf, Option.some.injEq, Prod.mk.injEq, reduceCtorEq] at h
  all_goals
    obtain ⟨rfl, rfl⟩ := h
    rfl

theorem exec_store (h : storeOf i = some (w, sp)) (s : State) : exec i s = runStore w sp s := by
  cases i <;> simp only [storeOf, Option.some.injEq, Prod.mk.injEq, reduceCtorEq] at h
  all_goals
    obtain ⟨rfl, rfl⟩ := h
    rfl

theorem loadCheck_given (h : Given s t [w.d, w.a] [src w.a] (regsOf (s.th t) w.d (szRegs w.sz))) (sp : Space) :
    loadCheck w sp s t = accessCheck s t sp (eaOf s t w.x w.a w.off (szBytes w.sz)) (szBytes w.sz) .load
      (regsOf (s.th t) w.d (szRegs w.sz)) := by
  rw [loadCheck, opCheck_given h, Check.ok_andThen]

theorem storeCheck_given (h : Given s t [w.d, w.a] [src w.a, srcN w.d (szRegs w.sz)] []) (sp : Space) :
    storeCheck w sp s t = accessCheck s t sp (eaOf s t w.x w.a w.off (szBytes w.sz)) (szBytes w.sz) .store := by
  rw [storeCheck, opCheck_given h, Check.ok_andThen]

/-- A load joins the thread's pending loads: its destinations become empty, and the access stays under way. -/
theorem issued_load {u : State} {len : Nat} (ht : t < s.threads.length) (l : Load) (hc : CachesOnly (pushLoad s t l) u) :
    ((u.retire t len).th t).loads = (s.th t).loads ++ [l] ∧
    (∀ n, RegRef.v n ∈ l.dst → n < (s.th t).v.length → (u.retire t len).regFull t (.v n) = false) ∧
    (∀ n, RegRef.v n ∉ l.dst → (u.retire t len).regFull t (.v n) = s.regFull t (.v n)) ∧
    (∀ r, (u.retire t len).regVal t r = s.regVal t r) ∧ ((u.retire t len).th t).pc = ((s.retire t len).th t).pc ∧
    SameMemory s (u.retire t len) ∧ OthersSame s (u.retire t len) t ∧ SpecialsSame ((u.retire t len).th t) (s.th t) := by
  have hfull (r : RegRef) : (u.retire t len).regFull t r = (pushLoad s t l).regFull t r :=
    ((State.retire_regs u t len t r).2.2).trans (hc.regFull t r)
  refine ⟨?_, fun n hn hv => (hfull _).trans (pushLoad_empty ht l hn hv), fun n hn => (hfull _).trans (pushLoad_others s t l hn), ?_⟩
  · rw [State.retire_keeps Thread.loads (fun _ _ => rfl), hc.th, pushLoad_loads ht]
  · exact ((pushLoad_underWay s t l).trans (.of_caches hc)).retired ht len

theorem loadsIssue : Claims.LoadsIssue := by
  intro s t i w sp at_ hi hl hg hr hp
  have hc : loadCheck w sp s t = .ok := (loadCheck_given hg sp).trans (accessCheck_reaches hr _)
  have hexec : exec i s = .next (loadAct w sp s t) := (exec_load hi s).trans (congrArg Host.Outcome.next (runPlain_lone hl hc))
  let ea := eaOf s t w.x w.a w.off (szBytes w.sz)
  let l : Load :=
    { ord := (s.th t).loadCount, kind := .mem false, sp := sp
      core := if sp = .a then s.homeOf t else s.coreOf t
      die := s.pdie (s.ldieOf t), addr := (locate s t sp ea .load).1, sz := w.sz, dst := regsOf (s.th t) w.d (szRegs w.sz)
      tag := fmtTag (locate s t sp ea .load).2, acq := acqOf s t w.x }
  have hkeep : CachesOnly (pushLoad s t l) ((pushLoad s t l).keepXlate t ea (locate s t sp ea .load).2) :=
    keepXlate_located (fun h => (pushLoad_planted s t l).trans (hp h)) t ea
  obtain ⟨hloads, hempty, hrest, hframe⟩ := issued_load (len := extLen w.x) hl.inRange l hkeep
  refine ⟨_, l, hexec, hloads, rfl, rfl, locate_reaches hr, rfl, rfl, rfl, fun hsp => ?_, fun hsp p pa hx => ?_, rfl, rfl, hempty, hrest,
    hframe⟩
  · show fmtTag (locate s t sp ea .load).2 = .raw
    rw [locate_buffer hsp]
    rfl
  · subst hsp
    show fmtTag (locate s t .n ea .load).2 = _
    rw [locate_page hx]

/-! ### Stores (R157) -/

/-- An entry joins the FIFO of the thread's warp, and the access stays under way. -/
theorem issued_entry {u : State} {len : Nat} (ht : t < s.threads.length) (hw : (s.th t).warp < s.warps.length) (e : Entry)
    (hc : CachesOnly (s.toFifo t e) u) :
    ((u.retire t len).wp (s.th t).warp).fifo = (s.wp (s.th t).warp).fifo ++ [e] ∧
    (∀ r, (u.retire t len).regFull t r = s.regFull t r) ∧
    (∀ r, (u.retire t len).regVal t r = s.regVal t r) ∧ ((u.retire t len).th t).pc = ((s.retire t len).th t).pc ∧
    SameMemory s (u.retire t len) ∧ OthersSame s (u.retire t len) t ∧ SpecialsSame ((u.retire t len).th t) (s.th t) := by
  refine ⟨?_, fun r => ?_, ((UnderWay.toFifo s t e).trans (.of_caches hc)).retired ht len⟩
  · rw [(State.retire_entries u t len _).1, hc.wp, State.toFifo_fifo s t e hw]
  · rw [(State.retire_regs u t len t r).2.2, hc.regFull]
    cases r with
    | v n => rfl
    | s n =>
      show (((s.modWp (s.th t).warp _).wp (s.th t).warp).s[n]?.map SReg.full).getD true = _
      rw [State.wp_modWp_self _ _ _ hw]
      rfl

theorem storesIssue : Claims.StoresIssue := by
  intro s t i w sp at_ hi hl hg hw hr hp
  have hc : storeCheck w sp s t = .ok := (storeCheck_given hg sp).trans (accessCheck_reaches hr _)
  have hexec : exec i s = .next (storeAct w sp s t) := (exec_store hi s).trans (congrArg Host.Outcome.next (runPlain_lone hl hc))
  let ea := eaOf s t w.x w.a w.off (szBytes w.sz)
  let e : Entry := { s.entry t sp (locate s t sp ea .store).1 (.store (storeBytes s t w.d w.sz)) with
    rel := relOf s t w.x, scope := scopeEff s t (scopeOf w.x), nt := attrNt w.x, bars := ordRel w.x }
  have hkeep : CachesOnly (s.toFifo t e) ((s.toFifo t e).keepXlate t ea (locate s t sp ea .store).2) :=
    keepXlate_located (u := s.toFifo t e) hp t ea
  obtain ⟨hfifo, hfull, hval, hframe⟩ := issued_entry (len := extLen w.x) hl.inRange hw e hkeep
  exact ⟨_, e, hexec, hfifo, rfl, rfl, locate_reaches hr, rfl, rfl, rfl, hval, hfull, hframe⟩

theorem accessFaults : Claims.AccessFaults := by
  intro s t i w sp acc hi hl
  dsimp only
  rcases hi with ⟨hi, rfl, hg⟩ | ⟨hi, rfl, hg⟩
  · have hc := loadCheck_given hg sp
    have hx := exec_load hi s
    refine ⟨fun h => ?_, fun h hsp hend => ?_, fun h hsp k hk => ?_⟩
    · exact hx.trans (congrArg Host.Outcome.next (runPlain_lone_trap hl (hc.trans (accessCheck_misaligned h _))))
    · exact hx.trans (congrArg Host.Outcome.next (runPlain_lone_trap hl (hc.trans (accessCheck_pastEnd h hsp hend _))))
    · subst hsp
      rw [if_pos rfl]
      exact hx.trans (congrArg Host.Outcome.next (runPlain_lone_park hl (hc.trans (accessCheck_untranslated h hk _))))
  · have hc := storeCheck_given hg sp
    have hx := exec_store hi s
    refine ⟨fun h => ?_, fun h hsp hend => ?_, fun h hsp k hk => ?_⟩
    · exact hx.trans (congrArg Host.Outcome.next (runPlain_lone_trap hl (hc.trans (accessCheck_misaligned h _))))
    · exact hx.trans (congrArg Host.Outcome.next (runPlain_lone_trap hl (hc.trans (accessCheck_pastEnd h hsp hend _))))
    · subst hsp
      rw [if_neg nofun]
      exact hx.trans (congrArg Host.Outcome.next (runPlain_lone_park hl (hc.trans (accessCheck_untranslated h hk _))))

/-- Settles O16: a good store puts one entry into the FIFO (`issued_entry`), and a bad address takes its fault (`accessCheck`). -/
theorem storesAreIssuedOrFault : Obligations.StoresAreIssuedOrFault := ⟨storesIssue, accessFaults⟩

/-! ### Scale loads and prefetches (R154, R155, R160) -/

/-- The scale that `ldsc` loads: its address, the page that holds it, and where it stands. -/
def scaleAt (s : State) (t va : Nat) : Option (Nat × Pte × Nat) :=
  (((s.laneXlate t va .load).toOption.map Prod.fst).bind fun p => scaleVa p va).bind fun sv =>
    (s.laneXlate t sv .load).toOption.map fun r => (sv, r)

/-- The load that `ldsc` issues. -/
def scaleLoad (s : State) (t va : Nat) (dst : List RegRef) : Load :=
  { ord := (s.th t).loadCount, kind := .mem (scaleAt s t va).isNone, sp := .n, core := s.coreOf t
    die := s.pdie (s.ldieOf t), addr := ((scaleAt s t va).map fun r => r.2.2).getD 0, sz := 0, dst := dst, tag := .raw
    acq := false }

/-- What `ldsc` checks of the page of its element and of the scale's. -/
def scaleCheck (s : State) (t va : Nat) (dst : List RegRef) : Check :=
  match s.laneXlate t va .load with
  | .error k => .park k va .load dst
  | .ok (p, _) => match scaleVa p va with
    | none => .ok
    | some sv => match s.laneXlate t sv .load with
      | .error k => .park k sv .load dst
      | .ok (q, _) => if q.fmt = 0 then .ok else .park 5 sv .load dst

/-- The access uses the translation of a virtual address. -/
def State.keepPage (s : State) (t va : Nat) (p : Option Pte) : State :=
  match p with
  | some p => s.useXlate (some (s.coreOf t)) (s.co (s.coreOf t)).ctx (s.ldieOf t) va p
  | none => s

theorem State.keepPage_caches (h : s.planted = []) (va : Nat) (p : Option Pte) : CachesOnly s (s.keepPage t va p) := by
  cases p with
  | none => exact .refl s
  | some p =>
    rw [State.keepPage, State.useXlate_clean _ _ _ _ _ _ h]
    exact s.tlbFill_caches _ _ _ _ _

section
variable {x : Option Ext} {d a : Operand} {off : BitVec 8}

/-- The state in which `ldsc` leaves the machine when its checks pass, before it retires. -/
def scaleIssued (s : State) (t va : Nat) (dst : List RegRef) : State :=
  ((pushLoad s t (scaleLoad s t va dst)).keepPage t va ((s.laneXlate t va .load).toOption.map Prod.fst)).keepPage t
    (((scaleAt s t va).map Prod.fst).getD 0) ((scaleAt s t va).map fun r => r.2.1)

theorem exec_ldsc {chk : Check} (hl : Lone s t x) (hg : Given s t [d, a] [src a] (regsOf (s.th t) d 1))
    (hc : scaleCheck s t (nVa s t (eaOf s t x a off 1)) (regsOf (s.th t) d 1) = chk) :
    (chk = .ok → exec (.ldsc x d a off) s =
      .next ((scaleIssued s t (nVa s t (eaOf s t x a off 1)) (regsOf (s.th t) d 1)).retire t (extLen x))) ∧
    (∀ k va acc dst, chk = .park k va acc dst → exec (.ldsc x d a off) s = .next (s.parkOwing t (s.faultRec t va k acc) dst)) := by
  have hal : (eaOf s t x a off 1).toNat % 1 = 0 := Nat.mod_one _
  have hchk : ((opCheck s t [d, a] [src a] (regsOf (s.th t) d 1)).andThen
      ((accessCheck s t .n (eaOf s t x a off 1) 1 .load (regsOf (s.th t) d 1)).andThen
        (match s.laneXlate t (nVa s t (eaOf s t x a off 1)) .load with
          | .error _ => .ok
          | .ok (p, _) => match scaleVa p (nVa s t (eaOf s t x a off 1)) with
            | none => .ok
            | some sv => match s.laneXlate t sv .load with
              | .error k => .park k sv .load (regsOf (s.th t) d 1)
              | .ok (q, _) => if q.fmt = 0 then .ok else .park 5 sv .load (regsOf (s.th t) d 1)))) = chk := by
    rw [opCheck_given hg, Check.ok_andThen, ← hc]
    cases hx : s.laneXlate t (nVa s t (eaOf s t x a off 1)) .load with
    | error k =>
      rw [accessCheck_untranslated hal hx]
      simp only [scaleCheck, hx]
      rfl
    | ok r =>
      rw [accessCheck_reaches (at_ := r.2) ⟨hal, by rw [if_pos rfl]; exact ⟨r.1, hx⟩⟩, Check.ok_andThen]
      simp only [scaleCheck, hx]
  refine ⟨fun h => ?_, fun k va acc dst h => ?_⟩
  · exact congrArg Host.Outcome.next (runPlain_lone hl (hchk.trans h))
  · exact congrArg Host.Outcome.next (runPlain_lone_park hl (hchk.trans h))

theorem scaleLoads (s : State) (t : Nat) (x : Option Ext) (d a : Operand) (off : BitVec 8) (hl : Lone s t x)
    (hg : Given s t [d, a] [src a] (regsOf (s.th t) d 1)) (hp : s.planted = [])
    (hc : scaleCheck s t (nVa s t (eaOf s t x a off 1)) (regsOf (s.th t) d 1) = .ok) :
    let dst := regsOf (s.th t) d 1
    let l := scaleLoad s t (nVa s t (eaOf s t x a off 1)) dst
    ∃ u, exec (.ldsc x d a off) s = .next u ∧ (u.th t).loads = (s.th t).loads ++ [l] ∧
      (∀ n, RegRef.v n ∈ dst → n < (s.th t).v.length → u.regFull t (.v n) = false) ∧ (∀ r, u.regVal t r = s.regVal t r) ∧
      (u.th t).pc = ((s.retire t (extLen x)).th t).pc ∧ SameMemory s u ∧ OthersSame s u t ∧ SpecialsSame (u.th t) (s.th t) := by
  intro dst l
  have hpush : (pushLoad s t l).planted = [] := (pushLoad_planted s t l).trans hp
  have hkeep : CachesOnly (pushLoad s t l) (scaleIssued s t (nVa s t (eaOf s t x a off 1)) dst) := by
    have h1 := State.keepPage_caches (t := t) hpush (nVa s t (eaOf s t x a off 1))
      ((s.laneXlate t (nVa s t (eaOf s t x a off 1)) .load).toOption.map Prod.fst)
    exact h1.trans (State.keepPage_caches (h1.planted.trans hpush) _ _)
  obtain ⟨hloads, hempty, -, hframe⟩ := issued_load (len := extLen x) hl.inRange l hkeep
  exact ⟨_, (exec_ldsc hl hg hc).1 rfl, hloads, hempty, hframe⟩

end

theorem scaleLoadsAndPrefetch : Claims.ScaleLoadsAndPrefetch := by
  refine ⟨?_, fun s t x a off hl hr => ?_⟩
  · intro s t x d a off hl hg
    dsimp only
    refine ⟨fun k hk => ?_, fun p pa hx => ⟨fun hf hp => ?_, fun sv hsv => ⟨fun k hk => ?_, fun q at_ hq => ⟨fun hf hp => ?_, fun hf => ?_⟩⟩⟩⟩
    · exact (exec_ldsc hl hg (by simp only [scaleCheck, hk])).2 _ _ _ _ rfl
    · have hnone : scaleVa p (nVa s t (eaOf s t x a off 1)) = none := by rw [scaleVa, if_pos hf]
      have hat : scaleAt s t (nVa s t (eaOf s t x a off 1)) = none := by simp [scaleAt, hx, hnone, Except.toOption]
      obtain ⟨u, hu, hloads, hrest⟩ := scaleLoads s t x d a off hl hg hp (by simp only [scaleCheck, hx, hnone])
      exact ⟨u, _, hu, hloads, by rw [scaleLoad, hat]; rfl, rfl, by rw [scaleLoad, hat]; rfl, rfl, rfl, rfl, rfl, rfl, hrest⟩
    · exact (exec_ldsc hl hg (by simp only [scaleCheck, hx, hsv, hk])).2 _ _ _ _ rfl
    · have hat : scaleAt s t (nVa s t (eaOf s t x a off 1)) = some (sv, q, at_) := by simp [scaleAt, hx, hsv, hq, Except.toOption]
      obtain ⟨u, hu, hloads, hrest⟩ := scaleLoads s t x d a off hl hg hp (by simp only [scaleCheck, hx, hsv, hq, if_pos hf])
      exact ⟨u, _, hu, hloads, by rw [scaleLoad, hat]; rfl, rfl, by rw [scaleLoad, hat]; rfl, rfl, rfl, rfl, rfl, rfl, hrest⟩
    · exact (exec_ldsc hl hg (by simp only [scaleCheck, hx, hsv, hq, if_neg hf])).2 _ _ _ _ rfl
  · refine congrArg Host.Outcome.next (runPlain_lone hl ?_)
    split
    · rfl
    · next hown =>
      have hfull : ∀ r ∈ srcRegs (s.th t) [src a], regWaits s t r = false := by
        intro r hm
        have hmem : r ∈ regsOf (s.th t) a 1 := by simpa [srcRegs, src] using hm
        rcases hr r hmem with h | h
        · simp [regWaits, h]
        · exact absurd (List.any_eq_true.mpr ⟨r, hm, h⟩) hown
      have hnil : (srcRegs (s.th t) [src a] ++ []).filter (regWaits s t) = [] := by
        rw [List.append_nil, List.filter_eq_nil_iff]
        intro r hm
        simp [hfull r hm]
      rw [opWait, hnil]
      rfl

/-- Settles O15: a load, a scale load among them, becomes one pending load (`issued_load`); a prefetch only retires. -/
theorem loadsAreIssued : Obligations.LoadsAreIssued := ⟨loadsIssue, scaleLoadsAndPrefetch⟩

end

end Sys2Proof.Machine
end

section
/-! PROOF. The places that the reference machine's steps write (R50, R51): what a write leaves at its place and elsewhere
(`State.memAt`, `PlaceKept`), and what applying and draining an entry come to; stores, copies and merges (O20) follow. -/

namespace Sys2Proof.Machine

/-! ### The memory at a place -/

/-- The memory that a place is part of. -/
def State.memAt (s : State) : Place → Memory
  | .near d => (s.die d).mem
  | .buf c sp => (s.co c).buf sp

/-- The place is one that the device has. -/
def Place.In (s : State) : Place → Prop
  | .near d => d < s.dies.length
  | .buf c sp => c < s.cores.length ∧ sp ≠ .n

/-- Everything but the memory at the place and the copies of cores is kept, as far as dies and cores go. -/
structure PlaceKept (p : Place) (s u : State) : Prop where
  die : ∀ d, p ≠ .near d → u.die d = s.die d
  dies : (∀ d, p ≠ .near d) → u.dies = s.dies
  buf : ∀ c sp, p ≠ .buf c sp → (u.co c).buf sp = (s.co c).buf sp
  wq : ∀ c, (u.co c).wq = (s.co c).wq
  nt : ∀ c, (u.co c).nt = (s.co c).nt
  diesLength : u.dies.length = s.dies.length
  coresLength : u.cores.length = s.cores.length

namespace PlaceKept

variable {p : Place} {s u v : State}

theorem refl (p : Place) (s : State) : PlaceKept p s s :=
  ⟨fun _ _ => rfl, fun _ => rfl, fun _ _ _ => rfl, fun _ => rfl, fun _ => rfl, rfl, rfl⟩

theorem trans (h : PlaceKept p s u) (k : PlaceKept p u v) : PlaceKept p s v where
  die d hd := (k.die d hd).trans (h.die d hd)
  dies hd := (k.dies hd).trans (h.dies hd)
  buf c sp hc := (k.buf c sp hc).trans (h.buf c sp hc)
  wq c := (k.wq c).trans (h.wq c)
  nt c := (k.nt c).trans (h.nt c)
  diesLength := k.diesLength.trans h.diesLength
  coresLength := k.coresLength.trans h.coresLength

/-- A step that leaves dies and cores alone. -/
theorem of_eq (hd : u.dies = s.dies) (hc : u.cores = s.cores) : PlaceKept p s u := by
  have hco (c : Nat) : u.co c = s.co c := by rw [State.co, State.co, hc]
  exact ⟨fun d _ => by rw [State.die, State.die, hd], fun _ => hd, fun c sp _ => by rw [hco], fun c => by rw [hco], fun c => by rw [hco],
    by rw [hd], by rw [hc]⟩

/-- A change of a core that leaves its buffers and queues alone. -/
theorem of_modCo (s : State) (c : Nat) {f : CoreSt → CoreSt} (hf : ∀ k, (∀ sp, (f k).buf sp = k.buf sp) ∧ (f k).wq = k.wq ∧ (f k).nt = k.nt) :
    PlaceKept p s (s.modCo c f) := by
  have hco (j : Nat) : (∀ sp, ((s.modCo c f).co j).buf sp = (s.co j).buf sp) ∧ ((s.modCo c f).co j).wq = (s.co j).wq ∧
      ((s.modCo c f).co j).nt = (s.co j).nt := by
    rw [State.co_modCo]
    split
    · next h => rw [← h.1]; exact hf _
    · exact ⟨fun _ => rfl, rfl, rfl⟩
  exact ⟨fun _ _ => rfl, fun _ => rfl, fun j sp _ => (hco j).1 sp, fun j => (hco j).2.1, fun j => (hco j).2.2, rfl, by simp⟩

theorem foldl {α : Type} {f : State → α → State} (h : ∀ s x, PlaceKept p s (f s x)) : ∀ (l : List α) (s : State), PlaceKept p s (l.foldl f s)
  | [], s => refl p s
  | x :: l, s => (h s x).trans (foldl h l (f s x))

end PlaceKept

theorem CoreSt.buf_copies (k : CoreSt) (cs : List Copy) (sp : Space) : ({ k with copies := cs } : CoreSt).buf sp = k.buf sp := by
  cases sp <;> rfl

theorem State.discardCopies_kept (p : Place) (s : State) (c : Nat) : PlaceKept p s (s.discardCopies c) :=
  .of_modCo s c fun k => ⟨fun sp => k.buf_copies [] sp, rfl, rfl⟩

theorem State.refreshCopy_kept (p : Place) (s : State) (c d a n : Nat) : PlaceKept p s (s.refreshCopy c d a n) :=
  .of_modCo s c fun k => ⟨fun sp => k.buf_copies _ sp, rfl, rfl⟩

theorem CoreSt.buf_setBuf (k : CoreSt) (sp sq : Space) (m : Memory) (h : sp ≠ .n) :
    (k.setBuf sp m).buf sq = if sq = sp then m else k.buf sq := by
  cases sp with
  | n => exact absurd rfl h
  | _ => cases sq <;> rfl

theorem CoreSt.setBuf_near (k : CoreSt) (m : Memory) : k.setBuf .n m = k := rfl

theorem CoreSt.setBuf_queues (k : CoreSt) (sp : Space) (m : Memory) :
    (k.setBuf sp m).wq = k.wq ∧ (k.setBuf sp m).nt = k.nt ∧ (k.setBuf sp m).copies = k.copies := by cases sp <;> exact ⟨rfl, rfl, rfl⟩

theorem State.die_setNear (s : State) (d a k : Nat) (bs : List Byte) :
    (s.setNear d a bs).die k = if d = k ∧ d < s.dies.length then { s.die d with mem := Memory.write (s.die d).mem a bs } else s.die k := by
  rw [State.setNear_only]
  exact State.die_modDie s d k _

theorem State.co_bufWrite (s : State) (c j : Nat) (sp : Space) (a : Nat) (bs : List Byte) :
    (s.bufWrite c sp a bs).co j =
      if c = j ∧ c < s.cores.length then (s.co c).setBuf sp (Memory.write ((s.co c).buf sp) a bs) else s.co j := by
  rw [State.bufWrite_only]
  exact State.co_modCo s c j _

theorem State.placeWrite_only (s : State) (p : Place) (a : Nat) (bs : List Byte) : s.placeWrite p a bs = { s with
    dies := (s.placeWrite p a bs).dies, cores := (s.placeWrite p a bs).cores
    errinj := (s.placeWrite p a bs).errinj, planted := (s.placeWrite p a bs).planted } := by
  cases p with
  | near d => rw [State.placeWrite, State.setNear_only]
  | buf c sp => rw [State.placeWrite, State.bufWrite_only]

theorem State.placeWrite_kept (s : State) (p : Place) (a : Nat) (bs : List Byte) : PlaceKept p s (s.placeWrite p a bs) := by
  cases p with
  | near d =>
    have hd (k : Nat) (hk : Place.near d ≠ .near k) : (s.setNear d a bs).die k = s.die k := by
      rw [State.die_setNear, if_neg fun h => hk (by rw [h.1])]
    have hc : (s.setNear d a bs).cores = s.cores := by rw [State.setNear_only]
    have hco (c : Nat) : (s.setNear d a bs).co c = s.co c := by rw [State.co, State.co, hc]
    have hl : (s.setNear d a bs).dies.length = s.dies.length := by rw [State.setNear_only]; simp
    exact ⟨hd, fun h => absurd rfl (h d), fun c sp _ => congrArg (CoreSt.buf · sp) (hco c), fun c => congrArg CoreSt.wq (hco c),
      fun c => congrArg CoreSt.nt (hco c), hl, congrArg List.length hc⟩
  | buf c sp =>
    have hd : (s.bufWrite c sp a bs).dies = s.dies := by rw [State.bufWrite_only]
    have hl : (s.bufWrite c sp a bs).cores.length = s.cores.length := by rw [State.bufWrite_only]; simp
    have hq (j : Nat) : ((s.bufWrite c sp a bs).co j).wq = (s.co j).wq ∧ ((s.bufWrite c sp a bs).co j).nt = (s.co j).nt := by
      rw [State.co_bufWrite]
      split
      · next h => rw [← h.1]; exact ⟨((s.co c).setBuf_queues sp _).1, ((s.co c).setBuf_queues sp _).2.1⟩
      · exact ⟨rfl, rfl⟩
    have hb (j : Nat) (sq : Space) (hne : Place.buf c sp ≠ .buf j sq) : ((s.bufWrite c sp a bs).co j).buf sq = (s.co j).buf sq := by
      rw [State.co_bufWrite]
      split
      · next h =>
        obtain ⟨rfl, -⟩ := h
        by_cases hn : sp = .n
        · rw [hn, CoreSt.setBuf_near]
        · rw [CoreSt.buf_setBuf _ _ _ _ hn, if_neg fun h => hne (by rw [h])]
      · rfl
    exact ⟨fun k _ => by rw [State.placeWrite, State.die, State.die, hd], fun _ => hd, hb, fun j => (hq j).1, fun j => (hq j).2,
      congrArg List.length hd, hl⟩

theorem State.memAt_placeWrite {s : State} {p : Place} (h : p.In s) (a : Nat) (bs : List Byte) :
    (s.placeWrite p a bs).memAt p = Memory.write (s.memAt p) a bs := by
  cases p with
  | near d => rw [State.placeWrite, State.memAt, State.die_setNear, if_pos ⟨rfl, h⟩]; rfl
  | buf c sp =>
    rw [State.placeWrite, State.memAt, State.co_bufWrite, if_pos ⟨rfl, h.1⟩, CoreSt.buf_setBuf _ _ _ _ h.2, if_pos rfl]
    rfl

theorem PlaceKept.inside {p : Place} {s u : State} (h : PlaceKept p s u) (hp : p.In s) : p.In u := by
  cases p with
  | near d =>
    have hd : d < s.dies.length := hp
    exact show d < u.dies.length by rw [h.diesLength]; exact hd
  | buf c sp => exact ⟨by rw [h.coresLength]; exact hp.1, hp.2⟩

theorem State.placeRead_eq (s : State) (p : Place) (a n : Nat) : s.placeRead p a n = Memory.read (s.memAt p) a n := by
  cases p <;> rfl

/-! ### Applying and draining -/

theorem State.entryEcc_clean (s : State) (p : Place) (e : Entry) (h : s.planted = []) : s.entryEcc p e = (s, false) := by
  unfold State.entryEcc
  split
  · generalize e.ranges = rs
    induction rs with
    | nil => rfl
    | cons r rs ih =>
      simp only [List.foldl_cons, State.placeEcc_clean _ _ _ _ _ h, Bool.or_false]
      exact ih
  · rfl

/-- The entry's effect, with no error planted: the one of its body. -/
theorem State.execEntry_clean (s : State) (p : Place) (e : Entry) (h : s.planted = []) : s.execEntry p e =
    match e.body with
    | .store bs => s.placeWrite p e.addr bs
    | .atom k ops => s.atomLanes p k e.addr e.seq e.acq ops
    | .red k ops => ops.foldl (fun s o => s.redAt p k o) s
    | .bar _ ops => s.barAt p ops
    | .mark m => s.drainMark e.tid m
    | _ => s := by
  rw [State.execEntry, State.entryEcc_clean s p e h]
  dsimp only
  refine (if_neg (by decide)).trans ?_
  cases e.body <;> rfl

/-- The core without an entry of its write queue. -/
def State.without (s : State) (core i : Nat) : State := s.modCo core fun k => { k with wq := k.wq.eraseIdx i }

section
variable {s : State} {core i : Nat} {e : Entry}

theorem without_wq (h : core < s.cores.length) : ((s.without core i).co core).wq = (s.co core).wq.eraseIdx i := by
  rw [State.without, State.co_modCo_self _ _ _ h]

theorem without_buf (c : Nat) (sp : Space) : ((s.without core i).co c).buf sp = (s.co c).buf sp := by
  rw [State.without, State.co_modCo]
  split
  · next h => rw [← h.1]; cases sp <;> rfl
  · rfl

theorem without_other {c : Nat} (h : c ≠ core) : (s.without core i).co c = s.co c := by
  rw [State.without, State.co_modCo, if_neg fun hc => h hc.1.symm]

theorem without_length : (s.without core i).cores.length = s.cores.length := by simp [State.without]

/-- The oldest A or C entry of its own core applies: it executes at the core's buffer. -/
theorem exec_apply (hi : (s.co core).wq[i]? = some e) (hf : (s.co core).wq.findIdx? Entry.isAC = some i) (hh : e.home = core)
    (hd : e.dieRel = false) (hb : (∀ w, e.body ≠ .push w) ∧ ∀ t k, e.body ≠ .pop t k) :
    exec (.apply core) s = .next ((s.without core i).execEntry (.buf core e.sp) e) := by
  refine congrArg Host.Outcome.next ?_
  dsimp only
  rw [hf]
  have hget : (s.co core).wq.getD i (s.entry 0 .a 0 (.store [])) = e := by rw [List.getD_eq_getElem?_getD, hi]; rfl
  dsimp only
  rw [hget, hd, hh]
  simp only [Bool.false_and, Bool.false_eq_true, if_false, ne_eq, not_true_eq_false]
  split
  · next w hw => exact absurd hw (hb.1 w)
  · next t k hw => exact absurd hw (hb.2 t k)
  · rfl

/-- A core's copies are brought up to date with what its entry wrote. -/
def State.refreshed (s : State) (core : Nat) (e : Entry) : State := e.ranges.foldl (fun s r => s.refreshCopy core e.die r.1 r.2) s

theorem refreshed_kept (p : Place) (s : State) (core : Nat) (e : Entry) : PlaceKept p s (s.refreshed core e) :=
  PlaceKept.foldl (f := fun s r => s.refreshCopy core e.die r.1 r.2) (fun s r => s.refreshCopy_kept p core e.die r.1 r.2) e.ranges s

theorem refreshed_only (s : State) (core : Nat) (e : Entry) : s.refreshed core e = { s with cores := (s.refreshed core e).cores } := by
  unfold State.refreshed
  generalize e.ranges = rs
  induction rs generalizing s with
  | nil => rfl
  | cons r rs ih => rw [List.foldl_cons, ih]; rfl

theorem exec_drain (hi : (s.co core).wq[i]? = some e) (hr : drainReady s core i e = true) :
    exec (.drain core i) s = .next (((s.without core i).execEntry (.near e.die) e).refreshed core e) := by
  refine congrArg Host.Outcome.next ?_
  dsimp only
  rw [hi]
  dsimp only
  rw [if_pos hr]
  rfl

/-! ### Stores (R51) -/

theorem isAC_space (h : e.isAC = true) : e.sp ≠ .n := by
  intro hn
  simp [Entry.isAC, hn] at h

theorem storesReachMemory : Claims.StoresReachMemory := by
  intro s core i e bs hi hb hp hcore
  have hbody : (∀ w, e.body ≠ .push w) ∧ ∀ t k, e.body ≠ .pop t k := by rw [hb]; exact ⟨nofun, nofun⟩
  have hout : (s.without core i).planted = [] := hp
  have hstore (p : Place) : (s.without core i).execEntry p e = (s.without core i).placeWrite p e.addr bs := by
    rw [State.execEntry_clean _ _ _ hout, hb]
  refine ⟨fun hf hh hd hwf => ?_, fun hr hdie hwf => ?_⟩
  · have hsp : e.sp ≠ .n := by
      obtain ⟨hlt, he, -⟩ := List.findIdx?_eq_some_iff_getElem.mp hf
      rw [List.getElem?_eq_getElem hlt] at hi
      exact isAC_space ((Option.some.inj hi) ▸ he)
    have hin : (Place.buf core e.sp).In (s.without core i) := ⟨without_length.symm ▸ hcore, hsp⟩
    have hk := (s.without core i).placeWrite_kept (.buf core e.sp) e.addr bs
    have hm : (((s.without core i).placeWrite (.buf core e.sp) e.addr bs).co core).buf e.sp =
        Memory.write ((s.co core).buf e.sp) e.addr bs := by
      have h := State.memAt_placeWrite hin e.addr bs
      rwa [State.memAt, State.memAt, without_buf] at h
    refine ⟨_, (exec_apply hi hf hh hd hbody).trans (congrArg Host.Outcome.next (hstore _)), (hk.wq core).trans (without_wq hcore),
      fun a => ?_, hk.dies (by nofun), ?_, ?_, fun c hc => ?_⟩
    · rw [hm, Memory.read1_write _ _ _ hwf]
    · rw [State.placeWrite_only]; rfl
    · rw [State.placeWrite_only]; rfl
    · rw [State.placeWrite, State.co_bufWrite, if_neg fun h => hc h.1.symm, without_other hc]
  · have hin : (Place.near e.die).In (s.without core i) := hdie
    have hk := ((s.without core i).placeWrite_kept (.near e.die) e.addr bs).trans
      (refreshed_kept _ ((s.without core i).placeWrite (.near e.die) e.addr bs) core e)
    have hm : ((((s.without core i).placeWrite (.near e.die) e.addr bs).refreshed core e).die e.die).mem =
        Memory.write (s.die e.die).mem e.addr bs := by
      rw [refreshed_only]
      exact State.memAt_placeWrite hin e.addr bs
    have hdrain := exec_drain hi hr
    rw [hstore] at hdrain
    refine ⟨_, hdrain, (hk.wq core).trans (without_wq hcore), fun a => ?_, ?_, ?_, fun d hd => ?_, fun c sp => ?_⟩
    · rw [hm, Memory.read1_write _ _ _ hwf]
    · rw [refreshed_only, State.placeWrite_only]; rfl
    · rw [refreshed_only, State.placeWrite_only]; rfl
    · exact hk.die d fun h => hd (Place.near.inj h).symm
    · exact (hk.buf c sp nofun).trans (without_buf c sp)

theorem nonTemporalDrain : Claims.NonTemporalDrain := by
  intro s core i e bs hi hb hp hcore hdie hwf
  let out := s.modCo core fun k => { k with nt := k.nt.eraseIdx i }
  let v := out.placeWrite (.near e.die) e.addr bs
  have hout : out.planted = [] := hp
  have hin : (Place.near e.die).In out := hdie
  have hk := out.placeWrite_kept (.near e.die) e.addr bs
  have hlen : core < v.cores.length := by
    rw [show v.cores.length = out.cores.length from hk.coresLength]
    simpa [out] using hcore
  have hexec : exec (.ntDrain core i) s = .next (v.modCo core fun k => { k with
      copies := k.copies.filter fun x => ¬(x.die = e.die ∧ x.line = e.addr / 64) }) := by
    refine congrArg Host.Outcome.next ?_
    dsimp only
    rw [hi]
    dsimp only
    rw [show (s.modCo core fun k => { k with nt := k.nt.eraseIdx i }).execEntry (.near e.die) e = v by
      rw [State.execEntry_clean _ _ _ hout, hb]]
  refine ⟨_, hexec, ?_, fun a => ?_, ?_, ?_⟩
  · rw [State.co_modCo_self _ _ _ hlen]
    exact (hk.nt core).trans (by rw [State.co_modCo_self _ _ _ hcore])
  · have hm : (v.die e.die).mem = Memory.write (s.die e.die).mem e.addr bs := State.memAt_placeWrite hin e.addr bs
    rw [(State.modCo_entries v core e.die _).2.2.2.2.2.2, hm, Memory.read1_write _ _ _ hwf]
  · rw [State.co_modCo_self _ _ _ hlen, CoreSt.copyOf, List.find?_eq_none]
    intro c hc h
    have hne := (List.mem_filter.mp hc).2
    rw [decide_eq_true_eq] at hne h
    exact hne h
  · show v.threads = s.threads
    rw [show v = out.placeWrite (.near e.die) e.addr bs from rfl, State.placeWrite_only]
    rfl

/-! ### Copies and merges (R51, R164) -/

theorem sameMemory_of_copies (s : State) (core : Nat) (f : CoreSt → List Copy) :
    SameMemory s (s.modCo core fun k => { k with copies := f k }) := by
  refine ⟨fun _ _ => rfl, fun c sp a => ?_⟩
  rw [State.co_modCo]
  split
  · next h => rw [← h.1, CoreSt.buf_copies]
  · rfl

theorem copyOf_evicted (k : CoreSt) (d l line : Nat) :
    ({ k with copies := k.copies.filter fun x => ¬(x.die = d ∧ x.line = line) } : CoreSt).copyOf d l =
      if l = line then none else k.copyOf d l := by
  rw [CoreSt.copyOf, List.find?_filter]
  split
  · next h =>
    rw [List.find?_eq_none]
    intro c _
    simp only [h]
    by_cases hc : c.die = d ∧ c.line = line <;> simp [hc]
  · next h =>
    refine List.find?_congr fun c _ => ?_
    by_cases hc : c.die = d ∧ c.line = l
    · simp [hc, h]
    · simp [hc]

/-- What waited for the later entry of a merge waits for the joined one. -/
def joinedMark (e f : Entry) (l : List Nat) : List Nat := if l.contains f.seq then e.seq :: l else l

theorem mem_joinedMark {e f : Entry} {l : List Nat} (h : f.seq ∈ l) : e.seq ∈ joinedMark e f l := by
  rw [joinedMark, if_pos (List.contains_iff_mem.mpr h)]
  exact List.mem_cons_self

/-- An operation after a merge. -/
def Op.joined (e f : Entry) (o : Op) : Op :=
  { o with mark := joinedMark e f o.mark, sent := if o.engine = 1 then joinedMark e f o.sent else o.sent }

theorem op_joined (s : State) (e f : Entry) (n : Nat) : ({ s with ops := s.ops.map (Op.joined e f) } : State).op n = (s.op n).joined e f := by
  rw [State.op, State.op, List.getD_eq_getElem?_getD, List.getElem?_map, List.getD_eq_getElem?_getD]
  cases s.ops[n]? <;> rfl

theorem exec_merge {core i j : Nat} {e f : Entry} {k : AtomKind} {ops ops' : List RedPart} (hij : i < j)
    (hi : (s.co core).wq[i]? = some e) (hj : (s.co core).wq[j]? = some f) (he : e.body = .red k ops) (hf : f.body = .red k ops')
    (hok : mergeOk k k e f (((s.co core).wq.take j).drop (i + 1)) ((ops ++ ops').map RedPart.addr) = true) :
    exec (.merge core i j) s = .next
      (let s1 := s.modCo core fun c => { c with wq := mergedQueue c.wq i j f (e.join f (.red k (ops ++ ops'))) }
       { s1 with ops := s1.ops.map (Op.joined e f) }) := by
  refine congrArg Host.Outcome.next ?_
  dsimp only
  rw [hi, hj]
  dsimp only
  rw [he, hf]
  dsimp only
  rw [if_pos (by simpa only [Bool.and_eq_true, decide_eq_true_eq] using ⟨hij, hok⟩)]
  rfl

theorem mergePasses_of {e f : Entry} {between : List Entry} (hb : ∀ g ∈ between, g.bars = false ∧ g.releases = false)
    (hn : f.rel = false → ∀ g ∈ between, g.meets f = false ∧ g.ordered f = false)
    (hr : f.rel = true → ∀ g ∈ between, g.meets e = false ∧ g.ordered e = false ∧ (e.rel = true → g.sp ≠ .n)) :
    mergePasses e f between = true := by
  have h1 : between.any (fun g => g.bars || g.releases) = false := by
    rw [List.any_eq_false]
    intro g hg
    simp [hb g hg]
  rw [mergePasses, h1]
  cases hf : f.rel with
  | false =>
    have h2 : (between.any fun g => g.meets f || g.ordered f) = false := by
      rw [List.any_eq_false]
      intro g hg
      simp [hn hf g hg]
    simp [h2]
  | true =>
    have h2 : (between.any fun g => g.meets e || g.ordered e || (e.rel && g.sp = .n)) = false := by
      rw [List.any_eq_false]
      intro g hg
      obtain ⟨hm, ho, hs⟩ := hr hf g hg
      simpa [hm, ho] using hs
    simp [h2]

theorem copiesAndMerges : Claims.CopiesAndMerges := by
  refine ⟨fun s core line hcore => ⟨fun hmem hp => ?_, ?_⟩, fun s core i j e f k ops ops' hcore hij hi hj he hf hat hline hed hfd hb hn hr => ?_⟩
  · have hexec : exec (.fill core line) s = .next (s.fillLine core (s.pdie (s.co core).ldie) line) := by
      refine congrArg Host.Outcome.next ?_
      dsimp only
      rw [if_pos ⟨hcore, hmem⟩, State.eccGuard_clean _ _ _ _ _ _ hp]
      rfl
    refine ⟨_, hexec, ?_, rfl, rfl, sameMemory_of_copies s core _⟩
    rw [State.fillLine, State.co_modCo_self _ _ _ hcore, CoreSt.copyOf, List.find?_cons_of_pos (by simp)]
    rfl
  · refine ⟨_, rfl, ?_, fun l hl => ?_, rfl, rfl, sameMemory_of_copies s core _⟩
    · rw [State.co_modCo_self _ _ _ hcore, copyOf_evicted, if_pos rfl]
    · rw [State.co_modCo_self _ _ _ hcore, copyOf_evicted, if_neg hl]
  · have hok : mergeOk k k e f (((s.co core).wq.take j).drop (i + 1)) ((ops ++ ops').map RedPart.addr) = true := by
      have hall : ((ops ++ ops').map RedPart.addr).all (fun a => a / 64 == e.addr / 64) = true := by
        rw [List.all_map, List.all_eq_true]
        exact fun o ho => by simpa using hline o ho
      rw [mergeOk, mergePasses_of hb hn hr, hat, hall, hed, hfd]
      simp
    have hop := op_joined (s.modCo core fun c => { c with wq := mergedQueue c.wq i j f (e.join f (.red k (ops ++ ops'))) }) e f
    refine ⟨_, exec_merge hij hi hj he hf hok, ?_, fun n hm => ?_, fun n h1 hm => ?_, fun n => ?_, fun c hc => ?_, rfl, rfl, rfl, ?_⟩
    · show ((s.modCo core _).co core).wq = _
      rw [State.co_modCo_self _ _ _ hcore]
      rfl
    · rw [hop]
      exact mem_joinedMark hm
    · rw [hop]
      show _ ∈ if (s.op n).engine = 1 then _ else _
      rw [if_pos h1]
      exact mem_joinedMark hm
    · rw [hop]
      exact ⟨rfl, rfl⟩
    · show (s.modCo core _).co c = _
      rw [State.co_modCo, if_neg fun h => hc h.1.symm]
    · refine ⟨fun _ _ => rfl, fun c sp a => ?_⟩
      show Memory.read1 (((s.modCo core _).co c).buf sp) a = _
      rw [State.co_modCo]
      split
      · next h => rw [← h.1]; cases sp <;> rfl
      · rfl

/-- Settles O20: the write of an entry's bytes at its place (`memAt_placeWrite`), and the steps that move entries and copies alone. -/
theorem storesReachTheirPlace : Obligations.StoresReachTheirPlace := ⟨storesReachMemory, copiesAndMerges⟩

end

end Sys2Proof.Machine
end

section
/-! PROOF. Atomics and reductions (R161 to R165): the entry that each puts into the FIFO, what an operation makes of memory, and
what an entry does when it executes, its lanes one after another (O17). -/

namespace Sys2Proof.Machine

section
variable {s : State} {t : Nat}

/-! ### Issue (R161, R163) -/

theorem pushLoad_fifo (s : State) (t : Nat) (l : Load) (w : Nat) : ((pushLoad s t l).wp w).fifo = (s.wp w).fifo := by
  have hr := State.markAll_regsOnly t l.dst s fun _ h => h
  show ((s.markAll t l.dst).wp w).fifo = _
  by_cases hw : w = (s.th t).warp
  · obtain ⟨r, hs, -, -⟩ := hr.warp
    rw [hw, hs]
  · rw [hr.otherWarps w hw]

section
variable {x : Option Ext} {f : AtomKind} {a b : Operand} {sp : Space} {xs : List Word}

/-- The slots of an operand whose values exist are those values. -/
theorem slots_now (h : allSlots s t 0 [atomSrc f b] = xs.map Slot.val) : (allSlots s t 0 [atomSrc f b]).map (slotNow s t) = xs := by
  rw [h, List.map_map]
  exact List.map_id' _

theorem missing_vals (xs : List Word) : missing (xs.map Slot.val) = [] := by
  rw [missing, List.filterMap_eq_nil_iff]
  intro sl hs
  obtain ⟨w, -, rfl⟩ := List.mem_map.mp hs
  rfl

theorem atomCheck_given {d : Option Operand} {dst : List RegRef} (hd : (d.map fun d => regsOf (s.th t) d 1).getD [] = dst)
    (hg : Given s t (d.toList ++ [a, b]) [src a, atomSrc f b] dst) (hx : allSlots s t 0 [atomSrc f b] = xs.map Slot.val) (sp : Space) :
    atomCheck sp f d a b s t = accessCheck s t sp (addrReg s t a) (kindBytes f) .atomic dst := by
  rw [atomCheck, hd, opCheck_given hg, Check.ok_andThen, hx, nbrCheck_none (missing_vals xs), Check.ok_andThen]

/-- An atomic reads no face store that an error is planted in. -/
theorem runAtom_lone {once : Bool} {chk : State → Nat → Check} {act : State → Nat → State}
    {fields : List Operand} {dst : List RegRef} (hl : Lone s t x) (hg : Given s t fields [src a, atomSrc f b] dst) :
    runAtom x once chk f b act s = runPlain x once chk act s := by
  refine withReads_lone hl ?_
  rcases hg.quiet with h | h
  · exact .inl h
  · refine .inr (nbrReads_nil (fun g hg => h g ?_) s t)
    rw [List.mem_singleton.mp hg]
    exact List.mem_cons_of_mem _ List.mem_cons_self

/-- Where an atomic's address is bad, it takes its fault. -/
theorem atomic_away {once : Bool} {chk : State → Nat → Check} {act : State → Nat → State} {dst : List RegRef} {run : State}
    (hl : Lone s t x) (hrun : run = runPlain x once chk act s)
    (hc : chk s t = accessCheck s t sp (addrReg s t a) (kindBytes f) .atomic dst) :
    let ea := addrReg s t a
    (ea.toNat % kindBytes f ≠ 0 → run = s.faultTrap t 6 0 (pcAddr ea)) ∧
    (ea.toNat % kindBytes f = 0 → sp = .a → bufSize .a < ea.toNat + kindBytes f → run = s.faultTrap t 7 0 (pcAddr ea)) ∧
    (ea.toNat % kindBytes f = 0 → sp = .n → ∀ k, s.laneXlate t (nVa s t ea) .atomic = .error k →
      run = s.parkOwing t (s.faultRec t (nVa s t ea) k .atomic) dst) := by
  subst hrun
  refine ⟨fun h => ?_, fun h hsp hend => ?_, fun h hsp k hk => ?_⟩
  · exact runPlain_lone_trap hl (hc.trans (accessCheck_misaligned h _))
  · subst hsp
    exact runPlain_lone_trap hl (hc.trans (accessCheck_pastEnd (sp := .a) h nofun hend _))
  · subst hsp
    exact runPlain_lone_park hl (hc.trans (accessCheck_untranslated h hk _))

/-- In a bundle of one lane no earlier lane's entry can be joined. -/
theorem joinAtom_lone (s : State) (t : Nat) (e : Entry) (o : AtomOp) (k : AtomKind) :
    joinAtom s t s.fifoLens e o k = (s.toFifo t { e with body := .atom k [o] }, e.seq) := by
  have hnew : s.newEntries t (s.fifoLens (s.th t).warp) = [] := by
    rw [State.newEntries, State.fifoLens, State.wpOf, List.drop_length]
  unfold joinAtom
  dsimp only
  rw [hnew]
  rfl

/-- The load that stands for an atomic's reply. -/
def replyLoad (s : State) (t : Nat) (x : Option Ext) (sp : Space) (d a : Operand) : Load :=
  { ord := (s.th t).loadCount, kind := .reply s.seq, sp := sp, core := s.coreOf t, die := 0
    addr := (locate s t sp (addrReg s t a) .atomic).1, sz := 4, dst := regsOf (s.th t) d 1, tag := .raw, acq := ordAcq x }

/-- The entry that an atomic of one lane puts into the FIFO. -/
def laneAtom (s : State) (t : Nat) (x : Option Ext) (f : AtomKind) (sp : Space) (d a : Operand) (xs : List Word) : Entry :=
  { atomEntry x sp (locate s t sp (addrReg s t a) .atomic).1 (.atom f []) s t with
    body := .atom f [⟨t, regsOf (s.th t) d 1, xs, (s.th t).loadCount, (s.th t).peerCount⟩] }

theorem atomAct_lone (x : Option Ext) (d a : Operand) (sp : Space) (hx : allSlots s t 0 [atomSrc f b] = xs.map Slot.val) :
    atomAct x sp f d a b s.fifoLens s t =
      ((pushLoad (s.toFifo t (laneAtom s t x f sp d a xs)) t (replyLoad s t x sp d a)).keepXlate t (addrReg s t a)
        (locate s t sp (addrReg s t a) .atomic).2).retire t (extLen x) := by
  rw [atomAct, slots_now hx, joinAtom_lone]
  rfl

/-- The entry that a reduction of one lane puts into the FIFO. -/
def laneRed (s : State) (t : Nat) (x : Option Ext) (f : AtomKind) (sp : Space) (a : Operand) (xs : List Word) : Entry :=
  atomEntry x sp (locate s t sp (addrReg s t a) .atomic).1
    (.red f [⟨(locate s t sp (addrReg s t a) .atomic).1, xs, t, (s.th t).peerCount, relOf s t x && sp == .n, acqOf s t x,
      scopeEff s t (scopeOf x), attrO x⟩]) s t

theorem redAct_lone (x : Option Ext) (a : Operand) (sp : Space) (hx : allSlots s t 0 [atomSrc f b] = xs.map Slot.val) :
    redAct x sp f a b s t = ((s.toFifo t (laneRed s t x f sp a xs)).keepXlate t (addrReg s t a)
      (locate s t sp (addrReg s t a) .atomic).2).retire t (extLen x) := by
  rw [redAct, slots_now hx]
  rfl

/-- What issuing an atomic leaves: its entry in the FIFO, its reply awaited, its destination empty. -/
theorem issued_atom {u : State} {len : Nat} (ht : t < s.threads.length) (hw : (s.th t).warp < s.warps.length) (e : Entry) (l : Load)
    (hc : CachesOnly (pushLoad (s.toFifo t e) t l) u) :
    ((u.retire t len).wp (s.th t).warp).fifo = (s.wp (s.th t).warp).fifo ++ [e] ∧
    ((u.retire t len).th t).loads = (s.th t).loads ++ [l] ∧
    (∀ n, RegRef.v n ∈ l.dst → n < (s.th t).v.length → (u.retire t len).regFull t (.v n) = false) ∧
    (∀ r, (u.retire t len).regVal t r = s.regVal t r) ∧ ((u.retire t len).th t).pc = ((s.retire t len).th t).pc ∧
    SameMemory s (u.retire t len) ∧ OthersSame s (u.retire t len) t ∧ SpecialsSame ((u.retire t len).th t) (s.th t) := by
  obtain ⟨hloads, hempty, -, -⟩ := issued_load (s := s.toFifo t e) (len := len) ht l hc
  refine ⟨?_, hloads, hempty, (((UnderWay.toFifo s t e).trans (pushLoad_underWay _ t l)).trans (.of_caches hc)).retired ht len⟩
  rw [(State.retire_entries u t len _).1, hc.wp, pushLoad_fifo, State.toFifo_fifo s t e hw]

end

theorem atomicsIssue : Claims.AtomicsIssue := by
  intro s t x f d a b sp xs i hl hw hx
  refine ⟨fun hi hg => ?_, fun hi hg => ?_⟩
  · have hchk : atomCheck sp f (some d) a b s t = accessCheck s t sp (addrReg s t a) (kindBytes f) .atomic (regsOf (s.th t) d 1) :=
      atomCheck_given rfl hg hx sp
    have hexec : exec i s = .next (runPlain x d.isS (atomCheck sp f (some d) a b) (atomAct x sp f d a b s.fifoLens) s) := by
      rcases hi with ⟨rfl, rfl⟩ | ⟨rfl, rfl⟩ <;> exact congrArg Host.Outcome.next (runAtom_lone hl hg)
    have haway := atomic_away (act := atomAct x sp f d a b s.fifoLens) (once := d.isS) (a := a) (f := f) hl rfl hchk
    refine ⟨fun at_ hr hp => ?_, fun h => ?_, fun h hsp hend => ?_, fun h hsp k hk => ?_⟩
    · have hrun := runPlain_lone (once := d.isS) (act := atomAct x sp f d a b s.fifoLens) hl (hchk.trans (accessCheck_reaches hr _))
      rw [atomAct_lone x d a sp hx] at hrun
      have hkeep := keepXlate_located (u := pushLoad (s.toFifo t (laneAtom s t x f sp d a xs)) t (replyLoad s t x sp d a))
        (s := s) (ea := addrReg s t a) (acc := .atomic) (fun h => (pushLoad_planted _ t _).trans (hp h)) t (addrReg s t a)
      obtain ⟨hfifo, hloads, hempty, hframe⟩ := issued_atom (len := extLen x) hl.inRange hw _ _ hkeep
      exact ⟨_, _, _, ⟨hexec.trans (congrArg Host.Outcome.next hrun), hfifo, rfl, locate_reaches hr, rfl, rfl, rfl, rfl, hframe⟩, rfl,
        hloads, rfl, rfl, rfl, hempty⟩
    · exact hexec.trans (congrArg Host.Outcome.next (haway.1 h))
    · exact hexec.trans (congrArg Host.Outcome.next (haway.2.1 h hsp hend))
    · exact hexec.trans (congrArg Host.Outcome.next (haway.2.2 h hsp k hk))
  · have hchk : atomCheck sp f none a b s t = accessCheck s t sp (addrReg s t a) (kindBytes f) .atomic [] :=
      atomCheck_given rfl hg hx sp
    have hexec : exec i s = .next (runPlain x false (atomCheck sp f none a b) (redAct x sp f a b) s) := by
      rcases hi with ⟨rfl, rfl⟩ | ⟨rfl, rfl⟩ <;> exact congrArg Host.Outcome.next (runAtom_lone hl hg)
    have haway := atomic_away (act := redAct x sp f a b) (once := false) (a := a) (f := f) hl rfl hchk
    refine ⟨fun at_ hr hp => ?_, fun h => ?_, fun h hsp hend => ?_, fun h hsp k hk => ?_⟩
    · have hrun := runPlain_lone (once := false) (act := redAct x sp f a b) hl (hchk.trans (accessCheck_reaches hr _))
      rw [redAct_lone x a sp hx] at hrun
      have hkeep := keepXlate_located (u := s.toFifo t (laneRed s t x f sp a xs))
        (s := s) (ea := addrReg s t a) (acc := .atomic) hp t (addrReg s t a)
      obtain ⟨hfifo, hfull, hframe⟩ := issued_entry (len := extLen x) hl.inRange hw _ hkeep
      have hat : (locate s t sp (addrReg s t a) .atomic).1 = at_ := locate_reaches hr
      exact ⟨_, _, ⟨hexec.trans (congrArg Host.Outcome.next hrun), hfifo, rfl, hat, rfl, rfl, rfl, rfl, hframe⟩,
        by rw [← hat]; rfl, hfull⟩
    · exact hexec.trans (congrArg Host.Outcome.next (haway.1 h))
    · exact hexec.trans (congrArg Host.Outcome.next (haway.2.1 h hsp hend))
    · exact hexec.trans (congrArg Host.Outcome.next (haway.2.2 h hsp k hk))

/-! ### What an operation makes of memory (R162) -/

theorem toInt_ite_slt (a b c d : Word) : (if a.slt b then c else d).toInt = if a.toInt < b.toInt then c.toInt else d.toInt := by
  simp only [BitVec.slt_eq_decide, decide_eq_true_eq]
  split <;> rfl

theorem minS_toInt (a b : Word) : (minS a b).toInt = min a.toInt b.toInt := by
  rw [minS, toInt_ite_slt]
  split <;> omega

theorem maxS_toInt (a b : Word) : (maxS a b).toInt = max a.toInt b.toInt := by
  rw [maxS, toInt_ite_slt]
  split <;> omega

theorem toNat_ite_ult (a b c d : Word) : (if a.ult b then c else d).toNat = if a.toNat < b.toNat then c.toNat else d.toNat := by
  simp only [BitVec.ult_eq_decide, decide_eq_true_eq]
  split <;> rfl

theorem minU_toNat (a b : Word) : (minU a b).toNat = min a.toNat b.toNat := by
  rw [minU, toNat_ite_ult]
  split <;> omega

theorem maxU_toNat (a b : Word) : (maxU a b).toNat = max a.toNat b.toNat := by
  rw [maxU, toNat_ite_ult]
  split <;> omega

theorem wordsOf_wBytes (w : Word) (ws : List Word) (n : Nat) : wordsOf (n + 1) ((w :: ws).flatMap wBytes) = w :: wordsOf n (ws.flatMap wBytes) := by
  have hl : (wBytes w).length = 4 := wBytes_length w
  rw [List.flatMap_cons, wordsOf, List.take_append_of_le_length (le_of_eq hl.symm), List.drop_append_of_le_length (le_of_eq hl.symm),
    List.take_of_length_le (le_of_eq hl), List.drop_of_length_le (le_of_eq hl), wOf_wBytes]
  rfl

theorem atomicFunctions : Claims.AtomicFunctions := by
  refine ⟨fun m x y => ?_, fun f old xs hf => ?_, fun old a b c => ?_⟩
  · exact ⟨rfl, rfl, rfl, rfl, rfl, minS_toInt m x, maxS_toInt m x, minU_toNat m x, maxU_toNat m x, rfl, rfl, rfl, rfl⟩
  · have h : atomBytes f old xs = wBytes (atomWord f (wOf old) xs) := by
      cases f with
      | mt => exact absurd rfl hf
      | _ => rfl
    rw [h]
    exact ⟨wBytes_length _, wOf_wBytes _⟩
  · show wordsOf 4 (((blendT (tripleAt (wordsOf 3 old) 0) ⟨a, b, c⟩).1.words ++ [0]).flatMap wBytes) = _
    generalize (blendT (tripleAt (wordsOf 3 old) 0) ⟨a, b, c⟩).1 = r
    simp only [Triple.words, List.cons_append, List.nil_append, wordsOf_wBytes]
    rfl

/-! ### Execution (R57, R163, R164) -/

/-- One lane of an atomic entry: the operation, its reply, and what an acquire discards. -/
def State.atomLane (s : State) (p : Place) (k : AtomKind) (a seq : Nat) (acq : Bool) (o : AtomOp) : State :=
  let old := wOf (s.placeRead p a 4)
  let s1 := (s.atomAt p k a o.xs).modTh o.tid fun x => { x with
    loads := x.loads.filter fun l => !(l.kind = .reply seq && l.ord = o.loads) }
  let s2 := s1.fillRegs o.tid o.dst [old] .raw
  if acq then s2.discardCopies (s2.coreOf o.tid) else s2

theorem atomLanes_cons (s : State) (p : Place) (k : AtomKind) (a seq : Nat) (acq : Bool) (o : AtomOp) (os : List AtomOp) :
    s.atomLanes p k a seq acq (o :: os) = (s.atomLane p k a seq acq o).atomLanes p k a seq acq os := by
  cases acq <;> rfl

/-- What one operation makes of the memory at its place. -/
def atomMem (k : AtomKind) (m : Memory) (a : Nat) (xs : List Word) : Memory :=
  Memory.write m a (atomBytes k (Memory.read m a (kindBytes k)) xs)

section
variable {p : Place} {k : AtomKind} {a seq : Nat} {acq : Bool}

theorem atomAt_mem (h : p.In s) (k : AtomKind) (a : Nat) (xs : List Word) : (s.atomAt p k a xs).memAt p = atomMem k (s.memAt p) a xs := by
  rw [State.atomAt, State.memAt_placeWrite h, State.placeRead_eq]
  rfl

theorem atomAt_entries (s : State) (p : Place) (k : AtomKind) (a : Nat) (xs : List Word) :
    (s.atomAt p k a xs).threads = s.threads ∧ (s.atomAt p k a xs).warps = s.warps := by
  rw [State.atomAt, State.placeWrite_only]
  exact ⟨rfl, rfl⟩

theorem discardIf_memAt (acq : Bool) (s : State) (c : Nat) (p : Place) :
    (if acq then s.discardCopies c else s).memAt p = s.memAt p := by
  cases acq with
  | false => rfl
  | true =>
    cases p with
    | near d => rfl
    | buf j sp =>
      show ((s.modCo c _).co j).buf sp = _
      rw [State.co_modCo]
      split
      · next h => rw [← h.1, CoreSt.buf_copies]; rfl
      · rfl

theorem fillRegs_dies_cores (s : State) (t : Nat) (rs : List RegRef) (ws : List Word) (g : Tag) :
    (s.fillRegs t rs ws g).dies = s.dies ∧ (s.fillRegs t rs ws g).cores = s.cores := by
  rw [State.fillRegs_only]
  exact ⟨rfl, rfl⟩

theorem memAt_congr {u : State} (hd : u.dies = s.dies) (hc : u.cores = s.cores) (p : Place) : u.memAt p = s.memAt p := by
  cases p with
  | near d => rw [State.memAt, State.memAt, State.die, State.die, hd]
  | buf c sp => rw [State.memAt, State.memAt, State.co, State.co, hc]

/-- One lane before what its acquire discards. -/
def State.atomReply (s : State) (p : Place) (k : AtomKind) (a seq : Nat) (o : AtomOp) : State :=
  ((s.atomAt p k a o.xs).modTh o.tid fun x => { x with
    loads := x.loads.filter fun l => !(l.kind = .reply seq && l.ord = o.loads) }).fillRegs o.tid o.dst [wOf (s.placeRead p a 4)] .raw

theorem atomLane_eq (s : State) (p : Place) (k : AtomKind) (a seq : Nat) (acq : Bool) (o : AtomOp) : s.atomLane p k a seq acq o =
    if acq then (s.atomReply p k a seq o).discardCopies ((s.atomReply p k a seq o).coreOf o.tid) else s.atomReply p k a seq o := rfl

theorem atomReply_kept (s : State) (p : Place) (k : AtomKind) (a seq : Nat) (o : AtomOp) : PlaceKept p s (s.atomReply p k a seq o) :=
  (s.placeWrite_kept p a _).trans
    (.of_eq (fillRegs_dies_cores _ o.tid o.dst _ .raw).1 (fillRegs_dies_cores _ o.tid o.dst _ .raw).2)

theorem atomLane_kept (s : State) (p : Place) (k : AtomKind) (a seq : Nat) (acq : Bool) (o : AtomOp) :
    PlaceKept p s (s.atomLane p k a seq acq o) := by
  rw [atomLane_eq]
  cases acq with
  | false => exact atomReply_kept s p k a seq o
  | true => exact (atomReply_kept s p k a seq o).trans (State.discardCopies_kept p _ _)

theorem atomLane_mem (h : p.In s) (o : AtomOp) : (s.atomLane p k a seq acq o).memAt p = atomMem k (s.memAt p) a o.xs := by
  rw [atomLane_eq, discardIf_memAt, State.atomReply,
    memAt_congr (fillRegs_dies_cores _ o.tid o.dst _ .raw).1 (fillRegs_dies_cores _ o.tid o.dst _ .raw).2]
  exact (memAt_congr (s := s.atomAt p k a o.xs) rfl rfl p).trans (atomAt_mem h k a o.xs)

theorem atomLane_th (s : State) (p : Place) (k : AtomKind) (a seq : Nat) (acq : Bool) (o : AtomOp) (n : Nat) :
    (s.atomLane p k a seq acq o).th n = (s.atomReply p k a seq o).th n ∧
    (s.atomLane p k a seq acq o).wp n = (s.atomReply p k a seq o).wp n := by
  rw [atomLane_eq]
  cases acq <;> exact ⟨rfl, rfl⟩

/-- The threads and warps that a lane's reply is filled in. -/
theorem atomReply_regs (s : State) (p : Place) (k : AtomKind) (a seq : Nat) (o : AtomOp) :
    RegsOnly (s.modTh o.tid fun x => { x with loads := x.loads.filter fun l => !(l.kind = .reply seq && l.ord = o.loads) })
      (s.atomReply p k a seq o) o.tid o.dst := by
  have hr := State.fillRegs_regsOnly o.tid .raw o.dst [wOf (s.placeRead p a 4)] ((s.atomAt p k a o.xs).modTh o.tid fun x => { x with
    loads := x.loads.filter fun l => !(l.kind = .reply seq && l.ord = o.loads) }) fun _ h => h
  have he := atomAt_entries s p k a o.xs
  have hth (n : Nat) : ((s.atomAt p k a o.xs).modTh o.tid fun x => { x with
      loads := x.loads.filter fun l => !(l.kind = .reply seq && l.ord = o.loads) }).th n =
      (s.modTh o.tid fun x => { x with loads := x.loads.filter fun l => !(l.kind = .reply seq && l.ord = o.loads) }).th n := by
    rw [State.th, State.th]
    simp only [State.modTh, he.1]
  have hwp (n : Nat) : ((s.atomAt p k a o.xs).modTh o.tid fun x => { x with
      loads := x.loads.filter fun l => !(l.kind = .reply seq && l.ord = o.loads) }).wp n =
      (s.modTh o.tid fun x => { x with loads := x.loads.filter fun l => !(l.kind = .reply seq && l.ord = o.loads) }).wp n := by
    rw [State.wp, State.wp]
    simp only [State.modTh, he.2]
  obtain ⟨h1, h2, h3, h4, h5, h6⟩ := hr
  simp only [hth, hwp] at h3 h4 h5 h6
  refine ⟨h1.trans ?_, h2.trans ?_, h3, h4, h5, h6⟩
  · simp only [State.modTh, he.1]
  · simp only [State.modTh, he.2]

theorem atomLane_others (s : State) (p : Place) (k : AtomKind) (a seq : Nat) (acq : Bool) (o : AtomOp) {n : Nat} (hn : n ≠ o.tid) :
    (s.atomLane p k a seq acq o).th n = s.th n := by
  rw [(atomLane_th s p k a seq acq o n).1, (atomReply_regs s p k a seq o).others n hn, State.th_modTh, if_neg fun h => hn h.1.symm]

theorem atomLane_length (s : State) (p : Place) (k : AtomKind) (a seq : Nat) (acq : Bool) (o : AtomOp) :
    (s.atomLane p k a seq acq o).threads.length = s.threads.length := by
  have h : (s.atomLane p k a seq acq o).threads = (s.atomReply p k a seq o).threads := by
    rw [atomLane_eq]
    cases acq <;> rfl
  rw [h, (atomReply_regs s p k a seq o).threads, State.modTh_threads_length]

theorem atomLane_loads {o : AtomOp} (ht : o.tid < s.threads.length) : ((s.atomLane p k a seq acq o).th o.tid).loads =
    (s.th o.tid).loads.filter fun l => !(l.kind = .reply seq && l.ord = o.loads) := by
  obtain ⟨v, hv, -, -⟩ := (atomReply_regs s p k a seq o).self
  rw [(atomLane_th s p k a seq acq o _).1, hv, State.th_modTh_self _ _ _ ht]

/-- The one register that a lane's destination names holds what memory held before its operation. -/
theorem atomLane_reg {o : AtomOp} {r : RegRef} (ht : o.tid < s.threads.length) (hd : o.dst = [r]) (hr : HasReg s o.tid r) :
    (s.atomLane p k a seq acq o).regVal o.tid r = wOf (Memory.read (s.memAt p) a 4) ∧
    (s.atomLane p k a seq acq o).regFull o.tid r = true := by
  have hreg : (s.atomReply p k a seq o).RegIs o.tid r (wOf (s.placeRead p a 4)) .raw := by
    have he := atomAt_entries s p k a o.xs
    have hs1 : HasReg ((s.atomAt p k a o.xs).modTh o.tid fun x => { x with
        loads := x.loads.filter fun l => !(l.kind = .reply seq && l.ord = o.loads) }) o.tid r := by
      have hth : (s.atomAt p k a o.xs).th o.tid = s.th o.tid := by rw [State.th, State.th, he.1]
      cases r with
      | v n =>
        have hn : n < (s.th o.tid).v.length := hr
        simp [HasReg, he.1, hth, ht, hn]
      | s n =>
        obtain ⟨hw, hn⟩ : (s.th o.tid).warp < s.warps.length ∧ n < (s.wp (s.th o.tid).warp).s.length := hr
        have hwp (j : Nat) : (s.atomAt p k a o.xs).wp j = s.wp j := by rw [State.wp, State.wp, he.2]
        simp [HasReg, State.wpOf, he.1, he.2, hth, hwp, ht, hw, hn]
    rw [State.atomReply, hd]
    exact State.fillRegs_regIs .raw (List.nodup_singleton r) (by simp [he.1, ht]) (i := 0) rfl rfl hs1
  obtain ⟨hv, -, hf⟩ := hreg
  rw [State.placeRead_eq] at hv
  have hth := atomLane_th s p k a seq acq o
  cases r <;> simp only [State.regVal, State.regFull, State.wpOf, (hth _).1, (hth _).2] at hv hf ⊢ <;> exact ⟨hv, hf⟩

/-! The lanes of an entry, from the first on. -/

theorem atomLanes_kept (p : Place) (k : AtomKind) (a seq : Nat) (acq : Bool) : ∀ (ops : List AtomOp) (s : State),
    PlaceKept p s (s.atomLanes p k a seq acq ops)
  | [], s => .refl p s
  | o :: os, s => by
    rw [atomLanes_cons]
    exact (atomLane_kept s p k a seq acq o).trans (atomLanes_kept p k a seq acq os _)

theorem atomLanes_mem (k : AtomKind) (a seq : Nat) (acq : Bool) : ∀ (ops : List AtomOp) {s : State}, p.In s →
    (s.atomLanes p k a seq acq ops).memAt p = ops.foldl (fun m o => atomMem k m a o.xs) (s.memAt p)
  | [], _, _ => rfl
  | o :: os, s, h => by
    rw [atomLanes_cons, atomLanes_mem k a seq acq os ((atomLane_kept s p k a seq acq o).inside h), atomLane_mem h, List.foldl_cons]

theorem atomLanes_others (p : Place) (k : AtomKind) (a seq : Nat) (acq : Bool) {t : Nat} : ∀ (ops : List AtomOp) (s : State),
    (∀ o ∈ ops, o.tid ≠ t) → (s.atomLanes p k a seq acq ops).th t = s.th t
  | [], _, _ => rfl
  | o :: os, s, h => by
    rw [atomLanes_cons, atomLanes_others p k a seq acq os _ fun q hq => h q (List.mem_cons_of_mem _ hq),
      atomLane_others s p k a seq acq o (h o List.mem_cons_self).symm]

/-- What a lane of an atomic entry is left with. -/
theorem atomLanes_lane (k : AtomKind) (a seq : Nat) (acq : Bool) : ∀ (ops : List AtomOp) {s : State}, p.In s →
    (ops.map AtomOp.tid).Nodup → (∀ o ∈ ops, o.tid < s.threads.length) → ∀ {j : Nat} {o : AtomOp}, ops[j]? = some o →
    let u := s.atomLanes p k a seq acq ops
    (∀ n, o.dst = [.v n] → n < (s.th o.tid).v.length →
      u.regVal o.tid (.v n) = wOf (Memory.read ((ops.take j).foldl (fun m o => atomMem k m a o.xs) (s.memAt p)) a 4) ∧
      u.regFull o.tid (.v n) = true) ∧
    (u.th o.tid).loads = (s.th o.tid).loads.filter fun l => !(l.kind = .reply seq && l.ord = o.loads)
  | [], _, _, _, _, _, _, h => by simp at h
  | q :: os, s, hin, hnd, ht, j, o, hj => by
    obtain ⟨hnot, hnd⟩ := List.nodup_cons.mp hnd
    have hfirst := atomLane_kept s p k a seq acq q
    dsimp only
    rw [atomLanes_cons]
    cases j with
    | zero =>
      obtain rfl : q = o := Option.some.inj hj
      have hrest : ((s.atomLane p k a seq acq q).atomLanes p k a seq acq os).th q.tid = (s.atomLane p k a seq acq q).th q.tid :=
        atomLanes_others p k a seq acq os _ fun r hr he => hnot (List.mem_map.mpr ⟨r, hr, he⟩)
      have htq := ht q List.mem_cons_self
      refine ⟨fun n hd hn => ?_, by rw [hrest, atomLane_loads htq]⟩
      have hreg := atomLane_reg (p := p) (k := k) (a := a) (seq := seq) (acq := acq) htq hd hn
      simp only [State.regVal, State.regFull] at hreg ⊢
      rw [hrest]
      exact hreg
    | succ j =>
      have hmem : o ∈ os := List.mem_of_getElem? hj
      have hne : o.tid ≠ q.tid := fun he => hnot (he ▸ List.mem_map_of_mem hmem)
      have hth : (s.atomLane p k a seq acq q).th o.tid = s.th o.tid := atomLane_others s p k a seq acq q hne
      have ih := atomLanes_lane k a seq acq os (hfirst.inside hin) hnd
        (fun r hr => by rw [atomLane_length]; exact ht r (List.mem_cons_of_mem _ hr)) (j := j) (o := o) hj
      dsimp only at ih
      rw [hth, atomLane_mem hin] at ih
      exact ih

/-! The operations of a reduction. -/

theorem redAt_kept (s : State) (p : Place) (k : AtomKind) (o : RedPart) : PlaceKept p s (s.redAt p k o) := by
  rw [State.redAt]
  split
  · exact (s.placeWrite_kept p _ _).trans (State.discardCopies_kept p _ _)
  · exact s.placeWrite_kept p _ _

theorem redAt_entries (s : State) (p : Place) (k : AtomKind) (o : RedPart) :
    (s.redAt p k o).threads = s.threads ∧ (s.redAt p k o).warps = s.warps := by
  have h := atomAt_entries s p k o.addr o.xs
  rw [State.redAt]
  split
  · exact h
  · exact h

theorem redAt_mem (h : p.In s) (o : RedPart) : (s.redAt p k o).memAt p = atomMem k (s.memAt p) o.addr o.xs := by
  rw [State.redAt, discardIf_memAt, atomAt_mem h]

theorem reds_kept (p : Place) (k : AtomKind) (ops : List RedPart) (s : State) : PlaceKept p s (ops.foldl (fun s o => s.redAt p k o) s) :=
  PlaceKept.foldl (f := fun s o => s.redAt p k o) (fun s o => redAt_kept s p k o) ops s

theorem reds_entries (p : Place) (k : AtomKind) : ∀ (ops : List RedPart) (s : State),
    (ops.foldl (fun s o => s.redAt p k o) s).threads = s.threads ∧ (ops.foldl (fun s o => s.redAt p k o) s).warps = s.warps
  | [], _ => ⟨rfl, rfl⟩
  | o :: os, s => by
    have h := reds_entries p k os (s.redAt p k o)
    have h1 := redAt_entries s p k o
    exact ⟨h.1.trans h1.1, h.2.trans h1.2⟩

theorem reds_mem (k : AtomKind) : ∀ (ops : List RedPart) {s : State}, p.In s →
    (ops.foldl (fun s o => s.redAt p k o) s).memAt p = ops.foldl (fun m o => atomMem k m o.addr o.xs) (s.memAt p)
  | [], _, _ => rfl
  | o :: os, s, h => by
    rw [List.foldl_cons, reds_mem k os ((redAt_kept s p k o).inside h), redAt_mem h, List.foldl_cons]

/-- A core without copies gets none by a reduction. -/
theorem redAt_copies (s : State) (p : Place) (k : AtomKind) (o : RedPart) {c : Nat} (h : (s.co c).copies = []) :
    ((s.redAt p k o).co c).copies = [] := by
  have hw : ((s.atomAt p k o.addr o.xs).co c).copies = [] := by
    rw [State.atomAt]
    cases p with
    | near d =>
      rw [State.placeWrite, show (s.setNear d _ _).co c = s.co c by rw [State.setNear_only]; rfl, h]
    | buf j sp =>
      rw [State.placeWrite, State.co_bufWrite]
      split
      · next hj => rw [((s.co j).setBuf_queues sp _).2.2, hj.1, h]
      · exact h
  rw [State.redAt]
  split
  · rw [State.discardCopies, State.co_modCo]
    split
    · rfl
    · exact hw
  · exact hw

theorem reds_copies (p : Place) (k : AtomKind) {c : Nat} : ∀ (ops : List RedPart) (s : State), (s.co c).copies = [] →
    ((ops.foldl (fun s o => s.redAt p k o) s).co c).copies = []
  | [], _, h => h
  | o :: os, s, h => reds_copies p k os _ (redAt_copies s p k o h)

theorem refreshed_copies (core : Nat) (e : Entry) (s : State) {c : Nat} (h : (s.co c).copies = []) :
    ((s.refreshed core e).co c).copies = [] := by
  unfold State.refreshed
  generalize e.ranges = rs
  induction rs generalizing s with
  | nil => exact h
  | cons r rs ih =>
    refine ih _ ?_
    dsimp only [State.refreshCopy]
    rw [State.co_modCo]
    split
    · next hc => rw [← hc.1] at h; dsimp only; rw [h]; rfl
    · exact h

theorem discardCopies_none (s : State) (c : Nat) : ((s.discardCopies c).co c).copies = [] := by
  rw [State.discardCopies, State.co_modCo]
  split
  · rfl
  · next h =>
    have hc : s.cores.length ≤ c := Nat.not_lt.mp fun hlt => h ⟨rfl, hlt⟩
    rw [State.co, List.getD_eq_default _ _ hc]
    rfl

/-- The core of an acquiring operation's thread has no copies when the entry has executed. -/
theorem redAt_acquires (s : State) (p : Place) (k : AtomKind) {o : RedPart} (ha : o.acq = true) :
    ((s.redAt p k o).co (s.coreOf o.tid)).copies = [] := by
  have hent := atomAt_entries s p k o.addr o.xs
  have hcore : (s.atomAt p k o.addr o.xs).coreOf o.tid = s.coreOf o.tid := by
    simp only [State.coreOf, State.wpOf, State.th, State.wp, hent.1, hent.2]
  rw [State.redAt, if_pos ha, ← hcore]
  exact discardCopies_none _ _

theorem reds_acquire (p : Place) (k : AtomKind) {ops : List RedPart} (s : State) {o : RedPart} (ho : o ∈ ops) (ha : o.acq = true) :
    ((ops.foldl (fun s o => s.redAt p k o) s).co (s.coreOf o.tid)).copies = [] := by
  induction ops generalizing s with
  | nil => cases ho
  | cons q os ih =>
    have hent := redAt_entries s p k q
    have hcore : (s.redAt p k q).coreOf o.tid = s.coreOf o.tid := by
      simp only [State.coreOf, State.wpOf, State.th, State.wp, hent.1, hent.2]
    rw [List.foldl_cons]
    rcases List.mem_cons.mp ho with rfl | ho
    · exact reds_copies p k os _ (redAt_acquires s p k ha)
    · rw [← hcore]
      exact ih _ ho

/-- What the lanes of an atomic entry are left with: in its destination each the word that memory held just before its own operation. -/
def LanesDone (s u : State) (e : Entry) (k : AtomKind) (ops : List AtomOp) (m : Memory) : Prop :=
  (∀ j o, ops[j]? = some o →
    let old := wOf (Memory.read ((ops.take j).foldl (fun m o => atomMem k m e.addr o.xs) m) e.addr 4)
    (∀ n, o.dst = [.v n] → n < (s.th o.tid).v.length → u.regVal o.tid (.v n) = old ∧ u.regFull o.tid (.v n) = true) ∧
    (∀ n, ops = [o] → o.dst = [.s n] → n < (s.wpOf o.tid).s.length → (s.th o.tid).warp < s.warps.length →
      u.regVal o.tid (.s n) = old ∧ u.regFull o.tid (.s n) = true) ∧
    (u.th o.tid).loads = (s.th o.tid).loads.filter fun l => !(l.kind = .reply e.seq && l.ord = o.loads)) ∧
  ∀ t, (∀ o ∈ ops, o.tid ≠ t) → u.th t = s.th t

theorem lanesDone {p : Place} {k : AtomKind} {e : Entry} {ops : List AtomOp} {u : State} (hin : p.In s)
    (hnd : (ops.map AtomOp.tid).Nodup) (ht : ∀ o ∈ ops, o.tid < s.threads.length)
    (hu : u.threads = (s.atomLanes p k e.addr e.seq e.acq ops).threads ∧ u.warps = (s.atomLanes p k e.addr e.seq e.acq ops).warps) :
    LanesDone s u e k ops (s.memAt p) := by
  have hth (n : Nat) : u.th n = (s.atomLanes p k e.addr e.seq e.acq ops).th n := by rw [State.th, State.th, hu.1]
  have hwp (n : Nat) : u.wp n = (s.atomLanes p k e.addr e.seq e.acq ops).wp n := by rw [State.wp, State.wp, hu.2]
  have hval (n : Nat) (r : RegRef) : u.regVal n r = (s.atomLanes p k e.addr e.seq e.acq ops).regVal n r := by
    cases r <;> simp only [State.regVal, State.wpOf, hth, hwp]
  have hfull (n : Nat) (r : RegRef) : u.regFull n r = (s.atomLanes p k e.addr e.seq e.acq ops).regFull n r := by
    cases r <;> simp only [State.regFull, State.wpOf, hth, hwp]
  refine ⟨fun j o hj => ?_, fun t hn => (hth t).trans (atomLanes_others p k e.addr e.seq e.acq ops s hn)⟩
  obtain ⟨hv, hl⟩ := atomLanes_lane k e.addr e.seq e.acq ops hin hnd ht hj
  refine ⟨fun n hd hn => ?_, fun n hone hd hn hw => ?_, by rw [hth, hl]⟩
  · rw [hval, hfull]
    exact hv n hd hn
  · subst hone
    have hj0 : j = 0 := by
      obtain ⟨h, -⟩ := List.getElem?_eq_some_iff.mp hj
      simpa using h
    subst hj0
    rw [hval, hfull]
    exact atomLane_reg (ht o List.mem_cons_self) hd ⟨hw, hn⟩

theorem atomicsExecute : Claims.AtomicsExecute := by
  intro s core i e k hi hp hcore
  have hout : (s.without core i).planted = [] := hp
  refine ⟨fun hf hsp hh hd => ?_, fun hr hdie => ?_⟩
  · have hin : (Place.buf core .a).In (s.without core i) := ⟨without_length.symm ▸ hcore, nofun⟩
    have hmem : (s.without core i).memAt (.buf core .a) = (s.co core).a := without_buf core .a
    refine ⟨fun ops hb hrmw => ?_, fun ops hb => ?_⟩
    · have hexec := exec_apply hi hf hh hd (by rw [hb]; exact ⟨nofun, nofun⟩)
      rw [hsp, State.execEntry_clean _ _ _ hout, hb] at hexec
      have hk := atomLanes_kept (.buf core .a) k e.addr e.seq e.acq ops (s.without core i)
      refine ⟨_, ⟨hexec, ?_, (hk.wq core).trans (without_wq hcore), hk.dies nofun⟩, ?_⟩
      · exact (atomLanes_mem k e.addr e.seq e.acq ops hin).trans (by rw [hmem]; rfl)
      · have h := lanesDone (e := e) (k := k) hin hrmw.1 hrmw.2 ⟨rfl, rfl⟩
        rw [hmem] at h
        exact h
    · have hexec := exec_apply hi hf hh hd (by rw [hb]; exact ⟨nofun, nofun⟩)
      rw [hsp, State.execEntry_clean _ _ _ hout, hb] at hexec
      have hk := reds_kept (.buf core .a) k ops (s.without core i)
      have hent := reds_entries (.buf core .a) k ops (s.without core i)
      refine ⟨_, ⟨hexec, ?_, (hk.wq core).trans (without_wq hcore), hk.dies nofun⟩, hent.1, hent.2,
        fun o ho ha => reds_acquire (.buf core .a) k (s.without core i) ho ha⟩
      exact (reds_mem k ops hin).trans (by rw [hmem]; rfl)
  · have hin : (Place.near e.die).In (s.without core i) := hdie
    have hfinal (u : State) (hk : PlaceKept (.near e.die) (s.without core i) u) :
        ((u.refreshed core e).co core).wq = (s.co core).wq.eraseIdx i ∧
        (∀ d, d ≠ e.die → (u.refreshed core e).die d = s.die d) ∧ ∀ c sp, ((u.refreshed core e).co c).buf sp = (s.co c).buf sp := by
      have hk2 := hk.trans (refreshed_kept _ u core e)
      exact ⟨(hk2.wq core).trans (without_wq hcore), fun d hd => hk2.die d fun h => hd (Place.near.inj h).symm,
        fun c sp => (hk2.buf c sp nofun).trans (without_buf c sp)⟩
    have hent (u : State) : (u.refreshed core e).threads = u.threads ∧ (u.refreshed core e).warps = u.warps ∧
        (u.refreshed core e).dies = u.dies := by
      rw [refreshed_only]
      exact ⟨rfl, rfl, rfl⟩
    have hmem (u : State) : ((u.refreshed core e).die e.die).mem = u.memAt (.near e.die) := by
      rw [State.die, (hent u).2.2]
      rfl
    refine ⟨fun ops hb hrmw => ?_, fun ops hb => ?_⟩
    · have hexec := exec_drain hi hr
      rw [State.execEntry_clean _ _ _ hout, hb] at hexec
      refine ⟨_, ⟨hexec, ?_, hfinal _ (atomLanes_kept _ k e.addr e.seq e.acq ops _)⟩, ?_⟩
      · exact (hmem _).trans (atomLanes_mem k e.addr e.seq e.acq ops hin)
      · exact lanesDone (e := e) (k := k) hin hrmw.1 hrmw.2 ⟨(hent _).1, (hent _).2.1⟩
    · have hexec := exec_drain hi hr
      rw [State.execEntry_clean _ _ _ hout, hb] at hexec
      have hreds := reds_entries (.near e.die) k ops (s.without core i)
      refine ⟨_, ⟨hexec, (hmem _).trans (reds_mem k ops hin), hfinal _ (reds_kept _ k ops _)⟩, (hent _).1.trans hreds.1,
        (hent _).2.1.trans hreds.2, fun o ho ha => ?_⟩
      exact refreshed_copies core e _ (reds_acquire (.near e.die) k (s.without core i) ho ha)

/-- Settles O17: the entry that a lane issues (`issued_atom`), the word or triple that an operation leaves, and the lanes of an
entry in order (`atomLanes_lane`). -/
theorem atomicOperations : Obligations.AtomicOperations := ⟨atomicsIssue, atomicFunctions, atomicsExecute⟩

end

end

end Sys2Proof.Machine
end

section
/-! PROOF. The store FIFO and the fences (R51, R54, R56 to R58, R159): what leaves a FIFO, what a release waits for, and what a
fence does (O19). -/

namespace Sys2Proof.Machine

/-! ### Leaving the FIFO (R51, R58) -/

section
variable {s : State} {w : Nat} {e : Entry} {rest : List Entry}

/-- The warp's FIFO without its head. -/
def State.afterHead (s : State) (w : Nat) (rest : List Entry) : State := s.modWp w fun x => { x with fifo := rest }

/-- The head of a FIFO whose loads have performed goes where `leaveTo` says, or stays. -/
theorem exec_leaveFifo (hf : (s.wp w).fifo = e :: rest) (hm : (e.lanes s).all (fun x => loadsPerformed s x.1 x.2 e.isStore) = true)
    (hb : ∀ g ops, e.body ≠ .bar g ops) : exec (.leaveFifo w) s = .next ((leaveTo (s.afterHead w rest) e).getD s) := by
  refine congrArg Host.Outcome.next ?_
  rw [hf]
  dsimp only
  split
  · next g ops h => exact absurd h (hb g ops)
  · rw [if_pos (show mayLeave s e = true from hm)]
    rfl

theorem afterHead_warp (s : State) (w j : Nat) (rest : List Entry) : ∃ f, (s.afterHead w rest).wp j = { s.wp j with fifo := f } := by
  rw [State.afterHead, State.wp_modWp]
  split
  · next h => rw [← h.1]; exact ⟨_, rfl⟩
  · exact ⟨_, rfl⟩

theorem afterHead_core (s : State) (w : Nat) (rest : List Entry) (t : Nat) : (s.afterHead w rest).coreOf t = s.coreOf t := by
  obtain ⟨f, hf⟩ := afterHead_warp s w (s.th t).warp rest
  show ((s.afterHead w rest).wp (s.th t).warp).core = _
  rw [hf]
  rfl

/-- A release of the warp for the same buffer that still waits in the issuing core's own queue. -/
theorem behindRelease_iff (hd : e.dieRel = false) : behindRelease s e = true ↔ e.home ≠ s.coreOf e.tid ∧
    ∃ g ∈ (s.co (s.coreOf e.tid)).wq, g.dieRel = true ∧ g.home = e.home ∧ (s.th g.tid).warp = (s.th e.tid).warp := by
  simp [behindRelease, hd, List.any_eq_true, and_assoc]

theorem behindRelease_afterHead (s : State) (w : Nat) (rest : List Entry) (e : Entry) :
    behindRelease (s.afterHead w rest) e = behindRelease s e := by
  unfold behindRelease
  dsimp only
  rw [afterHead_core]
  rfl

theorem leaveTo_store {bs : List Byte} (s : State) (hb : e.body = .store bs) (hd : e.dieRel = false) : leaveTo s e =
    if e.nt then some (s.modCo (s.coreOf e.tid) fun k => { k with nt := k.nt ++ [e] })
    else if (s.co e.home).wq.length < Config.wqDepth ∧ behindRelease s e = false then
      some (s.modCo e.home fun k => { k with wq := k.wq ++ [e] })
    else none := by
  unfold leaveTo
  dsimp only
  have hpool : poolTurn s e = true := by rw [poolTurn, Entry.isPool, hb]; rfl
  rw [hb, hd, hpool]
  simp

theorem enterQueue_stage {i : Nat} (hi : i < s.ops.length) : ((s.enterQueue i).op i).stage = .queued := by
  show ((s.modOp i _).op i).stage = _
  rw [State.op_modOp, if_pos ⟨rfl, hi⟩]

theorem leaveFifo : Claims.LeaveFifo := by
  intro s w e rest hf hm hd
  dsimp only
  refine ⟨fun bs hb => ?_, fun i hb h5 h4 hi => ?_⟩
  · have hexec := exec_leaveFifo hf hm (by rw [hb]; exact nofun)
    rw [leaveTo_store _ hb hd, afterHead_core, behindRelease_afterHead] at hexec
    refine ⟨fun hn => ?_, fun hn hbeh hroom => ?_, fun hn hstay => ?_⟩
    · rw [hn] at hexec
      exact hexec
    · have hb : behindRelease s e = false := Bool.eq_false_iff.mpr fun h => hbeh ((behindRelease_iff hd).mp h)
      rw [hn, if_neg Bool.false_ne_true, if_pos ⟨hroom, hb⟩] at hexec
      exact hexec
    · rw [hn, if_neg Bool.false_ne_true, if_neg] at hexec
      · exact hexec
      · rintro ⟨hroom, hno⟩
        rcases hstay with h | h
        · rw [(behindRelease_iff hd).mpr h] at hno
          cases hno
        · exact h hroom
  · have hexec := exec_leaveFifo hf hm (by rw [hb]; exact nofun)
    have hto : leaveTo (s.afterHead w rest) e = some ((s.afterHead w rest).enterQueue i) := by
      unfold leaveTo
      dsimp only
      rw [hb]
      dsimp only
      exact (if_neg h5).trans (if_neg h4)
    rw [hto] at hexec
    refine ⟨_, hexec, enterQueue_stage hi, fun hw => ?_, fun _ _ => rfl, fun _ _ _ => rfl⟩
    show ((s.afterHead w rest).wp w).fifo = rest
    rw [State.afterHead, State.wp_modWp_self _ _ _ hw]

/-! ### What a release waits for (R51, R54, R57) -/

theorem olderN_iff {wq : List Entry} {i : Nat} : olderN wq i = true ↔ ∃ f ∈ wq.take i, f.sp = .n := by simp [olderN]

theorem isAC_iff {f : Entry} : f.isAC = true ↔ f.sp = .a ∨ f.sp = .c := by simp [Entry.isAC]

/-- An older entry of the queue that an entry for near memory waits for. -/
def DrainBehind (older : List Entry) (e : Entry) : Prop :=
  ∃ f ∈ older, f.releases = true ∨ f.sp = .n ∧ (f.meets e = true ∨ f.ordered e = true)

/-- What holds a release entry back. -/
def DrainHeld (s : State) (older : List Entry) (e : Entry) : Prop :=
  e.rel = true ∧ ((∃ f ∈ older, f.sp = .n) ∨ ∃ x ∈ e.released,
    (2 ≤ x.1.toNat ∧ ∃ f ∈ older, f.sp = .a ∨ f.sp = .c) ∨ (4 ≤ x.1.toNat ∧ peersPending s x.2.1 x.2.2 = true))

theorem drainReady_iff {core i : Nat} (hsp : e.sp = .n) : drainReady s core i e = true ↔
    ¬DrainBehind ((s.co core).wq.take i) e ∧ ¬DrainHeld s ((s.co core).wq.take i) e := by
  have hbehind : ((s.co core).wq.take i).any (fun f => f.releases || (f.sp = .n && (f.meets e || f.ordered e))) = true ↔
      DrainBehind ((s.co core).wq.take i) e := by
    simp only [List.any_eq_true, DrainBehind, Bool.or_eq_true, Bool.and_eq_true, decide_eq_true_eq]
  have hAC : ((s.co core).wq.take i).any Entry.isAC = true ↔ ∃ f ∈ (s.co core).wq.take i, f.sp = .a ∨ f.sp = .c := by
    simp only [List.any_eq_true, isAC_iff]
  have hall : (e.released.all fun x => !(2 ≤ x.1.toNat && ((s.co core).wq.take i).any Entry.isAC) &&
      !(4 ≤ x.1.toNat && peersPending s x.2.1 x.2.2)) = true ↔ ¬∃ x ∈ e.released,
        (2 ≤ x.1.toNat ∧ ∃ f ∈ (s.co core).wq.take i, f.sp = .a ∨ f.sp = .c) ∨
        (4 ≤ x.1.toNat ∧ peersPending s x.2.1 x.2.2 = true) := by
    rw [← hAC]
    rw [← Bool.not_eq_false, not_iff_not, List.all_eq_false]
    refine exists_congr fun x => and_congr_right fun _ => ?_
    rw [← Bool.not_or, Bool.not_eq_true, Bool.not_eq_false', Bool.or_eq_true, Bool.and_eq_true, Bool.and_eq_true, decide_eq_true_eq,
      decide_eq_true_eq]
  unfold drainReady
  dsimp only
  rw [hsp]
  simp only [Bool.and_eq_true, Bool.or_eq_true, Bool.not_eq_true', decide_true, true_and]
  rw [← Bool.not_eq_true, hbehind, hall, ← Bool.not_eq_true (olderN _ _), olderN_iff, DrainHeld]
  cases e.rel <;> simp [not_or]

theorem exec_drain_waits {core i : Nat} (hi : (s.co core).wq[i]? = some e) (hr : drainReady s core i e = false) :
    exec (.drain core i) s = .next s := by
  refine congrArg Host.Outcome.next ?_
  dsimp only
  rw [hi]
  dsimp only
  rw [hr]
  rfl

/-- The peer entry is ready, or it waits for its core's write queue or for what its thread sent to other peers. -/
theorem peerRelReady_iff (pa : BitVec 64) : peerRelReady s e pa = false ↔ e.rel = true ∧ 4 ≤ e.scope.toNat ∧
    ((s.co (s.coreOf e.tid)).wq ≠ [] ∨ ∃ r ∈ s.routes, r.tid = e.tid ∧ r.dst ≠ peerDst pa ∧
      ((∃ p v, r.body = .stx p v) ∨ ∃ p k xs, r.body = .red p k xs)) := by
  unfold peerRelReady
  rw [Bool.or_eq_false_iff, Bool.not_eq_false', Bool.and_eq_true, Bool.and_eq_false_iff, decide_eq_true_eq, and_assoc,
    List.isEmpty_eq_false_iff, List.all_eq_false]
  refine and_congr_right fun _ => and_congr_right fun _ => or_congr_right (exists_congr fun r => and_congr_right fun _ => ?_)
  rw [Bool.not_eq_true, Bool.or_eq_false_iff, Bool.or_eq_false_iff, and_assoc]
  cases r.body <;> simp

theorem execEntry_fenceRel (p : Place) (hp : s.planted = []) (hb : e.body = .mark .fenceRel) : s.execEntry p e = s := by
  rw [State.execEntry_clean _ _ _ hp, hb]
  rfl

theorem releasesWait : Claims.ReleasesWait := by
  refine ⟨fun s core i e hi hsp => ⟨fun h => ?_, fun hb hh hp hcore hbody => ?_⟩, fun s w e rest pa b hf hw hm hbody => ?_⟩
  · refine exec_drain_waits hi (Bool.eq_false_iff.mpr fun hr => ?_)
    obtain ⟨h1, h2⟩ := (drainReady_iff hsp).mp hr
    exact h.elim h1 h2
  · have hexec := exec_drain hi ((drainReady_iff hsp).mpr ⟨hb, hh⟩)
    have hout : (s.without core i).planted = [] := hp
    have hstep : PlaceKept (.near e.die) (s.without core i) ((s.without core i).execEntry (.near e.die) e) ∧
        ((s.without core i).execEntry (.near e.die) e).threads = s.threads := by
      rcases hbody with ⟨bs, hbs⟩ | hbs
      · rw [State.execEntry_clean _ _ _ hout, hbs]
        refine ⟨State.placeWrite_kept _ _ _ _, ?_⟩
        show ((s.without core i).placeWrite _ _ _).threads = _
        rw [State.placeWrite_only]
        rfl
      · rw [execEntry_fenceRel _ hout hbs]
        exact ⟨.refl _ _, rfl⟩
    refine ⟨_, hexec, ?_, ?_⟩
    · exact ((hstep.1.trans (refreshed_kept _ _ core e)).wq core).trans (without_wq hcore)
    · rw [refreshed_only]
      exact hstep.2
  · have hbar : ∀ g ops, e.body ≠ .bar g ops := by
      rcases hbody with ⟨v, h, -⟩ | ⟨k, xs, h, -⟩ <;> rw [h] <;> exact nofun
    have hexec := exec_leaveFifo hf hm hbar
    have hready : peerRelReady (s.afterHead w rest) e pa = peerRelReady s e pa := by
      unfold peerRelReady
      rw [afterHead_core]
      rfl
    have hto : ∃ sched, leaveTo (s.afterHead w rest) e = if peerRelReady s e pa then
        some ((s.afterHead w rest).pushRoute { (s.afterHead w rest).mkRoute (.core ((s.afterHead w rest).coreOf e.tid)) (peerDst pa) b
          ((s.afterHead w rest).ctxIdOf e.tid) e.tid with
          peer := e.peers, launch := (s.afterHead w rest).launchOf e.tid, rel := e.rel, scope := e.scope, sched := sched }) else none := by
      rw [← hready]
      rcases hbody with ⟨v, h, rfl⟩ | ⟨k, xs, h, rfl⟩
      · exact ⟨schedOf (s.afterHead w rest) e.tid, by unfold leaveTo; dsimp only; rw [h]⟩
      · exact ⟨false, by unfold leaveTo; dsimp only; rw [h]⟩
    obtain ⟨sched, hto⟩ := hto
    rw [hto] at hexec
    refine ⟨fun hwait => ?_, fun hgo => ?_⟩
    · rw [(peerRelReady_iff pa).mpr hwait] at hexec
      exact hexec
    · have hr : peerRelReady s e pa = true := by
        rw [← Bool.not_eq_false]
        exact fun h => hgo ((peerRelReady_iff pa).mp h)
      rw [hr] at hexec
      refine ⟨_, _, hexec, ?_, rfl, rfl, rfl, rfl, rfl, rfl, fun _ _ => rfl, fun _ _ _ => rfl⟩
      show ((s.afterHead w rest).wp w).fifo = rest
      rw [State.afterHead, State.wp_modWp_self _ _ _ hw]

/-! ### Fences (R56) -/

section
variable {t : Nat} {x : Option Ext}

theorem setStatus_state (st : Status) (ht : t < s.threads.length) (hl : s.live t = true) : ((s.setStatus t st).th t).status = st :=
  State.setStatus_status ht hl st

theorem fence_check (h : (ordAcq x && !ordRel x && !loadsDone s t) = false) :
    (if ordAcq x && !ordRel x && !loadsDone s t then Check.wait .retry else .ok) = .ok := by rw [h]; rfl

theorem acqOf_eq (h : ordAcq x = true) : acqOf s t x = scopeActs s t (scopeOf x) := by rw [acqOf, h, Bool.true_and]

/-- The marker that a fence with release puts into the FIFO. -/
def fenceMark (s : State) (t : Nat) (x : Option Ext) (m : Marker) : Entry :=
  { s.entry t .n 0 (.mark m) with rel := relOf s t x, scope := scopeEff s t (scopeOf x), bars := ordRel x }

theorem fences : Claims.Fences := by
  intro s t x hl
  refine ⟨fun ha hr => ⟨fun hld => ?_, fun hld => ?_⟩, fun hr ha hf => ?_, fun hr hf hw => ?_, fun hw => ?_, fun hw => ?_⟩
  · refine congrArg Host.Outcome.next (runPlain_lone_wait hl (if_pos ?_))
    simp [ha, hr, loadsDone, hld]
  · refine congrArg Host.Outcome.next ((runPlain_lone hl (if_neg ?_)).trans ?_)
    · simp [loadsDone, hld]
    · dsimp only
      rw [acqOf_eq ha, hr, ha]
      simp only [Bool.false_and, Bool.false_eq_true, if_false, ite_self]
  · refine congrArg Host.Outcome.next ((runPlain_lone hl (if_neg ?_)).trans ?_)
    · simp [hr]
    · dsimp only
      rw [hf, acqOf_eq ha]
      rfl
  · let m : Marker := if ordAcq x then .fenceAcqRel else .fenceRel
    let e := fenceMark s t x m
    have hrun (act : State → Nat → State) : runPlain x false
        (fun s t => if ordAcq x && !ordRel x && !loadsDone s t then .wait .retry else .ok) act s = act s t :=
      runPlain_lone hl (if_neg (by simp [hr]))
    have hmem : SameMemory s (s.toFifo t e) := (UnderWay.toFifo s t e).memory
    have hfifo := s.toFifo_fifo t e hw
    have hrel : relOf s t x = scopeActs s t (scopeOf x) := by rw [relOf, hr, Bool.true_and]
    have hexec : exec (.fence x) s = .next (if ordAcq x then (s.toFifo t e).setStatus t (.blocked (.entry (extLen x)))
        else (s.toFifo t e).retire t (extLen x)) := by
      refine congrArg Host.Outcome.next ((hrun _).trans ?_)
      dsimp only
      rw [hf, hr]
      cases ha : ordAcq x with
      | false => simp [e, m, ha, fenceMark, hr]
      | true => simp [e, m, ha, fenceMark, hr]
    refine ⟨_, e, hexec, ?_, rfl, hrel, ?_, ?_, fun n hn => ?_⟩
    · cases ordAcq x <;> exact hfifo
    · cases ordAcq x with
      | true => exact setStatus_state _ hl.inRange hl.live
      | false =>
        show (((s.toFifo t e).retire t (extLen x)).th t).status = .ready
        rw [State.th_retire, if_pos ⟨rfl, hl.inRange⟩]
        have hne : (s.th t).status ≠ .exited := by simpa [State.live] using hl.live
        show ((s.th t).status.to .ready) = .ready
        rw [Status.to, if_neg hne]
    · cases ordAcq x <;> exact hmem
    · cases ordAcq x with
      | true => exact (s.toFifo t e).setStatus_others t _ n hn
      | false => exact State.th_retire_other _ _ _ _ hn
  · refine congrArg Host.Outcome.next (runPlain_lone hl (if_neg ?_))
    rw [hw]
    exact Bool.false_ne_true
  · exact congrArg Host.Outcome.next (runPlain_lone_wait hl (if_pos hw))

/-- Settles O19: what leaves a FIFO (`leaveTo`), what holds a release (`drainReady_iff`, `peerRelReady_iff`), the fences, and the
drain of a non-temporal store. -/
theorem fifoAndFences : Obligations.FifoAndFences := ⟨leaveFifo, releasesWait, fences, nonTemporalDrain⟩

end

end

end Sys2Proof.Machine
end

section
/-! PROOF. How a load takes its value (R50, R52, R55, R156, R282, R292): the source of each byte, the words that the bytes make, and
what finishing leaves (O21). -/

namespace Sys2Proof.Machine

/-! ### The newest entry for a byte (R52) -/

section
variable {e : Entry} {es own wq : List Entry} {sp : Space} {die a : Nat}

/-- The entry's operation touches the byte. -/
def Entry.Covers (e : Entry) (sp : Space) (die a : Nat) : Prop := e.at_ sp die = true ∧ ∃ r ∈ e.ranges, r.1 ≤ a ∧ a < r.1 + r.2

/-- The entry is the newest of a queue that touches the byte. -/
def NewestOf (es : List Entry) (sp : Space) (die a : Nat) (e : Entry) : Prop :=
  ∃ old new, es = old ++ e :: new ∧ e.Covers sp die a ∧ ∀ g ∈ new, ¬g.Covers sp die a

theorem covers_iff : (e.at_ sp die && e.ranges.any (inRange a)) = true ↔ e.Covers sp die a := by
  simp [Entry.Covers, inRange]

theorem seen_none (h : ¬e.Covers sp die a) : e.seen sp die a = .none := if_neg fun hc => h (covers_iff.mp hc)

theorem seen_store {bs : List Byte} (h : e.Covers sp die a) (hb : e.body = .store bs) :
    e.seen sp die a = .byte (bs.getD (a - e.addr) 0) := by
  rw [Entry.seen, if_pos (covers_iff.mpr h), hb]

theorem seen_wait (h : e.Covers sp die a) (hb : ∀ bs, e.body ≠ .store bs) : e.seen sp die a = .wait := by
  rw [Entry.seen, if_pos (covers_iff.mpr h)]
  split
  · next bs hbs => exact absurd hbs (hb bs)
  · rfl

theorem seen_ne_none (h : e.Covers sp die a) : e.seen sp die a ≠ .none := by
  by_cases hb : ∃ bs, e.body = .store bs
  · obtain ⟨bs, hb⟩ := hb
    rw [seen_store h hb]
    nofun
  · rw [seen_wait h fun bs hbs => hb ⟨bs, hbs⟩]
    nofun

theorem newest_append (es fs : List Entry) (sp : Space) (die a : Nat) : newest (es ++ fs) sp die a =
    fs.foldl (fun acc e => match e.seen sp die a with | .none => acc | x => x) (newest es sp die a) := by
  rw [newest, List.foldl_append]
  rfl

/-- Entries that do not touch the byte leave what was seen. -/
theorem foldl_seen_uncovered (acc : Seen) (h : ∀ g ∈ es, ¬g.Covers sp die a) :
    es.foldl (fun acc e => match e.seen sp die a with | .none => acc | x => x) acc = acc := by
  induction es generalizing acc with
  | nil => rfl
  | cons g es ih =>
    rw [List.foldl_cons, seen_none (h g List.mem_cons_self)]
    exact ih acc fun k hk => h k (List.mem_cons_of_mem _ hk)

theorem newest_uncovered (h : ∀ g ∈ es, ¬g.Covers sp die a) : newest es sp die a = .none := foldl_seen_uncovered .none h

theorem newest_of (h : NewestOf es sp die a e) : newest es sp die a = e.seen sp die a := by
  obtain ⟨old, new, rfl, hc, hn⟩ := h
  rw [newest_append, List.foldl_cons, foldl_seen_uncovered _ hn]
  split
  · next h => exact absurd h (seen_ne_none hc)
  · rfl

/-- Either no entry touches the byte, or one is the newest that does. -/
theorem newest_cases (es : List Entry) (sp : Space) (die a : Nat) : (∀ g ∈ es, ¬g.Covers sp die a) ∨ ∃ e, NewestOf es sp die a e := by
  induction es with
  | nil => exact .inl fun g hg => absurd hg List.not_mem_nil
  | cons g es ih =>
    rcases ih with h | ⟨e, old, new, hes, hc, hn⟩
    · by_cases hg : g.Covers sp die a
      · exact .inr ⟨g, [], es, rfl, hg, h⟩
      · exact .inl fun k hk => (List.mem_cons.mp hk).elim (fun hk => hk ▸ hg) (h k)
    · exact .inr ⟨e, g :: old, new, congrArg (g :: ·) hes, hc, hn⟩

/-- The entry that a load takes its byte from: of its own FIFO, else of the write queue. -/
def SourceOf (own wq : List Entry) (sp : Space) (die a : Nat) (e : Entry) : Prop :=
  NewestOf own sp die a e ∨ (∀ g ∈ own, ¬g.Covers sp die a) ∧ NewestOf wq sp die a e

theorem NewestOf.covers (h : NewestOf es sp die a e) : e.Covers sp die a := by
  obtain ⟨_, _, _, hc, -⟩ := h
  exact hc

theorem SourceOf.covers (h : SourceOf own wq sp die a e) : e.Covers sp die a := h.elim NewestOf.covers fun h => h.2.covers

theorem viewByte_source (h : SourceOf own wq sp die a e) : viewByte own wq sp die a = e.seen sp die a := by
  rcases h with h | ⟨hn, h⟩
  · rw [viewByte, newest_of h]
    split
    · next hs => exact absurd hs (seen_ne_none h.covers)
    · rfl
  · rw [viewByte, newest_uncovered hn]
    exact newest_of h

theorem viewByte_uncovered (h : ∀ g ∈ own ++ wq, ¬g.Covers sp die a) : viewByte own wq sp die a = .none := by
  rw [viewByte, newest_uncovered fun g hg => h g (List.mem_append_left _ hg)]
  exact newest_uncovered fun g hg => h g (List.mem_append_right _ hg)

theorem source_cases (own wq : List Entry) (sp : Space) (die a : Nat) :
    (∀ g ∈ own ++ wq, ¬g.Covers sp die a) ∨ ∃ e, SourceOf own wq sp die a e := by
  rcases newest_cases own sp die a with h1 | ⟨e, h⟩
  · rcases newest_cases wq sp die a with h2 | ⟨e, h⟩
    · exact .inl fun g hg => (List.mem_append.mp hg).elim (h1 g) (h2 g)
    · exact .inr ⟨e, .inr ⟨h1, h⟩⟩
  · exact .inr ⟨e, .inl h⟩

/-- A byte waits for the entry that it would come from, when that is no store. -/
theorem viewByte_wait_iff : viewByte own wq sp die a = .wait ↔ ∃ e, SourceOf own wq sp die a e ∧ ∀ bs, e.body ≠ .store bs := by
  refine ⟨fun h => ?_, fun ⟨e, he, hb⟩ => (viewByte_source he).trans (seen_wait he.covers hb)⟩
  rcases source_cases own wq sp die a with hn | ⟨e, he⟩
  · rw [viewByte_uncovered hn] at h
    cases h
  · refine ⟨e, he, fun bs hb => ?_⟩
    rw [viewByte_source he, seen_store he.covers hb] at h
    cases h

/-! ### The bytes of a view -/

theorem viewBytes_none_iff {base : List Byte} : viewBytes own wq sp die a base = none ↔
    ∃ i < base.length, viewByte own wq sp die (a + i) = .wait := by
  unfold viewBytes
  dsimp only
  split
  · next h =>
    refine ⟨fun _ => ?_, fun _ => rfl⟩
    obtain ⟨i, hi, hw⟩ := List.mem_map.mp (List.contains_iff_mem.mp h)
    exact ⟨i, List.mem_range.mp hi, hw⟩
  · next h =>
    refine ⟨nofun, fun ⟨i, hi, hw⟩ => absurd (List.contains_iff_mem.mpr ?_) h⟩
    exact List.mem_map.mpr ⟨i, List.mem_range.mpr hi, hw⟩

/-- The byte that is seen, or the one underneath. -/
def Seen.over (x : Seen) (b : Byte) : Byte :=
  match x with
  | .byte c => c
  | _ => b

theorem Seen.over_byte (c b : Byte) : (Seen.byte c).over b = c := rfl
theorem Seen.over_none (b : Byte) : Seen.none.over b = b := rfl

theorem viewBytes_eq (own wq : List Entry) (sp : Space) (die a : Nat) (base : List Byte) : viewBytes own wq sp die a base =
    if ((List.range base.length).map fun i => viewByte own wq sp die (a + i)).contains .wait then none
    else some ((((List.range base.length).map fun i => viewByte own wq sp die (a + i)).zip base).map fun x => x.1.over x.2) := rfl

theorem viewBytes_some {base v : List Byte} (h : viewBytes own wq sp die a base = some v) : v.length = base.length ∧
    ∀ i < base.length, v.getD i 0 = (viewByte own wq sp die (a + i)).over (base.getD i 0) := by
  rw [viewBytes_eq] at h
  split at h
  · cases h
  · obtain rfl := Option.some.inj h
    refine ⟨by simp, fun i hi => ?_⟩
    simp only [List.getD_eq_getElem?_getD, List.getElem?_map, List.zip, List.getElem?_zipWith,
      List.getElem?_range hi, List.getElem?_eq_getElem hi, Option.map_some, Option.getD_some]

end

theorem loadSources : Claims.LoadSources := by
  intro s t l base
  refine ⟨fun e bs hb => ?_, fun v hv => ?_, ?_⟩
  · rw [List.mem_filter, beforeLoad, hb]
    simp
  · obtain ⟨hlen, hget⟩ := viewBytes_some hv
    refine ⟨hlen, fun i hi => ⟨fun e bs he hb => ?_, fun hn => ?_⟩⟩
    · have hs : SourceOf ((s.wpOf t).fifo.filter (beforeLoad t l)) (s.queuedFor (s.coreOf t) l.core) l.sp l.die (l.addr + i) e := he
      rw [hget i hi, viewByte_source hs, seen_store hs.covers hb, Seen.over_byte]
    · rw [hget i hi, viewByte_uncovered (own := (s.wpOf t).fifo.filter (beforeLoad t l)) hn, Seen.over_none]
  · refine viewBytes_none_iff.trans ⟨fun ⟨i, hi, hw⟩ => ?_, fun ⟨i, e, hi, he, hb⟩ => ⟨i, hi, viewByte_wait_iff.mpr ⟨e, he, hb⟩⟩⟩
    obtain ⟨e, he, hb⟩ := viewByte_wait_iff.mp hw
    exact ⟨i, e, hi, he, hb⟩

/-! ### The words of a load (R156) -/

theorem append_byte_toNat {n : Nat} (x : BitVec n) (b : Byte) : (x ++ b).toNat = b.toNat + 256 * x.toNat := by
  rw [BitVec.toNat_append, ← Nat.shiftLeft_add_eq_or_of_lt b.isLt, Nat.shiftLeft_eq]
  omega

theorem leNat_one (b : Byte) : leNat [b] = b.toNat := by simp [leNat]

theorem leNat_two (b c : Byte) : leNat [b, c] = (c ++ b).toNat := by
  rw [append_byte_toNat, leNat, leNat_one]

theorem leNat_four (b c d e : Byte) : leNat [b, c, d, e] = (e ++ d ++ c ++ b).toNat := by
  simp only [append_byte_toNat, leNat]
  omega

theorem wordsOf_append {bs : List Byte} (h : bs.length = 4) (n : Nat) (cs : List Byte) :
    wordsOf (n + 1) (bs ++ cs) = wOf bs :: wordsOf n cs := by
  rw [wordsOf, List.take_append_of_le_length (le_of_eq h.symm), List.drop_append_of_le_length (le_of_eq h.symm),
    List.take_of_length_le (le_of_eq h), List.drop_of_length_le (le_of_eq h)]
  rfl

theorem wordsOf_last {bs : List Byte} (h : bs.length = 4) : wordsOf 1 bs = [wOf bs] := by
  rw [wordsOf, List.take_of_length_le (le_of_eq h)]
  rfl

theorem loadExtension : Claims.LoadExtension := by
  intro b0 b1 b2 b3 lo hi hlo hhi
  refine ⟨?_, ?_, ?_, ?_, ?_, ?_, ?_⟩
  · show [wOf [b0]] = _
    rw [wOf, leNat_one, BitVec.ofNat_toNat]
  · show [(BitVec.ofNat 8 (leNat [b0])).signExtend 32] = _
    rw [leNat_one, BitVec.ofNat_toNat, BitVec.setWidth_eq]
  · show [wOf [b0, b1]] = _
    rw [wOf, leNat_two, BitVec.ofNat_toNat]
  · show [(BitVec.ofNat 16 (leNat [b0, b1])).signExtend 32] = _
    rw [leNat_two, BitVec.ofNat_toNat, BitVec.setWidth_eq]
  · show [wOf [b0, b1, b2, b3]] = _
    rw [wOf, leNat_four, BitVec.ofNat_toNat, BitVec.setWidth_eq]
  · show wordsOf 2 (lo ++ hi) = _
    rw [wordsOf_append hlo, wordsOf_last hhi]
  · show wordsOf 4 (lo ++ hi ++ lo ++ hi) = _
    rw [List.append_assoc, List.append_assoc, wordsOf_append hlo, wordsOf_append hhi, wordsOf_append hlo, wordsOf_last hhi]

/-! ### Finishing a load -/

section
variable {s : State} {t : Nat} {l : Load} {ws : List Word}

/-- The load without what its acquire discards. -/
def loadFilled (s : State) (t : Nat) (l : Load) (ws : List Word) : State :=
  (s.modTh t fun x => { x with loads := x.loads.filter fun p => p.ord ≠ l.ord, lastLoad := s.tick }).fillRegs t l.dst ws l.tag

theorem finishLoad_eq (s : State) (t : Nat) (l : Load) (ws : List Word) :
    finishLoad s t l ws = if l.acq then (loadFilled s t l ws).discardCopies ((loadFilled s t l ws).coreOf t) else loadFilled s t l ws := rfl

theorem finishLoad_entries (s : State) (t : Nat) (l : Load) (ws : List Word) :
    (finishLoad s t l ws).threads = (loadFilled s t l ws).threads ∧ (finishLoad s t l ws).warps = (loadFilled s t l ws).warps ∧
    (finishLoad s t l ws).dies = s.dies := by
  have hd : (loadFilled s t l ws).dies = s.dies := (fillRegs_dies_cores _ t l.dst ws l.tag).1
  rw [finishLoad_eq]
  split
  · exact ⟨rfl, rfl, hd⟩
  · exact ⟨rfl, rfl, hd⟩

theorem finishLoad_sameMemory (s : State) (t : Nat) (l : Load) (ws : List Word) : SameMemory s (finishLoad s t l ws) := by
  have hc : (loadFilled s t l ws).cores = s.cores := (fillRegs_dies_cores _ t l.dst ws l.tag).2
  have hd := (finishLoad_entries s t l ws).2.2
  refine ⟨fun d a => by rw [State.die, State.die, hd], fun c sp a => ?_⟩
  rw [finishLoad_eq]
  split
  · rw [((State.discardCopies_kept (.near 0) (loadFilled s t l ws) _).buf c sp nofun), State.co, State.co, hc]
  · rw [State.co, State.co, hc]

theorem loadFilled_regs (s : State) (t : Nat) (l : Load) (ws : List Word) : RegsOnly
    (s.modTh t fun x => { x with loads := x.loads.filter fun p => p.ord ≠ l.ord, lastLoad := s.tick }) (loadFilled s t l ws) t l.dst :=
  State.fillRegs_regsOnly t l.tag l.dst ws _ fun _ h => h

theorem finishLoad_othersSame (s : State) (t : Nat) (l : Load) (ws : List Word) : OthersSame s (finishLoad s t l ws) t := by
  intro n hn
  rw [State.th, (finishLoad_entries s t l ws).1]
  exact ((loadFilled_regs s t l ws).others n hn).trans ((State.th_modTh _ _ _ _).trans (if_neg fun h => hn h.1.symm))

/-- The thread after its load: the load is gone, and of the rest only v registers may have changed. -/
theorem finishLoad_thread (ht : t < s.threads.length) (l : Load) (ws : List Word) : ∃ v, (finishLoad s t l ws).th t =
    { s.th t with v := v, loads := (s.th t).loads.filter fun p => p.ord ≠ l.ord, lastLoad := s.tick } := by
  obtain ⟨v, hv, -, -⟩ := (loadFilled_regs s t l ws).self
  rw [State.th_modTh_self _ _ _ ht] at hv
  refine ⟨v, ?_⟩
  rw [State.th, (finishLoad_entries s t l ws).1]
  exact hv

theorem loadedValue : Claims.LoadedValue := by
  intro s t n l w ht hn hd
  have he := finishLoad_entries s t l [w]
  have hth (k : Nat) : (finishLoad s t l [w]).th k = (loadFilled s t l [w]).th k := by rw [State.th, State.th, he.1]
  have hreg : (loadFilled s t l [w]).RegIs t (.v n) w l.tag := by
    rw [loadFilled, hd]
    exact State.fillRegs_regIs l.tag (List.nodup_singleton _) (by simpa using ht) (i := 0) rfl rfl (by simpa [HasReg, ht] using hn)
  obtain ⟨hv, hg, hf⟩ := hreg
  obtain ⟨v, hself⟩ := finishLoad_thread ht l [w]
  refine ⟨?_, ?_, ?_, fun k hk => ?_, by rw [hself], finishLoad_sameMemory s t l [w], finishLoad_othersSame s t l [w]⟩
  · simp only [State.regVal, hth] at hv ⊢
    exact hv
  · simp only [State.regTag, hth] at hg ⊢
    exact hg
  · simp only [State.regFull, hth] at hf ⊢
    exact hf
  · have hk' : RegRef.v k ∉ l.dst := by simp [hd, hk]
    have h := ((loadFilled_regs s t l [w]).reads hk').1
    simp only [State.regVal, hth] at h ⊢
    rw [h, State.th_modTh_self _ _ _ ht]

/-! ### Performing (R52) -/

theorem exec_perform_buffer {b : Bool} {bs : List Byte} (hf : firstLoad (s.th t) = some l) (hh : loadHeld (s.th t) l = false)
    (hk : l.kind = .mem false) (hsp : l.sp ≠ .n) (hp : s.planted = [])
    (hv : loadView s t l (s.bufRead l.core l.sp l.addr (szBytes l.sz)) = some bs) :
    exec (.perform t b) s = .next (finishLoad s t l (loadWords l.sz bs)) := by
  refine congrArg Host.Outcome.next ?_
  dsimp only
  rw [hf]
  dsimp only
  rw [hh, if_neg Bool.false_ne_true, if_neg (by rw [hk]; nofun)]
  split
  · next h => exact absurd h hsp
  · rw [hv]
    dsimp only
    rw [State.placeEcc_clean _ _ _ _ _ hp, ite_self]
    rfl

theorem exec_perform_near {b : Bool} {bs : List Byte} {u : State} (hf : firstLoad (s.th t) = some l) (hh : loadHeld (s.th t) l = false)
    (hk : l.kind = .mem false) (hsp : l.sp = .n) (hn : s.nearLoad t l b = .ok u bs) :
    exec (.perform t b) s = .next (finishLoad u t l (loadWords l.sz bs)) := by
  refine congrArg Host.Outcome.next ?_
  dsimp only
  rw [hf]
  dsimp only
  rw [hh, if_neg Bool.false_ne_true, if_neg (by rw [hk]; nofun)]
  split
  · rw [hn]
  · next h => exact absurd hsp (by simpa using h)

/-- Reading near memory itself: nothing changes but the core's copy of the line. -/
theorem nearLoad_memory {bs : List Byte} (hp : s.planted = [])
    (hv : loadView s t l (s.near l.die l.addr (szBytes l.sz)) = some bs) :
    ∃ u, s.nearLoad t l false = .ok u bs ∧ (u = s ∨ u = s.fillLine l.core l.die (l.addr / 64)) := by
  have hcp : ((s.co l.core).copyOf l.die (l.addr / 64)).filter (fun c => false && copyServes (s.th t) l.acq c) = none := by
    cases (s.co l.core).copyOf l.die (l.addr / 64) <;> rfl
  unfold State.nearLoad
  dsimp only
  rw [hcp]
  dsimp only
  rw [hv]
  dsimp only
  split
  · exact ⟨s, rfl, .inl rfl⟩
  · rw [State.eccGuard_clean _ _ _ _ _ _ hp]
    exact ⟨_, rfl, .inr rfl⟩

/-- A copy that may serve the load gives its bytes, and nothing changes. -/
theorem nearLoad_copy {bs : List Byte} {c : Copy} (hc : (s.co l.core).copyOf l.die (l.addr / 64) = some c)
    (hs : copyServes (s.th t) l.acq c = true) (hv : loadView s t l ((c.bytes.drop (l.addr % 64)).take (szBytes l.sz)) = some bs) :
    s.nearLoad t l true = .ok s bs := by
  have hcp : ((s.co l.core).copyOf l.die (l.addr / 64)).filter (fun c => true && copyServes (s.th t) l.acq c) = some c := by
    rw [hc, Option.filter_some, Bool.true_and, hs, if_pos rfl]
  unfold State.nearLoad
  dsimp only
  rw [hcp]
  dsimp only
  rw [hv]
  rfl

/-- Registers are filled alike whatever the cores hold. -/
theorem fillRegs_cores (t : Nat) (g : Tag) (cs : List CoreSt) : ∀ (rs : List RegRef) (ws : List Word) (s : State),
    ({ s with cores := cs } : State).fillRegs t rs ws g = { s.fillRegs t rs ws g with cores := cs }
  | [], _, s => by simp [State.fillRegs]
  | _ :: _, [], s => by simp [State.fillRegs]
  | r :: rs, w :: ws, s => by
    rw [State.fillRegs, State.fillRegs]
    have h : ({ s with cores := cs } : State).fillReg t r w g = { s.fillReg t r w g with cores := cs } := by cases r <;> rfl
    rw [h, fillRegs_cores t g cs rs ws]

theorem loadFilled_fillLine (s : State) (t : Nat) (l : Load) (ws : List Word) (c d line : Nat) :
    loadFilled (s.fillLine c d line) t l ws = { loadFilled s t l ws with cores := (s.fillLine c d line).cores } :=
  fillRegs_cores t l.tag (s.fillLine c d line).cores l.dst ws
    (s.modTh t fun x => { x with loads := x.loads.filter fun p => p.ord ≠ l.ord, lastLoad := s.tick })

theorem finishLoad_fillLine_regVal (s : State) (t : Nat) (l : Load) (ws : List Word) (c d line n : Nat) (r : RegRef) :
    (finishLoad (s.fillLine c d line) t l ws).regVal n r = (finishLoad s t l ws).regVal n r := by
  have h1 := finishLoad_entries (s.fillLine c d line) t l ws
  have h2 := finishLoad_entries s t l ws
  rw [loadFilled_fillLine] at h1
  have ht : (finishLoad (s.fillLine c d line) t l ws).threads = (finishLoad s t l ws).threads := h1.1.trans h2.1.symm
  have hw : (finishLoad (s.fillLine c d line) t l ws).warps = (finishLoad s t l ws).warps := h1.2.1.trans h2.2.1.symm
  cases r <;> simp only [State.regVal, State.wpOf, State.th, State.wp, ht, hw]

theorem fillLine_sameMemory (s : State) (c d line : Nat) : SameMemory s (s.fillLine c d line) := sameMemory_of_copies s c _

theorem loadsPerform : Claims.LoadsPerform :=
  fun _ _ _ _ _ _ hf hh hk hsp hp hv => exec_perform_buffer hf hh hk hsp hp hv

theorem nearLoadsPerform : Claims.NearLoadsPerform := by
  intro s t l bs ht hf hh hk hsp hp
  refine ⟨fun hv => ?_, fun c hc hs ha hv => ?_⟩
  · obtain ⟨u, hu, hcase⟩ := nearLoad_memory hp hv
    refine ⟨_, exec_perform_near hf hh hk hsp hu, ?_⟩
    have htu : t < u.threads.length := by rcases hcase with rfl | rfl <;> exact ht
    obtain ⟨v, hself⟩ := finishLoad_thread htu l (loadWords l.sz bs)
    have hmem := finishLoad_sameMemory u t l (loadWords l.sz bs)
    have hoth := finishLoad_othersSame u t l (loadWords l.sz bs)
    rcases hcase with rfl | rfl
    · exact ⟨fun _ => rfl, by rw [hself], hmem, hoth⟩
    · have hfill := fillLine_sameMemory s l.core l.die (l.addr / 64)
      exact ⟨fun n => finishLoad_fillLine_regVal s t l _ _ _ _ t n, by rw [hself]; rfl,
        ⟨fun d a => (hmem.1 d a).trans (hfill.1 d a), fun c sp a => (hmem.2 c sp a).trans (hfill.2 c sp a)⟩, hoth⟩
  · have hserves : copyServes (s.th t) l.acq c = true := by
      have h1 : (decide ((s.th t).depth = 0) || decide ((s.th t).lastLoad < c.tick)) = true := by simpa using hs
      have h2 : (l.acq && c.passed) = false := Bool.eq_false_iff.mpr fun h => ha (by simpa using h)
      rw [copyServes, h1, h2]
      rfl
    exact exec_perform_near hf hh hk hsp (nearLoad_copy hc hserves hv)

end

/-- Settles O21: the source of each byte (`source_cases`), the words of the bytes, and the registers that they fill
(`finishLoad_thread`). -/
theorem loadsTakeTheirValues : Obligations.LoadsTakeTheirValues :=
  ⟨loadsPerform, nearLoadsPerform, loadSources, loadExtension, loadedValue⟩

end Sys2Proof.Machine
end

section
/-! PROOF. Barrier instructions (R109 to R111): the entry that each puts into the FIFO, what it does to the object when it executes,
and how a thread looks at PHASE (O24). -/

namespace Sys2Proof.Machine

/-- The space that a barrier object is in. -/
def barSpace (nsp : Bool) : Space := if nsp then .n else .a

section
variable {s : State} {t : Nat} {x : Option Ext} {nsp : Bool} {a : Operand} {more : List Operand} {acc : Access} {at_ : Nat}

/-! ### Issue -/

theorem barCheck_given {fields : List Operand} (hg : Given s t fields (fields.map fun o => src o) []) (nsp : Bool) (a : Operand)
    (acc : Access) : barCheck nsp fields a acc s t = accessCheck s t (barSpace nsp) (addrReg s t a) 16 acc := by
  rw [barCheck, opCheck_given hg, Check.ok_andThen]
  rfl

/-- The faults of an object's address, whatever is checked after it. -/
theorem barCheck_away {fields : List Operand} (hg : Given s t fields (fields.map fun o => src o) []) (more : Check) :
    let ea := addrReg s t a
    let c := (barCheck nsp fields a acc s t).andThen more
    (ea.toNat % 16 ≠ 0 → c = .trap 6 0 (pcAddr ea)) ∧
    (ea.toNat % 16 = 0 → nsp = false → bufSize .a < ea.toNat + 16 → c = .trap 7 0 (pcAddr ea)) ∧
    (ea.toNat % 16 = 0 → nsp = true → ∀ k, s.laneXlate t (nVa s t ea) acc = .error k → c = .park k (nVa s t ea) acc []) := by
  have hc := barCheck_given hg nsp a acc
  dsimp only
  rw [hc]
  refine ⟨fun h => ?_, fun h hn hend => ?_, fun h hn k hk => ?_⟩
  · rw [accessCheck_misaligned h]
    rfl
  · subst hn
    rw [show barSpace false = .a from rfl, accessCheck_pastEnd (sp := .a) h nofun hend]
    rfl
  · subst hn
    rw [show barSpace true = .n from rfl, accessCheck_untranslated h hk]
    rfl

/-- What an instruction does where an object's address is bad. -/
def BarAway (s : State) (t : Nat) (nsp : Bool) (ea : Word) (acc : Access) (run : Host.Outcome State Fault Refusal) : Prop :=
  (ea.toNat % 16 ≠ 0 → run = .next (s.faultTrap t 6 0 (pcAddr ea))) ∧
  (ea.toNat % 16 = 0 → nsp = false → bufSize .a < ea.toNat + 16 → run = .next (s.faultTrap t 7 0 (pcAddr ea))) ∧
  (ea.toNat % 16 = 0 → nsp = true → ∀ k, s.laneXlate t (nVa s t ea) acc = .error k →
    run = .next (s.parkOwing t (s.faultRec t (nVa s t ea) k acc) []))

theorem runPlain_barAway {chk more : State → Nat → Check} {act : State → Nat → State} {fields : List Operand} (hl : Lone s t x)
    (hg : Given s t fields (fields.map fun o => src o) []) (hc : chk s t = (barCheck nsp fields a acc s t).andThen (more s t)) :
    BarAway s t nsp (addrReg s t a) acc (.next (runPlain x false chk act s)) := by
  obtain ⟨h1, h2, h3⟩ := barCheck_away (a := a) (nsp := nsp) (acc := acc) hg (more s t)
  exact ⟨fun h => congrArg _ (runPlain_lone_trap hl (hc.trans (h1 h))),
    fun h hn hend => congrArg _ (runPlain_lone_trap hl (hc.trans (h2 h hn hend))),
    fun h hn k hk => congrArg _ (runPlain_lone_park hl (hc.trans (h3 h hn k hk)))⟩

theorem runBar_away {chk : State → Nat → Check} {kind : State → Nat → BarKind} {rel : Bool} (hl : Lone s t x)
    (hg : Given s t (a :: more) ((a :: more).map fun o => src o) []) :
    BarAway s t nsp (addrReg s t a) acc (runBar x nsp a more acc chk kind rel s) := runPlain_barAway hl hg rfl

/-- The entry that a lane's barrier operation puts into the FIFO. -/
def barEntry (s : State) (t : Nat) (nsp : Bool) (a : Operand) (acc : Access) (k : BarKind) (rel : Bool) : Entry :=
  let at_ := (locate s t (barSpace nsp) (addrReg s t a) acc).1
  { s.entry t (barSpace nsp) at_ (.bar s.seq [(t, at_, k)]) with
    rel := rel && nsp, scope := if rel && nsp then 2 else 0, bars := rel, dieRel := rel && !nsp && s.isPair t }

/-- In a bundle of one lane no earlier lane has begun the bundle's entry. -/
theorem joinBar_lone (s : State) (t from_ : Nat) (e : Entry) (k : BarKind) :
    joinBar s t from_ s.fifoLens e k = s.toFifo t { e with body := .bar from_ [(t, e.addr, k)] } := by
  have hnew : s.newEntries t (s.fifoLens (s.th t).warp) = [] := by
    rw [State.newEntries, State.fifoLens, State.wpOf, List.drop_length]
  unfold joinBar
  dsimp only
  rw [hnew]
  rfl

theorem barPage_eq (s : State) (t : Nat) (nsp : Bool) (ea : Word) (acc : Access) :
    (if nsp then (locate s t (barSpace nsp) ea acc).2 else none) = (locate s t (barSpace nsp) ea acc).2 := by
  cases nsp <;> rfl

/-- The access stays under way while its thread waits. -/
theorem UnderWay.waits {u : State} (h : UnderWay s u t) (ht : t < s.threads.length) (hl : s.live t = true) (st : Status) :
    ((u.setStatus t st).th t).status = st ∧ ((u.setStatus t st).th t).pc = (s.th t).pc ∧
    (∀ r, (u.setStatus t st).regVal t r = s.regVal t r) ∧ SameMemory s (u.setStatus t st) ∧ OthersSame s (u.setStatus t st) t ∧
    SpecialsSame ((u.setStatus t st).th t) (s.th t) := by
  have hu : t < u.threads.length := by rw [h.threads]; exact ht
  have hlu : u.live t = true := by rw [State.live, h.status]; exact hl
  have hth : (u.setStatus t st).th t = { u.th t with status := (u.th t).status.to st } := State.th_modTh_self _ _ _ hu
  refine ⟨State.setStatus_status hu hlu st, ?_, fun r => ?_, h.memory, fun n hn => ?_, ?_⟩
  · rw [hth]
    exact h.pc
  · rw [← h.values r]
    cases r <;> simp only [State.regVal, State.wpOf, hth] <;> rfl
  · exact (u.setStatus_others t st n hn).trans (h.others n hn)
  · rw [hth]
    exact h.specials

/-- A barrier operation whose address is good puts its entry into the FIFO, and the thread waits for it. -/
theorem barIssued {chk : State → Nat → Check} {kind : State → Nat → BarKind} {rel : Bool} (hl : Lone s t x)
    (hw : (s.th t).warp < s.warps.length) (hg : Given s t (a :: more) ((a :: more).map fun o => src o) []) (hc : chk s t = .ok)
    (hr : Reaches s t (barSpace nsp) (addrReg s t a) 16 .store at_) (hp : nsp = true → s.planted = []) :
    ∃ u e, runBar x nsp a more .store chk kind rel s = .next u ∧
      (u.wp (s.th t).warp).fifo = (s.wp (s.th t).warp).fifo ++ [e] ∧ e.body = .bar s.seq [(t, at_, kind s t)] ∧ e.sp = barSpace nsp ∧
      e.addr = at_ ∧ e.rel = (rel && nsp) ∧ (rel = true → nsp = true → e.scope = 2) ∧
      e.dieRel = (rel && !nsp && s.isPair t) ∧ (u.th t).status = .blocked (.entry (extLen x)) ∧ (u.th t).pc = (s.th t).pc ∧
      (∀ r, u.regVal t r = s.regVal t r ∧ u.regFull t r = s.regFull t r) ∧ SameMemory s u ∧ OthersSame s u t ∧
      SpecialsSame (u.th t) (s.th t) := by
  have hat : (locate s t (barSpace nsp) (addrReg s t a) .store).1 = at_ := locate_reaches hr
  let e := barEntry s t nsp a .store (kind s t) rel
  let v := (s.toFifo t e).keepXlate t (addrReg s t a) (locate s t (barSpace nsp) (addrReg s t a) .store).2
  have hkeep : CachesOnly (s.toFifo t e) v := by
    refine keepXlate_located (u := s.toFifo t e) (fun h => hp ?_) t (addrReg s t a)
    cases nsp with
    | true => rfl
    | false => cases h
  have hrun : runBar x nsp a more .store chk kind rel s = .next (v.setStatus t (.blocked (.entry (extLen x)))) := by
    refine congrArg Host.Outcome.next ((runPlain_lone hl ?_).trans ?_)
    · rw [barCheck_given hg, accessCheck_reaches hr, hc]
      rfl
    · dsimp only
      rw [joinBar_lone]
      show State.setStatus (State.keepXlate _ t _ (if nsp then (locate s t (barSpace nsp) (addrReg s t a) .store).2 else none)) _ _ = _
      rw [barPage_eq]
      rfl
  obtain ⟨hst, hpc, hval, hmem, hoth, hsp⟩ := ((UnderWay.toFifo s t e).trans (.of_caches hkeep)).waits hl.inRange hl.live
    (.blocked (.entry (extLen x)))
  have hfull (r : RegRef) : (v.setStatus t (.blocked (.entry (extLen x)))).regFull t r = s.regFull t r := by
    have h1 := (issued_entry (len := 0) hl.inRange hw e hkeep).2.1 r
    rw [(State.retire_regs v t 0 t r).2.2] at h1
    rw [← h1]
    have hu : t < v.threads.length := by rw [hkeep.threads]; exact hl.inRange
    cases r <;> simp only [State.regFull, State.wpOf, State.setStatus, State.th_modTh_self _ _ _ hu] <;> rfl
  have hfifo : ((v.setStatus t (.blocked (.entry (extLen x)))).wp (s.th t).warp).fifo = (s.wp (s.th t).warp).fifo ++ [e] :=
    (congrArg Warp.fifo (hkeep.wp _)).trans (s.toFifo_fifo t e hw)
  refine ⟨_, e, hrun, hfifo, by rw [← hat]; rfl, rfl, hat, rfl, fun hr hn => ?_, rfl, hst, hpc, fun r => ⟨hval r, hfull r⟩, hmem, hoth, hsp⟩
  show (if rel && nsp then (2 : BitVec 3) else 0) = 2
  rw [hr, hn]
  rfl

theorem barrierIssue : Claims.BarrierIssue := by
  intro s t x nsp a b hl hw
  refine ⟨fun hg => ?_, fun hg => ?_⟩
  · refine ⟨fun hn at_ hr hp => ?_, fun hn hr => ?_, fun at_ hr hp => ?_, runBar_away hl hg, runBar_away hl hg⟩
    · exact barIssued hl hw hg (if_pos hn) hr hp
    · obtain ⟨at_, hr⟩ := hr
      refine congrArg Host.Outcome.next (runPlain_lone_trap hl ?_)
      dsimp only
      rw [barCheck_given hg, accessCheck_reaches (sp := barSpace nsp) hr, Check.ok_andThen]
      exact if_neg hn
    · exact barIssued hl hw hg rfl hr hp
  · exact ⟨fun at_ hr hp => barIssued hl hw hg rfl hr hp, runBar_away hl hg⟩

/-! ### Execution (R110) -/

section
variable {p : Place} {k : BarKind} {o : BarObj} {len at_ : Nat}

theorem barBytes_length (old : List Byte) (h : old.length = 16) (k : BarKind) (o : BarObj) : (barBytes old k o).length = 16 := by
  cases k <;> simp [barBytes, BarObj.toBytes, wBytes_length, h]

theorem placeWrite_th (s : State) (p : Place) (a : Nat) (bs : List Byte) (n : Nat) : (s.placeWrite p a bs).th n = s.th n := by
  rw [State.placeWrite_only]
  rfl

/-- One lane's operation that succeeds: the object has its new value, and the thread goes on. -/
theorem barAt_ok (h : (BarObj.of (Memory.read (s.memAt p) at_ 16)).apply k = some o) (ht : (s.th t).status = .blocked (.entry len)) :
    s.barAt p [(t, at_, k)] = (s.placeWrite p at_ (barBytes (Memory.read (s.memAt p) at_ 16) k o)).retire t len := by
  have hfold : s.barFold p [(t, at_, k)] = (s.placeWrite p at_ (barBytes (Memory.read (s.memAt p) at_ 16) k o), []) := by
    rw [State.barFold]
    dsimp only
    rw [State.placeRead_eq, h]
    rfl
  unfold State.barAt
  rw [hfold]
  exact entryDone_blocked ((congrArg Thread.status (placeWrite_th s p at_ _ t)).trans ht)

/-- The place is in near memory. -/
def Place.isNear : Place → Bool
  | .near _ => true
  | .buf _ _ => false

/-- One that fails: the thread takes the barrier fault, and nothing else changes. -/
theorem barAt_fault (h : (BarObj.of (Memory.read (s.memAt p) at_ 16)).apply k = none) (ht : (s.th t).status = .blocked (.entry len)) :
    s.barAt p [(t, at_, k)] =
      s.faultTrap t 8 (barCode p.isNear k) (pcAddr (s.th t).pc) := by
  have hfold : s.barFold p [(t, at_, k)] = (s, [(t, at_, k)]) := by
    rw [State.barFold]
    dsimp only
    rw [State.placeRead_eq, h]
    rfl
  unfold State.barAt
  rw [hfold]
  simp only [List.isEmpty_cons, Bool.false_eq_true, if_false, List.foldl_cons, List.foldl_nil, ht, Bool.not_true, List.contains_cons,
    BEq.rfl, Bool.true_or, if_true]
  cases p <;> rfl

/-- A good operation at its place. -/
theorem barAt_object {i : Nat} (hin : p.In s) (hwf : Memory.wf (s.memAt p) = true)
    (h : (BarObj.of (Memory.read (s.memAt p) at_ 16)).apply k = some o) (ht : (s.th t).status = .blocked (.entry len)) :
    let u := s.barAt p [(t, at_, k)]
    u.th t = Thread.advance len (s.th t) ∧ Memory.read (u.memAt p) at_ 16 = barBytes (Memory.read (s.memAt p) at_ 16) k o ∧
    (∀ x, x < at_ ∨ at_ + 16 ≤ x → Memory.read1 (u.memAt p) x = Memory.read1 (s.memAt p) x) ∧ OthersSame s u t := by
  have hlen := barBytes_length (Memory.read (s.memAt p) at_ 16) (Memory.read_length _ _ _) k o
  dsimp only
  rw [barAt_ok h ht]
  generalize barBytes (Memory.read (s.memAt p) at_ 16) k o = bs at hlen ⊢
  have hmem : ((s.placeWrite p at_ bs).retire t len).memAt p = Memory.write (s.memAt p) at_ bs :=
    (memAt_congr (s := s.placeWrite p at_ bs) rfl rfl p).trans (State.memAt_placeWrite hin at_ bs)
  have hin' : t < (s.placeWrite p at_ bs).threads.length := by
    rw [show (s.placeWrite p at_ bs).threads = s.threads by rw [State.placeWrite_only]]
    exact inRange_of_blocked ht
  refine ⟨?_, ?_, fun x hx => ?_, fun n hn => ?_⟩
  · rw [State.th_retire, if_pos ⟨rfl, hin'⟩, placeWrite_th]
  · rw [hmem]
    exact (congrArg (Memory.read _ at_) hlen.symm).trans (Memory.read_write_self bs at_ hwf)
  · rw [hmem, Memory.read1_write _ _ _ hwf, if_neg (by omega)]
  · rw [State.th_retire_other _ _ _ _ hn, placeWrite_th]

theorem barrierApplies : Claims.BarrierApplies := by
  intro s core i t len g e k hi hb hp hcore ht
  have hout : (s.without core i).planted = [] := hp
  have hbar (p : Place) : (s.without core i).execEntry p e = (s.without core i).barAt p [(t, e.addr, k)] := by
    rw [State.execEntry_clean _ _ _ hout, hb]
  refine ⟨fun hf hsp hh hd => ?_, fun hr hdie => ?_⟩
  · have hexec := exec_apply hi hf hh hd (by rw [hb]; exact ⟨nofun, nofun⟩)
    rw [hsp, hbar] at hexec
    have hmem : (s.without core i).memAt (.buf core .a) = (s.co core).a := without_buf core .a
    intro hwf
    rw [← hmem] at hwf ⊢
    refine ⟨fun o ho => ⟨_, hexec, ?_⟩, fun hn => ?_⟩
    · exact barAt_object (i := i) ⟨without_length.symm ▸ hcore, nofun⟩ hwf ho ht
    · exact hexec.trans (congrArg Host.Outcome.next (barAt_fault hn ht))
  · have hexec := exec_drain hi hr
    rw [hbar] at hexec
    have hrange (u : State) : u.refreshed core e = u.refreshCopy core e.die e.addr 16 := by rw [State.refreshed, Entry.ranges, hb]; rfl
    intro hwf
    refine ⟨fun o ho => ⟨_, hexec, ?_⟩, fun hn => ?_⟩
    · rw [hrange]
      exact barAt_object (i := i) (s := s.without core i) (p := .near e.die) hdie hwf ho ht
    · rw [hexec, hrange]
      exact congrArg (fun u => Host.Outcome.next (State.refreshCopy u core e.die e.addr 16))
        (barAt_fault (s := s.without core i) (p := .near e.die) hn ht)

end

/-! ### Waiting and testing -/

theorem barKept_caches (hp : s.planted = []) (nsp : Bool) (a : Operand) : CachesOnly s (s.barKept t nsp a) := keepXlate_caches hp t _ _

/-- A look that is due behaves as the check of PHASE says. -/
theorem look_lone {chk : State → Nat → Check} {act : State → Nat → State} (hl : Lone s t x) (hp : s.planted = []) :
    withReads x false (barSites nsp a) (runPlain x false chk act) s = runPlain x false chk act s := withReads_lone hl (.inl hp)

/-- A look whose address is bad takes the fault of a load. -/
theorem look_away (more : State → Nat → Check) (act : State → Nat → State) (hl : Lone s t x) (hp : s.planted = [])
    (hg : Given s t [a] [src a] []) : BarAway s t nsp (addrReg s t a) .load (.next (withReads x false (barSites nsp a)
      (runPlain x false (fun s t => (barCheck nsp [a] a .load s t).andThen (more s t)) act) s)) := by
  rw [look_lone hl hp]
  exact runPlain_barAway (more := more) (fields := [a]) hl hg rfl

/-- Where nothing is on its way, PHASE is the object's. -/
theorem barPhase_object (hr : Reaches s t (barSpace nsp) (addrReg s t a) 16 .load at_) (hf : (s.wpOf t).fifo = [])
    (hq : (s.co (s.coreOf t)).wq = []) (hh : (s.co (s.homeOf t)).wq = []) : barPhase s t nsp a =
      some (BarObj.of (if nsp then s.near (s.pdie (s.ldieOf t)) at_ 16 else s.bufRead (s.homeOf t) .a at_ 16)).phase := by
  have hat : (barSite s t nsp a .load).1 = at_ := locate_reaches hr
  have hword (m : Memory) : bit (wOf (Memory.read m at_ 4)) 31 = (BarObj.of (Memory.read m at_ 16)).phase := by
    have h := Memory.read_drop_take m at_ 16 0 4 (by omega)
    rw [List.drop_zero, Nat.add_zero] at h
    rw [BarObj.of, wordsOf, h]
    rfl
  have hqueued : s.queuedFor (s.coreOf t) (s.homeOf t) = [] := by
    rw [State.queuedFor, hh, hq]
    split <;> rfl
  unfold barPhase
  dsimp only
  rw [hat, hf, hqueued, hq]
  cases nsp with
  | true =>
    rw [if_pos rfl, if_pos rfl, List.filter_nil, viewBytes_nil, Option.map_some]
    exact congrArg some (hword _)
  | false =>
    rw [if_neg Bool.false_ne_true, if_neg Bool.false_ne_true, List.filter_nil, viewBytes_nil, Option.map_some]
    exact congrArg some (hword _)

theorem barrierWaitAndTest : Claims.BarrierWaitAndTest := by
  intro s t x nsp a p par hl hg hp
  have hcaches := barKept_caches (t := t) hp nsp a
  refine ⟨fun hn => ?_, ⟨_, _, hcaches.only⟩, hcaches.sameMemory, fun at_ hr => ?_, fun i hi => ?_⟩
  · subst hn
    rfl
  · have hok : barCheck nsp [a] a .load s t = .ok :=
      (barCheck_given (fields := [a]) hg nsp a .load).trans (accessCheck_reaches (sp := barSpace nsp) hr [])
    have hwait (more : State → Nat → Check) (act : State → Nat → State) (b : Block) (hm : more s t = .wait b) :
        withReads x false (barSites nsp a) (runPlain x false (fun s t => (barCheck nsp [a] a .load s t).andThen (more s t)) act) s =
          s.setStatus t (.blocked b) := by
      rw [look_lone hl hp]
      refine runPlain_lone_wait hl ?_
      rw [hok, hm]
      rfl
    have hgo (more : State → Nat → Check) (act : State → Nat → State) (hm : more s t = .ok) :
        withReads x false (barSites nsp a) (runPlain x false (fun s t => (barCheck nsp [a] a .load s t).andThen (more s t)) act) s =
          act s t := by
      rw [look_lone hl hp]
      refine runPlain_lone hl ?_
      rw [hok, hm]
      rfl
    refine ⟨fun ph hph => ⟨fun hne => ?_, fun he => ?_, ?_⟩, fun hnone => ⟨?_, ?_⟩, fun hf hq hh => barPhase_object hr hf hq hh⟩
    · exact congrArg Host.Outcome.next (hgo _ _ (by simp only [hph]; rw [if_pos (by simpa using hne)]))
    · exact congrArg Host.Outcome.next (hwait _ _ _ (by simp only [hph]; rw [if_neg (by simpa using he)]))
    · refine congrArg Host.Outcome.next ((hgo _ _ (by simp only [hph]; rfl)).trans ?_)
      simp only [hph, Option.getD_some]
      by_cases he : ph = par
      · simp [he]
      · have hne : (ph != par) = true := by simpa using he
        simp [he, hne]
    · exact congrArg Host.Outcome.next (hwait _ _ _ (by simp only [hnone]))
    · exact congrArg Host.Outcome.next (hwait _ _ _ (by simp only [hnone]; rfl))
  · rcases hi with rfl | rfl <;> exact look_away _ _ hl hp hg

/-- Settles O24: the entry of a barrier operation (`barIssued`), what it makes of the object (`barAt_object`, `barAt_fault`), and the
look at PHASE (`barPhase_object`). -/
theorem barrierInstructions : Obligations.BarrierInstructions := ⟨barrierIssue, barrierApplies, barrierWaitAndTest⟩

end

end Sys2Proof.Machine
end

section
/-! PROOF. Peer access (R62, R166 to R170): what a peer store, reduction and load issue, what a delivery does, and what an overdue
acknowledgement loses (O18, O22). -/

namespace Sys2Proof.Machine

section
variable {s : State} {t : Nat} {x : Option Ext} {a b : Operand}

/-! ### Issue (R166 to R169) -/

theorem peerCheck_good {n : Nat} (hal : paVa (peerAddr s t a) % n = 0) (hok : paOk s (peerAddr s t a) = true) : peerCheck s t a n = .ok := by
  rw [peerCheck]
  simp only [if_neg (not_not.mpr hal), hok, if_true]

theorem peerCheck_misaligned {n : Nat} (h : paVa (peerAddr s t a) % n ≠ 0) : peerCheck s t a n = .trap 6 0 (peerAddr s t a) := if_pos h

theorem peerCheck_bad {n : Nat} (hal : paVa (peerAddr s t a) % n = 0) (hok : paOk s (peerAddr s t a) = false) :
    peerCheck s t a n = .trap 7 0 (peerAddr s t a) := by
  rw [peerCheck]
  simp only [if_neg (not_not.mpr hal), hok, Bool.false_eq_true, if_false]

/-- What a peer instruction of one lane does where its P address is bad. -/
theorem peer_away {once : Bool} {chk : State → Nat → Check} {act start : State → Nat → State} {n : Nat} {run : State} (hl : Lone s t x)
    (hrun : run = runLanes x once chk act start s) (hc : ∃ more, chk s t = (peerCheck s t a n).andThen more) :
    (paVa (peerAddr s t a) % n ≠ 0 → run = s.faultTrap t 6 0 (peerAddr s t a)) ∧
    (paVa (peerAddr s t a) % n = 0 → paOk s (peerAddr s t a) = false → run = s.faultTrap t 7 0 (peerAddr s t a)) := by
  obtain ⟨more, hc⟩ := hc
  subst hrun
  refine ⟨fun h => runLanes_lone_trap hl ?_, fun hal hok => runLanes_lone_trap hl ?_⟩
  · rw [hc, peerCheck_misaligned h]
    rfl
  · rw [hc, peerCheck_bad hal hok]
    rfl

/-- The entry that a peer store or reduction puts into the FIFO. -/
def peerEntryOf (s : State) (t : Nat) (x : Option Ext) (b : Body) : Entry := { s.entry t .n 0 b with rel := ordRel x, scope := scopeOf x }

theorem peerEntry_eq (x : Option Ext) (b : Body) (s : State) (t : Nat) : peerEntry x b s t =
    (s.toFifo t (peerEntryOf s t x b)).modTh t fun y => { y with peerCount := y.peerCount + 1 } := rfl

theorem peerEntry_underWay (x : Option Ext) (b : Body) (s : State) (t : Nat) : UnderWay s (peerEntry x b s t) t :=
  (UnderWay.toFifo s t _).trans (.of_modTh _ t (fun _ => by simp [SpecialsSame]) fun _ => ⟨rfl, rfl, rfl, rfl⟩)

/-- Registers are as full as before, whatever of the thread changes but its registers. -/
theorem regFull_modTh (s : State) (t : Nat) {f : Thread → Thread} (hf : ∀ x, (f x).v = x.v ∧ (f x).warp = x.warp) (r : RegRef) :
    (s.modTh t f).regFull t r = s.regFull t r := by
  have hth : ((s.modTh t f).th t).v = (s.th t).v ∧ ((s.modTh t f).th t).warp = (s.th t).warp := by
    rw [State.th_modTh]
    split
    · exact hf _
    · exact ⟨rfl, rfl⟩
  cases r <;> simp only [State.regFull, State.wpOf, hth.1, hth.2] <;> rfl

theorem regFull_toFifo (hw : (s.th t).warp < s.warps.length) (e : Entry) (r : RegRef) : (s.toFifo t e).regFull t r = s.regFull t r := by
  cases r with
  | v n => rfl
  | s n =>
    show (((s.modWp (s.th t).warp _).wp (s.th t).warp).s[n]?.map SReg.full).getD true = _
    rw [State.wp_modWp_self _ _ _ hw]
    rfl

/-- What issuing a peer store or reduction leaves. -/
structure PeerEntered (s u : State) (t len : Nat) (b : Body) (x : Option Ext) (e : Entry) : Prop where
  fifo : (u.wp (s.th t).warp).fifo = (s.wp (s.th t).warp).fifo ++ [e]
  body : e.body = b
  rel : e.rel = ordRel x
  tid : e.tid = t
  count : (u.th t).peerCount = (s.th t).peerCount + 1
  regs : ∀ r, u.regVal t r = s.regVal t r ∧ u.regFull t r = s.regFull t r
  pc : (u.th t).pc = ((s.retire t len).th t).pc
  memory : SameMemory s u
  others : OthersSame s u t
  specials : SpecialsSame (u.th t) (s.th t)

/-- The served pops are used up; nothing that the frame names changes. -/
theorem usePops_only (s : State) (t : Nat) : s.usePops t = s ∨
    s.usePops t = s.modTh t fun x => { x with popped := [], popJob := false, popCb := none } := by
  rw [State.usePops]
  split
  · exact .inl rfl
  · exact .inr rfl

theorem usePops_underWay (s : State) (t : Nat) : UnderWay s (s.usePops t) t := by
  rcases usePops_only s t with h | h <;> rw [h]
  · exact .refl s t
  · exact .of_modTh s t (fun _ => by simp [SpecialsSame]) fun _ => ⟨rfl, rfl, rfl, rfl⟩

theorem usePops_rest (s : State) (t : Nat) : (∀ w, (s.usePops t).wp w = s.wp w) ∧ ((s.usePops t).th t).peerCount = (s.th t).peerCount ∧
    ∀ r, (s.usePops t).regFull t r = s.regFull t r := by
  rcases usePops_only s t with h | h <;> rw [h]
  · exact ⟨fun _ => rfl, rfl, fun _ => rfl⟩
  · refine ⟨fun _ => rfl, ?_, fun r => regFull_modTh s t (by exact fun _ => ⟨rfl, rfl⟩) r⟩
    rw [State.th_modTh]
    split <;> rfl

theorem peerEntry_entered (ht : t < s.threads.length) (hw : (s.th t).warp < s.warps.length) (b : Body) (len : Nat) :
    PeerEntered s (((peerEntry x b s t).usePops t).retire t len) t len b x (peerEntryOf s t x b) := by
  have hunder := ((peerEntry_underWay x b s t).trans (usePops_underWay _ t)).retired ht len
  obtain ⟨hwp, hcount, hfull⟩ := usePops_rest (peerEntry x b s t) t
  have hlen : t < (s.toFifo t (peerEntryOf s t x b)).threads.length := ht
  refine ⟨?_, rfl, rfl, rfl, ?_, fun r => ⟨hunder.1 r, ?_⟩, hunder.2.1, hunder.2.2.1, hunder.2.2.2.1, hunder.2.2.2.2⟩
  · rw [(State.retire_entries _ t len _).1, hwp]
    exact s.toFifo_fifo t (peerEntryOf s t x b) hw
  · rw [State.retire_keeps Thread.peerCount (fun _ _ => rfl), hcount, peerEntry_eq, State.th_modTh_self _ _ _ hlen]
    rfl
  · rw [(State.retire_regs _ t len t r).2.2, hfull, peerEntry_eq, regFull_modTh _ _ (by exact fun _ => ⟨rfl, rfl⟩), regFull_toFifo hw]

theorem PeerEntered.enters {i : Instr} {u : State} {len : Nat} {b : Body} {e : Entry} (h : PeerEntered s u t len b x e)
    (hi : exec i s = .next u) : ∃ u e, exec i s = .next u ∧ (u.wp (s.th t).warp).fifo = (s.wp (s.th t).warp).fifo ++ [e] ∧ e.body = b ∧
      e.rel = ordRel x ∧ e.tid = t ∧ (u.th t).peerCount = (s.th t).peerCount + 1 ∧
      (∀ r, u.regVal t r = s.regVal t r ∧ u.regFull t r = s.regFull t r) ∧ (u.th t).pc = ((s.retire t len).th t).pc ∧
      SameMemory s u ∧ OthersSame s u t ∧ SpecialsSame (u.th t) (s.th t) :=
  ⟨u, e, hi, h.fifo, h.body, h.rel, h.tid, h.count, h.regs, h.pc, h.memory, h.others, h.specials⟩

theorem SpecialsSame.trans {x y z : Thread} (h : SpecialsSame x y) (k : SpecialsSame y z) : SpecialsSame x z := by
  simp only [SpecialsSame] at h k ⊢
  simp only [h, k, and_self]

/-! Peer stores -/

/-- A peer store's lanes, its reads of face stores meeting no planted error. -/
theorem exec_stx (hl : Lone s t x) (hg : Given s t [a, b] [srcN a 2, src b] []) : exec (.stx x a b) s =
    .next (runLanes x false (stxCheck a b)
      (fun s t => ((peerEntry x (.peerStore (peerAddr s t a) ((wordsNow s t [src b]).getD 0 0)) s t).usePops t).retire t (extLen x))
      (fun s t => s.startPops t (queuesOf [src b])) s) := by
  refine congrArg Host.Outcome.next (withReads_lone hl ?_)
  rcases hg.quiet with h | h
  · exact .inl h
  · refine .inr (nbrReads_nil (fun g hg => h g ?_) s t)
    rw [List.mem_singleton.mp hg]
    exact List.mem_cons_of_mem _ List.mem_cons_self

/-- What a peer store checks before its pops, with sound queues. -/
theorem stxCheck_fresh (hg : Given s t [a, b] [srcN a 2, src b] []) (hp : (s.th t).popped = [])
    (hq : chanCheck s t (queuesOf [src b]) = .ok) (hm : missing (allSlots s t 0 [src b]) = []) :
    stxCheck a b s t = (peerCheck s t a 4).andThen (if (queuesOf [src b]).isEmpty then .ok else .start) := by
  have hwaits : (opWait s t [srcN a 2, src b] []).andThen (nbrCheck (allSlots s t 0 [src b])) = .ok := by
    rw [opWait_given hg, nbrCheck_none hm]
    rfl
  unfold stxCheck
  dsimp only
  rw [withPops, hp, if_pos List.isEmpty_nil, hwaits, hq, opFault_given hg]
  rfl

theorem slots_val_queues {w : Word} (h : allSlots s t 0 [src b] = [.val w]) : queuesOf [src b] = [] := by
  cases b with
  | q n => exact absurd h (by simp [allSlots, slotsOf, src])
  | _ => rfl

theorem wordsNow_val {w : Word} (hp : (s.th t).popped = []) (h : allSlots s t 0 [src b] = [.val w]) : wordsNow s t [src b] = [w] := by
  rw [wordsNow, hp]
  show (allSlots s t 0 [src b]).map _ = _
  rw [h]
  rfl

theorem wordsNow_popped {q : BitVec 2} {k : Nat} {w : Word} (hp : (s.th t).popped = [(k, some w)]) : wordsNow s t [src (.q q)] = [w] := by
  rw [wordsNow, hp]
  show [slotNow s t (.pop k)] = [w]
  rw [slotNow, hp]
  simp

theorem stxIssue (hl : Lone s t x) (hw : (s.th t).warp < s.warps.length) (hg : Given s t [a, b] [srcN a 2, src b] [])
    (hp : (s.th t).popped = []) {w : Word} (hs : allSlots s t 0 [src b] = [.val w]) :
    (paVa (peerAddr s t a) % 4 = 0 → paOk s (peerAddr s t a) = true → ∃ u e, exec (.stx x a b) s = .next u ∧
      PeerEntered s u t (extLen x) (.peerStore (peerAddr s t a) w) x e) ∧
    ∃ more, stxCheck a b s t = (peerCheck s t a 4).andThen more := by
  have hq := slots_val_queues hs
  have hchk := stxCheck_fresh hg hp (by rw [hq]; rfl) (by rw [hs]; rfl)
  refine ⟨fun hal hok => ?_, _, hchk⟩
  rw [peerCheck_good hal hok, hq] at hchk
  have hrun := (exec_stx hl hg).trans (congrArg Host.Outcome.next (runLanes_lone hl hchk))
  rw [wordsNow_val hp hs] at hrun
  exact ⟨_, _, hrun, peerEntry_entered hl.inRange hw _ _⟩

/-- With its pop served the store goes on, whatever its address: that was checked before. -/
theorem stxCheck_served {q : BitVec 2} {k : Nat} {w : Word} (hg : Given s t [a, .q q] [srcN a 2, src (.q q)] [])
    (hp : (s.th t).popped = [(k, some w)]) : stxCheck a (.q q) s t = .ok := by
  have hwaits : (opWait s t [srcN a 2, src (.q q)] []).andThen (nbrCheck (allSlots s t 0 [src (.q q)])) = .ok := by
    rw [opWait_given hg, nbrCheck_none (by rfl)]
    rfl
  unfold stxCheck
  dsimp only
  rw [withPops, hp, hwaits]
  rfl

/-! Peer reductions -/

theorem exec_aredX {f : AtomKind} (hl : Lone s t x) (hg : Given s t [a, b] [srcN a 2, atomSrc f b] []) : exec (.aredX x f a b) s =
    .next (runPlain x false
      (fun s t => (opCheck s t [a, b] [srcN a 2, atomSrc f b] []).andThen
        ((nbrCheck (allSlots s t 0 [atomSrc f b])).andThen (peerCheck s t a (kindBytes f))))
      (fun s t => (peerEntry x (.peerRed (peerAddr s t a) f ((allSlots s t 0 [atomSrc f b]).map (slotNow s t))) s t).retire t (extLen x))
      s) := by
  refine congrArg Host.Outcome.next (withReads_lone hl ?_)
  rcases hg.quiet with h | h
  · exact .inl h
  · refine .inr (nbrReads_nil (fun g hg => h g ?_) s t)
    rw [List.mem_singleton.mp hg]
    exact List.mem_cons_of_mem _ List.mem_cons_self

/-- A reduction is entered as a store is; it has no pops to use. -/
theorem peerRed_entered (ht : t < s.threads.length) (hw : (s.th t).warp < s.warps.length) (b : Body) (len : Nat) :
    PeerEntered s ((peerEntry x b s t).retire t len) t len b x (peerEntryOf s t x b) := by
  have hunder := (peerEntry_underWay x b s t).retired ht len
  have hlen : t < (s.toFifo t (peerEntryOf s t x b)).threads.length := ht
  refine ⟨s.toFifo_fifo t (peerEntryOf s t x b) hw, rfl, rfl, rfl, ?_, fun r => ⟨hunder.1 r, ?_⟩, hunder.2.1, hunder.2.2.1,
    hunder.2.2.2.1, hunder.2.2.2.2⟩
  · rw [State.retire_keeps Thread.peerCount (fun _ _ => rfl), peerEntry_eq, State.th_modTh_self _ _ _ hlen]
    rfl
  · rw [(State.retire_regs _ t len t r).2.2, peerEntry_eq, regFull_modTh _ _ (by exact fun _ => ⟨rfl, rfl⟩), regFull_toFifo hw]

/-! Peer loads -/

/-- The operation, the route and the load of a peer load. -/
def ldxOp (s : State) (t : Nat) (w : RF) : Op := { newOp s t 6 (regsOf (s.th t) w.d 2) with stage := .started }

def ldxRoute (s : State) (t : Nat) (w : RF) : Route :=
  { s.mkRoute (.core (s.coreOf t)) (.peer (paRank (peerAddr s t w.a)) (paLdie (peerAddr s t w.a)))
      (.ldx (peerAddr s t w.a) s.ops.length) (ldxOp s t w).ctx t with acq := ordAcq w.x, scope := scopeOf w.x }

def ldxLoad (s : State) (t : Nat) (w : RF) : Load :=
  { ord := (s.th t).loadCount, kind := .peer s.ops.length, sp := .n, core := s.coreOf t, die := 0, addr := 0, sz := 4
    dst := [], tag := .raw, acq := ordAcq w.x }

def ldxCheck (w : RF) (s : State) (t : Nat) : Check :=
  (opCheck s t [w.d, w.a] [srcN w.a 2 w.ea] (regsOf (s.th t) w.d 2)).andThen
    ((peerCheck s t w.a 4).andThen
      (if ((s.th t).loads.any fun l => l.acq || ordAcq w.x) || !engineFree s (s.coreOf t) 6 then .wait .retry else .ok))

theorem exec_ldx (w : RF) (eb : Bool) (s : State) : exec (.ldx w eb) s = .next (runPlain w.x false (ldxCheck w)
    (fun s t => orWait (engineFree s (s.coreOf t) 6) s t
      ((pushLoad ((s.issueOp t (ldxOp s t w)).pushRoute (ldxRoute s t w)) t (ldxLoad s t w)).retire t (extLen w.x))) s) := rfl

/-- Registers written by an operation leave the frame of its thread. -/
theorem RegsOnly.frame {u : State} {dst : List RegRef} (h : RegsOnly s u t dst) :
    SpecialsSame (u.th t) (s.th t) ∧ (∀ len, (Thread.advance len (u.th t)).pc = (Thread.advance len (s.th t)).pc) ∧
    (u.th t).loads = (s.th t).loads := by
  obtain ⟨v, hv, -, -⟩ := h.self
  rw [hv]
  exact ⟨by simp [SpecialsSame], fun _ => rfl, rfl⟩

theorem fillRegs_value {u : State} (ht : t < u.threads.length) {n : Nat} (hv : n < (u.th t).v.length) (w : Word) :
    (u.fillRegs t [.v n] [w] .raw).regVal t (.v n) = w :=
  (State.fillRegs_regIs (r := .v n) (w := w) .raw (List.nodup_singleton (RegRef.v n)) ht (i := 0) rfl rfl hv).1

/-- The handle is the value of the first register of the destination. -/
theorem handRegs_head (ht : t < s.threads.length) (o : Op) {n : Nat} (hn : o.dst.head? = some (.v n)) (hv : n < (s.th t).v.length) :
    (s.handRegs t o).regVal t (.v n) = o.handle := by
  obtain ⟨rest, hd⟩ : ∃ rest, o.dst = .v n :: rest := by
    cases hc : o.dst with
    | nil => rw [hc] at hn; cases hn
    | cons r rs =>
      rw [hc] at hn
      obtain rfl := Option.some.inj hn
      exact ⟨rs, rfl⟩
  have htake : o.dst.take 1 = [.v n] := by rw [hd]; rfl
  rw [State.handRegs, htake, (UnderWay.markAll t o.dst _).values]
  exact fillRegs_value (u := s.modCo (s.coreOf t) _) ht hv o.handle

/-- What a peer load leaves when it issues. -/
theorem ldx_issued {w : RF} (ht : t < s.threads.length) :
    let u := (pushLoad ((s.issueOp t (ldxOp s t w)).pushRoute (ldxRoute s t w)) t (ldxLoad s t w)).retire t (extLen w.x)
    let dst := regsOf (s.th t) w.d 2
    u.ops = s.ops ++ [ldxOp s t w] ∧ u.routes = s.routes ++ [ldxRoute s t w] ∧ (u.th t).loads = (s.th t).loads ++ [ldxLoad s t w] ∧
    (∀ n, RegRef.v n ∈ dst → n < (s.th t).v.length → u.regFull t (.v n) = false) ∧
    (∀ n, dst.head? = some (.v n) → n < (s.th t).v.length → u.regVal t (.v n) = (ldxOp s t w).handle) ∧
    (u.th t).pc = ((s.retire t (extLen w.x)).th t).pc ∧ SameMemory s u ∧ OthersSame s u t ∧ SpecialsSame (u.th t) (s.th t) := by
  intro u dst
  have hregs := s.handRegs_regsOnly t (ldxOp s t w)
  have hiss := s.issueOp_handRegs t (ldxOp s t w)
  have honly := s.handRegs_only t (ldxOp s t w)
  let v := (s.issueOp t (ldxOp s t w)).pushRoute (ldxRoute s t w)
  have hth (n : Nat) : v.th n = (s.handRegs t (ldxOp s t w)).th n := by
    show (s.issueOp t (ldxOp s t w)).th n = _
    rw [hiss]
    rfl
  have hvt : t < v.threads.length := by
    have h1 : v.threads = (s.handRegs t (ldxOp s t w)).threads := by
      show (s.issueOp t (ldxOp s t w)).threads = _
      rw [hiss]
    rw [h1, hregs.threads]
    exact ht
  have hmem : SameMemory s v := by
    have h1 := s.handRegs_sameMemory t (ldxOp s t w)
    have hd : v.dies = (s.handRegs t (ldxOp s t w)).dies ∧ v.cores = (s.handRegs t (ldxOp s t w)).cores := by
      show (s.issueOp t (ldxOp s t w)).dies = _ ∧ (s.issueOp t (ldxOp s t w)).cores = _
      rw [hiss]
      exact ⟨rfl, rfl⟩
    exact ⟨fun d a => by rw [State.die, hd.1]; exact h1.1 d a, fun c sp a => by rw [State.co, hd.2]; exact h1.2 c sp a⟩
  obtain ⟨hsp, hadv, hlds⟩ := hregs.frame
  have hunder := (pushLoad_underWay v t (ldxLoad s t w)).retired hvt (extLen w.x)
  have hreg (r : RegRef) : u.regFull t r = (s.handRegs t (ldxOp s t w)).regFull t r := by
    have h1 : u.regFull t r = v.regFull t r := ((State.retire_regs _ t _ t r).2.2).trans (pushLoad_others v t _ List.not_mem_nil)
    have hwp (n : Nat) : v.wp n = (s.handRegs t (ldxOp s t w)).wp n := by
      show (s.issueOp t (ldxOp s t w)).wp n = _
      rw [hiss]
      rfl
    rw [h1]
    cases r <;> simp only [State.regFull, State.wpOf, hth, hwp]
  have hops : u.ops = s.ops ++ [ldxOp s t w] := by
    show (pushLoad v t (ldxLoad s t w)).ops = _
    rw [pushLoad, State.markAll_only]
    show (s.issueOp t (ldxOp s t w)).ops = _
    rw [hiss]
  have hroutes : u.routes = s.routes ++ [ldxRoute s t w] := by
    show (pushLoad v t (ldxLoad s t w)).routes = _
    rw [pushLoad, State.markAll_only]
    show (s.issueOp t (ldxOp s t w)).routes ++ _ = _
    rw [hiss, honly]
    rfl
  refine ⟨hops, hroutes, ?_, fun n hn hv => (hreg _).trans (s.handRegs_empty ht (ldxOp s t w) hn hv), fun n hn hv => ?_, ?_, ?_,
    fun n hn => ?_, ?_⟩
  · rw [State.retire_keeps Thread.loads (fun _ _ => rfl), pushLoad_loads hvt, hth, hlds]
  · refine (hunder.1 (.v n)).trans ?_
    rw [← handRegs_head ht (ldxOp s t w) hn hv]
    simp only [State.regVal, hth]
  · refine hunder.2.1.trans ?_
    rw [State.th_retire, if_pos ⟨rfl, hvt⟩, State.th_retire, if_pos ⟨rfl, ht⟩, hth, hadv]
  · exact ⟨fun d a => (hunder.2.2.1.1 d a).trans (hmem.1 d a), fun c sp a => (hunder.2.2.1.2 c sp a).trans (hmem.2 c sp a)⟩
  · exact (hunder.2.2.2.1 n hn).trans ((hth n).trans (hregs.others n hn))
  · have h1 := hunder.2.2.2.2
    rw [hth] at h1
    exact h1.trans hsp

theorem peerAccess : Claims.PeerAccess := by
  intro s t x hl hw
  refine ⟨fun a b hg => ⟨fun hp w hs => ?_, fun q hb hq => ?_⟩, fun f a b xs hg hx => ?_, fun w eb hx hg => ?_⟩
  · obtain ⟨hgood, hmore⟩ := stxIssue hl hw hg hp hs
    obtain ⟨h6, h7⟩ := peer_away (a := a) (start := fun s t => s.startPops t (queuesOf [src b])) (once := false) (act := fun s t =>
      ((peerEntry x (.peerStore (peerAddr s t a) ((wordsNow s t [src b]).getD 0 0)) s t).usePops t).retire t (extLen x)) hl rfl hmore
    refine ⟨fun hal hok => ?_, fun h => ?_, fun hal hok => ?_⟩
    · obtain ⟨u, e, hu, hent⟩ := hgood hal hok
      exact hent.enters hu
    · exact (exec_stx hl hg).trans (congrArg Host.Outcome.next (h6 h))
    · exact (exec_stx hl hg).trans (congrArg Host.Outcome.next (h7 hal hok))
  · subst hb
    refine ⟨fun hp => ?_, fun k w hp => ?_⟩
    · have hchk := stxCheck_fresh hg hp hq rfl
      obtain ⟨h6, h7⟩ := peer_away (a := a) (start := fun s t => s.startPops t (queuesOf [src (.q q)])) (once := false) (act := fun s t =>
        ((peerEntry x (.peerStore (peerAddr s t a) ((wordsNow s t [src (.q q)]).getD 0 0)) s t).usePops t).retire t (extLen x)) hl rfl
        ⟨_, hchk⟩
      refine ⟨fun hal hok => ?_, fun h => ?_, fun hal hok => ?_⟩
      · rw [peerCheck_good hal hok] at hchk
        refine (exec_stx hl hg).trans (congrArg Host.Outcome.next ((runLanes_lone_step hl fun c d v hc => ?_).trans ?_))
        · rw [hchk] at hc
          cases hc
        · rw [hchk]
          rfl
      · exact (exec_stx hl hg).trans (congrArg Host.Outcome.next (h6 h))
      · exact (exec_stx hl hg).trans (congrArg Host.Outcome.next (h7 hal hok))
    · have hrun := (exec_stx hl hg).trans (congrArg Host.Outcome.next (runLanes_lone hl (stxCheck_served hg hp)))
      rw [wordsNow_popped hp] at hrun
      exact (peerEntry_entered hl.inRange hw _ _).enters hrun
  · have hchk : (opCheck s t [a, b] [srcN a 2, atomSrc f b] []).andThen
        ((nbrCheck (allSlots s t 0 [atomSrc f b])).andThen (peerCheck s t a (kindBytes f))) = peerCheck s t a (kindBytes f) := by
      rw [opCheck_given hg, hx, nbrCheck_none (missing_vals xs)]
      rfl
    refine ⟨fun hal hok => ?_, fun h => ?_, fun hal hok => ?_⟩
    · have hrun := (exec_aredX hl hg).trans (congrArg Host.Outcome.next (runPlain_lone hl (hchk.trans (peerCheck_good hal hok))))
      rw [slots_now hx] at hrun
      exact (peerRed_entered hl.inRange hw _ _).enters hrun
    · exact (exec_aredX hl hg).trans (congrArg Host.Outcome.next (runPlain_lone_trap hl (hchk.trans (peerCheck_misaligned h))))
    · exact (exec_aredX hl hg).trans (congrArg Host.Outcome.next (runPlain_lone_trap hl (hchk.trans (peerCheck_bad hal hok))))
  · subst hx
    have hchk : ldxCheck w s t = (peerCheck s t w.a 4).andThen
        (if ((s.th t).loads.any fun l => l.acq || ordAcq w.x) || !engineFree s (s.coreOf t) 6 then .wait .retry else .ok) := by
      rw [ldxCheck, opCheck_given hg, Check.ok_andThen]
    refine ⟨fun hal hok hfree => ?_, fun hal hok hbusy => ?_, fun h => ?_, fun hal hok => ?_⟩
    · rw [Bool.and_eq_true, Bool.not_eq_true'] at hfree
      obtain ⟨hroom, hquiet⟩ := hfree
      rw [peerCheck_good hal hok, hquiet, hroom] at hchk
      have hrun := (exec_ldx w eb s).trans (congrArg Host.Outcome.next (runPlain_lone hl hchk))
      rw [hroom] at hrun
      obtain ⟨hops, hroutes, hloads, hrest⟩ := ldx_issued (w := w) hl.inRange
      exact ⟨_, _, _, _, hrun, hops, hroutes, rfl, rfl, rfl, rfl, rfl, hloads, rfl, rfl, hrest⟩
    · have hw : (((s.th t).loads.any fun l => l.acq || ordAcq w.x) || !engineFree s (s.coreOf t) 6) = true := by
        rw [Bool.and_eq_false_iff, Bool.not_eq_false'] at hbusy
        rcases hbusy with h | h
        · rw [h, Bool.not_false, Bool.or_true]
        · rw [h, Bool.true_or]
      rw [peerCheck_good hal hok, hw] at hchk
      exact (exec_ldx w eb s).trans (congrArg Host.Outcome.next (runPlain_lone_wait hl hchk))
    · rw [peerCheck_misaligned h] at hchk
      exact (exec_ldx w eb s).trans (congrArg Host.Outcome.next (runPlain_lone_trap hl hchk))
    · rw [peerCheck_bad hal hok] at hchk
      exact (exec_ldx w eb s).trans (congrArg Host.Outcome.next (runPlain_lone_trap hl hchk))

end

/-! ### Completions that bring words -/

section
variable {s : State} {j : Nat} {st : BitVec 16} {de : Word} {vs : List Word}

theorem completeOp_core {c : Nat} (hs : (s.op j).stage ≠ .done) (hc : (s.op j).core = some c) (st : BitVec 16) (de : Word)
    (vs : List Word) : s.completeOp j st de vs =
      ((s.modOp j fun o => { o with stage := .done, status := st, detail := de }).fillRegs (s.op j).tid (s.op j).dst
        ((s.op j).handle :: vs) .raw).modCo c fun k =>
          k.addRecord (s.op j).engine ⟨(s.op j).handle, st, (s.op j).warp, de, BitVec.ofNat 32 s.time.toNat⟩ := by
  simp only [State.completeOp, if_neg hs, hc]

/-- A completion changes no memory, whatever words it brings. -/
theorem completeOp_memory (s : State) (j : Nat) (st : BitVec 16) (de : Word) (vs : List Word) : SameMemory s (s.completeOp j st de vs) := by
  have hbuf (c : Nat) (sp : Space) : ((s.completeOp j st de vs).co c).buf sp = (s.co c).buf sp := by
    by_cases hs : (s.op j).stage = .done
    · rw [State.completeOp, if_pos hs]
    · cases hc : (s.op j).core with
      | none =>
        have hring : s.completeOp j st de vs = (s.modOp j fun o => { o with stage := .done, status := st, detail := de }).ringRecord
            (s.op j).port ⟨(s.op j).handle, st, (s.op j).warp, de, BitVec.ofNat 32 s.time.toNat⟩ := by
          simp only [State.completeOp, if_neg hs, hc]
        rw [hring, State.ringRecord_only]
        rfl
      | some k =>
        rw [completeOp_core hs hc, State.fillRegs_only, State.co_modCo]
        split
        · next h => rw [addRecord_buf, ← h.1]; rfl
        · rfl
  exact ⟨fun d a => by rw [(s.completeOp_near j st de vs).die], fun c sp a => by rw [hbuf]⟩

theorem fillRegs_second {u : State} {t n : Nat} {h : RegRef} (hne : h ≠ .v n) (ht : t < u.threads.length) (hn : n < (u.th t).v.length)
    (a w : Word) : (u.fillRegs t [h, .v n] [a, w] .raw).RegIs t (.v n) w .raw :=
  State.fillRegs_regIs (r := .v n) (w := w) .raw (by simpa using hne) ht (i := 1) rfl rfl hn

/-- The second register of a destination takes the word that a peer load brings. -/
theorem completeOp_second {c n : Nat} {h : RegRef} (hs : (s.op j).stage ≠ .done) (hc : (s.op j).core = some c)
    (hd : (s.op j).dst = [h, .v n]) (hne : h ≠ .v n) (ht : (s.op j).tid < s.threads.length) (hn : n < (s.th (s.op j).tid).v.length)
    (w : Word) : (s.completeOp j st de [w]).regVal (s.op j).tid (.v n) = w ∧ (s.completeOp j st de [w]).regFull (s.op j).tid (.v n) = true := by
  have hreg : ((s.modOp j fun o => { o with stage := .done, status := st, detail := de }).fillRegs (s.op j).tid (s.op j).dst
      [(s.op j).handle, w] .raw).RegIs (s.op j).tid (.v n) w .raw := by
    rw [hd]
    exact fillRegs_second (u := s.modOp j _) hne ht hn _ w
  rw [completeOp_core hs hc]
  exact ⟨hreg.1, hreg.2.2⟩

end

/-! ### Overdue acknowledgements (R170, R256) -/

/-- The state without a route. -/
def State.routed (s : State) (i : Nat) : State := { s with routes := s.routes.eraseIdx i }

section
variable {s : State} {i j : Nat} {r : Route}

/-- The route goes to a peer. -/
def Dst.isPeer (d : Dst) : Bool := match d with | .peer _ _ => true | _ => false

theorem exec_timeout (hi : s.routes[i]? = some r) : exec (.peerAckTimeout i) s =
    .next (if (r.born + 1000000 * Config.peerAckTimeoutMs ≤ s.time.toNat && r.dst.isPeer) = true then
      s.loseRoute i else s) := by
  refine congrArg Host.Outcome.next ?_
  rw [hi]
  rfl

theorem exec_timeout_due {rank : BitVec 8} {l : Nat} (hi : s.routes[i]? = some r) (hd : r.dst = .peer rank l)
    (hdue : r.born + 1000000 * Config.peerAckTimeoutMs ≤ s.time.toNat) : exec (.peerAckTimeout i) s = .next (s.loseRoute i) := by
  rw [exec_timeout hi, if_pos]
  rw [hd]
  simpa [Dst.isPeer] using hdue

theorem loseStore_only (s : State) (r : Route) : s.loseStore r = s ∨ ∃ l, r.launch = some l ∧
    s.loseStore r = s.modLa l fun x => { x with peerLost := true } := by
  unfold State.loseStore
  split
  · next l h => exact .inr ⟨l, h, rfl⟩
  · exact .inl rfl

theorem loseStore_lost {l : Nat} (hl : r.launch = some l) (h : l < s.launches.length) : ((s.loseStore r).la l).peerLost = true := by
  have hs : s.loseStore r = s.modLa l fun x => { x with peerLost := true } := by unfold State.loseStore; rw [hl]
  rw [hs, State.la_modLa, if_pos ⟨rfl, h⟩]

theorem loseStore_keeps (s : State) (r : Route) : (s.loseStore r).routes = s.routes ∧ SameMemory s (s.loseStore r) ∧
    (s.loseStore r).threads = s.threads ∧ (s.loseStore r).ops = s.ops := by
  rcases loseStore_only s r with h | ⟨l, -, h⟩ <;> rw [h]
  · exact ⟨rfl, ⟨fun _ _ => rfl, fun _ _ _ => rfl⟩, rfl, rfl⟩
  · exact ⟨rfl, ⟨fun _ _ => rfl, fun _ _ _ => rfl⟩, rfl, rfl⟩

/-- The thread of a peer load waits for it no more. -/
def State.peerAnswered (s : State) (t j : Nat) : State :=
  s.modTh t fun y => { y with loads := y.loads.filter fun l => l.kind ≠ .peer j }

theorem peerAnswered_v (s : State) (t j n : Nat) : ((s.peerAnswered t j).th n).v = (s.th n).v := by
  rw [State.peerAnswered, State.th_modTh]
  split
  · next h => rw [← h.1]
  · rfl

theorem peerTimeouts : Claims.PeerTimeouts := by
  refine ⟨fun s i r hi => ⟨fun h => ?_, fun rank ldie hd hdue => ⟨fun hb => ?_, fun pa j hb hs hj => ?_, fun j pa n hb hs hj => ?_⟩⟩,
    fun s j he hst hs hj => ?_⟩
  · rw [exec_timeout hi, if_neg]
    rw [Bool.and_eq_true, decide_eq_true_eq, not_and]
    rintro hdue
    rcases h with h | h
    · cases hd : r.dst with
      | peer rank l => exact absurd hd (h rank l)
      | _ => exact Bool.false_ne_true
    · omega
  · have hlose : s.loseRoute i = (s.routed i).loseStore r := by
      unfold State.loseRoute
      rw [hi]
      dsimp only
      rcases hb with ⟨pa, w, hb⟩ | ⟨pa, k, xs, hb⟩ <;> rw [hb] <;> rfl
    obtain ⟨hroutes, hmem, hth, hops⟩ := loseStore_keeps (s.routed i) r
    exact ⟨_, ⟨(exec_timeout_due hi hd hdue).trans (congrArg _ hlose), hroutes, hmem⟩, hth, hops,
      fun l hl hlt => loseStore_lost (s := s.routed i) hl hlt⟩
  · have hlose : s.loseRoute i = ((s.routed i).peerAnswered (s.op j).tid j).completeOp j 2 s.openDetail [0] := by
      unfold State.loseRoute
      rw [hi]
      dsimp only
      rw [hb]
      rfl
    have hop : ((s.routed i).peerAnswered (s.op j).tid j).op j = s.op j := rfl
    have hs' : (((s.routed i).peerAnswered (s.op j).tid j).op j).stage ≠ .done := hs
    have hdone : (((s.routed i).peerAnswered (s.op j).tid j).completeOp j 2 s.openDetail [0]).op j =
        { s.op j with stage := .done, status := 2, detail := s.openDetail } := by
      rw [State.completeOp_op, if_pos ⟨rfl, hs'⟩, hop]
    have hmem := completeOp_memory ((s.routed i).peerAnswered (s.op j).tid j) j 2 s.openDetail [0]
    refine ⟨_, ⟨(exec_timeout_due hi hd hdue).trans (congrArg _ hlose), ?_, hmem⟩, by rw [hdone], by rw [hdone], fun c h n hc hdst hne ht hn => ?_⟩
    · rw [State.completeOp_only]
      rfl
    · exact completeOp_second (s := (s.routed i).peerAnswered (s.op j).tid j) hs' hc hdst hne
        (by rw [hop, State.peerAnswered, State.modTh_threads_length]; exact ht) (by rw [hop, peerAnswered_v]; exact hn) 0
  · have hlose : s.loseRoute i = (s.routed i).failOp j 2 (BitVec.ofNat 32 (s.op j).acked) := by
      unfold State.loseRoute
      rw [hi]
      dsimp only
      rw [hb]
      rfl
    have hop : ((s.routed i).failOp j 2 (BitVec.ofNat 32 (s.op j).acked)).op j =
        { s.op j with status := 2, detail := BitVec.ofNat 32 (s.op j).acked } := by
      rw [State.failOp, State.op_modOp, if_pos ⟨rfl, hj⟩]
      exact if_pos hs
    exact ⟨_, ⟨(exec_timeout_due hi hd hdue).trans (congrArg _ hlose), rfl, fun _ _ => rfl, fun _ _ _ => rfl⟩, by rw [hop], by rw [hop], rfl⟩
  · have hnone : s.routes[s.routes.length + j]? = none := List.getElem?_eq_none (by omega)
    have hexec : exec (.peerAckTimeout (s.routes.length + j)) s = .next (s.loseMember j) := by
      refine congrArg Host.Outcome.next ?_
      rw [hnone]
      dsimp only
      rw [Nat.add_sub_cancel_left]
    have hlose : s.loseMember j = (s.failOp j 3 (cBmap (s.op j).record)).modOp j fun o => { o with stage := .started } := by
      rw [State.loseMember, if_pos (by simp [he, hst])]
    have hlen : j < (s.failOp j 3 (cBmap (s.op j).record)).ops.length := by
      rw [State.failOp]
      simpa using hj
    have hfail : (s.failOp j 3 (cBmap (s.op j).record)).op j = { s.op j with status := 3, detail := cBmap (s.op j).record } := by
      rw [State.failOp, State.op_modOp, if_pos ⟨rfl, hj⟩]
      exact if_pos hs
    have hop : (s.loseMember j).op j = { s.op j with status := 3, detail := cBmap (s.op j).record, stage := .started } := by
      rw [hlose, State.op_modOp, if_pos ⟨rfl, hlen⟩, hfail]
    refine ⟨_, hexec, by rw [hop], by rw [hop], ?_, ?_⟩
    · rw [hlose]; rfl
    · rw [hlose]; exact ⟨fun _ _ => rfl, fun _ _ _ => rfl⟩

/-- Settles O18: what a peer access issues (`peerEntry_entered`, `ldx_issued`), its faults, and what an overdue route loses. -/
theorem peerAccessAndLoss : Obligations.PeerAccessAndLoss := ⟨peerAccess, peerTimeouts⟩

/-! ### Deliveries (R61, R62, R166 to R168, R312) -/

theorem exec_deliver {m : PeerMsg} (hi : s.routes[i]? = some r)
    (ho : (s.routes.take i).all (fun q => !(q.src == r.src && q.dst == r.dst)) = true) (hst : routeStale s r = false)
    (hm : (∃ bs, m = .done bs) ∨ m = .failed) (hb : (∃ pa w, r.body = .stx pa w) ∨ ∃ pa j, r.body = .ldx pa j) :
    exec (.deliver i m) s = .next ((s.routed i).deliverEffect r m) := by
  have htag : tagFree s r = true := by
    unfold tagFree
    rcases hb with ⟨pa, w, h⟩ | ⟨pa, j, h⟩ <;> rw [h]
  have hbody : (∀ q v bs, r.body ≠ .posted q v bs) := by
    rcases hb with ⟨pa, w, h⟩ | ⟨pa, j, h⟩ <;> rw [h] <;> exact nofun
  refine congrArg Host.Outcome.next ?_
  rcases hm with ⟨bs, rfl⟩ | rfl
  · dsimp only
    rw [hi]
    dsimp only
    rw [hst, if_neg Bool.false_ne_true, ho, htag]
    split
    · next q v bs h => exact absurd h (hbody q v bs)
    · rfl
  · dsimp only
    rw [hi]
    dsimp only
    rw [hst, if_neg Bool.false_ne_true, ho, htag]
    split
    · next q v bs h => exact absurd h (hbody q v bs)
    · rfl

/-- An entry for another device: the event says what it met there. -/
theorem peerOutcome_away {pa : BitVec 64} (hr : paRank pa ≠ s.rank) (n : Nat) (acc : Access) (f : State → Nat → Nat → State) :
    (∀ bs, peerOutcome s r pa (.done bs) n acc f = (s, .ok bs)) ∧ peerOutcome s r pa .failed n acc f = (s, .error .failed) := by
  unfold peerOutcome
  exact ⟨fun bs => if_neg hr, if_neg hr⟩

/-- An entry for the device's own rank whose die was reset since. -/
theorem peerOutcome_stale {pa : BitVec 64} (hr : paRank pa = s.rank) (hv : (s.die (s.pdie (paLdie pa))).vintage ≠ r.target) (m : PeerMsg)
    (n : Nat) (acc : Access) (f : State → Nat → Nat → State) : peerOutcome s r pa m n acc f = (s, .error .stale) := by
  unfold peerOutcome
  exact (if_pos hr).trans (if_pos hv)

theorem partEcc_clean (hp : s.planted = []) (p : Place) (a n : Nat) (c : Word) : s.partEcc p a n c = (s, false) := by
  have hfirst : (if a % 4 ≠ 0 || n < 4 then s.placeEcc p (a / 4 * 4) 4 c else (s, false)) = (s, false) := by
    rw [State.placeEcc_clean _ _ _ _ _ hp, ite_self]
  unfold State.partEcc
  dsimp only
  rw [hfirst, State.placeEcc_clean _ _ _ _ _ hp, ite_self]

/-- A store for the device's own rank is performed at its place. -/
theorem peerOutcome_own {pa : BitVec 64} {d a n : Nat} (hr : paRank pa = s.rank) (hv : (s.die (s.pdie (paLdie pa))).vintage = r.target)
    (hp : s.planted = []) (hs : ownSite s r.ctx (paLdie pa) (paVa pa) .store = some (d, a)) (m : PeerMsg) (f : State → Nat → Nat → State) :
    peerOutcome s r pa m n .store f = (f s d a, .ok (s.near d a n)) := by
  unfold peerOutcome
  refine (if_pos hr).trans ((if_neg (not_not.mpr hv)).trans ?_)
  rw [State.walkEcc_clean _ _ _ _ _ hp]
  dsimp only
  rw [hs]
  dsimp only
  rw [if_pos rfl, partEcc_clean hp]
  exact if_neg Bool.false_ne_true

theorem setPeer_near (r : Route) (d a : Nat) (bs : List Byte) : (s.setPeer r d a bs).dies = (s.setNear d a bs).dies ∧
    (s.setPeer r d a bs).routes = s.routes ∧ (s.setPeer r d a bs).threads = s.threads := by
  unfold State.setPeer
  dsimp only
  rw [State.setNear_only]
  split <;> exact ⟨rfl, rfl, rfl⟩

/-- A store that was performed leaves what performing it left. -/
theorem deliverEffect_stx_ok {pa : BitVec 64} {w : Word} {m : PeerMsg} {v : State} {bs : List Byte} (hb : r.body = .stx pa w)
    (ho : (peerOutcome s r pa m 4 .store fun s d a => s.setPeer r d a (wBytes w)) = (v, .ok bs)) : s.deliverEffect r m = v := by
  unfold State.deliverEffect
  rw [hb]
  dsimp only
  rw [ho]

/-- One that was not is lost. -/
theorem deliverEffect_stx_lost {pa : BitVec 64} {w : Word} {m e : PeerMsg} {v : State} (hb : r.body = .stx pa w)
    (ho : (peerOutcome s r pa m 4 .store fun s d a => s.setPeer r d a (wBytes w)) = (v, .error e)) :
    s.deliverEffect r m = v.loseStore r := by
  unfold State.deliverEffect
  rw [hb]
  dsimp only
  rw [ho]

theorem loseStore_of {l : Nat} (hl : r.launch = some l) : s.loseStore r = s.modLa l fun x => { x with peerLost := true } := by
  unfold State.loseStore
  rw [hl]

theorem deliverEffect_ldx {pa : BitVec 64} (hb : r.body = .ldx pa j) (hr : paRank pa ≠ s.rank) (bs : List Byte) :
    s.deliverEffect r (.done bs) = (if r.acq then
      ((s.peerAnswered (s.op j).tid j).completeOp j 0 s.openDetail [wOf bs]).discardCopies
        (((s.peerAnswered (s.op j).tid j).completeOp j 0 s.openDetail [wOf bs]).coreOf (s.op j).tid)
      else (s.peerAnswered (s.op j).tid j).completeOp j 0 s.openDetail [wOf bs]) := by
  unfold State.deliverEffect
  rw [hb]
  dsimp only
  rw [(peerOutcome_away hr 4 .load _).1]
  rfl

/-- A peer load that completes, and what its acquire discards. -/
theorem peerLoad_done (v : State) (acq : Bool) (t j : Nat) (de : Word) (vs : List Word) :
    let u := if acq then (v.completeOp j 0 de vs).discardCopies ((v.completeOp j 0 de vs).coreOf t) else v.completeOp j 0 de vs
    u.routes = v.routes ∧ (u.op j).stage = .done ∧ SameMemory v u := by
  have hroutes : (v.completeOp j 0 de vs).routes = v.routes := by rw [State.completeOp_only]
  have hstage := State.completeOp_stage v j 0 de vs
  have hmem := completeOp_memory v j 0 de vs
  dsimp only
  split
  · have hk := State.discardCopies_kept (.near 0) (v.completeOp j 0 de vs) ((v.completeOp j 0 de vs).coreOf t)
    exact ⟨hroutes, hstage, hmem.1, fun c sp x => (congrArg (Memory.read1 · x) (hk.buf c sp nofun)).trans (hmem.2 c sp x)⟩
  · exact ⟨hroutes, hstage, hmem⟩

/-- A store to the device's own rank reaches the near memory of its die. -/
theorem own_store_delivered {pa : BitVec 64} {w : Word} {d a : Nat} (hi : s.routes[i]? = some r)
    (ho : (s.routes.take i).all (fun q => !(q.src == r.src && q.dst == r.dst)) = true) (hst : routeStale s r = false)
    (hb : r.body = .stx pa w) (hr : paRank pa = s.rank) (hv : (s.die (s.pdie (paLdie pa))).vintage = r.target) (hp : s.planted = [])
    (hsite : ownSite (s.routed i) r.ctx (paLdie pa) (paVa pa) .store = some (d, a)) (hd : d < s.dies.length)
    (hwf : Memory.wf (s.die d).mem = true) (bs : List Byte) :
    ∃ u, exec (.deliver i (.done bs)) s = .next u ∧ u.routes = s.routes.eraseIdx i ∧ u.threads = s.threads ∧
      (∀ x, Memory.read1 (u.die d).mem x =
        if a ≤ x ∧ x < a + 4 then (wBytes w).getD (x - a) 0 else Memory.read1 (s.die d).mem x) ∧
      ∀ k, k ≠ d → u.die k = s.die k := by
  have hown := peerOutcome_own (s := s.routed i) (r := r) (n := 4) hr hv hp hsite (.done bs) fun s d a => s.setPeer r d a (wBytes w)
  have heff := deliverEffect_stx_ok (s := s.routed i) hb hown
  have hexec := exec_deliver hi ho hst (.inl ⟨bs, rfl⟩) (.inl ⟨pa, w, hb⟩)
  rw [heff] at hexec
  obtain ⟨hdies, hroutes, hth⟩ := setPeer_near (s := s.routed i) r d a (wBytes w)
  have hdie (k : Nat) : ((s.routed i).setPeer r d a (wBytes w)).die k = ((s.routed i).setNear d a (wBytes w)).die k := by
    rw [State.die, State.die, hdies]
  refine ⟨_, hexec, hroutes, hth, fun x => ?_, fun k hk => ?_⟩
  · show Memory.read1 (((s.routed i).setPeer r d a (wBytes w)).die d).mem x = _
    rw [hdie, State.die_setNear, if_pos ⟨rfl, hd⟩]
    show Memory.read1 (Memory.write (s.die d).mem a (wBytes w)) x = _
    rw [Memory.read1_write _ _ _ hwf, wBytes_length]
  · show ((s.routed i).setPeer r d a (wBytes w)).die k = _
    rw [hdie, State.die_setNear, if_neg fun h => hk h.1.symm]
    rfl


theorem deliveries : Claims.Deliveries := by
  intro s i r hi ho hst
  refine ⟨fun pa w hb hr => ⟨fun bs => ?_, fun l hl => ?_⟩, fun pa j hb hr hs bs => ?_, fun pa w l hb hr hl hv bs => ?_,
    fun pa w hb hr hv hp d a bs hsite hd hwf => ?_⟩
  · exact (exec_deliver hi ho hst (.inl ⟨bs, rfl⟩) (.inl ⟨pa, w, hb⟩)).trans
      (congrArg _ (deliverEffect_stx_ok (s := s.routed i) hb ((peerOutcome_away (s := s.routed i) hr 4 .store _).1 bs)))
  · exact (exec_deliver hi ho hst (.inr rfl) (.inl ⟨pa, w, hb⟩)).trans
      (congrArg _ ((deliverEffect_stx_lost (s := s.routed i) hb (peerOutcome_away (s := s.routed i) hr 4 .store _).2).trans (loseStore_of hl)))
  · have hexec := exec_deliver hi ho hst (.inl ⟨bs, rfl⟩) (.inr ⟨pa, j, hb⟩)
    rw [deliverEffect_ldx hb (by exact hr)] at hexec
    obtain ⟨hroutes, hstage, hmem⟩ := peerLoad_done ((s.routed i).peerAnswered ((s.routed i).op j).tid j) r.acq ((s.routed i).op j).tid j
      (s.routed i).openDetail [wOf bs]
    exact ⟨_, hexec, hroutes, fun _ => hstage, hmem⟩
  · exact (exec_deliver hi ho hst (.inl ⟨bs, rfl⟩) (.inl ⟨pa, w, hb⟩)).trans
      (congrArg _ ((deliverEffect_stx_lost (s := s.routed i) hb (peerOutcome_stale (s := s.routed i) hr hv _ 4 .store _)).trans (loseStore_of hl)))
  · exact own_store_delivered hi ho hst hb hr hv hp hsite hd hwf bs

/-- Settles O22: what a delivery of a peer store or load does, by where the peer is (`peerOutcome_away`, `peerOutcome_own`). -/
theorem routesDeliver : Obligations.RoutesDeliver := deliveries

end

end Sys2Proof.Machine
end

section
/-! PROOF. Engine steps: ENGINE_START and ENGINE_READ of matrix commands, copies, sorts and collectives (O41). -/

namespace Sys2Proof.Machine

/-! ### Start (R58, R210, R231) -/

section
variable {s : State} {i : Nat}

theorem State.recordRead_clean (hp : s.planted = []) (i n : Nat) (f : State → State) : s.recordRead i n f = f s := by
  unfold State.recordRead
  simp only [State.placeEcc_clean _ _ _ _ _ hp, Bool.false_eq_true, if_false]

theorem State.startWith_bad {r : List Word} {code base : Nat} {flags : Bool} (h : code ≠ 0) :
    s.startWith i r code base flags = s.completeOp i 4 (BitVec.ofNat 32 (base + code)) := if_pos h

/-- A command whose record has no flags starts with its own. -/
theorem State.startWith_plain {r : List Word} {code base : Nat} (h : code = 0) : s.startWith i r code base false =
    s.modOp i fun o => { o with stage := .started, record := r } := if_neg (not_not.mpr h)

/-- The receivers that a record names get records of their own, with empty buffers. -/
theorem State.nameReceivers_sameMemory (s : State) (i : Nat) (r : List Word) : SameMemory s (s.nameReceivers i r) := by
  refine ⟨fun _ _ => rfl, fun c sp a => ?_⟩
  unfold State.nameReceivers State.co
  dsimp only
  by_cases hc : c < s.cores.length
  · rw [List.getD_append _ _ _ _ hc]
  · have hnew : ∀ (l : List Nat) (k : Nat) (f : Nat → CoreSt), (∀ x, (f x).buf sp = []) →
        ((l.map f).getD k CoreSt.blank).buf sp = [] := by
      intro l k f hf
      rw [List.getD_eq_getElem?_getD, List.getElem?_map]
      cases l[k]? with
      | none => cases sp <;> rfl
      | some x => exact hf x
    rw [List.getD_append_right _ _ _ _ (Nat.le_of_not_lt hc), hnew _ _ _ (fun _ => by cases sp <;> rfl),
      List.getD_eq_default _ _ (Nat.le_of_not_lt hc)]
    cases sp <;> rfl

/-- A command starts with its record and the record's flags. -/
theorem State.startWith_flags {r : List Word} {code base : Nat} (h : code = 0) (hi : i < s.ops.length) :
    let u := s.startWith i r code base true
    (u.op i).stage = .started ∧ (u.op i).record = r ∧ (u.op i).acq = rAcq r ∧ (u.op i).rel = rRel r := by
  intro u
  have hu : u.op i = { s.op i with stage := .started, record := r, acq := rAcq r, rel := rRel r, scope := rScope r } := by
    simp only [u, State.startWith, if_neg (not_not.mpr h), if_true]
    rw [State.op_modOp_self _ _ _ (by exact hi)]
    rfl
  rw [hu]
  exact ⟨rfl, rfl, rfl, rfl⟩

theorem State.startWith_sameMemory {r : List Word} {code base : Nat} (h : code = 0) (i : Nat) :
    SameMemory s (s.startWith i r code base true) := by
  simp only [State.startWith, if_neg (not_not.mpr h), if_true]
  exact s.nameReceivers_sameMemory i r

theorem exec_engineStart_matrix (hs : (s.op i).stage = .queued) (hq : queueReady s i = true) (hh : engineHere s (s.op i) = true)
    (he : (s.op i).engine = 1) (hf : (s.op i).fn ≠ 1) (ha : acqReady s (s.op i) = true) :
    exec (.engineStart i) s = .next (s.modOp i fun o => { o with stage := .started }) := by
  refine congrArg Host.Outcome.next ((if_pos ⟨hs, hq, hh⟩).trans ?_)
  simp [he, hf, ha]

theorem exec_engineStart_mdr {bs : List Byte} (hs : (s.op i).stage = .queued) (hq : queueReady s i = true)
    (hh : engineHere s (s.op i) = true) (hp : s.planted = []) (he : (s.op i).engine = 1) (hf : (s.op i).fn = 1)
    (ha : acqReady s (s.op i) = true) (hr : s.recordView (s.op i) (s.op i).arg 32 = some bs) : exec (.engineStart i) s =
    .next (s.startWith i (wordsOf 8 bs) (mdrCode (wordsOf 8 bs)) 0x4D440000 false) := by
  refine congrArg Host.Outcome.next ((if_pos ⟨hs, hq, hh⟩).trans ?_)
  simp [he, hf, ha, hr, State.recordRead_clean hp]

theorem exec_engineStart_copy {r : List Word} (hs : (s.op i).stage = .queued) (hq : queueReady s i = true)
    (hh : engineHere s (s.op i) = true) (hp : s.planted = []) (he : (s.op i).engine = 2) (hr : readRecord s i = some r) :
    exec (.engineStart i) s = .next (s.startWith i r (copyCode s (s.op i).ctx (s.op i).arg r) 0x43500000 true) := by
  refine congrArg Host.Outcome.next ((if_pos ⟨hs, hq, hh⟩).trans ?_)
  simp [he, hr, State.recordRead_clean hp]

theorem exec_engineStart_sort {bs : List Byte} (hs : (s.op i).stage = .queued) (hq : queueReady s i = true)
    (hh : engineHere s (s.op i) = true) (hp : s.planted = []) (he : (s.op i).engine = 3)
    (hr : s.recordView (s.op i) (s.op i).arg 64 = some bs) : exec (.engineStart i) s =
    .next (s.startWith i (wordsOf 16 bs) (sortCode s (s.co (s.op i).coreId).ldie (wordsOf 16 bs)) 0x53540000 false) := by
  refine congrArg Host.Outcome.next ((if_pos ⟨hs, hq, hh⟩).trans ?_)
  simp [he, hr, State.recordRead_clean hp]

theorem exec_engineStart_collective {r : List Word} (hs : (s.op i).stage = .queued) (hq : queueReady s i = true)
    (hh : engineHere s (s.op i) = true) (hp : s.planted = []) (he : (s.op i).engine = 4) (hr : readRecord s i = some r) :
    exec (.engineStart i) s = .next (s.startWith i r (colCode s (s.op i).arg r) 0x434C0000 true) := by
  refine congrArg Host.Outcome.next ((if_pos ⟨hs, hq, hh⟩).trans ?_)
  simp [he, hr, State.recordRead_clean hp]

end

theorem engineStarts : Claims.EngineStarts := by
  intro s i o
  refine ⟨fun hs => congrArg Host.Outcome.next (if_neg fun h => hs h.1), fun hs hq hh => ⟨fun he hf ha => ?_, fun bs he hf ha hr hp => ?_,
    fun r he hr hp => ?_, fun bs he hr hp => ?_, fun r he hr hp => ?_⟩⟩
  · exact exec_engineStart_matrix hs hq hh he hf ha
  · have hrun := exec_engineStart_mdr hs hq hh hp he hf ha hr
    exact ⟨fun h => hrun.trans (congrArg _ (State.startWith_plain h)), fun h => hrun.trans (congrArg _ (State.startWith_bad h))⟩
  · have hrun := exec_engineStart_copy hs hq hh hp he hr
    exact ⟨fun h => ⟨_, hrun, State.startWith_flags h, State.startWith_sameMemory h i⟩, fun h => hrun.trans (congrArg _ (State.startWith_bad h))⟩
  · have hrun := exec_engineStart_sort hs hq hh hp he hr
    exact ⟨fun h => hrun.trans (congrArg _ (State.startWith_plain h)), fun h => hrun.trans (congrArg _ (State.startWith_bad h))⟩
  · have hrun := exec_engineStart_collective hs hq hh hp he hr
    exact ⟨fun h => ⟨_, hrun, State.startWith_flags h, State.startWith_sameMemory h i⟩, fun h => hrun.trans (congrArg _ (State.startWith_bad h))⟩

/-! ### Reads of matrix commands and copies (R58, R210, R215, R220, R234) -/

section
variable {s : State} {i : Nat} {m : PeerMsg} {bs : List Byte} {p : Pte}

theorem exec_engineRead_wait (hs : (s.op i).stage = .started) (h : acqReady s (s.op i) = false) : exec (.engineRead i m) s = .next s := by
  refine congrArg Host.Outcome.next (if_neg ?_)
  rintro ⟨_, _, ha⟩
  exact Bool.false_ne_true (h.symm.trans ha)

theorem exec_engineRead_mma (hs : (s.op i).stage = .started) (hh : engineHere s (s.op i) = true) (ha : acqReady s (s.op i) = true)
    (he : (s.op i).engine = 1) (hf : (s.op i).fn = 0) : exec (.engineRead i m) s = .next (mmaRead s i) := by
  refine congrArg Host.Outcome.next ((if_pos ⟨.inl hs, hh, ha⟩).trans ?_)
  simp [he, hf]

theorem exec_engineRead_copy (hs : (s.op i).stage = .started) (hh : engineHere s (s.op i) = true) (ha : acqReady s (s.op i) = true)
    (he : (s.op i).engine = 2) : exec (.engineRead i m) s = .next (copyRead s i) := by
  refine congrArg Host.Outcome.next ((if_pos ⟨.inl hs, hh, ha⟩).trans ?_)
  simp [he]

theorem exec_engineRead_collective (hs : (s.op i).stage = .started) (hh : engineHere s (s.op i) = true) (ha : acqReady s (s.op i) = true)
    (he : (s.op i).engine = 4) : exec (.engineRead i m) s = .next (colRead s i m) := by
  refine congrArg Host.Outcome.next ((if_pos ⟨.inl hs, hh, ha⟩).trans ?_)
  simp [he]

/-- An `mma` that has all that the block at its cursor needs takes the block. -/
theorem mmaRead_block (hc : (s.op i).cursor < mmaBlocks (s.op i).record) (h : (s.op i).unread (mmaUnits (s.op i) (s.op i).cursor) = []) :
    mmaRead s i = s.modOp i fun o => { o with cursor := o.cursor + 1, midBlock := false } := by
  rw [mmaRead]
  simp only [if_neg (Nat.not_le.mpr hc), h, List.isEmpty_nil, if_true]

/-- An `mma` that has not reads the value of its free choice. -/
theorem mmaRead_unit {n : MmaUnit} {s' : State} (hc : (s.op i).cursor < mmaBlocks (s.op i).record)
    (h : (s.op i).unread (mmaUnits (s.op i) (s.op i).cursor) ≠ []) (hn : mmaNext (s.op i) (Config.mmaPick s.tick) = some n)
    (hr : s.readBuf i (mmaSite s (s.op i) n).1 (mmaSite s (s.op i) n).2.1 (mmaSite s (s.op i) n).2.2.1 (mmaSite s (s.op i) n).2.2.2 =
      .ok s' bs p) :
    mmaRead s i = s'.modOp i fun o => { o with
      units := (n, bs) :: o.units
      midBlock := o.midBlock || ((s.op i).unread (mmaUnits (s.op i) (s.op i).cursor)).contains n } := by
  have he : ((s.op i).unread (mmaUnits (s.op i) (s.op i).cursor)).isEmpty = false := by rwa [List.isEmpty_eq_false_iff]
  rw [mmaRead]
  simp only [if_neg (Nat.not_le.mpr hc), he, Bool.false_eq_true, if_false, hn, hr, EngineRead.andThen]

/-- The source of a copy's next element. -/
def nextAt (s : State) (i : Nat) : Where_ := sourceAt s i (elemOffs (s.op i).record (s.op i).cursor).1

theorem nextSource_busy (h : sourceBusy s i (nextAt s i) = true) : nextSource s i = none := by
  unfold nextAt at h
  simp only [nextSource, h, Bool.not_true, Bool.and_false, Bool.false_eq_true, if_false]

theorem nextSource_ready (hc : (s.op i).cursor < rCount (s.op i).record) (hs : (s.op i).status = 0)
    (h : sourceBusy s i (nextAt s i) = false) : nextSource s i = some (nextAt s i) := by
  unfold nextAt at h ⊢
  simp only [nextSource, h, hc, hs, decide_true, Bool.not_false, Bool.and_true, if_true]

/-- Reading a buffer through the core view, where no error is planted. -/
theorem State.readBuf_clean (hp : s.planted = []) {c : Nat} {sp : Space} {off n : Nat}
    (h : s.coreView (s.op i).coreId c sp off n = some bs) : s.readBuf i c sp off n = .ok s bs noPte := by
  unfold State.readBuf
  simp only [h, State.placeEcc_clean _ _ _ _ _ hp, Bool.false_eq_true, if_false]
  rfl

theorem State.readBuf_none {c : Nat} {sp : Space} {off n : Nat} (h : s.coreView (s.op i).coreId c sp off n = none) :
    s.readBuf i c sp off n = .wait := by
  unfold State.readBuf
  simp only [h]

/-- Reading near memory, where no error is planted: the translation stays in the die's TLB. -/
theorem State.readNear_clean (hp : s.planted = []) {l va n pa : Nat} (ht : s.translate none (s.op i).ctx l va .load = .ok (p, pa))
    (hw : writeDue s i (s.pdie l) pa n = false) :
    s.readNear i l va n = .ok (s.tlbFill none (s.op i).ctx l va p) (s.near (s.pdie l) pa n) p := by
  unfold State.readNear
  simp only [ht, hw, Bool.false_eq_true, if_false, State.useXlate_clean _ _ _ _ _ _ hp]
  rw [State.eccGuard_clean _ _ _ _ _ _ (by exact hp)]
  rfl

theorem State.readNear_due {l va n pa : Nat} (ht : s.translate none (s.op i).ctx l va .load = .ok (p, pa))
    (hw : writeDue s i (s.pdie l) pa n = true) : s.readNear i l va n = .wait := by
  unfold State.readNear
  simp only [ht, hw, if_true]

/-- What a copy that takes an element leaves. -/
structure Took (s u : State) (i : Nat) (bs : List Byte) : Prop where
  cursor : (u.op i).cursor = (s.op i).cursor + 1
  outs : ∃ tag, (u.op i).outs = elemWrites s i (s.op i).record (elemOffs (s.op i).record (s.op i).cursor).2 bs tag
  memory : SameMemory s u
  threads : u.threads = s.threads

/-- An element that a copy has read in a state with other TLBs at most: its writes stand to be made. -/
theorem copyTake_took {u : State} {w : Where_} (hk : rKind (s.op i).record = false) (ho : (s.op i).outs = []) (hi : i < s.ops.length)
    (hop : u.ops = s.ops) (hth : u.threads = s.threads) (hmem : SameMemory s u)
    (hwr : ∀ tag, elemWrites u i (s.op i).record (elemOffs (s.op i).record (s.op i).cursor).2 bs tag =
      elemWrites s i (s.op i).record (elemOffs (s.op i).record (s.op i).cursor).2 bs tag) : Took s (copyTake u i w bs p) i bs := by
  have hui : u.op i = s.op i := by rw [State.op, State.op, hop]
  have hlen : i < u.ops.length := by rw [hop]; exact hi
  unfold copyTake
  simp only [hui, hk, Bool.false_eq_true, if_false]
  refine ⟨?_, ⟨tagFor (s.op i).record (srcTag u (s.op i) w p), ?_⟩, hmem, hth⟩ <;> rw [State.op_modOp_self _ _ _ hlen, hui]
  show (s.op i).outs ++ _ = _
  rw [ho, List.nil_append, hwr]

/-- A copy reads an element of a buffer. -/
theorem copyRead_buf {sp : Space} {off : Nat} (hk : rKind (s.op i).record = false) (ho : (s.op i).outs = []) (hi : i < s.ops.length)
    (hn : nextSource s i = some (.buf sp off)) (hp : s.planted = [])
    (hv : s.coreView (s.op i).coreId (if sp = .a then s.homeOf (s.op i).tid else (s.op i).coreId) sp off (rB (s.op i).record) = some bs) :
    Took s (copyRead s i) i bs := by
  have hrun : copyRead s i = copyTake s i (.buf sp off) bs noPte := by
    simp only [copyRead, hn, State.readSource, State.readBuf_clean hp hv, EngineRead.andThen, EngineRead.isFault, Bool.false_and,
      Bool.false_eq_true, if_false]
  rw [hrun]
  exact copyTake_took hk ho hi rfl rfl ⟨fun _ _ => rfl, fun _ _ _ => rfl⟩ fun _ => rfl

/-- A copy reads an element of near memory. -/
theorem copyRead_near {l va pa : Nat} (hk : rKind (s.op i).record = false) (ho : (s.op i).outs = []) (hi : i < s.ops.length)
    (hn : nextSource s i = some (.near l va)) (hp : s.planted = []) (ht : s.translate none (s.op i).ctx l va .load = .ok (p, pa))
    (hw : writeDue s i (s.pdie l) pa (rB (s.op i).record) = false) :
    Took s (copyRead s i) i (s.near (s.pdie l) pa (rB (s.op i).record)) := by
  have hrun : copyRead s i = copyTake (s.tlbFill none (s.op i).ctx l va p) i (.near l va)
      (s.near (s.pdie l) pa (rB (s.op i).record)) p := by
    simp only [copyRead, hn, State.readSource, State.readNear_clean hp ht hw, EngineRead.andThen, EngineRead.isFault, Bool.false_and,
      Bool.false_eq_true, if_false]
  rw [hrun]
  exact copyTake_took hk ho hi rfl rfl (State.tlbFill_caches s none _ l va p).sameMemory fun _ => rfl

end

theorem engineReads : Claims.EngineReads := by
  intro s s' i m bs p o hs hh
  refine ⟨fun ha => exec_engineRead_wait hs ha, fun ha => ⟨fun he hf hc => ⟨fun hd => ?_, fun hd n hn => ?_⟩, fun he hb => ?_,
    fun he hk ho hc hst hb => ⟨fun sp off hw hp hv hi => ?_, fun l va d pa hw hp ht hd hdue hi => ?_⟩⟩⟩
  · exact (exec_engineRead_mma hs hh ha he hf).trans (congrArg _ (mmaRead_block hc hd))
  · intro x hr
    exact (exec_engineRead_mma hs hh ha he hf).trans (congrArg _ (mmaRead_unit hc hd hn hr))
  · refine (exec_engineRead_copy hs hh ha he).trans (congrArg _ ?_)
    simp only [copyRead, nextSource_busy hb]
  · have hn : nextSource s i = some (.buf sp off) := (nextSource_ready hc hst hb).trans (congrArg _ hw)
    have htook := copyRead_buf hk ho hi hn hp hv
    exact ⟨_, exec_engineRead_copy hs hh ha he, htook.cursor, htook.outs, htook.memory, htook.threads⟩
  · subst hd
    have hn : nextSource s i = some (.near l va) := (nextSource_ready hc hst hb).trans (congrArg _ hw)
    have htook := copyRead_near hk ho hi hn hp ht hdue
    exact ⟨_, exec_engineRead_copy hs hh ha he, htook.cursor, htook.outs, htook.memory, htook.threads⟩

/-! ### Reads of collectives (R249 to R255) -/

section
variable {s : State} {i : Nat} {others : List Byte}

/-- This member's position in its group. -/
def posAt (s : State) (i : Nat) : Nat := groupPos (s.op i).record s.rank.toNat

/-- The bytes that the other members bring for a collective's next element. -/
def sentAt (s : State) (i : Nat) : Nat :=
  othersBytes (s.op i).record (posAt s i) (s.op i).cursor + if farTag (s.op i).record (posAt s i) (s.op i).cursor then 1 else 0

/-- A collective takes a value and its tag for the element at its cursor. -/
def takeElem (s u : State) (i : Nat) (v : List Byte × Flags) (tag : Tag) : State :=
  u.modOp i fun x => { x with
    cursor := x.cursor + 1, flags := x.flags ||| v.2
    got := if (destElem (s.op i).record (posAt s i) (s.op i).cursor).isSome then x.got ++ [v.1] else x.got
    tags := if (destElem (s.op i).record (posAt s i) (s.op i).cursor).isSome then x.tags ++ [tag] else x.tags }

/-- What a collective that takes an element leaves. -/
structure Taken (s u : State) (i : Nat) (v : List Byte × Flags) (tag : Tag) : Prop where
  memory : SameMemory s u
  threads : u.threads = s.threads
  op : u.op i = { s.op i with
    cursor := (s.op i).cursor + 1, flags := (s.op i).flags ||| v.2
    got := if (destElem (s.op i).record (posAt s i) (s.op i).cursor).isSome then (s.op i).got ++ [v.1] else (s.op i).got
    tags := if (destElem (s.op i).record (posAt s i) (s.op i).cursor).isSome then (s.op i).tags ++ [tag] else (s.op i).tags }

theorem takeElem_taken {u : State} (hi : i < s.ops.length) (hop : u.ops = s.ops) (hth : u.threads = s.threads) (hmem : SameMemory s u)
    (v : List Byte × Flags) (tag : Tag) : Taken s (takeElem s u i v tag) i v tag := by
  refine ⟨hmem, hth, ?_⟩
  rw [takeElem, State.op_modOp_self _ _ _ (by rw [hop]; exact hi), State.op, hop]
  rfl

theorem colRead_wrong (hl : others.length ≠ sentAt s i) : colRead s i (.done others) = s := by
  unfold sentAt posAt at hl
  simp only [colRead, hl, decide_false, Bool.and_false, Bool.false_eq_true, if_false]

/-- A collective whose next element is another member's. -/
theorem colRead_far (hs : (s.op i).stage = .started) (hc : (s.op i).cursor < rCount (s.op i).record) (hst : (s.op i).status = 0)
    (hl : others.length = sentAt s i) (ho : ownSource (s.op i).record (posAt s i) (s.op i).cursor = none) :
    ∃ tag, colRead s i (.done others) = takeElem s s i (colValue (s.op i).record (posAt s i) none others) tag := by
  unfold sentAt posAt at hl
  unfold posAt at ho
  refine ⟨if farTag (s.op i).record (posAt s i) (s.op i).cursor then Tag.ofCode ((others.getLastD 0).setWidth 3) else .raw, ?_⟩
  simp only [colRead, hs, hc, hst, hl, ho, decide_true, Bool.and_true, if_true]
  rfl

/-- A collective whose own next element is in engine staging. -/
theorem colRead_staged {off : Int} {bs : List Byte} (hs : (s.op i).stage = .started) (hc : (s.op i).cursor < rCount (s.op i).record)
    (hst : (s.op i).status = 0) (hl : others.length = sentAt s i)
    (ho : ownSource (s.op i).record (posAt s i) (s.op i).cursor = some off) (hb : stagedAt s i (sourceAt s i off) = some bs) :
    ∃ tag, colRead s i (.done others) = takeElem s s i (colValue (s.op i).record (posAt s i) (some bs) others) tag := by
  unfold sentAt posAt at hl
  unfold posAt at ho
  refine ⟨stagedTag s i (sourceAt s i off) noPte, ?_⟩
  simp only [colRead, hs, hc, hst, hl, ho, hb, decide_true, Bool.and_true, if_true]
  rfl

/-- A collective whose own next element is read at its source. -/
theorem colRead_read {off : Int} (hs : (s.op i).stage = .started) (hc : (s.op i).cursor < rCount (s.op i).record)
    (hst : (s.op i).status = 0) (hl : others.length = sentAt s i)
    (ho : ownSource (s.op i).record (posAt s i) (s.op i).cursor = some off) (hb : stagedAt s i (sourceAt s i off) = none) :
    colRead s i (.done others) = (s.readSource i (sourceAt s i off)).andThen s fun u bs p =>
      takeElem s u i (colValue (s.op i).record (posAt s i) (some bs) others) (stagedTag u i (sourceAt s i off) p) := by
  unfold sentAt posAt at hl
  unfold posAt at ho
  simp only [colRead, hs, hc, hst, hl, ho, hb, decide_true, Bool.and_true, if_true]
  rfl

/-! Reading a source element, and what follows -/

section
variable {w : Where_} {f : State → List Byte → Pte → State}

theorem andThen_buf_none {sp : Space} {a : Nat} (hw : w = .buf sp a)
    (hv : s.coreView (s.op i).coreId (if sp = .a then s.homeOf (s.op i).tid else (s.op i).coreId) sp a (rB (s.op i).record) = none) :
    (s.readSource i w).andThen s f = s := by
  subst hw
  rw [show s.readSource i (.buf sp a) = .wait from State.readBuf_none hv, EngineRead.andThen]

theorem andThen_buf {sp : Space} {a : Nat} {bs : List Byte} (hp : s.planted = []) (hw : w = .buf sp a)
    (hv : s.coreView (s.op i).coreId (if sp = .a then s.homeOf (s.op i).tid else (s.op i).coreId) sp a (rB (s.op i).record) = some bs) :
    (s.readSource i w).andThen s f = f s bs noPte := by
  subst hw
  rw [show s.readSource i (.buf sp a) = .ok s bs noPte from State.readBuf_clean hp hv, EngineRead.andThen]

theorem andThen_near_due {l va pa : Nat} {p : Pte} (hw : w = .near l va) (ht : s.translate none (s.op i).ctx l va .load = .ok (p, pa))
    (hdue : writeDue s i (s.pdie l) pa (rB (s.op i).record) = true) : (s.readSource i w).andThen s f = s := by
  subst hw
  rw [show s.readSource i (.near l va) = .wait from State.readNear_due ht hdue, EngineRead.andThen]

theorem andThen_near {l va pa : Nat} {p : Pte} (hp : s.planted = []) (hw : w = .near l va)
    (ht : s.translate none (s.op i).ctx l va .load = .ok (p, pa)) (hdue : writeDue s i (s.pdie l) pa (rB (s.op i).record) = false) :
    (s.readSource i w).andThen s f = f (s.tlbFill none (s.op i).ctx l va p) (s.near (s.pdie l) pa (rB (s.op i).record)) p := by
  subst hw
  rw [show s.readSource i (.near l va) = _ from State.readNear_clean hp ht hdue, EngineRead.andThen]

end

/-- With MODE 2 or 3 the element of another member is what it brings. -/
theorem colValue_far {r : List Word} {pos e : Nat} (ho : ownSource r pos e = none) :
    colValue r pos none others = (others.take (rB r), 0) := by
  have hm : ¬cMode r ≤ 1 := by
    intro hm
    interval_cases h : cMode r <;> simp [ownSource, h] at ho
  simp only [colValue, if_neg hm]

theorem colValue_own (r : List Word) (pos : Nat) (bs : List Byte) : colValue r pos (some bs) others =
    if cMode r ≤ 1 then foldElems (cOp r) (cEtype r)
      ((cut (rB r) (groupSize r - 1) others).take pos ++ [bs] ++ (cut (rB r) (groupSize r - 1) others).drop pos) else (bs, 0) := rfl

end

theorem collectiveReads : Claims.CollectiveReads := by
  intro s i others o r e pos he hs hst hc hi ha run takes value sent
  have hh : engineHere s (s.op i) = true := by
    have he' : (s.op i).engine = 4 := he
    simp [engineHere, he']
  have hrun : run = .next (colRead s i (.done others)) := exec_engineRead_collective hs hh ha he
  have htakes : ∀ {u v tag}, s.ops = u.ops → u.threads = s.threads → SameMemory s u → colRead s i (.done others) = takeElem s u i v tag →
      takes v := fun hop hth hmem h =>
    have ht := takeElem_taken hi hop.symm hth hmem _ _
    ⟨_, _, hrun.trans (congrArg _ h), ht.memory, ht.threads, ht.op⟩
  refine ⟨fun hl => hrun.trans (congrArg _ (colRead_wrong hl)), fun hl => ⟨fun ho => ?_, fun off ho => ⟨fun bs hb => ?_,
    fun hb hp => ⟨fun sp a hw => ⟨fun hv => ?_, fun bs hv => ?_⟩, fun l va p pa hw ht => ⟨fun hdue => ?_, fun hdue => ?_⟩⟩⟩⟩⟩
  · obtain ⟨tag, h⟩ := colRead_far hs hc hst hl ho
    refine htakes rfl rfl ⟨fun _ _ => rfl, fun _ _ _ => rfl⟩ (h.trans (congrArg (takeElem s s i · tag) (colValue_far ho)))
  · obtain ⟨tag, h⟩ := colRead_staged hs hc hst hl ho hb
    exact htakes rfl rfl ⟨fun _ _ => rfl, fun _ _ _ => rfl⟩ h
  · exact hrun.trans (congrArg _ ((colRead_read hs hc hst hl ho hb).trans (andThen_buf_none hw hv)))
  · exact htakes rfl rfl ⟨fun _ _ => rfl, fun _ _ _ => rfl⟩ ((colRead_read hs hc hst hl ho hb).trans (andThen_buf hp hw hv))
  · exact hrun.trans (congrArg _ ((colRead_read hs hc hst hl ho hb).trans (andThen_near_due hw ht hdue)))
  · exact htakes (u := s.tlbFill none (s.op i).ctx l va p) rfl rfl (State.tlbFill_caches s none _ l va p).sameMemory
      ((colRead_read hs hc hst hl ho hb).trans (andThen_near hp hw ht hdue))

/-- Settles O41: a start reads and checks its record, and each read takes its value through the core view or from near memory. -/
theorem engineStartAndRead : Obligations.EngineStartAndRead := ⟨engineStarts, engineReads, collectiveReads⟩

end Sys2Proof.Machine
end

section
/-! PROOF. Canonical memories (O57): what keeps the memories of a state in canonical form. The rules have the names of the operations,
so that a proof is the chain of rules that the operation's own definition calls. -/

namespace Sys2Proof.Machine

namespace State.MemCanonical

variable {s u : State}

/-! ### Updates of the state -/

section

/-- A state with the same dies and cores. -/
theorem set (hd : u.dies = s.dies) (hc : u.cores = s.cores) (h : s.MemCanonical) : u.MemCanonical := by
  rw [State.MemCanonical, hd, hc]
  exact h

theorem modTh {t f} (h : s.MemCanonical) : (s.modTh t f).MemCanonical := h
theorem modWp {w f} (h : s.MemCanonical) : (s.modWp w f).MemCanonical := h
theorem modTm {i f} (h : s.MemCanonical) : (s.modTm i f).MemCanonical := h
theorem modOp {i f} (h : s.MemCanonical) : (s.modOp i f).MemCanonical := h
theorem modCl {i f} (h : s.MemCanonical) : (s.modCl i f).MemCanonical := h
theorem modLa {i f} (h : s.MemCanonical) : (s.modLa i f).MemCanonical := h
theorem modPort {p f} (h : s.MemCanonical) : (s.modPort p f).MemCanonical := h
theorem modCtx {c f} (h : s.MemCanonical) : (s.modCtx c f).MemCanonical := h

theorem modDie {d f} (h : s.MemCanonical) (hf : ∀ x : Die, Memory.wf x.mem = true → Memory.wf (f x).mem = true) :
    (s.modDie d f).MemCanonical := by
  refine ⟨fun x hx => ?_, h.2⟩
  obtain ⟨n, hn, rfl⟩ := List.getElem_of_mem hx
  simp only [State.modDie, List.length_modify] at hn
  simp only [State.modDie, List.getElem_modify]
  split
  · exact hf _ (h.1 _ (List.getElem_mem hn))
  · exact h.1 _ (List.getElem_mem hn)

theorem modCo {c f} (h : s.MemCanonical) (hf : ∀ k : CoreSt, k.Canonical → (f k).Canonical) : (s.modCo c f).MemCanonical := by
  refine ⟨h.1, fun k hk => ?_⟩
  obtain ⟨n, hn, rfl⟩ := List.getElem_of_mem hk
  simp only [State.modCo, List.length_modify] at hn
  simp only [State.modCo, List.getElem_modify]
  split
  · exact hf _ (h.2 _ (List.getElem_mem hn))
  · exact h.2 _ (List.getElem_mem hn)

/-- Every die and every core is updated. -/
theorem map {f : Die → Die} {g : CoreSt → CoreSt} (h : s.MemCanonical) (hd : u.dies = s.dies.map f) (hc : u.cores = s.cores.map g)
    (hf : ∀ x : Die, Memory.wf x.mem = true → Memory.wf (f x).mem = true)
    (hg : ∀ k : CoreSt, k.Canonical → (g k).Canonical) : u.MemCanonical := by
  rw [State.MemCanonical, hd, hc]
  exact ⟨List.forall_mem_map.2 fun x hx => hf x (h.1 x hx), List.forall_mem_map.2 fun k hk => hg k (h.2 k hk)⟩

/-- Every core is updated. -/
theorem mapCores {g : CoreSt → CoreSt} (h : s.MemCanonical) (hd : u.dies = s.dies) (hc : u.cores = s.cores.map g)
    (hg : ∀ k : CoreSt, k.Canonical → (g k).Canonical) : u.MemCanonical :=
  h.map (f := id) (by rw [hd, List.map_id]) hc (fun _ hx => hx) hg

/-- Cores are added. -/
theorem addCores {ks : List CoreSt} (h : s.MemCanonical) (hd : u.dies = s.dies) (hc : u.cores = s.cores ++ ks)
    (hk : ∀ k ∈ ks, k.Canonical) : u.MemCanonical := by
  rw [State.MemCanonical, hd, hc]
  refine ⟨h.1, fun k hm => ?_⟩
  rcases List.mem_append.1 hm with hm | hm
  · exact h.2 k hm
  · exact hk k hm

/-! ### Branches and folds -/

theorem ite {c : Prop} [Decidable c] (h : s.MemCanonical) (k : u.MemCanonical) : (if c then s else u).MemCanonical := by
  split
  · exact h
  · exact k

theorem foldl {α : Type} {f : State → α → State} {l : List α} (h : s.MemCanonical)
    (hf : ∀ {s x}, s.MemCanonical → (f s x).MemCanonical) :
    (l.foldl f s).MemCanonical := by
  induction l generalizing s with
  | nil => exact h
  | cons x l ih => exact ih (hf h)

theorem getD {o : Option State} (h : s.MemCanonical) (ho : ∀ u ∈ o, u.MemCanonical) : (o.getD s).MemCanonical := by
  cases o with
  | none => exact h
  | some v => exact ho v rfl

end

/-! ### Results that may be missing -/

section

theorem some (h : s.MemCanonical) : ∀ v ∈ Option.some s, v.MemCanonical := fun _ hv => Option.mem_some.1 hv ▸ h

end

theorem none : ∀ v ∈ (Option.none : Option State), v.MemCanonical := fun _ hv => nomatch hv

theorem optionIte {c : Prop} [Decidable c] {a b : Option State} (ha : ∀ v ∈ a, v.MemCanonical) (hb : ∀ v ∈ b, v.MemCanonical) :
    ∀ v ∈ if c then a else b, v.MemCanonical := by
  split
  · exact ha
  · exact hb

theorem optionMap {f : State → State} {o : Option State} (ho : ∀ v ∈ o, v.MemCanonical)
    (hf : ∀ {s}, s.MemCanonical → (f s).MemCanonical) : ∀ v ∈ o.map f, v.MemCanonical := by
  intro v hv
  obtain ⟨w, hw, rfl⟩ := Option.map_eq_some_iff.1 hv
  exact hf (ho w hw)

/-- A fold of steps that may fail. -/
theorem foldlBind {α : Type} {f : State → α → Option State} {l : List α} {o : Option State} (ho : ∀ v ∈ o, v.MemCanonical)
    (hf : ∀ {s x}, s.MemCanonical → ∀ v ∈ f s x, v.MemCanonical) :
    ∀ v ∈ l.foldl (fun (a : Option State) x => a.bind fun s => f s x) o, v.MemCanonical := by
  induction l generalizing o with
  | nil => exact ho
  | cons x l ih =>
    refine ih fun v hv => ?_
    obtain ⟨w, hw, hv⟩ := Option.bind_eq_some_iff.1 hv
    exact hf (ho w hw) v hv

/-! ### States with a further result -/

theorem iteFst {β : Type} {c : Prop} [Decidable c] {a b : State × β} (h : a.1.MemCanonical) (k : b.1.MemCanonical) :
    (if c then a else b).1.MemCanonical := by
  split
  · exact h
  · exact k

theorem foldlFst {α β : Type} {f : State × β → α → State × β} {l : List α} {b : β} (h : s.MemCanonical)
    (hf : ∀ {r x}, r.1.MemCanonical → (f r x).1.MemCanonical) : (l.foldl f (s, b)).1.MemCanonical := by
  suffices hr : ∀ r : State × β, r.1.MemCanonical → (l.foldl f r).1.MemCanonical from hr (s, b) h
  intro r hr
  induction l generalizing r with
  | nil => exact hr
  | cons x l ih => exact ih _ (hf hr)

end State.MemCanonical

/-- The next state, if the outcome is one, has canonical memories. -/
def MemKept (o : Host.Outcome State Fault Refusal) : Prop := ∀ u, o = .next u → u.MemCanonical

theorem MemKept.next {u : State} (h : u.MemCanonical) : MemKept (.next u) := by
  rintro _ ⟨⟩
  exact h

end Sys2Proof.Machine
end

section
/-! PROOF. Canonical memories (O57): the model's operations on the state. -/

namespace Sys2Proof.Machine

theorem CoreSt.Canonical.addRecord {k : CoreSt} {e r} (h : k.Canonical) : (k.addRecord e r).Canonical := by
  rw [CoreSt.addRecord_only]
  exact h

namespace State.MemCanonical

section
variable {s u : State}

/-! ### Reports and errors -/

theorem eccWrite {arr addr len} (h : s.MemCanonical) : (s.eccWrite arr addr len).MemCanonical := .ite h h

theorem raiseVec {p vec} (h : s.MemCanonical) : (s.raiseVec p vec).MemCanonical := h.ite (h.modPort.ite h)

theorem raiseBoth {vec} (h : s.MemCanonical) : (s.raiseBoth vec).MemCanonical := h.foldl (fun k => k.raiseVec)

theorem pushEvent {e} (h : s.MemCanonical) : (s.pushEvent e).MemCanonical := .ite (.raiseBoth h) h

theorem ioEvent {kind socket detail} (h : s.MemCanonical) : (s.ioEvent kind socket detail).MemCanonical := .ite h h.pushEvent

theorem latchLost {d} (h : s.MemCanonical) : (s.latchLost d).MemCanonical := h.modDie fun _ hk => hk

theorem dieEvent {d kind detail i1 i2} (h : s.MemCanonical) : (s.dieEvent d kind detail i1 i2).MemCanonical :=
  h.pushEvent.ite (.ite (h.modDie fun _ hk => hk) h.latchLost)

theorem enterFault {d f} (h : s.MemCanonical) : (s.enterFault d f).MemCanonical :=
  .ite (.dieEvent (h.modDie fun _ hk => hk)) (h.modDie fun _ hk => hk)

theorem takeFault {d f} (h : s.MemCanonical) : ∀ v ∈ s.takeFault d f, v.MemCanonical := by
  unfold State.takeFault
  split
  · exact h.enterFault.some
  · split
    · exact .some (h.modDie fun _ hk => hk)
    · exact none

theorem reportFault {d f} (h : s.MemCanonical) : (s.reportFault d f).MemCanonical :=
  .ite (.ite (h.modDie fun _ hk => hk) (.latchLost (h.modDie fun _ hk => hk))) (.getD (.latchLost (h.modDie fun _ hk => hk)) h.takeFault)

theorem logError {ctx d p} (h : s.MemCanonical) : (s.logError ctx d p).MemCanonical := by
  unfold State.logError
  dsimp only
  split
  · exact .dieEvent h
  · exact h

theorem eccRead {arr addr len ctx d} (h : s.MemCanonical) : (s.eccRead arr addr len ctx d).1.MemCanonical := .foldl h (fun k => k.logError)

/-! ### Memory and copies -/

theorem setNear {d pa bs} (h : s.MemCanonical) : (s.setNear d pa bs).MemCanonical :=
  .eccWrite (h.modDie fun _ hx => Memory.wf_write bs pa hx)

theorem bufWrite {c sp x bs} (h : s.MemCanonical) : (s.bufWrite c sp x bs).MemCanonical :=
  .eccWrite (h.modCo fun _ hk => CoreSt.canonical_setBuf hk (Memory.wf_write bs x (CoreSt.wf_buf hk sp)))

theorem bufWriteTag {c sp x bs t} (h : s.MemCanonical) : (s.bufWriteTag c sp x bs t).MemCanonical := by
  unfold State.bufWriteTag
  dsimp only
  split
  · exact h.bufWrite.modCo fun _ hk => hk
  · exact h.bufWrite.modCo fun _ hk => hk
  · exact h.bufWrite

theorem discardCopies {c} (h : s.MemCanonical) : (s.discardCopies c).MemCanonical := h.modCo fun _ hk => hk

theorem discardAllCopies (h : s.MemCanonical) : (s.discardAllCopies).MemCanonical := .mapCores h rfl rfl fun _ hk => hk

theorem fillLine {c d line} (h : s.MemCanonical) : (s.fillLine c d line).MemCanonical := h.modCo fun _ hk => hk

theorem refreshCopy {c d pa len} (h : s.MemCanonical) : (s.refreshCopy c d pa len).MemCanonical := h.modCo fun _ hk => hk

theorem passCopies {d pa len} (h : s.MemCanonical) : (s.passCopies d pa len).MemCanonical := .mapCores h rfl rfl fun _ hk => hk

theorem tlbFill {core ctx ldie va p} (h : s.MemCanonical) : (s.tlbFill core ctx ldie va p).MemCanonical := by
  unfold State.tlbFill
  dsimp only
  split
  · exact .modCo (h.modDie fun _ hk => hk) fun _ hk => hk
  · exact h.modDie fun _ hk => hk

/-! ### Registers and threads -/

theorem setStatus {t st} (h : s.MemCanonical) : (s.setStatus t st).MemCanonical := h.modTh

theorem fillReg {t r w tag} (h : s.MemCanonical) : (s.fillReg t r w tag).MemCanonical := by
  unfold State.fillReg
  split
  · exact h.modTh
  · exact h.modWp

theorem fillRegs {t rs ws tag} (h : s.MemCanonical) : (s.fillRegs t rs ws tag).MemCanonical := by
  induction rs generalizing s ws with
  | nil => exact h
  | cons r rs ih =>
    cases ws with
    | nil => exact h
    | cons w ws => exact ih h.fillReg

theorem markEmpty {t r} (h : s.MemCanonical) : (s.markEmpty t r).MemCanonical := by
  unfold State.markEmpty
  split
  · exact h.modTh
  · exact h.modWp

theorem markAll {t rs} (h : s.MemCanonical) : (s.markAll t rs).MemCanonical := h.foldl (fun k => k.markEmpty)

theorem addFlags {t f} (h : s.MemCanonical) : (s.addFlags t f).MemCanonical := h.modWp

theorem retire {t len} (h : s.MemCanonical) : (s.retire t len).MemCanonical := h.modTh

theorem jump {t target len} (h : s.MemCanonical) : (s.jump t target len).MemCanonical := h.retire.ite h.modTh

theorem bump (h : s.MemCanonical) : (s.bump).MemCanonical := h

theorem toFifo {t e} (h : s.MemCanonical) : (s.toFifo t e).MemCanonical := h.modWp.bump

theorem growNew {t n f} (h : s.MemCanonical) : (s.growNew t n f).MemCanonical := h.modWp

/-! ### Completions and the ends of contexts -/

theorem ringRecord {p r} (h : s.MemCanonical) : (s.ringRecord p r).MemCanonical := .ite (.raiseVec h) h.modPort

theorem admitRing {n p} (h : s.MemCanonical) : (State.admitRing n s p).MemCanonical := by
  induction n generalizing s with
  | zero => exact h
  | succ n ih =>
    unfold State.admitRing
    split
    · exact h
    · split
      · exact ih h.modPort.ringRecord.modPort
      · exact h

theorem completeOp {i status detail vals} (h : s.MemCanonical) : (s.completeOp i status detail vals).MemCanonical := by
  unfold State.completeOp
  dsimp only
  split
  · exact h
  · split
    · exact h.modOp.ringRecord
    · exact h.modOp.fillRegs.modCo fun _ hk => CoreSt.Canonical.addRecord hk

theorem stopOp {i status detail} (h : s.MemCanonical) : (s.stopOp i status detail).MemCanonical := h.modOp

theorem putArrive {d pa} (h : s.MemCanonical) : (s.putArrive d pa).MemCanonical := by
  unfold State.putArrive
  dsimp only
  split
  · exact h.setNear
  · exact h

theorem lastArrival {l} (h : s.MemCanonical) : (s.lastArrival l).1.MemCanonical := by
  unfold State.lastArrival
  dsimp only
  split
  · exact h
  · split
    · exact .ite (h.foldlFst (fun k => k.eccRead)) (.putArrive (h.foldlFst (fun k => k.eccRead)))
    · exact h

theorem endLaunches {ctx status detail} (h : s.MemCanonical) : (s.endLaunches ctx status detail).MemCanonical := by
  unfold State.endLaunches
  refine h.foldl (fun k => ?_)
  dsimp only
  split
  · exact k.modLa.completeOp
  · exact k.lastArrival.modLa.completeOp.ite k.lastArrival.modLa.completeOp
  · exact k

theorem endOps {ctx} (h : s.MemCanonical) : (s.endOps ctx).MemCanonical := h.foldl (fun k => k.ite (k.stopOp.ite k.modOp))

theorem endCtx {ctx status detail} (h : s.MemCanonical) : (s.endCtx ctx status detail).MemCanonical := by
  refine State.MemCanonical.modCtx (h.endLaunches.endOps.map rfl rfl (fun _ hx => hx) fun k hk => ?_)
  split <;> exact hk

theorem endEcc {ctx} (h : s.MemCanonical) : (s.endEcc ctx).MemCanonical := h.endCtx

theorem eccGuard {arr addr len ctx d} (h : s.MemCanonical) : (s.eccGuard arr addr len ctx d).1.MemCanonical := by
  unfold State.eccGuard
  dsimp only
  split
  · exact h.eccRead.endEcc
  · exact h.eccRead

theorem walkEcc {core ctx ldie va} (h : s.MemCanonical) : (s.walkEcc core ctx ldie va).MemCanonical := h.foldl (fun k => k.eccGuard)

theorem useXlate {core ctx ldie va p} (h : s.MemCanonical) : (s.useXlate core ctx ldie va p).MemCanonical := h.walkEcc.tlbFill

/-! ### Parking and traps -/

theorem park {t f} (h : s.MemCanonical) : (s.park t f).MemCanonical := h.walkEcc.ite h.walkEcc.modTh.reportFault

theorem parkOwing {t f dst} (h : s.MemCanonical) : (s.parkOwing t f dst).MemCanonical := h.markAll.modTh.park

theorem placeWrite {p a bs} (h : s.MemCanonical) : (s.placeWrite p a bs).MemCanonical := by
  unfold State.placeWrite
  split
  · exact h.setNear
  · exact h.bufWrite

theorem placeEcc {p a n ctx} (h : s.MemCanonical) : (s.placeEcc p a n ctx).1.MemCanonical := by
  unfold State.placeEcc
  split
  · exact h.eccGuard
  · exact h.eccGuard

theorem partEcc {p a n ctx} (h : s.MemCanonical) : (s.partEcc p a n ctx).1.MemCanonical := by
  unfold State.partEcc
  dsimp only
  split
  · exact h.placeEcc.iteFst h.placeEcc.placeEcc
  · split
    · exact h
    · exact h.placeEcc

theorem readsEcc {ctx sites} (h : s.MemCanonical) : (s.readsEcc ctx sites).1.MemCanonical := h.foldlFst (fun k => k.iteFst k.placeEcc)

theorem enterHandler {t e i frame handler} (h : s.MemCanonical) : (s.enterHandler t e i frame handler).MemCanonical :=
  h.ite (.modTh (.bump (h.modCo fun _ hk => hk)))

theorem deliverTrap {t i} (h : s.MemCanonical) : (s.deliverTrap t i).MemCanonical := by
  unfold State.deliverTrap
  dsimp only
  split
  · exact h.endCtx
  · split
    · exact h.walkEcc.endCtx
    · exact h.useXlate.enterHandler

theorem takeTrap {t code addr rpc} (h : s.MemCanonical) : (s.takeTrap t code addr rpc).MemCanonical := h.ite (h.deliverTrap.ite h.setStatus)

theorem faultTrap {t cls det addr} (h : s.MemCanonical) : (s.faultTrap t cls det addr).MemCanonical := h.takeTrap

theorem illegal {t} (h : s.MemCanonical) : (s.illegal t).MemCanonical := h.faultTrap

theorem exitThread {t} (h : s.MemCanonical) : (s.exitThread t).MemCanonical := by
  refine .ite (h.mapCores rfl rfl fun k hk => ?_) h.modTh.modWp
  split <;> exact hk

theorem cacheLine {t pc} (h : s.MemCanonical) : (s.cacheLine t pc).MemCanonical := by
  unfold State.cacheLine
  dsimp only
  split
  · exact h
  · exact h.useXlate.ite (h.useXlate.eccGuard.modCo fun _ hk => hk)

end

end State.MemCanonical

end Sys2Proof.Machine
end

section
/-! PROOF. Canonical memories (O57): executing an instruction lane by lane, and the instructions of chapter 7. -/

namespace Sys2Proof.Machine

theorem CoreSt.Canonical.admitHeld {n} {k : CoreSt} (h : k.Canonical) : (admitHeld n k).Canonical := by
  induction n generalizing k with
  | zero => exact h
  | succ n ih =>
    unfold Machine.admitHeld
    split
    · exact h
    · split
      · exact ih (show CoreSt.Canonical { k with q0 := _, heldq := _ } from h)
      · exact h

namespace State.MemCanonical

section
variable {s u : State}

/-! ### Lanes -/

theorem laneStep {chk act start t} (h : s.MemCanonical) (hact : ∀ {s t}, s.MemCanonical → (act s t).MemCanonical)
    (hstart : ∀ {s t}, s.MemCanonical → (start s t).MemCanonical) : (laneStep chk act start s t).MemCanonical := by
  unfold Machine.laneStep
  split
  · exact hact h
  · exact h
  · exact h.setStatus
  · exact h.parkOwing
  · exact (hstart h).setStatus

theorem followStep {x lead chk t} (h : s.MemCanonical) : (followStep x lead chk s t).MemCanonical := by
  unfold Machine.followStep
  split
  · exact h.setStatus
  · exact h.setStatus
  · split
    · exact h.setStatus
    · exact h.retire
  · exact h.retire

theorem runLanes {x once chk act start} (h : s.MemCanonical) (hact : ∀ {s t}, s.MemCanonical → (act s t).MemCanonical)
    (hstart : ∀ {s t}, s.MemCanonical → (start s t).MemCanonical) : (runLanes x once chk act start s).MemCanonical := by
  unfold Machine.runLanes
  refine .ite (.foldl ?_ (fun k => ?_)) (.foldl ?_ (fun k => k.ite (.ite (k.laneStep hact hstart) k.followStep)))
  · exact h.foldl (fun k => k.retire)
  · split
    · exact k.faultTrap.ite k
    · exact k
  · exact h.foldl (fun k => k.retire)

theorem runPlain {x once chk act} (h : s.MemCanonical) (hact : ∀ {s t}, s.MemCanonical → (act s t).MemCanonical) :
    (runPlain x once chk act s).MemCanonical :=
  h.runLanes hact (fun k => k)

theorem withReads {x once sites run} (h : s.MemCanonical) (hrun : ∀ {s}, s.MemCanonical → (run s).MemCanonical) :
    (withReads x once sites run s).MemCanonical :=
  .ite (h.foldlFst (fun k => k.iteFst k.readsEcc)) (hrun (h.foldlFst (fun k => k.iteFst k.readsEcc)))

theorem orWait {ok t} (h : s.MemCanonical) (k : u.MemCanonical) : (orWait ok s t u).MemCanonical := by
  unfold Machine.orWait
  split
  · exact k
  · exact h.setStatus

theorem touchWrites {sites} (h : s.MemCanonical) : (s.touchWrites sites).MemCanonical := by
  unfold State.touchWrites
  refine h.foldl (fun k => ?_)
  split
  · exact k.eccWrite
  · exact k.eccWrite

/-! ### Queues and deferred instructions -/

theorem chanPush {c off ch w} (h : s.MemCanonical) : (s.chanPush c off ch w).MemCanonical := h.bufWrite.bufWrite

theorem chanPop {c off ch} (h : s.MemCanonical) : (s.chanPop c off ch).1.MemCanonical := h.bufWrite

theorem q0Pop {t} (h : s.MemCanonical) : (s.q0Pop t).MemCanonical := by
  unfold State.q0Pop
  dsimp only
  split
  · exact h
  · split
    · exact h.modTh.modCo fun _ hk => CoreSt.Canonical.admitHeld hk
    · exact h.modTh

theorem givePop {t ticket w} (h : s.MemCanonical) : (s.givePop t ticket w).MemCanonical := h.modTh

theorem completeDeferred {t i} (h : s.MemCanonical) : (s.completeDeferred t i).MemCanonical := by
  unfold State.completeDeferred
  dsimp only
  split
  · exact h
  · exact h.readsEcc.ite (h.readsEcc.modTh.fillRegs.addFlags.ite h)

theorem settlePops {t} (h : s.MemCanonical) : (s.settlePops t).MemCanonical := by
  unfold State.settlePops
  split
  · exact h.completeDeferred
  · exact h

theorem issuePop {t q ticket} (h : s.MemCanonical) : (s.issuePop t q ticket).MemCanonical := by
  unfold State.issuePop
  dsimp only
  split
  · split
    · exact h.q0Pop.givePop
    · exact h.modCo fun _ hk => hk
  · split
    · exact h.toFifo
    · exact h

theorem issuePops {t qs ticket} (h : s.MemCanonical) : (s.issuePops t ticket qs).MemCanonical := by
  induction qs generalizing s ticket with
  | nil => exact h
  | cons q qs ih => exact ih h.issuePop

theorem startPops {t qs} (h : s.MemCanonical) : (s.startPops t qs).MemCanonical := h.modTh.issuePops

theorem pushQ {t q w} (h : s.MemCanonical) : (s.pushQ t q w).MemCanonical := by
  unfold State.pushQ
  dsimp only
  split
  · exact h.modTh.ite (h.modTh.modCo fun _ hk => hk)
  · split
    · exact h.toFifo
    · exact h

theorem usePops {t} (h : s.MemCanonical) : (s.usePops t).MemCanonical := h.ite h.modTh

/-! ### Jobs -/

/-- What all of an instruction's pops leave, when they can take place. -/
theorem tryPops {t qs} (h : s.MemCanonical) : ∀ r ∈ tryPops s t qs, r.1.MemCanonical := by
  induction qs generalizing s with
  | nil => exact fun r hr => Option.mem_some.1 hr ▸ h
  | cons q qs ih =>
    intro r hr
    unfold Machine.tryPops at hr
    extract_lets c step at hr
    have popped : ∀ x ∈ step, x.1.MemCanonical := by
      intro x hx
      unfold step at hx
      split at hx
      · split at hx
        · exact Option.mem_some.1 hx ▸ h.q0Pop
        · cases hx
      · split at hx
        · cases hx
        · split at hx
          · cases hx
          · split at hx
            · cases hx
            · exact Option.mem_some.1 hx ▸ h.chanPop
    cases hs : step with
    | none => simp [hs] at hr
    | some x =>
      simp only [hs, Option.mem_def, Option.map_eq_some_iff] at hr
      obtain ⟨y, hy, rfl⟩ := hr
      exact ih (popped x hs) y hy

theorem tryPush {t q w} (h : s.MemCanonical) : ∀ v ∈ tryPush s t q w, v.MemCanonical := by
  unfold Machine.tryPush
  split
  · split
    · exact h.pushQ.some
    · exact none
  · split
    · exact none
    · dsimp only
      split
      · exact none
      · split
        · exact none
        · exact h.chanPush.some

theorem setP {t p v} (h : s.MemCanonical) : (s.setP t p v).MemCanonical := h.modTh

theorem writeDst {t d dst out} (h : s.MemCanonical) : (s.writeDst t d dst out).MemCanonical := by
  unfold State.writeDst
  split
  · exact h.fillRegs
  · exact h.fillRegs
  · exact h.modTh
  · exact h.pushQ
  · exact h

theorem jobFinish {j t vals} (h : s.MemCanonical) : (Job.finish j s t vals).MemCanonical := by
  unfold Job.finish
  dsimp only
  split
  · exact h.writeDst.addFlags
  · exact h.writeDst.addFlags
  · exact h.setP
  · exact h.setP.addFlags
  · exact h.modTh.writeDst.ite h.writeDst

/-- An instruction with N = 1 does all of it or none. -/
theorem jobActN {j : Job} {t} (h : s.MemCanonical) : (j.actN s t).MemCanonical := by
  unfold Job.actN
  extract_lets slots made
  have kept : ∀ v ∈ made, v.MemCanonical := by
    unfold made
    split
    · exact none
    · next s1 ws hp =>
      have popped : s1.MemCanonical := h.tryPops _ hp
      split
      · refine optionMap popped.tryPush fun k => ?_
        split
        · exact k.modTh.ite k
        · exact k.addFlags
      · exact popped.jobFinish.some
  cases hm : made with
  | none => exact h.setP.retire
  | some v => exact (kept v hm).setP.retire

theorem jobAct {j t} (h : s.MemCanonical) : (Job.act j s t).MemCanonical :=
  h.jobActN.ite (h.markAll.modTh.issuePops.settlePops.retire.ite (h.orWait h.jobFinish.usePops.retire))

theorem jobStart {j t} (h : s.MemCanonical) : (Job.start j s t).MemCanonical := h.modTh.startPops

theorem runJob {j} (h : s.MemCanonical) : MemKept (runJob j s) :=
  .next (h.withReads (fun k => k.runLanes (fun l => l.jobAct) (fun l => l.jobStart)))

end

end State.MemCanonical

end Sys2Proof.Machine
end

section
/-! PROOF. Canonical memories (O57): the memory port, the entries of the queues, the barriers, and the loads of near memory. -/

namespace Sys2Proof.Machine

/-- The state that a load of N leaves, if it leaves one, has canonical memories. -/
def LoadRead.MemKept : LoadRead → Prop
  | .wait => True
  | .ended u | .ok u _ => u.MemCanonical

namespace State.MemCanonical

section
variable {s u : State}

/-! ### The memory port -/

theorem keepXlate {t ea p} (h : s.MemCanonical) : (s.keepXlate t ea p).MemCanonical := by
  unfold State.keepXlate
  split
  · exact h.useXlate
  · exact h

theorem pushLoad {t l} (h : s.MemCanonical) : (pushLoad s t l).MemCanonical := h.markAll.modTh

theorem loadAct {w sp t} (h : s.MemCanonical) : (loadAct w sp s t).MemCanonical := h.pushLoad.keepXlate.retire

theorem runLoad {w sp} (h : s.MemCanonical) : MemKept (runLoad w sp s) := .next (h.runPlain (fun k => k.loadAct))

theorem execLdsc {x d a off} (h : s.MemCanonical) : MemKept (execLdsc x d a off s) := by
  refine .next (h.runPlain fun k => ?_)
  extract_lets va page scale l keep
  have kept {u : State} {va : Nat} {p : Option Pte} (h : u.MemCanonical) : (keep u va p).MemCanonical := by
    cases p with
    | none => exact h
    | some p => exact h.useXlate
  exact (kept (kept k.pushLoad)).retire

theorem storeAct {w sp t} (h : s.MemCanonical) : (storeAct w sp s t).MemCanonical := h.toFifo.keepXlate.retire

theorem runStore {w sp} (h : s.MemCanonical) : MemKept (runStore w sp s) := .next (h.runPlain (fun k => k.storeAct))

theorem execPref {x a off} (h : s.MemCanonical) : MemKept (execPref x a off s) := .next (h.runPlain (fun k => k.retire))

theorem joinAtom {t old e o k} (h : s.MemCanonical) : (joinAtom s t old e o k).1.MemCanonical := by
  unfold Machine.joinAtom
  dsimp only
  split
  · exact h.growNew
  · exact h.toFifo

theorem runAtom {x once chk k b act} (h : s.MemCanonical) (hact : ∀ {s t}, s.MemCanonical → (act s t).MemCanonical) :
    (runAtom x once chk k b act s).MemCanonical :=
  h.withReads fun l => l.runPlain hact

theorem atomAct {x sp k d a b old t} (h : s.MemCanonical) : (atomAct x sp k d a b old s t).MemCanonical :=
  h.joinAtom.pushLoad.keepXlate.retire

theorem redAct {x sp k a b t} (h : s.MemCanonical) : (redAct x sp k a b s t).MemCanonical := h.toFifo.keepXlate.retire

theorem execAtom {x f d a b} (h : s.MemCanonical) : MemKept (execAtom x f d a b s) := .next (h.runAtom (fun k => k.atomAct))

theorem execAtoma {x f d a b} (h : s.MemCanonical) : MemKept (execAtoma x f d a b s) := .next (h.runAtom (fun k => k.atomAct))

theorem execAred {x f a b} (h : s.MemCanonical) : MemKept (execAred x f a b s) := .next (h.runAtom (fun k => k.redAct))

theorem execAreda {x f a b} (h : s.MemCanonical) : MemKept (execAreda x f a b s) := .next (h.runAtom (fun k => k.redAct))

theorem peerEntry {x body t} (h : s.MemCanonical) : (peerEntry x body s t).MemCanonical := h.toFifo.modTh

theorem execStx {x a b} (h : s.MemCanonical) : MemKept (execStx x a b s) :=
  .next (h.withReads (fun k => k.runLanes (fun l => l.peerEntry.usePops.retire) (fun l => l.startPops)))

theorem execAredX {x f a b} (h : s.MemCanonical) : MemKept (execAredX x f a b s) := .next (h.runAtom (fun k => k.peerEntry.retire))

theorem issueOp {t o} (h : s.MemCanonical) : (s.issueOp t o).MemCanonical := .set rfl rfl (.markAll (.fillRegs (h.modCo fun _ hk => hk)))

theorem pushRoute {r} (h : s.MemCanonical) : (s.pushRoute r).MemCanonical := h

theorem execLdx {w eb} (h : s.MemCanonical) : MemKept (execLdx w eb s) :=
  .next (h.runPlain (fun k => k.orWait k.issueOp.pushRoute.pushLoad.retire))

theorem execFence {x} (h : s.MemCanonical) : MemKept (execFence x s) :=
  .next (h.runPlain (fun k => (k.discardCopies.ite k).retire.ite (k.toFifo.setStatus.ite (k.toFifo.retire.ite (k.discardCopies.ite
      k).retire))))

theorem execFenceNtdrain {x} (h : s.MemCanonical) : MemKept (execFenceNtdrain x s) := .next (h.runPlain (fun k => k.retire))

/-! ### Entries at their places -/

theorem atomAt {p k a xs} (h : s.MemCanonical) : (s.atomAt p k a xs).MemCanonical := h.placeWrite

theorem atomLanes {p k a q acq os} (h : s.MemCanonical) : (s.atomLanes p k a q acq os).MemCanonical := by
  induction os generalizing s with
  | nil => exact h
  | cons o os ih =>
    unfold State.atomLanes
    dsimp only
    split
    · exact ih h.atomAt.modTh.fillRegs.discardCopies
    · exact ih h.atomAt.modTh.fillRegs

theorem redAt {p k o} (h : s.MemCanonical) : (s.redAt p k o).MemCanonical := h.atomAt.discardCopies.ite h.atomAt

theorem barFold {p os} (h : s.MemCanonical) : (s.barFold p os).1.MemCanonical := by
  induction os generalizing s with
  | nil => exact h
  | cons o os ih =>
    unfold State.barFold
    dsimp only
    split
    · exact ih h.placeWrite
    · exact ih h

theorem entryDone {t} (h : s.MemCanonical) : (s.entryDone t).MemCanonical := by
  unfold State.entryDone
  split
  · exact h.retire
  · exact h

theorem barAt {p ops} (h : s.MemCanonical) : (s.barAt p ops).MemCanonical :=
  .ite (h.barFold.foldl (fun k => k.entryDone)) (h.foldl (fun k => k.ite (k.faultTrap.ite k.setStatus)))

theorem countBar {p a n ctx} (h : s.MemCanonical) : (s.countBar p a n ctx).1.MemCanonical := by
  unfold State.countBar
  dsimp only
  split
  · exact h.placeEcc
  · exact h.placeEcc.placeWrite

theorem request (h : s.MemCanonical) : (s.request).1.MemCanonical := h

theorem drainMark {t m} (h : s.MemCanonical) : (s.drainMark t m).MemCanonical := by
  unfold State.drainMark
  dsimp only
  split
  · exact h
  · split
    · exact h.setStatus
    · exact h
  · exact h.modTh.entryDone
  · exact h.modTh.entryDone
  · exact h.request.foldl (fun k => k.writeDst.entryDone)
  · exact h.request.setStatus
  · exact h.modCtx.entryDone.ite h.faultTrap
  · exact h.faultTrap.ite (h.setP.entryDone.ite (.entryDone (.setP (h.request.modCtx.modDie fun _ hk => hk))))

theorem entryEcc {p e} (h : s.MemCanonical) : (s.entryEcc p e).1.MemCanonical := by
  unfold State.entryEcc
  dsimp only
  split
  · exact h.foldlFst (fun k => k.placeEcc)
  · exact h

theorem execEntry {p e} (h : s.MemCanonical) : (s.execEntry p e).MemCanonical := by
  unfold State.execEntry
  dsimp only
  split
  · exact h.entryEcc
  · split
    · exact h.entryEcc.placeWrite
    · exact h.entryEcc.atomLanes
    · exact h.entryEcc.foldl (fun k => k.redAt)
    · exact h.entryEcc.barAt
    · exact h.entryEcc.drainMark
    · exact h.entryEcc

theorem chanEcc {c off pop} (h : s.MemCanonical) : (s.chanEcc c off pop).1.MemCanonical := by
  unfold State.chanEcc
  dsimp only
  split
  · exact h.placeEcc.placeEcc
  · exact h.placeEcc

theorem applyPush {c e w} (h : s.MemCanonical) : (s.applyPush c e w).MemCanonical := by
  unfold State.applyPush
  dsimp only
  split
  · exact h.chanEcc
  · split
    · exact h.chanEcc.chanPush
    · exact h.chanEcc

theorem applyPop {c e t ticket} (h : s.MemCanonical) : (s.applyPop c e t ticket).MemCanonical := by
  unfold State.applyPop
  dsimp only
  split
  · exact h.chanEcc
  · split
    · exact .ite (h.chanEcc.modCo fun _ hk => hk) h.chanEcc.chanPop.givePop.settlePops
    · exact h.chanEcc.modCo fun _ hk => hk

theorem enterQueue {i} (h : s.MemCanonical) : (s.enterQueue i).MemCanonical := h.modOp.bump

theorem finishLoad {t l ws} (h : s.MemCanonical) : (finishLoad s t l ws).MemCanonical := h.modTh.fillRegs.discardCopies.ite h.modTh.fillRegs

theorem nearLoad {t l useCopy} (h : s.MemCanonical) : (s.nearLoad t l useCopy).MemKept := by
  unfold State.nearLoad
  dsimp only
  split
  · trivial
  · split
    · exact h
    · split
      · exact h.eccGuard
      · exact h.eccGuard.fillLine

/-! ### Barriers, futures and queues at issue -/

theorem joinBar {t from_ old e k} (h : s.MemCanonical) : (joinBar s t from_ old e k).MemCanonical := h.growNew.ite h.toFifo

theorem runBar {x nsp a more acc chk kind rel} (h : s.MemCanonical) : MemKept (runBar x nsp a more acc chk kind rel s) :=
  .next (h.runPlain (fun k => k.joinBar.keepXlate.setStatus))

theorem barKept {t nsp a} (h : s.MemCanonical) : (s.barKept t nsp a).MemCanonical := h.keepXlate

theorem barAcquire {t nsp} (h : s.MemCanonical) : (barAcquire s t nsp).MemCanonical := h.discardCopies.ite h

theorem execBarWait {x nsp a par} (h : s.MemCanonical) : MemKept (execBarWait x nsp a par s) :=
  .next (h.withReads (fun k => k.runPlain (fun l => l.barKept.barAcquire.retire)))

theorem execBarTest {x nsp p a par} (h : s.MemCanonical) : MemKept (execBarTest x nsp p a par s) :=
  .next (h.withReads (fun k => k.runPlain (fun l => (l.barKept.barAcquire.ite l.barKept).setP.retire)))

theorem execFwait {x d a} (h : s.MemCanonical) : MemKept (execFwait x d a s) :=
  .next (h.runPlain (fun k => k.writeDst.discardCopies.retire))

theorem execFtest {x p a} (h : s.MemCanonical) : MemKept (execFtest x p a s) :=
  .next (h.runPlain (fun k => (k.discardCopies.ite k).setP.retire))

theorem execFcancel {x a} (h : s.MemCanonical) : MemKept (execFcancel x a s) := by
  refine .next (h.runPlain (fun k => ?_))
  split
  · exact k.modOp.retire
  · exact k.retire

theorem execQlen {x d a} (h : s.MemCanonical) : MemKept (execQlen x d a s) :=
  .next (h.withReads (fun k => k.runPlain (fun l => l.writeDst.retire)))

theorem execQbind {x d a} (h : s.MemCanonical) : MemKept (execQbind x d a s) := .next (h.runPlain (fun k => k.modTh.retire))

end

end State.MemCanonical

end Sys2Proof.Machine
end

section
/-! PROOF. Canonical memories (O57): launch records and engine commands, the accesses of engines, control transfer, masks, cross-lane
instructions and the lattice. -/

namespace Sys2Proof.Machine

/-- The state that an engine's read leaves, if it leaves one, has canonical memories. -/
def EngineRead.MemKept : EngineRead → Prop
  | .wait => True
  | .fault u | .ended u | .ok u _ _ => u.MemCanonical

namespace State.MemCanonical

section
variable {s u : State}

/-! ### Launch records and engine commands -/

theorem enterLaunch {i w} (h : s.MemCanonical) : (s.enterLaunch i w).MemCanonical := h.completeOp.ite (.enterQueue (.modOp h))

theorem nearEcc {ctx ldie va} (h : s.MemCanonical) : (s.nearEcc ctx ldie va).1.MemCanonical := by
  unfold State.nearEcc
  dsimp only
  split
  · exact h.walkEcc
  · exact h.walkEcc.eccGuard

theorem arriveDone {l} (h : s.MemCanonical) : ∀ v ∈ s.arriveDone l, v.MemCanonical := by
  unfold State.arriveDone
  dsimp only
  split
  · exact h.some
  · split
    · exact (h.nearEcc.ite h.nearEcc.putArrive).some
    · exact none

theorem completeGrid {l status detail} (h : s.MemCanonical) : (s.completeGrid l status detail).MemCanonical := by
  unfold State.completeGrid
  dsimp only
  split
  · exact h.modLa.completeOp
  · next v hv => exact (h.arriveDone v hv).modLa.completeOp

theorem issueCmd {t o} (h : s.MemCanonical) : (s.issueCmd t o).MemCanonical := h.issueOp.toFifo

theorem recAct {e x d a t} (h : s.MemCanonical) : (recAct e x d a s t).MemCanonical := h.orWait h.issueCmd.retire

/-! ### Accesses of engines -/

theorem haltOp {i ldie va kind write} (h : s.MemCanonical) : (s.haltOp i ldie va kind write).MemCanonical :=
  h.walkEcc.ite h.walkEcc.modOp.reportFault

theorem readNear {i l va n} (h : s.MemCanonical) : (s.readNear i l va n).MemKept := by
  unfold State.readNear
  dsimp only
  split
  · exact h.haltOp
  · split
    · trivial
    · split
      · exact h.useXlate.eccGuard
      · exact h.useXlate.eccGuard

theorem readBuf {i c sp off n} (h : s.MemCanonical) : (s.readBuf i c sp off n).MemKept := by
  unfold State.readBuf
  dsimp only
  split
  · trivial
  · split
    · exact h.placeEcc
    · exact h.placeEcc

theorem engineRoute {i dst body} (h : s.MemCanonical) : (s.engineRoute i dst body).MemCanonical := h.pushRoute

theorem readyNear {i ldie vas acc} (h : s.MemCanonical) : (s.readyNear i ldie vas acc).1.MemCanonical := by
  unfold State.readyNear
  dsimp only
  split
  · exact h.haltOp
  · refine h.foldl (fun k => ?_)
    split
    · exact k.useXlate
    · exact k

theorem readyWrite {i w} (h : s.MemCanonical) : (s.readyWrite i w).1.MemCanonical := by
  unfold State.readyWrite
  dsimp only
  split
  · exact h.partEcc
  · exact h.readyNear
  · exact h
  · exact h
  · exact h
  · exact h.readyNear

theorem putWrite {i w} (h : s.MemCanonical) : (s.putWrite i w).MemCanonical := by
  unfold State.putWrite
  dsimp only
  split
  · split
    · exact h.bufWriteTag
    · exact h.bufWriteTag.countBar.modOp.ite h.bufWriteTag.countBar
  · exact h.engineRoute
  · exact h.engineRoute
  · exact h.engineRoute
  · exact h.modCo fun _ hk => hk
  · exact .bump (.modOp (h.modCo fun _ hk => hk))

theorem makeWrite {i w} (h : s.MemCanonical) : (s.makeWrite i w).1.MemCanonical := by
  unfold State.makeWrite
  dsimp only
  split
  · exact h.readyWrite.putWrite
  · exact h.readyWrite

theorem makeAll {i ws} (h : s.MemCanonical) : (s.makeAll i ws).1.MemCanonical := by
  unfold State.makeAll
  dsimp only
  split
  · exact .foldl (h.foldlFst (fun k => k.readyWrite.iteFst k)) (fun k => k.putWrite)
  · exact h.foldlFst (fun k => k.readyWrite.iteFst k)

theorem execXcp {x d a ea} (h : s.MemCanonical) : MemKept (execXcp x d a ea s) := .next (h.runPlain (fun k => k.recAct))

theorem execXsort {x d a ea} (h : s.MemCanonical) : MemKept (execXsort x d a ea s) := .next (h.runPlain (fun k => k.recAct))

theorem execXcol {x d a ea} (h : s.MemCanonical) : MemKept (execXcol x d a ea s) := .next (h.runPlain (fun k => k.recAct))

/-! ### Control transfer and masks -/

theorem execJmp {off} (h : s.MemCanonical) : MemKept (execJmp off s) := .next (h.runPlain (fun k => k.jump))

theorem execBrp {p nz off} (h : s.MemCanonical) : MemKept (execBrp p nz off s) := .next (h.runPlain (fun k => k.jump.ite k.retire))

theorem execCall {off} (h : s.MemCanonical) : MemKept (execCall off s) := .next (h.runPlain (fun k => k.modTh.jump))

theorem execJmpi {w eb} (h : s.MemCanonical) : MemKept (execJmpi w eb s) := .next (h.runPlain (fun k => (k.ite k.writeDst).jump))

theorem execNop {x} (h : s.MemCanonical) : MemKept (execNop x s) := .next (h.runPlain (fun k => k.retire))

theorem execRet {x} (h : s.MemCanonical) : MemKept (execRet x s) := .next (h.runPlain (fun k => k.jump))

theorem execYield {x} (h : s.MemCanonical) : MemKept (execYield x s) := .next (h.runPlain (fun k => k.retire.setStatus))

theorem execBrk {x} (h : s.MemCanonical) : MemKept (execBrk x s) := .next (h.runPlain (fun k => k.takeTrap))

theorem execMeet {off} (h : s.MemCanonical) : MemKept (execMeet off s) := .next (h.runPlain (fun k => k.modTh.retire))

theorem execWbase {x a imm} (h : s.MemCanonical) : MemKept (execWbase x a imm s) := .next (h.runPlain (fun k => k.modTh.retire))

theorem cacheLook {first lenm1 n} (h : s.MemCanonical) : (s.cacheLook first lenm1 n).MemCanonical := by
  unfold State.cacheLook
  split
  · exact h
  · exact h.foldl (fun k => k.cacheLine)

theorem execLoop {lc lenm1 cnt i nstep} (h : s.MemCanonical) : MemKept (execLoop lc lenm1 cnt i nstep s) :=
  .next (h.cacheLook.ite (h.cacheLook.runPlain (fun k => k.modTh.ite k.modTh)))

theorem setMask {t m b} (h : s.MemCanonical) : (s.setMask t m b).MemCanonical := h.modWp

theorem runMask {x once f} (h : s.MemCanonical) (hf : ∀ {s t}, s.MemCanonical → (f s t).MemCanonical) : MemKept (runMask x once f s) :=
  .next (h.runPlain (fun k => (hf k).retire))

theorem execMwait {x d} (h : s.MemCanonical) : MemKept (execMwait x d s) := .next (h.runPlain (fun k => k.setStatus))

theorem execMpopc {x d a} (h : s.MemCanonical) : MemKept (execMpopc x d a s) := .next (h.runPlain (fun k => k.fillRegs.retire))

theorem execMtos {x d a} (h : s.MemCanonical) : MemKept (execMtos x d a s) := .next (h.runPlain (fun k => k.fillRegs.retire))

theorem execMwaitRelease {warp m} (h : s.MemCanonical) : MemKept (execMwaitRelease warp m s) := by
  refine .next (.ite (h.foldl (fun k => ?_)) h)
  split
  · exact k.retire
  · exact k

/-! ### Cross-lane instructions -/

theorem arriveCross {i} (h : s.MemCanonical) : (arriveCross i s).MemCanonical := by
  unfold Machine.arriveCross
  refine .ite (h.foldl (fun k => ?_)) (h.foldl (fun k => k.retire.ite ?_))
  · split
    · exact k.faultTrap
    · exact k
  · exact k.laneStep (fun l => l.setStatus) (fun l => l)

theorem runCross {i} (h : s.MemCanonical) : MemKept (runCross i s) := .next (h.withReads (fun k => k.arriveCross))

theorem giveLane {t d dn ws tag} (h : s.MemCanonical) : (s.giveLane t d dn ws tag).MemCanonical := h.writeDst

theorem meetingEffect {w i ms} (h : s.MemCanonical) : (meetingEffect s w i ms).MemCanonical := by
  unfold Machine.meetingEffect
  dsimp only
  split
  · exact h
  · split
    · exact h.setMask
    · exact h.foldl (fun k => k.giveLane)
    · exact h.foldl (fun k => k.giveLane)
    · exact h.foldl (fun k => k.giveLane)
    · exact .addFlags (h.giveLane.ite (h.foldl (fun k => k.giveLane)))
    · exact .addFlags (h.foldl (fun k => k.giveLane.ite k))
    · exact h

theorem execCrossLaneMeeting {warp} (h : s.MemCanonical) : MemKept (execCrossLaneMeeting warp s) := by
  refine .next ?_
  dsimp only
  split
  · exact h
  · exact h.meetingEffect.foldl (fun k => k.retire)

/-! ### The lattice engine -/

theorem faceRoute {core rank body} (h : s.MemCanonical) : (s.faceRoute core rank body).MemCanonical := h.pushRoute

theorem sendFaces {c leaf retired} (h : s.MemCanonical) : (sendFaces s c leaf retired).MemCanonical :=
  .foldl (h.foldl (fun k => k.faceRoute)) (fun k => k.faceRoute)

theorem endPhase {i} (h : s.MemCanonical) : (s.endPhase i).MemCanonical := h.modCl.sendFaces

theorem retireCell {t} (h : s.MemCanonical) : (s.retireCell t).MemCanonical := by
  unfold State.retireCell
  dsimp only
  split
  · exact h
  · exact h.modCl.sendFaces

theorem finishPhase {i retire len} (h : s.MemCanonical) : (s.finishPhase i retire len).MemCanonical :=
  h.endPhase.retire.retireCell.exitThread.ite h.endPhase.retire

theorem execExit {x} (h : s.MemCanonical) : MemKept (execExit x s) := .next (h.runPlain (fun k => k.retireCell.exitThread))

theorem runPhase {retire x} (h : s.MemCanonical) : MemKept (runPhase retire x s) :=
  .next (h.runPlain (fun k => k.finishPhase.ite k.setStatus))

theorem execNbok {x p slot} (h : s.MemCanonical) : MemKept (execNbok x p slot s) := .next (h.runPlain (fun k => k.setP.retire))

theorem execLcfg {x d w} (h : s.MemCanonical) : MemKept (execLcfg x d w s) := .next (h.runPlain (fun k => k.writeDst.retire))

theorem execLred {x f d a ea} (h : s.MemCanonical) : MemKept (execLred x f d a ea s) :=
  .next (h.withReads (fun k => k.runPlain (fun l => l.markAll.modCl.modTh.retire)))

theorem execPhaseEnd {cell} (h : s.MemCanonical) : MemKept (execPhaseEnd cell s) := by
  refine .next ?_
  split
  · exact h.finishPhase.ite h
  · exact h

theorem settle {t n} (h : s.MemCanonical) : (s.settle t n).MemCanonical := by
  induction n generalizing s with
  | zero => exact h
  | succ n ih =>
    unfold State.settle
    split
    · exact ih h.completeDeferred
    · exact h

theorem setFace {core f} (h : s.MemCanonical) : (s.setFace core f).MemCanonical := .touchWrites (h.modCo fun _ hk => hk)

theorem takeFace {core f} (h : s.MemCanonical) : (s.takeFace core f).MemCanonical := h.setFace.foldl (fun k => k.settle)

theorem execFaceDelivery {core ell m} (h : s.MemCanonical) : MemKept (execFaceDelivery core ell m s) := by
  refine .next ?_
  dsimp only
  split
  · split
    · exact h.takeFace.ite h
    · exact h
  · exact h

theorem endGrid {l status detail} (h : s.MemCanonical) : (s.endGrid l status detail).MemCanonical :=
  .completeGrid (.set rfl rfl (h.foldl (fun k => k.modTh.exitThread)))

theorem loseFace {l} (h : s.MemCanonical) : (s.loseFace l).MemCanonical := h.endGrid.ite h

theorem execPhaseReport {core ell m} (h : s.MemCanonical) : MemKept (execPhaseReport core ell m s) := by
  refine .next ?_
  dsimp only
  split
  · split
    · exact h.endGrid.ite h
    · exact h.ite (h.modCo fun _ hk => hk)
    · exact .ite (h.modLa.modCo fun _ hk => hk) h
  · exact h

theorem execLredResult {launch q} (h : s.MemCanonical) : MemKept (execLredResult launch q s) := by
  refine .next ?_
  dsimp only
  split
  · split
    · exact h
    · refine h.endGrid.ite (.modLa (h.foldl (fun k => ?_)))
      split
      · exact k.fillRegs.modTh
      · exact k
  · exact h

theorem swapIn {c} (h : s.MemCanonical) : (s.swapIn c).MemCanonical := h.readsEcc.ite h.readsEcc.modCl.modTh.modWp

theorem swapOut {c} (h : s.MemCanonical) : (s.swapOut c).MemCanonical := h.modCl.touchWrites

theorem execPagerFill {core} (h : s.MemCanonical) : MemKept (execPagerFill core s) := by
  refine .next ?_
  split
  · exact h.swapIn.ite h
  · exact h

theorem execPagerExchange {core} (h : s.MemCanonical) : MemKept (execPagerExchange core s) := by
  refine .next ?_
  split
  · split
    · split
      · exact h.swapOut.swapIn.ite h
      · exact h
    · exact h
  · exact h

/-! ### The matrix engine at issue -/

theorem setHolder {c x} (h : s.MemCanonical) : (s.setHolder c x).MemCanonical := h.modCo fun _ hk => hk

theorem execMres {x p} (h : s.MemCanonical) : MemKept (execMres x p s) := .next (h.runPlain (fun k => (k.setHolder.ite k).setP.retire))

theorem execMresw {x} (h : s.MemCanonical) : MemKept (execMresw x s) :=
  .next (h.runPlain (fun k => k.retire.ite (.ite (.retire (k.modCo fun _ hk => hk)) (.setStatus (k.modCo fun _ hk => hk)))))

theorem execMrel {x} (h : s.MemCanonical) : MemKept (execMrel x s) :=
  .next (h.runPlain (fun k => .retire (.ite (k.modCo fun _ hk => hk) k)))

theorem execMma {x d a b k eb} (h : s.MemCanonical) : MemKept (execMma x d a b k eb s) :=
  .next (h.withReads (fun k => k.runPlain (fun l => l.orWait l.issueCmd.retire)))

theorem execMdr {x d a k ea eb} (h : s.MemCanonical) : MemKept (execMdr x d a k ea eb s) :=
  .next (h.runPlain (fun k => k.orWait k.issueCmd.retire))

theorem execMzero {x d a} (h : s.MemCanonical) : MemKept (execMzero x d a s) := .next (h.runPlain (fun k => k.orWait k.issueCmd.retire))

end

end State.MemCanonical

end Sys2Proof.Machine
end

section
/-! PROOF. Canonical memories (O57): the steps of the reference machine, and deliveries. -/

namespace Sys2Proof.Machine

namespace State.MemCanonical

section
variable {s u : State}

/-! ### Steps of the reference machine -/

theorem leaveTo {e} (h : s.MemCanonical) : ∀ v ∈ leaveTo s e, v.MemCanonical := by
  unfold Machine.leaveTo
  extract_lets wqc room send
  have sent {pa body sched} : ∀ v ∈ send pa body sched, v.MemCanonical := by
    unfold send
    split
    · exact h.pushRoute.some
    · exact none
  split
  · exact sent
  · exact sent
  · extract_lets record
    have recorded {off n f} (hf : ∀ {s bs}, s.MemCanonical → (f s bs).MemCanonical) : ∀ v ∈ record off n f, v.MemCanonical := by
      intro v hv
      obtain ⟨bs, -, rfl⟩ := Option.map_eq_some_iff.1 hv
      exact h.placeEcc.ite (hf h.placeEcc)
    clear_value record
    split
    · exact recorded fun k => k.enterLaunch
    · split
      · exact recorded fun k => k.modCtx.enterQueue.modOp
      · exact h.enterQueue.some
  · split
    · exact .some (h.modCo fun _ hk => hk)
    · split
      · exact .some (h.modCo fun _ hk => hk)
      · exact none

theorem leaveBar {g} (h : s.MemCanonical) : (s.leaveBar g).MemCanonical := by
  unfold State.leaveBar
  dsimp only
  split
  · split
    · exact h
    · exact h.getD (h.foldl (fun k => k.modWp)).leaveTo
  · exact h

theorem execLeaveFifo {warp} (h : s.MemCanonical) : MemKept (execLeaveFifo warp s) := by
  refine .next ?_
  split
  · exact h
  · split
    · exact h.leaveBar
    · exact (h.getD h.modWp.leaveTo).ite h

theorem execApply {core} (h : s.MemCanonical) : MemKept (execApply core s) := by
  refine .next ?_
  dsimp only
  split
  · exact h
  · split
    · exact h
    · split
      · exact .ite (.modCo (h.modCo fun _ hk => hk) fun _ hk => hk) h
      · split
        · exact .applyPush (h.modCo fun _ hk => hk)
        · exact .applyPop (h.modCo fun _ hk => hk)
        · exact .execEntry (h.modCo fun _ hk => hk)

theorem execDrain {core i} (h : s.MemCanonical) : MemKept (execDrain core i s) := by
  refine .next ?_
  dsimp only
  split
  · exact h
  · exact .ite (.foldl (.execEntry (h.modCo fun _ hk => hk)) (fun k => k.refreshCopy)) h

theorem execMerge {core i j} (h : s.MemCanonical) : MemKept (execMerge core i j s) := by
  refine .next ?_
  dsimp only
  split
  · split
    · exact .ite (.set rfl rfl (h.modCo fun _ hk => hk)) h
    · exact h
  · exact h

theorem execFill {core line} (h : s.MemCanonical) : MemKept (execFill core line s) := .next ((h.eccGuard.ite h.eccGuard.fillLine).ite h)

theorem execEvict {core line} (h : s.MemCanonical) : MemKept (execEvict core line s) := .next (h.modCo fun _ hk => hk)

theorem execNtDrain {core i} (h : s.MemCanonical) : MemKept (execNtDrain core i s) := by
  refine .next ?_
  dsimp only
  split
  · exact h
  · exact .modCo (.execEntry (h.modCo fun _ hk => hk)) fun _ hk => hk

theorem execPerform {t useCopy} (h : s.MemCanonical) : MemKept (execPerform t useCopy s) := by
  refine .next ?_
  split
  · exact h
  · next l _ =>
    refine h.ite (ite h.finishLoad ?_)
    have read := h.nearLoad (t := t) (l := l) (useCopy := useCopy)
    dsimp only
    split
    · split
      · exact h
      · next hu => rw [hu] at read; exact read
      · next hu => rw [hu] at read; exact read.finishLoad
    · split
      · exact h
      · have placed : ∀ {b : Prop} [Decidable b] {p off n c}, (if b then s.placeEcc p off n c else (s, false)).1.MemCanonical :=
          iteFst h.placeEcc h
        exact placed.ite placed.finishLoad

/-! ### Delivery of routes -/

theorem loseStore {r} (h : s.MemCanonical) : (s.loseStore r).MemCanonical := by
  unfold State.loseStore
  split
  · exact h.modLa
  · exact h

theorem countStale {d} (h : s.MemCanonical) : (s.countStale d).MemCanonical := h.modDie fun _ hk => hk

theorem dropStale {r} (h : s.MemCanonical) : (s.dropStale r).MemCanonical := by
  unfold State.dropStale
  split
  · exact h
  · exact h
  · exact h
  · exact h
  · split
    · exact h.countStale
    · exact h

theorem peerOutcome {r pa m n acc f} (h : s.MemCanonical) (hf : ∀ {s d a}, s.MemCanonical → (f s d a).MemCanonical) :
    (peerOutcome s r pa m n acc f).1.MemCanonical := by
  unfold Machine.peerOutcome
  split
  · split
    · exact h
    · extract_lets s1
      have walked : s1.MemCanonical := h.walkEcc
      split
      · extract_lets x
        have guarded : x.1.MemCanonical := by
          unfold x
          split
          · exact walked.partEcc
          · exact walked.eccGuard
        split
        · exact guarded
        · exact hf guarded
      · exact walked
  · split <;> exact h

theorem failOp {i status detail} (h : s.MemCanonical) : (s.failOp i status detail).MemCanonical := h.modOp

theorem failPeer {i stale} (h : s.MemCanonical) : (s.failPeer i stale).MemCanonical := h.failOp.ite (h.failOp.ite h.failOp)

theorem peerAnswer {r va acc f} (h : s.MemCanonical) (hf : ∀ {s t x}, s.MemCanonical → (f s t x).1.MemCanonical) :
    (s.peerAnswer r va acc f).MemCanonical := by
  unfold State.peerAnswer
  dsimp only
  split
  · exact .set rfl rfl (hf h.walkEcc)
  · exact .set rfl rfl h.walkEcc

theorem setPeer {r d pa bs} (h : s.MemCanonical) : (s.setPeer r d pa bs).MemCanonical := h.setNear.passCopies.ite h.setNear

theorem peerArrives {rank ctx l body sched} (h : s.MemCanonical) : (s.peerArrives rank ctx l body sched).MemCanonical := h.pushRoute

theorem deliverEffect {r m} (h : s.MemCanonical) : (s.deliverEffect r m).MemCanonical := by
  unfold State.deliverEffect
  dsimp only
  split
  · split
    · exact h.peerOutcome (fun k => k.setPeer)
    · exact .loseStore (h.peerOutcome (fun k => k.setPeer))
  · split
    · exact h.peerOutcome (fun k => k.atomAt)
    · exact .loseStore (h.peerOutcome (fun k => k.atomAt))
  · split
    · exact .ite (.discardCopies (.completeOp (.modTh (h.peerOutcome (fun k => k))))) (.completeOp (.modTh (h.peerOutcome (fun k => k))))
    · exact .completeOp (.modTh (h.peerOutcome (fun k => k)))
    · exact .completeOp (.modTh (h.peerOutcome (fun k => k)))
  · split
    · split
      · exact h.foldlFst (fun k => k.iteFst k.partEcc)
      · split
        · exact .foldl (h.foldlFst (fun k => k.iteFst k.partEcc)) (fun k => k.setNear)
        · exact .ite (.modOp (.countBar (.foldl (h.foldlFst (fun k => k.iteFst k.partEcc)) (fun k => k.setNear)))) (.countBar (.foldl
            (h.foldlFst (fun k => k.iteFst k.partEcc)) (fun k => k.setNear)))
    · split
      · exact h.foldlFst (fun k => k.iteFst k.partEcc)
      · split
        · exact .foldl (h.foldlFst (fun k => k.iteFst k.partEcc)) (fun k => k.setNear)
        · exact .ite (.modOp (.countBar (.foldl (h.foldlFst (fun k => k.iteFst k.partEcc)) (fun k => k.setNear)))) (.countBar (.foldl
            (h.foldlFst (fun k => k.iteFst k.partEcc)) (fun k => k.setNear)))
  · split
    · exact .modOp (h.peerOutcome (fun k => k.setNear))
    · exact .ite (.loseStore (h.peerOutcome (fun k => k.setNear))) (.failPeer (.modOp (h.peerOutcome (fun k => k.setNear))))
  · split
    · exact .modOp (h.peerOutcome (fun k => k))
    · exact .failPeer (h.peerOutcome (fun k => k))
    · exact .failPeer (h.peerOutcome (fun k => k))
  · exact h
  · exact h
  · split
    · exact h.walkEcc.partEcc.ite h.walkEcc.partEcc.setNear
    · exact h.walkEcc.modPort
  · refine h.peerAnswer (fun k => ?_)
    split
    · exact k.partEcc
    · exact k.partEcc.setPeer
  · refine h.peerAnswer (fun k => ?_)
    split
    · exact k.eccGuard
    · exact k.eccGuard.atomAt
  · refine h.peerAnswer (fun k => ?_)
    split
    · exact k.eccGuard
    · exact k.eccGuard
  · split
    · exact h
    · exact h.loseFace
  · split
    · exact h
    · exact h.loseFace

theorem execDeliver {i m} (h : s.MemCanonical) : MemKept (execDeliver i m s) := by
  refine .next ?_
  dsimp only
  split
  · exact h.peerArrives
  · exact h.peerArrives
  · exact h.peerArrives
  · split
    · exact h
    · exact .ite (.dropStale h) (.ite (.deliverEffect h) h)

theorem execChannelPopServed {core i} (h : s.MemCanonical) : MemKept (execChannelPopServed core i s) := by
  refine .next ?_
  dsimp only
  split
  · exact h
  · split
    · exact h
    · split
      · split
        · exact .settlePops (.givePop (.q0Pop (h.modCo fun _ hk => hk)))
        · exact h
      · split
        · exact h.ite (.ite (.chanEcc (h.modCo fun _ hk => hk)) (.settlePops (.givePop (.chanPop (.chanEcc (h.modCo fun _ hk => hk))))))
        · exact h

theorem execDeferredComplete {tid i} (h : s.MemCanonical) : MemKept (execDeferredComplete tid i s) := .next h.completeDeferred

end

end State.MemCanonical

end Sys2Proof.Machine
end

section
/-! PROOF. Canonical memories (O57): the steps of the engines. -/

namespace Sys2Proof.Machine

namespace State.MemCanonical

section
variable {s u : State}

/-! ### Starts and reads -/

theorem readSource {i w} (h : s.MemCanonical) : (s.readSource i w).MemKept := by
  unfold State.readSource
  dsimp only
  split
  · exact h.readBuf
  · exact h.readNear
  · trivial

/-- What is done with a read keeps the memories, if it does for the state of the read. -/
theorem andThen {r : EngineRead} {f} (h : s.MemCanonical) (hr : r.MemKept) (hf : ∀ {s bs p}, s.MemCanonical → (f s bs p).MemCanonical) :
    (r.andThen s f).MemCanonical := by
  cases r with
  | wait => exact h
  | ended _ => exact hr
  | fault _ => exact hr
  | ok _ _ _ => exact hf hr

theorem nameReceivers {i r} (h : s.MemCanonical) : (s.nameReceivers i r).MemCanonical :=
  h.addCores rfl rfl (List.forall_mem_map.2 fun _ _ => ⟨rfl, rfl, rfl⟩)

theorem startWith {i r code base flags} (h : s.MemCanonical) : (s.startWith i r code base flags).MemCanonical :=
  h.completeOp.ite (h.nameReceivers.ite h).modOp

theorem recordRead {i n f} (h : s.MemCanonical) (hf : ∀ {s}, s.MemCanonical → (f s).MemCanonical) : (s.recordRead i n f).MemCanonical :=
  h.placeEcc.ite (hf h.placeEcc)

theorem execEngineStart {op} (h : s.MemCanonical) : MemKept (execEngineStart op s) := by
  refine .next ?_
  split
  · split
    · split
      · exact h
      · split
        · split
          · exact h.recordRead (fun k => k.startWith)
          · exact h
        · exact h.modOp
    · split
      · exact h.recordRead (fun k => k.startWith)
      · exact h
    · split
      · exact h.recordRead (fun k => k.startWith)
      · exact h
    · split
      · exact h.recordRead (fun k => k.startWith)
      · exact h
    · exact h
  · exact h

theorem mmaRead {i} (h : s.MemCanonical) : (mmaRead s i).MemCanonical := by
  unfold Machine.mmaRead
  refine h.ite (h.modOp.ite ?_)
  split
  · exact h
  · exact h.andThen h.readBuf fun k => k.modOp

theorem mdrRead {i} (h : s.MemCanonical) : (mdrRead s i).MemCanonical := by
  unfold Machine.mdrRead
  extract_lets o r home inA factors
  have inA_kept {used s off n} (h : s.MemCanonical) : (inA used s off n).MemKept := by
    unfold inA
    split
    · exact h.readBuf
    · exact h
  exact .ite (h.andThen (inA_kept h) fun k => h.andThen (inA_kept k) fun l => h.andThen (inA_kept l) fun m =>
    h.andThen m.readBuf fun n => n.modOp) h

theorem copyTake {i src bs p} (h : s.MemCanonical) : (copyTake s i src bs p).MemCanonical := (h.modOp.ite h.modOp).ite h.modOp

theorem copyRead {i} (h : s.MemCanonical) : (copyRead s i).MemCanonical := by
  unfold Machine.copyRead
  dsimp only
  split
  · exact h
  · split
    · split
      · exact h.copyTake
      · exact h.ite h.engineRoute
    · exact h.ite h.engineRoute
    · exact h.ite (h.andThen h.readSource fun k => k.copyTake)

theorem sortRead {i} (h : s.MemCanonical) : (sortRead s i).MemCanonical := by
  have key {l va n} {f : List Byte → Op → Op} : ((s.readNear i l va n).andThen s fun s bs _ => s.modOp i (f bs)).MemCanonical :=
    h.andThen h.readNear fun k => k.modOp
  exact .ite key (.ite (h.modOp.ite (.ite key h.modOp)) (h.modOp.ite h))

theorem colRead {i m} (h : s.MemCanonical) : (colRead s i m).MemCanonical := by
  unfold Machine.colRead
  extract_lets o r pos mine take stop
  have taken {s own tag others} (h : s.MemCanonical) : (take s own tag others).MemCanonical := h.modOp
  have stopped {status detail} : (stop status detail).MemCanonical := h.failOp.modOp
  clear_value take stop
  split
  · exact stopped.ite stopped
  · exact stopped
  · refine .ite ?_ h
    split
    · exact taken h
    · dsimp only
      split
      · exact taken h
      · exact h.andThen h.readSource fun k => taken k
  · exact h

theorem execEngineRead {op m} (h : s.MemCanonical) : MemKept (execEngineRead op m s) := by
  refine .next ?_
  split
  · split
    · exact h.mmaRead.ite (h.mdrRead.ite h)
    · exact h.copyRead
    · exact h.sortRead
    · exact h.colRead
    · exact h
  · exact h

theorem execHostCompletion {op reply err} (h : s.MemCanonical) : MemKept (execHostCompletion op reply err s) := by
  refine .next ?_
  split
  · exact h
  · split
    · exact h.modOp.countStale
    · split
      · exact h.modOp
      · split
        · exact h
        · exact h.failOp.modOp.ite (h.copyTake.modOp.ite h)

/-! ### Writes and completions -/

theorem colWrite {i c} (h : s.MemCanonical) : (colWrite s i c).MemCanonical := (h.makeAll.modOp.ite h.makeAll).ite h

theorem execEngineWrite {op i} (h : s.MemCanonical) : MemKept (execEngineWrite op i s) := by
  refine .next ?_
  dsimp only
  split
  · split
    · exact h.colWrite
    · split
      · exact h
      · exact h.ite (h.makeWrite.modOp.ite h.makeWrite)
  · exact h

theorem countDown {xs ctx} (h : s.MemCanonical) : (s.countDown xs ctx).MemCanonical := h.foldl (fun k => k.countBar)

theorem countRest {i} (h : s.MemCanonical) : (s.countRest i).MemCanonical := h.countDown

theorem matrixDone {i} (h : s.MemCanonical) : (matrixDone s i).MemCanonical :=
  h.ite (.ite (.ite (.completeOp (h.foldl (fun k => k.bufWrite))) h) (((h.makeAll.completeOp.ite h.makeAll).ite h).ite
      h.bufWrite.completeOp))

theorem copyDone {i} (h : s.MemCanonical) : (copyDone s i).MemCanonical :=
  h.ite (h.countRest.completeOp.ite ((h.completeOp.ite (h.completeOp.ite h.completeOp)).ite h))

theorem sortDone {i} (h : s.MemCanonical) : (sortDone s i).MemCanonical := h.completeOp.ite (h.completeOp.ite h)

theorem colDone {i} (h : s.MemCanonical) : (colDone s i).MemCanonical :=
  h.ite ((h.ite h.bufWrite).countRest.completeOp.ite (h.completeOp.ite ((h.completeOp.ite h.completeOp).ite h)))

theorem endDone {i} (h : s.MemCanonical) : (s.endDone i).MemCanonical := (h.bufWrite.ite h).countDown.completeOp.ite h

theorem execEngineComplete {op} (h : s.MemCanonical) : MemKept (execEngineComplete op s) := by
  refine .next ?_
  split
  · exact h.endDone
  · split
    · split
      · exact h.matrixDone
      · exact h.copyDone
      · exact h.sortDone
      · exact h.colDone
      · exact h
    · exact h

theorem cancelOp {i} (h : s.MemCanonical) : (s.cancelOp i).MemCanonical := by
  unfold State.cancelOp
  split
  · exact h.modLa.completeOp
  · exact h.completeOp

theorem execEngineCancel {op} (h : s.MemCanonical) : MemKept (execEngineCancel op s) := by
  refine .next ?_
  split
  · split
    · exact h.modOp.cancelOp
    · exact h
    · exact h.modOp
  · exact h

theorem loseRoute {i} (h : s.MemCanonical) : (s.loseRoute i).MemCanonical := by
  unfold State.loseRoute
  dsimp only
  split
  · exact h
  · split
    · exact .loseStore h
    · exact .loseStore h
    · exact .completeOp (.modTh h)
    · exact .ite (.loseStore h) (.ite (.failOp h) (.modOp h))
    · exact .failOp h
    · exact .loseFace h
    · exact .loseFace h
    · exact h

theorem loseMember {i} (h : s.MemCanonical) : (s.loseMember i).MemCanonical := h.failOp.modOp.ite h

theorem execPeerAckTimeout {i} (h : s.MemCanonical) : MemKept (execPeerAckTimeout i s) := by
  refine .next ?_
  split
  · exact h.loseRoute.ite h
  · exact h.loseMember

end

end State.MemCanonical

end Sys2Proof.Machine
end

section
/-! PROOF. Canonical memories (O57): traps, the context's instructions, and launches. -/

namespace Sys2Proof.Machine

/-- The state in which a trap's frame was read has canonical memories. -/
def FrameRead.MemKept : FrameRead → Prop
  | .wait => True
  | .ended u | .ok u _ _ => u.MemCanonical

namespace State.MemCanonical

section
variable {s u : State}

/-! ### Launch, trap and the wait for device time -/

theorem execLaunch {x d a ea} (h : s.MemCanonical) : MemKept (execLaunch x d a ea s) := .next (h.runPlain (fun k => k.recAct))

theorem execTrap {x n} (h : s.MemCanonical) : MemKept (execTrap x n s) := .next (h.runPlain (fun k => k.takeTrap))

theorem readFrame {t} (h : s.MemCanonical) : (s.readFrame t).MemKept := by
  unfold State.readFrame
  extract_lets x c
  split
  · exact h.walkEcc.endCtx
  · extract_lets rpc meet s1
    have used : s1.MemCanonical := h.useXlate
    split
    · trivial
    · split
      · exact used
      have first := used.nearLoad (t := t) (l := rpc) (useCopy := Config.freeBit s.tick (2 * t + 1))
      split
      · trivial
      · next hr => rw [hr] at first; exact first
      · next s2 r hr =>
        rw [hr] at first
        have second := first.finishLoad (t := t) (l := rpc) (ws := []) |>.nearLoad (t := t) (l := meet)
          (useCopy := Config.freeBit s.tick (2 * t + 2))
        split
        · trivial
        · next hm => rw [hm] at second; exact second
        · next hm => rw [hm] at second; exact second.finishLoad

theorem returnTrap {t rpc meet len} (h : s.MemCanonical) : (s.returnTrap t rpc meet len).MemCanonical := h.modTh.jump

theorem execRte {x} (h : s.MemCanonical) : MemKept (execRte x s) := by
  refine .next (.ite (h.runPlain fun {s t} k => ?_) (h.foldl fun k => k.illegal.ite (k.ite k.retire)))
  have read := k.readFrame (t := t)
  split
  · exact k.setStatus
  · next hr => rw [hr] at read; exact read
  · next hr => rw [hr] at read; exact read.returnTrap

theorem execTwait {x a ea} (h : s.MemCanonical) : MemKept (execTwait x a ea s) := .next (h.runPlain (fun k => k.retire))

theorem expire {t} (h : s.MemCanonical) : (s.expire t).MemCanonical := by
  unfold State.expire
  split
  · exact h.retire.ite h
  · exact h

theorem execTwaitExpiry {tid} (h : s.MemCanonical) : MemKept (execTwaitExpiry tid s) := .next (.ite (h.foldl (fun k => k.expire)) h.expire)

theorem execTrapDelivery {tid} (h : s.MemCanonical) : MemKept (execTrapDelivery tid s) := by
  refine .next ?_
  split
  · exact h.deliverTrap.ite h
  · exact h

/-! ### Contexts -/

theorem saveCores {cs} (h : s.MemCanonical) : (s.saveCores cs).MemCanonical :=
  .foldl (.foldl (.set rfl rfl (h.foldl (fun k => k.modCo fun _ hk => hk))) (fun k => k.touchWrites)) (fun k => k.setNear)

theorem restoreCores {cs} (h : s.MemCanonical) : (s.restoreCores cs).MemCanonical := .foldl h (fun k => k.modCo fun _ hk => hk)

theorem execRestore {ctx cores} (h : s.MemCanonical) : MemKept (execRestore ctx cores s) := .next (h.restoreCores.ite h)

theorem runPriv {x once chk act start} (h : s.MemCanonical) (hact : ∀ {s t}, s.MemCanonical → (act s t).MemCanonical)
    (hstart : ∀ {s t}, s.MemCanonical → (start s t).MemCanonical) : (runPriv x once chk act start s).MemCanonical :=
  .ite (h.runLanes hact hstart) (h.foldl (fun k => k.illegal))

theorem sysStart {a t} (h : s.MemCanonical) : (sysStart a s t).MemCanonical := h.startPops

theorem execTlbinv {x a} (h : s.MemCanonical) : MemKept (execTlbinv x a s) :=
  .next (h.runPriv (fun k => .retire (k.map rfl rfl (fun _ hk => hk) fun _ hk => hk)) fun k => k)

theorem sysDone {x d t r} (h : s.MemCanonical) : (sysDone x d s t r).MemCanonical := h.writeDst.usePops.retire

theorem execCtxsave {x d a} (h : s.MemCanonical) : MemKept (execCtxsave x d a s) :=
  .next (h.withReads (fun k => k.runPriv (fun l => l.sysDone.saveCores.modCtx.ite l.sysDone) (fun l => l.sysStart)))

theorem execCtxload {x d a} (h : s.MemCanonical) : MemKept (execCtxload x d a s) :=
  .next (h.withReads (fun k => k.runPriv (fun l => l.sysDone.restoreCores.modCtx.ite l.sysDone) (fun l => l.sysStart)))

theorem execIcinv {x} (h : s.MemCanonical) : MemKept (execIcinv x s) :=
  .next (h.runPriv (fun k => .retire (k.modCo fun _ hk => hk)) (fun k => k))

theorem haltCtx {id} (h : s.MemCanonical) : (s.haltCtx id).MemCanonical := h.endCtx.ite h

theorem execHalt {x a} (h : s.MemCanonical) : MemKept (execHalt x a s) :=
  .next (h.withReads (fun k => .foldl (k.runPriv (fun l => l.usePops.retire) (fun l => l.sysStart)) (fun l => l.haltCtx)))

/-! ### Launches -/

theorem eccDeps {l} (h : s.MemCanonical) : (s.eccDeps l).MemCanonical := (h.nearEcc.ite h).nearEcc.ite (h.nearEcc.ite h)

theorem refuseLaunch {l detail} (h : s.MemCanonical) : (s.refuseLaunch l detail).MemCanonical := h.modLa.completeOp

theorem startCollie {c} (h : s.MemCanonical) : (s.startCollie c).MemCanonical := h.ite (.modCo h fun _ hk => hk)

theorem initBuffers {l c} (h : s.MemCanonical) : (s.initBuffers l c).MemCanonical :=
  (((h.ite h.bufWrite).ite (h.ite h.bufWrite).bufWrite).ite ((h.ite h.bufWrite).ite (h.ite h.bufWrite).bufWrite).bufWrite).modCo fun _ hk
      => hk

theorem readyCore {l ctx ldie core} (h : s.MemCanonical) : (s.readyCore l ctx ldie core).1.MemCanonical := by
  unfold State.readyCore
  dsimp only
  split
  · exact .startCollie (.ite (h.modCo fun _ hk => hk) (.initBuffers (h.modCo fun _ hk => hk)))
  · have added {x} : ({ s with cores := s.cores ++ [{ CoreSt.blank with ctx, ldie, core, resident := x }] } : State).MemCanonical :=
      h.addCores rfl rfl (List.forall_mem_singleton.2 ⟨rfl, rfl, rfl⟩)
    exact (added.ite added.initBuffers).startCollie

theorem tryWarp {team c w} (h : s.MemCanonical) : ∀ u ∈ s.tryWarp team c w, u.MemCanonical := by
  refine optionIte (fun u hu => ?_) none
  obtain ⟨base, -, rfl⟩ := Option.map_eq_some_iff.1 hu
  exact h

theorem tryTeam {l ldie core t pack} (h : s.MemCanonical) : ∀ u ∈ s.tryTeam l ldie core t pack, u.MemCanonical := by
  have both {b : Bool} {c e} : (if b then let r := (s.readyCore l c ldie core).1.readyCore l c ldie e; (r.1, Option.some r.2)
      else ((s.readyCore l c ldie core).1, Option.none)).1.MemCanonical := iteFst h.readyCore.readyCore h.readyCore
  exact optionIte (foldlBind (some (.set rfl rfl both)) fun k => k.tryWarp) none

theorem startTeams {l die lo n pack at_} (h : s.MemCanonical) : ∀ u ∈ s.startTeams l die lo n pack at_, u.MemCanonical :=
  foldlBind h.some fun k => k.tryTeam

theorem takeTeams {l die n} (h : s.MemCanonical) : (s.takeTeams l die n).MemCanonical := h.modLa

theorem claimed {l die core} (h : s.MemCanonical) : ∀ u ∈ claimed s l die core, u.MemCanonical :=
  optionIte none (optionIte (optionMap h.startTeams fun k => k.takeTeams) (optionIte none h.takeTeams.modLa.some))

theorem packAt {l die lo cores} (h : s.MemCanonical) : ∀ u ∈ packAt s l die lo cores, u.MemCanonical := optionIte none h.startTeams

theorem packed {l die cores} (h : s.MemCanonical) : ∀ u ∈ packed s l die cores, u.MemCanonical := by
  unfold Machine.packed
  split
  · exact none
  · exact optionMap h.packAt fun k => k.modLa

theorem execTeamClaim {launch die core} (h : s.MemCanonical) : MemKept (execTeamClaim launch die core s) := .next (h.ite (h.getD h.claimed))

theorem execPackStart {launch die cores} (h : s.MemCanonical) : MemKept (execPackStart launch die cores s) :=
  .next (h.ite (h.getD h.packed))

theorem eccPieces {ctx va n} (h : s.MemCanonical) : (s.eccPieces ctx va n).1.MemCanonical := h.foldlFst (fun k => k.iteFst k.nearEcc)

theorem addCell {l team c w d image ell} (h : s.MemCanonical) : (s.addCell l team c w d image ell).MemCanonical := .touchWrites h

theorem addPartition {l w d image p} (h : s.MemCanonical) : (s.addPartition l w d image p).MemCanonical :=
  .foldl (.set rfl rfl h.readyCore) (fun k => k.addCell)

theorem firstFaces {l d} (h : s.MemCanonical) : (s.firstFaces l d).MemCanonical :=
  h.foldl (fun k => .sendFaces (k.foldl (fun l => l.setFace)))

theorem markStarted {l init} (h : s.MemCanonical) : (s.markStarted l init).MemCanonical := h.modLa.modOp.bump

theorem startLattice {l place peer init} (h : s.MemCanonical) : ∀ u ∈ s.startLattice l place peer init, u.MemCanonical := by
  unfold State.startLattice
  extract_lets x w dva iva unread e1
  have unreadable : ∀ u ∈ unread, u.MemCanonical := h.refuseLaunch.some
  clear_value unread
  split
  · exact unreadable
  · extract_lets d e2 s1
    have read : e2.1.MemCanonical := iteFst h.eccPieces h.eccPieces.eccPieces
    have marked : s1.MemCanonical := read.markStarted.modLa
    clear_value e2 s1
    split
    · exact h.refuseLaunch.some
    · split
      · exact unreadable
      · exact optionIte read.some (optionIte read.refuseLaunch.some (optionIte read.refuseLaunch.some
          (optionIte (some (.set rfl rfl (marked.foldl fun k => k.addPartition).firstFaces)) none)))

theorem startPool {l init} (h : s.MemCanonical) : (s.startPool l init).MemCanonical := h.markStarted.modLa

theorem startHead {l place} (h : s.MemCanonical) : (s.startHead l place).MemCanonical :=
  .ite (.ite (h.getD (optionMap h.startLattice fun k => k)) (.set rfl rfl (h.startPool (l := l) (init := place.init)))) h

theorem execLaunchStart {launch place} (h : s.MemCanonical) : MemKept (execLaunchStart launch place s) :=
  .next (h.ite (h.refuseLaunch.ite h.eccDeps.startHead))

theorem execPreempt {ctx cores why} (h : s.MemCanonical) : MemKept (execPreempt ctx cores why s) := .next (h.saveCores.ite h)

theorem execGridComplete {launch} (h : s.MemCanonical) : MemKept (execGridComplete launch s) := .next (h.completeGrid.ite h)

end

end State.MemCanonical

end Sys2Proof.Machine
end

section
/-! PROOF. Canonical memories (O57): resets, links, the host, and the rest of the instructions. -/

namespace Sys2Proof.Machine

namespace State.MemCanonical

section
variable {s u : State}

/-! ### Die resets -/

theorem flushRoutes {i} (h : s.MemCanonical) : (s.flushRoutes i).MemCanonical := .foldl h (fun k => k.deliverEffect)

theorem failOps {ctx status} (h : s.MemCanonical) : (s.failOps ctx status).MemCanonical :=
  h.foldl (fun k => (k.flushRoutes.stopOp.countDown.completeOp.ite k.completeOp).ite k)

theorem resetDie {d toService} (h : s.MemCanonical) : (s.resetDie d toService).MemCanonical := by
  unfold State.resetDie
  exact .modDie (.foldl (h.modDie fun _ hk => hk) fun k => k.failOps.endCtx) fun _ _ => rfl

theorem execDieResetCompleted {die} (h : s.MemCanonical) : MemKept (execDieResetCompleted die s) := by
  refine .next ?_
  split
  · exact .ioEvent (h.modDie fun _ hk => hk)
  · exact h

theorem execDieFatal {die field} (h : s.MemCanonical) : MemKept (execDieFatal die field s) :=
  .next (.ite (.resetDie (.ite h (.ioEvent h))) h)

theorem execFaultRecordOffer {die} (h : s.MemCanonical) : MemKept (execFaultRecordOffer die s) := by
  unfold Machine.execFaultRecordOffer
  extract_lets s1
  have unlatched : s1.MemCanonical := by
    unfold s1
    split
    · exact h
    · refine .ite ?_ h
      dsimp only
      split
      · exact .enterFault (h.modDie fun _ hk => hk)
      · exact .pushEvent (h.modDie fun _ hk => hk)
  refine .next ?_
  split
  · exact unlatched
  · refine unlatched.getD (takeFault ?_)
    exact unlatched.modDie fun _ hk => hk

theorem terminateOp {i} (h : s.MemCanonical) : (s.terminateOp i).MemCanonical := h.flushRoutes.stopOp.endDone

theorem answer {die terminate} (h : s.MemCanonical) : (s.answer die terminate).MemCanonical := by
  unfold State.answer
  dsimp only
  split
  · exact h
  · split
    · exact h.modDie fun _ hk => hk
    · split
      · split
        · exact .endCtx (.ite (.terminateOp (h.modDie fun _ hk => hk)) (h.modDie fun _ hk => hk))
        · exact .endCtx (h.modDie fun _ hk => hk)
      · split
        · exact .ite (.setStatus (h.modDie fun _ hk => hk)) (h.modDie fun _ hk => hk)
        · exact .ite (.modOp (h.modDie fun _ hk => hk)) (h.modDie fun _ hk => hk)
        · exact h.modDie fun _ hk => hk

theorem execFrespReplay {die} (h : s.MemCanonical) : MemKept (execFrespReplay die s) := .next h.answer

theorem execFrespTerminate {die} (h : s.MemCanonical) : MemKept (execFrespTerminate die s) := .next h.answer

/-! ### Links and time -/

theorem modLink {n f} (h : s.MemCanonical) : (s.modLink n f).MemCanonical := h

theorem setMember {rank ndie} (h : s.MemCanonical) : (s.setMember rank ndie).MemCanonical := h.ite h

theorem loseAll {lost} (h : s.MemCanonical) : (s.loseAll lost).MemCanonical :=
  .foldl (h.foldl (fun k => k.loseRoute)) (fun k => k.loseMember)

theorem dropMember {rank} (h : s.MemCanonical) : (s.dropMember rank).MemCanonical := by
  unfold State.dropMember
  split
  · exact h.ite h
  · exact h

theorem execLinkRetriesExhausted {port lost} (h : s.MemCanonical) : MemKept (execLinkRetriesExhausted port lost s) := by
  refine .next ?_
  dsimp only
  split
  · exact h.modLink.ioEvent.loseAll.dropMember.ite h
  · exact h

theorem execLinkUp {port rank ndie} (h : s.MemCanonical) : MemKept (execLinkUp port rank ndie s) := by
  refine .next ?_
  split
  · exact h.ite (h.modLink.setMember.ite h.modLink)
  · exact h

theorem execTimeLockLost (h : s.MemCanonical) : MemKept (execTimeLockLost s) := .next (.ite (.raiseBoth (.ioEvent h)) h)

theorem execTimeLockGained {gmTime} (h : s.MemCanonical) : MemKept (execTimeLockGained gmTime s) := .next (h.ite (.raiseBoth (.ioEvent h)))

theorem execLinkRetry {port} (h : s.MemCanonical) : MemKept (execLinkRetry port s) := .next h.modLink

theorem execHostLinkDown {port} (h : s.MemCanonical) : MemKept (execHostLinkDown port s) := .next h.modPort

theorem execMemberCompletesStart {rank ndie} (h : s.MemCanonical) : MemKept (execMemberCompletesStart rank ndie s) := .next h.setMember

theorem execLinkstat {port} (h : s.MemCanonical) : MemKept (execLinkstat port s) := .next h.modLink

/-! ### The host -/

theorem hostError {p l va ctx} (h : s.MemCanonical) : (s.hostError p l va ctx).MemCanonical := h.modPort

theorem aer {p b} (h : s.MemCanonical) : (s.aer p b).MemCanonical := h.modPort

theorem unsupported {port req} (h : s.MemCanonical) : (s.unsupported port req).MemCanonical := .aer h

theorem execInboundPostedWrite {port req off bytes poisoned} (h : s.MemCanonical) :
    MemKept (execInboundPostedWrite port req off bytes poisoned s) :=
  .next (h.ite (h.unsupported.ite (h.hostError.aer.ite h.pushRoute)))

theorem execInboundRead {port req off len} (h : s.MemCanonical) : MemKept (execInboundRead port req off len s) := by
  unfold Machine.execInboundRead
  extract_lets p x done
  have done_kept {s r} (h : s.MemCanonical) : (done s r).MemCanonical := .ite (.aer h) h
  clear_value done
  refine .next (h.ite (h.unsupported.ite (h.ite ?_)))
  dsimp only
  split
  · exact .ite (done_kept h.walkEcc.eccGuard) (done_kept h.walkEcc.eccGuard)
  · exact done_kept h.walkEcc.hostError

theorem performLgo {port w} (h : s.MemCanonical) : (s.performLgo port w).MemCanonical := by
  unfold State.performLgo
  dsimp only
  split
  · exact h.modPort
  · split
    · exact h
    · exact .enterLaunch (.modPort h)

theorem writeLgo {port req ctxid} (h : s.MemCanonical) : (s.writeLgo port req ctxid).MemCanonical := by
  unfold State.writeLgo
  dsimp only
  split
  · exact h.modPort.performLgo.ite h
  · exact h.ite (h.performLgo.ite h.modPort)

theorem execHostLaunch {port req ctxid} (h : s.MemCanonical) : MemKept (execHostLaunch port req ctxid s) := .next (h.writeLgo.ite h)

theorem writePort {p block off v} (h : s.MemCanonical) : (writePort s p block off v).MemCanonical := by
  unfold Machine.writePort
  dsimp only
  split
  · exact h.modPort.ite h
  · split
    · exact h.modPort
    · exact h.modPort
    · exact h.modPort.admitRing.ite h
    · exact h.modPort.admitRing
    · exact h.modPort
    · exact h

theorem startCommand {v} (h : s.MemCanonical) : (startCommand s v).MemCanonical := h.ite h

theorem setErrinj {v} (h : s.MemCanonical) : (setErrinj s v).MemCanonical := h

theorem controlWrite {off v} (h : s.MemCanonical) : (controlWrite s off v).MemCanonical :=
  .ite h (.ite h (h.startCommand.ite (h.writePort.ite (h.writePort.ite (h.answer.ite (h.setErrinj.ite (.ite h (.ite h (.ite h (.ite h
      (.ite h (.ite (h.modDie fun _ hk => hk) (.ite h (.ite (h.modDie fun _ hk => hk) (.ite h (.ite h (.ite h (.ite h (h.modPort.ite
      (h.modPort.ite (h.modPort.ite (h.modPort.ite h))))))))))))))))))))))

theorem raisePending {p} (h : s.MemCanonical) : (s.raisePending p).MemCanonical := h.ite (h.foldl (fun k => k.modPort.raiseVec))

theorem execControlRegisterWrite {acc val} (h : s.MemCanonical) : MemKept (execControlRegisterWrite acc val s) :=
  .next (h.ite ((h.ite h.aer).ite ((h.modPort.raisePending.ite h).ite (h.writeLgo.ite (h.writeLgo.ite (h.ite (h.controlWrite.ite
      h.unsupported)))))))

theorem execErrinj {val} (h : s.MemCanonical) : MemKept (execErrinj val s) := .next h.setErrinj

theorem execEqpop (h : s.MemCanonical) : MemKept (execEqpop s) := .next h

theorem execFatalstat {val} (h : s.MemCanonical) : MemKept (execFatalstat val s) := .next h

theorem execTimelo {req} (h : s.MemCanonical) : MemKept (execTimelo req s) := .next h

/-! ### The scheduler's events, and what an issue selects -/

theorem execMeetRelease {warp at_} (h : s.MemCanonical) : MemKept (execMeetRelease warp at_ s) :=
  .next (.ite (h.foldl (fun k => k.modTh.ite k)) h)

theorem execBundleRegroup {core groups} (h : s.MemCanonical) : MemKept (execBundleRegroup core groups s) :=
  .next (.ite (.modCo (h.foldl (fun k => k.setStatus.ite k)) fun _ hk => hk) h)

theorem execIssueBound {core i} (h : s.MemCanonical) : MemKept (execIssueBound core i s) := .next (h.ite h)

/-! ### The bit stream -/

theorem execBsld {x a k ea eb n} (h : s.MemCanonical) : MemKept (execBsld x a k ea eb n s) := .next (h.runPlain (fun k => k.modTh.retire))

theorem execBsget {x d n} (h : s.MemCanonical) : MemKept (execBsget x d n s) :=
  .next (h.runPlain (fun k => k.orWait k.modTh.writeDst.retire))

/-! ### Grace periods and pools -/

theorem execQenter {x} (h : s.MemCanonical) : MemKept (execQenter x s) := .next (h.runPlain (fun k => k.modTh.retire))

theorem bundleMark {x scope bundle m t} (h : s.MemCanonical) : (bundleMark x scope bundle m s t).MemCanonical := h.toFifo.setStatus

theorem issueMark {x scope m t} (h : s.MemCanonical) : (issueMark x scope m s t).MemCanonical := h.bundleMark

theorem execQleave {x} (h : s.MemCanonical) : MemKept (execQleave x s) := .next (h.runPlain (fun k => k.issueMark))

theorem execQpt {x} (h : s.MemCanonical) : MemKept (execQpt x s) := .next (h.runPlain (fun k => k.issueMark))

theorem execGwait {x} (h : s.MemCanonical) : MemKept (execGwait x s) := by
  refine .next (h.runPlain (fun k => ?_))
  split
  · exact k.discardCopies.retire
  · exact k.issueMark

theorem joinGstart {x d old t} (h : s.MemCanonical) : (joinGstart x d old s t).MemCanonical := by
  unfold Machine.joinGstart
  dsimp only
  split
  · exact h.growNew.setStatus
  · exact h.issueMark

theorem execGstart {x d} (h : s.MemCanonical) : MemKept (execGstart x d s) := .next (h.runPlain (fun k => k.joinGstart))

theorem execGpoll {x p a} (h : s.MemCanonical) : MemKept (execGpoll x p a s) :=
  .next (h.runPlain (fun k => (k.discardCopies.ite k).setP.retire))

theorem execPalloc {x d a ea eb} (h : s.MemCanonical) : MemKept (execPalloc x d a ea eb s) := by
  refine .next (h.runPlain (fun k => ?_))
  dsimp only
  split
  · exact k.discardCopies.writeDst.setP.retire
  · split
    · exact k.modCtx.discardCopies.writeDst.setP.retire
    · exact k.discardCopies.writeDst.setP.retire

theorem execPfree {x a b ea eb} (h : s.MemCanonical) : MemKept (execPfree x a b ea eb s) := .next (h.runPlain (fun k => k.bundleMark))

theorem execLees {x a b ea eb} (h : s.MemCanonical) : MemKept (execLees x a b ea eb s) := .next (h.runPlain (fun k => k.bundleMark))

theorem returnLees {d} (h : s.MemCanonical) : (s.returnLees d).MemCanonical := .modDie (h.foldl (fun k => k.modCtx)) fun _ hk => hk

theorem execBeginPeriod (h : s.MemCanonical) : MemKept (execBeginPeriod s) := .next (.ite (.discardAllCopies h) h)

theorem execEndPeriod (h : s.MemCanonical) : MemKept (execEndPeriod s) := .next (.ite (.set rfl rfl (h.foldl (fun k => k.returnLees))) h)

/-! ### Special registers -/

theorem latchTime {t n} (h : s.MemCanonical) : (latchTime s t n).MemCanonical := h.modTh.ite h

theorem execGets {x d n} (h : s.MemCanonical) : MemKept (execGets x d n s) := .next (h.runPlain (fun k => k.latchTime.writeDst.retire))

theorem setSreg {t n w} (h : s.MemCanonical) : (setSreg s t n w).MemCanonical := by
  unfold Machine.setSreg
  dsimp only
  split
  · exact h.modTh
  · exact h.modTh
  · exact h.modTh
  · exact h.modTh
  · exact h.modTh
  · exact h.modTh
  · exact h.modWp
  · exact h.modTh
  · exact h.modTh
  · exact h

theorem execSets {x a n} (h : s.MemCanonical) : MemKept (execSets x a n s) := .next (h.runPlain (fun k => k.setSreg.retire))

/-! ### Management and start -/

theorem tamper {input} (h : s.MemCanonical) : (s.tamper input).MemCanonical := h.ite (.set rfl rfl (h.foldl (fun k => k.endCtx)))

theorem execTamperAlarm {input} (h : s.MemCanonical) : MemKept (execTamperAlarm input s) := .next (h.ite h.tamper)

theorem verified {ok} (h : s.MemCanonical) : (s.verified ok).MemCanonical := .ite h (.ite (.tamper h) h)

theorem countStep {r halted i} (h : s.MemCanonical) : (s.countStep r halted i).MemCanonical := h.verified.ite (h.verified.ite h)

theorem cmdResult {code} (h : s.MemCanonical) : (s.cmdResult code).MemCanonical := h

theorem runCommand {op blk causes act} (h : s.MemCanonical) (hact : ∀ {s}, s.MemCanonical → (act s).MemCanonical) :
    (runCommand s op blk causes act).MemCanonical :=
  h.ite (h.cmdResult.ite (h.ite ((hact h).cmdResult.ite h.cmdResult)))

theorem runImage {op blk before ok after act} (h : s.MemCanonical) (hact : ∀ {s}, s.MemCanonical → (act s).MemCanonical) :
    (runImage s op blk before ok after act).MemCanonical :=
  .ite (.verified (h.runCommand hact)) (h.runCommand hact)

theorem execCreateContext {blk rec pools room} (h : s.MemCanonical) : MemKept (execCreateContext blk rec pools room s) :=
  .next (h.runCommand (fun k => k))

theorem execDestroyContext {blk} (h : s.MemCanonical) : MemKept (execDestroyContext blk s) := .next (h.runCommand (fun k => k.haltCtx))

theorem execLoadScheduleImage {blk img sig room} (h : s.MemCanonical) : MemKept (execLoadScheduleImage blk img sig room s) :=
  .next (h.runImage (fun k => k))

theorem execLoadFirmware {blk img sig} (h : s.MemCanonical) : MemKept (execLoadFirmware blk img sig s) := .next (h.runImage (fun k => k))

theorem execSetDomainRank {blk} (h : s.MemCanonical) : MemKept (execSetDomainRank blk s) := .next (h.runCommand (fun k => k))

theorem execResetDie {blk} (h : s.MemCanonical) : MemKept (execResetDie blk s) := .next (h.runCommand (fun k => k.resetDie))

theorem execClearBootHistory {blk} (h : s.MemCanonical) : MemKept (execClearBootHistory blk s) := .next (h.runCommand (fun k => k))

theorem execAnswerFault {blk} (h : s.MemCanonical) : MemKept (execAnswerFault blk s) := .next (.ite (h.runCommand fun k => k) h)

theorem execManagementCommandDone (h : s.MemCanonical) : MemKept (execManagementCommandDone s) := .next (.ite h h)

theorem spdmAnswer {port name} (h : s.MemCanonical) : (spdmAnswer s port name).MemCanonical := h.ite h

theorem execGetVersion {port} (h : s.MemCanonical) : MemKept (execGetVersion port s) := .next h.spdmAnswer

theorem execGetCapabilities {port} (h : s.MemCanonical) : MemKept (execGetCapabilities port s) := .next h.spdmAnswer

theorem execNegotiateAlgorithms {port} (h : s.MemCanonical) : MemKept (execNegotiateAlgorithms port s) := .next h.spdmAnswer

theorem execGetDigests {port} (h : s.MemCanonical) : MemKept (execGetDigests port s) := .next h.spdmAnswer

theorem execGetCertificate {port} (h : s.MemCanonical) : MemKept (execGetCertificate port s) := .next h.spdmAnswer

theorem execChallenge {port} (h : s.MemCanonical) : MemKept (execChallenge port s) := .next h.spdmAnswer

theorem execGetMeasurements {port} (h : s.MemCanonical) : MemKept (execGetMeasurements port s) := .next h.spdmAnswer

end

/-! ### Starts of the device -/

/-- A start leaves empty memories, whatever was there. -/
theorem bootState {s : State} {f restarts} : (s.bootState f restarts).MemCanonical :=
  ⟨List.forall_mem_map.2 fun _ _ => by
    dsimp only
    split
    · rfl
    · rfl, List.forall_mem_nil _⟩

theorem boot {s : State} {f restarts} : (s.boot f restarts).MemCanonical := by
  unfold State.boot
  extract_lets r record s1 s2 ok s3
  have first : s1.MemCanonical := bootState.countStep
  have second : s2.MemCanonical := first.ite first.countStep
  have third : s3.MemCanonical := second.verified
  exact .ite (.ite third third) second

section
variable {s u : State}

theorem execDeviceRestart {f} (h : s.MemCanonical) : MemKept (execDeviceRestart f s) := .next (h.ite boot)


end

end State.MemCanonical

end Sys2Proof.Machine
end

section
/-! PROOF. Canonical memories (O57): every instruction and event, and every step. -/

namespace Sys2Proof.Machine

namespace State.MemCanonical

section
variable {s u : State}

theorem exec {i} (h : s.MemCanonical) : MemKept (exec i s) := by
  cases i with
  | add | sub | mul | mulh | mulhu | mad | div | divu | rem | remu | min | max | minu | maxu | and_ | or_ | xor | andn |
    shl | shr | sar | rot | addsat | addi | muli | andi | ori | xori | shli | shri | sari | roti | movi | movh | mov |
    not_ | neg | abs | clz | ctz | popc | brev | bswap | sxb | sxh | zxb | zxh | setp | sel | setpi | fadd | fsub | fmul |
    ffma | fmin | fmax | fdiv | fsetp | fabs | fneg | fsqrt | frcp | frsq | fexp2 | flog2 | ffloor | fceil | ftrunc |
    frint | f2i | f2iz | f2u | f2uz | i2f | u2f | f2bf | bf2f | f2h | h2f | bfma2 | badd2 | dot4 | dot8 | fscl | pk8 |
    upk8 | pk4 | upk4 | ftag | bfx | bfi | blend | bsrf | mupdw | mupd | mclr | mmean | mvar | mvars | mrstd | msum =>
    exact h.runJob
  | ldn | lda | ldc | ldw => exact h.runLoad
  | stn | sta | stc => exact h.runStore
  | vote | veq | shfl | xchg | wred | wscan => exact h.runCross
  | join | leaveMask | mzeroMask | mfill | mmov | mand | mor | mxor | mnot => exact h.runMask fun k => k.setMask
  | phase | phaseRetire => exact h.runPhase
  | barInit | barArrive | barExpect => exact h.runBar
  | getVersion | getCapabilities | negotiateAlgorithms | getDigests | getCertificate | challenge | getMeasurements =>
    exact .next h.spdmAnswer
  | bsld x a k ea eb n => exact h.execBsld (k := k) (eb := eb) (n := n)
  | bsget => exact h.execBsget
  | jmp => exact h.execJmp
  | brp => exact h.execBrp
  | call => exact h.execCall
  | nop => exact h.execNop
  | ret => exact h.execRet
  | exit => exact h.execExit
  | yield => exact h.execYield
  | brk => exact h.execBrk
  | jmpi w eb => exact h.execJmpi (eb := eb)
  | meet => exact h.execMeet
  | mwait => exact h.execMwait
  | mpopc => exact h.execMpopc
  | mtos => exact h.execMtos
  | loop => exact h.execLoop
  | wbase => exact h.execWbase
  | ldsc => exact h.execLdsc
  | atom => exact h.execAtom
  | ared => exact h.execAred
  | aredX => exact h.execAredX
  | ldx w eb => exact h.execLdx (eb := eb)
  | stx => exact h.execStx
  | fence => exact h.execFence
  | fenceNtdrain => exact h.execFenceNtdrain
  | pref x a off => exact h.execPref (off := off)
  | atoma => exact h.execAtoma
  | areda => exact h.execAreda
  | nbok => exact h.execNbok
  | lred => exact h.execLred
  | lcfg => exact h.execLcfg
  | mres => exact h.execMres
  | mresw => exact h.execMresw
  | mrel => exact h.execMrel
  | mma x d a b k eb => exact h.execMma (k := k)
  | mdr x d a k ea eb => exact h.execMdr (k := k) (eb := eb)
  | xcp => exact h.execXcp
  | xsort => exact h.execXsort
  | xcol => exact h.execXcol
  | mzero => exact h.execMzero
  | barWait => exact h.execBarWait
  | barTest => exact h.execBarTest
  | fwait => exact h.execFwait
  | ftest => exact h.execFtest
  | fcancel => exact h.execFcancel
  | qenter => exact h.execQenter
  | qleave => exact h.execQleave
  | qpt => exact h.execQpt
  | gwait => exact h.execGwait
  | gstart => exact h.execGstart
  | gpoll => exact h.execGpoll
  | lees => exact h.execLees
  | palloc x d a ea eb => exact h.execPalloc (eb := eb)
  | pfree => exact h.execPfree
  | qlen => exact h.execQlen
  | qbind => exact h.execQbind
  | launch => exact h.execLaunch
  | trap => exact h.execTrap
  | rte => exact h.execRte
  | gets => exact h.execGets
  | sets => exact h.execSets
  | twait => exact h.execTwait
  | tlbinv => exact h.execTlbinv
  | ctxsave => exact h.execCtxsave
  | ctxload => exact h.execCtxload
  | icinv => exact h.execIcinv
  | halt => exact h.execHalt
  | leaveFifo => exact h.execLeaveFifo
  | apply => exact h.execApply
  | drain => exact h.execDrain
  | merge => exact h.execMerge
  | fill => exact h.execFill
  | evict => exact h.execEvict
  | perform => exact h.execPerform
  | ntDrain => exact h.execNtDrain
  | deliver => exact h.execDeliver
  | engineStart => exact h.execEngineStart
  | engineRead => exact h.execEngineRead
  | engineWrite => exact h.execEngineWrite
  | engineComplete => exact h.execEngineComplete
  | engineCancel => exact h.execEngineCancel
  | channelPopServed => exact h.execChannelPopServed
  | meetRelease => exact h.execMeetRelease
  | crossLaneMeeting => exact h.execCrossLaneMeeting
  | mwaitRelease => exact h.execMwaitRelease
  | bundleRegroup => exact h.execBundleRegroup
  | issueBound => exact h.execIssueBound
  | deferredComplete => exact h.execDeferredComplete
  | phaseEnd => exact h.execPhaseEnd
  | faceDelivery => exact h.execFaceDelivery
  | phaseReport => exact h.execPhaseReport
  | lredResult => exact h.execLredResult
  | pagerFill => exact h.execPagerFill
  | pagerExchange => exact h.execPagerExchange
  | launchStart => exact h.execLaunchStart
  | teamClaim => exact h.execTeamClaim
  | packStart => exact h.execPackStart
  | gridComplete => exact h.execGridComplete
  | trapDelivery => exact h.execTrapDelivery
  | preempt => exact h.execPreempt
  | restore => exact h.execRestore
  | twaitExpiry => exact h.execTwaitExpiry
  | faultRecordOffer => exact h.execFaultRecordOffer
  | peerAckTimeout => exact h.execPeerAckTimeout
  | inboundPostedWrite => exact h.execInboundPostedWrite
  | inboundRead => exact h.execInboundRead
  | hostLaunch => exact h.execHostLaunch
  | createContext => exact h.execCreateContext
  | destroyContext => exact h.execDestroyContext
  | loadScheduleImage => exact h.execLoadScheduleImage
  | loadFirmware => exact h.execLoadFirmware
  | setDomainRank => exact h.execSetDomainRank
  | resetDie => exact h.execResetDie
  | clearBootHistory => exact h.execClearBootHistory
  | answerFault => exact h.execAnswerFault
  | controlRegisterWrite => exact h.execControlRegisterWrite
  | linkRetriesExhausted => exact h.execLinkRetriesExhausted
  | linkUp => exact h.execLinkUp
  | timeLockLost => exact h.execTimeLockLost
  | timeLockGained => exact h.execTimeLockGained
  | dieFatal => exact h.execDieFatal
  | tamperAlarm => exact h.execTamperAlarm
  | dieResetCompleted => exact h.execDieResetCompleted
  | managementCommandDone => exact h.execManagementCommandDone
  | hostCompletion => exact h.execHostCompletion
  | frespReplay | frespTerminate => exact .next h.answer
  | errinj => exact .next h.setErrinj
  | eqpop | fatalstat | timelo => exact .next h
  | hostLinkDown => exact h.execHostLinkDown
  | linkstat | linkRetry => exact .next h.modLink
  | memberCompletesStart => exact .next h.setMember
  | beginPeriod => exact h.execBeginPeriod
  | endPeriod => exact h.execEndPeriod
  | deviceStart => exact .next boot
  | deviceRestart => exact h.execDeviceRestart

end

end State.MemCanonical

/-- The state in which a bundle's issue ends or its instruction executes has canonical memories. -/
def Issued.MemKept : Issued → Prop
  | .settled u | .run _ u => u.MemCanonical

theorem Issued.MemKept.settled {u : State} (h : u.MemCanonical) : (Issued.settled u).MemKept := h

theorem MemKept.fault {f : Fault} : MemKept (.fault f) := fun _ hu => nomatch hu

theorem MemKept.refused {r : Refusal} : MemKept (.refused r) := fun _ hu => nomatch hu

namespace State.MemCanonical

section
variable {s u : State}

theorem issueOf {c b} (h : s.MemCanonical) : (issueOf s c b).MemKept := by
  unfold Machine.issueOf
  split
  · exact h
  · split
    · exact .settled (.ite (h.cacheLine.foldl fun k => k.park) h.cacheLine)
    · extract_lets i lanes s1
      have cached : s1.MemCanonical := h.cacheLine.cacheLine
      split
      · exact cached
      · split
        · exact cached.foldl fun k => k.illegal
        · exact cached

/-- What a step takes is an instruction or an event, executed in a state with canonical memories. -/
theorem taken (h : s.MemCanonical) : MemKept (taken s) := by
  unfold Machine.taken
  split
  · exact h.exec
  · split
    · next c b _ =>
      have issued := issueOf (s := { s with forced := Option.none }) h (c := c) (b := (s.co c).bundles.getD b [])
      split
      · next hi => rw [hi] at issued; exact .next issued
      · next hi => rw [hi] at issued; exact issued.exec
    · split
      · split
        · exact h.exec
        · exact .next h
      · exact .next h

theorem step (h : s.MemCanonical) : MemKept (step s) := by
  unfold Machine.step
  split
  · exact .fault
  · have kept := h.taken
    split
    · next v hv => exact .next (kept v hv)
    · exact .fault
    · exact .refused

end

end State.MemCanonical

/-- Settles O57: each of a step's operations keeps the memories canonical, by the rule of its name. -/
theorem memoryStaysCanonicalInEveryStep : Obligations.MemoryStaysCanonicalInEveryStep := by
  unfold Obligations.MemoryStaysCanonicalInEveryStep
  exact fun s u hs hu => hs.step u hu

end Sys2Proof.Machine
end
